-- ==== Sys2Proof/Word.lean ====
section
/-! DEFINITION. Word types of the engine, and the plainest arithmetic on them (spec/00_scope.md R7). -/

namespace Sys2Proof

/-- A byte of any memory of the engine (R7). -/
abbrev Byte := BitVec 8

/-- A 64-bit word: Device Time, addresses in transit, sync counters, scalar registers. -/
abbrev Word64 := BitVec 64

/-- A 32-bit register of BAR0 (R8, R339). -/
abbrev Word32 := BitVec 32

/-- A 128-bit tile bundle or gate micro-op (R77, R115). -/
abbrev Word128 := BitVec 128

/-- A 256-bit tensor descriptor (R82). -/
abbrev Word256 := BitVec 256

/-- Bits high:low of a number, both ends included (R7). -/
def bitsOf (w high low : Nat) : Nat := (w >>> low) % 2 ^ (high + 1 - low)

/-- One bit of a number (R7). -/
def bitOf (w i : Nat) : Bool := (w >>> i) % 2 == 1

/-- The little-endian number that a list of bytes spells (R7). -/
def leNat : List Byte → Nat
  | [] => 0
  | b :: bs => b.toNat + 256 * leNat bs

/-- The n little-endian bytes of a number (R7). -/
def leBytes : Nat → Nat → List Byte
  | 0, _ => []
  | n + 1, v => BitVec.ofNat 8 v :: leBytes n (v / 256)

end Sys2Proof
end

