-- ==== Sys2Proof/Syntax.lean ====
section
/-! DEFINITION. The commands of the engine: one constructor of `Instr` per row of spec/opcode_table.json. A ring command carries
the common header of R350 and the fields of its body table; an event carries the unit it happens to and what the outside
supplied. Reserved fields of a submission entry are not operands here: RING_FETCH checks them on the bytes (R5, R431). -/

namespace Sys2Proof

/-- The common header of a submission entry, and the function and ring it was read from (R350). `cls` is CLASS (R241). -/
structure ReqHeader where
  fn : BitVec 8
  sq : BitVec 8
  cls : BitVec 2
  imm : Bool
  fence : Bool
  deadline : BitVec 32
  timeout : BitVec 32
  cid : BitVec 64
deriving DecidableEq, Repr

/-- Body of SYNC_WAIT and SYNC_SIGNAL (R358). -/
structure SyncBody where
  cidx : BitVec 16
  value : BitVec 64
deriving DecidableEq, Repr

/-- Body of COPY (R359). -/
structure CopyBody where
  dir : BitVec 8
  cslot : BitVec 16
  src : BitVec 64
  dst : BitVec 64
  len : BitVec 64
deriving DecidableEq, Repr

/-- Body of TILE_RUN (R108). -/
structure TileRunBody where
  prog : BitVec 64
  len : BitVec 32
  gang : BitVec 8
  arg0 : BitVec 64
  arg1 : BitVec 64
  arg2 : BitVec 64
deriving DecidableEq, Repr

/-- Body of PACKAGE_LOAD (R394). -/
structure PackageLoadBody where
  lunit : BitVec 32
  cbase : BitVec 16
  slotbase : BitVec 16
  cap : BitVec 64
deriving DecidableEq, Repr

/-- Body of STREAM_OPEN (R208). -/
structure StreamOpenBody where
  pkg : BitVec 32
  profile : BitVec 8
  result : BitVec 64
deriving DecidableEq, Repr

/-- Body of STREAM_PARK (R221). -/
structure ParkBody where
  stream : BitVec 16
  flags : BitVec 8
deriving DecidableEq, Repr

/-- Body of STEP (R131). -/
structure StepBody where
  batch : BitVec 64
  nstreams : BitVec 16
  pq : BitVec 16
  out : BitVec 64
deriving DecidableEq, Repr

/-- Body of PREFILL (R160). -/
structure PrefillBody where
  stream : BitVec 16
  flags : BitVec 8
  topk : BitVec 8
  itemp : BitVec 16
  ntok : BitVec 32
  tokens : BitVec 64
  out : BitVec 64
  pq : BitVec 16
deriving DecidableEq, Repr

/-- Body of REC_CHUNK (R210). -/
structure RecChunkBody where
  stream : BitVec 16
  entry : BitVec 8
  npos : BitVec 32
  inp : BitVec 64
  out : BitVec 64
  marks : BitVec 64
deriving DecidableEq, Repr

/-- Body of KV_MAP (R183). -/
structure KvMapBody where
  stream : BitVec 16
  mode : BitVec 8
  first : BitVec 16
  npages : BitVec 16
  sstream : BitVec 16
  sfirst : BitVec 16
  src : BitVec 64
deriving DecidableEq, Repr

/-- Body of KV_UNMAP (R188). -/
structure KvUnmapBody where
  stream : BitVec 16
  first : BitVec 16
  npages : BitVec 16
deriving DecidableEq, Repr

/-- Body of POOL_GROW and POOL_SHRINK (R191). -/
structure PoolBody where
  tier : BitVec 8
  flags : BitVec 8
  quads : BitVec 32
  rtgt : BitVec 32
deriving DecidableEq, Repr

/-- Body of TABLE_LOAD (R299). -/
structure TableLoadBody where
  slot : BitVec 16
  mode : BitVec 8
  npc : BitVec 8
  nblk : BitVec 16
  src : BitVec 64
  result : BitVec 64
deriving DecidableEq, Repr

/-- Body of JOB_BEGIN (R356). -/
structure JobBeginBody where
  tag : BitVec 64
  spanjob : BitVec 64
  flags : BitVec 8
deriving DecidableEq, Repr

/-- Body of PRESENT (R253). -/
structure PresentBody where
  pq : BitVec 16
  flags : BitVec 8
  notbefore : BitVec 32
  cidx : BitVec 16
  target : BitVec 64
  tag : BitVec 64
deriving DecidableEq, Repr

/-- Body of CONTEXT_CREATE (R360). -/
structure ContextCreateBody where
  ctx : BitVec 8
  flags : BitVec 8
  weight : BitVec 8
  sync : BitVec 16
  cslots : BitVec 16
  quota0 : BitVec 32
  quota1 : BitVec 32
  streams : BitVec 32
  dquota : BitVec 16
deriving DecidableEq, Repr

/-- Body of FW_UPDATE (R444). -/
structure FwUpdateBody where
  src : BitVec 64
  len : BitVec 32
  mode : BitVec 8
deriving DecidableEq, Repr

/-- Body of LIB_WRITE (R418). -/
structure LibWriteBody where
  lunit : BitVec 32
  nunits : BitVec 32
  src : BitVec 64
deriving DecidableEq, Repr

/-- Body of LIB_ERASE (R420). -/
structure LibEraseBody where
  first : BitVec 32
  nblk : BitVec 32
deriving DecidableEq, Repr

/-- Body of ATTEST (R400). -/
structure AttestBody where
  out : BitVec 64
  ctx : BitVec 8
  mode : BitVec 8
  nonce : BitVec 192
deriving DecidableEq, Repr

/-- A command of the opcode table of spec/00_scope.md with its body. -/
inductive Command where
  | nop
  | syncWait (b : SyncBody)
  | syncSignal (b : SyncBody)
  | copy (b : CopyBody)
  | tileRun (b : TileRunBody)
  | packageLoad (b : PackageLoadBody)
  | packageUnload (handle : BitVec 32)
  | streamOpen (b : StreamOpenBody)
  | streamClose (stream : BitVec 16)
  | streamPark (b : ParkBody)
  | streamUnpark (stream : BitVec 16)
  | step (b : StepBody)
  | prefill (b : PrefillBody)
  | recChunk (b : RecChunkBody)
  | kvMap (b : KvMapBody)
  | kvUnmap (b : KvUnmapBody)
  | poolGrow (b : PoolBody)
  | poolShrink (b : PoolBody)
  | tableLoad (b : TableLoadBody)
  | jobBegin (b : JobBeginBody)
  | jobEnd (flags : BitVec 8)
  | present (b : PresentBody)
  | contextCreate (b : ContextCreateBody)
  | contextDestroy (ctx : BitVec 8)
  | fwUpdate (b : FwUpdateBody)
  | libWrite (b : LibWriteBody)
  | libErase (b : LibEraseBody)
  | attest (b : AttestBody)
deriving DecidableEq, Repr

/-- A received Span frame after its Ethernet header (R483), with the port it came in on and whether its FCS was good. -/
structure SpanFrame where
  port : Bool
  fcsGood : Bool
  etherType : BitVec 16
  flags : BitVec 8
  spanId : BitVec 16
  src : BitVec 15
  srcPort : Bool
  dst : BitVec 15
  jobNum : BitVec 16
  seq : BitVec 32
  addr : BitVec 64
  arg : BitVec 64
  payload : List Byte
deriving DecidableEq, Repr

/-- What starts a cold reset: power, a pulse of PERST_N of so many ticks, or a lasting level of PERST_N or TEST_EN (R493, R494, R510,
R516). -/
inductive ColdCause where
  | powerUp
  | perst (ticks : Nat)
  | perstMoves (high : Bool)
  | testEnMoves (high : Bool)
deriving DecidableEq, Repr

/-- Steward components, in the order of FW_LAST_RESTART.COMP (R427). -/
inductive Component where
  | sup | tel | emu | adm | ldr | flm | sec
deriving DecidableEq, Repr

/-- Why a component restarts, in the order of FW_LAST_RESTART.CAUSE (R434). -/
inductive RestartCause where
  | watchdog | protection | trap
deriving DecidableEq, Repr

/-- What a transient event of a tile was (R451), or a retry that failed (R452). -/
inductive TileEvent where
  | reread          -- a local-store or slice word that read clean once more
  | resend          -- a mesh link error on a hop, resent
  | storeFailed     -- a second failing read of a local-store word
  | sliceFailed     -- a second failing read of a slice word
  | hopFailed       -- a second failed resend on one hop
deriving DecidableEq, Repr

/-- Instructions of the test port (R520, R521). -/
inductive TestInstr where
  | bypass
  | idcode
  | extest
  | takesBalls      -- another instruction that takes balls away from the engine
  | debugHalt (core : BitVec 2)
  | debugResume (core : BitVec 2)
deriving DecidableEq, Repr

/-- Size of a BAR0 access (R339, R344). -/
inductive AccessSize where
  | b8 | b16 | b32 | b64
deriving DecidableEq, Repr

/-- A write to a doorbell: its size and what it writes (R344). -/
structure DoorbellWrite where
  size : AccessSize
  value : BitVec 32
deriving DecidableEq, Repr

/-- What the host programs in a function's configuration space (R335; the layout is the base specification's, log 18). -/
inductive ConfigReg where
  | sriov                         -- bit 0 VF Enable, bits 23:16 NumVFs (PF only)
  | msixControl                   -- bit 15 MSI-X Enable, bit 14 Function Mask
  | deviceControl                 -- bits 7:5 payload size, bits 14:12 read request size
  | aerUncStatus | aerUncMask | aerUncSeverity | aerCorStatus | aerCorMask
  | ide                           -- bit 0 link stream, bit 1 selective streams
deriving DecidableEq, Repr

/-- Where a write of REGISTER_WRITE goes. -/
inductive RegPlace where
  | bar0 (offset : BitVec 24) (size : AccessSize)
  | config (r : ConfigReg)
deriving DecidableEq, Repr

/-- One row of spec/opcode_table.json. -/
inductive Instr where
  -- ring commands and the later parts of them
  | nop (h : ReqHeader)
  | syncWait (h : ReqHeader) (b : SyncBody)
  | syncWaitRetire (e : Nat)
  | syncSignal (h : ReqHeader) (b : SyncBody)
  | copy (h : ReqHeader) (b : CopyBody)
  | tileRun (h : ReqHeader) (b : TileRunBody)
  | packageLoad (h : ReqHeader) (b : PackageLoadBody)
  | packageUnload (h : ReqHeader) (handle : BitVec 32)
  | streamOpen (h : ReqHeader) (b : StreamOpenBody)
  | streamClose (h : ReqHeader) (stream : BitVec 16)
  | streamClosePoint (e : Nat)
  | streamPark (h : ReqHeader) (b : ParkBody)
  | park (e : Nat)
  | streamUnpark (h : ReqHeader) (stream : BitVec 16)
  | swapIn (e : Nat) (stream : BitVec 16)
  | step (h : ReqHeader) (b : StepBody)
  | prefill (h : ReqHeader) (b : PrefillBody)
  | recChunk (h : ReqHeader) (b : RecChunkBody)
  | kvMap (h : ReqHeader) (b : KvMapBody)
  | kvUnmap (h : ReqHeader) (b : KvUnmapBody)
  | poolGrow (h : ReqHeader) (b : PoolBody)
  | poolShrink (h : ReqHeader) (b : PoolBody)
  | tableLoad (h : ReqHeader) (b : TableLoadBody)
  | tableInstall (e : Nat)
  | jobBegin (h : ReqHeader) (b : JobBeginBody)
  | jobEnd (h : ReqHeader) (flags : BitVec 8)
  | present (h : ReqHeader) (b : PresentBody)
  | presentStart (e : Nat)
  | contextCreate (h : ReqHeader) (b : ContextCreateBody)
  | contextDestroy (h : ReqHeader) (ctx : BitVec 8)
  | contextDestruction (ctx : BitVec 8)
  | contextWipeEnd (ctx : BitVec 8)
  | fwUpdate (h : ReqHeader) (b : FwUpdateBody)
  | handoverRollback
  | libWrite (h : ReqHeader) (b : LibWriteBody)
  | libErase (h : ReqHeader) (b : LibEraseBody)
  | nandEraseDone (block : Nat)
  | eraseSuspend (channel : BitVec 3) (block : Nat)
  | attest (h : ReqHeader) (b : AttestBody)
  -- tile instructions
  | tnop (t : Fin 96)
  | halt (t : Fin 96)
  | programEnd (t : Fin 96)
  | br (t : Fin 96)
  | seti (t : Fin 96)
  | alu (t : Fin 96)
  | lds (t : Fin 96)
  | sts (t : Fin 96)
  | dload (t : Fin 96)
  | dadd (t : Fin 96)
  | mmw (t : Fin 96)
  | mma (t : Fin 96)
  | mew (t : Fin 96)
  | gload (t : Fin 96)
  | grun (t : Fin 96)
  | tileCopy (t : Fin 96)
  | fill (t : Fin 96)
  | signal (t : Fin 96)
  | wait (t : Fin 96)
  | waitResume (t : Fin 96)
  | sread (t : Fin 96)
  | instructionComplete (t : Fin 96) (index : Nat)
  -- host interface and the Docket
  | doorbellSubmission (fn : BitVec 8) (ring : BitVec 8) (write : DoorbellWrite)
  | doorbellConsumed (fn : BitVec 8) (ring : BitVec 8) (write : DoorbellWrite)
  | ringFetch (fn : BitVec 8) (ring : BitVec 8)
  | dispatch (e : Nat) (tiles : List Nat)
  | overduePromote (e : Nat)
  | deadlineMissed (e : Nat)
  | requestTimeout (e : Nat)
  | requestRetire (e : Nat)
  | moderationTimer (fn : BitVec 8) (ring : BitVec 8)
  | kvSetDeliver (e : Nat) (rank : Nat)
  | candidateWrite (e : Nat) (row : Nat) (layer : Nat)
  | sampling (e : Nat)
  | streamCommit (e : Nat) (row : Nat)
  | growthRetry (ctx : BitVec 8) (tier : Bool)
  | epochDrain (ctx : BitVec 8) (epoch : Nat)
  -- frame time
  | fsyncPulse (high : Nat)
  | frameBoundaryFree
  | lateEdge
  | almanacWindow
  | panicRaise
  | panicRelease
  | fsyncDisable (fn : BitVec 8)
  | almanacCommit (fn : BitVec 8)
  | almanacCheckEnd
  -- set-up writes of one function
  | ringCommit (fn : BitVec 8) (value : BitVec 32)
  | ringDisable (fn : BitVec 8) (value : BitVec 32)
  | ringDisableEnd (fn : BitVec 8) (ring : BitVec 8)
  | hwinCommit (fn : BitVec 8) (window : BitVec 4) (value : BitVec 32)
  | drbgReseed (fn : BitVec 8) (value : BitVec 32)
  | drbgReseedApply (ctx : BitVec 8)
  | leaseRenew (fn : BitVec 8) (value : BitVec 32)
  | leaseExpiry (fn : BitVec 8)
  | graceExpiry (fn : BitVec 8)
  | attach (fn : BitVec 8) (value : BitVec 32)
  | attachEffect (fn : BitVec 8)
  | detach (fn : BitVec 8) (value : BitVec 32)
  | flr (fn : BitVec 8)
  | hotReset
  | d3hotEntry (fn : BitVec 8)
  | d3hotToD0 (fn : BitVec 8)
  -- resets, boot and power
  | coldReset (cause : ColdCause)
  | bootRom
  | firmwareBringup
  | recoveryGo (fn : BitVec 8)
  | lrsReset (fn : BitVec 8) (key : BitVec 32)
  | pwrWarmReset (fn : BitVec 8) (key : BitVec 32)
  | powerLoss
  | powerEstimate (watts : BitVec 10)
  | avsAckTimeout
  | thermalThrottle (junction : BitVec 8) (stack : BitVec 8)
  | thermalThrottleExit (junction : BitVec 8) (stack : BitVec 8)
  | thermtrip (junction : BitVec 8) (stack : BitVec 8)
  | secAuthLcTransition (fn : BitVec 8) (value : BitVec 32)
  | secAuthTrustUpdate (fn : BitVec 8) (value : BitVec 32)
  -- HBM
  | hbmRetrainNow (fn : BitVec 8) (value : BitVec 32)
  | retrainDue (channel : BitVec 6)
  | retrainStart (channel : BitVec 6)
  | retrainEnd (trained : Bool)
  | aerr (channel : BitVec 6) (window : Nat) (again : Bool)
  | derr (pc : BitVec 7) (again : Bool)
  | readParityError (pc : BitVec 7) (again : Bool)
  | uncorrectableBurst (addr : BitVec 38) (again : Bool)
  | symbolCorrection (burst : List Byte)
  | refresh (pc : BitVec 7) (bank : BitVec 6)
  | hbmTempRead (stack : BitVec 2) (celsius : BitVec 8)
  | pageIdleTimer (pc : BitVec 7) (bank : BitVec 6)
  | requestAged (pc : BitVec 7) (index : Nat)
  | writeQueueDrain (pc : BitVec 7)
  -- flash
  | flashReadRetry (channel : BitVec 3) (level : Option (BitVec 4))
  | flashCommandTimeout (channel : BitVec 3)
  | flsRdtimApply (fn : BitVec 8) (value : BitVec 32)
  | channelRateSwitch (channel : BitVec 3) (reads : Bool)
  | lowerTierError (e : Nat)
  | lowerTierLate (e : Nat)
  -- stewards, faults, observation
  | componentRestart (c : Component) (cause : RestartCause)
  | coreRestart (core : BitVec 2)
  | stewardReset
  | lastResortEntry (trap : Bool)
  | tileTransient (t : Fin 96) (what : TileEvent)
  | faultStatusClear (fn : BitVec 8) (mask : BitVec 32)
  | debugFrost (fn : BitVec 8) (value : BitVec 32)
  | thaw (fn : BitVec 8) (value : BitVec 32)
  | frostLimitExpiry
  | frostComplete
  | counterClear (fn : BitVec 8) (value : BitVec 32)
  | traceEnable (fn : BitVec 8) (value : BitVec 32)
  | dtimeRead (fn : BitVec 8)
  | counterRead (fn : BitVec 8)
  | eqxOffsetRead (fn : BitVec 8)
  | registerWrite (fn : BitVec 8) (place : RegPlace) (value : BitVec 64)
  | emuTimeout (fn : BitVec 8) (write : Bool)
  -- Span
  | spnCommit (fn : BitVec 8)
  | spnLeave (fn : BitVec 8)
  | spnRemeasure (fn : BitVec 8)
  | spanData (f : SpanFrame)
  | rdreq (f : SpanFrame)
  | spanSignal (f : SpanFrame)
  | ack (f : SpanFrame)
  | nack (f : SpanFrame)
  | jobfault (f : SpanFrame)
  | eqx (f : SpanFrame)
  | spanResend (port : Bool) (seq : BitVec 32)
  | blockLockLoss (port : Bool) (relocked : Bool)
  | portRecalibration (port : Bool) (good : Bool)
  -- sideband, test port and link events
  | mctpControl (request : List Byte)
  | getHealth (request : List Byte)
  | getFaultLog (request : List Byte)
  | clearFaultStatus (request : List Byte)
  | getCounter (request : List Byte)
  | sramCorrection (slice : Bool) (address : Nat)
  | spanLinkUp (port : Bool)
  | pcieLinkUp
  | framePhaseHold
  | testPortInstruction (what : TestInstr)
  | smbusArpAssign (address : BitVec 7)
deriving DecidableEq, Repr

end Sys2Proof
end

