-- ==== Sys2Proof/Config.lean ====
section
/-! DEFINITION. What an implementation fixes and the spec does not: the free values of the model. None has a body that a proof
can see; notes/assumptions/4.md names them all. -/

namespace Sys2Proof.Config

/-- Free number number `n` of a run: what the engine draws or delivers where the spec fixes no value (R3, R151, R208, R302,
R376; log entry 4). It is reached only when the state's own supply of free numbers is empty. -/
opaque freeNat : Nat → Nat

/-- The tier that the compiler assigned to the KV of a package's streams, by the package's digest: true is state SRAM (R169, R257;
log 23). No field of the manifest gives it. -/
opaque kvSram : List Byte → Bool

/-- Free byte: the content of a byte that the spec calls unpredictable, by its address and a count (R3, R76, R104; log 4). -/
opaque freeByte : Nat → Nat → Byte

/-- Which of the results that R120 allows a function micro-op gives for an input where R121 asks for no order between inputs: micro-op
code, input (log 12). -/
opaque functionPick : Nat → Nat → Nat

/-- The input at which a monotone function micro-op takes its step to an output: micro-op code, output (R121; log 12). -/
opaque functionStep : Nat → Int → Int

/-- The 512 bytes of quasi-cyclic LDPC parity of a sector, whose code the spec does not give: sector, byte (R307; log 51). -/
opaque ldpcParity : List Byte → Nat → Byte

/-- Where in the local stores of a gang a row of a REC_CHUNK lies: an output row, node, position (R210, R211; log 33). -/
opaque rowPlace : Bool → Nat → Nat → Nat

/-- The bytes of an MCTP control answer, which DMTF DSP0236 and not the spec gives (R459; log 21). -/
opaque mctpControl : List Byte → List Byte

/-- The ns between two turns of a pseudo-channel's refresh rotation up to 85 °C, and how many refreshes of a bank beyond the first may be
postponed or pulled in: the HBM standard's, which the spec does not repeat (R324; log 39). -/
opaque refreshInterval : Nat
opaque refreshSlack : Nat

/-- How many refreshes of a bank may be postponed or pulled in: at least one (R324; log 39). -/
def refreshLimit : Nat := refreshSlack + 1

/-- The register contents of a steward core in a Frost (R471; log 22): core, byte. -/
opaque coreByte : Nat → Nat → Byte

/-- The credits of a mesh router in a Frost (R471; log 22): tile, byte. -/
opaque meshCredit : Nat → Nat → Byte

end Sys2Proof.Config
end

