-- ==== Sys2Proof/Machine/State.lean ====
section
/-! DEFINITION. The state of the engine as plain data, its reset value, and the reasons a step can stop. -/

namespace Sys2Proof.Machine

/-- A byte memory: (address, byte) pairs with strictly rising addresses, no byte equal to the unlisted value 0 (log 5, 6). -/
abbrev Memory := List Host.Cell

/-- A sparse table: (key, value) pairs with strictly rising keys. -/
abbrev Tbl (α : Type) := List (Nat × α)

/-! ### Environment and outside data -/

/-- What the outside answers to the engine's own reads (R276, R277, R306; log 14). -/
structure Env where
  hostErr : List (Nat × Nat)      -- host ranges (first byte, length) whose reads fail
  hostLate : List (Nat × Nat)     -- host ranges whose reads are late
  libErr : List Nat               -- Library sectors (16 unit + sector, R307) whose reads stay uncorrectable
  libLate : List Nat              -- Library sectors whose reads are late
  nandBad : List (Nat × Nat)      -- (channel, NAND block) whose programs and erases report failure (R418, R420)
  trainBad : BitVec 64            -- HBM channels whose training at start fails (R312, R328)
  slotErr : List Bool             -- firmware slots (false A) that cannot be read (R495)
  slotBad : List Bool             -- firmware slots whose program or read-back fails (R445)
  hbmBad : List Nat               -- HBM 4 KiB blocks that stay uncorrectable after the retry
deriving DecidableEq, Repr

/-- The fuses, the boot ROM's constants and the silicon (R375, R377, R403, R527). -/
structure Fuses where
  uds : BitVec 256
  lcs : BitVec 3
  kepoch : BitVec 2
  code : Bool                     -- HIF_ID.CODE: false A144, true A096
  rev : BitVec 4
  rootKey : List Byte             -- the Orvikant root public key (R377, log 8)
  rootDigest : List Byte          -- its digest, which the boot ROM holds (R377)
deriving DecidableEq, Repr

/-- Pins that the outside drives or that latch (R493, R521, R523). -/
structure Pins where
  perstHigh : Bool                -- level of PERST_N at its ball
  testEn : Bool                   -- level of TEST_EN (R510)
  thermtrip : Bool                -- THERMTRIP_N is driven low
  testInstr : TestInstr           -- test-port instruction in force (R521)
  smbAddress : BitVec 7           -- MCTP endpoint address (R519)
  response : List Byte            -- last sideband answer (model's own, log 16)
deriving DecidableEq, Repr

/-! ### Memory tiers -/

/-- What HBM holds of one block or data unit: the ciphertext of its granules and the two check bytes of each 32-byte burst
(R18, R284, R303, R305). -/
structure Stored where
  data : List Byte
  check : List Byte
deriving DecidableEq, Repr

/-- A KV run (R171 to R178): its owner, its reference count and its page as its tier holds it. In HBM the 16 coded blocks, or the
16 units of a raw page, in order from the run's first frame; in state SRAM the raw page itself (R173, R257). -/
structure Run where
  ctx : Nat
  refs : Nat
  raw : Bool
  frames : Nat                    -- 1 to 4
  h1off : Nat
  blocks : List Stored            -- HBM
  bytes : Memory                  -- state SRAM: raw page, offset 0 to 65,535 (R168)
deriving DecidableEq, Repr

/-- Unassigned quads of one tier (R271): those never handed out lie at `fresh` and above, those that came back in `back`. -/
structure Store where
  fresh : Nat
  back : List Nat
deriving DecidableEq, Repr

/-- A tile's addition to a sync counter: the value after it, and for each tile the number of its last SIGNAL that stands before it
(R99). -/
structure Mark where
  value : Word64
  clock : Tbl Nat
deriving DecidableEq, Repr

/-- A sync counter (R97, R100), with the additions that tiles have made, oldest first (R99; log 11). -/
structure Sync where
  value : Word64
  poisoned : Bool
  marks : List Mark
deriving DecidableEq, Repr

/-- One generation of a table slot (R296): its number, its install serial, NPC, the plane lengths (256 for each plane), and which of
the slot's two places in the engine area holds its image (R271, log 46). -/
structure Generation where
  gen : Nat
  serial : Nat
  npc : BitVec 2
  lengths : List (List Nat)
  side : Bool
deriving DecidableEq, Repr

/-- A codec table slot (R296, R298). -/
structure CodecSlot where
  cur : Option Generation
  prev : Option Generation
  counter : Nat                   -- last generation number given, 16 bits
deriving DecidableEq, Repr

/-! ### Streams (R207) -/

/-- Stream states of R207, CLOSED to FAULTED. -/
inductive StreamState where
  | closed | active | fallow | growthWait | faulted
deriving DecidableEq, Repr

/-- A KV leaf (R171). -/
structure KvLeaf where
  live : BitVec 64
  frame : BitVec 24
  tier : Bool
  nfm1 : BitVec 2
  raw : Bool
  map : Bool
  h1off : BitVec 11
deriving DecidableEq, Repr

/-- A page index that an undrained epoch holds, and the slots that its leaves marked live before they were unmapped (R165, R181). -/
structure HeldIndex where
  index : Nat
  epoch : Nat
  live : BitVec 64
deriving DecidableEq, Repr

/-- A Stream Table entry with its carried state. -/
structure Stream where
  state : StreamState
  ctx : Nat
  handle : BitVec 32
  profile : BitVec 2
  layers : Nat                    -- L of its package (R164)
  heads : Nat                     -- H of its package
  kvTier : Bool                   -- tier of its KV (R169): false HBM, true state SRAM
  positions : BitVec 32           -- position count
  pending : Option (BitVec 16)    -- pending token
  tree : Option (List Byte)       -- stored tree, batch-entry bytes 0 to 47 (R393)
  tail : Nat
  tailFree : Nat                  -- first free slot of the tail (R165)
  leaves : Tbl KvLeaf             -- by 128 j + l
  exps : Memory                   -- exponent records, byte (j L + l) 256 + b (R168)
  slots : Memory                  -- slot records, byte 512 j + b (R168)
  held : List HeldIndex           -- indices that undrained epochs hold
  growTier : Bool                 -- tier of a growth wait
  pinnedEntry : Option Nat        -- Docket entry whose part waits in GROWTH_WAIT
  closing : Bool                  -- its STREAM_CLOSE has taken effect and waits for its epoch (R209)
deriving DecidableEq, Repr

/-! ### The Docket (R249) -/

/-- States of a Docket entry that stands (R249); a free entry is absent from the table. -/
inductive EntryState where
  | fetched | queued | ready | running | retiring
deriving DecidableEq, Repr

/-- One stream of a STEP, PREFILL or REC_CHUNK (R132, R155, R161). -/
structure Part where
  stream : Nat
  nodes : Nat                     -- candidate positions: tree nodes, run length
  tsrc : Bool
  itemp : BitVec 16
  topk : Nat
  parent : BitVec 64
  tokens : List (BitVec 16)
  outcome : Option (BitVec 8)     -- status once the part is settled
  waiting : Bool                  -- the stream waits in GROWTH_WAIT for this part
  told : Bool                     -- the GROWTH event has been raised for that wait (R199)
  slots : List (Nat × Nat)        -- (index, slot) of each candidate (R140)
  reserved : List Nat             -- quads reserved for its pages, KV tier (R177)
  recReserved : List Nat          -- state-SRAM quads that back its working regions (R217)
  newRuns : Tbl Nat               -- run key written for page 128 j + l (R147)
  basePos : BitVec 32             -- position count before the command
  wave : Nat                      -- dispatch of the request that the part belongs to; 0: none yet (R140)
  path : List Nat
  bonus : BitVec 16
  scores : Tbl Nat                -- A by 64 j + r (R194)
  draft : Option (List Byte)      -- tree that the draft node wrote (R393)
deriving DecidableEq, Repr

/-- One set of the attention walk still to be delivered (R143). -/
structure WalkSet where
  part : Nat                      -- batch index
  head : Nat
  kind : Nat                      -- 0 page set, 1 tree block, 2 run block
  index : Nat                     -- page index j of a page set
  runKey : Nat
  live : BitVec 64
  rbase : Nat
  rows : Nat
deriving DecidableEq, Repr

/-- The walk of one rank (R141, R143): what is left, and the sets delivered but not yet freed. -/
structure Walk where
  todo : List WalkSet
  started : Bool
  delivered : Nat
  open_ : List (Nat × WalkSet)    -- (set number, set), oldest first
deriving DecidableEq, Repr

/-- Bytes of a tile's local store (space 0 to 95) or of a context's address space (96 plus the context): space, address, length. -/
abbrev Range := Nat × Nat × Nat

/-- An instruction that a unit still holds: what it will do to fences, which bytes it reads and writes (R78, R92, R104, R125). -/
structure InFlight where
  unit : Nat                      -- 0 matrix, 1 gate, 2 copy, 3 sync, 4 sequencer
  fence : Option (BitVec 3)
  slot : Option Nat               -- micro-program slot that it names
  loads : Bool                    -- a GLOAD, which loads that slot
  reads : List Range
  writes : List Range
  sideReads : List Range          -- row sidecars
  sideWrites : List Range
  remote : List (Bool × BitVec 32)        -- Span frames that it sent: port and SEQ (R486)
  holds : List Nat                -- table generations that its blocks hold, by install serial (R297)
  was : List (List Byte)          -- what each range that a COPY or FILL writes held before (R70, R106)
  spoiled : List Range            -- bytes of its destination that another outstanding copy writes too (R96)
deriving DecidableEq, Repr

/-- An access of a program that has completed and that fences or sync counters may not have ordered yet (R99, R104). -/
structure Loose where
  tile : Nat
  flight : InFlight
  fenced : Bool                   -- a later instruction of its tile has waited for its fence
  rel : Option Nat                -- number of the SIGNAL that released it
deriving DecidableEq, Repr

/-- A Docket entry (R249, R471). -/
structure Entry where
  state : EntryState
  hdr : ReqHeader
  cmd : Command
  parent : Option Nat             -- the request an expanded operation belongs to
  seq : Nat
  admitTime : Nat
  readyTime : Nat
  dispatched : Bool
  overdue : Bool
  inJob : Bool
  deadlineFrame : BitVec 32
  notBefore : BitVec 32           -- frame of a PRESENT's NOTBEFORE (R253)
  status : Option (BitVec 8)      -- decided status of a request that has still to retire
  result : Word64
  epoch : Option Nat              -- epoch it waits for (R188, R209, R399)
  started : Nat                   -- number of its start, in dispatch order (R152)
  tiles : List Nat                -- tiles held, in rank order (R109)
  loose : List Loose              -- accesses of its programs that have completed and may still be unordered (R104)
  node : Nat                      -- graph node of an expanded gang (R391), plus 65,536 times its wave
  chunk : Nat                     -- chunk of an expanded gang (R162, R213)
  parts : List Part
  ended : List (Nat × Nat)        -- (node, chunk) gangs that have ended
  begun : List (Nat × Nat)        -- (node, chunk) gangs expanded
  walks : Tbl Walk                -- by rank
  sampled : List Nat              -- waves that have been sampled
  lists : Tbl (List Byte)         -- top-k lists by batch index, as the head gang left them (R149)
  image : List Byte               -- a table image or data taken at the start (R239, R298)
  due : Bool                      -- a TABLE_LOAD that passed its boundary (R298)
  quads : List Nat                -- HBM quads that a load took (R395 step 7)
  quads1 : List Nat               -- state-SRAM quads that it took
  window : Nat                    -- package window of a load in progress
  images : Tbl (List Byte)        -- table images that a load has read and checked, by relative slot (R395 step 8)
  installed : Tbl Nat             -- install serials of its tables, by relative slot (R388)
  progress : Nat                  -- blocks done (R420)
  spoiled : Nat                   -- blocks that became BAD (R420)
  drbgGen : Nat                   -- DRBG generation at dispatch (R153)
  recDone : Bool                  -- records written
  lateAt : Option Nat             -- a lower-tier read of it is late: when that ends it (R277)
deriving DecidableEq, Repr

/-! ### Tiles (R74) -/

/-- A block entry of an accumulator file: 16 rows of 16 accumulators, their group partials, and the rows' exponents U (R57). -/
structure AccBlock where
  acc : List Word64               -- 256, row by row
  part : List (BitVec 32)         -- 256 group partials P
  exps : List Int                 -- 16 row exponents U
deriving DecidableEq, Repr

/-- A cube (R50 to R57): its weight block in use and its shadow set, K by K with 16 columns each, and its accumulator file: block entry
i of bank b under 16 b + i, an unlisted one being 0. -/
structure Cube where
  weights : List Int
  shadow : List Int
  file : Tbl AccBlock
deriving DecidableEq, Repr

/-- The matrix result that HOLD keeps in one bank of the accumulator files (R39, R57, R89): its M and N, and the copies of each
accumulator that its fold left (R60, R62). -/
structure Held where
  m : Nat
  n : Nat
  ways : Nat
  bank : Bool
deriving DecidableEq, Repr

/-- A counter that a WAIT waits on: index in the window and target (R98). -/
structure WaitOn where
  index : Nat
  target : Word64
  met : Bool                      -- an addition has met the target: the WAIT issues (R100)
deriving DecidableEq, Repr

/-- A tile and its sequencer. -/
structure Tile where
  entry : Option Nat              -- gang's Docket entry while a program runs
  ctx : Nat
  rank : Nat
  gang : Nat
  prog : Nat                      -- device-virtual address of bundle 0
  len : Nat
  pc : Nat
  sregs : List Word64             -- S0 to S31
  dregs : List Word256            -- D0 to D15
  fences : List (BitVec 8)        -- F0 to F7
  slots : Tbl (List Word128)      -- micro-program slots that are not empty
  held : Option Held
  cubes : List Cube               -- 4
  bank : Bool                     -- bank that the next fold pass uses (R57)
  cached : List (Nat × List Byte) -- 4 KiB blocks of the program that the instruction cache holds, newest first (R74, R109)
  tlb : List Nat                  -- pages of its translation cache, newest first (R272)
  inflight : List InFlight        -- oldest first
  halted : Bool
  stopped : Bool
  rowStop : Bool                  -- a program fault stopped it: its copies finish or stop at a row (R106)
  waitOn : Option WaitOn
  signals : Nat                   -- SIGNALs that it has issued, over all its programs (R99)
  seen : Tbl Nat                  -- for each tile, the last of its SIGNALs that a WAIT here has acquired (R99)
  last : Option Nat               -- the gang that its latest program belongs to (R86)
  starts : List Bool              -- last 7 starts, newest first: an OVERDUE start (R247)
  lastCtx : Option Nat            -- context whose program ran last (R75)
  transient : List Nat            -- times of transient events (R451)
  busySince : Nat
deriving DecidableEq, Repr

/-! ### Frame time and the Almanac (R231 to R240) -/

/-- One Almanac window (R238). -/
structure Window where
  start : BitVec 24
  rtcap : Nat
  iaw : Nat
  bkw : Nat
deriving DecidableEq, Repr

/-- The frame tracker (R230 to R237, R468). -/
structure Time where
  dtime : Word64
  frameStart : Word64             -- B
  period : Nat                    -- P of the current frame, ns
  pm : Nat                        -- measured period
  pf : Nat                        -- programmed period, ns
  periodReg : BitVec 18           -- TIM_FRAME_PERIOD, µs
  locked : Bool
  nign : Nat
  nmiss : Nat
  hold : Bool
  expected : Word64               -- E
  lastIgnored : Word64
  lastPulse : Option Word64       -- the boundary's own pulse, when the last boundary was one
  en : Bool
  enOff : Bool                    -- EN written 0 while LOCKED, boundary still to come
  offAt : Word64                  -- when that boundary is due (R236)
  frameNum : BitVec 32
  eqxOffset : Word64
  eqxValid : Bool
  eqxErr : BitVec 16
deriving DecidableEq, Repr

/-- The Almanac (R238 to R240). -/
structure Almanac where
  base : Word64
  active : List Window
  cur : Nat
  queued : Option (List Window)   -- PENDING
  checking : Option (List Byte)   -- BUSY: the image as read; empty when the read failed
  err : BitVec 4
  gen : BitVec 16
deriving DecidableEq, Repr

/-- Shares, age limits, panic and claims (R245 to R255, R452). -/
structure Sched where
  ageIA : BitVec 32
  ageBK : BitVec 32
  panicLead : BitVec 24
  panicEn : Bool
  panic : Bool
  passIA : Nat
  passBK : Nat
  ctxPass : Tbl Nat               -- by 2 ctx + (1 for BK)
  claims : List Nat               -- entries that claim tiles, at most one of each rank (R246)
  tileLimit : BitVec 8
  tileWindow : BitVec 14
deriving DecidableEq, Repr

/-! ### Functions (R335 to R372) -/

/-- A ring (R340 to R346, R352, R363). For a submission ring `own` is H and `host` is T; for the others P and C. -/
structure Ring where
  base : Word64
  idx : Word64
  kind : BitVec 2
  log2n : BitVec 5
  cq : BitVec 8
  vector : BitVec 11
  ien : Bool
  count : BitVec 8
  time : BitVec 8
  en : Bool
  busy : Bool
  err : BitVec 4
  own : BitVec 16
  host : BitVec 16
  phase : Bool
  unsent : Nat                    -- entries since its last message
  firstUnsent : Word64
deriving DecidableEq, Repr

/-- Attachment of a function (R368). -/
inductive Attach where
  | detached | attached | orphaned
deriving DecidableEq, Repr

/-- One MSI-X vector (base specification, log 18). -/
structure Msix where
  address : Word64
  data : Word32
  masked : Bool
  pending : Bool
deriving DecidableEq, Repr

/-- What the host programs in a function's configuration space of the parts that R335 lists; the layout is the base specification's
(PRESUMED, log 18). NumVFs and VF Enable are the PF's. -/
structure PcieCfg where
  vfEnable : Bool
  numVfs : BitVec 8
  msixEnable : Bool
  msixMask : Bool                 -- MSI-X Function Mask
  maxPayload : BitVec 3           -- 128 B times 2^n
  maxReadReq : BitVec 3           -- 128 B times 2^n
  aerUncStatus : Word32
  aerUncMask : Word32
  aerUncSeverity : Word32
  aerCorStatus : Word32
  aerCorMask : Word32
  ideLink : Bool                  -- link IDE stream enabled
  ideSelective : Bool             -- selective IDE streams enabled
deriving DecidableEq, Repr

/-- One function. -/
structure Fn where
  state : Attach
  leasePeriod : BitVec 16
  grace : BitVec 8
  leaseEnd : Word64
  graceEnd : Word64
  attachPend : Bool
  d3hot : Bool
  ringSel : BitVec 8
  rings : Tbl Ring
  eventMask : BitVec 11           -- bits 11:1 of HIF_EVENT_MASK
  evLost : Nat
  cntSel : BitVec 16
  cntHi : Word32
  dtimeHi : Word32
  eqxHi : Word32
  codSel : BitVec 9
  pcSel : BitVec 7
  flsChSel : BitVec 3
  lblkSel : BitVec 24
  logSel : Word32
  traceBase : Word64
  traceEn : Bool
  traceFrames : Bool
  traceLog2n : BitVec 5
  traceCount : Word32
  msix : Tbl Msix
  cfg : PcieCfg
  turn : BitVec 8                 -- submission ring that had the last turn (R348)
  orphanAtThaw : Bool             -- orphaned during a freeze: the ends apply at Thaw (R475)
deriving DecidableEq, Repr

/-! ### Contexts (R14, R360) -/

/-- Pool of one tier (R175 to R178). -/
structure Pool where
  all : List Nat                  -- quads of the context
  free : List Nat
  resv : List Nat
  rtgt : Nat
  quota : Nat
  part : Tbl Nat                  -- quad with used frames: mask of the used ones
deriving DecidableEq, Repr

/-- A host window (R265, R266). `mapped` is the mapping in force: (base, pages, writable). -/
structure HWin where
  base : Word64
  pages : BitVec 25
  en : Bool
  w : Bool
  mapped : Option (Word64 × Nat × Bool)
  busyEpoch : Option Nat
deriving DecidableEq, Repr

/-- A closed epoch (R179): the operations it waits for, and what it releases. -/
structure Epoch where
  id : Nat
  waits : List Nat                -- Docket entries that started before it closed
  runs : List Nat                 -- run keys whose leaf stopped naming them
  quads0 : List Nat               -- whole HBM quads
  quads1 : List Nat               -- whole state-SRAM quads
  frames : List Nat               -- translation table frames
  handle : Option (BitVec 32)     -- package that it unloads
  streamClose : Option Nat        -- stream whose close it ends
deriving DecidableEq, Repr

/-- A Harvest profile (R198). -/
structure Profile where
  budget : BitVec 17
  sink : BitVec 8
  recent : BitVec 12
  decay : BitVec 4
  cslack : BitVec 4
  gevict : Bool
deriving DecidableEq, Repr

/-- A loaded package (R394 to R399): what the engine keeps of it. -/
structure Package where
  handle : BitVec 32
  lunit : Nat
  cbase : Nat
  slotbase : Nat
  manifest : List Byte            -- bytes 0 to MLEN - 1
  graph : List Byte               -- 64 bytes for each node
  digest : List Byte              -- MD (R390)
  serials : Tbl Nat               -- install serial of its generation, by relative slot (R388)
  kvTier : Bool                   -- tier that the compiler assigned to its streams' KV (R169, R257)
  unloading : Bool
deriving DecidableEq, Repr

/-- The DRBG of a context (R151 to R153). -/
structure Drbg where
  seed : List Byte
  gen : Nat
  pos : Nat                       -- draws taken of the current generation
  prev : Option (List Byte × Nat × Nat)   -- seed, generation, draws of the previous one
  words : List (BitVec 32)        -- ATT_DRBG_SEED0 to 15
  deferred : Option Bool          -- SRC of a reseed that waits for OLDGEN = 0
deriving DecidableEq, Repr

/-- The open job of a context (R355 to R357, R480). -/
structure Job where
  tag : Word64
  span : Word64
  faulted : Bool
  ender : Option Nat              -- first JOB_END
deriving DecidableEq, Repr

/-- A data page that backs a leaf, exponent, slot or recurrent window (R169, R205). -/
structure WinPage where
  tier : Bool
  quad : Nat
deriving DecidableEq, Repr

/-- One context. -/
structure Ctx where
  weight : BitVec 8
  rtok : Bool
  dquota : Nat
  syncBase : Nat
  syncCount : Nat
  slotBase : Nat
  slotCount : Nat
  streamQuota : Nat
  dataKey : List Byte
  contentKeys : Tbl (List Byte)
  drbg : Drbg
  job : Option Job
  tpFault : Word32
  jobFault : Word32
  mmuAddr : Nat
  mmuInfo : BitVec 16
  ltLimit : BitVec 20
  hwins : Tbl HWin
  pool0 : Pool
  pool1 : Pool
  pages : Tbl Word64              -- R268 entries by device-virtual page number
  root : Option Nat               -- frame of the root table, once the context has one (R267, R269)
  tables : Tbl Nat                -- frames of the other tables: key (level, index), frame
  winPages : Tbl WinPage          -- by device-virtual page number, windows of R167 and R203
  open_ : Nat                     -- number of the open epoch
  closed : List Epoch
  profiles : List Profile
  packages : Tbl Package          -- by window
  loadCount : Tbl Nat
  growth : List (Nat × Bool)      -- streams in GROWTH_WAIT with their tier, in order (R200)
  destroying : Bool               -- steps 1 to 2 of R281
  wiping : Bool                   -- steps 3 to 6 of R281
  destroyCause : Nat              -- 0 FLR, 1 grace expiry, 2 CONTEXT_DESTROY (R458 kind 2)
deriving DecidableEq, Repr

/-! ### HBM (R313 to R331) -/

/-- A queued HBM request: consecutive bursts of one row of one bank (R314, R320, R321). -/
structure HbmReq where
  write : Bool
  bank : Nat                      -- 16 sid + 4 bk + bg
  row : Nat
  col : Nat                       -- byte in the row of the first burst (R314)
  bursts : Nat
  data : List Byte                -- of a write: the bytes of its bursts
  cls : Nat                       -- 0 RT, 1 OVERDUE, 2 IA, 3 BK
  issued : Word64
  aged : Bool
  ctx : Option Nat
  entry : Option Nat              -- Docket entry that it serves (R320, R334)
deriving DecidableEq, Repr

/-- A bank (R319, R324). -/
structure Bank where
  row : Option Nat
  history : BitVec 4
  idleFrom : Word64
  left : Bool                     -- the last command left the row open
  refreshes : Nat                 -- REFpb and REFab that it has had
  owed : Nat                      -- refreshes postponed (R324)
  ahead : Nat                     -- refreshes pulled in (R324)
deriving DecidableEq, Repr

/-- A pseudo-channel. -/
structure Pc where
  retired : Bool
  cause : BitVec 4
  reads : List HbmReq
  writes : List HbmReq
  stalled : List HbmReq           -- requests that wait in their sources, oldest first (R318, R330)
  banks : Tbl Bank
  draining : Bool
  sinceAged : Nat                 -- column commands since an aged one under panic (R322)
  transient : List Nat
  late : Bool                     -- reached the limit while its channel retrained (R334)
  refNext : Nat                   -- bank whose turn it is in the refresh rotation (R324)
  refDue : Word64                 -- when that turn falls due (R324, R325)
  tables : List Nat               -- generations that its codec engine caches, by install serial, newest first (R295)
deriving DecidableEq, Repr

/-- A row or column command as the retry buffer keeps it (R326). -/
inductive HbmCmd where
  | activate (bank row : Nat)
  | precharge (bank : Nat)
  | read (bank row col : Nat)
  | write (bank row col : Nat) (data : List Byte)
deriving DecidableEq, Repr

/-- A command of the retry buffer: when it was issued and to which pseudo-channel (R326). -/
structure Issued where
  time : Word64
  pc : Nat
  cmd : HbmCmd
deriving DecidableEq, Repr

/-- A channel's retraining state (R326, R329, R330). -/
structure Chan where
  trainedAt : Word64
  trainedTemp : Option (BitVec 8)  -- none: its stack had not been read when it was trained
  due : Bool
  retry : List Issued             -- the last 64, oldest first
deriving DecidableEq, Repr

/-- The HBM controllers. -/
structure Hbm where
  rate : BitVec 2
  idle : BitVec 16
  policy : BitVec 2
  ageLimit : BitVec 17
  transLimit : BitVec 8
  transWindow : BitVec 14
  retrainPeriod : BitVec 16
  retrainDelta : BitVec 8
  retraining : Option (BitVec 6)
  retrainChan : BitVec 6
  retrainCount : BitVec 16
  pcs : Tbl Pc
  chans : Tbl Chan
  temps : List (Option (BitVec 8)) -- last temperature readout, by stack (R311)
  condemned : List Nat            -- pseudo-channels whose retry failed in this command; they retire at its end (R306)
  tlb : List (Nat × Nat)          -- shared translation cache: (context, page) of level-2 entries, newest first (R272)
  tlb1 : List (Nat × Nat)         -- its level-1 entries: (context, VA bits 47:27)
deriving DecidableEq, Repr

/-! ### Library flash (R409 to R425) -/

/-- States of a Library block (R416). -/
inductive BlockState where
  | erased | opened | full | erasePending | damaged | bad
deriving DecidableEq, Repr

/-- A sector of NAND as it was programmed: its 4,096 bytes and its 512 bytes of LDPC parity (R307, R414). -/
structure Sector where
  data : List Byte
  parity : List Byte
deriving DecidableEq, Repr

/-- A Library block (R413, R416). -/
structure LibBlock where
  state : BlockState
  chmask : BitVec 8
  wp : Nat
  marked : BitVec 8               -- channels whose NAND block is marked for replacement
  nand : Tbl Nat                  -- NAND block on a channel, where it is not the one of the format (R415, R420)
deriving DecidableEq, Repr

/-- A flash channel (R424, R425). -/
structure FlashChan where
  retired : Bool
  cause : BitVec 4
  susp : BitVec 16
  switching : Bool
  rate : BitVec 3
  timing : BitVec 11              -- RLAT, RPRE, ODT in force
  decodeFails : Nat
  spares : List Nat               -- good unmapped NAND blocks (R415, R420)
  transient : List Nat
deriving DecidableEq, Repr

/-- A provisioned record set (R379, R380, R400). -/
structure Records where
  ownerKey : List Byte
  trustSeq : BitVec 32
  trustRecord : List Byte         -- bytes 0 to 1,407 of the stored list
  certificate : List Byte
  rdtim : BitVec 32               -- timing table entry for FLS_RDTIM
deriving DecidableEq, Repr

/-- An erase in progress (R420, R421). -/
structure Erase where
  block : Nat
  entry : Option Nat
deriving DecidableEq, Repr

/-- Life-cycle work that a boot must still carry out (R406, R407). -/
structure LcWork where
  fromLcs : BitVec 3
  toLcs : BitVec 3
  payload : List Byte
deriving DecidableEq, Repr

/-- The flash controller, the journal and the records. -/
structure Flash where
  tgt : BitVec 2
  lun : BitVec 2
  nrl : BitVec 4
  upb : BitVec 12
  nlb : BitVec 24
  rate : BitVec 3
  rlat : BitVec 6
  rpre : BitVec 2
  odt : BitVec 3
  transLimit : BitVec 8
  transWindow : BitVec 14
  chans : Tbl FlashChan
  blocks : Tbl LibBlock
  erases : List Erase
  records : Option Records
  lcWork : Option LcWork
  maxSvn : BitVec 32
  lrsMark : Bool                  -- the previous boot ended in the last-resort state
  suspects : List Nat             -- channels on which a sector stayed uncorrectable in this command (R423)
deriving DecidableEq, Repr

/-! ### Stewards, faults, security, observation -/

/-- State of a firmware slot (R443). -/
inductive SlotState where
  | empty | writing | valid | invalid
deriving DecidableEq, Repr

/-- A firmware slot (R442, R443). -/
structure FwSlot where
  state : SlotState
  active : Bool
  chmask : BitVec 4
  version : BitVec 32
  svn : BitVec 32
  image : List Byte
deriving DecidableEq, Repr

/-- A handover in progress (R446): the FW_UPDATE entry and the slot written. -/
structure Handover where
  entry : Nat
  slot : Bool
  since : Word64
deriving DecidableEq, Repr

/-- A steward core (R435, R439). -/
structure Core where
  stopped : Bool
  debugHalt : Bool
  restarts : List Nat             -- times of core restarts
deriving DecidableEq, Repr

/-- A retirement that TEL has still to log and report: when, in which frame, and its kind and unit (R454, R460). -/
structure Untold where
  time : Nat
  frame : BitVec 32
  kind : Nat
  unit : Nat
deriving DecidableEq, Repr

/-- The stewards, the fault log and the fault status (R426 to R458). -/
structure Fw where
  version : BitVec 32             -- running image
  svn : BitVec 32
  image : List Byte
  slot : Bool                     -- FW_STATUS.SLOT
  region : Bool                   -- image region that the running image is in: false A (R426)
  recovered : Bool                -- the running image came through recovery (R496)
  slotA : FwSlot
  slotB : FwSlot
  wdt : BitVec 14
  wdtEnd : Word64                 -- when the device watchdog expires (R436)
  comp : Nat
  coreRestarts : Nat
  steward : Nat
  lastRestart : BitVec 7
  compTimes : Tbl (List Nat)      -- restart times by component
  cores : List Core
  handover : Option Handover
  faultRetire : Bool
  faultStw : Bool
  devLoss : Bool
  log : Tbl (List Byte)           -- fault-log records by SEQ
  logSeq : BitVec 32              -- next SEQ
  logCopies : List (Nat × List Byte)   -- journal copies, oldest first
  untold : List Untold            -- retirements during a steward reset, oldest first (R460)
deriving DecidableEq, Repr

/-- The last-resort sequencer (R440, R441, R472). -/
structure Lrs where
  active : Bool
  cause : BitVec 3
  stopped : BitVec 4
  frostOk : Bool
  frostErr : Bool
  dtime : Word64
  frostLen : BitVec 27
  frostPage : BitVec 4
deriving DecidableEq, Repr

/-- Security registers and the engine key (R376, R406). -/
structure Sec where
  nonce : List Byte
  authAddr : Word64
  op : BitVec 2
  toLcs : BitVec 3
  err : BitVec 4
  busy : Bool                     -- a GO that a handover holds (R448)
  engineKey : List Byte
deriving DecidableEq, Repr

/-- An event counter (R461). -/
structure Counter where
  value : Nat
  sat : Bool
  evten : Bool
deriving DecidableEq, Repr

/-- What freezes the engine (R469). -/
inductive Freeze where
  | debug | stwreset | lrs
deriving DecidableEq, Repr

/-- A write that a freeze holds (R470): a host memory write. -/
structure HeldWrite where
  address : Nat
  bytes : List Byte
deriving DecidableEq, Repr

/-- Counters and Frost (R461 to R474). -/
structure Dbg where
  counters : Tbl Counter
  frozen : Option Freeze
  frozenAt : Word64
  trigger : BitVec 2
  complete : Bool
  stwEn : Bool
  limit : BitVec 16
  pendingStw : Bool               -- a steward reset waits for its snapshot (R473)
deriving DecidableEq, Repr

/-! ### Span, power, boot -/

/-- Where the block that a RDREQ asked for goes: the return address in the context's space, a local store, or another chip. -/
inductive Landing where
  | va
  | tile (tile offset : Nat)
  | chip (dst address cslot : Nat)
deriving DecidableEq, Repr

/-- A frame that waits for its ACK (R485). A RDREQ also waits for the DATA that it asked for. -/
structure Outstanding where
  port : Bool                     -- port whose SEQ it carries
  lastPort : Bool                 -- port that sent it last
  frameType : Nat
  ctx : Nat
  jobNum : Nat
  dst : Nat
  seq : BitVec 32
  sentAt : Word64
  resends : Nat
  address : Nat
  arg : Word64
  payload : List Byte
  acked : Bool
  filled : Bool                   -- the DATA of a RDREQ has come
  store : Landing
deriving DecidableEq, Repr

/-- A Span port (R483, R488, R518). -/
structure Port where
  state : BitVec 2                -- 0 down, 1 training, 2 up, 3 retired
  cause : BitVec 4
  seq : BitVec 32
  lostAt : Option Word64          -- block lock lost, not regained yet
  calAt : Word64
  calTemp : BitVec 8
  transient : List Nat
deriving DecidableEq, Repr

/-- A Span frame as sent (output of the engine, R483). -/
structure SentFrame where
  port : Bool                     -- port that sends it
  source : BitVec 48              -- Ethernet address of that port (R478)
  destination : BitVec 48         -- Ethernet address that it is sent to (R478)
  spanId : BitVec 16
  src : BitVec 15                 -- SRC bits 14:0
  srcPort : Bool                  -- SRC bit 15: the port whose SEQ it carries
  frameType : Nat
  flags : Nat
  dst : Nat
  jobNum : Nat
  seq : BitVec 32
  address : Nat
  arg : Word64
  payload : List Byte
deriving DecidableEq, Repr

/-- The Span block (R477 to R490). -/
structure Span where
  chip : BitVec 15
  spanId : BitVec 16
  refChip : BitVec 15
  locked : Bool
  active : Bool
  key : List (BitVec 32)
  rto : BitVec 16
  retries : BitVec 4
  transLimit : BitVec 8
  transWindow : BitVec 14
  port0 : Port
  port1 : Port
  outstanding : List Outstanding
  seen : List (Nat × Nat)         -- (2^16 JOBNUM + 2 chip + port, SEQ) applied (R485)
  sent : List SentFrame           -- newest first
  eqxSamples : List (Int × Int)   -- (rtt, t2 - t1 + t3 - t4) of the exchange under way
  eqxSent : Option Word64         -- send time of the open EQX request
  eqxSeq : BitVec 32              -- SEQ of that request
  eqxNext : Option Word64         -- when the next EQX request is due
deriving DecidableEq, Repr

/-- Power and temperature (R505, R506, R512, R523). -/
structure Power where
  cap : BitVec 9
  freq : BitVec 11
  tiles : BitVec 7
  watts : BitVec 10
  floor : Bool
  tj : BitVec 8
  thbm : BitVec 8
  throttle : Bool
  capFreq : BitVec 11             -- the cap's own settings (R524)
  capTiles : BitVec 7
  clocksStopped : Bool
  vdd : Nat                       -- millivolts requested
  avsSince : Option Word64        -- a request that the regulator has not acknowledged
  railsGood : Bool
deriving DecidableEq, Repr

/-- Boot progress (R495 to R497). -/
structure Boot where
  stage : BitVec 4
  slot : Bool
  fallback : Bool
  err : BitVec 4
  recovAddr : Word64
  linkUp : Bool
  released : Bool                 -- HBUSY_N was released since the last cold or warm reset began (R366)
deriving DecidableEq, Repr

/-- Retired units (R455, from the Library): pseudo-channels, flash channels, ports, tiles, and slices. -/
structure Retired where
  pcs : List Nat
  flash : List Nat
  ports : List Nat
  tiles : List Nat
  slices : List Nat
  total : Nat
deriving DecidableEq, Repr

/-- The Docket (R249, R250). -/
structure Docket where
  entries : Tbl Entry
  nextSeq : Nat
  nextId : Nat
  starts : Nat                    -- operations started so far
  turn : BitVec 8                 -- function that had the last fetch turn (R348)
deriving DecidableEq, Repr

end Sys2Proof.Machine

namespace Sys2Proof.Machine
/-- The state of the engine. -/
structure State where
  pending : List Instr
  supply : List Nat
  drawn : Nat
  env : Env
  fuses : Fuses
  pins : Pins
  busRead : BitVec 32
  hostMem : Memory
  localMem : Memory
  sramMem : Memory
  hbmMem : Tbl Stored             -- block b of quad q under 16 q + b; an absent block is physical zero (R271)
  libMem : Tbl Sector             -- by NAND place: channel, block, page and sector (R413, R414)
  frostMem : Memory
  stewardMem : Memory
  runs : Tbl Run
  store0 : Store
  store1 : Store
  syncs : Tbl Sync
  codecSlots : Tbl CodecSlot
  serials : Nat
  streams : Tbl Stream
  docket : Docket
  tiles : Tbl Tile
  retired : Retired
  time : Time
  almanac : Almanac
  sched : Sched
  fns : Tbl Fn
  ctxs : Tbl Ctx
  hbm : Hbm
  flash : Flash
  fw : Fw
  lrs : Lrs
  sec : Sec
  dbg : Dbg
  heldWrites : List HeldWrite
  span : Span
  power : Power
  boot : Boot
deriving DecidableEq, Repr

/-- Why a step stops with a fault: nothing does. Every failure that the spec describes is an effect on the state (R449). -/
inductive Fault where
  /-- Raised by no command; present so that the type is not empty. Safe. -/
  | unreachable
deriving DecidableEq, Repr

/-- Why a command is refused. -/
inductive Refusal where
  /-- A row whose meaning is not written yet, by its mnemonic. Raised by the arms of `exec` alone. Safe. -/
  | notModelled (mnemonic : String)
deriving DecidableEq, Repr

/-! ### Reset values -/

/-- A ring after reset (R340, reset columns). -/
def Ring.reset : Ring :=
  { base := 0, idx := 0, kind := 0, log2n := 0, cq := 0, vector := 0, ien := false, count := 1, time := 0, en := false,
    busy := false, err := 0, own := 0, host := 0, phase := true, unsent := 0, firstUnsent := 0 }

/-- An MSI-X vector after reset: masked (PRESUMED from the base specification, log 18). -/
def Msix.reset : Msix := { address := 0, data := 0, masked := true, pending := false }

/-- Configuration space after a reset of the function (PRESUMED from the base specification, log 18). -/
def PcieCfg.reset : PcieCfg :=
  { vfEnable := false, numVfs := 0, msixEnable := false, msixMask := false, maxPayload := 0, maxReadReq := 2, aerUncStatus := 0,
    aerUncMask := 0, aerUncSeverity := 0x00462030, aerCorStatus := 0, aerCorMask := 0x00002000, ideLink := false,
    ideSelective := false }

/-- The empty Docket; the round robins start with function 0 and ring 0 (DESIGN CHOICE, log 55). -/
def Docket.reset : Docket := { entries := [], nextSeq := 0, nextId := 0, starts := 0, turn := 0xFF }

/-- A function after reset (reset columns of R340 to R369, R464 to R468, R528). -/
def Fn.reset : Fn :=
  { state := .detached, leasePeriod := 1000, grace := 5, leaseEnd := 0, graceEnd := 0, attachPend := false, d3hot := false,
    ringSel := 0, rings := [], eventMask := 0x7FF, evLost := 0, cntSel := 0, cntHi := 0, dtimeHi := 0, eqxHi := 0,
    codSel := 0, pcSel := 0, flsChSel := 0, lblkSel := 0, logSel := 0, traceBase := 0, traceEn := false,
    traceFrames := false, traceLog2n := 6, traceCount := 0, msix := [], cfg := PcieCfg.reset, turn := 0xFF,
    orphanAtThaw := false }

/-- A cube after reset: everything in it is 0 (DESIGN CHOICE, log 20). -/
def Cube.reset : Cube := { weights := List.replicate 512 0, shadow := List.replicate 512 0, file := [] }

/-- An instruction of a unit that touches no bytes yet. -/
def InFlight.of (unit : Nat) : InFlight :=
  { unit := unit, fence := none, slot := none, loads := false, reads := [], writes := [], sideReads := [], sideWrites := []
    remote := [], holds := [], was := [], spoiled := [] }

/-- A tile after reset (R74; values at program start, DESIGN CHOICE before the first program, log 20). -/
def Tile.reset : Tile :=
  { entry := none, ctx := 0, rank := 0, gang := 0, prog := 0, len := 0, pc := 0, sregs := List.replicate 32 0,
    dregs := List.replicate 16 0, fences := List.replicate 8 0, slots := [], held := none, cubes := List.replicate 4 Cube.reset,
    bank := false, cached := [], tlb := [], inflight := [], halted := false, stopped := false, rowStop := false, waitOn := none,
    signals := 0, seen := [], last := none, starts := [], lastCtx := none, transient := [], busySince := 0 }

/-- A stream that no one holds (R207). -/
def Stream.reset : Stream :=
  { state := .closed, ctx := 0, handle := 0, profile := 0, layers := 1, heads := 1, kvTier := false, positions := 0, pending := none,
    tree := none, tail := 0, tailFree := 0, leaves := [], exps := [], slots := [], held := [], growTier := false,
    pinnedEntry := none, closing := false }

/-- The default Almanac window (R240). -/
def Window.default : Window := { start := 0, rtcap := 96, iaw := 128, bkw := 128 }

/-- A pseudo-channel after reset. -/
def Pc.reset : Pc :=
  { retired := false, cause := 0, reads := [], writes := [], stalled := [], banks := [], draining := false, sinceAged := 8,
    transient := [], late := false, refNext := 0, refDue := 0, tables := [] }

/-- A bank after reset: H is 0b0011 (R319). -/
def Bank.reset : Bank :=
  { row := none, history := 3, idleFrom := 0, left := false, refreshes := 0, owed := 0, ahead := 0 }

/-- A channel after reset. -/
def Chan.reset : Chan := { trainedAt := 0, trainedTemp := none, due := false, retry := [] }

/-- A sync counter after reset (R97). -/
def Sync.reset : Sync := { value := 0, poisoned := false, marks := [] }

/-- An empty table slot (R301). -/
def CodecSlot.reset : CodecSlot := { cur := none, prev := none, counter := 0 }

/-- An event counter after reset (R463). -/
def Counter.reset : Counter := { value := 0, sat := false, evten := false }

/-- A Harvest profile after reset (R198). -/
def Profile.reset : Profile := { budget := 0, sink := 4, recent := 64, decay := 3, cslack := 2, gevict := true }

/-- A host window after reset (R266). -/
def HWin.reset : HWin := { base := 0, pages := 0, en := false, w := false, mapped := none, busyEpoch := none }

/-- An empty pool (R360). -/
def Pool.empty : Pool := { all := [], free := [], resv := [], rtgt := 0, quota := 0, part := [] }

/-- A Library block from the journal (DESIGN CHOICE, log 6). -/
def LibBlock.reset : LibBlock := { state := .erased, chmask := 0xFF, wp := 0, marked := 0, nand := [] }

/-- A flash channel after reset (R410: SDR timing mode 0). -/
def FlashChan.reset : FlashChan :=
  { retired := false, cause := 0, susp := 0, switching := false, rate := 0, timing := 0, decodeFails := 0,
    spares := (List.range 8).map (80 + ·), transient := [] }

/-- A Span port after reset (R488). -/
def Port.reset : Port :=
  { state := 0, cause := 0, seq := 0, lostAt := none, calAt := 0, calTemp := 0, transient := [] }

/-- A steward core after reset. -/
def Core.reset : Core := { stopped := false, debugHalt := false, restarts := [] }

/-- The DRBG before its context is created. -/
def Drbg.reset : Drbg :=
  { seed := [], gen := 0, pos := 0, prev := none, words := List.replicate 16 0, deferred := none }

/-- A context with its cold register values (R360, reset columns). -/
def Ctx.reset : Ctx :=
  { weight := 0, rtok := false, dquota := 0, syncBase := 0, syncCount := 0, slotBase := 0, slotCount := 0,
    streamQuota := 0, dataKey := [], contentKeys := [], drbg := Drbg.reset, job := none, tpFault := 0, jobFault := 0,
    mmuAddr := 0, mmuInfo := 0, ltLimit := 4000, hwins := [], pool0 := Pool.empty, pool1 := Pool.empty, pages := [],
    root := none, tables := [], winPages := [], open_ := 0, closed := [], profiles := List.replicate 4 Profile.reset, packages := [],
    loadCount := [], growth := [], destroying := false, wiping := false, destroyCause := 0 }

/-- The frame tracker after a cold reset (R230 to R237). -/
def Time.reset : Time :=
  { dtime := 0, frameStart := 0, period := 16667000, pm := 16667000, pf := 16667000, periodReg := 16667, locked := false,
    nign := 0, nmiss := 0, hold := false, expected := 0, lastIgnored := 0, lastPulse := none, en := false, enOff := false, offAt := 0,
    frameNum := 0, eqxOffset := 0, eqxValid := false, eqxErr := 0 }

/-- The Almanac after a cold reset (R240). -/
def Almanac.reset : Almanac :=
  { base := 0, active := [Window.default], cur := 0, queued := none, checking := none, err := 0, gen := 0 }

/-- Scheduling registers after a cold reset. -/
def Sched.reset : Sched :=
  { ageIA := 10000, ageBK := 250000, panicLead := 1048576, panicEn := true, panic := false, passIA := 0, passBK := 0,
    ctxPass := [], claims := [], tileLimit := 16, tileWindow := 1000 }

/-- HBM registers after a cold reset. -/
def Hbm.reset : Hbm :=
  { rate := 2, idle := 200, policy := 0, ageLimit := 4000, transLimit := 16, transWindow := 1000, retrainPeriod := 600,
    retrainDelta := 10, retraining := none, retrainChan := 0, retrainCount := 0, pcs := [], chans := [],
    temps := [none, none, none, none], condemned := [], tlb := [], tlb1 := [] }

/-- The flash controller after a cold reset; geometry, blocks and records are the board's (DESIGN CHOICE, log 6). -/
def Flash.reset : Flash :=
  { tgt := 0, lun := 0, nrl := 4, upb := 384, nlb := 16, rate := 0, rlat := 0, rpre := 0, odt := 0, transLimit := 16,
    transWindow := 1000, chans := [], blocks := [], erases := [], records := none, lcWork := none, maxSvn := 0,
    lrsMark := false, suspects := [] }

/-- An empty firmware slot. -/
def FwSlot.empty : FwSlot :=
  { state := .empty, active := false, chmask := 0xF, version := 0, svn := 0, image := [] }

/-- Stewards after a cold reset; slot A is VALID and active, its image the board's (DESIGN CHOICE, log 6). -/
def Fw.reset : Fw :=
  { version := 0, svn := 0, image := [], slot := false, region := false, recovered := false,
    slotA := { FwSlot.empty with state := .valid, active := true }, slotB := FwSlot.empty, wdt := 500, wdtEnd := 500000000,
    comp := 0, coreRestarts := 0, steward := 0, lastRestart := 0, compTimes := [],
    cores := List.replicate 4 Core.reset, handover := none, faultRetire := false, faultStw := false, devLoss := false,
    log := [], logSeq := 0, logCopies := [], untold := [] }

/-- The last-resort block after a cold reset (R441). -/
def Lrs.reset : Lrs :=
  { active := false, cause := 0, stopped := 0, frostOk := false, frostErr := false, dtime := 0, frostLen := 0, frostPage := 0 }

/-- Security registers after a cold reset; the nonce and the engine key are drawn at boot (log 4). -/
def Sec.reset : Sec := { nonce := [], authAddr := 0, op := 0, toLcs := 0, err := 0, busy := false, engineKey := [] }

/-- Observation registers after a cold reset. -/
def Dbg.reset : Dbg :=
  { counters := [], frozen := none, frozenAt := 0, trigger := 0, complete := false, stwEn := true, limit := 100,
    pendingStw := false }

/-- The Span block after a cold reset. -/
def Span.reset : Span :=
  { chip := 0, spanId := 0, refChip := 0, locked := false, active := false, key := List.replicate 16 0, rto := 50,
    retries := 3, transLimit := 16, transWindow := 1000, port0 := Port.reset, port1 := Port.reset, outstanding := [],
    seen := [], sent := [], eqxSamples := [], eqxSent := none, eqxSeq := 0, eqxNext := none }

/-- Power registers after a cold reset (R505, R512). -/
def Power.reset : Power :=
  { cap := 400, freq := 1600, tiles := 96, watts := 0, floor := false, tj := 0, thbm := 0, throttle := false,
    capFreq := 1600, capTiles := 96, clocksStopped := false, vdd := 800, avsSince := none, railsGood := true }

/-- Boot progress at the start of the boot ROM (R494). -/
def Boot.reset : Boot :=
  { stage := 0, slot := false, fallback := false, err := 0, recovAddr := 0, linkUp := false, released := false }

/-- The digest of the root key of State.reset, 64 zero bytes (DESIGN CHOICE, log 8). -/
def rootDigest0 : List Byte :=
  [126, 165, 242, 234, 158, 148, 135, 222, 71, 83, 145, 139, 191, 83, 8, 235, 145, 250, 100, 24, 137, 35, 108, 85, 215, 8, 236, 180, 217, 102, 106, 54,
    8, 215, 157, 174, 133, 226, 62, 43, 235, 49, 47, 237, 181, 33, 232, 44, 241, 162, 51, 173, 205, 74, 156, 39, 108, 116, 139, 236, 213, 149, 196, 9]

/-- The engine right after a cold reset: Device Time 0, the boot ROM about to start, no context (R230, R337, R494). -/
def State.reset : State :=
  { pending := [], supply := [], drawn := 0,
    env := { hostErr := [], hostLate := [], libErr := [], libLate := [], nandBad := [], trainBad := 0, slotErr := [], slotBad := [], hbmBad := [] },
    fuses := { uds := 0, lcs := 2, kepoch := 0, code := false, rev := 0, rootKey := List.replicate 64 0, rootDigest := rootDigest0 },
    pins := { perstHigh := true, testEn := false, thermtrip := false, testInstr := .idcode, smbAddress := 0x4D, response := [] },
    busRead := 0, hostMem := [], localMem := [], sramMem := [], hbmMem := [], libMem := [], frostMem := [],
    stewardMem := [], runs := [], store0 := { fresh := 16384, back := [] }, store1 := { fresh := 0, back := [] },
    syncs := [], codecSlots := [], serials := 0, streams := [],
    docket := Docket.reset, tiles := [],
    retired := { pcs := [], flash := [], ports := [], tiles := [], slices := [], total := 0 },
    time := Time.reset, almanac := Almanac.reset, sched := Sched.reset, fns := [], ctxs := [], hbm := Hbm.reset,
    flash := Flash.reset, fw := Fw.reset, lrs := Lrs.reset, sec := Sec.reset, dbg := Dbg.reset, heldWrites := [],
    span := Span.reset, power := Power.reset, boot := Boot.reset }

end Sys2Proof.Machine
end

