-- ==== Sys2Proof/Machine/Ops.lean ====
section
/-! DEFINITION. The named operations over tables, memories, counters, host memory, events and the fault log. -/

namespace Sys2Proof.Machine

/-! ### Sparse tables -/

/-- The value of a key, when it is listed. -/
def tblGet {α : Type} : Tbl α → Nat → Option α
  | [], _ => none
  | (k, v) :: r, a => if a = k then some v else if a < k then none else tblGet r a

/-- The value of a key, or the value that an unlisted key has. -/
def tblGetD {α : Type} (t : Tbl α) (k : Nat) (d : α) : α := (tblGet t k).getD d

/-- Lists a key with a value, in key order. -/
def tblPut {α : Type} : Tbl α → Nat → α → Tbl α
  | [], a, v => [(a, v)]
  | (k, w) :: r, a, v =>
    if a = k then (a, v) :: r else if a < k then (a, v) :: (k, w) :: r else (k, w) :: tblPut r a v

/-- Takes a key off the list. -/
def tblDel {α : Type} (t : Tbl α) (k : Nat) : Tbl α := t.filter fun p => p.1 != k

/-- Changes every value by a function of its key and value. -/
def tblMap {α : Type} (t : Tbl α) (f : Nat → α → α) : Tbl α := t.map fun p => (p.1, f p.1 p.2)

/-- The keys rise strictly. -/
def tblWf {α : Type} : Tbl α → Bool
  | [] => true
  | [_] => true
  | (k, _) :: (k', w) :: r => decide (k < k') && tblWf ((k', w) :: r)

/-! ### Memories -/

/-- A byte of a memory; an unlisted address reads as 0. -/
def memRead : Memory → Nat → Byte
  | [], _ => 0
  | (k, b) :: r, a => if a = k then b else if a < k then 0 else memRead r a

/-- Writes a byte and keeps the canonical form: writing 0 takes the entry off. -/
def memWrite : Memory → Nat → Byte → Memory
  | [], a, b => if b = 0 then [] else [(a, b)]
  | (k, c) :: r, a, b =>
    if a = k then (if b = 0 then r else (a, b) :: r)
    else if a < k then (if b = 0 then (k, c) :: r else (a, b) :: (k, c) :: r)
    else (k, c) :: memWrite r a b

/-- The canonical form: addresses rise strictly and no listed byte is 0. -/
def Memory.wf : Memory → Bool
  | [] => true
  | [(_, b)] => decide (b ≠ 0)
  | (k, b) :: (k', c) :: r => decide (b ≠ 0) && decide (k < k') && Memory.wf ((k', c) :: r)

/-- n bytes from an address upwards. -/
def memReadN (m : Memory) (a : Nat) : Nat → List Byte
  | 0 => []
  | n + 1 => memRead m a :: memReadN m (a + 1) n

/-- Writes bytes from an address upwards. -/
def memWriteN (m : Memory) (a : Nat) : List Byte → Memory
  | [] => m
  | b :: bs => memWriteN (memWrite m a b) (a + 1) bs

/-- Wipes n bytes from an address (R6). -/
def memWipe (m : Memory) (a n : Nat) : Memory := m.filter fun p => decide (p.1 < a ∨ a + n ≤ p.1)

/-- A little-endian number of n bytes. -/
def memNat (m : Memory) (a n : Nat) : Nat := leNat (memReadN m a n)

/-! ### Free values (R3, log 4) -/

/-- The next free number: from the state's supply while it lasts, then the configuration's. -/
def drawNat (s : State) : Nat × State :=
  match s.supply with
  | n :: r => (n, { s with supply := r })
  | [] => (Config.freeNat s.drawn, { s with drawn := s.drawn + 1 })

/-- A free byte list of length n. -/
def drawBytes : Nat → State → List Byte × State
  | 0, s => ([], s)
  | n + 1, s =>
    let (v, s1) := drawNat s
    let (bs, s2) := drawBytes n s1
    (BitVec.ofNat 8 v :: bs, s2)

/-! ### Accessors of the tables -/

/-- Function f. -/
def fnOf (s : State) (f : Nat) : Fn := tblGetD s.fns f Fn.reset
/-- Replaces function f. -/
def setFn (s : State) (f : Nat) (v : Fn) : State := { s with fns := tblPut s.fns f v }
/-- Ring r of function f. -/
def ringOf (s : State) (f r : Nat) : Ring := tblGetD (fnOf s f).rings r Ring.reset
/-- Replaces ring r of function f. -/
def setRing (s : State) (f r : Nat) (v : Ring) : State :=
  setFn s f { fnOf s f with rings := tblPut (fnOf s f).rings r v }
/-- Context c, if it exists (R337). -/
def ctxOf (s : State) (c : Nat) : Option Ctx := tblGet s.ctxs c
/-- Replaces context c. -/
def setCtx (s : State) (c : Nat) (v : Ctx) : State := { s with ctxs := tblPut s.ctxs c v }
/-- Applies a change to context c if it exists. -/
def modCtx (s : State) (c : Nat) (g : Ctx → Ctx) : State :=
  match ctxOf s c with
  | some x => setCtx s c (g x)
  | none => s
/-- Tile t. -/
def tileOf (s : State) (t : Nat) : Tile := tblGetD s.tiles t Tile.reset
/-- Replaces tile t. -/
def setTile (s : State) (t : Nat) (v : Tile) : State := { s with tiles := tblPut s.tiles t v }
/-- Docket entry e. -/
def entryOf (s : State) (e : Nat) : Option Entry := tblGet s.docket.entries e
/-- Replaces Docket entry e. -/
def setEntry (s : State) (e : Nat) (v : Entry) : State :=
  { s with docket := { s.docket with entries := tblPut s.docket.entries e v } }
/-- Applies a change to Docket entry e if it stands. -/
def modEntry (s : State) (e : Nat) (g : Entry → Entry) : State :=
  match entryOf s e with
  | some x => setEntry s e (g x)
  | none => s
/-- Frees Docket entry e. -/
def delEntry (s : State) (e : Nat) : State :=
  { s with docket := { s.docket with entries := tblDel s.docket.entries e } }
/-- Stream i. -/
def streamOf (s : State) (i : Nat) : Stream := tblGetD s.streams i Stream.reset
/-- Replaces stream i. -/
def setStream (s : State) (i : Nat) (v : Stream) : State := { s with streams := tblPut s.streams i v }
/-- Pseudo-channel p. -/
def pcOf (s : State) (p : Nat) : Pc := tblGetD s.hbm.pcs p Pc.reset
/-- Replaces pseudo-channel p. -/
def setPc (s : State) (p : Nat) (v : Pc) : State := { s with hbm := { s.hbm with pcs := tblPut s.hbm.pcs p v } }
/-- HBM channel c. -/
def chanOf (s : State) (c : Nat) : Chan := tblGetD s.hbm.chans c Chan.reset
/-- Replaces HBM channel c. -/
def setChan (s : State) (c : Nat) (v : Chan) : State :=
  { s with hbm := { s.hbm with chans := tblPut s.hbm.chans c v } }
/-- Flash channel c. -/
def flashChanOf (s : State) (c : Nat) : FlashChan := tblGetD s.flash.chans c FlashChan.reset
/-- Replaces flash channel c. -/
def setFlashChan (s : State) (c : Nat) (v : FlashChan) : State :=
  { s with flash := { s.flash with chans := tblPut s.flash.chans c v } }
/-- Library block g. -/
def libBlockOf (s : State) (g : Nat) : LibBlock := tblGetD s.flash.blocks g LibBlock.reset
/-- Replaces Library block g. -/
def setLibBlock (s : State) (g : Nat) (v : LibBlock) : State :=
  { s with flash := { s.flash with blocks := tblPut s.flash.blocks g v } }
/-- Sync counter by global number (R471). -/
def syncOf (s : State) (g : Nat) : Sync := tblGetD s.syncs g Sync.reset
/-- Replaces a sync counter. -/
def setSync (s : State) (g : Nat) (v : Sync) : State := { s with syncs := tblPut s.syncs g v }
/-- Port p of the Span. -/
def portOf (s : State) (p : Bool) : Port := if p then s.span.port1 else s.span.port0
/-- Replaces a port. -/
def setPort (s : State) (p : Bool) (v : Port) : State :=
  if p then { s with span := { s.span with port1 := v } } else { s with span := { s.span with port0 := v } }
/-- Codec slot by global number (R296). -/
def slotOf (s : State) (g : Nat) : CodecSlot := tblGetD s.codecSlots g CodecSlot.reset
/-- Replaces a codec slot. -/
def setSlot (s : State) (g : Nat) (v : CodecSlot) : State := { s with codecSlots := tblPut s.codecSlots g v }

/-! ### Time -/

/-- Device Time as a number. -/
def now (s : State) : Nat := s.time.dtime.toNat

/-- The frame phase at this tick (R231). -/
def phaseOf (s : State) : Nat :=
  min 16777215 (16777216 * (now s - s.time.frameStart.toNat) / s.time.period)

/-! ### Counters (R461, R462) -/

/-- The number is a counter's (R462). -/
def isCounter (n : Nat) : Bool :=
  (1 ≤ n && n ≤ 0xC) ||
  (0x1000 ≤ n && n < 0x1000 + 16 * 96 && (n - 0x1000) % 16 ≤ 6) ||
  (0x2000 ≤ n && n < 0x2000 + 32 * 256 && (n - 0x2000) % 32 ≤ 14)

/-- The function that owns a counter (R462). -/
def counterOwner (n : Nat) : Nat := if 0x2000 ≤ n then (n - 0x2000) / 32 else 0

/-- Counter n. -/
def counterOf (s : State) (n : Nat) : Counter := tblGetD s.dbg.counters n Counter.reset

/-- A counter after it counts an amount (R461). -/
def Counter.add (c : Counter) (amount : Nat) : Counter :=
  if c.value + amount ≥ 2 ^ 48 - 1 ∧ amount ≠ 0 then { c with value := 2 ^ 48 - 1, sat := true }
  else { c with value := c.value + amount }

/-- Replaces a counter. -/
def setCounter (s : State) (n : Nat) (c : Counter) : State :=
  { s with dbg := { s.dbg with counters := tblPut s.dbg.counters n c } }

/-! ### Host memory (R257, R353, R470) -/

/-- Nothing writes during a freeze: the write is held until Thaw (R470), and after last-resort entry it is lost (R440). -/
def hostWrite (s : State) (a : Nat) (bs : List Byte) : State :=
  match s.dbg.frozen with
  | none => { s with hostMem := memWriteN s.hostMem a bs }
  | some .lrs => s
  | some _ => { s with heldWrites := s.heldWrites ++ [{ address := a, bytes := bs }] }

/-- How a lower-tier read ends (R276, R277). -/
inductive LowRead where
  | data (bs : List Byte)
  | error
  | late
deriving DecidableEq, Repr

/-- Two byte ranges meet. -/
def meets (a n b m : Nat) : Bool := decide (a < b + m) && decide (b < a + n)

/-- A host read: failed, late or its bytes (R276, R277). A read that is both meets the failure first (log 14). -/
def hostRead (s : State) (a n : Nat) : LowRead :=
  if s.env.hostErr.any (fun r => meets a n r.1 r.2) then .error
  else if s.env.hostLate.any (fun r => meets a n r.1 r.2) then .late
  else .data (memReadN s.hostMem a n)

/-! ### MSI-X and ring entries -/

/-- Sends an MSI-X message, or marks it pending while its vector or the function is masked; with MSI-X disabled there is none (R335,
R363; base specification, log 18). -/
def sendMsix (s : State) (f v : Nat) : State :=
  let m := tblGetD (fnOf s f).msix v Msix.reset
  if !(fnOf s f).cfg.msixEnable then s
  else if m.masked || (fnOf s f).cfg.msixMask then setFn s f { fnOf s f with msix := tblPut (fnOf s f).msix v { m with pending := true } }
  else hostWrite s m.address.toNat (leBytes 4 m.data.toNat)

/-- Bytes of an entry of a ring kind (R340). -/
def entrySize (kind : BitVec 2) : Nat := if kind = 0 ∨ kind = 2 then 64 else 32

/-- Entries that a ring holds unconsumed, or unfetched. -/
def ringFill (r : Ring) : Nat :=
  if r.kind = 0 then (r.host - r.own).toNat else (r.own - r.host).toNat

/-- The ring has room for one entry more that the engine writes (R346). -/
def ringRoom (r : Ring) : Bool := decide (ringFill r + 1 ≤ 2 ^ r.log2n.toNat - 1)

/-- The phase bit after the engine's write position passes slot i (R352). -/
def nextPhase (r : Ring) : Bool :=
  if r.own.toNat % 2 ^ r.log2n.toNat = 2 ^ r.log2n.toNat - 1 then !r.phase else r.phase

/-- Counts an entry towards the ring's message and sends it when due (R351, R363). -/
def ringNotify (s : State) (f i : Nat) (imm : Bool) : State :=
  let r := ringOf s f i
  let r1 := { r with unsent := r.unsent + 1, firstUnsent := if r.unsent = 0 then s.time.dtime else r.firstUnsent }
  if r.ien && (imm || decide (r1.unsent ≥ r.count.toNat)) then
    sendMsix (setRing s f i { r1 with unsent := 0 }) f r.vector.toNat
  else setRing s f i r1

/-- Writes one entry at the engine's write position of a ring and moves it (R340, R352). The caller gives the bytes. -/
def ringWrite (s : State) (f i : Nat) (bs : List Byte) (imm : Bool) : State :=
  let r := ringOf s f i
  let a := r.base.toNat + (r.own.toNat % 2 ^ r.log2n.toNat) * entrySize r.kind
  let s1 := hostWrite s a bs
  let s2 := setRing s1 f i { r with own := r.own + 1, phase := nextPhase r }
  ringNotify s2 f i imm

/-! ### Events (R364, R365) -/

/-- The enabled event ring of a function. -/
def eventRing (x : Fn) : Option Nat := (x.rings.find? fun p => p.2.en && p.2.kind = 3).map Prod.fst

/-- The 32 bytes of an event entry (R364). -/
def eventBytes (s : State) (phase : Bool) (code arg16 arg : Nat) : List Byte :=
  leBytes 8 (now s) ++ leBytes 1 code ++ [0] ++ leBytes 2 arg16 ++ [0, 0, 0] ++
    [if phase then 1 else 0] ++ leBytes 4 (phaseOf s) ++ leBytes 4 0 ++ leBytes 8 arg

/-- Counts a drop (R365): EVENT_DROP, and the count that the next EVENT_LOST reports. A COUNTER_SAT that the drop itself
would cause is dropped on the same full or disabled ring. -/
def dropEvent (s : State) (f : Nat) : State :=
  let n := 0x2000 + 32 * f + 11
  let c := counterOf s n
  let c1 := c.add 1
  let again := !c.sat && c1.sat && c.evten && (fnOf s f).eventMask.getLsbD 5
  let s1 := setCounter s n c1
  setFn s1 f { fnOf s1 f with evLost := (fnOf s1 f).evLost + (if again then 2 else 1) }

/-- Sends an event to a function, or drops it (R364, R365). A function in D3hot takes no DMA (R503). -/
def raiseEvent (s : State) (f code arg16 arg : Nat) : State :=
  let x := fnOf s f
  if x.state ≠ .attached ∨ x.d3hot then s
  else if !x.eventMask.getLsbD (code - 1) then s
  else match eventRing x with
    | none => dropEvent s f
    | some i =>
      let r := ringOf s f i
      if ringRoom r then ringWrite s f i (eventBytes s r.phase code arg16 arg) false else dropEvent s f

/-- Once the ring has space, one EVENT_LOST entry reports the counted drops (R365). -/
def flushLost (s : State) (f : Nat) : State :=
  let x := fnOf s f
  match eventRing x with
  | none => s
  | some i =>
    let r := ringOf s f i
    if decide (x.evLost ≠ 0) && ringRoom r && decide (x.state = .attached) then
      let s1 := ringWrite s f i (eventBytes s r.phase 0x0B 0 x.evLost) false
      setFn s1 f { fnOf s1 f with evLost := 0 }
    else s

/-- Counts an amount in a counter; a counter that saturates with EVTEN set sends COUNTER_SAT (R461). -/
def bump (s : State) (n amount : Nat) : State :=
  let c := counterOf s n
  let c1 := c.add amount
  let s1 := setCounter s n c1
  if !c.sat && c1.sat && c.evten then raiseEvent s1 (counterOwner n) 0x06 n 0 else s1

/-- Counter k of function f and its context (R462). -/
def bumpFn (s : State) (f k amount : Nat) : State := bump s (0x2000 + 32 * f + k) amount

/-- Counter k of tile t, and the same event for the context whose program runs there (R462). -/
def bumpTile (s : State) (t k amount : Nat) : State := bump s (0x1000 + 16 * t + k) amount

/-- An ignored doorbell, BAR0 access or register write of a function (R4). -/
def ignored (s : State) (f : Nat) : State := bumpFn s f 10 1

/-- Counts a write of which some part is ignored; the other parts take effect (R4, R5). -/
def countIf (b : Bool) (s : State) (f : Nat) : State := if b then ignored s f else s

/-- Bits of a value outside a mask of writable bits: reserved and read-only fields, whose writes are ignored (R5, R8). -/
def strayBits (v : BitVec 32) (mask : Nat) : Bool := decide (v.toNat &&& mask ≠ v.toNat)

/-- Sends an event to every function (FSYNC events, R364). -/
def raiseAll (s : State) (code arg16 arg : Nat) : State :=
  (List.range 256).foldl (fun t f => raiseEvent t f code arg16 arg) s

/-! ### Fault log (R458) -/

/-- Writes one fault-log record of an event at a Device Time and frame; the ring keeps 4,096, the journal the last 256 of kinds 3, 5,
6 and 7. -/
def logFaultAt (s : State) (time frame kind ctx cause unit arg : Nat) : State :=
  let q := s.fw.logSeq
  let rec32 := leBytes 8 time ++ leBytes 4 q.toNat ++ leBytes 1 kind ++ leBytes 1 ctx ++ leBytes 1 cause ++ [0] ++
    leBytes 2 unit ++ [0, 0] ++ leBytes 4 frame ++ leBytes 8 arg
  let copies := if kind = 3 ∨ kind = 5 ∨ kind = 6 ∨ kind = 7 then s.fw.logCopies ++ [(q.toNat, rec32)] else s.fw.logCopies
  { s with fw := { s.fw with
      log := tblDel (tblPut s.fw.log q.toNat rec32) ((q - 4096).toNat)
      logSeq := q + 1
      logCopies := copies.drop (copies.length - 256) } }

/-- Writes one fault-log record of an event that happens now. -/
def logFault (s : State) (kind ctx cause unit arg : Nat) : State :=
  logFaultAt s (now s) s.time.frameNum.toNat kind ctx cause unit arg

/-! ### Trace (R467) -/

/-- Opcode of a command (opcode table of Scope and conventions). -/
def opcodeOf : Command → Nat
  | .nop => 0x01
  | .syncWait _ => 0x02
  | .syncSignal _ => 0x03
  | .copy _ => 0x04
  | .tileRun _ => 0x05
  | .packageLoad _ => 0x10
  | .packageUnload _ => 0x11
  | .streamOpen _ => 0x20
  | .streamClose _ => 0x21
  | .streamPark _ => 0x22
  | .streamUnpark _ => 0x23
  | .step _ => 0x30
  | .prefill _ => 0x31
  | .recChunk _ => 0x32
  | .kvMap _ => 0x40
  | .kvUnmap _ => 0x41
  | .poolGrow _ => 0x42
  | .poolShrink _ => 0x43
  | .tableLoad _ => 0x50
  | .jobBegin _ => 0x60
  | .jobEnd _ => 0x61
  | .present _ => 0x70
  | .contextCreate _ => 0x80
  | .contextDestroy _ => 0x81
  | .fwUpdate _ => 0x82
  | .libWrite _ => 0x83
  | .libErase _ => 0x84
  | .attest _ => 0x85

/-- Writes one trace record of a function whose trace buffer is enabled (R467). -/
def traceWrite (s : State) (f kind status sq op cid : Nat) : State :=
  let x := fnOf s f
  if x.traceEn && decide (x.state = .attached) && !x.d3hot then
    let a := x.traceBase.toNat + 32 * (x.traceCount.toNat % 2 ^ x.traceLog2n.toNat)
    let bs := leBytes 8 (now s) ++ leBytes 4 (phaseOf s) ++ leBytes 4 s.time.frameNum.toNat ++ leBytes 1 kind ++
      leBytes 1 status ++ leBytes 1 sq ++ leBytes 1 op ++ leBytes 4 0 ++ leBytes 8 cid
    setFn (hostWrite s a bs) f { x with traceCount := x.traceCount + 1 }
  else s

/-! ### Status codes (spec/00_scope.md) -/

def stSuccess : BitVec 8 := 0x00
def stLowerError : BitVec 8 := 0x10
def stLowerLate : BitVec 8 := 0x11
def stSizeMismatch : BitVec 8 := 0x12
def stTableAbsent : BitVec 8 := 0x13
def stExhausted : BitVec 8 := 0x14
def stDeadline : BitVec 8 := 0x15
def stJobFaulted : BitVec 8 := 0x20
def stPoisoned : BitVec 8 := 0x21
def stInvalid : BitVec 8 := 0x30
def stNotPermitted : BitVec 8 := 0x31
def stSignature : BitVec 8 := 0x32
def stCancelled : BitVec 8 := 0x40
def stContextLost : BitVec 8 := 0x41

/-! ### Whole-engine conditions -/

/-- PERST_N as the engine holds it internally: TEST_EN high holds it low (R510). -/
def perstInside (s : State) : Bool := s.pins.perstHigh && !s.pins.testEn

/-- REFCLK_SYS runs and the engine is out of PERST_N: ticks happen (R230, R493, R506). -/
def ticking (s : State) : Bool := !s.power.clocksStopped && s.power.railsGood && perstInside s

/-- HIF_STATUS.READY, and HBUSY_N high (R366, R497). -/
def ready (s : State) : Bool :=
  s.boot.released && perstInside s && !s.lrs.active && !s.fw.devLoss && !s.power.clocksStopped

/-- The stewards serve: firmware is up, and no steward reset is under way (R429, R438). -/
def stewardsServe (s : State) : Bool := s.boot.stage == 5 && !s.dbg.pendingStw

/-- A steward reset is under way, or its ROM waits for an image: TEL does not run (R438, R460). -/
def telStopped (s : State) : Bool := s.dbg.pendingStw || (s.boot.released && s.boot.stage != 5)

/-- Ring fetch, dispatch and tile issue run: nothing freezes the engine (R440, R470). -/
def running (s : State) : Bool := ready s && s.dbg.frozen.isNone

end Sys2Proof.Machine
end

