-- ==== Sys2Proof/Machine/Operands.lean ====
section
/-! DEFINITION. Operand forms: submission entries (R350, body tables), tile bundles (R77 to R101), tensor descriptors (R82 to
R85), page table entries (R268). -/

namespace Sys2Proof.Machine

/-! ### Submission entries -/

/-- A little-endian field of a list of bytes. -/
def fieldAt (bs : List Byte) (off size : Nat) : Nat := leNat ((bs.drop off).take size)

/-- The command of an opcode with the body fields of its body table; none for a reserved opcode. -/
def commandOf (op : Nat) (bs : List Byte) : Option Command :=
  let f (w off size : Nat) : BitVec w := BitVec.ofNat w (fieldAt bs off size)
  if op = 0x01 then some .nop
  else if op = 0x02 then some (.syncWait { cidx := f 16 24 2, value := f 64 32 8 })
  else if op = 0x03 then some (.syncSignal { cidx := f 16 24 2, value := f 64 32 8 })
  else if op = 0x04 then
    some (.copy { dir := f 8 24 1, cslot := f 16 26 2, src := f 64 32 8, dst := f 64 40 8, len := f 64 48 8 })
  else if op = 0x05 then
    some (.tileRun { prog := f 64 24 8, len := f 32 32 4, gang := f 8 36 1, arg0 := f 64 40 8, arg1 := f 64 48 8,
                     arg2 := f 64 56 8 })
  else if op = 0x10 then
    some (.packageLoad { lunit := f 32 24 4, cbase := f 16 28 2, slotbase := f 16 30 2, cap := f 64 32 8 })
  else if op = 0x11 then some (.packageUnload (f 32 24 4))
  else if op = 0x20 then some (.streamOpen { pkg := f 32 24 4, profile := f 8 28 1, result := f 64 32 8 })
  else if op = 0x21 then some (.streamClose (f 16 24 2))
  else if op = 0x22 then some (.streamPark { stream := f 16 24 2, flags := f 8 26 1 })
  else if op = 0x23 then some (.streamUnpark (f 16 24 2))
  else if op = 0x30 then
    some (.step { batch := f 64 24 8, nstreams := f 16 32 2, pq := f 16 34 2, out := f 64 40 8 })
  else if op = 0x31 then
    some (.prefill { stream := f 16 24 2, flags := f 8 26 1, topk := f 8 27 1, itemp := f 16 28 2, ntok := f 32 32 4,
                     tokens := f 64 40 8, out := f 64 48 8, pq := f 16 56 2 })
  else if op = 0x32 then
    some (.recChunk { stream := f 16 24 2, entry := f 8 26 1, npos := f 32 28 4, inp := f 64 32 8, out := f 64 40 8,
                      marks := f 64 48 8 })
  else if op = 0x40 then
    some (.kvMap { stream := f 16 24 2, mode := f 8 26 1, first := f 16 28 2, npages := f 16 30 2, sstream := f 16 32 2,
                   sfirst := f 16 34 2, src := f 64 40 8 })
  else if op = 0x41 then some (.kvUnmap { stream := f 16 24 2, first := f 16 28 2, npages := f 16 30 2 })
  else if op = 0x42 then
    some (.poolGrow { tier := f 8 24 1, flags := f 8 25 1, quads := f 32 28 4, rtgt := f 32 32 4 })
  else if op = 0x43 then
    some (.poolShrink { tier := f 8 24 1, flags := f 8 25 1, quads := f 32 28 4, rtgt := f 32 32 4 })
  else if op = 0x50 then
    some (.tableLoad { slot := f 16 24 2, mode := f 8 26 1, npc := f 8 27 1, nblk := f 16 28 2, src := f 64 32 8,
                       result := f 64 40 8 })
  else if op = 0x60 then some (.jobBegin { tag := f 64 24 8, spanjob := f 64 32 8, flags := f 8 40 1 })
  else if op = 0x61 then some (.jobEnd (f 8 24 1))
  else if op = 0x70 then
    some (.present { pq := f 16 24 2, flags := f 8 26 1, notbefore := f 32 28 4, cidx := f 16 32 2, target := f 64 40 8,
                     tag := f 64 48 8 })
  else if op = 0x80 then
    some (.contextCreate { ctx := f 8 24 1, flags := f 8 25 1, weight := f 8 26 1, sync := f 16 28 2, cslots := f 16 30 2,
                           quota0 := f 32 32 4, quota1 := f 32 36 4, streams := f 32 40 4, dquota := f 16 44 2 })
  else if op = 0x81 then some (.contextDestroy (f 8 24 1))
  else if op = 0x82 then some (.fwUpdate { src := f 64 24 8, len := f 32 32 4, mode := f 8 36 1 })
  else if op = 0x83 then some (.libWrite { lunit := f 32 24 4, nunits := f 32 28 4, src := f 64 32 8 })
  else if op = 0x84 then some (.libErase { first := f 32 24 4, nblk := f 32 28 4 })
  else if op = 0x85 then
    some (.attest { out := f 64 24 8, ctx := f 8 32 1, mode := f 8 33 1, nonce := f 192 40 24 })
  else none

/-- The body bytes that a command's body table names: (offset, size). Every other byte of 24 to 63 is reserved (R350). -/
def bodyBytes : Command → List (Nat × Nat)
  | .nop => []
  | .syncWait _ => [(24, 2), (32, 8)]
  | .syncSignal _ => [(24, 2), (32, 8)]
  | .copy _ => [(24, 1), (26, 2), (32, 24)]
  | .tileRun _ => [(24, 13), (40, 24)]
  | .packageLoad _ => [(24, 16)]
  | .packageUnload _ => [(24, 4)]
  | .streamOpen _ => [(24, 5), (32, 8)]
  | .streamClose _ => [(24, 2)]
  | .streamPark _ => [(24, 3)]
  | .streamUnpark _ => [(24, 2)]
  | .step _ => [(24, 12), (40, 8)]
  | .prefill _ => [(24, 6), (32, 4), (40, 18)]
  | .recChunk _ => [(24, 3), (28, 28)]
  | .kvMap _ => [(24, 3), (28, 8), (40, 8)]
  | .kvUnmap _ => [(24, 2), (28, 4)]
  | .poolGrow _ => [(24, 2), (28, 8)]
  | .poolShrink _ => [(24, 2), (28, 8)]
  | .tableLoad _ => [(24, 6), (32, 16)]
  | .jobBegin _ => [(24, 17)]
  | .jobEnd _ => [(24, 1)]
  | .present _ => [(24, 3), (28, 6), (40, 16)]
  | .contextCreate _ => [(24, 3), (28, 18)]
  | .contextDestroy _ => [(24, 1)]
  | .fwUpdate _ => [(24, 13)]
  | .libWrite _ => [(24, 16)]
  | .libErase _ => [(24, 8)]
  | .attest _ => [(24, 10), (40, 24)]

/-- A submission entry as read from its ring (R350). -/
structure RawEntry where
  opcode : Nat
  hdr : ReqHeader
  hdrBad : Bool                   -- a reserved field of the common header is non-zero
  bodyBad : Bool                  -- a reserved byte of the body is non-zero
  cmd : Option Command            -- none: a reserved opcode
deriving DecidableEq, Repr

/-- Reads the 64 bytes of a submission entry of ring `sq` of function `fn` (R350). -/
def parseEntry (fn sq : Nat) (bs : List Byte) : RawEntry :=
  let flags := fieldAt bs 1 1
  let cmd := commandOf (fieldAt bs 0 1) bs
  let named (i : Nat) : Bool :=
    match cmd with
    | some c => (bodyBytes c).any fun r => decide (r.1 ≤ i) && decide (i < r.1 + r.2)
    | none => true
  { opcode := fieldAt bs 0 1
    hdr := { fn := BitVec.ofNat 8 fn, sq := BitVec.ofNat 8 sq, cls := BitVec.ofNat 2 flags, imm := bitOf flags 2,
             fence := bitOf flags 3, deadline := BitVec.ofNat 32 (fieldAt bs 4 4), timeout := BitVec.ofNat 32 (fieldAt bs 8 4),
             cid := BitVec.ofNat 64 (fieldAt bs 16 8) }
    hdrBad := decide (flags / 16 ≠ 0) || decide (fieldAt bs 2 2 ≠ 0) || decide (fieldAt bs 12 4 ≠ 0)
    bodyBad := (List.range 40).any fun i => !named (24 + i) && decide (fieldAt bs (24 + i) 1 ≠ 0)
    cmd := cmd }

/-! ### Tile bundles (R77 to R101) -/

/-- The mask of bits high:low. -/
def rangeMask (high low : Nat) : Nat := 2 ^ (high + 1) - 2 ^ low

/-- The tile opcodes of R80. -/
def isTileOp (op : Nat) : Bool :=
  op ≤ 8 || (0x20 ≤ op && op ≤ 0x22) || op == 0x30 || op == 0x31 || op == 0x40 || op == 0x41 || (0x50 ≤ op && op ≤ 0x52)

/-- The reserved bits of a bundle of an opcode (R77, R87, R91, R93, R98, R101). -/
def bundleReserved (op : Nat) : Nat :=
  rangeMask 31 20 |||
  (if op ≤ 1 then rangeMask 127 32
   else if op = 2 then rangeMask 36 32 ||| rangeMask 63 50 ||| rangeMask 127 84
   else if op = 3 then rangeMask 63 37
   else if op = 4 then rangeMask 63 52 ||| rangeMask 127 96
   else if op ≤ 6 then rangeMask 63 42 ||| rangeMask 127 85
   else if op = 7 then rangeMask 36 36 ||| rangeMask 63 42 ||| rangeMask 127 85
   else if op = 8 then rangeMask 36 36 ||| rangeMask 127 42
   else if op ≤ 0x22 then rangeMask 95 95 ||| rangeMask 111 107
   else if op = 0x30 then rangeMask 63 32 ||| rangeMask 127 96
   else if op = 0x31 then rangeMask 47 45 ||| rangeMask 79 72 ||| rangeMask 111 96
   else if op = 0x40 then rangeMask 63 50 ||| rangeMask 95 80 ||| rangeMask 127 120
   else if op = 0x41 then rangeMask 35 32 ||| rangeMask 44 40 ||| rangeMask 63 50 ||| rangeMask 119 112 ||| rangeMask 127 120
   else rangeMask 95 74)

/-- A bundle breaks R79: a reserved field is non-zero, or COND is 7, or FN is 13 to 15. -/
def bundleBad (w : Nat) : Bool :=
  let op := bitsOf w 7 0
  decide (w &&& bundleReserved op ≠ 0) || (op == 2 && bitsOf w 49 47 == 7) || (op == 4 && decide (13 ≤ bitsOf w 51 48))

/-! ### Tensor descriptors (R82) -/

/-- The fields of a tensor descriptor. -/
structure Desc where
  base : Nat
  chip : Nat
  tier : Nat
  fmt : Nat
  gsz : Nat
  seg : Nat
  shift : Nat
  rank : Nat
  cslot : Nat
  rows : Nat
  cols : Nat
  stride : Nat
  soff : Nat
  sstr : Nat
deriving DecidableEq, Repr

/-- Reads a descriptor register (R82). -/
def descOf (w : Nat) : Desc :=
  { base := bitsOf w 47 0, chip := bitsOf w 62 48, tier := bitsOf w 65 64, fmt := bitsOf w 75 72, gsz := bitsOf w 77 76,
    seg := bitsOf w 79 78, shift := bitsOf w 85 80, rank := bitsOf w 94 88, cslot := bitsOf w 104 96,
    rows := bitsOf w 143 128, cols := bitsOf w 159 144, stride := bitsOf w 191 160, soff := bitsOf w 223 192,
    sstr := bitsOf w 255 224 }

/-- Group size G (R82). -/
def Desc.group (d : Desc) : Nat := 32 * 2 ^ d.gsz
/-- Segment length S (R82). -/
def Desc.segLen (d : Desc) : Nat := 32 * 2 ^ d.seg
/-- Weight bits of a weight format: W2, W3, W4, W6, W8 (R82). -/
def Desc.weightBits (d : Desc) : Nat :=
  if d.fmt = 3 then 2 else if d.fmt = 4 then 3 else if d.fmt = 5 then 4 else if d.fmt = 6 then 6 else 8
/-- The format is a weight format. -/
def Desc.isWeight (d : Desc) : Bool := decide (3 ≤ d.fmt) && decide (d.fmt ≤ 7)
/-- The slot exponent of an I32 descriptor, bits 199:192 signed. -/
def Desc.slotExp (d : Desc) : Int :=
  if d.soff % 256 < 128 then ((d.soff % 256 : Nat) : Int) else ((d.soff % 256 : Nat) : Int) - 256
/-- The empty descriptor: every field 0 (R85). -/
def Desc.empty (w : Nat) : Bool := w == 0

/-- The local-store tiers. -/
def Desc.isLocal (d : Desc) : Bool := decide (d.tier ≤ 1)

/-- DLOAD's verdict on a descriptor (R85): none, or the cause 0x02 or 0x03. `slots` is the context's COD_SLOT_WINDOW.COUNT. -/
def descCheck (w slots : Nat) : Option Nat :=
  let d := descOf w
  let reserved :=
    bitOf w 63 || decide (bitsOf w 71 66 ≠ 0) || decide (bitsOf w 87 86 ≠ 0) || bitOf w 95 ||
    decide (bitsOf w 127 105 ≠ 0) || decide (8 ≤ d.fmt) || decide (d.gsz = 3)
  if reserved then some 0x02
  else if w = 0 then none
  else
    let a16 := d.fmt = 1
    let wt := d.isWeight
    let kw := (d.rows + 31) / 32
    let bad : Bool :=
      decide (d.isLocal ∧ 2 ^ 21 ≤ d.base) ||
      decide (d.chip ≠ 0 ∧ d.tier ≠ 3) ||
      decide (d.rank ≠ 0 ∧ d.tier ≠ 1) ||
      (!wt && decide (d.gsz ≠ 0 ∨ d.shift ≠ 0)) ||
      decide (d.seg ≠ 0 ∧ ¬ a16) ||
      decide (d.rows = 0) ||
      decide (d.fmt ≠ 0 ∧ d.cols = 0) ||
      decide (d.fmt = 0 ∧ (d.cols ≠ 0 ∨ d.soff ≠ 0)) ||
      decide (d.fmt = 2 ∧ 256 ≤ d.soff) ||
      decide (d.fmt ≠ 0 ∧ (d.base % 64 ≠ 0 ∨ d.stride % 64 ≠ 0)) ||
      (wt && decide (d.stride < kw * 16 * 4 * d.weightBits)) ||
      (wt && decide (d.sstr < (d.rows + d.group - 1) / d.group * 32)) ||
      decide (d.cslot ≠ 0 ∧ slots ≤ d.cslot)
    if bad then some 0x03 else none

/-- The check of BASE when an instruction names a descriptor (R85): the cause, if it fails. -/
def descAtIssue (w : Nat) : Option Nat :=
  let d := descOf w
  if w = 0 then some 0x03
  else if d.isLocal then
    (if 2 ^ 21 ≤ d.base ∨ (d.base % 64 ≠ 0 ∧ d.fmt ≠ 0) then some 0x06 else none)
  else if d.base % 64 ≠ 0 ∧ d.fmt ≠ 0 then some 0x03 else none

/-! ### Page table entries (R268) -/

/-- An entry of the translation tables. In a table entry `target` is the frame of the next table. -/
structure Pte where
  valid : Bool
  tbl : Bool                      -- the entry points to a next-level table
  tier : Nat
  writable : Bool
  pkg : Bool
  target : Nat
  zmask : Nat
deriving DecidableEq, Repr

/-- Reads a table entry (R268). -/
def pteOf (w : Word64) : Pte :=
  let n := w.toNat
  { valid := bitOf n 0, tbl := bitOf n 1, tier := bitsOf n 3 2, writable := bitOf n 4, pkg := bitOf n 5, target := bitsOf n 39 8,
    zmask := bitsOf n 55 40 }

/-- Spells an entry (R268). -/
def pteWord (p : Pte) : Word64 :=
  BitVec.ofNat 64 ((if p.valid then 1 else 0) + (if p.tbl then 2 else 0) + 4 * p.tier + (if p.writable then 16 else 0) + (if p.pkg then 32 else 0) +
    2 ^ 8 * (p.target % 2 ^ 32) + 2 ^ 40 * (p.zmask % 2 ^ 16))

/-- A valid leaf entry, and the entry that points to the table in HBM frame f (R268). -/
def Pte.leaf (tier : Nat) (writable pkg : Bool) (target zmask : Nat) : Pte :=
  { valid := true, tbl := false, tier := tier, writable := writable, pkg := pkg, target := target, zmask := zmask }
def Pte.table (f : Nat) : Pte := { Pte.leaf 0 false false f 0 with tbl := true }

/-! ### KV leaves (R171) -/

/-- The 128 bits of a KV leaf. -/
def leafBits (k : KvLeaf) : Nat :=
  k.live.toNat + 2 ^ 64 * k.frame.toNat + 2 ^ 88 * (if k.tier then 1 else 0) + 2 ^ 89 * k.nfm1.toNat +
    2 ^ 91 * (if k.raw then 1 else 0) + 2 ^ 92 * (if k.map then 1 else 0) + 2 ^ 96 * k.h1off.toNat

/-- The leaf that names nothing. -/
def KvLeaf.none_ : KvLeaf := { live := 0, frame := 0, tier := false, nfm1 := 0, raw := false, map := false, h1off := 0 }

end Sys2Proof.Machine
end

