-- ==== Sys2Proof/Machine/Arith.lean ====
section
/-! DEFINITION. Integer arithmetic with shared scales: rounding and saturation (R33 to R35), weight words and group scales (R26 to
R28), accumulation (R36 to R41) and narrowing (R42 to R45). Numbers are exact integers; each narrowing says whether it saturated. -/

namespace Sys2Proof.Machine

/-! ### Shifts, rounding, saturation -/

/-- Shift right by n bits, rounding half up (R33). -/
def rhu (v : Int) (n : Nat) : Int := if n = 0 then v else (v + 2 ^ (n - 1)) / 2 ^ n

/-- Saturation to a signed width (R34). -/
def satTo (n : Nat) (v : Int) : Int := max (-(2 ^ (n - 1))) (min (2 ^ (n - 1) - 1) v)

/-- The saturation changes the value. -/
def satChanges (n : Nat) (v : Int) : Bool := satTo n v != v

/-- A shift by a signed count: left exact, right rounding half up (R33, R34). -/
def shiftBy (v : Int) (l : Int) : Int := if 0 ≤ l then v * 2 ^ l.toNat else rhu v (-l).toNat

/-! ### Stored formats -/

/-- A number of n bits in two's complement. -/
def signedOf (n v : Nat) : Int := if v % 2 ^ n < 2 ^ (n - 1) then ((v % 2 ^ n : Nat) : Int) else ((v % 2 ^ n : Nat) : Int) - 2 ^ n

/-- The 16-bit element at index j of a list of bytes. -/
def elem16 (bs : List Byte) (j : Nat) : Int := (BitVec.ofNat 16 (fieldAt bs (2 * j) 2)).toInt

/-- Value i of a weight word of format Wb (R27). -/
def weightValue (b word i : Nat) : Int := signedOf b (bitsOf word (b * i + b - 1) (b * i))

/-- Shift s and mantissa m of a GS16 word (R28). -/
def gsShift (w : Nat) : Nat := bitsOf w 15 12
def gsMantissa (w : Nat) : Nat := bitsOf w 11 0

/-! ### Accumulation (R38) -/

/-- Adds the term Q with value exponent x into an accumulator whose row exponent is U; answers whether anything saturated (R38,
R41). -/
def foldTerm (u : Int) (c : Int × Bool) (q x : Int) : Int × Bool :=
  let l := x - u
  let raw := shiftBy q l
  let term := if 0 ≤ l then satTo 64 raw else raw
  (satTo 64 (c.1 + term), c.2 || term != raw || satChanges 64 (c.1 + term))

/-- Folds the groups of one accumulator in order: pairs (Q, x). -/
def foldGroups (u : Int) (c : Int × Bool) (gs : List (Int × Int)) : Int × Bool := gs.foldl (fun a g => foldTerm u a g.1 g.2) c

/-- Adds two partial accumulators (R62). -/
def addPartial (a b : Int × Bool) : Int × Bool := (satTo 64 (a.1 + b.1), a.2 || b.2 || satChanges 64 (a.1 + b.1))

/-! ### Narrowing -/

/-- Magnitude of a 64-bit value (R42: |-2^63| counts as 2^63). -/
def maxAbs (vs : List Int) : Nat := vs.foldl (fun m v => max m v.natAbs) 0

/-- Bit length. -/
def bitLength (n : Nat) : Nat := if n = 0 then 0 else Nat.log2 n + 1

/-- Narrows one segment of values with exponent U to A16: the elements, the RS8 exponent, and whether REQ_EXP_CLAMP counts (R42). -/
def requant (u : Int) (vs : List Int) : List Int × Int × Bool :=
  let m := maxAbs vs
  if m = 0 then (vs.map fun _ => 0, -128, false)
  else
    let r0 : Int := (bitLength m : Int) - 15
    let r := if u + r0 < -128 then -128 - u else if 127 < u + r0 then 127 - u else r0
    (vs.map fun v => satTo 16 (shiftBy v (-r)), u + r, r != r0)

/-- Narrows a value with exponent U to an I32 slot of exponent f: the value, and whether ARITH_SAT counts (R45). -/
def narrowState (u f v : Int) : Int × Bool :=
  let x := shiftBy v (u - f)
  (satTo 32 x, satChanges 32 x)

end Sys2Proof.Machine
end

