-- ==== Sys2Proof/Machine/Functions.lean ====
section
/-! DEFINITION. The function micro-ops EXP2, SIG, TANH, SILU, RCP and RSQRT (R119 to R121): each result is one of the values that
R120 allows, picked by the implementation (log 12); the exact points, the symmetries and the order between inputs of R121 are kept. -/

namespace Sys2Proof.Machine

/-- Fixed-point one, with 120 fraction bits. -/
def fixOne : Nat := 2 ^ 120

/-- log2 e with 120 fraction bits. -/
def log2e : Nat := 1917670637729674084946755258930051709

/-- 2 to the power 2^-k, with 120 fraction bits. -/
def rootTwo : Nat → Nat
  | 0 => 2 * fixOne
  | k + 1 => Nat.sqrt (rootTwo k * fixOne)

/-- 2 to the power f / 2^bits for f below 2^bits, with 120 fraction bits. -/
def exp2Frac (f bits : Nat) : Nat :=
  (List.range bits).foldl (fun v i => if (f >>> (bits - 1 - i)) % 2 = 1 then v * rootTwo (i + 1) / fixOne else v) fixOne

/-- e to the power -a / 2^24 for a natural a, with 120 fraction bits; above 0, as the power is. -/
def expNeg (a : Nat) : Nat :=
  if a = 0 then fixOne
  else
    let t := a * log2e / 2 ^ 24
    let n := t / fixOne
    let f := t % fixOne / 2 ^ 56
    if 200 ≤ n then 1 else max 1 (exp2Frac (2 ^ 64 - 1 - f) 64 / 2 ^ (n + 1))

/-- The least and the greatest integer within `bound` of the ideal y, both in units of 1 / scale (R120). -/
def leastWithin (y bound scale : Int) : Int := -(-(y - bound) / scale)
def mostWithin (y bound scale : Int) : Int := (y + bound) / scale

/-- An allowed integer that the implementation returns for an input alone. -/
def pickWithin (code : Nat) (input lo hi : Int) : Int :=
  lo + ((Config.functionPick code (input % 2 ^ 64).toNat : Nat) : Int) % max 1 (hi - lo + 1)

/-- The greatest of lo + 1 to lo + n whose step the input has reached, or lo. -/
def reached (step : Int → Bool) (lo : Int) : Nat → Int
  | 0 => lo
  | n + 1 => if step (lo + (n + 1 : Nat)) then lo + (n + 1 : Nat) else reached step lo n

/-- An allowed integer of a function that does not decrease (R121): the implementation fixes at which input the function steps up to
each output. Every function that keeps the bounds, which rise with the input, and does not decrease is of this form. -/
def pickRising (code : Nat) (input lo hi : Int) : Int :=
  reached (fun y => decide (Config.functionStep code y ≤ input)) lo (hi - lo).toNat

/-- The same for a function that does not increase. -/
def pickFalling (code : Nat) (input lo hi : Int) : Int :=
  reached (fun y => decide (input ≤ Config.functionStep code y)) lo (hi - lo).toNat

/-- EXP2 (R120, R121): the result, and whether it counts as a saturation. Between two integers x it lies between their exact
results. -/
def fnExp2 (code : Nat) (a : Int) : Int × Bool :=
  if 33 * 2 ^ 24 ≤ a then (2 ^ 63 - 1, true)
  else if a ≤ -32 * 2 ^ 24 then (0, false)
  else
    let n := a / 2 ^ 24
    let f := (a % 2 ^ 24).toNat
    if f = 0 ∧ -30 ≤ n then (2 ^ (n + 30).toNat, false)
    else
      let y : Int := exp2Frac f 24 * 2 ^ (n + 70).toNat
      let bound : Int := max (2 ^ 160) (y / 2 ^ 23)
      let below : Int := if -30 ≤ n then 2 ^ (n + 30).toNat else 0
      let above : Int := if -31 ≤ n then 2 ^ (n + 31).toNat else 1
      (pickRising code a (max below (leastWithin y bound (2 ^ 160))) (min (2 ^ 63 - 1) (min above (mostWithin y bound (2 ^ 160)))),
        false)

/-- SIG for an input of 0 or more. -/
def fnSigPos (a : Nat) : Int :=
  if a = 0 then 2 ^ 29
  else
    let y : Int := (2 ^ 150 * fixOne / (fixOne + expNeg a) : Nat)
    pickRising 0x11 a (max (2 ^ 29) (leastWithin y (64 * 2 ^ 120) (2 ^ 120))) (mostWithin y (64 * 2 ^ 120) (2 ^ 120))

/-- TANH for an input of 0 or more. -/
def fnTanhPos (a : Nat) : Int :=
  if a = 0 then 0
  else
    let e := expNeg (2 * a)
    let y : Int := (2 ^ 150 * (fixOne - e) / (fixOne + e) : Nat)
    pickRising 0x12 a (max 0 (leastWithin y (128 * 2 ^ 120) (2 ^ 120))) (mostWithin y (128 * 2 ^ 120) (2 ^ 120))

/-- SILU (R120): it does not decrease from 0 on. -/
def fnSilu (a : Int) : Int :=
  if 64 * 2 ^ 24 ≤ a then a
  else if a ≤ -64 * 2 ^ 24 then 0
  else
    let m := a.natAbs
    let e := expNeg m
    let y : Int := if 0 ≤ a then (m * fixOne * fixOne / (fixOne + e) : Nat) else -(m * fixOne * e / (fixOne + e) : Nat)
    let bound : Int := 2 ^ 120 + m * 2 ^ 96
    let lo := leastWithin y bound (2 ^ 120)
    let hi := mostWithin y bound (2 ^ 120)
    if 0 ≤ a then pickRising 0x13 a lo (min (64 * 2 ^ 24) hi) else pickWithin 0x13 a lo hi

/-- RCP for a positive input: between two powers of 2 it lies between their exact results. -/
def fnRcpPos (a : Nat) : Int :=
  let k := Nat.log2 a
  if a = 2 ^ k then 2 ^ 62 / a
  else
    let y : Int := (2 ^ 182 / a : Nat)
    let bound : Int := 2 ^ 120 + y / 2 ^ 23
    pickFalling 0x14 a (max (2 ^ 62 / 2 ^ (k + 1)) (leastWithin y bound (2 ^ 120)))
      (min (2 ^ 62 / 2 ^ k) (mostWithin y bound (2 ^ 120)))

/-- RSQRT for a positive input: between two powers of 4 it lies between their exact results. -/
def fnRsqrtPos (a : Nat) : Int :=
  let k := Nat.log2 a
  if a = 2 ^ k ∧ k % 2 = 0 then 2 ^ (62 - k / 2)
  else
    let y : Int := (Nat.sqrt (2 ^ 324 / a) : Nat)
    let bound : Int := 2 ^ 100 + y / 2 ^ 23
    let above : Int := if k / 2 < 31 then 2 ^ (61 - k / 2) else 0
    pickFalling 0x15 a (max above (leastWithin y bound (2 ^ 100))) (min (2 ^ (62 - k / 2)) (mostWithin y bound (2 ^ 100)))

/-- A function micro-op on a 64-bit input: its result, and whether GATE_SAT counts it (R119 to R121). -/
def functionValue (code : Nat) (a : Int) : Int × Bool :=
  if code = 0x10 then fnExp2 code a
  else if code = 0x11 then (if 0 ≤ a then fnSigPos a.toNat else 2 ^ 30 - fnSigPos (-a).toNat, false)
  else if code = 0x12 then (if 0 ≤ a then fnTanhPos a.toNat else -fnTanhPos (-a).toNat, false)
  else if code = 0x13 then (fnSilu a, false)
  else if code = 0x14 then
    if a = 0 then (2 ^ 63 - 1, true)
    else if a = -(2 ^ 63) then (0, false)
    else if 0 < a then (fnRcpPos a.toNat, false)
    else (-fnRcpPos (-a).toNat, false)
  else if a = 0 then (2 ^ 63 - 1, true)
  else if a < 0 then (0, true)
  else (fnRsqrtPos a.toNat, false)

end Sys2Proof.Machine
end

