-- ==== Sys2Proof/Machine/Phys.lean ====
section
/-! DEFINITION. Physical tiers: the HBM map (R314), the unassigned store (R271), the pseudo-channel queues with the page-close
predictor (R316 to R322), and the placement of quads on retired resources. -/

namespace Sys2Proof.Machine

/-! ### Geometry -/

/-- Stack IDs of the ordering code (R314). -/
def nsid (s : State) : Nat := if s.fuses.code then 2 else 3
/-- HBM quads of the ordering code (R314). -/
def hbmQuads (s : State) : Nat := if s.fuses.code then 1572864 else 2359296
/-- Pseudo-channel of a quad (R314). -/
def quadPc (q : Nat) : Nat := (q % 128) ^^^ (q / 128 % 128)
/-- Bank of byte o of quad q: 16 sid + 4 bk + bg (R314). -/
def quadBank (s : State) (q o : Nat) : Nat := 16 * (q / 128 % nsid s) + 4 * (o / 4096 % 4) + o / 1024 % 4
/-- Row of byte o of quad q (R314). -/
def quadRow (s : State) (q o : Nat) : Nat := 4 * (q / 128 / nsid s) + o / 16384
/-- The quad lies on a retired pseudo-channel (tier false) or slice (tier true) (R332, R453). -/
def quadRetired (s : State) (tier : Bool) (q : Nat) : Bool :=
  if tier then s.retired.slices.contains (q / 256) else s.retired.pcs.contains (quadPc q)

/-- Size in quads of the store's numbering of one tier (R271, R314). -/
def storeTop (s : State) (tier : Bool) : Nat := if tier then 23552 else hbmQuads s
/-- The quad that number k of the store names: state SRAM leaves out the Frost area (R271). -/
def storeQuad (tier : Bool) (k : Nat) : Nat :=
  if tier && decide (20480 ≤ k) then 20480 + (k - 20480) / 192 * 256 + (k - 20480) % 192 else k
/-- The store of a tier. -/
def storeOf (s : State) (tier : Bool) : Store := if tier then s.store1 else s.store0
/-- Replaces the store of a tier. -/
def setStore (s : State) (tier : Bool) (v : Store) : State :=
  if tier then { s with store1 := v } else { s with store0 := v }

/-- Quads of the store that lie on retired resources and were never handed out. -/
def storeLost (s : State) (tier : Bool) : Nat :=
  let f := (storeOf s tier).fresh
  if tier then
    (s.retired.slices.map fun t =>
      let lo := if t < 80 then 256 * t else 20480 + 192 * (t - 80)
      let hi := if t < 80 then 256 * t + 256 else 20480 + 192 * (t - 80) + 192
      hi - max lo f).sum
  else
    (s.retired.pcs.map fun p =>
      let d := f / 128
      (hbmQuads s / 128 - (d + 1)) + (if f % 128 ≤ (p ^^^ (d % 128)) ∧ d < hbmQuads s / 128 then 1 else 0)).sum

/-- MMU_STORE_QUADS: unassigned quads, none on a retired resource (R271). -/
def storeCount (s : State) (tier : Bool) : Nat :=
  (storeTop s tier - (storeOf s tier).fresh) - storeLost s tier + (storeOf s tier).back.length

/-- Takes n quads that were never handed out, in ascending order (log 7). -/
def takeFresh (s : State) (tier : Bool) : Nat → Nat → Nat → List Nat × Nat
  | 0, k, _ => ([], k)
  | _ + 1, k, 0 => ([], k)
  | fuel + 1, k, n + 1 =>
    if storeTop s tier ≤ k then ([], k)
    else if quadRetired s tier (storeQuad tier k) then takeFresh s tier fuel (k + 1) (n + 1)
    else
      let r := takeFresh s tier fuel (k + 1) n
      (storeQuad tier k :: r.1, r.2)

/-- Takes n quads out of the store: those that came back first, then fresh ones. None when too few (R192). -/
def storeTake (s : State) (tier : Bool) (n : Nat) : Option (List Nat × State) :=
  let st := storeOf s tier
  let a := st.back.take n
  let (b, k) := takeFresh s tier (storeTop s tier) st.fresh (n - a.length)
  if a.length + b.length = n then some (a ++ b, setStore s tier { fresh := k, back := st.back.drop n }) else none

/-- Puts quads back into the store; a retired quad never returns (R175). -/
def storeGive (s : State) (tier : Bool) (qs : List Nat) : State :=
  let st := storeOf s tier
  setStore s tier { st with back := st.back ++ qs.filter fun q => !quadRetired s tier q }

/-! ### Pseudo-channel queues -/

/-- Bursts of a queue. -/
def burstsOf (qs : List HbmReq) : Nat := (qs.map HbmReq.bursts).sum

/-- A bank of a pseudo-channel. -/
def bankOf (p : Pc) (b : Nat) : Bank := tblGetD p.banks b Bank.reset
/-- Replaces a bank. -/
def Pc.setBank (p : Pc) (b : Nat) (v : Bank) : Pc := { p with banks := tblPut p.banks b v }

/-- The write queue drains: from 48 bursts on or while no read waits, and then until 16 bursts or fewer are left and a read waits
(R318). -/
def drains (p : Pc) : Bool :=
  let w := burstsOf p.writes
  !p.writes.isEmpty && (decide (48 ≤ w) || p.reads.isEmpty || (p.draining && decide (16 < w)))

/-- A pseudo-channel after its queues have changed: whether its write queue drains follows (R318). -/
def Pc.settled (p : Pc) : Pc := { p with draining := drains p }

/-- A write may go: its queue drains, and under panic a write that is not RT drains only at 48 bursts (R318, R322). -/
def writeGoes (panic : Bool) (p : Pc) (r : HbmReq) : Bool :=
  drains p && (!panic || r.cls == 0 || decide (48 ≤ burstsOf p.writes))

/-- An aged request that is not RT may take a command slot under panic only as 1 of any 8 while an RT request waits (R322). -/
def mayGo (panic rtWaits : Bool) (p : Pc) (r : HbmReq) : Bool :=
  !(panic && rtWaits && r.aged && r.cls != 0) || decide (7 ≤ p.sinceAged)

/-- The rank of a request, 0 first (R322). The aged request that may take 1 of 8 slots goes ahead of the RT requests that wait: "a
request that is not RT still receives 1 column command in 8". -/
def reqRank (panic rtWaits : Bool) (r : HbmReq) : Nat :=
  let cls := if r.cls = 0 then 2 else if r.cls = 1 then 4 else if r.cls = 2 then 5 else 6
  if !panic then (if r.aged then 1 else cls)
  else if r.cls = 0 then 2
  else if r.aged then (if rtWaits then 0 else 3)
  else cls

/-- The request that goes first: by rank, then row hits, then age; aged requests by age alone, and under panic row hits count for RT
only (R322). -/
def pickReq (panic : Bool) (p : Pc) : Option (Bool × Nat) :=
  let rt := (p.reads ++ p.writes).any fun r => r.cls == 0
  let of (w : Bool) : List (Bool × Nat) := (List.range (if w then p.writes else p.reads).length).map fun i => (w, i)
  let req (x : Bool × Nat) : Option HbmReq := (if x.1 then p.writes else p.reads)[x.2]?
  let cand := (of false ++ of true).filter fun x => (req x).any fun r => mayGo panic rt p r && (!x.1 || writeGoes panic p r)
  let key (x : Bool × Nat) : Nat × Nat × Nat :=
    match req x with
    | none => (9, 1, 0)
    | some r =>
      let hit := decide ((bankOf p r.bank).row = some r.row) && (if panic then r.cls == 0 else !r.aged)
      (reqRank panic rt r, if hit then 0 else 1, r.issued.toNat)
  let less (a b : Nat × Nat × Nat) : Bool :=
    decide (a.1 < b.1) || (a.1 == b.1 && (decide (a.2.1 < b.2.1) || (a.2.1 == b.2.1 && decide (a.2.2 < b.2.2))))
  cand.foldl (fun best x =>
    match best with
    | none => some x
    | some b => if less (key x) (key b) then some x else some b) none

/-- Whether a bank's row stays open after a column command to row `row` (R319). -/
def keepsOpen (policy : BitVec 2) (queued : List HbmReq) (bank row : Nat) (h : BitVec 4) : Bool :=
  if queued.any fun r => r.bank == bank && r.row == row then true
  else if queued.any fun r => r.bank == bank then false
  else if policy = 1 then false
  else decide (policy = 2) || decide (2 ≤ ((List.range 4).filter fun i => h.getLsbD i).length)

/-- The channel of pseudo-channel p is out of service for a retraining (R330). -/
def pcHeld (s : State) (p : Nat) : Bool := s.hbm.retraining.map BitVec.toNat == some (p / 2)

/-- Keeps commands of pseudo-channel p in its channel's retry buffer, the last 64 (R326). -/
def keepIssued (s : State) (p : Nat) (l : List HbmCmd) : State :=
  let c := chanOf s (p / 2)
  let buf := c.retry ++ l.map fun k => { time := s.time.dtime, pc := p, cmd := k }
  setChan s (p / 2) { c with retry := buf.drop (buf.length - 64) }

/-- The row commands that open a row in a bank (R326). -/
def openRow (b : Bank) (bank row : Nat) : List HbmCmd :=
  if b.row = some row then [] else (if b.row.isSome then [.precharge bank] else []) ++ [.activate bank row]

/-- The column command of a request's next burst. -/
def HbmReq.command (r : HbmReq) : HbmCmd :=
  if r.write then .write r.bank r.row r.col (r.data.take 32) else .read r.bank r.row r.col

/-- What is left of a request after its next burst. -/
def HbmReq.rest (r : HbmReq) : HbmReq := { r with col := r.col + 32, bursts := r.bursts - 1, data := r.data.drop 32 }

/-- A queue has room for a request: 64 reads, 64 write bursts (R318). -/
def hasRoom (p : Pc) (r : HbmReq) : Bool := decide (burstsOf (if r.write then p.writes else p.reads) + r.bursts ≤ 64)

/-- A request enters its queue; the bank's history shifts at the first request after a row was left open (R319). -/
def Pc.enter (p : Pc) (r : HbmReq) : Pc :=
  let b := bankOf p r.bank
  let b1 := if b.left then
      { b with left := false, history := (b.history <<< 1) ||| (if b.row = some r.row then 1 else 0) } else b
  let p1 := p.setBank r.bank b1
  (if r.write then { p1 with writes := p1.writes ++ [r] } else { p1 with reads := p1.reads ++ [r] }).settled

/-- Requests that wait in their sources enter the queues in order, as far as there is room (R318, R330). -/
def Pc.fillFrom (p : Pc) : List HbmReq → Pc
  | [] => { p with stalled := [] }
  | r :: l => if hasRoom p r then (p.enter r).fillFrom l else { p with stalled := r :: l }

/-- Issues one column command of a pseudo-channel (R318, R319, R322), keeps it with its row commands in the channel's retry buffer
(R326), and lets stalled requests in. -/
def issueOne (s : State) (p : Nat) : State :=
  let x := pcOf s p
  match pickReq s.sched.panic x with
  | none => s
  | some (w, i) =>
    match (if w then x.writes else x.reads)[i]? with
    | none => s
    | some r =>
      let rest (l : List HbmReq) : List HbmReq := if r.bursts ≤ 1 then l.eraseIdx i else l.set i r.rest
      let reads := if w then x.reads else rest x.reads
      let writes := if w then rest x.writes else x.writes
      let b := bankOf x r.bank
      let keep := keepsOpen s.hbm.policy (reads ++ writes) r.bank r.row b.history
      let b1 := { b with row := if keep then some r.row else none, idleFrom := s.time.dtime, left := keep }
      let x1 := { (x.setBank r.bank b1) with
        reads := reads, writes := writes
        sinceAged := if r.aged && r.cls != 0 then 0 else min 8 (x.sinceAged + 1) }
      keepIssued (setPc s p x1.settled) p (openRow b r.bank r.row ++ [r.command])

/-- Stalled requests of a pseudo-channel enter its queues, unless its channel is held for a retraining (R318, R330). -/
def admitStalled (s : State) (p : Nat) : State :=
  let x := pcOf s p
  if x.stalled.isEmpty || pcHeld s p then s else setPc s p (x.fillFrom x.stalled)

/-- One command slot of a pseudo-channel. While the channel retrains its requests wait (R330). -/
def serveOne (s : State) (p : Nat) : State := if pcHeld s p then s else admitStalled (issueOne s p) p

/-- A request reaches its pseudo-channel: it enters the queue, or waits in its source behind those that wait already (R318, R330). -/
def pushReq (s : State) (p : Nat) (r : HbmReq) : State :=
  let x := pcOf s p
  admitStalled (setPc s p { x with stalled := x.stalled ++ [r] }) p

/-- The bursts that n bytes at offset o of a quad touch in one kilobyte: the first byte of the first burst, and how many. -/
def burstsIn (o n kb : Nat) : Nat × Nat :=
  let lo := max o (1024 * kb)
  let hi := min (o + n) (1024 * kb + 1024)
  if lo < hi then (lo / 32 * 32, (hi + 31) / 32 - lo / 32) else (0, 0)

/-- Whom an access serves: its service class, its context and its Docket entry (R320, R334). -/
structure Service where
  cls : Nat
  ctx : Option Nat
  entry : Option Nat
deriving DecidableEq, Repr

/-- Steward, Frost and wipe traffic (R320). -/
def Service.bulk : Service := { cls := 3, ctx := none, entry := none }

/-- An access of n bytes at offset o of HBM quad q enters its pseudo-channel's queue, one request for each row it touches, and
counts in HBM_RD_64B or HBM_WR_64B (R314, R320, R462). `data`: the bytes of a write. -/
def hbmTouch (s : State) (write : Bool) (q o n : Nat) (data : List Byte) (v : Service) : State :=
  if quadRetired s false q then s
  else
    let kbs := (List.range 65).filter fun k => (burstsIn o n k).2 != 0
    let s1 := kbs.foldl (fun t k =>
      let (lo, m) := burstsIn o n k
      pushReq t (quadPc q)
        { write := write, bank := quadBank t q lo, row := quadRow t q lo, col := lo % 1024, bursts := m
          data := if write then (data.drop (lo - o)).take (32 * m) else []
          cls := v.cls, issued := t.time.dtime, aged := false, ctx := v.ctx, entry := v.entry }) s
    bump s1 (if write then 0xB else 0xA) ((n + 63) / 64)

/-! ### Bytes of a quad -/

/-- Reads n bytes at offset o of a state-SRAM quad, which is not coded (R283). -/
def sramRead (s : State) (q o n : Nat) : List Byte := memReadN s.sramMem (65536 * q + o) n

/-- Writes bytes at offset o of a state-SRAM quad. -/
def sramWrite (s : State) (q o : Nat) (bs : List Byte) : State := { s with sramMem := memWriteN s.sramMem (65536 * q + o) bs }

/-- Wipes a quad (R6): state SRAM, or what HBM holds of its 16 blocks; the HBM writes carry BK (R320). -/
def quadWipe (s : State) (tier : Bool) (q : Nat) : State :=
  if tier then { s with sramMem := memWipe s.sramMem (65536 * q) 65536 }
  else
    hbmTouch { s with hbmMem := s.hbmMem.filter fun p => decide (p.1 / 16 ≠ q) } true q 0 65536 (List.replicate 65536 0) Service.bulk

/-! ### Functions and pools -/

/-- The function takes DMA: attached, and not in D3hot (R370, R503). -/
def takesDma (s : State) (f : Nat) : Bool := decide ((fnOf s f).state = .attached) && !(fnOf s f).d3hot

/-- Pool of a tier. -/
def Ctx.pool (x : Ctx) (tier : Bool) : Pool := if tier then x.pool1 else x.pool0
/-- Replaces a pool. -/
def Ctx.setPool (x : Ctx) (tier : Bool) (p : Pool) : Ctx :=
  if tier then { x with pool1 := p } else { x with pool0 := p }

end Sys2Proof.Machine
end

