-- ==== Sys2Proof/Machine/Crypto.lean ====
section
/-! DEFINITION. The sponge functions and AES-256-XTS, which the spec names and FIPS 202, FIPS 197 and IEEE 1619 define (PRESUMED,
log 9). -/

namespace Sys2Proof.Machine

/-! ### The sponge functions of FIPS 202

A state is five planes of five 64-bit lanes; plane y holds the lanes (0, y) to (4, y). -/

/-- A lane rotated towards its high bits. -/
def turn (w n : Nat) : Nat := (w <<< n) % 2 ^ 64 ||| w >>> (64 - n)

/-- The rotation of lane (x, y): step t of the walk (x, y) to (y, 2 x + 3 y) from (1, 0) turns by t (t + 1) / 2. -/
def turnsFrom : Nat → Nat → Nat → Nat → Nat → Nat
  | 0, _, _, _, _ => 0
  | left + 1, x, y, x0, y0 =>
    if x = x0 ∧ y = y0 then (24 - left) * (25 - left) / 2 % 64 else turnsFrom left y ((2 * x + 3 * y) % 5) x0 y0

/-- The rotations by plane. -/
def laneTurns : List (List Nat) := (List.range 5).map fun y => (List.range 5).map fun x => turnsFrom 24 1 0 x y

/-- One step of the constants' shift register, x^8 + x^6 + x^5 + x^4 + 1. -/
def stepRegister (r : Nat) : Nat := if r < 128 then 2 * r else (2 * r) ^^^ 0x171

/-- The constant of a round from the register: its seven low output bits fall on the bits 0, 1, 3, 7, 15, 31 and 63 of the lane. Answers
the constant and the register for the next round. -/
def roundConstant (r : Nat) : Nat × Nat :=
  (List.range 7).foldl (fun p i => (p.1 ||| (p.2 % 2) <<< (2 ^ i - 1), stepRegister p.2)) (0, r)

/-- Column parities mixed into every lane. -/
def mixColumns (planes : List (List Nat)) : List (List Nat) :=
  let parity := planes.foldl (List.zipWith (· ^^^ ·)) (List.replicate 5 0)
  let effect := List.zipWith (fun west east => west ^^^ turn east 1) (parity.rotateRight 1) (parity.rotateLeft 1)
  planes.map (List.zipWith (· ^^^ ·) effect)

/-- Every lane turned, and moved to its new place: new plane y takes its lane x from old lane (x + 3 y, x). -/
def scatterLanes (planes : List (List Nat)) : List (List Nat) :=
  let turned := List.zipWith (List.zipWith turn) planes laneTurns
  (List.range 5).map fun y => turned.mapIdx fun x plane => plane.getD ((x + 3 * y) % 5) 0

/-- The one step that is not linear, plane by plane. -/
def foldPlane (plane : List Nat) : List Nat :=
  List.zipWith (· ^^^ ·) plane
    (List.zipWith (fun mask lane => (mask ^^^ (2 ^ 64 - 1)) &&& lane) (plane.rotateLeft 1) (plane.rotateLeft 2))

/-- A constant added to lane (0, 0). -/
def addConstant (k : Nat) : List (List Nat) → List (List Nat)
  | (lane :: rest) :: planes => ((lane ^^^ k) :: rest) :: planes
  | planes => planes

/-- So many rounds of the permutation, with the register at their start. -/
def permuteRounds : Nat → Nat → List (List Nat) → List (List Nat)
  | 0, _, planes => planes
  | n + 1, r, planes =>
    permuteRounds n (roundConstant r).2 (addConstant (roundConstant r).1 ((scatterLanes (mixColumns planes)).map foldPlane))

/-- The permutation of 1,600 bits. -/
def permute (planes : List (List Nat)) : List (List Nat) := permuteRounds 24 1 planes

/-- So many lanes of a byte string, the rest 0. -/
def lanesOf : Nat → List Byte → List Nat
  | 0, _ => []
  | n + 1, m => leNat (m.take 8) :: lanesOf n (m.drop 8)

/-- The 25 lanes of a list as planes. -/
def planesOf (lanes : List Nat) : List (List Nat) := (List.range 5).map fun y => ((lanes.drop (5 * y)).take 5)

/-- Absorbs a padded message of n blocks of `rate` bytes. -/
def absorbBlocks (rate : Nat) : Nat → List Byte → List (List Nat) → List (List Nat)
  | 0, _, planes => planes
  | n + 1, m, planes =>
    absorbBlocks rate n (m.drop rate) (permute (List.zipWith (List.zipWith (· ^^^ ·)) planes (planesOf (lanesOf 25 (m.take rate)))))

/-- n blocks of output of `rate` bytes each, a multiple of 8. -/
def squeezeBlocks (rate : Nat) : Nat → List (List Nat) → List Byte
  | 0, _ => []
  | n + 1, planes =>
    ((List.range (rate / 8)).flatMap fun i => leBytes 8 ((planes.getD (i / 5) []).getD (i % 5) 0)) ++
      squeezeBlocks rate n (permute planes)

/-- A message with its suffix and its padding, which fill whole blocks. -/
def padMessage (rate : Nat) (suffix : Byte) (m : List Byte) : List Byte :=
  let fill := rate - m.length % rate
  m ++ (if fill = 1 then [suffix ||| 0x80] else suffix :: (List.replicate (fill - 2) 0 ++ [0x80]))

/-- n bytes of output of the sponge with a rate, in bytes, and a suffix. -/
def sponge (rate : Nat) (suffix : Byte) (m : List Byte) (n : Nat) : List Byte :=
  (squeezeBlocks rate ((n + rate - 1) / rate)
    (absorbBlocks rate (m.length / rate + 1) (padMessage rate suffix m) (List.replicate 5 (List.replicate 5 0)))).take n

/-- SHAKE256, SHAKE128, SHA3-256 and SHA3-512: n bytes, or the digest. -/
def shake256 (m : List Byte) (n : Nat) : List Byte := sponge 136 0x1F m n
def shake128 (m : List Byte) (n : Nat) : List Byte := sponge 168 0x1F m n
def sha3d256 (m : List Byte) : List Byte := sponge 136 0x06 m 32
def sha3d512 (m : List Byte) : List Byte := sponge 72 0x06 m 64

/-- The bytes of an ASCII string. -/
def ascii (t : String) : List Byte := t.toList.map fun c => BitVec.ofNat 8 c.toNat

/-! ### AES-256 (FIPS 197) -/

/-- Doubling in GF(2^8) of AES. -/
def xtime (b : Byte) : Byte := (b <<< 1) ^^^ (if b.msb then 0x1B else 0)

/-- Product in GF(2^8) of AES. -/
def gmul (a : Byte) (b : Byte) : Byte :=
  ((List.range 8).foldl (fun (p : Byte × Byte) i =>
    (if b.getLsbD i then p.1 ^^^ p.2 else p.1, xtime p.2)) (0, a)).1

/-- b to the power 254: the inverse, 0 for 0. -/
def ginv (b : Byte) : Byte :=
  ((List.range 7).foldl (fun (p : Byte × Byte) _ => let q := gmul p.2 p.2; (gmul p.1 q, q)) (1, b)).1

/-- Substitution: the inverse, then the affine map. -/
def subByte (b : Byte) : Byte :=
  let v := ginv b
  v ^^^ v.rotateLeft 1 ^^^ v.rotateLeft 2 ^^^ v.rotateLeft 3 ^^^ v.rotateLeft 4 ^^^ 0x63

/-- Inverse substitution: the affine map back, then the inverse. -/
def invSubByte (b : Byte) : Byte := ginv (b.rotateLeft 1 ^^^ b.rotateLeft 3 ^^^ b.rotateLeft 6 ^^^ 0x05)

/-- Key expansion step: word i of the schedule from those before it, newest first. -/
def expandKey (rc : Byte) : Nat → List (List Byte) → List (List Byte)
  | 0, ws => ws
  | n + 1, ws =>
    let i := ws.length
    let prev := ws.headD []
    let t := if i % 8 = 0 then
        (match prev.map subByte with
         | [a, b, c, d] => [b ^^^ rc, c, d, a]
         | l => l)
      else if i % 8 = 4 then prev.map subByte else prev
    let w := List.zipWith (· ^^^ ·) (ws.getD 7 []) t
    expandKey (if i % 8 = 0 then xtime rc else rc) n (w :: ws)

/-- The 15 round keys of 16 bytes of a 32-byte key. -/
def roundKeys (key : List Byte) : List (List Byte) :=
  let first := (List.range 8).map fun i => (key.drop (4 * i)).take 4
  let ws := (expandKey 1 52 first.reverse).reverse
  (List.range 15).map fun r => (ws.drop (4 * r)).take 4 |>.flatten

/-- Exclusive or of two byte lists. -/
def xorBytes (a b : List Byte) : List Byte := List.zipWith (· ^^^ ·) a b

/-- Row shift; byte r + 4 c of the block holds row r of column c. -/
def shiftRows (a : List Byte) : List Byte := (List.range 16).map fun i => a.getD ((i + 4 * (i % 4)) % 16) 0
/-- Inverse row shift. -/
def invShiftRows (a : List Byte) : List Byte := (List.range 16).map fun i => a.getD ((i + 12 * (i % 4)) % 16) 0

/-- Column mix with the coefficients of row 0. -/
def mixWith (k : List Byte) (a : List Byte) : List Byte :=
  (List.range 16).map fun i =>
    let c := i / 4
    let r := i % 4
    (List.range 4).foldl (fun x j => x ^^^ gmul (a.getD (4 * c + j) 0) (k.getD ((j + 4 - r) % 4) 0)) 0

/-- AES-256 encryption of one block. -/
def aesEncrypt (rk : List (List Byte)) (b : List Byte) : List Byte :=
  let s0 := xorBytes b (rk.getD 0 [])
  let s13 := (List.range 13).foldl (fun s i =>
    xorBytes (mixWith [2, 3, 1, 1] (shiftRows (s.map subByte))) (rk.getD (i + 1) [])) s0
  xorBytes (shiftRows (s13.map subByte)) (rk.getD 14 [])

/-- AES-256 decryption of one block. -/
def aesDecrypt (rk : List (List Byte)) (b : List Byte) : List Byte :=
  let s0 := xorBytes b (rk.getD 14 [])
  let s13 := (List.range 13).foldl (fun s i =>
    mixWith [14, 11, 13, 9] (xorBytes ((invShiftRows s).map invSubByte) (rk.getD (13 - i) []))) s0
  xorBytes ((invShiftRows s13).map invSubByte) (rk.getD 0 [])

/-- Next tweak: multiplication by alpha (IEEE 1619). -/
def nextTweak (t : Nat) : Nat := (2 * t % 2 ^ 128) ^^^ (if 2 ^ 127 ≤ t then 0x87 else 0)

/-- Runs a block function over a data unit with the tweaks. -/
def xtsUnit (f : List Byte → List Byte) : Nat → Nat → List Byte → List Byte
  | 0, _, _ => []
  | n + 1, t, d =>
    let tw := leBytes 16 t
    xorBytes (f (xorBytes (d.take 16) tw)) tw ++ xtsUnit f n (nextTweak t) (d.drop 16)

/-- AES-256-XTS encryption of a data unit under a 64-byte key pair and a 128-bit tweak (R303). -/
def xtsEncrypt (key : List Byte) (tweak : Nat) (d : List Byte) : List Byte :=
  let t0 := leNat (aesEncrypt (roundKeys (key.drop 32)) (leBytes 16 tweak))
  xtsUnit (aesEncrypt (roundKeys (key.take 32))) (d.length / 16) t0 d

/-- AES-256-XTS decryption (R303). -/
def xtsDecrypt (key : List Byte) (tweak : Nat) (d : List Byte) : List Byte :=
  let t0 := leNat (aesEncrypt (roundKeys (key.drop 32)) (leBytes 16 tweak))
  xtsUnit (aesDecrypt (roundKeys (key.take 32))) (d.length / 16) t0 d

end Sys2Proof.Machine
end

