-- ==== Sys2Proof/Machine/KeyExchange.lean ====
section
/-! DEFINITION. ML-KEM-1024 (FIPS 203), which the spec names for content keys: the device's key pair and decapsulation
(R376, R390; PRESUMED, log 8). -/

namespace Sys2Proof.Machine

/-! ### Polynomials of 256 coefficients modulo 3,329 -/

/-- The modulus. -/
def kemQ : Nat := 3329
/-- The vectors' length in this set. -/
def kemRank : Nat := 4

/-- A coefficient list by index. -/
def poly (f : Nat → Nat) : List Nat := (List.range 256).map fun i => f i % kemQ
/-- The sum, and the difference, of two polynomials. -/
def polyAdd (a b : List Nat) : List Nat := List.zipWith (fun x y => (x + y) % kemQ) a b
def polySub (a b : List Nat) : List Nat := List.zipWith (fun x y => (x + kemQ - y) % kemQ) a b

/-- The seven bits of an index reversed. -/
def reverse7 (i : Nat) : Nat := ((List.range 7).map fun k => i / 2 ^ k % 2 * 2 ^ (6 - k)).sum
/-- A power of 17, which has order 256. -/
def zeta : Nat → Nat
  | 0 => 1
  | e + 1 => zeta e * 17 % kemQ

/-- The powers of 17. -/
def zetas : List Nat := (List.range 256).map zeta
/-- The root that pair i of the transform belongs to, to the power e. -/
def rootPower (i e : Nat) : Nat := zetas.getD ((2 * reverse7 i + 1) * e % 256) 0

/-- The transform: pair i holds the remainder of the polynomial modulo X^2 - root i. -/
def transform (f : List Nat) : List Nat :=
  poly fun n => ((List.range 128).map fun j => f.getD (2 * j + n % 2) 0 * rootPower (n / 2) j).sum
/-- The inverse transform; 3,303 is 1 / 128. -/
def untransform (f : List Nat) : List Nat :=
  poly fun n => ((List.range 128).map fun i => f.getD (2 * i + n % 2) 0 * rootPower i (256 - n / 2)).sum * 3303

/-- The product of two transforms, pair by pair. -/
def pairProduct (a b : List Nat) : List Nat :=
  poly fun n =>
    let i := n / 2
    let a0 := a.getD (2 * i) 0
    let a1 := a.getD (2 * i + 1) 0
    let b0 := b.getD (2 * i) 0
    let b1 := b.getD (2 * i + 1) 0
    if n % 2 = 0 then a0 * b0 + a1 * b1 % kemQ * rootPower i 1 else a0 * b1 + a1 * b0

/-- The inner product of two vectors of transforms. -/
def innerProduct (a b : List (List Nat)) : List Nat := (List.zipWith pairProduct a b).foldl polyAdd (poly fun _ => 0)

/-! ### Bits, rounding and sampling -/

/-- 256 numbers of d bits as 32 d bytes, and back. -/
def joinBits (d : Nat) (f : List Nat) : List Byte := leBytes (32 * d) (f.foldr (fun x acc => x % 2 ^ d + 2 ^ d * acc) 0)
def splitBits (d : Nat) (b : List Byte) : List Nat :=
  let v := leNat b
  (List.range 256).map fun i => v / 2 ^ (d * i) % 2 ^ d

/-- A coefficient rounded to d bits, and back. -/
def squash (d x : Nat) : Nat := (2 ^ d * x + kemQ / 2) / kemQ % 2 ^ d
def stretch (d y : Nat) : Nat := (kemQ * y + 2 ^ (d - 1)) / 2 ^ d

/-- The coefficients below the modulus among the 12-bit numbers of a byte string. -/
def keepSmall : List Byte → List Nat
  | a :: b :: c :: rest =>
    let x := a.toNat + 256 * (b.toNat % 16)
    let y := b.toNat / 16 + 16 * c.toNat
    (if x < kemQ then [x] else []) ++ (if y < kemQ then [y] else []) ++ keepSmall rest
  | _ => []

/-- A uniform transform from a seed of 34 bytes: the first 256 numbers kept of the output, of which 24 blocks hold far more than
enough. -/
def uniform (seed : List Byte) : List Nat := (keepSmall (shake128 seed 4032)).take 256

/-- A small polynomial: differences of two bits each (eta = 2). -/
def small (seed : List Byte) (n : Nat) : List Nat :=
  let v := leNat (shake256 (seed ++ [BitVec.ofNat 8 n]) 128)
  let bit (k : Nat) : Nat := v / 2 ^ k % 2
  poly fun i => bit (4 * i) + bit (4 * i + 1) + kemQ - bit (4 * i + 2) - bit (4 * i + 3)

/-- The matrix entry of row i and column j. -/
def matrixEntry (rho : List Byte) (i j : Nat) : List Nat := uniform (rho ++ [BitVec.ofNat 8 j, BitVec.ofNat 8 i])

/-! ### Keys and decapsulation -/

/-- A key pair: the encapsulation key, the secret vector's transforms, and the value of an implicit rejection. -/
structure KemKey where
  encaps : List Byte
  secret : List (List Nat)
  reject : List Byte
deriving DecidableEq, Repr

/-- The internal key generation from d and z. -/
def kemKey (d z : List Byte) : KemKey :=
  let g := sha3d512 (d ++ [BitVec.ofNat 8 kemRank])
  let rho := g.take 32
  let sigma := g.drop 32
  let s := (List.range kemRank).map fun n => transform (small sigma n)
  let t := (List.range kemRank).map fun i =>
    polyAdd (innerProduct ((List.range kemRank).map (matrixEntry rho i)) s) (transform (small sigma (kemRank + i)))
  { encaps := t.flatMap (joinBits 12) ++ rho, secret := s, reject := z }

/-- The ciphertext of 32 bytes under an encapsulation key with 32 bytes of randomness. -/
def kemEncrypt (ek m r : List Byte) : List Byte :=
  let t := (List.range kemRank).map fun i => splitBits 12 ((ek.drop (384 * i)).take 384)
  let rho := ek.drop (384 * kemRank)
  let y := (List.range kemRank).map fun n => transform (small r n)
  let u := (List.range kemRank).map fun i =>
    polyAdd (untransform (innerProduct ((List.range kemRank).map fun j => matrixEntry rho j i) y)) (small r (kemRank + i))
  let v := polyAdd (polyAdd (untransform (innerProduct t y)) (small r (2 * kemRank))) ((splitBits 1 m).map (stretch 1))
  u.flatMap (fun f => joinBits 11 (f.map (squash 11))) ++ joinBits 5 (v.map (squash 5))

/-- The 32 bytes that a ciphertext holds under a secret vector. -/
def kemDecrypt (secret : List (List Nat)) (c : List Byte) : List Byte :=
  let u := (List.range kemRank).map fun i => (splitBits 11 ((c.drop (352 * i)).take 352)).map (stretch 11)
  let v := (splitBits 5 (c.drop (352 * kemRank))).map (stretch 5)
  joinBits 1 ((polySub v (untransform (innerProduct secret (u.map transform)))).map (squash 1))

/-- Decapsulation: the shared secret, or an unrelated one for a ciphertext that the key did not make (R390). -/
def kemDecaps (k : KemKey) (c : List Byte) : List Byte :=
  let m := kemDecrypt k.secret c
  let g := sha3d512 (m ++ sha3d256 k.encaps)
  if kemEncrypt k.encaps m (g.drop 32) = c then g.take 32 else shake256 (k.reject ++ c) 32

/-! ### The device's key pair -/

/-- The KEM key pair from the device secret and the key epoch (R376). -/
def deviceKem (s : State) : KemKey :=
  let seed := shake256 (ascii "EZB9600 KEM" ++ [BitVec.ofNat 8 s.fuses.kepoch.toNat] ++ leBytes 32 s.fuses.uds.toNat) 64
  kemKey (seed.take 32) (seed.drop 32)

/-- The secret that a ciphertext decapsulates to under the device's KEM key of this epoch (R376, R390). -/
def decapsulate (s : State) (cipher : List Byte) : List Byte := kemDecaps (deviceKem s) cipher

/-- The device's encapsulation key, 1,568 bytes (R376). -/
def encapsulationKey (s : State) : List Byte := (deviceKem s).encaps

end Sys2Proof.Machine
end

