-- ==== Sys2Proof/Machine/Signatures.lean ====
section
/-! DEFINITION. SLH-DSA with SHAKE256 at the 256-bit level (FIPS 205), which the spec names for every signature: key generation,
signing and verification (R376, R377, R379, R387, R402, R442; PRESUMED, log 8). -/

namespace Sys2Proof.Machine

/-! ### Parameters and addresses -/

/-- A parameter set: layers of the hypertree, height of one of its trees, and height and number of the few-time trees. -/
structure SlhSet where
  layers : Nat
  rise : Nat
  forsRise : Nat
  forsTrees : Nat
deriving DecidableEq, Repr

/-- SLH-DSA-SHAKE-256s, the small set. -/
def SlhSet.small : SlhSet := { layers := 8, rise := 8, forsRise := 14, forsTrees := 22 }
/-- SLH-DSA-SHAKE-256f, the fast set. -/
def SlhSet.fast : SlhSet := { layers := 17, rise := 4, forsRise := 9, forsTrees := 35 }

/-- Bits of an index of a tree above the lowest layer's trees, and of the leaf in one of those. -/
def SlhSet.treeBits (k : SlhSet) : Nat := k.rise * (k.layers - 1)
/-- Bytes of the digest of a message: the few-time indices, the tree and the leaf, each in whole bytes. -/
def SlhSet.digestLen (k : SlhSet) : Nat := (k.forsTrees * k.forsRise + 7) / 8 + (k.treeBits + 7) / 8 + (k.rise + 7) / 8
/-- Blocks of 32 bytes that a signature has: the randomizer, the few-time signature, and one of each layer. -/
def SlhSet.blocks (k : SlhSet) : Nat := 1 + k.forsTrees * (1 + k.forsRise) + k.layers * (67 + k.rise)

/-- Big-endian bytes of a number. -/
def beBytes (n v : Nat) : List Byte := (leBytes n v).reverse
/-- The number that big-endian bytes give. -/
def beNat (b : List Byte) : Nat := leNat b.reverse

/-- Where in the structure a hash stands: layer and tree, the kind of use, and its three words. -/
structure SlhSpot where
  layer : Nat
  tree : Nat
  kind : Nat                      -- 0 chain, 1 chain ends, 2 tree, 3 few-time tree, 4 few-time roots, 5 chain secret, 6 few-time secret
  pair : Nat
  high : Nat
  low : Nat
deriving DecidableEq, Repr

/-- The 32 bytes of a place. -/
def SlhSpot.bytes (a : SlhSpot) : List Byte :=
  beBytes 4 a.layer ++ beBytes 12 a.tree ++ beBytes 4 a.kind ++ beBytes 4 a.pair ++ beBytes 4 a.high ++ beBytes 4 a.low

/-- The tweaked hash of a message at a place, under a public seed. -/
def slhHash (seed : List Byte) (a : SlhSpot) (m : List Byte) : List Byte := shake256 (seed ++ a.bytes ++ m) 32

/-! ### Trees -/

/-- The node at height z and index i of the tree over some leaves. -/
def treeNode (leaf : Nat → List Byte) (join : Nat → Nat → List Byte → List Byte → List Byte) : Nat → Nat → List Byte
  | 0, i => leaf i
  | z + 1, i => join (z + 1) i (treeNode leaf join z (2 * i)) (treeNode leaf join z (2 * i + 1))

/-- The neighbour of an index. -/
def neighbour (i : Nat) : Nat := if i % 2 = 0 then i + 1 else i - 1

/-- The neighbours met on the way up from height z and index i, n of them. -/
def treePath (leaf : Nat → List Byte) (join : Nat → Nat → List Byte → List Byte → List Byte) : Nat → Nat → Nat → List (List Byte)
  | 0, _, _ => []
  | n + 1, z, i => treeNode leaf join z (neighbour i) :: treePath leaf join n (z + 1) (i / 2)

/-- The node reached from height z and index i with its neighbours. -/
def climb (join : Nat → Nat → List Byte → List Byte → List Byte) : List (List Byte) → Nat → Nat → List Byte → List Byte
  | [], _, _, x => x
  | y :: ys, z, i, x => climb join ys (z + 1) (i / 2) (if i % 2 = 0 then join (z + 1) (i / 2) x y else join (z + 1) (i / 2) y x)

/-! ### One-time signatures -/

/-- Hash chains: n steps from step j on. -/
def chainFrom (step : Nat → List Byte → List Byte) : Nat → Nat → List Byte → List Byte
  | 0, _, x => x
  | n + 1, j, x => chainFrom step n (j + 1) (step j x)

/-- The 64 hexadecimal digits of 32 bytes and the three of their complement's sum. -/
def chainDigits (m : List Byte) : List Nat :=
  let digits := (List.range 64).map fun i => (m.getD (i / 2) 0).toNat / (if i % 2 = 0 then 16 else 1) % 16
  let sum := (digits.map fun d => 15 - d).sum
  digits ++ [sum / 256 % 16, sum / 16 % 16, sum % 16]

/-- One step of chain i of the one-time key of a leaf. -/
def chainStep (seed : List Byte) (layer tree pair i j : Nat) (x : List Byte) : List Byte :=
  slhHash seed { layer := layer, tree := tree, kind := 0, pair := pair, high := i, low := j } x

/-- The start of chain i, a secret. -/
def chainSecret (seed secret : List Byte) (layer tree pair i : Nat) : List Byte :=
  slhHash seed { layer := layer, tree := tree, kind := 5, pair := pair, high := i, low := 0 } secret

/-- The public key that the ends of the chains make. -/
def joinEnds (seed : List Byte) (layer tree pair : Nat) (ends : List (List Byte)) : List Byte :=
  slhHash seed { layer := layer, tree := tree, kind := 1, pair := pair, high := 0, low := 0 } ends.flatten

/-- The public key of the one-time key of a leaf. -/
def oneTimeKey (seed secret : List Byte) (layer tree pair : Nat) : List Byte :=
  joinEnds seed layer tree pair ((List.range 67).map fun i =>
    chainFrom (chainStep seed layer tree pair i) 15 0 (chainSecret seed secret layer tree pair i))

/-- The one-time signature of 32 bytes. -/
def oneTimeSign (seed secret : List Byte) (layer tree pair : Nat) (m : List Byte) : List (List Byte) :=
  (chainDigits m).mapIdx fun i d => chainFrom (chainStep seed layer tree pair i) d 0 (chainSecret seed secret layer tree pair i)

/-- The public key that a one-time signature of 32 bytes leads to. -/
def oneTimeRecover (seed : List Byte) (layer tree pair : Nat) (m : List Byte) (sig : List (List Byte)) : List Byte :=
  joinEnds seed layer tree pair ((chainDigits m).mapIdx fun i d =>
    chainFrom (chainStep seed layer tree pair i) (15 - d) d (sig.getD i []))

/-! ### The hypertree -/

/-- The inner hash of a tree of the hypertree. -/
def hyperJoin (seed : List Byte) (layer tree z i : Nat) (x y : List Byte) : List Byte :=
  slhHash seed { layer := layer, tree := tree, kind := 2, pair := 0, high := z, low := i } (x ++ y)

/-- The root of a tree of the hypertree. -/
def hyperRoot (k : SlhSet) (seed secret : List Byte) (layer tree : Nat) : List Byte :=
  treeNode (oneTimeKey seed secret layer tree) (hyperJoin seed layer tree) k.rise 0

/-- The signature of 32 bytes by n layers of the hypertree, from a layer, tree and leaf on. -/
def hyperSign (k : SlhSet) (seed secret : List Byte) : Nat → Nat → Nat → Nat → List Byte → List (List Byte)
  | 0, _, _, _, _ => []
  | n + 1, layer, tree, leaf, m =>
    oneTimeSign seed secret layer tree leaf m ++
      treePath (oneTimeKey seed secret layer tree) (hyperJoin seed layer tree) k.rise 0 leaf ++
      hyperSign k seed secret n (layer + 1) (tree / 2 ^ k.rise) (tree % 2 ^ k.rise) (hyperRoot k seed secret layer tree)

/-- The root that a signature by n layers leads to. -/
def hyperRecover (k : SlhSet) (seed : List Byte) : Nat → Nat → Nat → Nat → List Byte → List (List Byte) → List Byte
  | 0, _, _, _, m, _ => m
  | n + 1, layer, tree, leaf, m, sig =>
    hyperRecover k seed n (layer + 1) (tree / 2 ^ k.rise) (tree % 2 ^ k.rise)
      (climb (hyperJoin seed layer tree) ((sig.drop 67).take k.rise) 0 leaf (oneTimeRecover seed layer tree leaf m (sig.take 67)))
      (sig.drop (67 + k.rise))

/-! ### Few-time signatures -/

/-- The secret of a leaf of the few-time trees, and the leaf. -/
def fewSecret (seed secret : List Byte) (tree pair i : Nat) : List Byte :=
  slhHash seed { layer := 0, tree := tree, kind := 6, pair := pair, high := 0, low := i } secret
def fewLeaf (seed : List Byte) (tree pair i : Nat) (x : List Byte) : List Byte :=
  slhHash seed { layer := 0, tree := tree, kind := 3, pair := pair, high := 0, low := i } x
/-- The inner hash of the few-time trees. -/
def fewJoin (seed : List Byte) (tree pair z i : Nat) (x y : List Byte) : List Byte :=
  slhHash seed { layer := 0, tree := tree, kind := 3, pair := pair, high := z, low := i } (x ++ y)
/-- The public key of the few-time trees' roots. -/
def fewRoots (seed : List Byte) (tree pair : Nat) (roots : List (List Byte)) : List Byte :=
  slhHash seed { layer := 0, tree := tree, kind := 4, pair := pair, high := 0, low := 0 } roots.flatten

/-- The leaf of few-time tree t that a digest picks, numbered through all of them. -/
def fewIndex (k : SlhSet) (digest : List Byte) (t : Nat) : Nat :=
  t * 2 ^ k.forsRise +
    beNat digest / 2 ^ (8 * digest.length - k.forsRise * (t + 1)) % 2 ^ k.forsRise

/-- The few-time signature of a digest. -/
def fewSign (k : SlhSet) (seed secret : List Byte) (tree pair : Nat) (digest : List Byte) : List (List Byte) :=
  (List.range k.forsTrees).flatMap fun t =>
    fewSecret seed secret tree pair (fewIndex k digest t) ::
      treePath (fun i => fewLeaf seed tree pair i (fewSecret seed secret tree pair i)) (fewJoin seed tree pair) k.forsRise 0
        (fewIndex k digest t)

/-- The public key that a few-time signature leads to. -/
def fewRecover (k : SlhSet) (seed : List Byte) (tree pair : Nat) (digest : List Byte) (sig : List (List Byte)) : List Byte :=
  fewRoots seed tree pair ((List.range k.forsTrees).map fun t =>
    let part := (sig.drop (t * (1 + k.forsRise))).take (1 + k.forsRise)
    climb (fewJoin seed tree pair) part.tail 0 (fewIndex k digest t) (fewLeaf seed tree pair (fewIndex k digest t) (part.headD [])))

/-! ### Keys, signatures, verification -/

/-- The root of the hypertree. -/
def slhRoot (k : SlhSet) (seed secret : List Byte) : List Byte := hyperRoot k seed secret (k.layers - 1) 0

/-- The public key of a secret seed and a public seed: the public seed and the root. -/
def slhPublic (k : SlhSet) (seed secret : List Byte) : List Byte := seed ++ slhRoot k seed secret

/-- What a message's digest picks: the bytes of the few-time indices, the tree and the leaf. -/
def slhPicks (k : SlhSet) (random key m : List Byte) : List Byte × Nat × Nat :=
  let digest := shake256 (random ++ key ++ m) k.digestLen
  let a := (k.forsTrees * k.forsRise + 7) / 8
  let b := (k.treeBits + 7) / 8
  (digest.take a, beNat ((digest.drop a).take b) % 2 ^ k.treeBits, beNat (digest.drop (a + b)) % 2 ^ k.rise)

/-- A message in pure mode with its context string. -/
def pureMessage (context : String) (m : List Byte) : List Byte :=
  [0, BitVec.ofNat 8 (ascii context).length] ++ ascii context ++ m

/-- The signature of a message: secret seed, key of the randomizer, public seed, and fresh randomness. -/
def slhSign (k : SlhSet) (secret prf seed fresh : List Byte) (context : String) (message : List Byte) : List Byte :=
  let m := pureMessage context message
  let random := shake256 (prf ++ fresh ++ m) 32
  let p := slhPicks k random (slhPublic k seed secret) m
  let few := fewSign k seed secret p.2.1 p.2.2 p.1
  (random :: (few ++
    hyperSign k seed secret k.layers 0 p.2.1 p.2.2 (fewRecover k seed p.2.1 p.2.2 p.1 few))).flatten

/-- A byte string in n blocks of 32 bytes. -/
def blocks32 : Nat → List Byte → List (List Byte)
  | 0, _ => []
  | n + 1, m => m.take 32 :: blocks32 n (m.drop 32)

/-- A signature verifies under a public key. -/
def slhVerify (k : SlhSet) (key : List Byte) (context : String) (message signature : List Byte) : Bool :=
  let m := pureMessage context message
  let sig := blocks32 k.blocks signature
  let p := slhPicks k (sig.headD []) key m
  let seed := key.take 32
  let few := k.forsTrees * (1 + k.forsRise)
  decide (key.length = 64) && decide (signature.length = 32 * k.blocks) &&
    decide (hyperRecover k seed k.layers 0 p.2.1 p.2.2 (fewRecover k seed p.2.1 p.2.2 p.1 ((sig.drop 1).take few)) (sig.drop (1 + few)) =
      key.drop 32)

/-! ### The signatures of the spec -/

/-- A signature by an owner, a publisher or the root: SLH-DSA-SHAKE-256s in pure mode (R377, R379, R387). -/
def verifies (key : List Byte) (context : String) (message signature : List Byte) : Bool :=
  slhVerify SlhSet.small key context message signature

/-- A signature by the Orvikant root key, which is the key whose digest the boot ROM holds (R377). -/
def rootVerifies (s : State) (context : String) (message signature : List Byte) : Bool :=
  decide (shake256 s.fuses.rootKey 64 = s.fuses.rootDigest) && verifies s.fuses.rootKey context message signature

/-- The identity seeds: SK.seed, SK.prf and PK.seed, from the device secret and the key epoch (R376). -/
def identitySeeds (s : State) : List Byte :=
  shake256 (ascii "EZB9600 IDK" ++ [BitVec.ofNat 8 s.fuses.kepoch.toNat] ++ leBytes 32 s.fuses.uds.toNat) 96

/-- The device's identity public key, 64 bytes (R376). -/
def identityKey (s : State) : List Byte := slhPublic SlhSet.fast ((identitySeeds s).drop 64) ((identitySeeds s).take 32)

/-- The identity signature of a report, with fresh randomness (R402). -/
def identitySign (s : State) (fresh : List Byte) (context : String) (message : List Byte) : List Byte :=
  slhSign SlhSet.fast ((identitySeeds s).take 32) (((identitySeeds s).drop 32).take 32) ((identitySeeds s).drop 64) fresh context message

/-- IDD: the digest of the identity public key (R389). -/
def deviceDigest (s : State) : List Byte := shake256 (identityKey s) 64

end Sys2Proof.Machine
end

