-- ==== Sys2Proof/Machine/Codec.lean ====
section
/-! DEFINITION. The block codec (R284 to R300), the table slots (R296 to R298) and the HBM symbol code (R305). -/

namespace Sys2Proof.Machine

/-! ### Canonical codes (R288, R289) -/

/-- Codes of the symbols by the canonical rule of R288: for each symbol its code, 0 where it has none. -/
def canonicalCodes (lengths : List Nat) : List Nat :=
  let step (acc : Nat × List (Nat × Nat)) (len : Nat) : Nat × List (Nat × Nat) :=
    let r := (List.range 256).foldl (fun (a : Nat × List (Nat × Nat)) i =>
      if lengths.getD i 0 = len then (a.1 + 1, (i, a.1) :: a.2) else a) acc
    (2 * r.1, r.2)
  let all := ((List.range 12).map (· + 1)).foldl step (0, [])
  (List.range 256).map fun i => ((all.2.find? fun p => p.1 == i).map Prod.snd).getD 0

/-- Bits of a code, the one of highest weight first. -/
def codeBits (len code : Nat) : List Bool := (List.range len).map fun k => (code >>> (len - 1 - k)) % 2 == 1

/-- Packs stream bits into bytes: bit k is bit k mod 8 of byte k div 8, the last byte filled with zeros. -/
def packBits : Nat → List Bool → List Byte
  | 0, _ => []
  | n + 1, bs =>
    if bs.isEmpty then []
    else
      BitVec.ofNat 8 ((List.range 8).foldl (fun v k => v + (if bs.getD k false then 2 ^ k else 0)) 0) ::
        packBits n (bs.drop 8)

/-- The stream bits of bytes. -/
def unpackBits (bs : List Byte) : List Bool := bs.flatMap fun b => (List.range 8).map fun k => b.getLsbD k

/-- A table image's plane lengths (R289). -/
def imagePlane (img : List Byte) (p : Nat) : List Nat :=
  (List.range 256).map fun i =>
    let b := fieldAt img (16 + 128 * p + i / 2) 1
    if i % 2 = 0 then b % 16 else b / 16

/-- Plane count of a plane count code. -/
def planeCount (npc : BitVec 2) : Nat := 2 ^ npc.toNat

/-- The validity of one plane's lengths (R289). -/
def planeValid (l : List Nat) : Bool :=
  l.all (fun x => decide (x ≤ 12)) && decide (2 ≤ (l.filter fun x => x != 0).length) &&
  decide ((l.map fun x => if x = 0 then 0 else 2 ^ (12 - x)).sum = 4096)

/-- A table image: its plane count code and lengths, when it is valid (R289). -/
def parseImage (img : List Byte) : Option (BitVec 2 × List (List Nat)) :=
  let npc := BitVec.ofNat 2 (fieldAt img 0 1)
  let planes := (List.range (planeCount npc)).map (imagePlane img)
  if fieldAt img 0 1 < 4 ∧ fieldAt img 1 15 = 0 ∧ img.length = 16 + 128 * planeCount npc ∧ planes.all planeValid then
    some (npc, planes)
  else none

/-! ### Encoding (R290) -/

/-- Symbols of substream i of a block under NP planes (R286). -/
def substream (np : Nat) (raw : List Byte) (i : Nat) : List Byte :=
  let per := 32 / np
  let p := i / per
  let first := i % per * 128
  (List.range 128).map fun j => raw.getD ((first + j) * np + p) 0

/-- A substream in the canonical code; none when a symbol has no code. -/
def codeSubstream (lengths codes : List Nat) (sym : List Byte) : Option (List Byte) :=
  if sym.all fun b => lengths.getD b.toNat 0 != 0 then
    let bits := sym.flatMap fun b => codeBits (lengths.getD b.toNat 0) (codes.getD b.toNat 0)
    some (packBits ((bits.length + 7) / 8) bits)
  else none

/-- One plane's mode and substreams (R290). -/
def encodePlane (np : Nat) (lengths : List Nat) (raw : List Byte) (p : Nat) : Nat × List (List Byte) :=
  let per := 32 / np
  let subs := (List.range per).map fun i => substream np raw (p * per + i)
  if subs.all fun l => l.all fun b => b == l.headD 0 then (2, subs.map fun l => l.take 1)
  else
    let codes := canonicalCodes lengths
    let coded := subs.map (codeSubstream lengths codes)
    if coded.all Option.isSome && decide ((coded.map fun o => (o.getD []).length).sum < 128 * per) then
      (0, coded.map fun o => o.getD [])
    else (1, subs)

/-- A block encoded against a generation: (PLEN16, PMODE, payload), or none when it must be written raw (R290). -/
def encodeBlock (g : Generation) (raw : List Byte) : Option (Nat × Nat × List Byte) :=
  let np := planeCount g.npc
  let planes := (List.range np).map fun p => encodePlane np (g.lengths.getD p []) raw p
  let subs := planes.flatMap Prod.snd
  let body := subs.map (fun l => BitVec.ofNat 8 l.length) ++ subs.flatten
  let plen := (body.length + 15) / 16
  let pmode := ((List.range np).map fun p => (planes.getD p (0, [])).1 * 4 ^ p).sum
  if 256 ≤ plen then none else some (plen, pmode, body ++ List.replicate (16 * plen - body.length) 0)

/-- The 16-byte header of a block (R285). -/
def blockHeader (raw : Bool) (slot gen plen pmode : Nat) : List Byte :=
  if raw then leBytes 16 (1 + 256 * 2 ^ 32) else leBytes 16 (4 * slot + 2 ^ 16 * gen + 2 ^ 32 * plen + 2 ^ 48 * pmode)

/-! ### Decoding (R292, R293) -/

/-- Reads one symbol: the remaining bits and the byte; none when the substream ends before a code is complete. -/
def readSymbol (table : List (Nat × Nat × Nat)) (len code : Nat) : Nat → List Bool → Option (Nat × List Bool)
  | 0, _ => none
  | _ + 1, [] => none
  | fuel + 1, b :: r =>
    let code1 := 2 * code + (if b then 1 else 0)
    match table.find? fun t => t.1 == len + 1 && t.2.1 == code1 with
    | some t => some (t.2.2, r)
    | none => readSymbol table (len + 1) code1 fuel r

/-- Reads n symbols and the bits that are left. -/
def readSymbols (table : List (Nat × Nat × Nat)) : Nat → List Bool → Option (List Byte × List Bool)
  | 0, r => some ([], r)
  | n + 1, bits =>
    match readSymbol table 0 0 12 bits with
    | none => none
    | some (v, r) =>
      match readSymbols table n r with
      | none => none
      | some (l, r2) => some (BitVec.ofNat 8 v :: l, r2)

/-- The 128 symbols of a substream in its plane's mode, or none under R292. -/
def decodeSubstream (lengths : List Nat) (mode : Nat) (d : List Byte) : Option (List Byte) :=
  if mode = 2 then (if d.length = 1 then some (List.replicate 128 (d.headD 0)) else none)
  else if mode = 1 then (if d.length = 128 then some d else none)
  else if d.length < 16 ∨ 192 < d.length then none
  else
    let codes := canonicalCodes lengths
    let table := (List.range 256).filterMap fun i =>
      if lengths.getD i 0 = 0 then none else some (lengths.getD i 0, codes.getD i 0, i)
    match readSymbols table 128 (unpackBits d) with
    | none => none
    | some (l, r) => if r.length < 8 ∧ r.all (fun b => !b) then some l else none

/-- Cuts a list into pieces of the given lengths. -/
def cutPieces : List Nat → List Byte → List (List Byte)
  | [], _ => []
  | n :: ns, d => d.take n :: cutPieces ns (d.drop n)

/-- The header checks of R292 on the 16 decrypted bytes: (MODE, SLOT, GEN, PLEN16, PMODE), or none. -/
def parseHeader (h : List Byte) : Option (Nat × Nat × Nat × Nat × Nat) :=
  let n := leNat h
  let mode := bitsOf n 1 0
  let slot := bitsOf n 10 2
  let gen := bitsOf n 31 16
  let plen := bitsOf n 40 32
  let pmode := bitsOf n 63 48
  let bad := decide (1 < mode) || decide (bitsOf n 15 11 ≠ 0) || decide (bitsOf n 47 41 ≠ 0) || decide (bitsOf n 127 64 ≠ 0) ||
    ((List.range 8).any fun p => (pmode >>> (2 * p)) % 4 == 3) ||
    (mode == 1 && decide (slot ≠ 0 ∨ gen ≠ 0 ∨ plen ≠ 256 ∨ pmode ≠ 0)) ||
    (mode == 0 && decide (plen = 0 ∨ 256 ≤ plen))
  if bad then none else some (mode, slot, gen, plen, pmode)

/-- The 4,096 raw bytes of a coded payload under a generation, or none under R292. -/
def decodePayload (g : Generation) (plen pmode : Nat) (d : List Byte) : Option (List Byte) :=
  let np := planeCount g.npc
  let per := 32 / np
  let dir := (d.take 32).map BitVec.toNat
  let total := 32 + dir.sum
  let mode (i : Nat) : Nat := (pmode >>> (2 * (i / per))) % 4
  if 16 * plen < total ∨ total + 16 ≤ 16 * plen ∨ pmode ≥ 4 ^ np then none
  else if (d.drop total).any fun b => b != 0 then none
  else
    let subs := (List.range 32).zip (cutPieces dir (d.drop 32)) |>.map fun x =>
      decodeSubstream (g.lengths.getD (x.1 / per) []) (mode x.1) x.2
    if subs.all Option.isSome then
      let l := subs.map fun o => o.getD []
      some ((List.range 4096).map fun i =>
        let p := i % np
        let j := i / np
        (l.getD (p * per + j / 128) []).getD (j % 128) 0)
    else none

/-! ### Table slots (R296 to R298) -/

/-- The generation of a slot that carries a number. -/
def CodecSlot.find (c : CodecSlot) (gen : Nat) : Option Generation :=
  [c.cur, c.prev].findSome? fun o => o.filter fun g => g.gen == gen

/-- The generation of a slot with an install serial. -/
def CodecSlot.findSerial (c : CodecSlot) (serial : Nat) : Option Generation :=
  [c.cur, c.prev].findSome? fun o => o.filter fun g => g.serial == serial

/-- Slot index of a context, if it lies in its window. -/
def ctxSlot (s : State) (c idx : Nat) : Option CodecSlot :=
  match ctxOf s c with
  | some x => if idx < x.slotCount then some (slotOf s (x.slotBase + idx)) else none
  | none => none

/-- Blocks in flight that hold a reference on the generation with an install serial: those of the COPY and FILL instructions that no
INSTRUCTION_COMPLETE has ended yet (R291, R297). Every other block leaves its engine within the command that moves it. -/
def genRefs (s : State) (serial : Nat) : Nat :=
  (s.tiles.map fun p => (p.2.inflight.map fun i => i.holds.count serial).sum).sum

/-- A generation of a slot that may be replaced: one is missing, or holds no reference (R298). -/
def genFree (s : State) (o : Option Generation) : Bool :=
  match o with
  | some g => genRefs s g.serial == 0
  | none => true

/-- The slot can take an install now: it holds at most one generation, or one without a reference (R298). -/
def canInstall (s : State) (c : CodecSlot) : Bool := genFree s c.cur || genFree s c.prev

/-- The next generation number: 16 bits, 0 skipped (R296). -/
def nextGen (n : Nat) : Nat := if (n + 1) % 65536 = 0 then 1 else (n + 1) % 65536

/-- The image that spells plane lengths (R289). -/
def tableImage (npc : BitVec 2) (planes : List (List Nat)) : List Byte :=
  leBytes 1 npc.toNat ++ List.replicate 15 0 ++
    planes.flatMap fun l => (List.range 128).map fun i => BitVec.ofNat 8 (l.getD (2 * i) 0 + 16 * l.getD (2 * i + 1) 0)

/-- A slot after an install (R298): the previous generation goes unless it alone is referenced, when the current one goes. The new
image takes the place in the engine area that the generation that stays leaves free. -/
def installInto (s : State) (c : CodecSlot) (serial : Nat) (npc : BitVec 2) (lengths : List (List Nat)) : CodecSlot :=
  let kept := if !genFree s c.prev && genFree s c.cur then c.prev else c.cur
  let g : Generation :=
    { gen := nextGen c.counter, serial := serial, npc := npc, lengths := lengths
      side := match kept with | some k => !k.side | none => false }
  { cur := some g, prev := kept, counter := g.gen }

/-- A block coded against slot `slot` of a context (none: no slot named, R291): its header and its payload. It goes raw when no
slot is named, the slot holds no generation, or its coding saves nothing (R290). -/
def codedBlock (s : State) (c : Nat) (slot : Option Nat) (raw : List Byte) : List Byte × List Byte :=
  let plain := (blockHeader true 0 0 0 0, raw)
  match (slot.bind (ctxSlot s c)).bind CodecSlot.cur with
  | none => plain
  | some g =>
    match encodeBlock g raw with
    | none => plain
    | some (plen, pmode, body) => (blockHeader false (slot.getD 0) g.gen plen pmode, body)

/-- A block's header says that it is raw (R285). -/
def rawHeader (h : List Byte) : Bool := leNat h % 4 == 1

/-- Why a coded block does not decode (R292, R293). -/
inductive CodecErr where
  | mismatch | absent
deriving DecidableEq, Repr

/-- The raw bytes of a block from its decrypted header and what follows it: the header checks come first, then the generation, then
the payload (R292, R293). `gen` finds a generation by SLOT and GEN; `plain` decrypts a payload of so many bytes. -/
def decodeBlock (gen : Nat → Nat → Option Generation) (header : List Byte) (plain : Nat → List Byte) : Except CodecErr (List Byte) :=
  match parseHeader header with
  | none => .error .mismatch
  | some (mode, sl, g, plen, pmode) =>
    if mode = 1 then .ok (plain (16 * plen))
    else match gen sl g with
      | none => .error .absent
      | some t =>
        match decodePayload t plen pmode (plain (16 * plen)) with
        | none => .error .mismatch
        | some r => .ok r

/-- The generation that a stored block of context c names: either of the two that its slot holds (R293). A number that has come
round again names the later table (R296). -/
def contextGen (s : State) (c slot gen : Nat) : Option Generation := (ctxSlot s c slot).bind fun sl => sl.find gen

/-- The slot a write names from CSLOT: none when CSLOT is 0 while COUNT is 0 (R291). -/
def namedSlot (s : State) (c cslot : Nat) : Option Nat :=
  match ctxOf s c with
  | some x => if cslot = 0 ∧ x.slotCount = 0 then none else some cslot
  | none => none

/-- The slot of a relative slot of a package: 0xFF names none (R291). -/
def packageSlot (base rel : Nat) : Option Nat := if rel = 0xFF then none else some (base + rel)

/-! ### Building a table from a sample (R300) -/

/-- Merges the two nodes of least weight until one is left; answers how often each symbol was merged: its depth. -/
def mergeNodes : Nat → Nat → List (Nat × Nat × List Nat) → List Nat → List Nat
  | 0, _, _, depth => depth
  | fuel + 1, made, nodes, depth =>
    let least (l : List (Nat × Nat × List Nat)) : Option (Nat × Nat × List Nat) :=
      l.foldl (fun b x =>
        match b with
        | none => some x
        | some y => if x.1 < y.1 ∨ (x.1 = y.1 ∧ x.2.1 < y.2.1) then some x else some y) none
    match least nodes with
    | none => depth
    | some a =>
      let rest := nodes.filter fun x => x.2.1 != a.2.1
      match least rest with
      | none => depth
      | some b =>
        let rest2 := rest.filter fun x => x.2.1 != b.2.1
        let syms := a.2.2 ++ b.2.2
        let depth2 := (List.range 256).map fun i => depth.getD i 0 + (if syms.contains i then 1 else 0)
        mergeNodes fuel (made + 1) ((a.1 + b.1, 256 + made, syms) :: rest2) depth2

/-- The symbol that a rule of R300 prefers. -/
def bestSymbol (better : Nat → Nat → Bool) (cand : List Nat) : Option Nat :=
  cand.foldl (fun b x =>
    match b with
    | none => some x
    | some y => if better x y then some x else some y) none

/-- First loop of R300: lengthens codes while K > 4,096. -/
def lengthenCodes (w : List Nat) : Nat → List Nat → Nat → List Nat × Nat
  | 0, l, k => (l, k)
  | fuel + 1, l, k =>
    if k ≤ 4096 then (l, k)
    else
      let better (x y : Nat) : Bool :=
        decide (l.getD x 0 > l.getD y 0) || (l.getD x 0 == l.getD y 0 &&
          (decide (w.getD x 0 < w.getD y 0) || (w.getD x 0 == w.getD y 0 && decide (y < x))))
      match bestSymbol better ((List.range 256).filter fun i => decide (l.getD i 0 < 12)) with
      | none => (l, k)
      | some x => lengthenCodes w fuel (l.set x (l.getD x 0 + 1)) (k - 2 ^ (11 - l.getD x 0))

/-- Second loop of R300: shortens codes while K < 4,096. -/
def shortenCodes (w : List Nat) : Nat → List Nat → Nat → List Nat
  | 0, l, _ => l
  | fuel + 1, l, k =>
    if 4096 ≤ k then l
    else
      let better (x y : Nat) : Bool :=
        decide (l.getD x 0 > l.getD y 0) || (l.getD x 0 == l.getD y 0 &&
          (decide (w.getD x 0 > w.getD y 0) || (w.getD x 0 == w.getD y 0 && decide (x < y))))
      match bestSymbol better ((List.range 256).filter fun i => decide (2 ^ (12 - l.getD i 0) ≤ 4096 - k)) with
      | none => l
      | some x => shortenCodes w fuel (l.set x (l.getD x 0 - 1)) (k + 2 ^ (12 - l.getD x 0))

/-- A plane's lengths from the bytes of the plane (R300). -/
def buildPlane (plane : List Byte) : List Nat :=
  let w := (List.range 256).map fun i => 1 + plane.count (BitVec.ofNat 8 i)
  let depth := mergeNodes 255 0 ((List.range 256).map fun i => (w.getD i 0, i, [i])) (List.replicate 256 0)
  let l := depth.map fun d => min d 12
  let k := (l.map fun x => 2 ^ (12 - x)).sum
  let r := lengthenCodes w 4096 l k
  shortenCodes w 4096 r.1 r.2

/-- The tables of a sample of raw bytes (R300). -/
def buildTables (npc : BitVec 2) (sample : List Byte) : List (List Nat) :=
  let np := planeCount npc
  (List.range np).map fun p =>
    buildPlane ((List.range (sample.length / np)).map fun j => sample.getD (j * np + p) 0)

/-! ### The HBM symbol code (R305) -/

/-- Doubling in the code's field. -/
def gf2 (b : Byte) : Byte := (b <<< 1) ^^^ (if b.msb then 0x1D else 0)

/-- alpha to the power n times a byte. -/
def gfAlpha (b : Byte) : Nat → Byte
  | 0 => b
  | n + 1 => gfAlpha (gf2 b) n

/-- The syndromes S0 and S1 of a codeword of 34 bytes. -/
def syndromes (c : List Byte) : Byte × Byte :=
  (c.foldl (· ^^^ ·) 0, (List.range c.length).foldl (fun v i => v ^^^ gfAlpha (c.getD i 0) i) 0)

/-- What the decoder does with a codeword. -/
inductive SymbolResult where
  | clean
  | corrected (c : List Byte)
  | uncorrectable
deriving DecidableEq, Repr

/-- The symbol decoder of R305. -/
def symbolDecode (c : List Byte) : SymbolResult :=
  let (s0, s1) := syndromes c
  if s0 = 0 ∧ s1 = 0 then .clean
  else if s0 = 0 then .uncorrectable
  else match (List.range 34).find? fun j => gfAlpha s0 j == s1 with
    | some j => .corrected (c.set j (c.getD j 0 ^^^ s0))
    | none => .uncorrectable

/-- The check bytes c_32 and c_33 of a 32-byte burst, which make both syndromes 0 (R305; that they stand last is DEDUCED, log 10). The
factor is 1 / (alpha^32 + alpha^33) = alpha^198. -/
def checkBytes (burst : List Byte) : List Byte :=
  let (t0, t1) := syndromes burst
  let a := gfAlpha (t1 ^^^ gfAlpha t0 33) 198
  [a, t0 ^^^ a]

/-! ### What HBM holds (R18, R284, R303, R305) -/

/-- Cuts bytes into bursts of 32. -/
def bursts : Nat → List Byte → List (List Byte)
  | 0, _ => []
  | n + 1, d => d.take 32 :: bursts n (d.drop 32)

/-- Bytes as HBM holds them: filled with zeros to whole granules, with the check bytes of each burst. -/
def Stored.of (d : List Byte) : Stored :=
  let n := (d.length + 31) / 32
  let full := d ++ List.replicate (32 * n - d.length) 0
  { data := full, check := (bursts n full).flatMap checkBytes }

/-- Granules of a stored unit. -/
def Stored.granules (u : Stored) : Nat := u.data.length / 32

/-- What the symbol decoder makes of a stored unit: its bytes and the bursts it corrected; none when a burst is uncorrectable
(R305). -/
def Stored.read (u : Stored) : Option (List Byte × Nat) :=
  let l : List SymbolResult := (bursts u.granules u.data).mapIdx fun i b => symbolDecode (b ++ (u.check.drop (2 * i)).take 2)
  if l.any (· == .uncorrectable) then none
  else
    some (((List.range u.granules).flatMap fun i =>
        match l[i]? with
        | some (SymbolResult.corrected c) => c.take 32
        | _ => (u.data.drop (32 * i)).take 32),
      (l.filter fun r => r != .clean).length)

/-- The tweak of a unit of HBM: its TYPE and its physical byte address (R303). -/
def hbmTweak (type address : Nat) : Nat := type + 2 ^ 8 * address

/-- A coded block encrypted for its place in HBM, header and payload each one data unit (R284, R303). -/
def sealBlock (key : List Byte) (address : Nat) (b : List Byte × List Byte) : Stored :=
  Stored.of (xtsEncrypt key (hbmTweak 0x01 address) b.1 ++ xtsEncrypt key (hbmTweak 0x02 address) b.2)

/-- An unsealed block: the decrypted header, and the first n bytes of the payload decrypted. -/
def openBlock (key : List Byte) (address : Nat) (d : List Byte) : List Byte × (Nat → List Byte) :=
  (xtsDecrypt key (hbmTweak 0x01 address) (d.take 16),
   fun n => xtsDecrypt key (hbmTweak 0x02 address) ((d.drop 16).take n))

end Sys2Proof.Machine
end

