-- ==== Sys2Proof/Machine/Access.lean ====
section
/-! DEFINITION. The translation unit (R262 to R273) and reads and writes through it, by 4 KiB block: ordinary pages in every
tier, host windows, recurrent windows, and the engine-owned KV windows (R167 to R174). -/

namespace Sys2Proof.Machine

/-- Why an access does not give its data (R273, R276, R277, R279, R294). -/
inductive AccessErr where
  | trans (kind va : Nat) (write : Bool)      -- translation failure with its MMU_FAULT_INFO kind
  | lower (st : BitVec 8)                     -- lower-tier read: error or a codec status
  | late                                      -- lower-tier read whose data has not come (R277)
  | device (cause unit : Nat)                 -- device fault of R450
deriving DecidableEq, Repr

/-- What an access gives. -/
inductive Got where
  | ok (bs : List Byte)
  | err (e : AccessErr)
deriving DecidableEq, Repr

/-- Who accesses: a command engine or a tile program, the streams whose recurrent windows it may write (R206), the Docket entry that
it serves (R320), and the tile whose translation cache it uses (R272). -/
structure Source where
  isEngine : Bool
  writes : List Nat
  entry : Option Nat
  tile : Option Nat
deriving DecidableEq, Repr

/-- A command engine. -/
def Source.engine : Source := { isEngine := true, writes := [], entry := none, tile := none }
/-- A command engine that serves a Docket entry. -/
def Source.engineOf (e : Nat) : Source := { Source.engine with entry := some e }
/-- A source that is no command engine and no program of a tile here: an access from another chip (R481). -/
def Source.remote : Source := { isEngine := false, writes := [], entry := none, tile := none }

/-- The service that an access of a source belongs to (R320). -/
def Source.service (r : Source) (c cls : Nat) : Service := { cls := cls, ctx := some c, entry := r.entry }

/-- Where a device-virtual page lies. -/
inductive Place where
  | ordinary (p : Pte)
  | backed (w : WinPage)                      -- a recurrent region's data page
  | unbacked
  | kv (stream l j : Nat)
  | leafTable | expTable | slotTable
  | host (address : Nat)
deriving DecidableEq, Repr

/-- PPL of a package with L layers (R164). -/
def pplOf (layers : Nat) : Nat := min 1024 (2 ^ Nat.log2 (32768 / max 1 layers))

/-- The stream whose recurrent window holds an address (R203). -/
def regionStream (va : Nat) : Nat := (va - 0x600000000000) / 0x10000000

/-! ### What HBM holds -/

/-- A retry of a read of pseudo-channel p has failed: it is declared permanently faulty, and retires once the command is done
(R306). -/
def condemn (s : State) (p : Nat) : State :=
  if quadRetired s false p then s else { s with hbm := { s.hbm with condemned := s.hbm.condemned ++ [p] } }

/-- The blocks of HBM bytes `a` to `a + n - 1` that stay uncorrectable (R306; log 14). -/
def hbmBadIn (s : State) (a n : Nat) : Bool := s.env.hbmBad.any fun b => meets a n (4096 * b) 4096

/-- The stored bytes of a unit of HBM at a physical address: corrected bursts count in HBM_CORR; a read that stays uncorrectable
after its retry gives none and condemns the pseudo-channel; a retired one gives none (R305, R306, R332). -/
def readStored (s : State) (address : Nat) (u : Stored) : Option (List Byte) × State :=
  let q := address / 65536
  if quadRetired s false q then (none, s)
  else if hbmBadIn s address (max 32 u.data.length) then (none, condemn s (quadPc q))
  else match u.read with
    | none => (none, condemn s (quadPc q))
    | some (d, n) => (some d, if n = 0 then s else bump s 5 n)

/-- An unlisted block of HBM holds physical zero (R270). -/
def storedAt (s : State) (k : Nat) : Stored := tblGetD s.hbmMem k (Stored.of (List.replicate 4128 0))

/-- The data key of a context (R302). -/
def dataKeyOf (s : State) (c : Nat) : List Byte := ((ctxOf s c).map Ctx.dataKey).getD []

/-- Puts a stored unit into block b of quad q. -/
def putStored (s : State) (q b : Nat) (u : Stored) (v : Service) : State :=
  hbmTouch { s with hbmMem := tblPut s.hbmMem (16 * q + b) u } true q (4096 * b) (min (32 * u.granules) (65536 - 4096 * b)) u.data v

/-! ### The engine area (R271, R315) -/

/-- Writes a block of the engine area into both its copies (R315). -/
def engineWrite (s : State) (q b : Nat) (d : List Byte) (v : Service) : State :=
  putStored (putStored s q b (Stored.of d) v) (q + 8192) b (Stored.of d) v

/-- Reads n bytes of a block of the engine area: from its first copy, and when that fails its check bits from the other (R315). -/
def engineRead (s : State) (q b n : Nat) (v : Service) : Option (List Byte) × State :=
  match readStored s (65536 * q + 4096 * b) (storedAt s (16 * q + b)) with
  | (some d, s1) => (some (d.take n), hbmTouch s1 false q (4096 * b) n [] v)
  | (none, s1) =>
    match readStored s1 (65536 * (q + 8192) + 4096 * b) (storedAt s (16 * (q + 8192) + b)) with
    | (some d, s2) => (some (d.take n), hbmTouch s2 false (q + 8192) (4096 * b) n [] v)
    | (none, s2) => (none, s2)

/-- The codec engine of pseudo-channel p has the tables of a generation at hand: in its cache of 8, or from the engine area, where the
image of slot g lies in quad g, block 0 or 1 (R295, R320; the place is a DESIGN CHOICE, log 46). -/
def fetchTable (s : State) (p g : Nat) (t : Generation) (v : Service) : Bool × State :=
  if (pcOf s p).tables.contains t.serial then (true, s)
  else
    match engineRead s g (if t.side then 1 else 0) (16 + 128 * planeCount t.npc) v with
    | (none, s1) => (false, s1)
    | (some _, s1) => (true, setPc s1 p { pcOf s1 p with tables := (t.serial :: (pcOf s1 p).tables).take 8 })

/-- The tables that a block of context c needs, by its header, are fetched for pseudo-channel p (R295). -/
def fetchFor (s : State) (c p : Nat) (header : List Byte) (v : Service) : Bool × State :=
  match parseHeader header, ctxOf s c with
  | some (0, sl, gen, _, _), some x =>
    (match contextGen s c sl gen with
     | some t => fetchTable s p (x.slotBase + sl) t v
     | none => (true, s))
  | _, _ => (true, s)

/-- Installs a table into a context's slot; answers the generation number and serial. Its image goes to the engine area (R271, R298). -/
def installTable (s : State) (c idx : Nat) (npc : BitVec 2) (lengths : List (List Nat)) (cls : Nat) : Nat × Nat × State :=
  match ctxOf s c with
  | none => (0, 0, s)
  | some x =>
    let g := x.slotBase + idx
    let sl := installInto s (slotOf s g) (s.serials + 1) npc lengths
    let s1 := setSlot { s with serials := s.serials + 1 } g sl
    let side := match sl.cur with | some k => k.side | none => false
    (sl.counter, s.serials + 1,
      engineWrite s1 g (if side then 1 else 0) (tableImage npc lengths) { cls := cls, ctx := some c, entry := none })

/-! ### Coded blocks in HBM -/

/-- The raw bytes of a coded block that has passed its check bits (R292 to R294, R303). -/
def openHbm (s : State) (c a : Nat) (d : List Byte) (v : Service) : Except AccessErr (List Byte) × State :=
  let o := openBlock (dataKeyOf s c) a d
  match fetchFor s c (quadPc (a / 65536)) o.1 v with
  | (false, s1) => (.error (.device 0x20 (quadPc (a / 65536))), s1)
  | (true, s1) =>
    match decodeBlock (contextGen s c) o.1 o.2 with
    | .ok raw => (.ok raw, s1)
    | .error _ => (.error (.device 0x22 0), s1)

/-- Reads coded block b of quad q of context c: check bits, decryption, decompression (R18, R292 to R294, R306). -/
def readHbm (s : State) (c q b : Nat) (v : Service) : Except AccessErr (List Byte) × State :=
  let a := 65536 * q + 4096 * b
  let u := storedAt s (16 * q + b)
  match readStored s a u with
  | (none, s1) => (.error (.device 0x20 (quadPc q)), s1)
  | (some d, s1) => openHbm (hbmTouch s1 false q (4096 * b) (min (32 * u.granules) (65536 - 4096 * b)) [] v) c a d v

/-- Writes 4,096 raw bytes as coded block b of quad q of context c: compression, encryption, check bits (R18, R290, R302). A raw block
counts in CODEC_RAW. -/
def writeHbm (s : State) (c q b : Nat) (slot : Option Nat) (raw : List Byte) (v : Service) : State :=
  let k := codedBlock s c slot raw
  let s1 := (fetchFor (if rawHeader k.1 then bumpFn s c 9 1 else s) c (quadPc q) k.1 v).2
  putStored s1 q b (sealBlock (dataKeyOf s c) (65536 * q + 4096 * b) k) v

/-! ### Package segments -/

/-- A segment descriptor (R384) of a manifest: (KIND, TIER, CSLOT, PAGES, WOFF, LOFF). -/
structure Segment where
  kind : Nat
  tier : Nat
  cslot : Nat
  pages : Nat
  woff : Nat
  loff : Nat
  digest : List Byte
deriving DecidableEq, Repr

/-- Segments of a manifest. -/
def segmentsOf (m : List Byte) : List Segment :=
  (List.range (fieldAt m 10 2)).map fun i =>
    let a := 2688 + 96 * i
    { kind := fieldAt m a 1, tier := fieldAt m (a + 1) 1, cslot := fieldAt m (a + 2) 1, pages := fieldAt m (a + 4) 4,
      woff := fieldAt m (a + 8) 4, loff := fieldAt m (a + 12) 4, digest := (m.drop (a + 32)).take 64 }

/-- The package window of an address and the package in it. -/
def packageAt (x : Ctx) (va : Nat) : Option Package := tblGet x.packages (va / 2 ^ 40)

/-! ### Translation (R262 to R274) -/

/-- The root entry of VA bits 47:38, and the level-1 entry of VA bits 47:27: they name the frames of the tables that the context
has (R267, R268). -/
def rootEntry (x : Ctx) (i : Nat) : Word64 := ((tblGet x.tables i).map fun f => pteWord (Pte.table f)).getD 0
def midEntry (x : Ctx) (i : Nat) : Word64 := ((tblGet x.tables (2 ^ 30 + i)).map fun f => pteWord (Pte.table f)).getD 0

/-- The reads of a walk: the HBM byte addresses of the entries of the three levels, as far as there are tables (R267). -/
def walkReads (x : Ctx) (va : Nat) : List Nat :=
  [x.root.map fun f => 16384 * f + 8 * (va / 2 ^ 38),
   (tblGet x.tables (va / 2 ^ 38)).map fun f => 16384 * f + 8 * (va / 2 ^ 27 % 2048),
   (tblGet x.tables (2 ^ 30 + va / 2 ^ 27)).map fun f => 16384 * f + 8 * (va / 65536 % 2048)].filterMap id

/-- The table entries that a walk must read: none on a hit in a translation cache, the leaf alone when the level-1 entry is cached
(R272). -/
def walkMisses (s : State) (c : Nat) (x : Ctx) (va : Nat) (src : Source) : List Nat :=
  let hit := s.hbm.tlb.contains (c, va / 65536) ||
    (match src.tile with | some t => decide ((tileOf s t).ctx = c) && (tileOf s t).tlb.contains (va / 65536) | none => false)
  if hit then []
  else if s.hbm.tlb1.contains (c, va / 2 ^ 27) then (walkReads x va).drop 2
  else walkReads x va

/-- A table frame that a walk must read cannot be read: its pseudo-channel is retired, or the block stays uncorrectable (R279). -/
def walkLost (s : State) (l : List Nat) : Option Nat :=
  l.find? fun a => quadRetired s false (a / 65536) || hbmBadIn s (a / 32 * 32) 32

/-- A table entry names a frame of the context's own pool (R274). -/
def ownFrame (x : Ctx) (p : Pte) : Bool := x.pool0.all.contains (p.target / 4)

/-- The three-level walk of an address (R267, R268, R273, R274): the leaf, or the kind of the failure. -/
def walkTables (x : Ctx) (va : Nat) : Except Nat Pte :=
  let l0 := pteOf (rootEntry x (va / 2 ^ 38))
  let l1 := pteOf (midEntry x (va / 2 ^ 27))
  let l2 := pteOf (tblGetD x.pages (va / 65536) 0)
  if x.root.isNone || !l0.valid then .error 1
  else if !l0.tbl || !ownFrame x l0 then .error 5
  else if !l1.valid then .error 1
  else if !l1.tbl || !ownFrame x l1 then .error 5
  else if !l2.valid then .error 1
  else if l2.tbl || l2.tier == 3 then .error 5
  else .ok l2

/-- The segment of a package that holds a page of its window: its index, the segment and the page's number in it (R384). -/
def segmentAt (pk : Package) (page : Nat) : Option (Nat × Segment × Nat) :=
  (List.range (segmentsOf pk.manifest).length).findSome? fun i =>
    match (segmentsOf pk.manifest)[i]? with
    | some g => if g.woff ≤ page ∧ page < g.woff + g.pages then some (i, g, page - g.woff) else none
    | none => none

/-- A leaf names what the context owns: a quad of its pools, or the Library unit of a page of a package that it has loaded
(R274). -/
def leafOwned (x : Ctx) (va : Nat) (p : Pte) : Bool :=
  if p.tier = 2 then
    match packageAt x va with
    | none => false
    | some pk =>
      match segmentAt pk (va % 2 ^ 40 / 65536) with
      | some (_, g, k) => g.tier == 2 && p.target == pk.lunit + g.loff + k
      | none => false
  else (x.pool (p.tier == 1)).all.contains p.target

/-- The translation of the page of an address (R262 to R273): its place, or why it fails. A reserved address fails as reserved
whether it is read or written. -/
def translate (s : State) (c va : Nat) (write : Bool) (src : Source) : Except AccessErr Place :=
  let no (kind : Nat) : Except AccessErr Place := .error (.trans kind va write)
  match ctxOf s c with
  | none => no 1
  | some x =>
    if 2 ^ 48 ≤ va then no 0
    else if va < 0x400000000000 then
      match walkLost s (walkMisses s c x va src) with
      | some a => .error (.device 0x20 (quadPc (a / 65536)))
      | none =>
        match walkTables x va with
        | .error k => no k
        | .ok p =>
          if !leafOwned x va p then no 5
          else if write && !p.writable then no 2
          else .ok (.ordinary p)
    else if va < 0x500000000000 then no 0
    else if va < 0x600000000000 then
      if !src.isEngine then no 3
      else
        let n := (va - 0x500000000000) / 2 ^ 40
        let i := va % 2 ^ 40 / 65536
        match (tblGetD x.hwins n HWin.reset).mapped with
        | none => no 4
        | some (base, pages, w) =>
          if pages ≤ i then no 4
          else if write && !w then no 2
          else .ok (.host (base.toNat + 65536 * i + va % 65536))
    else if va < 0x700000000000 then
      let i := regionStream va
      let q := va % 0x800000 / 0x40000
      if write && (decide (17 ≤ q) || !src.writes.contains i) then no 2
      else match tblGet x.winPages (va / 65536) with
        | some w => .ok (.backed w)
        | none => if write then no 2 else .ok .unbacked
    else if va < 0x800000000000 then
      let own (p : Place) : Except AccessErr Place := if write then no 2 else .ok p
      if va < 0x702000000000 then own .leafTable
      else if 0x710000000000 ≤ va ∧ va < 0x730000000000 then own .expTable
      else if 0x780000000000 ≤ va ∧ va < 0x780800000000 then own .slotTable
      else no 0
    else
      let i := (va - 0x800000000000) / 2 ^ 31
      let st := streamOf s i
      if write then no 2
      else if st.ctx ≠ c ∨ st.state = .closed then .ok .unbacked
      else
        let n := va % 2 ^ 31 / 65536
        let l := n / pplOf st.layers
        if st.layers ≤ l then .ok .unbacked else .ok (.kv i l (n % pplOf st.layers))

/-- What a translation of an ordinary address does besides: the walk's reads enter the queues with the class of the access, a table
that stays uncorrectable condemns its pseudo-channel, and the entries read enter the translation caches, which drop their oldest
(R272, R279, R320; which entry leaves is a DESIGN CHOICE, log 15). -/
def walked (s : State) (c va cls : Nat) (src : Source) : State :=
  match ctxOf s c with
  | none => s
  | some x =>
    if 0x400000000000 ≤ va then s
    else
      let l := walkMisses s c x va src
      match walkLost s l with
      | some a => if quadRetired s false (a / 65536) then s else condemn s (quadPc (a / 65536))
      | none =>
        if l.isEmpty then s
        else
          let s1 := l.foldl (fun u a => hbmTouch u false (a / 65536) (a % 65536) 8 [] (src.service c cls)) s
          match walkTables x va with
          | .error _ => s1
          | .ok _ =>
            let s2 := { s1 with hbm := { s1.hbm with
              tlb := ((c, va / 65536) :: s1.hbm.tlb).take 16384
              tlb1 := if s1.hbm.tlb1.contains (c, va / 2 ^ 27) then s1.hbm.tlb1 else ((c, va / 2 ^ 27) :: s1.hbm.tlb1).take 2048 } }
            match src.tile with
            | some t => setTile s2 t { tileOf s2 t with tlb := (va / 65536 :: (tileOf s2 t).tlb).take 128 }
            | none => s2

/-! ### KV leaves -/

/-- The leaf of (l, j) of a stream (R171). -/
def leafOf (st : Stream) (l j : Nat) : KvLeaf := tblGetD st.leaves (128 * j + l) KvLeaf.none_
/-- Replaces a leaf. -/
def Stream.setLeaf (st : Stream) (l j : Nat) (k : KvLeaf) : Stream := { st with leaves := tblPut st.leaves (128 * j + l) k }
/-- The key of the run a leaf names: 2^24 tier + first frame. -/
def runKey (k : KvLeaf) : Nat := (if k.tier then 2 ^ 24 else 0) + k.frame.toNat

/-- A mapped leaf that R174 treats as unmapped. -/
def leafBad (s : State) (c : Nat) (k : KvLeaf) : Bool :=
  match ctxOf s c with
  | none => true
  | some x =>
    !((x.pool k.tier).all.contains (k.frame.toNat / 4)) || decide (4 < k.frame.toNat % 4 + k.nfm1.toNat + 1) ||
      (k.raw && decide (k.nfm1 ≠ 3)) || decide (512 * (k.nfm1.toNat + 1) ≤ k.h1off.toNat)

/-- The leaf as the engine reads it: none when unmapped; a bad leaf counts in KV_LEAF_BAD (R174). -/
def readLeaf (s : State) (c : Nat) (st : Stream) (l j : Nat) : Option KvLeaf × State :=
  let k := leafOf st l j
  if !k.map then (none, s)
  else if leafBad s c k then (none, bumpFn s c 4 1)
  else (some k, s)

/-- The slot of a raw-page byte (R168). -/
def slotOfByte (o : Nat) : Nat := o % 16384 / 256

/-! ### Library units (R413, R416) -/

/-- The set bits of a mask, ascending. -/
def setBits (mask width : Nat) : List Nat := (List.range width).filter fun i => bitOf mask i

/-- Library block, channel and index of a unit, when the unit exists (R413). -/
def unitPlace (s : State) (u : Nat) : Option (Nat × Nat × Nat) :=
  let upb := s.flash.upb.toNat
  if upb = 0 then none
  else
    let g := u / (8 * upb)
    let k := u % (8 * upb)
    let chans := setBits (libBlockOf s g).chmask.toNat 8
    if g < s.flash.nlb.toNat ∧ k < chans.length * upb then some (g, chans.getD (k % chans.length) 0, k / chans.length)
    else none

/-- A read of a unit is flagged (R416). -/
def unitFlagged (s : State) (u : Nat) : Bool :=
  match unitPlace s u with
  | none => true
  | some (g, _, _) =>
    let b := libBlockOf s g
    let k := u % (8 * s.flash.upb.toNat)
    match b.state with
    | .full => false
    | .opened => decide (b.wp ≤ k)
    | _ => true

/-- NAND LUNs of one channel (R409, FLS_GEOM). -/
def lunsOf (s : State) : Nat := (s.flash.tgt.toNat + 1) * (s.flash.lun.toNat + 1)

/-- The NAND block that a Library block has on a channel: the one of the format, block 64 + g div LUNs of LUN g mod LUNs, which
lies outside the SLC partition, or the one that replaced it (R412, R415, R420; the format's choice is a DESIGN CHOICE, log 6). Block b
of LUN l is numbered b LUNs + l. -/
def nandBlock (s : State) (g ch : Nat) : Nat :=
  tblGetD (libBlockOf s g).nand ch ((64 + g / lunsOf s) * lunsOf s + g % lunsOf s)

/-- The place of sector j of a unit: page 4 i + j div 4, byte 4,608 (j mod 4) of its NAND block (R413, R414). -/
def sectorPlace (s : State) (u j : Nat) : Option Nat :=
  (unitPlace s u).map fun p => ((p.2.1 * 2 ^ 24 + nandBlock s p.1 p.2.1) * 2 ^ 14 + 4 * p.2.2 + j / 4) * 4 + j % 4

/-- The data bytes of a sector of a unit. What was not programmed reads 0 here: no read of it is delivered (R416). -/
def sectorData (s : State) (u j : Nat) : List Byte :=
  (((sectorPlace s u j).bind fun k => tblGet s.libMem k).map Sector.data).getD (List.replicate 4096 0)

/-- Bytes o to o + n - 1 of a unit, as far as the unit goes (R414). -/
def unitBytes (s : State) (u o n : Nat) : List Byte :=
  (((List.range (min 16 ((o + n + 4095) / 4096) - o / 4096)).flatMap fun k => sectorData s u (o / 4096 + k)).drop (o % 4096)).take n

/-- Programs sector j of a unit (R414, R418). -/
def putSector (s : State) (u j : Nat) (d : List Byte) : State :=
  match sectorPlace s u j with
  | none => s
  | some k => { s with libMem := tblPut s.libMem k { data := d, parity := (List.range 512).map (Config.ldpcParity d) } }

/-- How a read of a Library unit goes: its bytes may be taken, it fails, or its data does not come in time. -/
inductive UnitRead where
  | good | failed | late
deriving DecidableEq, Repr

/-- A read of n bytes from byte o of a Library unit (R276, R277, R307, R416, R423, R425); counters follow. Every sector that the bytes
touch must be readable; one that stays uncorrectable is a transient event of its channel, which the end of the command counts. -/
def unitRead (s : State) (u o n : Nat) : UnitRead × State :=
  match unitPlace s u with
  | none => (.failed, s)
  | some (_, ch, _) =>
    if (flashChanOf s ch).retired then (.failed, s)
    else if unitFlagged s u then (.failed, bump s 7 1)
    else if s.env.libErr.any fun k => meets (65536 * u + o) n (4096 * k) 4096 then
      (.failed, bump { s with flash := { s.flash with suspects := s.flash.suspects ++ [ch] } } 8 1)
    else if s.env.libLate.any fun k => meets (65536 * u + o) n (4096 * k) 4096 then (.late, s)
    else (.good, s)

/-- The stored bytes of one block of a Library unit, from its header on (R304, log 24). -/
def storedBlock (s : State) (u b n : Nat) : List Byte := unitBytes s u (4096 * b) n

/-- The codec status of a block that does not decode (R292, R293). -/
def CodecErr.status : CodecErr → BitVec 8
  | .mismatch => stSizeMismatch
  | .absent => stTableAbsent

/-- Decodes block b of page k of segment i of a package, stored in unit u, under a content key; `gen` finds the generation that the
load installed (R293, R303, R388). Answers the raw bytes and the stored ones, or a codec status. -/
def decodeStored (s : State) (key : List Byte) (gen : Nat → Nat → Option Generation) (i k u b : Nat) :
    Except (BitVec 8) (List Byte × List Byte) :=
  let off := 65536 * k + 4096 * b
  let tweak (ty : Nat) : Nat := ty + 2 ^ 8 * off + 2 ^ 64 * i
  let h := xtsDecrypt key (tweak 0x11) (storedBlock s u b 16)
  let plain (n : Nat) : List Byte := xtsDecrypt key (tweak 0x12) (unitBytes s u (4096 * b + 16) n)
  match decodeBlock gen h plain with
  | .error f => .error f.status
  | .ok raw => .ok (raw, storedBlock s u b ((16 + 16 * bitsOf (leNat h) 40 32 + 31) / 32 * 32))

/-- The generation that a package's load installed in its relative slot (R388). -/
def packageGen (s : State) (c : Nat) (p : Package) (rel gen : Nat) : Option Generation :=
  if gen ≠ 1 then none
  else match tblGet p.serials rel with
    | none => none
    | some serial => (ctxSlot s c (p.slotbase + rel)).bind fun sl => sl.findSerial serial

/-! ### KV runs (R171 to R173) -/

/-- The tier of a run key: true is state SRAM. -/
def keyTier (key : Nat) : Bool := decide (2 ^ 24 ≤ key)

/-- The unit that a quad of a tier lies in, as a fault reports it: pseudo-channel or slice. -/
def quadUnit (tier : Bool) (q : Nat) : Nat := if tier then q / 256 else quadPc q

/-- The physical HBM address of block b of a run: a raw page's units lie 4,096 bytes apart, coded blocks follow one another by
granules (R173). -/
def Run.blockAddress (r : Run) (key b : Nat) : Nat :=
  16384 * key + (if r.raw then 4096 * b else 32 * ((r.blocks.take b).map Stored.granules).sum)

/-- Reads raw bytes 4,096 b to 4,096 b + 4,095 of a run's page (R18, R173, R279, R294). -/
def readRun (s : State) (key : Nat) (r : Run) (b : Nat) (v : Service) : Except AccessErr (List Byte) × State :=
  let q := key % 2 ^ 24 / 4
  if keyTier key then
    (if quadRetired s true q then (.error (.device 0x20 (quadUnit true q)), s) else (.ok (memReadN r.bytes (4096 * b) 4096), s))
  else
    let a := r.blockAddress key b
    let u := (r.blocks[b]?).getD (Stored.of [])
    match readStored s a u with
    | (none, s1) => (.error (.device 0x20 (quadPc q)), s1)
    | (some d, s1) =>
      let s2 := hbmTouch s1 false (a / 65536) (a % 65536) (32 * u.granules) [] v
      if r.raw then (.ok (xtsDecrypt (dataKeyOf s r.ctx) (hbmTweak 0x02 a) (d.take 4096)), s2)
      else openHbm s2 r.ctx a d v

/-- Reads the whole raw page of a run, block by block, and stops at the first that fails. -/
def readPage (s : State) (key : Nat) (r : Run) (v : Service) : Except AccessErr Memory × State :=
  if keyTier key && !quadRetired s true (key % 2 ^ 24 / 4) then (.ok r.bytes, s)
  else
    (List.range 16).foldl (fun acc b =>
      match acc with
      | (.ok m, u) =>
        (match readRun u key r b v with
         | (.ok bs, u1) => (.ok (m ++ (bs.mapIdx fun i x => (4096 * b + i, x)).filter fun p => p.2 != 0), u1)
         | (.error f, u1) => (.error f, u1))
      | e => e) (.ok [], s)

/-! ### Reads by block -/

/-- The bytes of the leaf window from an offset (R167, R171). -/
def leafTableBytes (s : State) (c off n : Nat) : List Byte :=
  (List.range n).map fun i =>
    let o := off + i
    match s.streams.find? (fun p => p.2.ctx == c && p.2.state != .closed &&
        decide (p.1 * 1024 * p.2.layers * 16 ≤ o) && decide (o < (p.1 + 1) * 1024 * p.2.layers * 16)) with
    | none => 0
    | some p =>
      let k := o / 16 - p.1 * 1024 * p.2.layers
      (leBytes 16 (leafBits (leafOf p.2 (k % p.2.layers) (k / p.2.layers)))).getD (o % 16) 0

/-- The bytes of the exponent window from an offset (R167, R168). -/
def expTableBytes (s : State) (c off n : Nat) : List Byte :=
  (List.range n).map fun i =>
    let o := off + i
    match s.streams.find? (fun p => p.2.ctx == c && p.2.state != .closed &&
        decide (p.1 * 1024 * p.2.layers * 256 ≤ o) && decide (o < (p.1 + 1) * 1024 * p.2.layers * 256)) with
    | none => 0
    | some p => memRead p.2.exps (o - p.1 * 1024 * p.2.layers * 256)

/-- The bytes of the slot window from an offset (R167, R168). -/
def slotTableBytes (s : State) (c off n : Nat) : List Byte :=
  (List.range n).map fun i =>
    let o := off + i
    let st := streamOf s (o / (1024 * 512))
    if st.ctx = c ∧ st.state ≠ .closed then memRead st.slots (o % (1024 * 512)) else 0

/-- Committed state of stream i fails its check bits or its codec: the stream becomes FAULTED (R207). -/
def faultStream (s : State) (i : Nat) : State :=
  let t := streamOf s i
  if t.state = .closed then s else setStream s i { t with state := .faulted }

/-- Faults stream i when a read of its committed state ended in a device fault (R207). -/
def faultOn {α : Type} (i : Nat) (r : Except AccessErr α × State) : Except AccessErr α × State :=
  match r with
  | (.error (.device cause unit), s) => (.error (.device cause unit), faultStream s i)
  | _ => r

/-- A page of the leaf, exponent and slot windows is read from the page that backs it, whose check bits hold each 4,096-byte unit
(R169, R279, R283, R303); what nothing backs reads as 0. -/
def readWindow (s : State) (c va n : Nat) (bytes : List Byte) (v : Service) : Got × State :=
  match (ctxOf s c).bind fun x => tblGet x.winPages (va / 65536) with
  | none => (.ok (List.replicate n 0), s)
  | some w =>
    let o := va % 65536
    if quadRetired s w.tier w.quad then (.err (.device 0x20 (quadUnit w.tier w.quad)), s)
    else if w.tier then (.ok bytes, s)
    else if hbmBadIn s (65536 * w.quad + o / 4096 * 4096) 4096 then (.err (.device 0x20 (quadPc w.quad)), condemn s (quadPc w.quad))
    else (.ok bytes, hbmTouch s false w.quad (o / 4096 * 4096) 4096 [] v)

/-- Reads n bytes at offset o of the page of a KV leaf; slots that are not live read as 0 (R170, R174). -/
def readKv (s : State) (c i l j o n : Nat) (v : Service) : Got × State :=
  match readLeaf s c (streamOf s i) l j with
  | (none, s1) => (.ok (List.replicate n 0), s1)
  | (some k, s1) =>
    match tblGet s.runs (runKey k) with
    | none => (.ok (List.replicate n 0), s1)
    | some r =>
      match faultOn i (readRun s1 (runKey k) r (o / 4096) v) with
      | (.error f, s2) => (.err f, s2)
      | (.ok raw, s2) =>
        (.ok (((raw.drop (o % 4096)).take n).mapIdx fun b x => if k.live.getLsbD (slotOfByte (o + b)) then x else 0), s2)

/-- Reads n bytes at an address of a segment that was left in the Library (R293, R294, R304). -/
def readLibrary (s : State) (c va n : Nat) (p : Pte) : Got × State :=
  match (ctxOf s c).bind fun x => (packageAt x va).bind fun pk => (segmentAt pk (va % 2 ^ 40 / 65536)).map fun g => (x, pk, g) with
  | none => (.err (.trans 5 va false), s)
  | some (x, pk, i, _, k) =>
    let b := va % 65536 / 4096
    let key := (tblGet x.contentKeys (va / 2 ^ 40)).getD []
    let r := decodeStored s key (packageGen s c pk) i k p.target b
    let len := match r with | .ok d => d.2.length | .error _ => 32
    match unitRead s p.target (4096 * b) len with
    | (.failed, s1) => (.err (.lower stLowerError), s1)
    | (.late, s1) => (.err .late, s1)
    | (.good, s1) =>
      match r with
      | .error st => (.err (.lower st), s1)
      | .ok (raw, _) => (.ok ((raw.drop (va % 4096)).take n), s1)

/-- Reads n bytes of one page, none of them beyond the address's 4 KiB block (R18, R170, R270, R292 to R294). -/
def readBlock (s : State) (c va n cls : Nat) (src : Source) : Got × State :=
  let v := src.service c cls
  let o := va % 65536
  match translate s c va false src, walked s c va cls src with
  | .error f, s1 => (.err f, s1)
  | .ok (.host a), s1 =>
    (match hostRead s1 a n with
     | .data bs => (.ok bs, s1)
     | .error => (.err (.lower stLowerError), s1)
     | .late => (.err .late, s1))
  | .ok .unbacked, s1 => (.ok (List.replicate n 0), s1)
  | .ok (.backed w), s1 =>
    if w.tier then
      (if quadRetired s true w.quad then (.err (.device 0x20 (w.quad / 256)), s1) else (.ok (sramRead s w.quad o n), s1))
    else
      (match faultOn (regionStream va) (readHbm s1 c w.quad (o / 4096) v) with
       | (.ok raw, s2) => (.ok ((raw.drop (va % 4096)).take n), s2)
       | (.error f, s2) => (.err f, s2))
  | .ok .leafTable, s1 => readWindow s1 c va n (leafTableBytes s c (va - 0x700000000000) n) v
  | .ok .expTable, s1 => readWindow s1 c va n (expTableBytes s c (va - 0x710000000000) n) v
  | .ok .slotTable, s1 => readWindow s1 c va n (slotTableBytes s c (va - 0x780000000000) n) v
  | .ok (.kv i l j), s1 => readKv s1 c i l j o n v
  | .ok (.ordinary p), s1 =>
    if p.tier = 1 then
      (if quadRetired s true p.target then (.err (.device 0x20 (p.target / 256)), s1) else (.ok (sramRead s p.target o n), s1))
    else if p.tier = 0 then
      (if bitOf p.zmask (o / 4096) then (.ok (List.replicate n 0), s1)
       else
         match readHbm s1 c p.target (o / 4096) v with
         | (.ok raw, s2) => (.ok ((raw.drop (va % 4096)).take n), s2)
         | (.error f, s2) => (.err f, s2))
    else readLibrary s1 c va n p

/-- Reads n bytes from an address upwards, block by block. -/
def readGo (c cls : Nat) (src : Source) : Nat → State → Nat → Nat → List Byte → Got × State
  | 0, s, _, _, acc => (.ok acc, s)
  | _ + 1, s, _, 0, acc => (.ok acc, s)
  | fuel + 1, s, va, n, acc =>
    let k := min n (4096 - va % 4096)
    match readBlock s c va k cls src with
    | (.ok bs, s1) => readGo c cls src fuel s1 (va + k) (n - k) (acc ++ bs)
    | r => r

/-- Reads n bytes of a context's address space for a source, in a service class. -/
def readVA (s : State) (c va n cls : Nat) (src : Source) : Got × State := readGo c cls src (n / 4096 + 2) s va n []

/-! ### Writes by block -/

/-- The page of an address lies in a coded tier, HBM or Library flash (R94, R169, R283). A KV page that is not mapped lies in no tier;
it is taken as its stream's KV tier (DESIGN CHOICE, log 47). -/
def codedSide (s : State) (c va : Nat) : Bool :=
  let window : Bool := match (ctxOf s c).bind fun x => tblGet x.winPages (va / 65536) with
    | some w => !w.tier
    | none => false
  match translate s c va false .engine with
  | .ok (.ordinary p) => p.tier == 0 || p.tier == 2
  | .ok (.backed w) => !w.tier
  | .ok (.kv i l j) => if (leafOf (streamOf s i) l j).map then !(leafOf (streamOf s i) l j).tier else !(streamOf s i).kvTier
  | .ok .leafTable => window
  | .ok .expTable => window
  | .ok .slotTable => window
  | _ => false

/-- The raw block that a write of HBM stores: whole, or what the block held before with the bytes written into it. R94 lets no tile
write part of a coded block; a part that the engine itself writes is merged (DESIGN CHOICE, log 10). -/
def mergedBlock (s : State) (c q o : Nat) (fresh : Bool) (bs : List Byte) : List Byte :=
  if bs.length = 4096 then bs
  else
    let old := if fresh then List.replicate 4096 0
      else match (readHbm s c q (o / 4096) Service.bulk).1 with | .ok r => r | .error _ => List.replicate 4096 0
    old.take (o % 4096) ++ bs ++ old.drop (o % 4096 + bs.length)

/-- Writes bytes of one block of a page; a coded block is written whole, against the named slot (R18, R94, R270, R290). -/
def writeBlock (s : State) (c va : Nat) (bs : List Byte) (slot : Option Nat) (cls : Nat) (src : Source) :
    Option AccessErr × State :=
  let v := src.service c cls
  let o := va % 65536
  match translate s c va true src, walked s c va cls src with
  | .error f, s1 => (some f, s1)
  | .ok (.host a), s1 => (none, if takesDma s c then hostWrite s1 a bs else s1)
  | .ok (.backed w), s1 =>
    if quadRetired s w.tier w.quad then (some (.device 0x20 (quadUnit w.tier w.quad)), s1)
    else if w.tier then (none, sramWrite s1 w.quad o bs)
    else (none, writeHbm s1 c w.quad (o / 4096) slot (mergedBlock s1 c w.quad o false bs) v)
  | .ok (.ordinary p), s1 =>
    let b := o / 4096
    if quadRetired s (p.tier == 1) p.target then (some (.device 0x20 (quadUnit (p.tier == 1) p.target)), s1)
    else if p.tier = 1 then (none, sramWrite s1 p.target o bs)
    else
      let s2 := writeHbm s1 c p.target b slot (mergedBlock s1 c p.target o (bitOf p.zmask b) bs) v
      let w := pteWord { p with zmask := p.zmask - (if bitOf p.zmask b then 2 ^ b else 0) }
      (none, modCtx s2 c fun x => { x with pages := tblPut x.pages (va / 65536) w })
  | .ok _, s1 => (some (.trans 2 va true), s1)

/-- Writes bytes from an address upwards, block by block, and stops at the first failure. -/
def writeGo (c : Nat) (slot : Option Nat) (cls : Nat) (src : Source) :
    Nat → State → Nat → List Byte → Option AccessErr × State
  | 0, s, _, _ => (none, s)
  | fuel + 1, s, va, bs =>
    if bs.isEmpty then (none, s)
    else
      let k := min bs.length (4096 - va % 4096)
      match writeBlock s c va (bs.take k) slot cls src with
      | (none, s1) => writeGo c slot cls src fuel s1 (va + k) (bs.drop k)
      | r => r

/-! ### Bundles that a tile runs (R107) -/

/-- The tiles that run a program of context c whose bundles n bytes from an address meet. -/
def codeTiles (s : State) (c va n : Nat) : List (Nat × Tile) :=
  s.tiles.filter fun p => p.2.entry.isSome && p.2.ctx == c && meets va n p.2.prog (16 * p.2.len)

/-- A write of bundles that a tile runs leaves them unpredictable, whoever writes: in memory, and in the tile's instruction cache
(R107). Answers the bytes that go to memory. -/
def spoilCode (s : State) (c va : Nat) (bs : List Byte) : List Byte × State :=
  let l := codeTiles s c va bs.length
  if l.isEmpty then (bs, s)
  else
    (bs.mapIdx fun i b =>
        if l.any fun p => p.2.prog ≤ va + i && va + i < p.2.prog + 16 * p.2.len then Config.freeByte (2 ^ 48 * (96 + c) + va + i) s.drawn
        else b,
      l.foldl (fun u p => setTile u p.1 { tileOf u p.1 with
        cached := (tileOf u p.1).cached.filter fun k => !meets va bs.length (4096 * k.1) 4096 }) { s with drawn := s.drawn + 1 })

/-- Writes bytes into a context's address space. -/
def writeVA (s : State) (c va : Nat) (bs : List Byte) (slot : Option Nat) (cls : Nat) (src : Source) :
    Option AccessErr × State :=
  let r := spoilCode s c va bs
  writeGo c slot cls src (bs.length / 4096 + 2) r.2 va r.1

/-! ### References of blocks in flight (R297) -/

/-- The install serial of the generation that a decrypted header of context c names. -/
def headerSerial (s : State) (c : Nat) (h : List Byte) : Option Nat :=
  match parseHeader h with
  | some (0, sl, gen, _, _) => (contextGen s c sl gen).map Generation.serial
  | _ => none

/-- The generation that the coded block at an address names, once its header is decrypted; none where there is no coded block
(R297). -/
def blockSerial (s : State) (c va : Nat) : Option Nat :=
  let o := va % 65536
  let header (a : Nat) (u : Stored) : Option Nat := headerSerial s c (openBlock (dataKeyOf s c) a u.data).1
  let hbm (q : Nat) : Option Nat := header (65536 * q + o / 4096 * 4096) (storedAt s (16 * q + o / 4096))
  match translate s c va false .engine with
  | .ok (.ordinary p) =>
    if p.tier = 0 then hbm p.target
    else if p.tier = 2 then
      match (ctxOf s c).bind fun x => (packageAt x va).bind fun pk => (segmentAt pk (va % 2 ^ 40 / 65536)).map fun g => (x, pk, g) with
      | none => none
      | some (x, pk, i, _, k) =>
        let tweak := 0x11 + 2 ^ 8 * (65536 * k + o / 4096 * 4096) + 2 ^ 64 * i
        match parseHeader (xtsDecrypt ((tblGet x.contentKeys (va / 2 ^ 40)).getD []) tweak (storedBlock s p.target (o / 4096) 16)) with
        | some (0, sl, gen, _, _) => (packageGen s c pk sl gen).map Generation.serial
        | _ => none
    else none
  | .ok (.backed w) => if w.tier then none else hbm w.quad
  | .ok (.kv i l j) =>
    let k := leafOf (streamOf s i) l j
    if k.tier then none
    else (tblGet s.runs (runKey k)).bind fun r =>
      if r.raw then none else (r.blocks[o / 4096]?).bind fun u => header (r.blockAddress (runKey k) (o / 4096)) u
  | _ => none

/-- The generations that the blocks of n bytes from an address hold while they are in flight (R297). -/
def readHolds (s : State) (c va n : Nat) : List Nat := (List.range (n / 4096)).filterMap fun i => blockSerial s c (va + 4096 * i)

end Sys2Proof.Machine
end

