-- ==== Sys2Proof/Machine/Requests.lean ====
section
/-! DEFINITION. How requests and jobs end: completion entries (R352), records (R157, R158), the end of a request at an operation
boundary (R163), and the end of a job (R16, R357, R450), each as one shared operation. -/

namespace Sys2Proof.Machine

/-! ### Completion entries -/

/-- The 32 bytes of a completion entry (R352). -/
def completionBytes (s : State) (phase : Bool) (cid sq op sqhead : Nat) (st : BitVec 8) (result : Nat) : List Byte :=
  leBytes 8 cid ++ leBytes 1 sq ++ leBytes 1 op ++ leBytes 2 sqhead ++ [st] ++ [0, 0] ++ [if phase then 1 else 0] ++
    leBytes 8 result ++ leBytes 8 (now s)

/-- Writes a completion entry to the completion ring that a submission ring names (R340, R352). -/
def writeCompletion (s : State) (f sq cid op : Nat) (st : BitVec 8) (result : Nat) (imm : Bool) : State :=
  let q := ringOf s f sq
  let r := ringOf s f q.cq.toNat
  if takesDma s f && r.en then
    ringWrite s f q.cq.toNat (completionBytes s r.phase cid sq op q.own.toNat st result) imm
  else s

/-! ### Tiles let go -/

/-- The engine where it makes bytes unpredictable, in a recurrent window too. -/
def Source.over (va : Nat) : Source := { Source.engine with writes := [regionStream va] }

/-- Puts bytes where a range starts. -/
def putRange (s : State) (r : Range) (bs : List Byte) : State :=
  if r.1 < 96 then { s with localMem := memWriteN s.localMem (2 ^ 21 * r.1 + r.2.1) bs }
  else (writeVA s (r.1 - 96) r.2.1 bs none 3 (Source.over r.2.1)).2

/-- The bytes of a range, 0 where they cannot be read. -/
def rangeBytes (s : State) (r : Range) : List Byte :=
  if r.1 < 96 then memReadN s.localMem (2 ^ 21 * r.1 + r.2.1) r.2.2
  else match (readVA s (r.1 - 96) r.2.1 r.2.2 3 (Source.over r.2.1)).1 with
    | .ok bs => bs
    | .err _ => List.replicate r.2.2 0

/-- The bytes of a range become unpredictable (R104, R107, R110). -/
def scrub (s : State) (r : Range) : State :=
  putRange { s with drawn := s.drawn + 1 } r
    ((List.range r.2.2).map fun i => Config.freeByte (2 ^ 48 * r.1 + r.2.1 + i) s.drawn)

/-- A block that a frame has asked for has still to come to some row of a destination. -/
def rowPending (s : State) (i : InFlight) (r : Range) : Bool :=
  s.span.outstanding.any fun o => i.remote.contains (o.port, o.seq) && !o.filled &&
    match o.store with
    | .tile t a => t == r.1 && meets a 4096 r.2.1 r.2.2
    | .va => 96 + o.ctx == r.1 && meets o.arg.toNat 4096 r.2.1 r.2.2
    | .chip _ _ _ => false

/-- An outstanding COPY or FILL stops at a row boundary, or has finished: from a free row on, or where a row's blocks have not all come
from another chip, its destination is as it was before; bytes which another copy wrote too stay unpredictable (R96, R106). -/
def stopAtRow (s : State) (i : InFlight) : State :=
  let k := Config.freeNat s.drawn % (i.writes.length + 1)
  let rows := i.writes.zip i.was
  let undone := if i.remote.isEmpty then rows.drop k else rows.filter fun p => rowPending s i p.1
  i.spoiled.foldl scrub (undone.foldl (fun u p => putRange u p.1 p.2) { s with drawn := s.drawn + 1 })

/-- What a tile that leaves its program had in its units: after a fault its copies finish or stop at a row boundary (R106); any other
write that had not finished leaves its bytes unpredictable (R110). -/
def stopFlight (rows : Bool) (s : State) (i : InFlight) : State :=
  if rows && i.unit == 2 then stopAtRow s i else (i.writes ++ i.sideWrites).foldl scrub s

/-- Tile cycles since a program's first bundle (R462). -/
def tileCycles (s : State) (x : Tile) : Nat := (now s - x.busySince) * s.power.freq.toNat / 1000

/-- A tile leaves its program: what its units still held stops (R106, R110), and its cycles count. -/
def releaseTile (s : State) (t : Nat) : State :=
  let x := tileOf s t
  match x.entry with
  | none => s
  | some _ =>
    let n := tileCycles s x
    let s1 := x.inflight.foldl (stopFlight x.rowStop) s
    let s2 := bumpFn (bumpTile s1 t 4 n) x.ctx 14 n
    setTile s2 t { x with
      entry := none, held := none, cached := [], inflight := [], halted := false, stopped := false, rowStop := false
      waitOn := none }

/-- Tiles that run programs of the given Docket entries. -/
def tilesOf (s : State) (es : List Nat) : List Nat :=
  (s.tiles.filter fun p => match p.2.entry with | some e => es.contains e | none => false).map Prod.fst

/-- Operations expanded from a request (R249). -/
def childrenOf (s : State) (e : Nat) : List Nat :=
  (s.docket.entries.filter fun p => p.2.parent == some e).map Prod.fst

/-- The request that an entry belongs to. -/
def rootOf (s : State) (e : Nat) : Nat :=
  match entryOf s e with
  | some x => x.parent.getD e
  | none => e

/-- An operation that has retired no longer holds any epoch back (R179). -/
def unwait (s : State) (es : List Nat) : State :=
  { s with ctxs := tblMap s.ctxs fun _ c =>
      { c with closed := c.closed.map fun p => { p with waits := p.waits.filter fun w => !es.contains w } } }

/-- Frees the entries of a request and of the operations expanded from it, with their tiles (R249). -/
def dropEntry (s : State) (e : Nat) : State :=
  let es := e :: childrenOf s e
  let s1 := (tilesOf s es).foldl releaseTile s
  let s2 := es.foldl delEntry (unwait s1 es)
  { s2 with sched := { s2.sched with claims := s2.sched.claims.filter fun c => !es.contains c } }

/-- A request retires: its completion entry is written, it is counted and traced, and its entry is free (R249, R352, R462). -/
def finish (s : State) (e : Nat) (st : BitVec 8) : State :=
  match entryOf s e with
  | none => s
  | some x =>
    let f := x.hdr.fn.toNat
    let op := opcodeOf x.cmd
    let s1 := writeCompletion s f x.hdr.sq.toNat x.hdr.cid.toNat op st x.result.toNat x.hdr.imm
    let s2 := bumpFn s1 f 12 1
    let s3 := if st = stDeadline then bumpFn s2 f 13 1 else s2
    dropEntry (traceWrite s3 f 3 st.toNat x.hdr.sq.toNat op x.hdr.cid.toNat) e

/-- Sets RESULT and retires. -/
def finishWith (s : State) (e : Nat) (st : BitVec 8) (result : Nat) : State :=
  finish (modEntry s e fun x => { x with result := BitVec.ofNat 64 result }) e st

/-! ### Presentation queues and records -/

/-- The real-time port writes one 64-byte entry to a presentation queue, then its produced index (R252). A full queue drops
the record, counts it in PQ_OVERRUN and raises the event. -/
def pqWrite (s : State) (f q : Nat) (bs : List Byte) : State :=
  let r := ringOf s f q
  if !(takesDma s f) then s
  else if !(r.en && decide (r.kind = 2)) then s
  else if ringRoom r then
    let s1 := ringWrite s f q bs false
    hostWrite s1 r.idx.toNat (leBytes 8 (r.own + 1).toNat)
  else raiseEvent (bumpFn s f 8 1) f 0x05 q 1

/-- The 64 bytes of a record (R157). -/
def recordBytes (s : State) (stream : Nat) (st : BitVec 8) (nacc pos path : Nat) (tokens : List (BitVec 16)) : List Byte :=
  leBytes 2 stream ++ [st] ++ leBytes 1 nacc ++ leBytes 4 pos ++ leBytes 2 path ++ leBytes 6 0 ++
    ((List.range 16).flatMap fun j => leBytes 2 (tokens.getD j 0).toNat) ++ leBytes 8 (now s) ++ leBytes 4 (phaseOf s) ++
    leBytes 4 0

/-- Where the records of a request go: its queue or its array (R131, R160). -/
def writeRecordAt (s : State) (x : Entry) (j : Nat) (bs : List Byte) : State :=
  let f := x.hdr.fn.toNat
  let put (pq : BitVec 16) (out : BitVec 64) : State :=
    if pq ≠ 0xFFFF then pqWrite s f pq.toNat bs
    else if out ≠ 0 ∧ takesDma s f then hostWrite s (out.toNat + 64 * j) bs
    else s
  match x.cmd with
  | .step b => put b.pq b.out
  | .prefill b => put b.pq b.out
  | _ => s

/-- Writes the record of batch entry j with a status and settles the part; once only (R158). -/
def settlePart (s : State) (e j : Nat) (st : BitVec 8) (nacc pos path : Nat) (tokens : List (BitVec 16)) : State :=
  match entryOf s e with
  | none => s
  | some x =>
    match x.parts[j]? with
    | none => s
    | some p =>
      match p.outcome with
      | some _ => s
      | none =>
        let s1 := writeRecordAt s x j (recordBytes s p.stream st nacc pos path tokens)
        modEntry s1 e fun y => { y with parts := y.parts.set j { p with outcome := some st, waiting := false } }

/-! ### Pools: whole quads come back -/

/-- A quad whose frames are all free joins the reserve below its target, else the free pool (R178). A quad that the context no
longer holds goes nowhere. -/
def Pool.giveFreed (p : Pool) (q : Nat) : Pool :=
  if !p.all.contains q then p
  else if p.resv.length < p.rtgt then { p with resv := p.resv ++ [q] } else { p with free := p.free ++ [q] }

/-- A reserved quad that was not used returns to the free pool (R177). -/
def Pool.giveUnused (p : Pool) (qs : List Nat) : Pool := { p with free := p.free ++ qs.filter p.all.contains }

/-- Quads that a part reserved and did not use return: those of its stream's KV tier, and those of its working regions, whose pages
are no longer backed (R177, R217). -/
def Ctx.giveBack (k : Ctx) (kv : Bool) (reserved recs : List Nat) : Ctx :=
  let k1 := k.setPool kv ((k.pool kv).giveUnused reserved)
  { k1 with pool1 := k1.pool1.giveUnused recs
            winPages := k1.winPages.filter fun w => !(w.2.tier && recs.contains w.2.quad) }

/-! ### Frames and runs -/

/-- The first place of n consecutive free frames in a quad whose used frames are `mask`. -/
def freeFrames (mask n : Nat) : Option Nat :=
  (List.range 4).find? fun i => decide (i + n ≤ 4) && (List.range n).all fun k => !bitOf mask (i + k)

/-- Mask of n frames from frame i of a quad. -/
def frameMask (i n : Nat) : Nat := 2 ^ i * (2 ^ n - 1)

/-- Places a run of n frames: in a quad that already holds a used run, else in the first whole quad offered (R176). Answers the
first frame, the pool and the quads left. -/
def placeRun (p : Pool) (n : Nat) (whole : List Nat) : Option (Nat × Pool × List Nat) :=
  match p.part.find? (fun x => p.all.contains x.1 && (freeFrames x.2 n).isSome) with
  | some (q, mask) =>
    let i := (freeFrames mask n).getD 0
    some (4 * q + i, { p with part := tblPut p.part q (mask ||| frameMask i n) }, whole)
  | none =>
    match whole with
    | [] => none
    | q :: r => some (4 * q, { p with part := tblPut p.part q (frameMask 0 n) }, r)

/-- Frees n frames from a frame; a quad that is wholly free leaves the used ones (R178). -/
def Pool.freeRun (p : Pool) (frame n : Nat) : Pool :=
  let q := frame / 4
  let mask := tblGetD p.part q 0
  let left := mask &&& (15 ^^^ frameMask (frame % 4) n)
  if left = 0 then ({ p with part := tblDel p.part q }).giveFreed q else { p with part := tblPut p.part q left }

/-- Takes n whole quads, from the free pool first and then from the reserve when `resv` allows it; none when too few. Answers
also how many came from the reserve (R200). -/
def Pool.takeWhole (p : Pool) (n : Nat) (resv : Bool) : Option (List Nat × Pool × Nat) :=
  let a := p.free.take n
  let b := if resv then p.resv.take (n - a.length) else []
  if a.length + b.length = n then
    some (a ++ b, { p with free := p.free.drop n, resv := p.resv.drop b.length }, b.length)
  else none

/-- A run loses one reference; at 0 its frames are free (R178). -/
def releaseRun (s : State) (key : Nat) : State :=
  match tblGet s.runs key with
  | none => s
  | some r =>
    if 1 < r.refs then { s with runs := tblPut s.runs key { r with refs := r.refs - 1 } }
    else
      let tier := decide (2 ^ 24 ≤ key)
      modCtx { s with runs := tblDel s.runs key } r.ctx fun x =>
        x.setPool tier ((x.pool tier).freeRun (key % 2 ^ 24) r.frames)

/-! ### Translation tables (R261, R267, R269) -/

/-- Level-1 and level-2 tables that pages need: keys of `Ctx.tables`. -/
def tableKeys (pages : List Nat) : List Nat :=
  ((pages.map fun v => v / 2 ^ 22) ++ (pages.map fun v => 2 ^ 30 + v / 2 ^ 11)).eraseDups

/-- Window pages that the segments of a load in progress will map. -/
def loadPages (x : Entry) : List Nat :=
  match x.cmd with
  | .packageLoad _ => if x.image.isEmpty then [] else (segmentsOf x.image).flatMap fun g =>
      (List.range g.pages).map fun k => x.window * 2 ^ 24 + g.woff + k
  | _ => []

/-- Tables that neither a mapped page nor a load in progress, other than `self`, needs, with their frames (R261, R269). -/
def emptyTables (s : State) (c : Nat) (x : Ctx) (self : Option Nat) : List (Nat × Nat) :=
  let loading := (s.docket.entries.filter fun p => decide (p.2.hdr.fn.toNat = c) && some p.1 != self).flatMap fun p => loadPages p.2
  let need := tableKeys (x.pages.map Prod.fst ++ loading)
  x.tables.filter fun t => !need.contains t.1

/-- A request that ends gives back what its parts hold (R163, R201, R207, R218): streams leave GROWTH_WAIT, reserved quads and
working regions return to the pools, and runs that no leaf names yet are freed. -/
def endParts (s : State) (e : Nat) (x : Entry) : State :=
  let c := x.hdr.fn.toNat
  let s1 := x.parts.foldl (fun u p =>
    let st := streamOf u p.stream
    let u1 := if p.waiting && decide (st.state = .growthWait) then
        setStream u p.stream { st with state := .active, pinnedEntry := none } else u
    let u2 := (p.newRuns.map Prod.snd).foldl releaseRun u1
    modCtx u2 c fun k =>
      ({ k with growth := if p.waiting then k.growth.filter (fun g => g.1 != p.stream) else k.growth } : Ctx).giveBack st.kvTier
        p.reserved p.recReserved) s
  modEntry s1 e fun y =>
    { y with parts := y.parts.map fun p => { p with waiting := false, reserved := [], recReserved := [], newRuns := [] } }

/-- A PACKAGE_LOAD that ends unpublished gives back its quads and table frames and zeroes its content key (R378, R396). -/
def endLoad (s : State) (e : Nat) (x : Entry) : State :=
  match x.cmd with
  | .packageLoad _ =>
    let s1 := modCtx s x.hdr.fn.toNat fun k =>
      if x.image.isEmpty || (tblGet k.packages x.window).isSome then k
      else
        let gone := emptyTables s x.hdr.fn.toNat k (some e)
        let p0 := (gone.map Prod.snd).foldl (fun p f => p.freeRun f 1) (k.pool0.giveUnused x.quads)
        { k with pool0 := p0, pool1 := k.pool1.giveUnused x.quads1, contentKeys := tblDel k.contentKeys x.window
                 tables := k.tables.filter fun t => !gone.contains t }
    modEntry s1 e fun y => { y with quads := [], quads1 := [] }
  | _ => s

/-- A handover before its commit rolls back when its FW_UPDATE ends: the new slot stays VALID and is not active (R447, R448). -/
def endHandover (s : State) (e : Nat) : State :=
  match s.fw.handover with
  | some h => if h.entry = e then { s with fw := { s.fw with handover := none } } else s
  | none => s

/-- What an ended request still holds goes back. -/
def abandon (s : State) (e : Nat) : State :=
  match entryOf s e with
  | none => s
  | some x => endHandover (endLoad (endParts s e x) e x) e

/-! ### Sync counters (R97 to R100) -/

/-- Global number of counter i of context c, if i lies in the window (R97). -/
def syncIndex (s : State) (c i : Nat) : Option Nat :=
  match ctxOf s c with
  | some x => if i < x.syncCount then some (x.syncBase + i) else none
  | none => none

/-- A WAIT whose target the value of counter g meets has been met, whatever follows (R100). -/
def markMet (s : State) (g : Nat) (value : Word64) : State :=
  { s with tiles := tblMap s.tiles fun _ x =>
      { x with waitOn := x.waitOn.map fun w =>
          if syncIndex s x.ctx w.index = some g ∧ w.target ≤ value then { w with met := true } else w } }

/-- For each tile the later of its SIGNALs in two clocks (R99). -/
def mergeClock (a b : Tbl Nat) : Tbl Nat := b.foldl (fun t p => tblPut t p.1 (max (tblGetD t p.1 0) p.2)) a

/-- A counter after an addition that does not overflow. `clock`: the SIGNALs that stand before the addition (R99, R100). -/
def Sync.plus (v : Sync) (amount : Nat) (clock : Tbl Nat) : Sync :=
  let n := BitVec.ofNat 64 (v.value.toNat + amount)
  { v with value := n, marks := v.marks ++ [{ value := n, clock := mergeClock ((v.marks.getLast?.map Mark.clock).getD []) clock }] }

/-- Adds to a counter (R100); answers whether the addition leaves it POISONED. A POISONED counter ignores it. `clock`: the SIGNALs that
stand before the addition (R99). -/
def addSyncBy (s : State) (g amount : Nat) (clock : Tbl Nat) : State × Bool :=
  let v := syncOf s g
  if v.poisoned then (s, false)
  else if 2 ^ 64 ≤ v.value.toNat + amount then (setSync s g { v with poisoned := true }, true)
  else (markMet (setSync s g (v.plus amount clock)) g (v.plus amount clock).value, false)

/-- Every SIGNAL that a tile has issued. -/
def allSignals (s : State) : Tbl Nat := s.tiles.map fun p => (p.1, p.2.signals)

/-- An addition from the host or from another chip. Its sender may have seen every SIGNAL so far, so it stands after them all (DESIGN
CHOICE, log 11). -/
def addSync (s : State) (g amount : Nat) : State × Bool := addSyncBy s g amount (allSignals s)

/-! ### Ends of requests and jobs -/

/-- Every uncommitted stream of a STEP or PREFILL ends with the event's status and a record (R158). -/
def settleAll (s : State) (e : Nat) (st : BitVec 8) : State :=
  match entryOf s e with
  | none => s
  | some x =>
    (List.range x.parts.length).foldl (fun u j =>
      let i := (x.parts[j]?.map Part.stream).getD 0
      settlePart u e j st 0 (streamOf u i).positions.toNat 0 []) s

/-- Tiles of an entry and of its expanded operations stop at their next bundle (R110). -/
def stopTiles (s : State) (e : Nat) : State :=
  (tilesOf s (e :: childrenOf s e)).foldl (fun u t => setTile u t { tileOf u t with stopped := true }) s

/-- The status that ends a request: the one decided before, but that JOB_FAULTED, of wider scope, replaces any but SYNC_POISONED
(R100, R460). -/
def endStatusOf (x : Entry) (st : BitVec 8) : BitVec 8 :=
  if st = stJobFaulted ∧ x.status ≠ some stPoisoned then st else x.status.getD st

/-- An event ends a request with a status (R163, R243, R244). While its programs run they stop at their next bundle (R110) and
REQUEST_RETIRE completes it; otherwise it is at an operation boundary and ends at once. -/
def endRequest (s : State) (e : Nat) (st : BitVec 8) : State :=
  match entryOf s e with
  | none => s
  | some x =>
    if (tilesOf s (e :: childrenOf s e)).isEmpty then
      finish (settleAll (abandon s e) e (endStatusOf x st)) e (endStatusOf x st)
    else stopTiles (modEntry s e fun y => { y with status := some (endStatusOf y st) }) e

/-- Unretired requests of the open job of context c, JOB_ENDs left out (R356). -/
def jobMembers (s : State) (c : Nat) : List Nat :=
  (s.docket.entries.filter fun p =>
    p.2.inJob && p.2.parent.isNone && decide (p.2.hdr.fn.toNat = c) &&
      (match p.2.cmd with | .jobEnd _ => false | _ => true)).map Prod.fst

/-- A port that can send: up (R485, R488). -/
def sendingPort (s : State) : Option Bool :=
  if s.span.port0.state = 2 then some false else if s.span.port1.state = 2 then some true else none

/-- Ethernet address of a port of a chip: 06-5A, the Span, and 2 chip + port (R478). -/
def spanAddress (spanId : BitVec 16) (chip : Nat) (port : Bool) : BitVec 48 :=
  0x065A#16 ++ spanId ++ BitVec.ofNat 16 (2 * chip + if port then 1 else 0)

/-- A frame goes out by a port, from its address to that of the receiver's port of the same number (R478, R483; which port of the
receiver is a DESIGN CHOICE, log 41). -/
def putFrame (s : State) (port srcPort : Bool) (frameType flags dst jobNum : Nat) (seq : BitVec 32) (address : Nat) (arg : Word64)
    (payload : List Byte) : State :=
  { s with span := { s.span with sent :=
      { port := port, source := spanAddress s.span.spanId s.span.chip.toNat port, destination := spanAddress s.span.spanId dst port
        spanId := s.span.spanId, src := s.span.chip, srcPort := srcPort, frameType := frameType, flags := flags, dst := dst
        jobNum := jobNum, seq := seq, address := address, arg := arg, payload := payload } :: s.span.sent } }

/-- Sends a new Span frame with the port's next SEQ (R483). Answers carry the SEQ they are given. -/
def sendFrame (s : State) (frameType flags dst jobNum address : Nat) (arg : Word64) (payload : List Byte)
    (answer : Option (BitVec 32)) : State :=
  if !s.span.active then s
  else match sendingPort s with
    | none => s
    | some p =>
      let x := portOf s p
      let q := answer.getD (x.seq + 1)
      let s1 := if answer.isNone then setPort s p { x with seq := x.seq + 1 } else s
      putFrame s1 p p frameType flags dst jobNum q address arg payload

/-- Span job fields of JOB_BEGIN (R480): number, first and last chip. -/
def spanJobNum (w : Word64) : Nat := bitsOf w.toNat 15 0
def spanJobFirst (w : Word64) : Nat := bitsOf w.toNat 30 16
def spanJobLast (w : Word64) : Nat := bitsOf w.toNat 45 31

/-- JOBFAULT goes to each other member of a Span job (R482). -/
def announceFault (s : State) (w : Word64) : State :=
  if w = 0 then s
  else
    (List.range (spanJobLast w + 1 - spanJobFirst w)).foldl (fun u i =>
      let d := spanJobFirst w + i
      if d = u.span.chip.toNat then u else sendFrame u 6 0 d (spanJobNum w) 0 0 [] none) s

/-- The first device fault of a job is recorded in SCH_JOB_FAULT until VALID is cleared (R450, R460). -/
def recordJobFault (x : Ctx) (cause unit : Nat) : Ctx :=
  if bitOf x.jobFault.toNat 15 then x
  else { x with jobFault := BitVec.ofNat 32 (cause % 256 + 2 ^ 15 + 2 ^ 16 * (unit % 65536)) }

/-- The status with which a job fault ends a request: a wait on a POISONED counter ends with SYNC_POISONED (R100, R358). -/
def faultStatus (s : State) (e : Nat) : BitVec 8 :=
  let bad (c i : Nat) : Bool := match syncIndex s c i with | some g => (syncOf s g).poisoned | none => false
  match entryOf s e with
  | none => stJobFaulted
  | some x =>
    let host := match x.cmd with | .syncWait b => bad x.hdr.fn.toNat b.cidx.toNat | _ => false
    let tile := (tilesOf s (e :: childrenOf s e)).any fun t =>
      match (tileOf s t).waitOn with | some w => !w.met && bad x.hdr.fn.toNat w.index | none => false
    if host || tile then stPoisoned else stJobFaulted

/-- Records the first tile-program fault of a job in SCH_TP_FAULT until VALID is cleared (R106). -/
def recordTpFault (s : State) (t cause : Nat) : State :=
  let x := tileOf s t
  modCtx s x.ctx fun k =>
    if bitOf k.tpFault.toNat 15 then k
    else { k with tpFault := BitVec.ofNat 32 (cause + 2 ^ 8 * x.rank + 2 ^ 15 + 2 ^ 16 * (x.pc % 2 ^ 16)) }

/-- A tile whose WAIT waits on a counter that is POISONED faults with cause 0x0D (R100). -/
def faultWaits (s : State) (e : Nat) : State :=
  (tilesOf s (e :: childrenOf s e)).foldl (fun u t =>
    let x := tileOf u t
    match x.waitOn with
    | none => u
    | some w => match syncIndex u x.ctx w.index with
      | some g => if (syncOf u g).poisoned && !w.met then recordTpFault u t 0x0D else u
      | none => u) s

/-- A device fault ends the open job of context c (R16, R357, R449, R450): the cause is recorded and logged, JOB_FAULT is sent,
every unretired request ends with JOB_FAULTED. `announce`: a Span job tells its other members (R482). -/
def faultJob (s : State) (c cause unit : Nat) (announce : Bool) : State :=
  match ctxOf s c with
  | none => s
  | some x =>
    match x.job with
    | none => s
    | some j =>
      if j.faulted then s
      else
        let s1 := setCtx s c { recordJobFault x cause unit with job := some { j with faulted := true } }
        let s2 := raiseEvent (logFault s1 1 c cause unit j.tag.toNat) c 0x07 0 j.tag.toNat
        let s3 := (jobMembers s2 c).foldl (fun u e => endRequest (faultWaits u e) e (faultStatus u e)) s2
        if announce then announceFault s3 j.span else s3

/-- A device fault in a request ends its job, or only the request when it belongs to none (R355, R449). -/
def faultRequest (s : State) (e cause unit : Nat) : State :=
  match entryOf s (rootOf s e) with
  | none => s
  | some x => if x.inJob then faultJob s x.hdr.fn.toNat cause unit true else endRequest s (rootOf s e) stJobFaulted

/-- The job of context c closes: POISONED counters of its window read 0 (R97, R356). -/
def closeJob (s : State) (c : Nat) : State :=
  match ctxOf s c with
  | none => s
  | some x =>
    { setCtx s c { x with job := none } with
      syncs := tblMap s.syncs fun g v =>
        if x.syncBase ≤ g ∧ g < x.syncBase + x.syncCount ∧ v.poisoned then Sync.reset else v }

/-! ### Epochs (R179) -/

/-- Entries of context c that have started, other than one. -/
def startedOps (s : State) (c : Nat) (self : Option Nat) : List Nat :=
  (s.docket.entries.filter fun p =>
    decide (p.2.hdr.fn.toNat = c) && p.2.dispatched && some p.1 != self &&
      decide (p.2.state = .running ∨ p.2.state = .retiring)).map Prod.fst

/-- Closes the open epoch of context c, with what it will release when it drains (R179, R269). Answers its number. -/
def closeEpoch (s : State) (c : Nat) (self : Option Nat) (p : Epoch) : State × Nat :=
  match ctxOf s c with
  | none => (s, 0)
  | some x =>
    let n := x.open_
    (setCtx s c { x with open_ := n + 1, closed := x.closed ++ [{ p with id := n, waits := startedOps s c self }] }, n)

/-- An epoch that releases nothing. -/
def Epoch.none_ : Epoch :=
  { id := 0, waits := [], runs := [], quads0 := [], quads1 := [], frames := [], handle := none, streamClose := none }

/-! ### Records of failures (R273) -/

/-- Records the context's first translation failure in MMU_FAULT_INFO (R273). `src`: 0 tile program, 1 command engine, 2 shared
unit. -/
def recordTrans (s : State) (c kind va : Nat) (write : Bool) (src rank : Nat) : State :=
  modCtx s c fun x =>
    if x.mmuInfo.getLsbD 15 then x
    else { x with
      mmuAddr := va
      mmuInfo := BitVec.ofNat 16 (kind + (if write then 8 else 0) + 16 * src + (if src = 0 then 256 * rank else 0) + 2 ^ 15) }

/-- A lower-tier read of a request is late: the request goes on as it is until MMU_LT_LIMIT µs after the read was issued, and
LOWER_TIER_LATE ends it then (R277). -/
def readLate (s : State) (e : Nat) : State :=
  let r := rootOf s e
  let limit := match (entryOf s r).bind fun x => ctxOf s x.hdr.fn.toNat with | some k => k.ltLimit.toNat | none => 4000
  modEntry s r fun x => { x with lateAt := some ((x.lateAt.getD (now s + 1000 * limit))) }

/-- A lower-tier read has been late for long enough to end the request: the moment noted, or LIMIT µs after the request's admission
where the outside alone knows of the read (R277). -/
def lateDue (s : State) (x : Entry) : Bool :=
  let limit := match ctxOf s x.hdr.fn.toNat with | some k => k.ltLimit.toNat | none => 4000
  decide (x.lateAt.getD (x.admitTime + 1000 * limit) ≤ now s)

/-- A request ends with the status of its host or Library reads, but a late read only at its limit (R276, R277). -/
def finishRead (s : State) (e : Nat) (st : BitVec 8) : State := if st = stLowerLate then readLate s e else finish s e st

/-- The cause of a command engine's translation failure: 0x23, but 0x0B for a write to a recurrent window, and for a COPY that writes
the KV window (R170, R206, R273; that R170 and R206 go before R273's 0x23 is DEDUCED, log 48). -/
def engineCause (x : Entry) (va : Nat) (write : Bool) : Nat :=
  let copy := match x.cmd with | .copy _ => true | _ => false
  if write && (decide (0x600000000000 ≤ va ∧ va < 0x700000000000) || (copy && decide (0x800000000000 ≤ va))) then 0x0B else 0x23

/-- A command engine's failed access ends its request: a translation failure and a device fault end the job with their cause, a
lower-tier failure ends the request alone (R273, R276 to R279). -/
def failEngine (s : State) (e : Nat) (err : AccessErr) : State :=
  let r := rootOf s e
  match entryOf s r with
  | none => s
  | some x =>
    match err with
    | .trans k va w => faultRequest (recordTrans s x.hdr.fn.toNat k va w 1 0) r (engineCause x va w) 0
    | .lower st => endRequest s r st
    | .late => readLate s r
    | .device cause unit => faultRequest s r cause unit

end Sys2Proof.Machine
end

