-- ==== Sys2Proof/Machine/Pools.lean ====
section
/-! DEFINITION. Pools, runs, backing pages and epochs of a context (R169, R172 to R181, R191 to R193, R261, R269), and what the
drain of an epoch does. -/

namespace Sys2Proof.Machine

/-! ### Pages written -/

/-- How a page is stored: whether it goes raw, its frames, H1OFF and what HBM is to hold of it; `rawBlocks` counts the blocks that go
raw under a header (R173, R290). -/
structure Coded where
  raw : Bool
  frames : Nat
  h1off : Nat
  blocks : List (List Byte × List Byte)
  rawBlocks : Nat

/-- Granules of a coded block (R284). -/
def blockGranules (b : List Byte × List Byte) : Nat := (b.1.length + b.2.length + 31) / 32

/-- Codes a raw page of 65,536 bytes against a slot (R173). A page that goes raw carries no header, and none of its units counts in
CODEC_RAW (DEDUCED from R290, which counts blocks written with MODE 1; log 10). -/
def codePage (s : State) (c heads : Nat) (slot : Option Nat) (bytes : Memory) : Coded :=
  let units := (List.range 16).map fun b => memReadN bytes (4096 * b) 4096
  let bl := units.map fun u => codedBlock s c slot u
  let total := (bl.map blockGranules).sum
  if 2048 < total then { raw := true, frames := 4, h1off := 0, blocks := units.map fun u => ([], u), rawBlocks := 0 }
  else
    { raw := false, frames := (32 * total + 16383) / 16384
      h1off := if heads = 2 then ((bl.take 8).map blockGranules).sum else 0
      blocks := bl
      rawBlocks := (bl.filter fun k => rawHeader k.1).length }

/-- Encrypts the blocks of a page for their places from an HBM byte address on (R173, R303). -/
def sealRun (key : List Byte) (raw : Bool) : Nat → List (List Byte × List Byte) → List Stored
  | _, [] => []
  | a, b :: l =>
    (if raw then Stored.of (xtsEncrypt key (hbmTweak 0x02 a) b.2) else sealBlock key a b) ::
      sealRun key raw (a + (if raw then 4096 else 32 * blockGranules b)) l

/-- A page in state SRAM, which stores no coded block (R257): raw, in 4 frames. -/
def rawCoded : Coded := { raw := true, frames := 4, h1off := 0, blocks := [], rawBlocks := 0 }

/-- Writes a raw page as a new run of context c into a tier, using the offered whole quads. Answers the leaf fields. -/
def writeRun (s : State) (c heads : Nat) (tier : Bool) (slot : Option Nat) (bytes : Memory) (whole : List Nat) (v : Service) :
    Option (KvLeaf × List Nat × State) :=
  match ctxOf s c with
  | none => none
  | some x =>
    let k := if tier then rawCoded else codePage s c heads slot bytes
    match placeRun (x.pool tier) k.frames whole with
    | none => none
    | some (f, p, left) =>
      let key := (if tier then 2 ^ 24 else 0) + f
      let s1 := setCtx s c (x.setPool tier p)
      let blocks := sealRun x.dataKey k.raw (16384 * f) k.blocks
      let r : Run := { ctx := c, refs := 1, raw := k.raw, frames := k.frames, h1off := k.h1off, blocks := blocks
                       bytes := if tier then bytes else [] }
      let s2 := { s1 with runs := tblPut s1.runs key r }
      let s3 := if k.rawBlocks = 0 then s2 else bumpFn s2 c 9 k.rawBlocks
      let data := blocks.flatMap Stored.data
      let s4 := if tier then s3 else hbmTouch s3 true (f / 4) (f % 4 * 16384) data.length data v
      some ({ live := 0, frame := BitVec.ofNat 24 f, tier := tier, nfm1 := BitVec.ofNat 2 (k.frames - 1), raw := k.raw,
              map := true, h1off := BitVec.ofNat 11 k.h1off }, left, s4)

/-- Writes a page as writeRun does, offering a whole quad of the free pool, or one of the reserve when `resv` allows it. -/
def writeFrom (s : State) (c heads : Nat) (tier : Bool) (slot : Option Nat) (bytes : Memory) (resv : Bool) (v : Service) :
    Option (KvLeaf × State) :=
  match ctxOf s c with
  | none => none
  | some k =>
    let p := k.pool tier
    let whole := (p.free ++ (if resv then p.resv else [])).take 1
    match writeRun s c heads tier slot bytes whole v with
    | none => none
    | some (leaf, left, s1) =>
      let keep (l : List Nat) : List Nat := if left.isEmpty then l.filter fun q => !whole.contains q else l
      some (leaf, modCtx s1 c fun v => v.setPool tier { v.pool tier with free := keep (v.pool tier).free, resv := keep (v.pool tier).resv })

/-! ### Packages of a context -/

/-- The package that a handle names in a context (R396). -/
def packageOf (x : Ctx) (h : BitVec 32) : Option Package :=
  match tblGet x.packages (h.toNat % 64) with
  | some p => if p.handle = h then some p else none
  | none => none

/-- The table slot of KV pages of a package (R291, R381 KVSLOT); of Fallow recurrent state (STSLOT). -/
def kvSlot (p : Package) : Option Nat := packageSlot p.slotbase (fieldAt p.manifest 50 1)
def stateSlot (p : Package) : Option Nat := packageSlot p.slotbase (fieldAt p.manifest 51 1)

/-- Recurrent layer r of a manifest (R383): bytes of its slot (R202), and its chunk length. -/
def recSlotBytes (m : List Byte) (r : Nat) : Nat :=
  let a := 2176 + 16 * r
  fieldAt m a 1 * fieldAt m (a + 4) 2 * fieldAt m (a + 6) 2 * 4 + fieldAt m (a + 8) 4
def recChunkLen (m : List Byte) (r : Nat) : Nat := 64 * 2 ^ (fieldAt m (2176 + 16 * r + 1) 1)
/-- Data pages of one region of layer r. -/
def recPages (m : List Byte) (r : Nat) : Nat := (recSlotBytes m r + 65535) / 65536
/-- Number of recurrent layers. -/
def nrec (m : List Byte) : Nat := fieldAt m 42 1
/-- First device-virtual page of region q of layer r of stream i (R203). -/
def regionPage (i r q : Nat) : Nat := (0x600000000000 + (i * 32 + r) * 0x800000 + q * 0x40000) / 65536

/-- Backs pages with quads of a tier, one for each (R169, R205). -/
def backPages (x : Ctx) (tier : Bool) : List Nat → List Nat → Ctx
  | v :: vs, q :: qs => backPages { x with winPages := tblPut x.winPages v { tier := tier, quad := q } } tier vs qs
  | _, _ => x

/-- Pages of the leaf, exponent and slot windows that index j of stream i needs, one layer count L (R167, R169). -/
def tablePages (layers i j : Nat) : List Nat :=
  let leaf0 := 0x700000000000 + (i * 1024 + j) * layers * 16
  let exp0 := 0x710000000000 + (i * 1024 + j) * layers * 256
  let slot0 := 0x780000000000 + (i * 1024 + j) * 512
  [leaf0 / 65536, (leaf0 + 16 * layers - 1) / 65536, exp0 / 65536, (exp0 + 256 * layers - 1) / 65536, slot0 / 65536].eraseDups

/-- Those of them that nothing backs yet. -/
def unbackedPages (x : Ctx) (layers i : Nat) (js : List Nat) : List Nat :=
  ((js.flatMap (tablePages layers i)).eraseDups).filter fun v => (tblGet x.winPages v).isNone

/-- Table pages of a stream that no other open stream of the context shares (R169). -/
def soleTablePages (s : State) (c i : Nat) : List Nat :=
  let mine := ((List.range (pplOf (streamOf s i).layers)).flatMap (tablePages (streamOf s i).layers i)).eraseDups
  match ctxOf s c with
  | none => []
  | some x =>
    (x.winPages.filter fun p => mine.contains p.1 && !(s.streams.any fun t =>
      t.1 != i && t.2.ctx == c && t.2.state != .closed &&
        (List.range (pplOf t.2.layers)).any fun j => (tablePages t.2.layers t.1 j).contains p.1)).map Prod.fst

/-- Region pages of a stream that are backed, all regions and layers, from the context's table. -/
def regionPages (x : Ctx) (i : Nat) : List (Nat × WinPage) :=
  x.winPages.filter fun p => decide (regionPage i 0 0 ≤ p.1) && decide (p.1 < regionPage (i + 1) 0 0)

/-! ### Translation tables (R261, R267, R269) -/

/-- Takes one frame for a table, from a quad in use, else from the free pool and then from the reserve (R176, R261). -/
def takeFrame (x : Ctx) : Option (Nat × Ctx) :=
  let fresh := (x.pool0.free ++ x.pool0.resv).take 1
  match placeRun x.pool0 1 fresh with
  | none => none
  | some (f, p, left) =>
    let gone := if left.isEmpty then fresh else []
    some (f, { x with pool0 := { p with free := p.free.filter fun q => !gone.contains q, resv := p.resv.filter fun q => !gone.contains q } })

/-- Takes one frame for each missing level-1 and level-2 table (R261). -/
def takeLower (x : Ctx) : List Nat → Option Ctx
  | [] => some x
  | k :: ks =>
    if (tblGet x.tables k).isSome then takeLower x ks
    else match takeFrame x with
      | none => none
      | some (f, y) => takeLower { y with tables := tblPut y.tables k f } ks

/-- Takes the frames of the tables that are missing, the root's with the context's first load (R261, R267; when the root takes its
frame is a DESIGN CHOICE, log 44). -/
def takeTables (x : Ctx) (keys : List Nat) : Option Ctx :=
  match x.root with
  | some _ => takeLower x keys
  | none => match takeFrame x with
    | none => none
    | some (f, y) => takeLower { y with root := some f } keys

/-- Cached copies of the entries of a package window leave every translation cache (R272). -/
def invalidateWindow (s : State) (c n : Nat) : State :=
  { s with
    hbm := { s.hbm with tlb := s.hbm.tlb.filter fun k => !(decide (k.1 = c) && decide (k.2 / 2 ^ 24 = n))
                        tlb1 := s.hbm.tlb1.filter fun k => !(decide (k.1 = c) && decide (k.2 / 2 ^ 13 = n)) }
    tiles := tblMap s.tiles fun _ t => if t.ctx = c then { t with tlb := t.tlb.filter fun v => decide (v / 2 ^ 24 ≠ n) } else t }

/-! ### The drain of an epoch (R178, R179, R269) -/

/-- Ends what waited for an epoch: KV_UNMAP, STREAM_CLOSE and PACKAGE_UNLOAD complete (R188, R209, R399). -/
def completeWaiters (s : State) (c id : Nat) : State :=
  ((s.docket.entries.filter fun p => decide (p.2.hdr.fn.toNat = c) && p.2.epoch == some id).map Prod.fst).foldl
    (fun u e =>
      match entryOf u e with
      | some x => finish u e (x.status.getD stSuccess)
      | none => u) s

/-- A package leaves its window: its key is zeroed, its counter and slot ranges are released, and its slots empty (R399). -/
def unloadPackage (s : State) (c : Nat) (h : BitVec 32) : State :=
  match ctxOf s c with
  | none => s
  | some x =>
    match packageOf x h with
    | none => s
    | some p =>
      let n := h.toNat % 64
      let s1 := setCtx s c { x with packages := tblDel x.packages n, contentKeys := tblDel x.contentKeys n }
      (List.range (fieldAt p.manifest 13 1)).foldl (fun u i =>
        let g := x.slotBase + p.slotbase + i
        setSlot u g { slotOf u g with cur := none, prev := none }) s1

/-- Everything that an epoch releases, once every operation that started before it closed has retired. -/
def drainEpoch (s : State) (c : Nat) (p : Epoch) : State :=
  let s1 := p.runs.foldl releaseRun s
  let s2 := if p.handle.isSome then p.quads1.foldl (fun u q => quadWipe u true q) (p.quads0.foldl (fun u q => quadWipe u false q) s1)
    else s1
  let s3 := modCtx s2 c fun x =>
    { x with
      pool0 := p.frames.foldl (fun g f => g.freeRun f 1) (p.quads0.foldl Pool.giveFreed x.pool0)
      pool1 := p.quads1.foldl Pool.giveFreed x.pool1
      closed := x.closed.filter fun k => k.id != p.id
      hwins := tblMap x.hwins fun _ w => if w.busyEpoch = some p.id then { w with busyEpoch := none } else w }
  let s4 := { s3 with streams := tblMap s3.streams fun _ t =>
      if t.ctx = c then { t with held := t.held.filter fun k => k.epoch != p.id } else t }
  let s5 := match p.handle with
    | some h => unloadPackage s4 c h
    | none => s4
  let s6 := match p.streamClose with
    | some i => { s5 with streams := tblDel s5.streams i }
    | none => s5
  completeWaiters s6 c p.id

/-- An operation still holds back an epoch that it started before. A request whose unsettled streams all wait in GROWTH_WAIT
holds none (R180). -/
def holdsEpoch (s : State) (w : Nat) : Bool :=
  match entryOf s w with
  | none => false
  | some x =>
    let open_ := x.parts.filter fun p => p.outcome.isNone
    !(!open_.isEmpty && open_.all fun p => p.waiting)

/-- A block in flight still holds a reference on a generation of a slot of the package that an epoch unloads (R399 step 7). -/
def slotsHeld (s : State) (c : Nat) (p : Epoch) : Bool :=
  match ctxOf s c with
  | none => false
  | some x =>
    match p.handle.bind (packageOf x) with
    | none => false
    | some q => (List.range (fieldAt q.manifest 13 1)).any fun i =>
        let sl := slotOf s (x.slotBase + q.slotbase + i)
        !(genFree s sl.cur && genFree s sl.prev)

/-- EPOCH_DRAIN: the epoch drains once no operation holds it, and that of an unload once its slots can empty; otherwise nothing changes
(R179, R399, log 3). -/
def epochDrain (s : State) (c id : Nat) : State :=
  match (ctxOf s c).bind fun x => x.closed.find? fun p => p.id == id with
  | some p => if p.waits.any (holdsEpoch s) || slotsHeld s c p then s else drainEpoch s c p
  | none => s

end Sys2Proof.Machine
end

