-- ==== Sys2Proof/Machine/Transfers.lean ====
section
/-! DEFINITION. NOP, SYNC_WAIT, SYNC_SIGNAL and COPY (R358, R359), POOL_GROW and POOL_SHRINK (R191 to R193). -/

namespace Sys2Proof.Machine

/-- The context that an entry acts on. -/
def Entry.ctx (x : Entry) : Nat := x.hdr.fn.toNat

/-- Service class of an entry's HBM traffic: 0 RT, 1 OVERDUE, 2 IA, 3 BK (R241, R247). -/
def Entry.service (x : Entry) : Nat :=
  if x.hdr.cls = 0 then 0 else if x.overdue then 1 else if x.hdr.cls = 1 then 2 else 3

/-! ### Sync commands (R358) -/

/-- Admission check of SYNC_WAIT and SYNC_SIGNAL: the counter lies in the window. -/
def syncCheck (s : State) (c : Nat) (b : SyncBody) : Option (BitVec 8) :=
  if (syncIndex s c b.cidx.toNat).isSome then none else some stInvalid

/-- SYNC_SIGNAL starts: the counter grows (R100); an addition that poisons it ends the job with cause 0x0E (R358). -/
def startSyncSignal (s : State) (e : Nat) (x : Entry) (b : SyncBody) : State :=
  match syncIndex s x.ctx b.cidx.toNat with
  | none => finish s e stInvalid
  | some g =>
    let r := addSync s g b.value.toNat
    if r.2 then finish (faultJob r.1 x.ctx 0x0E 0 true) e stJobFaulted else finish r.1 e stSuccess

/-- SYNC_WAIT is met, or its counter is POISONED (R249, R358): it retires. Otherwise nothing changes. -/
def retireSyncWait (s : State) (e : Nat) : State :=
  match entryOf s e with
  | none => s
  | some x =>
    match x.cmd with
    | .syncWait b =>
      (match syncIndex s x.ctx b.cidx.toNat with
       | none => s
       | some g =>
         let v := syncOf s g
         if x.state = .fetched then s
         else if v.poisoned then finish s e stPoisoned
         else if b.value.toNat ≤ v.value.toNat then finishWith s e stSuccess v.value.toNat
         else s)
    | _ => s

/-! ### COPY (R359) -/

/-- CSLOT names a slot of the context, or is the 0 that names none (R291, R359). -/
def cslotOk (s : State) (c cslot : Nat) : Bool :=
  match ctxOf s c with
  | some x => decide (cslot < x.slotCount) || (cslot == 0 && x.slotCount == 0)
  | none => false

/-- Admission check of COPY. -/
def copyCheck (s : State) (c : Nat) (b : CopyBody) : Option (BitVec 8) :=
  if 2 < b.dir.toNat ∨ !(cslotOk s c b.cslot.toNat) ∨ b.len.toNat < 32 ∨ 2 ^ 36 < b.len.toNat ∨ b.len.toNat % 32 ≠ 0 ∨
      b.src.toNat % 32 ≠ 0 ∨ b.dst.toNat % 32 ≠ 0 then some stInvalid
  else none

/-- How a piece of a COPY ends. -/
inductive CopyEnd where
  | done
  | failed (e : AccessErr)
  | rule                          -- R94 broken: CAUSE 0x07
deriving DecidableEq, Repr

/-- The 4,096-byte rule of R94 for the bytes of a piece, which lie in at most two pages; `ok`: the side's first address and
LEN are multiples of 4,096. -/
def codedRule (s : State) (c va n : Nat) (ok : Bool) : Bool :=
  ok || (!codedSide s c va && !codedSide s c (va + n - 1))

/-- Reads a piece of the source. -/
def copyRead (s : State) (c cls : Nat) (src : Source) (host : Bool) (a n : Nat) : Got × State :=
  if host then
    match hostRead s a n with
    | .data bs => (.ok bs, s)
    | .error => (.err (.lower stLowerError), s)
    | .late => (.err .late, s)
  else readVA s c a n cls src

/-- A piece ends with a 64 KiB page of the device side: of the destination, or of the source when that is the only one. -/
def pieceLen (dir src dst n : Nat) : Nat := min n (65536 - (if dir = 1 then src else dst) % 65536)

/-- Runs a COPY piece by piece. `okS`, `okD`: each side keeps the 4,096-byte rule. Answers how it ended, the bytes moved and the
state. -/
def copyGo (c cls : Nat) (who : Source) (slot : Option Nat) (dir : Nat) (okS okD : Bool) (total : Nat) :
    Nat → State → Nat → Nat → Nat → CopyEnd × Nat × State
  | 0, s, _, _, left => (.done, total - left, s)
  | fuel + 1, s, src, dst, left =>
    if left = 0 then (.done, total, s)
    else
      let n := pieceLen dir src dst left
      if (dir ≠ 0 ∧ !codedRule s c src n okS) ∨ (dir ≠ 1 ∧ !codedRule s c dst n okD) then (.rule, total - left, s)
      else
        match copyRead s c cls who (dir == 0) src n with
        | (.err f, s1) => (.failed f, total - left, s1)
        | (.ok bs, s1) =>
          if dir = 1 then
            copyGo c cls who slot dir okS okD total fuel (if takesDma s1 c then hostWrite s1 dst bs else s1) (src + n) (dst + n) (left - n)
          else
            match writeVA s1 c dst bs slot cls who with
            | (some f, s2) => (.failed f, total - left, s2)
            | (none, s2) => copyGo c cls who slot dir okS okD total fuel s2 (src + n) (dst + n) (left - n)

/-- Bytes that a failed COPY had written are unpredictable (R278, R359): in the context's space, or in host memory. -/
def scrubCopy (s : State) (c : Nat) (b : CopyBody) (n : Nat) (slot : Option Nat) : State :=
  let bs := (List.range n).map fun i => Config.freeByte (b.dst.toNat + i) s.drawn
  let s1 := { s with drawn := s.drawn + 1 }
  if n = 0 then s
  else if b.dir = 1 then (if takesDma s1 c then hostWrite s1 b.dst.toNat bs else s1)
  else (writeVA s1 c b.dst.toNat bs slot 3 .engine).2

/-- COPY runs to its end (R359). -/
def startCopy (s : State) (e : Nat) (x : Entry) (b : CopyBody) : State :=
  let c := x.ctx
  let slot := namedSlot s c b.cslot.toNat
  let n := b.len.toNat
  let ok (a : BitVec 64) : Bool := decide (a.toNat % 4096 = 0) && decide (n % 4096 = 0)
  match copyGo c x.service (Source.engineOf e) slot b.dir.toNat (ok b.src) (ok b.dst) n (n / 32 + 2) s b.src.toNat b.dst.toNat n with
  | (.done, _, s1) => finish s1 e stSuccess
  | (.failed f, n, s1) => failEngine (scrubCopy s1 c b n slot) e f
  | (.rule, n, s1) => faultRequest (scrubCopy s1 c b n slot) e 0x07 0

/-! ### POOL_GROW and POOL_SHRINK (R191 to R193) -/

/-- Admission check of both: a tier, QUADS and a target in range; RTGT 0 unless SETRES. -/
def poolCheck (b : PoolBody) : Option (BitVec 8) :=
  if 1 < b.tier.toNat ∨ 2 ≤ b.flags.toNat ∨ 2 ^ 24 ≤ b.quads.toNat ∨ 2 ^ 24 ≤ b.rtgt.toNat ∨
      (!b.flags.getLsbD 0 ∧ b.rtgt ≠ 0) then some stInvalid
  else none

/-- Moves whole free quads into the reserve up to its target, or the excess back (R192). -/
def Pool.balance (p : Pool) : Pool :=
  if p.resv.length < p.rtgt then
    let n := p.rtgt - p.resv.length
    { p with resv := p.resv ++ p.free.take n, free := p.free.drop n }
  else { p with resv := p.resv.take p.rtgt, free := p.free ++ p.resv.drop p.rtgt }

/-- Sets the reserve target. -/
def Pool.setTarget (p : Pool) (b : PoolBody) : Pool :=
  if b.flags.getLsbD 0 then { p with rtgt := b.rtgt.toNat }.balance else p

/-- The target breaks the quota (R192). -/
def Pool.targetBad (p : Pool) (b : PoolBody) : Bool := b.flags.getLsbD 0 && decide (p.quota < b.rtgt.toNat)

/-- POOL_GROW (R192). -/
def startPoolGrow (s : State) (e : Nat) (x : Entry) (b : PoolBody) : State :=
  let tier := b.tier == 1
  match ctxOf s x.ctx with
  | none => finish s e stContextLost
  | some k =>
    let p := k.pool tier
    if p.quota < p.all.length + b.quads.toNat ∨ p.targetBad b then finish s e stNotPermitted
    else
      match storeTake s tier b.quads.toNat with
      | none => finish s e stExhausted
      | some (qs, s1) =>
        let p1 := { p with all := p.all ++ qs, free := p.free ++ qs }
        let p2 := if b.flags.getLsbD 0 then p1.setTarget b else p1
        finish (setCtx s1 x.ctx (k.setPool tier p2)) e stSuccess

/-- POOL_SHRINK (R193). -/
def startPoolShrink (s : State) (e : Nat) (x : Entry) (b : PoolBody) : State :=
  let tier := b.tier == 1
  match ctxOf s x.ctx with
  | none => finish s e stContextLost
  | some k =>
    let p := k.pool tier
    if (k.growth.any fun g => g.2 == tier) ∨ p.targetBad b then finish s e stNotPermitted
    else if p.free.length < b.quads.toNat then finish s e stExhausted
    else
      let out := p.free.take b.quads.toNat
      let p1 := { p with all := p.all.filter fun q => !out.contains q
                         free := p.free.drop b.quads.toNat }
      let s1 := out.foldl (fun u q => quadWipe u tier q) (setCtx s x.ctx (k.setPool tier (p1.setTarget b)))
      finish (storeGive s1 tier out) e stSuccess

end Sys2Proof.Machine
end

