-- ==== Sys2Proof/Machine/Tables.lean ====
section
/-! DEFINITION. TABLE_LOAD and the installs that wait for a frame boundary (R296 to R301). -/

namespace Sys2Proof.Machine

/-- Slots of a package or of a load in progress: (first, count). -/
def slotRange (slotbase : Nat) (manifest : List Byte) : Nat × Nat := (slotbase, fieldAt manifest 13 1)

/-- Counter range of a package: (first, count). -/
def counterRange (cbase : Nat) (manifest : List Byte) : Nat × Nat := (cbase, fieldAt manifest 48 2)

/-- Two ranges of indices meet. -/
def rangesMeet (a b : Nat × Nat) : Bool := decide (a.1 < b.1 + b.2) && decide (b.1 < a.1 + a.2)

/-- PACKAGE_LOADs of context c that are in progress past their step 4: (entry, body, manifest). -/
def loadsOf (s : State) (c : Nat) : List (Nat × PackageLoadBody × List Byte) :=
  s.docket.entries.filterMap fun p =>
    match p.2.cmd with
    | .packageLoad b => if p.2.ctx = c ∧ !p.2.image.isEmpty then some (p.1, b, p.2.image) else none
    | _ => none

/-- The slot belongs to a package of context c that is loaded or being loaded (R397). -/
def slotOfPackage (s : State) (c slot : Nat) : Bool :=
  (match ctxOf s c with
   | some x => x.packages.any fun p => rangesMeet (slotRange p.2.slotbase p.2.manifest) (slot, 1)
   | none => false) ||
  (loadsOf s c).any fun l => rangesMeet (slotRange l.2.1.slotbase.toNat l.2.2) (slot, 1)

/-- Admission check of TABLE_LOAD (R299). -/
def tableCheck (s : State) (c : Nat) (b : TableLoadBody) : Option (BitVec 8) :=
  let count := match ctxOf s c with | some x => x.slotCount | none => 0
  let fields : Bool :=
    if b.mode = 0 then b.npc == 0 && b.nblk == 0 && decide (b.src.toNat % 64 = 0)
    else if b.mode = 1 then
      decide (b.npc.toNat < 4) && decide (1 ≤ b.nblk.toNat) && decide (b.nblk.toNat ≤ 256) && decide (b.src.toNat % 4096 = 0)
    else false
  if count ≤ b.slot.toNat ∨ !fields ∨ b.result.toNat % 8 ≠ 0 then some stInvalid
  else if slotOfPackage s c b.slot.toNat then some stNotPermitted
  else none

/-- Reads the image of a TABLE_LOAD, or builds it from the sample (R299, R300). -/
def tableSource (s : State) (c cls : Nat) (who : Source) (b : TableLoadBody) : Got × State :=
  if b.mode = 0 then
    match readVA s c b.src.toNat 16 cls who with
    | (.ok h, s1) => readVA s1 c b.src.toNat (16 + 128 * planeCount (BitVec.ofNat 2 (fieldAt h 0 1))) cls who
    | r => r
  else
    let npc := BitVec.ofNat 2 b.npc.toNat
    match readVA s c b.src.toNat (4096 * b.nblk.toNat) cls who with
    | (.ok d, s1) => (.ok (tableImage npc (buildTables npc d)), s1)
    | r => r

/-- The image is read and checked; the install becomes due at the next frame boundary (R298). -/
def startTableLoad (s : State) (e : Nat) (x : Entry) (b : TableLoadBody) : State :=
  if slotOfPackage s x.ctx b.slot.toNat then finish s e stNotPermitted
  else
    match tableSource s x.ctx x.service (Source.engineOf e) b with
    | (.err f, s1) => failEngine s1 e f
    | (.ok img, s1) =>
      if (parseImage img).isNone then finish s1 e stInvalid
      else modEntry s1 e fun y => { y with image := img, due := false }

/-- The context slot that a TABLE_LOAD installs into. -/
def waitingSlot (x : Entry) : Option Nat :=
  match x.cmd with
  | .tableLoad b => some b.slot.toNat
  | _ => none

/-- Installs a TABLE_LOAD's table once it is due and its slot can take it, in admission order per slot: an earlier one that still
waits to start holds a later one back too (R298). -/
def installTableLoad (s : State) (e : Nat) (x : Entry) (b : TableLoadBody) : State :=
  let c := x.ctx
  let first := !(s.docket.entries.any fun p =>
    decide (p.2.ctx = c) && decide (p.2.seq < x.seq) && waitingSlot p.2 == some b.slot.toNat)
  match parseImage x.image, ctxSlot s c b.slot.toNat with
  | some (npc, lengths), some sl =>
    if x.due && first && canInstall s sl then
      let r := installTable s c b.slot.toNat npc lengths x.service
      let s1 := if b.result ≠ 0 ∧ takesDma r.2.2 c then hostWrite r.2.2 b.result.toNat (leBytes 8 r.1) else r.2.2
      finish s1 e stSuccess
    else s
  | _, _ => s

/-- A frame boundary makes every table install that waits due (R298). -/
def markTablesDue (s : State) : State :=
  { s with docket := { s.docket with entries := tblMap s.docket.entries fun _ x =>
      match x.cmd with
      | .tableLoad _ => if x.dispatched then { x with due := true } else x
      | .packageLoad _ => if x.dispatched then { x with due := true } else x
      | _ => x } }

end Sys2Proof.Machine
end

