-- ==== Sys2Proof/Machine/Streams.lean ====
section
/-! DEFINITION. STREAM_OPEN, STREAM_CLOSE, STREAM_PARK, STREAM_UNPARK and the swap-in (R205 to R209, R220 to R228), KV_MAP and
KV_UNMAP (R183 to R190). -/

namespace Sys2Proof.Machine

/-- Stream i is open in context c: not CLOSED, and no STREAM_CLOSE of it has taken effect (R138, R209). -/
def openIn (s : State) (c i : Nat) : Bool :=
  let t := streamOf s i
  decide (t.ctx = c) && decide (t.state ≠ .closed) && !t.closing

/-- Streams that a context holds (R208). -/
def openCount (s : State) (c : Nat) : Nat := (s.streams.filter fun p => decide (p.2.ctx = c) && decide (p.2.state ≠ .closed)).length

/-! ### STREAM_OPEN (R208) -/

/-- Admission check of STREAM_OPEN: the fields of its body; the package is looked up when it starts. -/
def openCheck (s : State) (c : Nat) (b : StreamOpenBody) : Option (BitVec 8) :=
  let known := match ctxOf s c with
    | some x => (match packageOf x b.pkg with | some p => !p.unloading | none => false)
    | none => false
  if 4 ≤ b.profile.toNat ∨ b.result.toNat % 8 ≠ 0 ∨ !known then some stInvalid else none

/-- The n-th free Stream Table entry, counted from ID 0 (log 4). -/
def freeStream (s : State) (n : Nat) : Nat → Nat → Nat
  | 0, i => i
  | fuel + 1, i =>
    if (tblGet s.streams i).isSome then freeStream s n fuel (i + 1)
    else match n with
      | 0 => i
      | m + 1 => freeStream s m fuel (i + 1)

/-- Pages of region 0 of every recurrent layer of stream i. -/
def regionZeroPages (m : List Byte) (i : Nat) : List Nat :=
  (List.range (nrec m)).flatMap fun r => (List.range (recPages m r)).map fun k => regionPage i r 0 + k

/-- STREAM_OPEN starts. -/
def startStreamOpen (s : State) (e : Nat) (x : Entry) (b : StreamOpenBody) : State :=
  let c := x.ctx
  match ctxOf s c with
  | none => finish s e stContextLost
  | some k =>
    match packageOf k b.pkg with
    | none => finish s e stInvalid
    | some p =>
      if p.unloading then finish s e stInvalid
      else if k.streamQuota ≤ openCount s c then finish s e stNotPermitted
      else if 65536 ≤ s.streams.length then finish s e stExhausted
      else
        let (v, s1) := drawNat s
        let i := freeStream s1 (v % (65536 - s1.streams.length)) 65536 0
        let pages := regionZeroPages p.manifest i
        match k.pool1.takeWhole pages.length true with
        | none => finish s1 e stExhausted
        | some (qs, pool, _) =>
          let s2 := qs.foldl (fun u q => quadWipe u true q) (setCtx s1 c (backPages { k with pool1 := pool } true pages qs))
          let t := { Stream.reset with
            state := .active, ctx := c, handle := b.pkg, profile := BitVec.ofNat 2 b.profile.toNat
            layers := fieldAt p.manifest 40 1, heads := fieldAt p.manifest 41 1, kvTier := p.kvTier }
          let s3 := setStream s2 i t
          finish (if takesDma s3 c then hostWrite s3 b.result.toNat (leBytes 8 i) else s3) e stSuccess

/-! ### STREAM_CLOSE (R209) -/

/-- Parts of other requests whose stream i waits in GROWTH_WAIT end with CANCELLED (R209). -/
def cancelWaits (s : State) (i : Nat) : State :=
  s.docket.entries.foldl (fun u p =>
    (List.range p.2.parts.length).foldl (fun v j =>
      match p.2.parts[j]? with
      | none => v
      | some q =>
        if q.stream = i ∧ q.waiting ∧ q.outcome.isNone then
          let v1 := modCtx v p.2.ctx fun k =>
            ({ k with growth := k.growth.filter fun g => g.1 != i } : Ctx).giveBack (streamOf v i).kvTier q.reserved q.recReserved
          let v2 := modEntry v1 p.1 fun y =>
            { y with parts := y.parts.set j { q with reserved := [], recReserved := [] } }
          settlePart v2 p.1 j stCancelled 0 (streamOf v2 i).positions.toNat 0 []
        else v) u) s

/-- Keys of the runs that a stream's leaves name. -/
def leafRuns (t : Stream) : List Nat := (t.leaves.filter fun p => p.2.map).map fun p => runKey p.2

/-- The close point: every KV index is unmapped, every region and table page released with the epoch, whose drain completes
the command, makes the stream CLOSED and frees the ID (R207, R209). -/
def closePoint (s0 : State) (e : Nat) (x : Entry) (i : Nat) : State :=
  let c := x.ctx
  let s := cancelWaits s0 i
  match ctxOf s c with
  | none => finish s e stContextLost
  | some k =>
    let t := streamOf s i
    let regions := regionPages k i
    let sole := soleTablePages s c i
    let tables := k.winPages.filter fun p => sole.contains p.1
    let gone := regions ++ tables
    let k1 := { k with winPages := k.winPages.filter fun p => !gone.contains p, growth := k.growth.filter fun g => g.1 != i }
    let s1 := setStream (setCtx s c k1) i { t with closing := true, leaves := [], pending := none, tree := none }
    let r := closeEpoch s1 c (some e)
      { Epoch.none_ with
        runs := leafRuns t
        quads0 := (gone.filter fun p => !p.2.tier).map fun p => p.2.quad
        quads1 := (gone.filter fun p => p.2.tier).map fun p => p.2.quad
        streamClose := some i }
    modEntry r.1 e fun y => { y with epoch := some r.2 }

/-- STREAM_CLOSE starts. -/
def startStreamClose (s : State) (e : Nat) (x : Entry) (i : Nat) : State :=
  if openIn s x.ctx i then closePoint s e x i else finish s e stInvalid

/-! ### Parking (R221 to R228) -/

/-- Entries that consume stream i: STEP, PREFILL and REC_CHUNK naming it (R220). -/
def consumers (s : State) (i : Nat) : List (Nat × Entry) :=
  s.docket.entries.filter fun p =>
    p.2.parent.isNone &&
    (match p.2.cmd with
     | .step _ => p.2.parts.any fun q => q.stream == i
     | .prefill b => b.stream.toNat == i
     | .recChunk b => b.stream.toNat == i
     | _ => false)

/-- The runs that a park or a swap-in moves: those that the stream's leaves name in the tier it leaves. KV that the compiler assigned
to HBM stays (R224, R225). -/
def movedRuns (t : Stream) (toHbm : Bool) : List Nat :=
  if t.kvTier then (leafRuns t).eraseDups.filter fun k => decide (2 ^ 24 ≤ k) == toHbm else []

/-- How a park or a swap-in ends. -/
inductive SwapEnd where
  | done
  | short                         -- the pool of the tier it goes to cannot hold the state
  | lost (cause unit : Nat)       -- the state cannot be read: the stream becomes FAULTED
deriving DecidableEq, Repr

/-- The end that a failed read of a stream's state gives. -/
def AccessErr.swapEnd : AccessErr → SwapEnd
  | .device cause unit => .lost cause unit
  | _ => .lost 0x20 0

/-- Copies runs into another tier (R224, R225): each as one new run that as many leaves of stream i name as named the old one.
Answers the new leaf fields by old run. -/
def copyRuns (c i : Nat) (toHbm resv : Bool) (slot : Option Nat) (v : Service) : List Nat → State → SwapEnd × Tbl KvLeaf × State
  | [], s => (.done, [], s)
  | key :: rest, s =>
    let t := streamOf s i
    match tblGet s.runs key with
    | none => copyRuns c i toHbm resv slot v rest s
    | some r =>
      match readPage s key r v with
      | (.error f, s0) => (f.swapEnd, [], s0)
      | (.ok bytes, s0) =>
        match writeFrom s0 c t.heads (!toHbm) slot bytes resv v with
        | none => (.short, [], s0)
        | some (leaf, s1) =>
          let n := ((leafRuns t).filter fun k => k == key).length
          let s2 := { s1 with runs := tblMap s1.runs fun k r => if k = runKey leaf then { r with refs := n } else r }
          match copyRuns c i toHbm resv slot v rest s2 with
          | (.done, made, s3) => (.done, tblPut made key leaf, s3)
          | other => other

/-- The leaves of a stream remapped onto new runs (R224, R225). -/
def remapRuns (t : Stream) (made : Tbl KvLeaf) : Stream :=
  { t with leaves := tblMap t.leaves fun _ l =>
      if l.map then match tblGet made (runKey l) with | some n => { n with live := l.live } | none => l else l }

/-- Copies one data page into a quad of the other tier: into HBM block by block against a slot, or out of it (R224, R225, R291). -/
def copyQuad (s : State) (c : Nat) (toHbm : Bool) (slot : Option Nat) (old new : Nat) (v : Service) : SwapEnd × State :=
  (List.range 16).foldl (fun acc b =>
    match acc with
    | (.done, u) =>
      if toHbm then (.done, writeHbm u c new b slot (sramRead u old (4096 * b) 4096) v)
      else
        (match readHbm u c old b v with
         | (.ok raw, u1) => (.done, sramWrite u1 new (4096 * b) raw)
         | (.error f, u1) => (f.swapEnd, u1))
    | e => e) (.done, s)

/-- Copies the pages of region 0 into new quads (R224, R225). -/
def copyRegion (s : State) (c : Nat) (toHbm : Bool) (slot : Option Nat) (pages : List (Nat × WinPage)) (qs : List Nat)
    (v : Service) : SwapEnd × State :=
  (pages.zip qs).foldl (fun acc p =>
    match acc with
    | (.done, u) => copyQuad u c toHbm slot p.1.2.quad p.2 v
    | e => e) (.done, s)

/-- Region 0 and the runs that `made` copied are remapped at one point, and one epoch holds the old frames (R224, R225). -/
def moveRegion (s : State) (c i : Nat) (toHbm : Bool) (e : Option Nat) (pages : List (Nat × WinPage)) (qs : List Nat)
    (made : Tbl KvLeaf) : State :=
  let s2 := modCtx s c fun k =>
    { k with winPages := (pages.zip qs).foldl (fun w p => tblPut w p.1.1 { tier := !toHbm, quad := p.2 }) k.winPages }
  let t := streamOf s2 i
  let s3 := setStream s2 i { remapRuns t made with state := if toHbm then .fallow else .active }
  (closeEpoch s3 c e
    { Epoch.none_ with
      runs := (leafRuns t).filter fun k => (tblGet made k).isSome
      quads0 := (pages.filter fun p => !p.2.tier).map fun p => p.2.quad
      quads1 := (pages.filter fun p => p.2.tier).map fun p => p.2.quad }).1

/-- Region pages of a stream that lie in one tier. -/
def pagesIn (k : Ctx) (i : Nat) (tier : Bool) : List (Nat × WinPage) := (regionPages k i).filter fun p => p.2.tier == tier

/-- The slot of Fallow recurrent state of a stream's package (R291). -/
def streamStateSlot (k : Ctx) (t : Stream) : Option Nat := (packageOf k t.handle).bind stateSlot

/-- The slot of KV pages of a stream's package (R291). -/
def streamKvSlot (s : State) (c : Nat) (t : Stream) : Option Nat :=
  (ctxOf s c).bind fun k => (packageOf k t.handle).bind kvSlot

/-- Moves the state of stream i into the other tier: quads for region 0 from the pool of that tier, the copies, then the remap (R224,
R225). When the pool is short nothing has changed; when the state cannot be read the stream is FAULTED (R207, R229). -/
def moveStream (s : State) (c i : Nat) (toHbm resv : Bool) (v : Service) : SwapEnd × State :=
  match ctxOf s c with
  | none => (.short, s)
  | some k =>
    let t := streamOf s i
    let pages := pagesIn k i toHbm
    match (k.pool (!toHbm)).takeWhole pages.length resv with
    | none => (.short, s)
    | some (qs, pool, _) =>
      match copyRegion (setCtx s c (k.setPool (!toHbm) pool)) c toHbm (if toHbm then streamStateSlot k t else none) pages qs v with
      | (.done, s1) =>
        (match copyRuns c i toHbm resv (streamKvSlot s c t) v (movedRuns t toHbm) s1 with
         | (.done, made, s2) => (.done, moveRegion s2 c i toHbm v.entry pages qs made)
         | (.short, _, _) => (.short, s)
         | (.lost a b, _, s2) => (.lost a b, faultStream { s with hbm := s2.hbm, dbg := s2.dbg } i))
      | (.short, _) => (.short, s)
      | (.lost a b, s1) => (.lost a b, faultStream { s with hbm := s1.hbm, dbg := s1.dbg } i)

/-- STREAM_PARK starts: the outcome follows the stream's state (R221); a park copies every region 0 and every KV run of state SRAM
into HBM, from the free pool alone (R224). -/
def startPark (s : State) (e : Nat) (x : Entry) (b : ParkBody) : State :=
  let i := b.stream.toNat
  let t := streamOf s i
  if !openIn s x.ctx i then finish s e stInvalid
  else if t.state = .faulted then finish s e stJobFaulted
  else if t.state = .fallow then finish s e stSuccess
  else
    match moveStream s x.ctx i true false { cls := x.service, ctx := some x.ctx, entry := some e } with
    | (.done, s1) => finish s1 e stSuccess
    | (.short, s1) => finish s1 e stExhausted
    | (.lost cause unit, s1) => finish (faultRequest s1 e cause unit) e stJobFaulted

/-- Admission check of STREAM_PARK: FLAGS bits 7:1 are reserved. -/
def parkCheck (b : ParkBody) : Option (BitVec 8) := if 2 ≤ b.flags.toNat then some stInvalid else none

/-- A swap-in of stream i (R225, R228), for a service. The reserve counts as a RESERVE_TAKE only in the growth sequence. -/
def swapIn (s : State) (c i : Nat) (v : Service) (resv : Bool) : SwapEnd × State := moveStream s c i false resv v

/-- STREAM_UNPARK starts (R226). -/
def startUnpark (s : State) (e : Nat) (x : Entry) (i : Nat) : State :=
  let t := streamOf s i
  if !openIn s x.ctx i then finish s e stInvalid
  else if t.state = .faulted then finish s e stJobFaulted
  else if t.state ≠ .fallow then finish s e stSuccess
  else
    match swapIn s x.ctx i { cls := x.service, ctx := some x.ctx, entry := some e } true with
    | (.done, s1) => finish s1 e stSuccess
    | (.short, s1) => finish s1 e stExhausted
    | (.lost cause unit, s1) => finish (faultRequest s1 e cause unit) e stJobFaulted

/-! ### KV_MAP and KV_UNMAP (R183 to R190) -/

/-- The index (first + k) mod PPL. -/
def ringIndex (t : Stream) (first k : Nat) : Nat := (first + k) % pplOf t.layers

/-- The indices that a command names. -/
def namedIndices (t : Stream) (first n : Nat) : List Nat := (List.range n).map (ringIndex t first)

/-- Index j is mapped at some layer. -/
def mappedAny (t : Stream) (j : Nat) : Bool := (List.range t.layers).any fun l => (leafOf t l j).map

/-- Reads the leaves of an index of stream i at every layer under the check of R174: whether all of them are mapped. -/
def mappedAll (s : State) (c i j : Nat) : Bool × State :=
  (List.range (streamOf s i).layers).foldl (fun acc l =>
    let r := readLeaf acc.2 c (streamOf s i) l j
    (acc.1 && r.1.isSome, r.2)) (true, s)

/-- LIVE of index j: the same at every layer (R164). -/
def liveOf (t : Stream) (j : Nat) : BitVec 64 :=
  (List.range t.layers).foldl (fun v l => v ||| (if (leafOf t l j).map then (leafOf t l j).live else 0)) 0

/-- The number of live slots of an index. -/
def liveCount (m : BitVec 64) : Nat := ((List.range 64).filter fun r => m.getLsbD r).length

/-- Position number and score of slot r of index j (R168). -/
def slotPos (t : Stream) (j r : Nat) : Nat := memNat t.slots (512 * j + 128 + 4 * r) 4
def slotScore (t : Stream) (j r : Nat) : Nat := memNat t.slots (512 * j + 2 * r) 2

/-- Some dispatched STEP or PREFILL holds a reservation on index j of stream i (R184). -/
def reservedIndex (s : State) (i j : Nat) : Bool :=
  (consumers s i).any fun p => p.2.dispatched &&
    p.2.parts.any fun q => q.stream == i && q.outcome.isNone && q.slots.any fun w => w.1 == j

/-- Field checks of KV_MAP that need no read (R184). -/
def mapFields (t : Stream) (b : KvMapBody) : Bool :=
  decide (b.mode.toNat ≤ 1) && decide (b.first.toNat < pplOf t.layers) && decide (1 ≤ b.npages.toNat) &&
    decide (b.npages.toNat ≤ pplOf t.layers - 1) &&
    (if b.mode = 0 then b.sstream == 0 && b.sfirst == 0 && decide (b.src.toNat % 4096 = 0)
     else b.src == 0 && decide (b.sfirst.toNat < pplOf t.layers))

/-- Leaves of the named indices that alias a run: how often each run is named (R178, R186). -/
def aliasKeys (u : Stream) (ks : List Nat) : List Nat := ks.flatMap fun j => (List.range u.layers).map fun l => runKey (leafOf u l j)

/-- The conditions of R184 on the target stream and its indices. -/
def mapBad (s : State) (c : Nat) (b : KvMapBody) : Bool :=
  let i := b.stream.toNat
  let t := streamOf s i
  let js := namedIndices t b.first.toNat b.npages.toNat
  !openIn s c i || decide (t.state ≠ .active ∧ t.state ≠ .growthWait) || !mapFields t b ||
  js.any fun j => mappedAny t j || j == t.tail || reservedIndex s i j

/-- The conditions of R184 on the source of an alias. Its leaves are read under R174. -/
def sourceBad (s : State) (c : Nat) (b : KvMapBody) : Bool × State :=
  let t := streamOf s b.stream.toNat
  let i := b.sstream.toNat
  let u := streamOf s i
  let ks := namedIndices u b.sfirst.toNat b.npages.toNat
  if !openIn s c i ∨ u.handle ≠ t.handle then (true, s)
  else
    let r := ks.foldl (fun acc j =>
      let m := mappedAll acc.2 c i j
      (acc.1 && m.1, m.2)) (true, s)
    let keys := aliasKeys u ks
    let tooMany := keys.any fun k => decide (65535 < (match tblGet s.runs k with | some x => x.refs | none => 0) + keys.count k)
    let late := ks.any fun j => (List.range 64).any fun r => (liveOf u j).getLsbD r && decide (t.positions.toNat ≤ slotPos u j r)
    (!r.1 || tooMany || late, r.2)

/-- A target index is still held by an undrained epoch: the command waits (R184). -/
def mapWaits (s : State) (b : KvMapBody) : Bool :=
  let t := streamOf s b.stream.toNat
  (namedIndices t b.first.toNat b.npages.toNat).any fun j => t.held.any fun h => h.index == j

/-- Publishes an alias (R186): the source leaves, exponent records and slot record of each index. -/
def aliasIndex (s : State) (i si j k : Nat) : State :=
  let u := streamOf s si
  let t := streamOf s i
  let s1 := (List.range t.layers).foldl (fun v l =>
    let key := runKey (leafOf u l k)
    match tblGet v.runs key with
    | some r => { v with runs := tblPut v.runs key { r with refs := r.refs + 1 } }
    | none => v) s
  let leaves := (List.range t.layers).foldl (fun m l => tblPut m (128 * j + l) (leafOf u l k)) t.leaves
  let exps := memWriteN t.exps (j * t.layers * 256) (memReadN u.exps (k * t.layers * 256) (256 * t.layers))
  let slots := memWriteN t.slots (512 * j) (memReadN u.slots (512 * k) 512)
  setStream s1 i { t with leaves := leaves, exps := exps, slots := slots }

/-- Quads for the table pages that indices js of stream i need and that nothing backs yet, from the free pool (R169, R261). -/
def backTables (s : State) (c i : Nat) (js : List Nat) : Option State :=
  match ctxOf s c with
  | none => none
  | some k =>
    let t := streamOf s i
    let need := unbackedPages k t.layers i js
    match (k.pool t.kvTier).takeWhole need.length false with
    | none => none
    | some (qs, p, _) => some (setCtx s c (backPages (k.setPool t.kvTier p) t.kvTier need qs))

/-- What an import has written so far: leaves by 128 j + l, exponent bytes and slot records, to be published together. -/
structure Import where
  leaves : List (Nat × KvLeaf)
  exps : List (Nat × List Byte)
  slots : List (Nat × List Byte)

/-- How an import ends early. -/
inductive ImportEnd where
  | access (e : AccessErr)
  | status (st : BitVec 8)

/-- A raw page as a memory. -/
def bytesMem (bs : List Byte) : Memory := memWriteN [] 0 bs

/-- Imports the image `bs` of layer l of index j (R185): codes its page into a run from the free pool. -/
def importOne (s : State) (c i : Nat) (slot : Option Nat) (v : Service) (j l : Nat) (bs : List Byte) (live : BitVec 64) (a : Import) :
    Except (BitVec 8) (Import × State) :=
  let t := streamOf s i
  if (bs.drop 66056).any fun b => b != 0 then .error stInvalid
  else
    match writeFrom s c t.heads t.kvTier slot (bytesMem (bs.take 65536)) false v with
    | none => .error stExhausted
    | some (leaf, s1) =>
      let a1 := if l = 0 then
          { a with slots := (512 * j, List.replicate 128 0 ++ (bs.drop 65792).take 256 ++ List.replicate 128 0) :: a.slots }
        else a
      .ok ({ a1 with leaves := (128 * j + l, { leaf with live := live }) :: a1.leaves
                     exps := ((j * t.layers + l) * 256, (bs.drop 65536).take 256) :: a1.exps }, s1)

/-- Imports every layer of the named indices in order. Layer 0 gives the position numbers and LIVE, which must lie below the
stream's position count (R184, R185). Answers the runs written. -/
def importGo (c i : Nat) (who : Source) (v : Service) (slot : Option Nat) (b : KvMapBody) : List (Nat × Nat) → State → BitVec 64 → Import →
    Except ImportEnd Import × State × List Nat
  | [], s, _, a => (.ok a, s, a.leaves.map fun p => runKey p.2)
  | (k, l) :: rest, s, live0, a =>
    let t := streamOf s i
    let keys := a.leaves.map fun p => runKey p.2
    match readVA s c (b.src.toNat + (k * t.layers + l) * 69632) 69632 v.cls who with
    | (.err f, s1) => (.error (.access f), s1, keys)
    | (.ok bs, s1) =>
      let live := if l = 0 then BitVec.ofNat 64 (fieldAt bs 66048 8) else live0
      let late := decide (l = 0) && (List.range 64).any fun r =>
        live.getLsbD r && decide (t.positions.toNat ≤ fieldAt bs (65792 + 4 * r) 4)
      if late then (.error (.status stInvalid), s1, keys)
      else
        match importOne s1 c i slot v (ringIndex t b.first.toNat k) l bs live a with
        | .error st => (.error (.status st), s1, keys)
        | .ok (a2, s2) => importGo c i who v slot b rest s2 live a2

/-- Takes back the table pages in a tier that v backs and k did not. -/
def dropFresh (tier : Bool) (v k : Ctx) : Ctx :=
  let fresh : List (Nat × WinPage) := v.winPages.filter fun p => (tblGet k.winPages p.1).isNone
  let w : Ctx := { v with winPages := v.winPages.filter fun p => !fresh.contains p }
  w.setPool tier ((v.pool tier).giveUnused (fresh.map fun p => p.2.quad))

/-- KV_MAP publishes: the change closes the context's open epoch, which releases nothing (R179, R187). -/
def publishMap (s : State) (e c : Nat) : State := finish (closeEpoch s c (some e) Epoch.none_).1 e stSuccess

/-- An import (R185): runs and records first, then the leaves of all target indices and layers at one point. -/
def importMap (s : State) (e : Nat) (x : Entry) (b : KvMapBody) (back : State → State) : State :=
  let c := x.ctx
  let i := b.stream.toNat
  let t := streamOf s i
  let work := (List.range b.npages.toNat).flatMap fun k => (List.range t.layers).map fun l => (k, l)
  let v : Service := { cls := x.service, ctx := some c, entry := some e }
  match importGo c i (Source.engineOf e) v (streamKvSlot s c t) b work s 0 { leaves := [], exps := [], slots := [] } with
  | (.error f, s2, keys) =>
    let s3 := back (keys.foldl releaseRun s2)
    (match f with
     | .access a => failEngine s3 e a
     | .status st => finish s3 e st)
  | (.ok a, s2, _) =>
    let v := streamOf s2 i
    publishMap (setStream s2 i { v with
      leaves := a.leaves.foldl (fun m p => tblPut m p.1 p.2) v.leaves
      exps := a.exps.foldl (fun m p => memWriteN m p.1 p.2) v.exps
      slots := a.slots.foldl (fun m p => memWriteN m p.1 p.2) v.slots }) e c

/-- KV_MAP starts (R184 to R187). A FAULTED target is a target that is not ACTIVE or GROWTH_WAIT, and R184 says INVALID_COMMAND; a
FAULTED source completes the command with JOB_FAULTED (R207; DEDUCED, log 49). -/
def startKvMap (s : State) (e : Nat) (x : Entry) (b : KvMapBody) : State :=
  let c := x.ctx
  let i := b.stream.toNat
  let t := streamOf s i
  let js := namedIndices t b.first.toNat b.npages.toNat
  if mapBad s c b then finish s e stInvalid
  else if b.mode = 1 ∧ openIn s c b.sstream.toNat ∧ (streamOf s b.sstream.toNat).state = .faulted then finish s e stJobFaulted
  else
    match if b.mode = 1 then sourceBad s c b else (false, s) with
    | (true, s0) => finish s0 e stInvalid
    | (false, s0) =>
      match backTables s0 c i js with
      | none => finish s0 e stExhausted
      | some s1 =>
        let back (u : State) : State :=
          match ctxOf s c with
          | some k => modCtx u c fun v => dropFresh t.kvTier v k
          | none => u
        if b.mode = 1 then
          publishMap ((List.range b.npages.toNat).foldl (fun u k =>
            aliasIndex u i b.sstream.toNat (ringIndex t b.first.toNat k)
              (ringIndex (streamOf u b.sstream.toNat) b.sfirst.toNat k)) s1) e c
        else importMap s1 e x b back

/-- Unmaps indices of a stream at every layer (R179, R188): answers the stream and the runs that its leaves stop naming. -/
def unmapIndices (t : Stream) (js : List Nat) : Stream × List Nat :=
  let gone := t.leaves.filter fun p => js.contains (p.1 / 128) && p.2.map
  ({ t with leaves := t.leaves.filter fun p => !js.contains (p.1 / 128) }, gone.map fun p => runKey p.2)

/-- Indices of a stream change under a new epoch, which holds those that became unmapped, with the slots that were live in them (R165,
R179, R181). -/
def changeUnder (s : State) (c i : Nat) (self : Option Nat) (t : Stream) (unmapped runs : List Nat) : State × Nat :=
  let old := streamOf s i
  let r := closeEpoch (setStream s i t) c self { Epoch.none_ with runs := runs }
  let v := streamOf r.1 i
  (setStream r.1 i { v with held := v.held ++ unmapped.map fun j => { index := j, epoch := r.2, live := liveOf old j } }, r.2)

/-- KV_UNMAP starts (R188, R189): an unmapped tail stays the tail with first free slot 0. -/
def startKvUnmap (s : State) (e : Nat) (x : Entry) (b : KvUnmapBody) : State :=
  let i := b.stream.toNat
  let t := streamOf s i
  if openIn s x.ctx i ∧ t.state = .faulted then finish s e stJobFaulted
  else if !openIn s x.ctx i ∨ (t.state ≠ .active ∧ t.state ≠ .growthWait) ∨ pplOf t.layers ≤ b.first.toNat ∨ b.npages = 0 ∨
      pplOf t.layers < b.npages.toNat then finish s e stInvalid
  else
    let js := (namedIndices t b.first.toNat b.npages.toNat).filter (mappedAny t)
    let r := unmapIndices t js
    let t1 := if js.contains t.tail then { r.1 with tailFree := 0 } else r.1
    let k := changeUnder s x.ctx i (some e) t1 js r.2
    modEntry k.1 e fun y => { y with epoch := some k.2 }

end Sys2Proof.Machine
end

