-- ==== Sys2Proof/Machine/Packages.lean ====
section
/-! DEFINITION. PACKAGE_LOAD, PACKAGE_UNLOAD and ATTEST (R381 to R402). -/

namespace Sys2Proof.Machine

/-! ### Manifests (R381 to R386) -/

/-- Bytes a to a + n - 1 are zero. -/
def zeroAt (m : List Byte) (a n : Nat) : Bool := ((m.drop a).take n).all fun b => b == 0

/-- A relative slot: 0xFF, or below NSLOT. -/
def relSlotOk (m : List Byte) (v : Nat) : Bool := v == 0xFF || decide (v < fieldAt m 13 1)

/-- Entry e of the manifest keeps R382. -/
def entryOk (m : List Byte) (e : Nat) : Bool :=
  let a := 128 + 8 * e
  let kind := fieldAt m a 1
  let seg := 32 * 2 ^ fieldAt m (a + 1) 1
  decide (kind ≤ 3) && zeroAt m (a + 6) 2 &&
  (if kind = 3 then
     decide (fieldAt m (a + 1) 1 ≤ 3) && decide (fieldAt m (a + 2) 2 ≤ 64 * seg) && decide (fieldAt m (a + 4) 2 ≤ 64 * seg)
   else zeroAt m (a + 1) 5)

/-- The entries of a kind. -/
def entriesOf (m : List Byte) (kind : Nat) : List Nat :=
  (List.range 256).filter fun e => fieldAt m (128 + 8 * e) 1 == kind

/-- Recurrent layer r keeps R383 and R202. -/
def recurOk (m : List Byte) (r : Nat) : Bool :=
  let a := 2176 + 16 * r
  if r < nrec m then
    let hr := fieldAt m a 1
    let dk := fieldAt m (a + 4) 2
    let dv := fieldAt m (a + 6) 2
    let aux := fieldAt m (a + 8) 4
    decide (1 ≤ hr) && decide (hr ≤ 16) && decide (fieldAt m (a + 1) 1 ≤ 2) && decide (fieldAt m (a + 3) 1 ≤ 16) &&
      decide (16 ≤ dk) && decide (dk ≤ 256) && decide (dk % 16 = 0) && decide (16 ≤ dv) && decide (dv ≤ 256) &&
      decide (dv % 16 = 0) && decide (aux ≤ 65536) && decide (aux % 64 = 0) && decide (recSlotBytes m r ≤ 262144) &&
      zeroAt m (a + 12) 4
  else zeroAt m a 16

/-- A segment descriptor keeps R384 and R386. -/
def segmentOk (m : List Byte) (i : Nat) (g : Segment) : Bool :=
  let a := 2688 + 96 * i
  let nseg := fieldAt m 10 2
  decide (g.kind ≤ 4) && decide (g.tier ≤ 2) && relSlotOk m g.cslot && zeroAt m (a + 3) 1 && decide (1 ≤ g.pages) &&
    zeroAt m (a + 16) 16 && decide (g.woff + g.pages ≤ fieldAt m 52 4) &&
    (if g.kind = 4 then g.loff == 0 && g.digest.all (fun b => b == 0) else true) &&
    (if g.kind = 2 ∨ g.kind = 3 then g.tier == 0 && g.cslot == 0xFF else true) &&
    (if g.kind = 0 ∨ g.kind = 4 then decide (g.tier ≤ 1) else true) &&
    (if g.kind = 2 then fieldAt m 60 2 == i && decide (64 * fieldAt m 14 2 ≤ 65536 * g.pages) else true) &&
    decide (i < nseg)

/-- The page ranges of the segments do not overlap. -/
def rangesApart : List Segment → Bool
  | [] => true
  | g :: r => (r.all fun h => decide (g.woff + g.pages ≤ h.woff) || decide (h.woff + h.pages ≤ g.woff)) && rangesApart r

/-- A table-list entry (R385): relative slot, segment, offset. -/
def tableEntry (m : List Byte) (t : Nat) : Nat × Nat × Nat :=
  let a := 2688 + 96 * fieldAt m 10 2 + 8 * t
  (fieldAt m a 1, fieldAt m (a + 2) 2, fieldAt m (a + 4) 4)

/-- The table list of a manifest. -/
def tableList (m : List Byte) : List (Nat × Nat × Nat) := (List.range (fieldAt m 12 1)).map (tableEntry m)

/-- The table list keeps R385. -/
def tablesOk (m : List Byte) : Bool :=
  let segs := segmentsOf m
  let l := tableList m
  (List.range l.length).all (fun t => zeroAt m (2688 + 96 * fieldAt m 10 2 + 8 * t + 1) 1) &&
  l.all (fun t => decide (t.1 < fieldAt m 13 1) && decide (t.2.2 % 64 = 0) &&
    (match segs[t.2.1]? with | some g => g.kind == 3 | none => false)) &&
  decide ((l.map Prod.fst).eraseDups.length = l.length)

/-- A manifest unit is valid (R381, R386). -/
def manifestOk (u : List Byte) : Bool :=
  let n (a k : Nat) : Nat := fieldAt u a k
  let mlen := n 56 4
  let segs := segmentsOf u
  decide (u.take 8 = ascii "CAROPPKG") && n 8 2 == 1 && decide (1 ≤ n 10 2) && decide (n 10 2 ≤ 256) && decide (n 12 1 ≤ 64) &&
    decide (n 13 1 ≤ 64) && decide (1 ≤ n 14 2) && decide (n 14 2 ≤ 4096) && decide (1 ≤ n 40 1) && decide (n 40 1 ≤ 128) &&
    decide (1 ≤ n 41 1) && decide (n 41 1 ≤ 2) && decide (n 42 1 ≤ 32) && decide (1 ≤ n 43 1) && decide (n 43 1 ≤ 64) &&
    decide (2 ≤ n 44 4) && decide (n 44 4 ≤ 65536) && decide (n 48 2 ≤ 16384) && relSlotOk u (n 50 1) && relSlotOk u (n 51 1) &&
    decide (1 ≤ n 52 4) && decide (n 52 4 ≤ 16777216) && decide (mlen = 2688 + 96 * n 10 2 + 8 * n 12 1) && zeroAt u 62 2 &&
    zeroAt u 96 32 && (List.range 256).all (entryOk u) && decide ((entriesOf u 1).length ≤ 1) &&
    decide ((entriesOf u 2).length ≤ 1) && (List.range 32).all (recurOk u) &&
    ((List.range segs.length).all fun i => match segs[i]? with | some g => segmentOk u i g | none => false) &&
    rangesApart segs && (match segs[n 60 2]? with | some g => g.kind == 2 | none => false) && tablesOk u &&
    zeroAt u mlen (32768 - mlen) && zeroAt u 62560 (65536 - 62560)

/-! ### Keys (R379, R387, R389, R390) -/

/-- The publisher key that the stored trust list names for a PUBID. -/
def publisherKey (s : State) (pubid : Nat) : Option (List Byte) :=
  match s.flash.records with
  | none => none
  | some r =>
    ((List.range (min 16 (fieldAt r.trustRecord 12 1))).find? fun k => fieldAt r.trustRecord (128 + 80 * k) 4 == pubid).map
      fun k => (r.trustRecord.drop (128 + 80 * k + 16)).take 64

/-- Unwraps a capsule for a manifest (R390): the content key, or none when the capsule is rejected. -/
def unwrap (s : State) (m cap : List Byte) : Option (List Byte) :=
  let md := shake256 (m.take (fieldAt m 56 4)) 64
  let ss := decapsulate s ((cap.drop 96).take 1568)
  let x := shake256 (ascii "EZB9600 CKEY" ++ ss ++ (m.drop 16).take 16 ++ (m.drop 32).take 4 ++ md) 96
  let ck := xorBytes ((cap.drop 1664).take 64) (x.take 64)
  if cap.take 8 = ascii "CAROPKEY" ∧ (cap.drop 8).take 16 = (m.drop 16).take 16 ∧ (cap.drop 24).take 4 = (m.drop 32).take 4 ∧
      fieldAt cap 28 1 = s.fuses.kepoch.toNat ∧ zeroAt cap 29 3 = true ∧ (cap.drop 32).take 64 = deviceDigest s ∧
      (cap.drop 1728).take 32 = x.drop 64 ∧ shake256 (ascii "EZB9600 KCV" ++ ck) 32 = (m.drop 64).take 32 then some ck
  else none

/-! ### The model graph (R391, R392) -/

/-- A graph node. -/
structure GraphNode where
  kind : Nat
  layer : Nat
  gang : Nat
  entry : Nat
  len : Nat
  prog : Nat
  args : List Nat
  lsoff : Nat
  b : Nat
  fillc : Nat
  freec : Nat
  candoff : Nat
  pred : List Nat
deriving DecidableEq, Repr

/-- Node i of a graph segment. -/
def graphNode (g : List Byte) (i : Nat) : GraphNode :=
  let n (o k : Nat) : Nat := fieldAt g (64 * i + o) k
  { kind := n 0 1, layer := n 1 1, gang := n 2 1, entry := n 3 1, len := n 4 4, prog := n 8 8,
    args := [n 16 8, n 24 8, n 32 8], lsoff := n 40 4, b := n 44 1, fillc := n 46 2, freec := n 48 2, candoff := n 50 4,
    pred := (List.range 4).map fun k => n (56 + 2 * k) 2 }

/-- An argument keeps R392. -/
def argOk (m : List Byte) (a : Nat) : Bool :=
  let code := a / 2 ^ 60
  if code = 0 then true
  else if code = 1 then bitsOf a 59 48 == 0
  else if code = 2 then bitsOf a 59 16 == 0 && decide (a % 2 ^ 16 < fieldAt m 48 2)
  else if code = 3 then bitsOf a 59 0 == 0
  else if code = 4 then bitsOf a 59 21 == 0
  else false

/-- Bytes of the dispatch block that do not depend on rows (R391): 32 in a REC_CHUNK entry. -/
def dispatchFixed (kind : Nat) : Nat := if kind = 3 then 32 else 0

/-- A node of the graph keeps R391 to R393. -/
def nodeOk (m g : List Byte) (i : Nat) : Bool :=
  let d := graphNode g i
  let ek := fieldAt m (128 + 8 * d.entry) 1
  let segs := segmentsOf m
  decide (d.kind ≤ 4) &&
    (if d.kind = 1 then decide (d.layer < fieldAt m 40 1) else if d.kind = 2 then decide (d.layer < nrec m) else d.layer == 0) &&
    decide (1 ≤ d.gang) && decide (d.gang ≤ 96) && ek != 0 && decide (1 ≤ d.len) && decide (d.len ≤ 65536) &&
    decide (d.prog % 16 = 0) &&
    (segs.any fun s => s.kind == 0 && decide (65536 * s.woff ≤ d.prog) && decide (d.prog < 65536 * (s.woff + s.pages))) &&
    d.args.all (argOk m) && decide (d.lsoff % 64 = 0) &&
    (if d.kind = 1 then
       decide (2 ≤ d.b) && decide (d.b ≤ 32) && decide (d.fillc < fieldAt m 48 2) && decide (d.freec < fieldAt m 48 2) &&
         decide (d.lsoff + d.b * 35136 ≤ 2 ^ 21)
     else d.b == 0 && d.fillc == 0 && d.freec == 0 && d.candoff == 0) &&
    (if d.kind = 2 then decide (d.lsoff + 268352 ≤ 2 ^ 21) else true) &&
    (d.args.all fun a => a / 2 ^ 60 != 4 || decide (a % 2 ^ 21 + dispatchFixed ek ≤ 2 ^ 21)) &&
    zeroAt g (64 * i + 45) 1 && zeroAt g (64 * i + 54) 2 &&
    d.pred.all (fun p => p == 0xFFFF || (decide (p < i) && (graphNode g p).entry == d.entry))

/-- The graph keeps its rules. -/
def graphOk (m g : List Byte) : Bool := (List.range (fieldAt m 14 2)).all (nodeOk m g)

/-! ### Reading a stored segment (R388) -/

/-- The stored bytes of one page of a segment, found by its block headers under the content key; or the status. -/
def pageStored (s : State) (key : List Byte) (i k u : Nat) : Except (BitVec 8) (List Byte) :=
  (List.range 16).foldl (fun acc b =>
    match acc with
    | .error st => .error st
    | .ok bs =>
      match parseHeader (xtsDecrypt key (0x11 + 2 ^ 8 * (65536 * k + 4096 * b) + 2 ^ 64 * i) (storedBlock s u b 16)) with
      | none => .error stSizeMismatch
      | some (_, _, _, plen, _) => .ok (bs ++ storedBlock s u b ((16 + 16 * plen + 31) / 32 * 32))) (.ok [])

/-- Reads every unit of a segment: the first failure, or its stored bytes (R276, R277, R388). -/
def segmentStored (s : State) (key : List Byte) (lunit i : Nat) (g : Segment) : Except (BitVec 8) (List Byte) × State :=
  (List.range g.pages).foldl (fun acc k =>
    match acc with
    | (.error st, t) => (.error st, t)
    | (.ok bs, t) =>
      let u := lunit + g.loff + k
      match unitRead t u 0 65536 with
      | (.failed, t1) => (.error stLowerError, t1)
      | (.late, t1) => (.error stLowerLate, t1)
      | (.good, t1) =>
        match pageStored t1 key i k u with
        | .error st => (.error st, t1)
        | .ok d => (.ok (bs ++ d), t1)) (.ok [], s)

/-- The raw bytes of page k of a segment. -/
def pageRaw (s : State) (key : List Byte) (slot : Nat → Nat → Option Generation) (lunit i : Nat) (g : Segment) (k : Nat) :
    Except (BitVec 8) (List Byte) :=
  (List.range 16).foldl (fun acc b =>
    match acc with
    | .error st => .error st
    | .ok bs =>
      match decodeStored s key slot i k (lunit + g.loff + k) b with
      | .error st => .error st
      | .ok (raw, _) => .ok (bs ++ raw)) (.ok [])

/-- The raw bytes of a whole segment. -/
def segmentRaw (s : State) (key : List Byte) (slot : Nat → Nat → Option Generation) (lunit i : Nat) (g : Segment) :
    Except (BitVec 8) (List Byte) :=
  (List.range g.pages).foldl (fun acc k =>
    match acc with
    | .error st => .error st
    | .ok bs =>
      match pageRaw s key slot lunit i g k with
      | .error st => .error st
      | .ok d => .ok (bs ++ d)) (.ok [])

/-! ### Loading (R395, R396) -/

/-- Windows that loads in progress hold. -/
def windowsInUse (s : State) (c : Nat) : List Nat :=
  s.docket.entries.filterMap fun p =>
    match p.2.cmd with
    | .packageLoad _ => if p.2.ctx = c ∧ !p.2.image.isEmpty then some p.2.window else none
    | _ => none

/-- The lowest free package window (R395 step 2). -/
def freeWindow (s : State) (c : Nat) (k : Ctx) : Option Nat :=
  (List.range 64).find? fun n => (tblGet k.packages n).isNone && !(windowsInUse s c).contains n

/-- The ranges of a manifest meet those of a loaded package or of a load in progress (R395 step 4). -/
def rangesTaken (s : State) (c : Nat) (k : Ctx) (cbase slotbase : Nat) (m : List Byte) : Bool :=
  (k.packages.any fun p =>
    rangesMeet (counterRange p.2.cbase p.2.manifest) (counterRange cbase m) ||
      rangesMeet (slotRange p.2.slotbase p.2.manifest) (slotRange slotbase m)) ||
  (loadsOf s c).any fun l =>
    rangesMeet (counterRange l.2.1.cbase.toNat l.2.2) (counterRange cbase m) ||
      rangesMeet (slotRange l.2.1.slotbase.toNat l.2.2) (slotRange slotbase m)

/-- Window pages that a segment occupies. -/
def segmentPages (n : Nat) (g : Segment) : List Nat := (List.range g.pages).map fun k => n * 2 ^ 24 + g.woff + k

/-- Admission check of PACKAGE_LOAD: nothing but its reserved bytes is checked there (R395 starts with step 1). -/
def startLoadChecks (s : State) (b : PackageLoadBody) : Option (BitVec 8) :=
  if s.fuses.lcs = 0 ∨ s.fuses.lcs = 4 then some stNotPermitted
  else if (unitPlace s b.lunit.toNat).isNone ∨ b.cap.toNat % 64 ≠ 0 ∨ 16384 ≤ b.cbase.toNat ∨ 512 ≤ b.slotbase.toNat then
    some stInvalid
  else none

/-- A load fails: what it took goes back, and its command completes (R396); a late read ends it only at its limit (R277). -/
def failLoad (s : State) (e : Nat) (st : BitVec 8) : State :=
  if st = stLowerLate then readLate s e else finish (abandon s e) e st

/-- The generation that a load in progress installed in a relative slot (R388). -/
def loadGen (s : State) (c : Nat) (x : Entry) (slotbase rel gen : Nat) : Option Generation :=
  if gen ≠ 1 then none
  else match tblGet x.installed rel with
    | none => none
    | some serial => (ctxSlot s c (slotbase + rel)).bind fun sl => sl.findSerial serial

/-- Writes one raw page into its quad: coded in HBM against the segment's slot, plain in state SRAM (R395 step 9). -/
def writePage (s : State) (c : Nat) (slot : Option Nat) (tier : Bool) (q : Nat) (bs : List Byte) (v : Service) : State :=
  if tier then sramWrite s q 0 bs
  else (List.range 16).foldl (fun u b => writeHbm u c q b slot ((bs.drop (4096 * b)).take 4096) v) s

/-- Quads of the segments of one tier, cut by segment: (segment index, first quad position). -/
def quadStarts (segs : List Segment) (tier : Nat) : List (Nat × Nat) :=
  ((List.range segs.length).foldl (fun (acc : Nat × List (Nat × Nat)) i =>
    match segs[i]? with
    | some g => if g.tier = tier then (acc.1 + g.pages, acc.2 ++ [(i, acc.1)]) else acc
    | none => acc) (0, [])).2

/-- The quad of page k of segment i of a load. -/
def loadQuad (x : Entry) (i k : Nat) (tier : Bool) : Nat :=
  let segs := segmentsOf x.image
  let start := ((quadStarts segs (if tier then 1 else 0)).find? fun p => p.1 == i).map Prod.snd
  (if tier then x.quads1 else x.quads).getD (start.getD 0 + k) 0

/-- Page entries of a segment at publication (R396). -/
def pageEntries (x : Entry) (lunit i : Nat) (g : Segment) : List (Nat × Word64) :=
  (List.range g.pages).map fun k =>
    let target := if g.tier = 2 then lunit + g.loff + k else loadQuad x i k (g.tier == 1)
    (x.window * 2 ^ 24 + g.woff + k,
      pteWord (Pte.leaf g.tier (g.kind == 4) (g.kind != 4) target (if g.kind = 4 ∧ g.tier = 0 then 0xFFFF else 0)))

/-- The 26-bit load count, 0 skipped (R396). -/
def nextLoad (n : Nat) : Nat := if (n + 1) % 2 ^ 26 = 0 then 1 else (n + 1) % 2 ^ 26

/-- Step 10: publication maps every page at one point; RESULT holds the handle. -/
def publishLoad (s : State) (e : Nat) (x : Entry) (b : PackageLoadBody) (graph : List Byte) : State :=
  let c := x.ctx
  match ctxOf s c with
  | none => s
  | some k =>
    let segs := segmentsOf x.image
    let count := nextLoad (tblGetD k.loadCount x.window 0)
    let handle := BitVec.ofNat 32 (x.window + 64 * count)
    let p : Package :=
      { handle := handle, lunit := b.lunit.toNat, cbase := b.cbase.toNat, slotbase := b.slotbase.toNat, manifest := x.image
        graph := graph.take (64 * fieldAt x.image 14 2), digest := shake256 x.image 64, serials := x.installed,
        kvTier := Config.kvSram (shake256 x.image 64)
        unloading := false }
    let entries := (List.range segs.length).flatMap fun i =>
      match segs[i]? with | some g => pageEntries x b.lunit.toNat i g | none => []
    let k1 := { k with
      pages := entries.foldl (fun m q => tblPut m q.1 q.2) k.pages
      packages := tblPut k.packages x.window p
      loadCount := tblPut k.loadCount x.window count }
    finishWith (setCtx s c k1) e stSuccess handle.toNat

/-- Steps 9 and 10: hashes and recodes every other segment, checks the graph, publishes (R395). -/
def loadSegments (s : State) (e : Nat) (x : Entry) (b : PackageLoadBody) : State :=
  let c := x.ctx
  let m := x.image
  let segs := segmentsOf m
  let key := match ctxOf s c with | some k => tblGetD k.contentKeys x.window [] | none => []
  let slot := loadGen s c x b.slotbase.toNat
  let r : Except (BitVec 8) (List Byte) × State := (List.range segs.length).foldl (fun acc i =>
    match acc, segs[i]? with
    | (.ok graph, t), some g =>
      if g.kind = 4 then
        (.ok graph, if g.tier = 1 then (List.range g.pages).foldl (fun u k => quadWipe u true (loadQuad x i k true)) t else t)
      else
        let h := if g.kind = 3 then ((.ok [], t) : Except (BitVec 8) (List Byte) × State)
          else segmentStored t key b.lunit.toNat i g
        (match h with
         | (.error st, t1) => (.error st, t1)
         | (.ok bs, t1) =>
           if g.kind ≠ 3 ∧ shake256 bs 64 ≠ g.digest then (.error stSignature, t1)
           else if g.tier = 2 then (.ok graph, t1)
           else
             match segmentRaw t1 key slot b.lunit.toNat i g with
             | .error st => (.error st, t1)
             | .ok raw =>
               if g.kind = 2 ∧ !graphOk m raw then (.error stInvalid, t1)
               else
                 let t2 := (List.range g.pages).foldl (fun u k =>
                   writePage u c (packageSlot b.slotbase.toNat g.cslot) (g.tier == 1) (loadQuad x i k (g.tier == 1))
                     ((raw.drop (65536 * k)).take 65536) { cls := x.service, ctx := some c, entry := some e }) t1
                 (.ok (if g.kind = 2 then raw else graph), t2))
    | acc1, _ => acc1) (.ok [], s)
  match r with
  | (.error st, s1) => failLoad s1 e st
  | (.ok graph, s1) => publishLoad s1 e x b graph

/-- Step 8 up to the installs: reads and hashes the table segments and checks the listed images. Answers the images by slot. -/
def loadTables (s : State) (key : List Byte) (lunit : Nat) (m : List Byte) :
    Except (BitVec 8) (List (Nat × List Byte)) × State :=
  let segs := segmentsOf m
  let r : Except (BitVec 8) (List (Nat × List Byte)) × State := (List.range segs.length).foldl (fun acc i =>
    match acc, segs[i]? with
    | (.ok raws, t), some g =>
      if g.kind ≠ 3 then (.ok raws, t)
      else
        (match segmentStored t key lunit i g with
         | (.error st, t1) => (.error st, t1)
         | (.ok bs, t1) =>
           if shake256 bs 64 ≠ g.digest then (.error stSignature, t1)
           else
             match segmentRaw t1 key (fun _ _ => none) lunit i g with
             | .error st => (.error st, t1)
             | .ok raw => (.ok (raws ++ [(i, raw)]), t1))
    | acc1, _ => acc1) (.ok [], s)
  match r with
  | (.error st, s1) => (.error st, s1)
  | (.ok raws, s1) =>
    let images := (tableList m).map fun t =>
      let raw := ((raws.find? fun p => p.1 == t.2.1).map Prod.snd).getD []
      (t.1, (raw.drop t.2.2).take (16 + 128 * 2 ^ min 3 (fieldAt raw t.2.2 1)))
    if images.all fun p => (parseImage p.2).isSome then (.ok images, s1) else (.error stInvalid, s1)

/-- Every slot that a load's table list names can take an install (R298). -/
def loadSlotsFree (s : State) (x : Entry) (b : PackageLoadBody) : Bool :=
  (tableList x.image).all fun t => match ctxSlot s x.ctx (b.slotbase.toNat + t.1) with | some sl => canInstall s sl | none => true

/-- Installs every listed table at its instant (R298), then goes on with step 9. -/
def installLoad (s : State) (e : Nat) (x : Entry) (b : PackageLoadBody) : State :=
  if !x.due || !loadSlotsFree s x b then s
  else
    let r := x.images.foldl (fun (acc : State × Tbl Nat) p =>
      match parseImage p.2 with
      | none => acc
      | some (npc, lengths) =>
        let k := installTable acc.1 x.ctx (b.slotbase.toNat + p.1) npc lengths x.service
        (k.2.2, tblPut acc.2 p.1 k.2.1)) (s, [])
    let s2 := modEntry r.1 e fun y => { y with images := [], installed := r.2, due := false }
    loadSegments s2 e { x with images := [], installed := r.2 } b

/-- Steps 3 to 8 (R395). A load that lists tables then waits for a frame boundary. -/
def startPackageLoad (s : State) (e : Nat) (x : Entry) (b : PackageLoadBody) : State :=
  let c := x.ctx
  match startLoadChecks s b, ctxOf s c with
  | some st, _ => finish s e st
  | none, none => finish s e stContextLost
  | none, some k =>
    match freeWindow s c k with
    | none => finish s e stNotPermitted
    | some n =>
      match unitRead s b.lunit.toNat 0 65536 with
      | (.failed, s1) => finish s1 e stLowerError
      | (.late, s1) => readLate s1 e
      | (.good, s1) =>
        let u := unitBytes s1 b.lunit.toNat 0 65536
        let m := u.take (fieldAt u 56 4)
        if !manifestOk u ∨ k.syncCount < b.cbase.toNat + fieldAt u 48 2 ∨ k.slotCount < b.slotbase.toNat + fieldAt u 13 1 ∨
            rangesTaken s c k b.cbase.toNat b.slotbase.toNat m then finish s1 e stInvalid
        else
          match publisherKey s1 (fieldAt u 36 4) with
          | none => finish s1 e stSignature
          | some pk =>
            if !verifies pk "EZB9600 CAROP" m ((u.drop 32768).take 29792) then finish s1 e stSignature
            else
              match hostRead s1 b.cap.toNat 1760 with
              | .error => finish s1 e stLowerError
              | .late => readLate s1 e
              | .data cap =>
                match unwrap s1 m cap with
                | none => finish s1 e stSignature
                | some ck =>
                  let segs := segmentsOf m
                  let want (tier : Nat) : Nat := ((segs.filter fun g => g.tier == tier).map Segment.pages).sum
                  match k.pool0.takeWhole (want 0) false, k.pool1.takeWhole (want 1) false with
                  | some (q0, p0, _), some (q1, p1, _) =>
                    let k1 := { k with pool0 := p0, pool1 := p1, contentKeys := tblPut k.contentKeys n ck }
                    (match takeTables k1 (tableKeys (segs.flatMap (segmentPages n))) with
                     | none => finish s1 e stExhausted
                     | some k2 =>
                       let y := { x with image := m, quads := q0, quads1 := q1, window := n, due := false }
                       let s2 := setEntry (setCtx s1 c k2) e y
                       match loadTables s2 ck b.lunit.toNat m with
                       | (.error st, s3) => failLoad s3 e st
                       | (.ok [], s3) => loadSegments s3 e y b
                       | (.ok images, s3) =>
                         modEntry s3 e fun z => { z with images := images.foldl (fun m p => tblPut m p.1 p.2) [] })
                  | _, _ => finish s1 e stExhausted

/-! ### PACKAGE_UNLOAD (R399) -/

/-- An earlier admitted STREAM_OPEN of the handle still waits (R408). -/
def openWaits (s : State) (x : Entry) (h : BitVec 32) : Bool :=
  s.docket.entries.any fun p => decide (p.2.ctx = x.ctx) && decide (p.2.seq < x.seq) &&
    (match p.2.cmd with | .streamOpen b => b.pkg == h | _ => false)

/-- Admission check: the handle names a loaded package. -/
def unloadCheck (s : State) (c : Nat) (h : BitVec 32) : Option (BitVec 8) :=
  match (ctxOf s c).bind fun k => packageOf k h with
  | some p => if p.unloading then some stInvalid else none
  | none => some stInvalid

/-- PACKAGE_UNLOAD starts: every page of the window is unmapped at one point and the epoch closes; its drain does the rest. -/
def startPackageUnload (s : State) (e : Nat) (x : Entry) (h : BitVec 32) : State :=
  let c := x.ctx
  match ctxOf s c with
  | none => finish s e stContextLost
  | some k =>
    match packageOf k h with
    | none => finish s e stInvalid
    | some p =>
      if p.unloading then finish s e stInvalid
      else if (s.streams.any fun t => decide (t.2.ctx = c) && decide (t.2.state ≠ .closed) && t.2.handle == h) ∨ openWaits s x h then
        finish s e stNotPermitted
      else
        let n := h.toNat % 64
        let mine := k.pages.filter fun q => q.1 / 2 ^ 24 == n
        let k1 := { k with pages := k.pages.filter fun q => q.1 / 2 ^ 24 != n
                           packages := tblPut k.packages n { p with unloading := true } }
        let gone := emptyTables s c k1 none
        let k2 := { k1 with tables := k1.tables.filter fun t => !gone.contains t }
        let of (tier : Nat) : List Nat := (mine.filter fun q => (pteOf q.2).tier == tier).map fun q => (pteOf q.2).target
        let r := closeEpoch (invalidateWindow (setCtx s c k2) c n) c (some e)
          { Epoch.none_ with quads0 := of 0, quads1 := of 1, frames := gone.map Prod.snd, handle := some h }
        modEntry r.1 e fun y => { y with epoch := some r.2 }

/-! ### ATTEST (R400 to R402) -/

/-- Admission check of ATTEST. -/
def attestCheck (s : State) (b : AttestBody) : Option (BitVec 8) :=
  if 2 < b.mode.toNat ∨ b.out.toNat % 64 ≠ 0 ∨ (b.mode ≠ 0 ∧ b.nonce ≠ 0) then some stInvalid
  else if s.fuses.lcs = 4 ∨ (s.fuses.lcs = 0 ∧ b.mode = 1) then some stNotPermitted
  else none

/-- A package record of a report (R401). -/
def packageRecord (p : Package) : List Byte :=
  leBytes 4 p.handle.toNat ++ (p.manifest.drop 36).take 4 ++ (p.manifest.drop 32).take 4 ++ leBytes 4 0 ++
    (p.manifest.drop 16).take 16 ++ p.digest

/-- Pads or cuts a list to n bytes. -/
def padTo (n : Nat) (bs : List Byte) : List Byte := bs.take n ++ List.replicate (n - bs.length) 0

/-- Report bytes 0 to 6,527. -/
def reportBody (s : State) (b : AttestBody) : List Byte :=
  let pkgs := match ctxOf s b.ctx.toNat with
    | some k => (k.packages.filter fun (q : Nat × Package) => !q.2.unloading).map Prod.snd
    | none => []
  let owner := match s.flash.records with
    | some r => if s.fuses.lcs = 0 then List.replicate 64 0 else shake256 r.ownerKey 64
    | none => List.replicate 64 0
  let trust := match s.flash.records with
    | some r => shake256 (padTo 1408 r.trustRecord) 64
    | none => List.replicate 64 0
  let act := if s.fw.slotB.active then s.fw.slotB else s.fw.slotA
  ascii "EZBATTST" ++ leBytes 2 1 ++ leBytes 1 s.fuses.lcs.toNat ++ leBytes 1 s.fuses.kepoch.toNat ++ leBytes 1 b.ctx.toNat ++
    leBytes 1 pkgs.length ++ leBytes 2 0 ++ leBytes 8 (now s) ++ leBytes 4 act.version.toNat ++
    leBytes 1 (if s.fw.slotB.active then 1 else 0) ++ leBytes 3 0 ++ leBytes 24 b.nonce.toNat ++ leBytes 8 0 ++
    identityKey s ++ shake256 (encapsulationKey s) 64 ++ shake256 s.fw.image 64 ++ trust ++ owner ++
    padTo 6144 (pkgs.flatMap packageRecord)

/-- The output of ATTEST; `fresh`: the additional randomness of the signature (R400 to R402). -/
def attestOutput (s : State) (b : AttestBody) (fresh : List Byte) : List Byte :=
  if b.mode = 0 then reportBody s b ++ identitySign s fresh "EZB9600 ATTEST" (reportBody s b)
  else if b.mode = 1 then (match s.flash.records with | some r => r.certificate.take 32768 | none => [])
  else encapsulationKey s

/-- ATTEST starts: RESULT holds the bytes written. The randomness that FIPS 205 adds to a signature is drawn afresh (log 8). -/
def startAttest (s : State) (e : Nat) (x : Entry) (b : AttestBody) : State :=
  let r := drawBytes 32 s
  let out := attestOutput s b r.1
  finishWith (if takesDma s x.ctx then hostWrite r.2 b.out.toNat out else r.2) e stSuccess out.length

end Sys2Proof.Machine
end

