-- ==== Sys2Proof/Machine/Contexts.lean ====
section
/-! DEFINITION. Jobs (R355 to R357), contexts from their creation to their destruction (R281, R337, R360, R361), and the end of a
function's requests (R370). -/

namespace Sys2Proof.Machine

/-! ### Jobs -/

/-- The open job of context c. -/
def jobOf (s : State) (c : Nat) : Option Job := (ctxOf s c).bind Ctx.job

/-- A Span job opens: what frames of an earlier job of its number were applied is forgotten (R481, R485; DEDUCED, log 41). -/
def forgetSeen (s : State) (jobNum : Nat) : State :=
  { s with span := { s.span with seen := s.span.seen.filter fun k => k.1 / 2 ^ 16 != jobNum } }

/-- JOB_BEGIN opens its job at its admission; with ZERO = 1 every counter of the window becomes 0 (R356). -/
def openJob (s : State) (c : Nat) (b : JobBeginBody) : State :=
  match ctxOf s c with
  | none => s
  | some x =>
    let s1 := setCtx (forgetSeen s (spanJobNum b.spanjob)) c { x with
      job := some { tag := b.tag, span := b.spanjob, faulted := false, ender := none } }
    if b.flags.getLsbD 0 then
      { s1 with syncs := tblMap s1.syncs fun g v =>
          if x.syncBase ≤ g ∧ g < x.syncBase + x.syncCount then Sync.reset else v }
    else s1

/-- The first JOB_END admitted into a job is the one that ends it (R356). -/
def noteEnder (s : State) (c e : Nat) : State :=
  modCtx s c fun x => { x with job := x.job.map fun j => if j.ender.isNone then { j with ender := some e } else j }

/-- The entry is a JOB_END. -/
def Entry.isEnder (x : Entry) : Bool :=
  match x.cmd with
  | .jobEnd _ => true
  | _ => false

/-- An entry with FENCE = 1 stays QUEUED while a request admitted earlier from its ring has not retired (R351). -/
def fenceBlocked (s : State) (x : Entry) : Bool :=
  x.hdr.fence && s.docket.entries.any fun p =>
    p.2.parent.isNone && p.2.hdr.fn == x.hdr.fn && p.2.hdr.sq == x.hdr.sq && decide (p.2.state ≠ .fetched) &&
      decide (p.2.seq < x.seq)

/-- The job closes and its JOB_END completes; each later JOB_END of the job completes with the same status (R356). -/
def finishJobEnd (s : State) (e : Nat) (st : BitVec 8) : State :=
  match entryOf s e with
  | none => s
  | some x =>
    let others := (s.docket.entries.filter fun p =>
      p.1 != e && p.2.isEnder && p.2.inJob && decide (p.2.ctx = x.ctx) && decide (p.2.state ≠ .fetched)).map Prod.fst
    others.foldl (fun u o =>
      match entryOf u o with
      | none => u
      | some y => if fenceBlocked u y then modEntry u o fun z => { z with status := some st } else finish u o st)
      (finish (closeJob s x.ctx) e st)

/-- A JOB_END completes once the requests of its job have retired: with the status decided before, else JOB_FAULTED for a faulted
job, else SUCCESS (R356, R357). -/
def tryJobEnd (s : State) (e : Nat) : State :=
  match entryOf s e with
  | none => s
  | some x =>
    if (jobMembers s x.ctx).isEmpty then
      let faulted := match jobOf s x.ctx with | some j => j.faulted | none => false
      finishJobEnd s e (if faulted then stJobFaulted else x.status.getD stSuccess)
    else s

/-- Every unretired request of the job of context c ends with CANCELLED, or with JOB_FAULTED once the job has faulted. -/
def cancelJob (s : State) (c : Nat) : State :=
  let st := match jobOf s c with | some j => if j.faulted then stJobFaulted else stCancelled | none => stCancelled
  (jobMembers s c).foldl (fun u e => endRequest u e st) s

/-- JOB_END starts: the first of its job cancels the job's requests or waits for them; a later one only waits (R356). -/
def startJobEnd (s : State) (e : Nat) (x : Entry) (flags : BitVec 8) : State :=
  match x.status, jobOf s x.ctx with
  | some st, _ => finish s e st
  | none, none => finish s e stSuccess
  | none, some j =>
    if j.ender = some e then tryJobEnd (if flags.getLsbD 0 then s else cancelJob s x.ctx) e else s

/-- At its timeout the JOB_END that ends a job cancels the rest and completes with CANCELLED; a later one only ends itself
(R243, R356). -/
def timeoutJobEnd (s : State) (e : Nat) (x : Entry) : State :=
  match jobOf s x.ctx with
  | some j =>
    if j.ender = some e then
      tryJobEnd (cancelJob (modEntry s e fun y => { y with status := some stCancelled }) x.ctx) e
    else finish s e stCancelled
  | none => finish s e stCancelled

/-! ### The end of a function's requests -/

/-- Requests of a function that stand in the Docket. -/
def requestsOf (s : State) (f : Nat) : List Nat :=
  (s.docket.entries.filter fun p => p.2.parent.isNone && decide (p.2.hdr.fn.toNat = f)).map Prod.fst

/-- The command needs its context to exist: everything but NOP and the PF-only commands (R354). -/
def needsContext (c : Command) : Bool := decide (opcodeOf c ≠ 1) && decide (opcodeOf c < 0x80)

/-- Every request of a function ends at its next operation boundary and its open job closes (R370). -/
def endAllRequests (s : State) (f : Nat) (st : BitVec 8) : State :=
  closeJob ((requestsOf s f).foldl (fun u e => endRequest u e st) s) f

/-! ### CONTEXT_CREATE (R360) -/

/-- The lowest start of a run of n items below `top` that meets none of the used ranges. -/
def firstFit (top n : Nat) (used : List (Nat × Nat)) : Option Nat :=
  ((0 :: used.map fun r => r.1 + r.2).filter fun b =>
    decide (b + n ≤ top) && used.all fun r => !rangesMeet r (b, n)).min?

/-- Admission check of CONTEXT_CREATE: its fields. -/
def createCheck (b : ContextCreateBody) : Option (BitVec 8) :=
  if 2 ≤ b.flags.toNat ∨ b.weight = 0 ∨ 16384 < b.sync.toNat ∨ 512 < b.cslots.toNat ∨ 2 ^ 24 ≤ b.quota0.toNat ∨
      2 ^ 24 ≤ b.quota1.toNat ∨ 65536 < b.streams.toNat ∨ 16384 < b.dquota.toNat ∨ (b.ctx = 0 ∧ b.dquota = 0) then
    some stInvalid
  else none

/-- The counters of function c with their SAT and EVTEN bits read 0 (R463). -/
def zeroFnCounters (s : State) (c : Nat) : State :=
  { s with dbg := { s.dbg with counters := s.dbg.counters.filter fun p =>
      !(decide (0x2000 + 32 * c ≤ p.1) && decide (p.1 < 0x2000 + 32 * c + 32)) } }

/-- Empties n codec slots from slot b (R296, R301). -/
def emptySlots (s : State) (b n : Nat) : State :=
  { s with codecSlots := s.codecSlots.filter fun p => !(decide (b ≤ p.1) && decide (p.1 < b + n)) }

/-- Zeroes n sync counters from counter b. -/
def zeroSyncs (s : State) (b n : Nat) : State :=
  { s with syncs := s.syncs.filter fun p => !(decide (b ≤ p.1) && decide (p.1 < b + n)) }

/-- CONTEXT_CREATE starts: the windows, the data key and the DRBG seed of an empty context, whose registers take their cold values
(R151, R302, R337, R360, R532). While the old context is being destroyed the command waits. -/
def startContextCreate (s : State) (e : Nat) (b : ContextCreateBody) : State :=
  let c := b.ctx.toNat
  if s.fuses.lcs = 0 ∨ s.fuses.lcs = 4 then finish s e stNotPermitted
  else
    match ctxOf s c with
    | some k => if k.destroying then s else finish s e stInvalid
    | none =>
      let syncs := firstFit 16384 b.sync.toNat (s.ctxs.map fun p => (p.2.syncBase, p.2.syncCount))
      let slots := firstFit 512 b.cslots.toNat (s.ctxs.map fun p => (p.2.slotBase, p.2.slotCount))
      match syncs, slots with
      | some sb, some cb =>
        let (key, s1) := drawBytes 64 s
        let (seed, s2) := drawBytes 64 s1
        let x : Ctx := { Ctx.reset with
          weight := b.weight, rtok := b.flags.getLsbD 0, dquota := b.dquota.toNat, syncBase := sb
          syncCount := b.sync.toNat, slotBase := cb, slotCount := b.cslots.toNat, streamQuota := b.streams.toNat
          dataKey := key, drbg := { Drbg.reset with seed := seed }
          pool0 := { Pool.empty with quota := b.quota0.toNat }, pool1 := { Pool.empty with quota := b.quota1.toNat } }
        let s3 := emptySlots (zeroSyncs (zeroFnCounters s2 c) sb b.sync.toNat) cb b.cslots.toNat
        let s4 := setCtx s3 c x
        let f := { fnOf s4 c with codSel := 0, state := if c = 0 then (fnOf s4 c).state else .detached }
        finish (setFn s4 c f) e stSuccess
      | _, _ => finish s e stExhausted

/-! ### Destruction (R281) -/

/-- Step 1: the function's fetching and DMA stop and its requests are cancelled (R281, R301, R361). Of context 0 only the requests that
need the context end; a VF is left DETACHED. `cause`: 0 FLR, 1 grace expiry, 2 CONTEXT_DESTROY. -/
def beginDestruction (s : State) (c cause : Nat) : State :=
  match ctxOf s c with
  | none => s
  | some k =>
    if k.destroying then s
    else
      let s1 := setCtx s c { k with destroying := true, destroyCause := cause }
      if c = 0 then
        let es := (requestsOf s1 0).filter fun e => match entryOf s1 e with | some x => needsContext x.cmd | none => false
        closeJob (es.foldl (fun u e => endRequest u e stCancelled) s1) 0
      else
        endAllRequests (setFn s1 c { fnOf s1 c with state := .detached, attachPend := false }) c stCancelled

/-- Requests that step 2 still waits for: those of the context that have not retired. -/
def contextBusy (s : State) (c : Nat) : Bool :=
  s.docket.entries.any fun p => decide (p.2.ctx = c) && (decide (c ≠ 0) || needsContext p.2.cmd)

/-- Every cached entry of a context leaves the translation caches (R281 step 3). -/
def invalidateContext (s : State) (c : Nat) : State :=
  { s with
    hbm := { s.hbm with tlb := s.hbm.tlb.filter fun k => decide (k.1 ≠ c), tlb1 := s.hbm.tlb1.filter fun k => decide (k.1 ≠ c) }
    tiles := tblMap s.tiles fun _ t => if t.ctx = c then { t with tlb := [] } else t }

/-- Zeroes the local store and the registers of a tile whose last program was of context c (R280). -/
def wipeTile (s : State) (t : Nat) : State :=
  let x := tileOf s t
  setTile { s with localMem := memWipe s.localMem (2 ^ 21 * t) (2 ^ 21) } t
    { Tile.reset with bank := x.bank, signals := x.signals, starts := x.starts, transient := x.transient }

/-- Steps 2 to 5 of R281, once every epoch has drained: translations and leaves clear, quads and tiles are wiped, the key slot,
the sync window, the DRBG seed and the counters are zeroed, the slots are emptied (R301). -/
def contextDestruction (s : State) (c : Nat) : State :=
  match ctxOf s c with
  | none => s
  | some k =>
    if !k.destroying || k.wiping || !k.closed.isEmpty || contextBusy s c then s
    else
      let s1 := k.pool1.all.foldl (fun u q => quadWipe u true q) (k.pool0.all.foldl (fun u q => quadWipe u false q) s)
      let s2 := ((s1.tiles.filter fun p => p.2.lastCtx == some c).map Prod.fst).foldl wipeTile s1
      let s3 := emptySlots (zeroSyncs (zeroFnCounters s2 c) k.syncBase k.syncCount) k.slotBase k.slotCount
      let s4 := { s3 with
        runs := s3.runs.filter fun p => decide (p.2.ctx ≠ c)
        streams := tblMap s3.streams fun _ t =>
          if t.ctx = c then { t with leaves := [], exps := [], slots := [], pending := none, tree := none } else t }
      setCtx (invalidateContext s4 c) c { k with
        wiping := true, pages := [], root := none, tables := [], winPages := [], hwins := [], packages := [], contentKeys := []
        dataKey := [], drbg := Drbg.reset, growth := [] }

/-- Step 6: the quads return to the store, the stream IDs become free, the context is gone. The PF gets CTX_DESTROYED, a VF's
rings are disabled, and CONTEXT_DESTROY completes (R281, R361). -/
def contextWipeEnd (s : State) (c : Nat) : State :=
  match ctxOf s c with
  | none => s
  | some k =>
    if !k.wiping then s
    else
      let s1 := storeGive (storeGive s false k.pool0.all) true k.pool1.all
      let s2 := { s1 with streams := s1.streams.filter (fun p => decide (p.2.ctx ≠ c)), ctxs := tblDel s1.ctxs c }
      let s3 := if c = 0 then s2 else
        setFn s2 c { fnOf s2 c with rings := tblMap (fnOf s2 c).rings fun _ r => { r with en := false, busy := false } }
      let s4 := raiseEvent (logFault s3 2 c k.destroyCause 0 0) 0 0x09 c 0
      ((s4.docket.entries.filter fun p => match p.2.cmd with
        | .contextDestroy d => d.toNat == c && p.2.dispatched
        | _ => false).map Prod.fst).foldl (fun u e => finish u e stSuccess) s4

/-- CONTEXT_DESTROY starts; it completes at step 6 of the destruction, which may already be under way (R361, R374). -/
def startContextDestroy (s : State) (e : Nat) (c : Nat) : State :=
  match ctxOf s c with
  | none => finish s e stInvalid
  | some _ => beginDestruction s c 2

end Sys2Proof.Machine
end

