-- ==== Sys2Proof/Machine/Graph.lean ====
section
/-! DEFINITION. The model graph at work: which gangs a STEP, PREFILL or REC_CHUNK runs and when (R111, R162, R213, R393), what the
engine writes into the local stores before a gang starts (R214, R215, R219, R393), and the start of a gang (R74, R75, R109). -/

namespace Sys2Proof.Machine

/-! ### The package of a request -/

/-- The manifest entry that a model command uses (R382). -/
def entryFor (p : Package) (c : Command) : Option Nat :=
  match c with
  | .step _ => (entriesOf p.manifest 1).head?
  | .prefill _ => (entriesOf p.manifest 2).head?
  | .recChunk b => if fieldAt p.manifest (128 + 8 * b.entry.toNat) 1 = 3 then some b.entry.toNat else none
  | _ => none

/-- The package of the first stream of a request that is open in its context (R141). -/
def requestPackage (s : State) (x : Entry) : Option Package :=
  match ctxOf s x.ctx with
  | none => none
  | some k => (x.parts.find? fun p => openIn s x.ctx p.stream).bind fun p => packageOf k (streamOf s p.stream).handle

/-- The nodes of an entry, with their indices. -/
def nodesOf (p : Package) (entry : Nat) : List (Nat × GraphNode) :=
  ((List.range (fieldAt p.manifest 14 2)).map fun i => (i, graphNode p.graph i)).filter fun q => q.2.entry == entry

/-- The graph nodes that a request runs. -/
def requestNodes (s : State) (x : Entry) : List (Nat × GraphNode) :=
  match requestPackage s x with
  | none => []
  | some p => match entryFor p x.cmd with
    | none => []
    | some n => nodesOf p n

/-! ### Waves, chunks and rows -/

/-- Number under which a gang of node i runs in wave w (R140: a released stream runs as a separate dispatch). -/
def waveNode (w i : Nat) : Nat := i + 65536 * w

/-- The parts of wave w, by batch index. -/
def waveParts (x : Entry) (w : Nat) : List (Nat × Part) :=
  ((List.range x.parts.length).filterMap fun j => (x.parts[j]?).map fun p => (j, p)).filter fun q =>
    q.2.wave == w && q.2.outcome.isNone

/-- What chunks count: streams in a STEP, positions otherwise (R162, R213, R219; log 30). -/
def waveTotal (x : Entry) (w : Nat) : Nat :=
  match x.cmd with
  | .step _ => max 1 (waveParts x w).length
  | _ => ((waveParts x w).head?.map fun q => q.2.nodes).getD 1

/-- Chunk length of a node: one stream's tree for a recurrent layer of a STEP, C or 256 positions in a PREFILL, C positions for a
recurrent layer of a REC_CHUNK, and everything at once otherwise. -/
def chunkLen (x : Entry) (m : List Byte) (d : GraphNode) (total : Nat) : Nat :=
  match x.cmd with
  | .step _ => if d.kind = 2 then 1 else total
  | .prefill _ => if d.kind = 2 then recChunkLen m d.layer else 256
  | _ => if d.kind = 2 then recChunkLen m d.layer else total

/-- Chunks of a node. -/
def chunkCount (x : Entry) (m : List Byte) (d : GraphNode) (total : Nat) : Nat :=
  (total + chunkLen x m d total - 1) / max 1 (chunkLen x m d total)

/-- The parts that gang (node, chunk) serves. -/
def gangParts (x : Entry) (w : Nat) (d : GraphNode) (c : Nat) : List (Nat × Part) :=
  match x.cmd with
  | .step _ => if d.kind = 2 then ((waveParts x w).drop c).take 1 else waveParts x w
  | _ => waveParts x w

/-- Rows of a part in chunk c of a node. -/
def gangRows (x : Entry) (m : List Byte) (d : GraphNode) (c : Nat) (p : Part) : Nat :=
  match x.cmd with
  | .step _ => p.nodes
  | _ => min (chunkLen x m d p.nodes) (p.nodes - c * chunkLen x m d p.nodes)

/-- First row of batch index j among the activation rows of its wave. -/
def firstRow (x : Entry) (w j : Nat) : Nat :=
  (((waveParts x w).filter fun q => decide (q.1 < j)).map fun q => q.2.nodes).sum

/-- The parts of rank r: batch entry j goes to rank j mod GANG (R393). -/
def rankParts (x : Entry) (w : Nat) (d : GraphNode) (c r : Nat) : List (Nat × Part) :=
  (gangParts x w d c).filter fun q => q.1 % max 1 d.gang == r

/-- The gang of chunk c of node i has ended in wave w. -/
def gangEnded (x : Entry) (w i c : Nat) : Bool := x.ended.contains (waveNode w i, c)

/-- A request samples: a STEP, and a PREFILL with SAMPLE = 1 (R149, R161). -/
def samples (c : Command) : Bool :=
  match c with
  | .step _ => true
  | .prefill b => b.flags.getLsbD 0
  | _ => false

/-- Every gang of the wave that is no draft node's has ended. -/
def passDone (x : Entry) (m : List Byte) (nodes : List (Nat × GraphNode)) (w : Nat) : Bool :=
  let total := waveTotal x w
  nodes.all fun q => q.2.kind == 4 || gangEnded x w q.1 (chunkCount x m q.2 total - 1)

/-- Every gang of the wave has ended, and it has been sampled if the request samples. -/
def waveDone (x : Entry) (m : List Byte) (nodes : List (Nat × GraphNode)) (w : Nat) : Bool :=
  let total := waveTotal x w
  (nodes.all fun q => gangEnded x w q.1 (chunkCount x m q.2 total - 1)) && (!samples x.cmd || x.sampled.contains w)

/-- Gang (i, c) may start: chunk c - 1 of the node has ended, and so has every chunk of its predecessors that holds rows of it; a
draft node also waits for the sampling of its wave (R162, R213, R393). -/
def gangReady (x : Entry) (m : List Byte) (nodes : List (Nat × GraphNode)) (w i : Nat) (d : GraphNode) (c : Nat) : Bool :=
  let total := waveTotal x w
  let last := min ((c + 1) * chunkLen x m d total) total - 1
  !x.begun.contains (waveNode w i, c) && decide (c < chunkCount x m d total) && (c == 0 || gangEnded x w i (c - 1)) &&
  (d.pred.all fun p => p == 0xFFFF || match nodes.find? (fun q => q.1 == p) with
    | none => true
    | some q => gangEnded x w p (last / max 1 (chunkLen x m q.2 total))) &&
  (d.kind != 4 || (passDone x m nodes w && (!samples x.cmd || x.sampled.contains w)))

/-- The gangs of a wave that may be expanded now. -/
def readyGangs (x : Entry) (m : List Byte) (nodes : List (Nat × GraphNode)) (w : Nat) : List (Nat × Nat) :=
  nodes.filterMap fun q =>
    let c := (x.begun.filter fun b => b.1 == waveNode w q.1).length
    if gangReady x m nodes w q.1 q.2 c then some (q.1, c) else none

/-! ### Local stores -/

/-- Reads n bytes of the local store of a tile. -/
def localRead (s : State) (t a n : Nat) : List Byte := memReadN s.localMem (2 ^ 21 * t + a) n

/-- Writes bytes into the local store of a tile. -/
def localWrite (s : State) (t a : Nat) (bs : List Byte) : State :=
  { s with localMem := memWriteN s.localMem (2 ^ 21 * t + a) bs }

/-- The bytes of a two's-complement number of n bytes. -/
def signedBytes (n : Nat) (v : Int) : List Byte := leBytes n (v % (2 ^ (8 * n) : Int)).toNat

/-! ### Dispatch blocks (R393) -/

/-- The dispatch block of rank r. -/
def dispatchBlock (x : Entry) (m : List Byte) (d : GraphNode) (w c r : Nat) : List Byte :=
  let ps := rankParts x w d c r
  let prefill := match x.cmd with | .prefill _ => true | _ => false
  leBytes 2 ps.length ++ leBytes 2 (ps.map fun q => gangRows x m d c q.2).sum ++ leBytes 4 (if prefill then c else 0) ++
    leBytes 8 0 ++
    ps.flatMap fun q =>
      leBytes 2 q.1 ++ leBytes 2 q.2.stream ++ leBytes 2 (gangRows x m d c q.2) ++
        leBytes 2 (if prefill then 0 else firstRow x w q.1) ++ leBytes 4 q.2.basePos.toNat ++
        leBytes 2 (if d.kind = 4 then (q.2.path.map fun i => 2 ^ i).sum else 0) ++
        leBytes 2 (if d.kind = 4 then q.2.bonus.toNat else 0)

/-! ### Control blocks (R214, R215, R219) -/

/-- Parent of node i of a tree. -/
def treeParent (parent : BitVec 64) (i : Nat) : Nat := bitsOf parent.toNat (4 * i + 3) (4 * i)

/-- j is i or an ancestor of i (R137). -/
def ancestorOf (parent : BitVec 64) (j : Nat) : Nat → Nat → Bool
  | 0, i => i == j
  | fuel + 1, i => i == j || (i != 0 && ancestorOf parent j fuel (treeParent parent i))

/-- Depth of node i (R135). -/
def depthOf (parent : BitVec 64) : Nat → Nat → Nat
  | 0, _ => 0
  | fuel + 1, i => if i = 0 then 0 else 1 + depthOf parent fuel (treeParent parent i)

/-- seg(i): the marks at chunk positions 0 to i (R212). -/
def segOf (marks : List Bool) (i : Nat) : Nat := ((marks.take (i + 1)).filter id).length

/-- The bytes of a control block. `marks`: the marks of the chunk's n positions. -/
def controlBlock (n clen kind chunk stream layer src dst : Nat) (marks : List Bool) (parent : BitVec 64) : List Byte :=
  let tree := kind == 2
  let nmark := (marks.filter id).length
  let first := if nmark = 0 then n else marks.findIdx id
  let seg (i : Nat) : Nat := segOf marks (min i (n - 1))
  let last := if nmark = 0 then 0 else (List.range n).findIdx fun i => seg i == seg (n - 1)
  let flag (b : Bool) (bytes : Nat) : List Byte := signedBytes bytes (if b then 0 else -1)
  let cin (i : Nat) : Bool := decide (i < n) && (tree || seg i == 0)
  let cout (j : Nat) : Bool := !tree && decide (j < n) && seg j == seg (n - 1)
  let mask (i j : Nat) : Bool :=
    if tree then decide (i < n) && decide (j < n) && ancestorOf parent j 16 i
    else decide (i < n) && decide (j ≤ i) && seg j == seg i
  leBytes 2 n ++ leBytes 2 clen ++ leBytes 2 nmark ++ leBytes 2 first ++ leBytes 2 last ++ leBytes 1 kind ++ leBytes 1 0 ++
    leBytes 4 chunk ++ leBytes 2 stream ++ leBytes 1 layer ++ leBytes 1 src ++ leBytes 1 dst ++ leBytes 43 0 ++
    ((List.range 256).flatMap fun i => leBytes 8 (seg i)) ++ ((List.range 256).flatMap fun i => flag (cin i) 8) ++
    ((List.range 256).flatMap fun i => flag (cout i) 8) ++
    ((List.range 256).flatMap fun i => (List.range 256).flatMap fun j => flag (mask i j) 4)

/-- Region that chunk c reads and writes (R217). -/
def chunkSrc (c : Nat) : Nat := if c = 0 then 0 else 1 + (c - 1) % 2
def chunkDst (c : Nat) : Nat := 1 + c % 2

/-- The control block of chunk c of a recurrent node. -/
def gangControl (x : Entry) (m : List Byte) (d : GraphNode) (w c : Nat) : List Byte :=
  match (gangParts x w d c).head? with
  | none => []
  | some (_, p) =>
    match x.cmd with
    | .step _ => controlBlock p.nodes 16 2 0 p.stream d.layer 0 1 (List.replicate p.nodes false) p.parent
    | .prefill _ =>
      let n := gangRows x m d c p
      controlBlock n (recChunkLen m d.layer) 1 c p.stream d.layer (chunkSrc c) (chunkDst c) (List.replicate n false) 0
    | _ =>
      let n := gangRows x m d c p
      let base := c * recChunkLen m d.layer
      let marks := (List.range n).map fun i => (x.image.getD ((base + i) / 8) 0).getLsbD ((base + i) % 8)
      controlBlock n (recChunkLen m d.layer) 0 c p.stream d.layer (chunkSrc c) (chunkDst c) marks 0

/-! ### The walk (R141 to R143, R162, R166) -/

/-- The indices of a stream in ring order: from the one after the tail to the tail. -/
def ringOrder (t : Stream) : List Nat := (List.range (pplOf t.layers)).map fun k => (t.tail + 1 + k) % pplOf t.layers

/-- The leaves of a layer that the walk finds live, in ring order with their indices: each is read once per layer (R142). -/
def layerLeaves (s : State) (c layer : Nat) (t : Stream) : List (Nat × KvLeaf) × State :=
  (ringOrder t).foldl (fun (acc : List (Nat × KvLeaf) × State) i =>
    match readLeaf acc.2 c t layer i with
    | (none, u) => (acc.1, u)
    | (some k, u) => (if k.live = 0 then acc.1 else acc.1 ++ [(i, k)], u)) ([], s)

/-- The page sets of one head of one stream. -/
def pageSets (leaves : List (Nat × KvLeaf)) (j head : Nat) : List WalkSet :=
  leaves.map fun q =>
    { part := j, head := head, kind := 0, index := q.1, runKey := runKey q.2, live := q.2.live, rbase := 0, rows := 64 }

/-- The sets of one stream at one attention layer for chunk c: for each head its page sets, then its tree block, or the run blocks
of the earlier chunks and of the chunk. -/
def streamSets (s : State) (x : Entry) (d : GraphNode) (c j : Nat) (p : Part) : List WalkSet × State :=
  let t := streamOf s p.stream
  let r := layerLeaves s x.ctx d.layer t
  ((List.range t.heads).flatMap fun h =>
    let own : WalkSet := { part := j, head := h, kind := 1, index := 0, runKey := 0, live := 0, rbase := 0, rows := p.nodes }
    let n := min ((c + 1) * 256) p.nodes
    let blocks : List WalkSet :=
      match x.cmd with
      | .step _ => [own]
      | _ => (List.range ((n + 63) / 64)).map fun b => { own with kind := 2, rbase := 64 * b, rows := min 64 (n - 64 * b) }
    pageSets r.1 j h ++ blocks, r.2)

/-- The walk of rank r of an attention gang. -/
def rankWalk (s : State) (x : Entry) (d : GraphNode) (w c r : Nat) : Walk × State :=
  let v := (rankParts x w d c r).foldl (fun (acc : List WalkSet × State) q =>
    let y := streamSets acc.2 x d c q.1 q.2
    (acc.1 ++ y.1, y.2)) ([], s)
  ({ todo := v.1, started := true, delivered := 0, open_ := [] }, v.2)

/-! ### The start of a gang (R74 to R76, R109) -/

/-- The bytes that a local store holds when a program of the same context starts: each either kept or 0 (R76; free, log 4). -/
def carryLocal (s : State) (t : Nat) : State :=
  { s with
    localMem := s.localMem.filter fun p =>
      decide (p.1 / 2 ^ 21 ≠ t) || (Config.freeByte p.1 s.drawn).getLsbD 0
    drawn := s.drawn + 1 }

/-- Tile t starts a program as rank r of a gang. -/
def startTile (s : State) (e t r gang ctx prog len : Nat) (args : List Nat) (overdue : Bool) : State :=
  let x := tileOf s t
  let s1 := if x.lastCtx = some ctx then carryLocal s t else { s with localMem := memWipe s.localMem (2 ^ 21 * t) (2 ^ 21) }
  let w (k : Nat) : Word64 := BitVec.ofNat 64 (args.getD k 0)
  let y := if x.lastCtx = some ctx then { Tile.reset with cubes := x.cubes } else Tile.reset
  setTile s1 t { y with
    bank := x.bank, signals := x.signals, last := some e
    entry := some e, ctx := ctx, rank := r, gang := gang, prog := prog, len := len
    sregs := [0, w 0, w 1, w 2, BitVec.ofNat 64 r, BitVec.ofNat 64 gang] ++ List.replicate 26 0
    starts := (overdue :: x.starts).take 7, lastCtx := some ctx, transient := x.transient, busySince := now s }

/-- An entry starts: it is dispatched, and takes the next number of the start order (R152, R244). A request's first start is traced
(R467). -/
def noteStart (s : State) (e : Nat) : State :=
  match entryOf s e with
  | none => s
  | some x =>
    let s1 := { s with docket := { s.docket with starts := s.docket.starts + 1 } }
    let s2 := setEntry s1 e { x with dispatched := true, started := s.docket.starts }
    if x.parent.isSome || x.dispatched then s2
    else traceWrite s2 x.hdr.fn.toNat 2 0 x.hdr.sq.toNat (opcodeOf x.cmd) x.hdr.cid.toNat

/-- The whole gang starts at once, rank by rank; its entry is RUNNING and holds its tiles. -/
def startTiles (s : State) (e : Nat) (x : Entry) (prog len : Nat) (args : List Nat) (tiles : List Nat) : State :=
  let s1 := (List.range tiles.length).foldl (fun u r =>
    startTile u e (tiles.getD r 0) r tiles.length x.ctx prog len args x.overdue) s
  noteStart (modEntry s1 e fun y => { y with state := .running, tiles := tiles }) e

/-- The value that the engine loads for an argument of a graph node (R392). -/
def argValue (p : Package) (d : GraphNode) (a : Nat) : Nat :=
  let code := a / 2 ^ 60
  if code = 1 then (p.handle.toNat % 64) * 2 ^ 40 + bitsOf a 47 0
  else if code = 2 then p.cbase + bitsOf a 15 0
  else if code = 3 then d.layer
  else if code = 4 then bitsOf a 20 0
  else bitsOf a 59 0

/-! ### Rows of a REC_CHUNK (R210, R211, R213)

The spec gives the images in memory and not how their rows reach and leave the programs. The entry's nodes without a predecessor are
given the input rows of their chunk before they start, those that no node follows give their output rows as their programs end, and
where a row lies in the gang's local stores is free (DESIGN CHOICE, log 33). -/

/-- Bytes from one row of an image to the next, by its width. -/
def rowStride (width : Nat) : Nat := (2 * width + 63) / 64 * 64

/-- The width of an entry's input or output rows, and the RS8 bytes of a row (R211, R382). -/
def entryWidth (m : List Byte) (entry : Nat) (out : Bool) : Nat := fieldAt m (128 + 8 * entry + (if out then 4 else 2)) 2
def entrySegments (m : List Byte) (entry : Nat) (out : Bool) : Nat :=
  let n := 32 * 2 ^ fieldAt m (128 + 8 * entry + 1) 1
  (entryWidth m entry out + n - 1) / n

/-- Addresses of row p of an image of npos rows: its elements and its RS8 bytes. -/
def rowAddress (base width p : Nat) : Nat := base + p * rowStride width
def rowExps (base width npos p : Nat) : Nat := base + npos * rowStride width + 64 * p

/-- Tile and offset of a row in the local stores of a gang: its elements, then from the next 64-byte bound on its RS8 bytes. -/
def rowPlace (tiles : List Nat) (out : Bool) (node p width : Nat) : Nat × Nat :=
  let v := Config.rowPlace out node p
  (tiles.getD (v % tiles.length) 0, v / tiles.length % (2 ^ 21 - rowStride width - 64))

/-- Positions of chunk c of a node. -/
def chunkPositions (q : Entry) (m : List Byte) (d : GraphNode) (w c : Nat) : List Nat :=
  match (gangParts q w d c).head? with
  | none => []
  | some (_, p) => (List.range (gangRows q m d c p)).map fun i => c * chunkLen q m d p.nodes + i

/-- Input row p is read and put into the local store that it goes to. -/
def giveRow (s : State) (e : Nat) (q : Entry) (b : RecChunkBody) (m : List Byte) (tiles : List Nat) (node p : Nat) :
    Option AccessErr × State :=
  let w := entryWidth m b.entry.toNat false
  match readVA s q.ctx (rowAddress b.inp.toNat w p) (2 * w) q.service (Source.engineOf e) with
  | (.err f, s1) => (some f, s1)
  | (.ok row, s1) =>
    match readVA s1 q.ctx (rowExps b.inp.toNat w b.npos.toNat p) (entrySegments m b.entry.toNat false) q.service (Source.engineOf e) with
    | (.err f, s2) => (some f, s2)
    | (.ok exps, s2) =>
      let at_ := rowPlace tiles false node p w
      (none, localWrite (localWrite s2 at_.1 at_.2 row) at_.1 (at_.2 + rowStride w) exps)

/-- Output row p goes from the local store where it lies to the image; bytes between the rows are not written. -/
def takeRow (s : State) (e : Nat) (q : Entry) (b : RecChunkBody) (m : List Byte) (tiles : List Nat) (node p : Nat) :
    Option AccessErr × State :=
  let w := entryWidth m b.entry.toNat true
  let at_ := rowPlace tiles true node p w
  match writeVA s q.ctx (rowAddress b.out.toNat w p) (localRead s at_.1 at_.2 (2 * w)) none q.service (Source.engineOf e) with
  | (some f, s1) => (some f, s1)
  | (none, s1) =>
    writeVA s1 q.ctx (rowExps b.out.toNat w b.npos.toNat p)
      (localRead s at_.1 (at_.2 + rowStride w) (entrySegments m b.entry.toNat true)) none q.service (Source.engineOf e)

/-- Does a thing for every position until an access fails. -/
def eachRow (f : State → Nat → Option AccessErr × State) (l : List Nat) (s : State) : Option AccessErr × State :=
  l.foldl (fun acc p => match acc with | (none, u) => f u p | r => r) (none, s)

/-- Nothing of the entry precedes a node; nothing follows it. -/
def GraphNode.isFirst (d : GraphNode) : Bool := d.pred.all fun p => p == 0xFFFF
def isLast (nodes : List (Nat × GraphNode)) (i : Nat) : Bool := nodes.all fun q => !q.2.pred.contains i

/-- The input rows of a chunk are given to a gang that starts; a read that fails ends the request (R211). -/
def giveRows (s : State) (e : Nat) (q : Entry) (p : Package) (w i c : Nat) (tiles : List Nat) : State :=
  let d := graphNode p.graph i
  match q.cmd with
  | .recChunk b =>
    if !d.isFirst then s
    else
      match eachRow (fun u k => giveRow u e q b p.manifest tiles i k) (chunkPositions q p.manifest d w c) s with
      | (none, s1) => s1
      | (some f, s1) => failEngine s1 e f
  | _ => s

/-- The output rows of tile t's rank are taken as its program ends. -/
def takeRows (s : State) (e : Nat) (q : Entry) (p : Package) (w i c t : Nat) (tiles : List Nat) : State :=
  let d := graphNode p.graph i
  match q.cmd with
  | .recChunk b =>
    if b.out = 0 ∨ !isLast (requestNodes s q) i then s
    else
      let mine := (chunkPositions q p.manifest d w c).filter fun k =>
        (rowPlace tiles true i k (entryWidth p.manifest b.entry.toNat true)).1 == t
      match eachRow (fun u k => takeRow u e q b p.manifest tiles i k) mine s with
      | (none, s1) => s1
      | (some f, s1) => failEngine s1 e f
  | _ => s

/-- An expanded gang starts: the engine writes its dispatch blocks and control blocks, starts its walks, and its tiles start
(R141, R214, R393). `e` is the gang's own entry, `x` it, `q` the request's entry. -/
def startGang (s : State) (e : Nat) (x q : Entry) (p : Package) (tiles : List Nat) : State :=
  let w := x.node / 65536
  let d := graphNode p.graph (x.node % 65536)
  let args := d.args.map (argValue p d)
  let prog := (p.handle.toNat % 64) * 2 ^ 40 + d.prog
  let s1 := startTiles s e x prog d.len args tiles
  let s2 := (List.range tiles.length).foldl (fun u r =>
    let t := tiles.getD r 0
    let u1 := d.args.foldl (fun v a =>
      if a / 2 ^ 60 = 4 then localWrite v t (bitsOf a 20 0) (dispatchBlock q p.manifest d w x.chunk r) else v) u
    if d.kind = 2 then localWrite u1 t d.lsoff (gangControl q p.manifest d w x.chunk) else u1) s1
  let s3 := giveRows s2 e q p w (x.node % 65536) x.chunk tiles
  if d.kind = 1 then
    let r := (List.range tiles.length).foldl (fun (acc : Tbl Walk × State) r =>
      let k := rankWalk acc.2 q d w x.chunk r
      (tblPut acc.1 r k.1, k.2)) ([], s3)
    modEntry r.2 e fun y => { y with walks := r.1 }
  else s3

end Sys2Proof.Machine
end

