-- ==== Sys2Proof/Machine/Steps.lean ====
section
/-! DEFINITION. STEP, PREFILL and REC_CHUNK up to their layer pass: admission checks (R131 to R135, R160, R211), stream checks (R138),
reservations (R140, R165, R177, R217), the growth sequence (R199, R200) and the expansion through the graph (R141, R393). -/

namespace Sys2Proof.Machine

/-! ### Presentation queues (R134, R342) -/

/-- The ring is an enabled presentation queue of the function that no disable waits on. -/
def isQueue (s : State) (f q : Nat) : Bool :=
  let r := ringOf s f q
  decide (q < 256) && r.en && decide (r.kind = 2) && !r.busy

/-- OUT and PQ keep R134; `both`: neither may be given, as in a PREFILL (R160). -/
def outputsOk (s : State) (f : Nat) (out : BitVec 64) (pq : BitVec 16) (neither : Bool) : Bool :=
  decide (out.toNat % 64 = 0) &&
  (if pq = 0xFFFF then decide (out ≠ 0) || neither else decide (out = 0) && isQueue s f pq.toNat)

/-! ### Trees (R132, R135) -/

/-- A tree of n nodes keeps R135. -/
def treeOk (n : Nat) (parent : BitVec 64) (tokens : List (BitVec 16)) : Bool :=
  treeParent parent 0 == 0 &&
  ((List.range 16).all fun i =>
    if i < n then i == 0 || decide (treeParent parent i < i)
    else treeParent parent i == 0 && tokens.getD i 0 == 0) &&
  ((List.range n).all fun i => (List.range n).all fun j =>
    !(decide (0 < i) && decide (i < j) && treeParent parent i == treeParent parent j && tokens.getD i 0 == tokens.getD j 0))

/-- The tree fields of batch-entry bytes: NODES, PARENT, the 16 tokens. -/
def treeOf (bs : List Byte) : Nat × BitVec 64 × List (BitVec 16) :=
  (fieldAt bs 2 1, BitVec.ofNat 64 (fieldAt bs 8 8), (List.range 16).map fun i => BitVec.ofNat 16 (fieldAt bs (16 + 2 * i) 2))

/-- A part of a request before its dispatch. -/
def newPart (stream nodes : Nat) (tsrc : Bool) (itemp : BitVec 16) (topk : Nat) (parent : BitVec 64)
    (tokens : List (BitVec 16)) : Part :=
  { stream := stream, nodes := nodes, tsrc := tsrc, itemp := itemp, topk := topk, parent := parent, tokens := tokens
    outcome := none, waiting := false, told := false, slots := [], reserved := [], recReserved := [], newRuns := [], basePos := 0
    wave := 0, path := [], bonus := 0, scores := [], draft := none }

/-- One batch entry as a part. -/
def parseBatch (bs : List Byte) : Part :=
  let t := treeOf bs
  newPart (fieldAt bs 0 2) t.1 (bitOf (fieldAt bs 3 1) 0) (BitVec.ofNat 16 (fieldAt bs 4 2)) (fieldAt bs 6 1) t.2.1 t.2.2

/-- A batch entry keeps R132 and R135. -/
def batchOk (bs : List Byte) : Bool :=
  let p := parseBatch bs
  decide (fieldAt bs 3 1 < 2) && fieldAt bs 7 1 == 0 && zeroAt bs 48 16 && decide (1 ≤ p.topk) && decide (p.topk ≤ 64) &&
  (if p.tsrc then p.nodes == 0 && p.parent == 0 && p.tokens.all (fun t => t == 0)
   else decide (1 ≤ p.nodes) && decide (p.nodes ≤ 16) && treeOk p.nodes p.parent p.tokens)

/-! ### Admission checks -/

/-- The packages of the open streams that a list names. -/
def namedHandles (s : State) (c : Nat) (streams : List Nat) : List (BitVec 32) :=
  ((streams.filter (openIn s c)).map fun i => (streamOf s i).handle).eraseDups

/-- The engine-written areas of an entry's nodes fit the local store, for the given rows of each batch entry (R134, R391). -/
def areasOk (p : Package) (cmd : Command) (rows : List Nat) : Bool :=
  match entryFor p cmd with
  | none => true
  | some n =>
    (nodesOf p n).all fun q =>
      let d := q.2
      (List.range d.gang).all fun r =>
        let mine := (List.range rows.length).filter fun j => j % max 1 d.gang == r
        let total := (mine.map fun j => rows.getD j 0).sum
        (d.kind != 3 || decide (d.lsoff + 8 * fieldAt p.manifest 43 1 * total ≤ 2 ^ 21)) &&
        (d.kind != 4 || decide (d.lsoff + 64 * mine.length ≤ 2 ^ 21)) &&
        d.args.all fun a => a / 2 ^ 60 != 4 || decide (bitsOf a 20 0 + 16 + 16 * mine.length ≤ 2 ^ 21)

/-- Admission of a STEP: the parts of its batch table, or the status that ends it (R133, R134, R276, R277). -/
def stepCheck (s : State) (c : Nat) (b : StepBody) : Except (BitVec 8) (List Part) :=
  if b.nstreams = 0 ∨ 1024 < b.nstreams.toNat ∨ b.batch.toNat % 64 ≠ 0 ∨ !outputsOk s c b.out b.pq false then .error stInvalid
  else
    match hostRead s b.batch.toNat (64 * b.nstreams.toNat) with
    | .error => .error stLowerError
    | .late => .error stLowerLate              -- the read goes on until its limit (R277)
    | .data bs =>
      let raw := (List.range b.nstreams.toNat).map fun i => (bs.drop (64 * i)).take 64
      let parts := raw.map parseBatch
      let streams := parts.map Part.stream
      let rows := parts.map fun p => if p.tsrc then 16 else p.nodes
      let k := (ctxOf s c).getD Ctx.reset
      let handles := namedHandles s c streams
      let pkgBad : Bool :=
        match handles with
        | [] => false
        | [h] => (match packageOf k h with
          | none => false
          | some p =>
            (parts.any fun q => decide (fieldAt p.manifest 43 1 < q.topk) ||
              (!q.tsrc && (q.tokens.take q.nodes).any fun t => decide (fieldAt p.manifest 44 4 ≤ t.toNat))) ||
            !areasOk p (.step b) rows)
        | _ => true
      if !(raw.all batchOk) ∨ 8192 < rows.sum ∨ streams.eraseDups.length ≠ streams.length ∨ pkgBad then .error stInvalid
      else .ok parts

/-- Admission of a PREFILL (R160). TOKENS are read when it starts (DEDUCED, log 30). -/
def prefillCheck (s : State) (c : Nat) (b : PrefillBody) : Except (BitVec 8) (List Part) :=
  let sample := b.flags.getLsbD 0
  let k := (ctxOf s c).getD Ctx.reset
  let pkgBad : Bool :=
    if openIn s c b.stream.toNat then
      match packageOf k (streamOf s b.stream.toNat).handle with
      | none => false
      | some p => (sample && decide (fieldAt p.manifest 43 1 < b.topk.toNat)) ||
          !areasOk p (.prefill b) [min 256 (b.ntok.toNat + 1)]
    else false
  if 4 ≤ b.flags.toNat ∨ b.ntok = 0 ∨ 32768 < b.ntok.toNat ∨ b.tokens.toNat % 64 ≠ 0 ∨ !outputsOk s c b.out b.pq true ∨
      (sample ∧ (b.topk = 0 ∨ 64 < b.topk.toNat)) ∨ pkgBad then .error stInvalid
  else .ok [newPart b.stream.toNat 0 false b.itemp b.topk.toNat 0 []]

/-- Admission of a REC_CHUNK (R211): ENTRY is checked against the package of an open stream. -/
def recCheck (s : State) (c : Nat) (b : RecChunkBody) : Except (BitVec 8) (List Part) :=
  let k := (ctxOf s c).getD Ctx.reset
  let entryBad : Bool :=
    if openIn s c b.stream.toNat then
      match packageOf k (streamOf s b.stream.toNat).handle with
      | none => false
      | some p => (entryFor p (.recChunk b)).isNone
    else false
  if b.npos = 0 ∨ 65536 < b.npos.toNat ∨ b.inp.toNat % 64 ≠ 0 ∨ b.out.toNat % 64 ≠ 0 ∨ b.marks.toNat % 64 ≠ 0 ∨ entryBad then
    .error stInvalid
  else .ok [newPart b.stream.toNat b.npos.toNat false 0 0 0 []]

/-! ### Reservations (R140, R165, R177, R217) -/

/-- The next index in ring order that is unmapped at every layer and held by no undrained epoch, leaving out the used ones (R165). -/
def nextIndex (t : Stream) (j : Nat) (used : List Nat) : Option Nat :=
  ((List.range (pplOf t.layers - 1)).map fun k => (j + 1 + k) % pplOf t.layers).find? fun i =>
    !mappedAny t i && !(t.held.any fun h => h.index == i) && !used.contains i

/-- The next n consecutive slots from slot r of index j; none when the ring is full. -/
def slotsFrom (t : Stream) : Nat → Nat → Nat → List Nat → Option (List (Nat × Nat))
  | 0, _, _, _ => some []
  | n + 1, j, r, used =>
    if r < 64 then (slotsFrom t n j (r + 1) used).map fun l => (j, r) :: l
    else match nextIndex t j used with
      | none => none
      | some i => (slotsFrom t n i 1 (i :: used)).map fun l => (i, 0) :: l

/-- The slots of n candidates of a stream, from the first free slot of its tail (R140). -/
def candidateSlots (t : Stream) (n : Nat) : Option (List (Nat × Nat)) := slotsFrom t n t.tail t.tailFree [t.tail]

/-- Indices that a list of slots touches. -/
def touched (slots : List (Nat × Nat)) : List Nat := (slots.map Prod.fst).eraseDups

/-- Working regions of recurrent layer r that a command uses (R217). -/
def workingRegions (m : List Byte) (cmd : Command) (n r : Nat) : Nat :=
  match cmd with
  | .step _ => n
  | _ => if (n + recChunkLen m r - 1) / recChunkLen m r ≤ 1 then 1 else 2

/-- The window pages of the working regions of stream i. -/
def workingPages (m : List Byte) (cmd : Command) (i n : Nat) : List Nat :=
  (List.range (nrec m)).flatMap fun r => (List.range (workingRegions m cmd n r)).flatMap fun q =>
    (List.range (recPages m r)).map fun k => regionPage i r (q + 1) + k

/-- Quads that a pool can give. -/
def Pool.offers (p : Pool) (resv : Bool) : Nat := p.free.length + (if resv then p.resv.length else 0)

/-- The command appends KV positions. -/
def appends (c : Command) : Bool :=
  match c with
  | .recChunk _ => false
  | _ => true

/-- The slots of a part's candidates; none when the ring is full. -/
def partSlots (t : Stream) (cmd : Command) (p : Part) : Option (List (Nat × Nat)) :=
  if appends cmd then candidateSlots t p.nodes else some []

/-- Quads that a part's reservation takes from the pool of its stream's KV tier: one for each page and layer that its slots touch and
for each unbacked table page (R177). -/
def kvQuads (k : Ctx) (t : Stream) (p : Part) (slots : List (Nat × Nat)) : Nat :=
  (touched slots).length * t.layers + (unbackedPages k t.layers p.stream (touched slots)).length

/-- Quads of the two tiers that a part's reservation takes in all (R177, R217); none when the ring is full. -/
def partQuads (k : Ctx) (m : List Byte) (cmd : Command) (p : Part) (t : Stream) : Option (Nat × Nat) :=
  (partSlots t cmd p).map fun slots =>
    let n := kvQuads k t p slots
    let w := (workingPages m cmd p.stream p.nodes).length
    if t.kvTier then (0, n + w) else (n, w)

/-- Tries the reservation of a part: the slots, one quad for each page and layer and for each unbacked table page, and quads for
the working regions. `resv`: the reserve pools may be used. Answers the part, the context and whether a reserve was used, or the tier
that is short. -/
def tryReserve (k : Ctx) (t : Stream) (m : List Byte) (cmd : Command) (p : Part) (resv : Bool) : Except Bool (Part × Ctx × Bool) :=
  match partSlots t cmd p with
  | none => .error t.kvTier
  | some slots =>
    let pages := workingPages m cmd p.stream p.nodes
    match (k.pool t.kvTier).takeWhole (kvQuads k t p slots) resv with
    | none => .error t.kvTier
    | some (q0, pool0, n0) =>
      let k1 := k.setPool t.kvTier pool0
      match (k1.pool true).takeWhole pages.length resv with
      | none => .error true
      | some (q1, pool1, n1) =>
        .ok ({ p with slots := slots, reserved := q0, recReserved := q1, waiting := false, basePos := t.positions },
          backPages (k1.setPool true pool1) true pages q1, decide (n0 + n1 ≠ 0))

/-! ### The growth sequence (R199, R200) -/

/-- The Harvest profile of a stream (R198). -/
def profileOf (k : Ctx) (t : Stream) : Profile := k.profiles.getD t.profile.toNat Profile.reset

/-- A position number is protected when the position count is P (R195). -/
def protectedPos (f : Profile) (count pos : Nat) : Bool :=
  decide (pos < f.sink.toNat) || decide (count ≤ pos + f.recent.toNat)

/-- How far index j lies behind the tail in ring order. -/
def behindTail (t : Stream) (j : Nat) : Nat := (t.tail + pplOf t.layers - j) % pplOf t.layers

/-- The live slots of an index. -/
def liveSlots (t : Stream) (j : Nat) : List Nat := (List.range 64).filter fun r => (liveOf t j).getLsbD r

/-- Highest score among the live slots of an index. -/
def maxScore (t : Stream) (j : Nat) : Nat := (liveSlots t j).foldl (fun m r => max m (slotScore t j r)) 0

/-- The index that step 1 evicts next: a mapped non-tail index without a protected slot, with the lowest maximum score, the older
one on a tie. -/
def evictNext (t : Stream) (f : Profile) : Option Nat :=
  ((List.range (pplOf t.layers)).filter fun j =>
    mappedAny t j && j != t.tail && (liveSlots t j).all fun r => !protectedPos f t.positions.toNat (slotPos t j r)).foldl
    (fun best j =>
      match best with
      | none => some j
      | some b =>
        if maxScore t j < maxScore t b ∨ (maxScore t j = maxScore t b ∧ behindTail t b < behindTail t j) then some j else some b)
    none

/-- Quads that become wholly free once every run whose count of references reaches 0 is freed. -/
def quadsFreed (s : State) (p : Pool) (keys : List Nat) : Nat :=
  let gone := keys.eraseDups.filter fun k =>
    match tblGet s.runs k with | some r => decide (r.refs ≤ (keys.filter fun x => x == k).length) | none => false
  let left (q : Nat) : Nat := gone.foldl (fun m k =>
    let f := k % 2 ^ 24
    if f / 4 = q then m &&& (15 ^^^ frameMask (f % 4) (match tblGet s.runs k with | some r => r.frames | none => 0)) else m)
    (tblGetD p.part q 0)
  ((gone.map fun k => k % 2 ^ 24 / 4).eraseDups.filter fun q => left q == 0).length

/-- The shortfall is covered: the free quads of each tier and those that the runs given up will free are as many as `need` says that
the stream takes (R199). -/
def covered (s : State) (k : Ctx) (need : Stream → Option (Nat × Nat)) (t : Stream) (keys : List Nat) : Bool :=
  let have_ (tier : Bool) : Nat := (k.pool tier).offers false + quadsFreed s (k.pool tier) (keys.filter fun r => keyTier r == tier)
  match need t with
  | none => false
  | some (a, b) => decide (a ≤ have_ false) && decide (b ≤ have_ true)

/-- Evicts indices until the evictions cover the shortfall or none is left. Answers the stream, the runs and indices given up, and
whether the shortfall is covered. -/
def evictGo (s : State) (k : Ctx) (f : Profile) (need : Stream → Option (Nat × Nat)) :
    Nat → Stream → List Nat → List Nat → Stream × List Nat × List Nat × Bool
  | 0, t, keys, js => (t, keys, js, false)
  | fuel + 1, t, keys, js =>
    if covered s k need t keys then (t, keys, js, true)
    else match evictNext t f with
      | none => (t, keys, js, false)
      | some j =>
        let r := unmapIndices t [j]
        evictGo s k f need fuel r.1 (keys ++ r.2) (js ++ [j])

/-- Step 1 of the sequence: evicts and closes an epoch. Answers whether the shortfall will be covered. -/
def growthEvict (s : State) (e c i : Nat) (need : Stream → Option (Nat × Nat)) : Bool × State :=
  match ctxOf s c with
  | none => (false, s)
  | some k =>
    let t := streamOf s i
    let f := profileOf k t
    if !f.gevict then (false, s)
    else
      let r := evictGo s k f need (pplOf t.layers + 1) t [] []
      if r.2.2.1.isEmpty then (r.2.2.2, s) else (r.2.2.2, (changeUnder s c i (some e) r.1 r.2.2.1 r.2.1).1)

/-- The part's stream enters GROWTH_WAIT; `event`: GROWTH is raised (R199). -/
def enterWait (s : State) (e j c i : Nat) (tier event : Bool) : State :=
  let t := streamOf s i
  let s1 := setStream s i { t with
    state := if t.state = .active then .growthWait else t.state, growTier := tier, pinnedEntry := some e }
  let s2 := modCtx s1 c fun k =>
    if k.growth.any fun g => g.1 == i then k else { k with growth := k.growth ++ [(i, tier)] }
  let s3 := modEntry s2 e fun x => { x with parts := x.parts.modify j fun p => { p with waiting := true, told := event } }
  if event then raiseEvent s3 c 0x01 i (if tier then 1 else 0) else s3

/-- Applies a reservation that is met. -/
def applyReserve (s : State) (e j c : Nat) (r : Part × Ctx × Bool) (wave : Nat) : State :=
  let s1 := modEntry (setCtx s c r.2.1) e fun x => { x with parts := x.parts.set j { r.1 with wave := wave } }
  if r.2.2 then bumpFn s1 c 7 1 else s1

/-- The reservation of part j at dispatch, with the growth sequence when it is not met (R140, R199). -/
def reservePart (s : State) (e j : Nat) (m : List Byte) (wave : Nat) : State :=
  match entryOf s e with
  | none => s
  | some x =>
    match x.parts[j]?, ctxOf s x.ctx with
    | some p, some k =>
      let t := streamOf s p.stream
      (match tryReserve k t m x.cmd p false with
       | .ok r => applyReserve s e j x.ctx r wave
       | .error tier =>
         match growthEvict s e x.ctx p.stream (partQuads k m x.cmd p) with
         | (true, s1) => enterWait s1 e j x.ctx p.stream tier false
         | (false, s1) =>
           match ctxOf s1 x.ctx with
           | none => s1
           | some k1 =>
             match tryReserve k1 (streamOf s1 p.stream) m x.cmd p true with
             | .ok r => applyReserve s1 e j x.ctx r wave
             | .error tier1 => enterWait s1 e j x.ctx p.stream tier1 true)
    | _, _ => s

/-! ### Expansion (R249, R393) -/

/-- Adds a Docket entry for an operation expanded from request e; it enters at QUEUED (R249). -/
def addChild (s : State) (e : Nat) (x : Entry) (node chunk : Nat) : State :=
  let id := s.docket.nextId
  let y : Entry := { x with
    state := .queued, parent := some e, readyTime := now s, dispatched := false, overdue := false, status := none
    epoch := none, tiles := [], node := node, chunk := chunk, parts := [], ended := [], begun := [], walks := []
    sampled := [], lists := [], image := [], quads := [], quads1 := [], images := [], installed := [], lateAt := none }
  { s with docket := { s.docket with nextId := id + 1, entries := tblPut s.docket.entries id y } }

/-- Expands every gang of wave w that may start; a wave without a stream has no gang (R163). -/
def expand (s : State) (e w : Nat) : State :=
  match entryOf s e with
  | none => s
  | some x =>
    match requestPackage s x with
    | none => s
    | some p =>
      if (waveParts x w).isEmpty then s else
      (readyGangs x p.manifest (requestNodes s x) w).foldl (fun u g =>
        addChild (modEntry u e fun y => { y with begun := y.begun ++ [(waveNode w g.1, g.2)] }) e x (waveNode w g.1) g.2) s

/-- Waves of a request that still run. -/
def openWaves (x : Entry) : List Nat :=
  ((x.parts.filter fun p => p.outcome.isNone && p.wave != 0).map Part.wave).eraseDups

/-- The number of the request's next wave. -/
def nextWave (x : Entry) : Nat := 1 + (x.parts.map Part.wave).foldl max 0

/-! ### Stream checks at dispatch (R136, R138) -/

/-- The package has a draft node (R136). -/
def hasDraft (p : Package) : Bool := (List.range (fieldAt p.manifest 14 2)).any fun i => (graphNode p.graph i).kind == 4

/-- What a stream does to its part: none when it takes part, or the record's status. -/
def streamVerdict (s : State) (x : Entry) (p : Part) : Option (BitVec 8) :=
  let t := streamOf s p.stream
  if !openIn s x.ctx p.stream then some stInvalid
  else if t.state = .faulted then some stJobFaulted
  else
    match requestPackage s x, ctxOf s x.ctx with
    | some pk, some _ =>
      if t.handle ≠ pk.handle ∨ (entryFor pk x.cmd).isNone then some stInvalid
      else if p.tsrc ∧ (t.tree.isNone ∨ !hasDraft pk) then some stInvalid
      else none
    | _, _ => some stInvalid

/-- A part with the tree its stream holds (R136), or with the run of its PREFILL (R161). -/
def loadPart (s : State) (x : Entry) (p : Part) (run : List (BitVec 16)) : Part :=
  let t := streamOf s p.stream
  match x.cmd with
  | .step _ =>
    if p.tsrc then
      let k := treeOf (t.tree.getD [])
      { p with nodes := k.1, parent := k.2.1, tokens := k.2.2 }
    else p
  | .prefill _ =>
    let all := (match t.pending with | some k => [k] | none => []) ++ run
    { p with nodes := all.length, tokens := all }
  | _ => p

/-- Reads the tokens of a PREFILL: from host memory, or from the context's space with TDEV = 1 (R160, R276, R277). -/
def readTokens (s : State) (e : Nat) (x : Entry) (b : PrefillBody) : Got × State :=
  let n := 2 * b.ntok.toNat
  if b.flags.getLsbD 1 then readVA s x.ctx b.tokens.toNat n x.service (.engineOf e)
  else
    match hostRead s b.tokens.toNat n with
    | .data bs => (.ok bs, s)
    | .error => (.err (.lower stLowerError), s)
    | .late => (.err .late, s)

/-- What a request reads when it starts: the tokens of a PREFILL, the marks of a REC_CHUNK (R160, R210, R211). -/
def startInputs (s : State) (e : Nat) (x : Entry) : Got × State :=
  match x.cmd with
  | .prefill b => if openIn s x.ctx b.stream.toNat then readTokens s e x b else (.ok [], s)
  | .recChunk b =>
    if b.marks = 0 then (.ok [], s) else readVA s x.ctx b.marks.toNat ((b.npos.toNat + 7) / 8) x.service (.engineOf e)
  | _ => (.ok [], s)

/-- A PREFILL token is not below the vocabulary size (R160). -/
def tokensBad (s : State) (x : Entry) (bs : List Byte) : Bool :=
  match x.cmd, requestPackage s x with
  | .prefill _, some p => (List.range (bs.length / 2)).any fun i => decide (fieldAt p.manifest 44 4 ≤ fieldAt bs (2 * i) 2)
  | _, _ => false

/-- Settles or reserves every part of a request at its dispatch; the parts that take part form wave 1 (R138, R140). -/
def reserveParts (s : State) (e : Nat) (x : Entry) (run : List (BitVec 16)) (m : List Byte) : State :=
  (List.range x.parts.length).foldl (fun u j =>
    match entryOf u e with
    | none => u
    | some y =>
      match y.parts[j]? with
      | none => u
      | some p =>
        match streamVerdict u y p with
        | some st => settlePart u e j st 0 (streamOf u p.stream).positions.toNat 0 []
        | none =>
          let u1 := setEntry u e { y with parts := y.parts.set j (loadPart u y p run) }
          let t := streamOf u1 p.stream
          reservePart (setStream u1 p.stream { t with pinnedEntry := some e }) e j m 1) s

/-- Streams of a request that lie in Fallow: their swap-ins come first (R138, R227). -/
def fallowStreams (s : State) (x : Entry) : List Nat :=
  (x.parts.map Part.stream).filter fun i => openIn s x.ctx i && decide ((streamOf s i).state = .fallow)

/-- A model request starts: its inputs are read, its streams are checked and reserved, and the first gangs are expanded. -/
def startModel (s : State) (e : Nat) (x : Entry) : State :=
  match startInputs s e x with
  | (.err f, s1) => failEngine (noteStart (modEntry s1 e fun y => { y with state := .running }) e) e f
  | (.ok bs, s1) =>
    if tokensBad s1 x bs then finish s1 e stInvalid
    else
      let run := (List.range (bs.length / 2)).map fun i => BitVec.ofNat 16 (fieldAt bs (2 * i) 2)
      let gen := match ctxOf s1 x.ctx with | some k => k.drbg.gen | none => 0
      let y := { x with state := .running, image := bs, drbgGen := gen }
      let m := match requestPackage s1 x with | some p => p.manifest | none => []
      expand (reserveParts (noteStart (setEntry s1 e y) e) e y run m) e 1

/-! ### Swap-ins before a consumer, and retries (R200, R227) -/

/-- The service of a request: its class, its context and its entry (R227, R320). -/
def requestService (e : Nat) (x : Entry) : Service := { cls := x.service, ctx := some x.ctx, entry := some e }

/-- Quads of the two tiers that a swap-in of stream i takes: a state-SRAM quad for each page and run that moves (R225). -/
def swapQuads (k : Ctx) (i : Nat) (t : Stream) : Option (Nat × Nat) :=
  some (0, (pagesIn k i false).length + (movedRuns t false).length)

/-- A swap-in that may use the reserve: from the free pool alone when that suffices, else a RESERVE_TAKE (R199, R200). -/
def swapInReserve (s : State) (c i : Nat) (v : Service) : SwapEnd × State :=
  match swapIn s c i v false with
  | (.short, s1) =>
    (match swapIn s1 c i v true with
     | (.done, s2) => (.done, bumpFn s2 c 7 1)
     | r => r)
  | r => r

/-- A stream whose wait for its swap-in is over: it waits no more. -/
def endSwapWait (s : State) (c e i : Nat) : State :=
  modCtx (modEntry s e fun x =>
      { x with parts := x.parts.map fun p => if p.stream = i then { p with waiting := false } else p }) c
    fun k => { k with growth := k.growth.filter fun g => g.1 != i }

/-- Retries the waiting part of one stream. A stream in Fallow waits for its swap-in and is brought back (R227); a part that is still
short keeps its place, on the tier that it is short of; one that step 1 let in without an event raises it then (R199, R200; DEDUCED,
log 54). -/
def retryStream (s : State) (c i : Nat) : State :=
  let t := streamOf s i
  match t.pinnedEntry.bind fun e => (entryOf s e).map fun x => (e, x), ctxOf s c with
  | some (e, x), some k =>
    if t.state = .fallow then
      match swapInReserve s c i (requestService e x) with
      | (.done, s1) => endSwapWait s1 c e i
      | (.lost cause unit, s1) => faultRequest s1 e cause unit
      | (.short, s1) => s1
    else
      let j := x.parts.findIdx fun p => p.stream == i && p.waiting
      (match x.parts[j]?, requestPackage s x with
       | some p, some pk =>
         (match tryReserve k t pk.manifest x.cmd p true with
          | .ok r =>
            let w := nextWave x
            let s1 := setStream (applyReserve s e j c r w) i { streamOf s i with state := .active }
            let s2 := modCtx s1 c fun k => { k with growth := k.growth.filter fun g => g.1 != i }
            expand s2 e w
          | .error tier =>
            let s1 := modCtx (setStream s i { t with growTier := tier }) c fun k =>
              { k with growth := k.growth.map fun g => if g.1 = i then (i, tier) else g }
            if p.told then s1
            else raiseEvent (modEntry s1 e fun y => { y with parts := y.parts.set j { p with told := true } }) c 0x01 i
              (if tier then 1 else 0))
       | _, _ => s)
  | _, _ => s

/-- GROWTH_RETRY: the streams that wait on a tier are retried in the order in which they entered the wait. -/
def growthRetry (s : State) (c : Nat) (tier : Bool) : State :=
  match ctxOf s c with
  | none => s
  | some k => ((k.growth.filter fun g => g.2 == tier).map Prod.fst).foldl (fun u i => retryStream u c i) s

end Sys2Proof.Machine
end

