-- ==== Sys2Proof/Machine/Attention.lean ====
section
/-! DEFINITION. The attention engine (R141 to R148, R162), sampling and verification (R149 to R154), and the commit of a stream:
rollback, Harvest, budget eviction, relocation, regions (R155, R156, R194 to R198, R218). -/

namespace Sys2Proof.Machine

/-! ### Rows of KV -/

/-- One position at one layer and head: K and V as stored, each with its RS8. -/
structure KvRow where
  k : List Byte
  ke : Byte
  v : List Byte
  ve : Byte
deriving DecidableEq, Repr

/-- Byte of element 0 of slot r, head h and side k of a raw page (R168). -/
def rawOffset (r h k : Nat) : Nat := h * 32768 + k * 16384 + r * 256

/-- Byte of the exponent of slot r, head h and side k of (l, j) in the exponent window of a stream (R168). -/
def expOffset (layers l j r h k : Nat) : Nat := (j * layers + l) * 256 + 4 * r + 2 * h + k

/-- A row of a stored page. -/
def pageRow (bytes exps : Memory) (layers l j r h : Nat) : KvRow :=
  { k := memReadN bytes (rawOffset r h 0) 256, ke := memRead exps (expOffset layers l j r h 0)
    v := memReadN bytes (rawOffset r h 1) 256, ve := memRead exps (expOffset layers l j r h 1) }

/-- A row of the candidate area of a local store: NR rows of the rank, row w, head h (R147; log 13). -/
def candidateRow (s : State) (t candoff nr w h : Nat) : KvRow :=
  let a := 256 * nr + (nr + 63) / 64 * 64
  let at_ (k : Nat) : Nat := candoff + (2 * h + k) * a
  { k := localRead s t ((at_ 0 + 256 * w) % 2 ^ 21) 256, ke := (localRead s t ((at_ 0 + 256 * nr + w) % 2 ^ 21) 1).headD 0
    v := localRead s t ((at_ 1 + 256 * w) % 2 ^ 21) 256, ve := (localRead s t ((at_ 1 + 256 * nr + w) % 2 ^ 21) 1).headD 0 }

/-! ### A delivered set (R143 to R146) -/

/-- A V row aligned to the set's exponent (R145). -/
def alignV (eset : Int) (x : KvRow) : List Byte :=
  let d := (eset - x.ve.toInt).toNat
  if d = 0 then x.v
  else if 16 ≤ d then List.replicate 256 0
  else (List.range 128).flatMap fun j => signedBytes 2 (rhu (elem16 x.v j) d)

/-- The 35,136 bytes of a set up to its score field: header, K, V and mask. `rows`: none for a masked row; `attends i r`: query
node i may attend to row r. -/
def setBytes (batch head kind layer rbase : Nat) (rows : List (Option KvRow)) (attends : Nat → Nat → Bool) : List Byte :=
  let present := rows.filterMap id
  let eset : Int := present.foldl (fun m x => max m x.ve.toInt) (-128)
  let row (r : Nat) : Option (Option KvRow) := rows[r]?
  leBytes 2 batch ++ leBytes 1 head ++ leBytes 1 kind ++ leBytes 1 rows.length ++ leBytes 1 layer ++ leBytes 4 rbase ++
    leBytes 54 0 ++
    ((List.range 64).flatMap fun r => match row r with | some (some x) => x.k | _ => List.replicate 256 0) ++
    ((List.range 64).map fun r => match row r with | some (some x) => x.ke | some none => (0x80 : Byte) | none => (0 : Byte)) ++
    ((List.range 64).flatMap fun r => match row r with | some (some x) => alignV eset x | _ => List.replicate 256 0) ++
    ((List.range 64).flatMap fun _ => signedBytes 1 eset) ++
    ((List.range 16).flatMap fun i => (List.range 64).flatMap fun r =>
      leBytes 2 (if decide (r < rows.length) && attends i r then 0 else 0xFFFF))

/-- Request entry and graph node of a running gang's entry. -/
def gangOf (s : State) (g : Nat) : Option (Entry × Nat × Entry × Package × GraphNode) :=
  match entryOf s g with
  | none => none
  | some y =>
    match y.parent with
    | none => none
    | some e =>
      match entryOf s e with
      | none => none
      | some x => (requestPackage s x).map fun p => (y, e, x, p, graphNode p.graph (y.node % 65536))

/-- Parts of a rank before batch index j, and the rank's row count: (first row of j, NR). -/
def rankRows (x : Entry) (m : List Byte) (d : GraphNode) (w c r j : Nat) : Nat × Nat :=
  let ps := rankParts x w d c r
  let n (q : Nat × Part) : Nat := gangRows x m d c q.2
  (((ps.filter fun q => decide (q.1 < j)).map n).sum, (ps.map n).sum)

/-- Why a page operation stops: the write finds no quad and waits, or a read of a page fails. -/
inductive PageStop where
  | waits
  | failed (e : AccessErr)
deriving DecidableEq, Repr

/-- Side effects of reads are kept; everything else stands as in `s`. -/
def keepReads (s u : State) : State := { s with hbm := u.hbm, dbg := u.dbg }

/-- A stream that a read made FAULTED stays so (R207). -/
def settleFaults (s u : State) (i : Nat) : State := if (streamOf u i).state = .faulted then faultStream s i else s

/-- The raw bytes of one head's half of a run's page: its 8 blocks (R168, R173). -/
def readHead (s : State) (key : Nat) (r : Run) (h : Nat) (v : Service) : Except AccessErr Memory × State :=
  if keyTier key && !quadRetired s true (key % 2 ^ 24 / 4) then (.ok r.bytes, s)
  else
    (List.range 8).foldl (fun acc b =>
      match acc with
      | (.ok m, u) =>
        (match readRun u key r (8 * h + b) v with
         | (.ok bs, u1) => (.ok (m ++ (bs.mapIdx fun i x => (4096 * (8 * h + b) + i, x)).filter fun p => p.2 != 0), u1)
         | (.error f, u1) => (.error f, u1))
      | e => e) (.ok [], s)

/-- The runs that hold the rows of a set: the page's run, or those of the run positions of earlier chunks (R162). -/
def setRuns (x : Entry) (d : GraphNode) (base : Nat) (a : WalkSet) : List Nat :=
  match x.parts[a.part]? with
  | none => []
  | some q =>
    if a.kind = 0 then [a.runKey]
    else
      (((List.range a.rows).map fun i => a.rbase + i).filterMap fun pos =>
        if pos < base then (q.slots[pos]?).bind fun w => tblGet q.newRuns (128 * w.1 + d.layer) else none).eraseDups

/-- Reads one head of every run of a list. A page of committed state that cannot be read makes its stream FAULTED (R207). -/
def readHeads (s : State) (i : Nat) (committed : Bool) (h : Nat) (v : Service) (keys : List Nat) :
    Except AccessErr (Tbl Memory) × State :=
  keys.foldl (fun acc key =>
    match acc with
    | (.ok t, u) =>
      (match tblGet u.runs key with
       | none => (.ok t, u)
       | some r =>
         match (if committed then faultOn i (readHead u key r h v) else readHead u key r h v) with
         | (.ok m, u1) => (.ok (tblPut t key m), u1)
         | (.error f, u1) => (.error f, u1))
    | e => e) (.ok [], s)

/-- First run position that a chunk of a PREFILL takes from its candidate rows (R162). -/
def chunkBase (x : Entry) (c : Nat) : Nat := match x.cmd with | .step _ => 0 | _ => 256 * c

/-- The rows of a set, from the pages read and the candidate rows. -/
def setRows (s : State) (x : Entry) (p : Package) (d : GraphNode) (w c r tile : Nat) (pages : Tbl Memory) (a : WalkSet) :
    List (Option KvRow) :=
  match x.parts[a.part]? with
  | none => []
  | some q =>
    let t := streamOf s q.stream
    if a.kind = 0 then
      (List.range 64).map fun k =>
        if a.live.getLsbD k then
          (tblGet pages a.runKey).map fun bytes => pageRow bytes t.exps t.layers d.layer a.index k a.head
        else none
    else
      let base := chunkBase x c
      let k0 := rankRows x p.manifest d w c r a.part
      (List.range a.rows).map fun i =>
        let pos := a.rbase + i
        if pos < base then
          (q.slots[pos]?).bind fun v =>
            ((tblGet q.newRuns (128 * v.1 + d.layer)).bind fun key => tblGet pages key).map fun bytes =>
              pageRow bytes t.exps t.layers d.layer v.1 v.2 a.head
        else some (candidateRow s tile d.candoff k0.2 (k0.1 + pos - base) a.head)

/-- Query node i may attend to row r of a set (R137, R146, R162). -/
def setMask (x : Entry) (a : WalkSet) (i r : Nat) : Bool :=
  match x.parts[a.part]? with
  | none => false
  | some q =>
    match x.cmd with
    | .step _ =>
      decide (i < q.nodes) && (if a.kind = 0 then a.live.getLsbD r else ancestorOf q.parent r 16 i)
    | _ => i == 0 && (a.kind != 0 || a.live.getLsbD r)

/-! ### Scores (R148) -/

/-- Folds the score field of a freed page set into the Harvest inputs of its stream (R148, R194). -/
def foldScore (s : State) (e tile buf : Nat) (a : WalkSet) : State :=
  if a.kind ≠ 0 then s
  else
    let bs := localRead s tile (buf + 35008) 128
    modEntry s e fun x => { x with parts := x.parts.modify a.part fun p =>
      { p with scores := (List.range 64).foldl (fun m r =>
          if a.live.getLsbD r then
            tblPut m (64 * a.index + r) (max (tblGetD m (64 * a.index + r) 0) (fieldAt bs (2 * r) 2))
          else m) p.scores } }

/-- Counter indices FILL and FREE of an attention node, by global number (R143, R392). A node names one pair, and every rank of its gang
uses it: FILL − FREE counts the sets of all ranks together (DESIGN CHOICE: R143 does not say whose pair it is, log 54). -/
def walkCounters (s : State) (c : Nat) (p : Package) (d : GraphNode) : Option (Nat × Nat) :=
  match syncIndex s c (p.cbase + d.fillc), syncIndex s c (p.cbase + d.freec) with
  | some a, some b => some (a, b)
  | _, _ => none

/-- Sets of a rank whose FREE has advanced: their scores are read, oldest first (R148). -/
def foldFreed (s : State) (g rank : Nat) : State :=
  match gangOf s g with
  | none => s
  | some (y, e, x, p, d) =>
    match walkCounters s x.ctx p d, tblGet y.walks rank with
    | some (fill, free), some k =>
      let held := (syncOf s fill).value.toNat - (syncOf s free).value.toNat
      let gone := k.open_.take (k.open_.length - held)
      let s1 := gone.foldl (fun u q => foldScore u e (y.tiles.getD rank 0) (d.lsoff + q.1 % max 1 d.b * 35136) q.2) s
      modEntry s1 g fun z => { z with walks := tblPut z.walks rank { k with open_ := k.open_.drop gone.length } }
    | _, _ => s

/-- After an addition to a counter, every attention gang of its context reads the scores of the buffers freed (R148). -/
def foldContext (s : State) (c : Nat) : State :=
  (s.docket.entries.filter fun p => decide (p.2.ctx = c) && !p.2.walks.isEmpty).foldl (fun u p =>
    (List.range p.2.tiles.length).foldl (fun v r => foldFreed v p.1 r) u) s

/-! ### KV_SET_DELIVER (R143) -/

/-- The attention engine writes the next set of a rank into a free buffer and adds 1 to FILL; while every buffer is in use,
nothing changes. -/
def kvSetDeliver (s0 : State) (g rank : Nat) : State :=
  let s := foldFreed s0 g rank
  match gangOf s g with
  | none => s
  | some (y, e, x, p, d) =>
    match walkCounters s x.ctx p d, tblGet y.walks rank with
    | some (fill, free), some k =>
      (match k.todo with
       | [] => s
       | a :: rest =>
         if (syncOf s fill).poisoned || (syncOf s free).poisoned ||
             decide (d.b ≤ (syncOf s fill).value.toNat - (syncOf s free).value.toNat) then s
         else
           let w := y.node / 65536
           let tile := y.tiles.getD rank 0
           let i := (x.parts[a.part]?).elim 0 Part.stream
           match readHeads s i (a.kind == 0) a.head (requestService e x) (setRuns x d (chunkBase x y.chunk) a) with
           | (.error f, s1) => failEngine s1 e f
           | (.ok pages, s1) =>
             let bytes :=
               setBytes a.part a.head a.kind d.layer a.rbase (setRows s x p d w y.chunk rank tile pages a) (setMask x a)
             let s2 := localWrite s1 tile (d.lsoff + k.delivered % d.b * 35136) bytes
             let k1 := { k with todo := rest, delivered := k.delivered + 1, open_ := k.open_ ++ [(k.delivered, a)] }
             let s3 := modEntry s2 g fun z => { z with walks := tblPut z.walks rank k1 }
             let r := addSync s3 fill 1
             if r.2 then faultRequest r.1 e 0x0E 0 else r.1)
    | _, _ => s

/-! ### CANDIDATE_WRITE (R147) -/

/-- A run that only part j names is freed; a quad that it leaves wholly free is the part's again (R177). -/
def releaseOwn (s : State) (e j key : Nat) : State :=
  match tblGet s.runs key with
  | none => s
  | some r =>
    let s1 := releaseRun s key
    match ctxOf s1 r.ctx with
    | none => s1
    | some k =>
      let tier := keyTier key
      let q := key % 2 ^ 24 / 4
      let p := k.pool tier
      if p.free.contains q || p.resv.contains q then
        modEntry (setCtx s1 r.ctx (k.setPool tier { p with free := p.free.filter (· != q), resv := p.resv.filter (· != q) })) e
          fun x => { x with parts := x.parts.modify j fun v => { v with reserved := v.reserved ++ [q] } }
      else s1

/-- Writes a raw page of part j as a run, in place of a run `old` that only the part names. It goes where R176 puts it: into a quad in
use, or into one that the part reserved. Where another write has taken room in the part's own quad it may find neither; it then takes
a quad of the free pool, and waits while there is none (DESIGN CHOICE, log 52). Answers the run's key. -/
def placePage (s : State) (e j : Nat) (old : Option Nat) (slot : Option Nat) (bytes : Memory) : Option (Nat × State) :=
  let s0 := match old with | some key => releaseOwn s e j key | none => s
  match entryOf s0 e with
  | none => none
  | some x =>
    match x.parts[j]?, ctxOf s0 x.ctx with
    | some p, some k =>
      let t := streamOf s0 p.stream
      let v := requestService e x
      (match writeRun s0 x.ctx t.heads t.kvTier slot bytes p.reserved v with
       | some (leaf, left, s1) =>
         some (runKey leaf, modEntry s1 e fun y => { y with parts := y.parts.modify j fun q => { q with reserved := left } })
       | none =>
         match writeRun s0 x.ctx t.heads t.kvTier slot bytes ((k.pool t.kvTier).free.take 1) v with
         | some (leaf, _, s1) =>
           some (runKey leaf, modCtx s1 x.ctx fun c =>
             c.setPool t.kvTier { c.pool t.kvTier with free := (c.pool t.kvTier).free.drop 1 })
         | none => none)
    | _, _ => none

/-- Backs the table pages of the indices that a part writes, with its reserved quads (R169, R177). -/
def backReserved (s : State) (e j c i : Nat) (js : List Nat) : State :=
  match entryOf s e, ctxOf s c with
  | some x, some k =>
    let t := streamOf s i
    let need := unbackedPages k t.layers i js
    let qs := ((x.parts[j]?).map Part.reserved).getD []
    modEntry (setCtx s c (backPages k t.kvTier need (qs.take need.length))) e fun y =>
      { y with parts := y.parts.modify j fun q => { q with reserved := q.reserved.drop need.length } }
  | _, _ => s

/-- Puts rows into a raw page: (slot, head, row). -/
def putRows (bytes : Memory) (rows : List (Nat × Nat × KvRow)) : Memory :=
  rows.foldl (fun m q => memWriteN (memWriteN m (rawOffset q.1 q.2.1 0) q.2.2.k) (rawOffset q.1 q.2.1 1) q.2.2.v) bytes

/-- Puts the exponents of rows into an exponent window. -/
def putExps (exps : Memory) (layers l j : Nat) (rows : List (Nat × Nat × KvRow)) : Memory :=
  rows.foldl (fun m q =>
    memWrite (memWrite m (expOffset layers l j q.1 q.2.1 0) q.2.2.ke) (expOffset layers l j q.1 q.2.1 1) q.2.2.ve) exps

/-- Raw page bytes of (l, j) as a part sees them: its own new run, or the run of the leaf (R207). -/
def currentPage (s : State) (v : Service) (p : Part) (l j : Nat) : Except AccessErr Memory × State :=
  let t := streamOf s p.stream
  match tblGet p.newRuns (128 * j + l) with
  | some key => (match tblGet s.runs key with | some r => readPage s key r v | none => (.ok [], s))
  | none =>
    let k := leafOf t l j
    if !k.map then (.ok [], s)
    else match tblGet s.runs (runKey k) with
      | some r => faultOn p.stream (readPage s (runKey k) r v)
      | none => (.ok [], s)

/-- Position number of candidate k of a part (R135, R161). -/
def candidatePos (x : Entry) (p : Part) (k : Nat) : Nat :=
  p.basePos.toNat + (match x.cmd with | .step _ => depthOf p.parent 16 k | _ => k)

/-- Rewrites page (l, j) of a part from what it holds now; answers the state, or why it stops. -/
def rewritePage (s : State) (e j l idx : Nat) (f : Memory → Memory) : Except PageStop Unit × State :=
  match entryOf s e with
  | none => (.error .waits, s)
  | some x =>
    match x.parts[j]? with
    | none => (.error .waits, s)
    | some p =>
      match currentPage s (requestService e x) p l idx with
      | (.error g, s1) => (.error (.failed g), s1)
      | (.ok bytes, s1) =>
        match placePage s1 e j (tblGet p.newRuns (128 * idx + l)) (streamKvSlot s x.ctx (streamOf s p.stream)) (f bytes) with
        | none => (.error .waits, s1)
        | some (key, s2) =>
          (.ok (), modEntry s2 e fun z =>
            { z with parts := z.parts.modify j fun q => { q with newRuns := tblPut q.newRuns (128 * idx + l) key } })

/-- Does a page operation for every element of a list until one stops. -/
def eachPage {α : Type} (f : State → α → Except PageStop Unit × State) (l : List α) (s : State) : Except PageStop Unit × State :=
  l.foldl (fun acc a => match acc with | (.ok _, u) => f u a | r => r) (.ok (), s)

/-- Writes the candidates of one chunk of a part at one layer to one index: the page, the exponents, the slot record. -/
def writeIndex (e j l : Nat) (x : Entry) (rows : List (Nat × Nat × Nat × KvRow)) (s : State) (idx : Nat) :
    Except PageStop Unit × State :=
  match x.parts[j]? with
  | none => (.ok (), s)
  | some p =>
    let mine := rows.filter fun q => q.2.1 == idx
    let data := mine.filterMap fun q => (p.slots[q.1]?).map fun w => (w.2, q.2.2.1, q.2.2.2)
    match rewritePage s e j l idx fun bytes => putRows bytes data with
    | (.error g, s1) => (.error g, s1)
    | (.ok _, s1) =>
      let v := streamOf s1 p.stream
      let slots := mine.foldl (fun m q =>
        match p.slots[q.1]? with
        | none => m
        | some w => memWriteN (memWriteN m (512 * idx + 2 * w.2) [0, 0]) (512 * idx + 128 + 4 * w.2) (leBytes 4 (candidatePos x p q.1))) v.slots
      (.ok (), setStream s1 p.stream { v with exps := putExps v.exps v.layers l idx data, slots := slots })

/-- A slot is marked live by a leaf of an epoch that has not drained (R181). -/
def heldLive (t : Stream) (q : Nat × Nat) : Bool := t.held.any fun h => h.index == q.1 && h.live.getLsbD q.2

/-- The candidates of part j at the layer of a running gang g are written to their reserved slots, unless that has happened, or a
leaf of an undrained epoch still marks one of those slots live (R147, R181). -/
def writeCandidates (s : State) (g j : Nat) : State :=
  match gangOf s g with
  | none => s
  | some (y, e, x, p, d) =>
    match x.parts[j]? with
    | none => s
    | some q =>
      let w := y.node / 65536
      let t := streamOf s q.stream
      let base := chunkBase x y.chunk
      let n := gangRows x p.manifest d y.chunk q
      if d.kind ≠ 1 ∨ y.ended.contains (j, 0) ∨ !((gangParts x w d y.chunk).any fun v => v.1 == j) ∨
          (((q.slots.drop base).take n).any (heldLive t)) then s
      else
        let rank := j % max 1 d.gang
        let tile := y.tiles.getD rank 0
        let k0 := rankRows x p.manifest d w y.chunk rank j
        let rows := (List.range n).flatMap fun i => (List.range t.heads).map fun h =>
          (base + i, ((q.slots[base + i]?).map Prod.fst).getD 0, h, candidateRow s tile d.candoff k0.2 (k0.1 + i) h)
        let js := ((rows.map fun v => v.2.1)).eraseDups
        match eachPage (writeIndex e j d.layer x rows) js (backReserved s e j x.ctx q.stream js) with
        | (.ok _, s1) => modEntry s1 g fun z => { z with ended := (j, 0) :: z.ended }
        | (.error .waits, s1) => keepReads s s1
        | (.error (.failed f), s1) => failEngine (keepReads (settleFaults s s1 q.stream) s1) e f

/-- Gang g runs the attention of a layer for batch entry `row` and has not written that entry's candidates. -/
def writesRow (s : State) (row layer g : Nat) : Bool :=
  match gangOf s g, entryOf s g with
  | some (_, _, x, _, d), some y =>
    d.kind == 1 && d.layer == layer && decide (y.state = .running) && !y.ended.contains (row, 0) &&
      (gangParts x (y.node / 65536) d y.chunk).any fun v => v.1 == row
  | _, _ => false

/-- CANDIDATE_WRITE: the running attention gang of a layer that serves batch entry `row` of request e. -/
def candidateWrite (s : State) (e row layer : Nat) : State :=
  match (childrenOf s e).find? (writesRow s row layer) with
  | some g => writeCandidates s g row
  | none => s

/-! ### SAMPLING (R149 to R154) -/

/-- Key and index of entry i of a top-k list (R130). -/
def listEntry (bs : List Byte) (i : Nat) : Int × Nat :=
  ((BitVec.ofNat 48 (fieldAt bs (8 * i) 6)).toInt, fieldAt bs (8 * i + 6) 2)

/-- Draw number n of a DRBG generation (R151). -/
def drbgDraw (ctx : Nat) (seed : List Byte) (gen n : Nat) : Nat :=
  fieldAt (shake256 (ascii "EZB9600 DRBG" ++ leBytes 1 ctx ++ seed ++ leBytes 8 gen) (8 * n + 8)) (8 * n) 8

/-- The next draw of the generation that a request was dispatched under (R153). -/
def takeDraw (s : State) (c gen : Nat) : Nat × State :=
  match ctxOf s c with
  | none => (0, s)
  | some k =>
    let d := k.drbg
    if gen = d.gen then (drbgDraw c d.seed d.gen d.pos, setCtx s c { k with drbg := { d with pos := d.pos + 1 } })
    else match d.prev with
      | some (seed, g, n) => (drbgDraw c seed g n, setCtx s c { k with drbg := { d with prev := some (seed, g, n + 1) } })
      | none => (drbgDraw c d.seed d.gen d.pos, setCtx s c { k with drbg := { d with pos := d.pos + 1 } })

/-- The weights of R150 for the first TOPK entries of a list. EXP2 is the sampler's own unit (log 12). -/
def weights (bs : List Byte) (topk : Nat) (itemp : BitVec 16) : List Nat :=
  let k0 := (listEntry bs 0).1
  (List.range topk).map fun i => (fnExp2 0x110 (rhu (((listEntry bs i).1 - k0) * itemp.toNat) 8)).1.toNat

/-- The entry whose running sum first exceeds t. -/
def chooseEntry : List Nat → Nat → Nat → Nat
  | [], _, i => i - 1
  | w :: ws, t, i => if t < w then i else chooseEntry ws (t - w) (i + 1)

/-- Selects one token from a node's list (R150). -/
def selectToken (s : State) (c gen : Nat) (bs : List Byte) (topk : Nat) (itemp : BitVec 16) : BitVec 16 × State :=
  if itemp = 0 ∨ topk = 1 then (BitVec.ofNat 16 (listEntry bs 0).2, s)
  else
    let ws := weights bs topk itemp
    let r := takeDraw s c gen
    (BitVec.ofNat 16 (listEntry bs (chooseEntry ws (r.1 * ws.sum / 2 ^ 64) 0)).2, r.2)

/-- The list of row w of a stream's lists. -/
def rowList (bs : List Byte) (kpkg w : Nat) : List Byte := (bs.drop (8 * kpkg * w)).take (8 * kpkg)

/-- Follows the tree as long as a child carries the sampled token (R154). Answers the path and the bonus token. -/
def verifyGo (c gen kpkg : Nat) (p : Part) (bs : List Byte) :
    Nat → State → Nat → List Nat → (List Nat × BitVec 16) × State
  | 0, s, _, path => ((path, 0), s)
  | fuel + 1, s, node, path =>
    let r := selectToken s c gen (rowList bs kpkg node) p.topk p.itemp
    match (List.range p.nodes).find? fun i =>
      decide (0 < i) && treeParent p.parent i == node && p.tokens.getD i 0 == r.1 with
    | none => ((path, r.1), r.2)
    | some i => verifyGo c gen kpkg p bs fuel r.2 i (path ++ [i])

/-- Samples one stream of a wave. Where the graph has no head node the lists are free values (log 30). -/
def samplePart (s : State) (e j : Nat) (kpkg : Nat) : State :=
  match entryOf s e with
  | none => s
  | some x =>
    match x.parts[j]? with
    | none => s
    | some p =>
      let r0 : List Byte × State := match tblGet x.lists j with
        | some bs => (bs, s)
        | none => drawBytes (8 * kpkg * max 1 (min p.nodes 256)) s
      let r : (List Nat × BitVec 16) × State :=
        match x.cmd with
        | .step _ => verifyGo x.ctx x.drbgGen kpkg p r0.1 17 r0.2 0 [0]
        | _ =>
          let w := selectToken r0.2 x.ctx x.drbgGen (rowList r0.1 kpkg (r0.1.length / max 1 (8 * kpkg) - 1)) p.topk p.itemp
          (([], w.1), w.2)
      modEntry r.2 e fun y => { y with parts := y.parts.modify j fun q => { q with path := r.1.1, bonus := r.1.2 } }

/-- An earlier started request of the context has a wave that is still to be sampled (R152). -/
def samplesLater (s : State) (x : Entry) : Bool :=
  s.docket.entries.any fun q =>
    q.2.parent.isNone && decide (q.2.ctx = x.ctx) && q.2.dispatched && samples q.2.cmd && decide (q.2.started < x.started) &&
      (openWaves q.2).any fun w => !q.2.sampled.contains w

/-- SAMPLING: the first wave whose pass is done is sampled, stream by stream in ascending batch index (R152); then its draft nodes
may start. -/
def sampling (s : State) (e : Nat) : State :=
  match entryOf s e with
  | none => s
  | some x =>
    match requestPackage s x with
    | none => s
    | some p =>
      match (openWaves x).find? fun w => !x.sampled.contains w && passDone x p.manifest (requestNodes s x) w with
      | none => s
      | some w =>
        if !samples x.cmd || x.parent.isSome || samplesLater s x then s
        else
          let s1 := ((waveParts x w).map Prod.fst).foldl (fun u j => samplePart u e j (fieldAt p.manifest 43 1)) s
          expand (modEntry s1 e fun y => { y with sampled := w :: y.sampled }) e w

/-- The tree of a draft node's area, when it keeps R135 (R393). -/
def draftTree (bs : List Byte) : Option (List Byte) :=
  let t := treeOf bs
  if 1 ≤ t.1 ∧ t.1 ≤ 16 ∧ treeOk t.1 t.2.1 t.2.2 = true then
    some (bs.take 48) else none

/-! ### The commit (R155, R156, R194 to R198, R218) -/

/-- Moves the row of a slot into another slot of the same or another page: bytes of the page. -/
def moveRow (dst : Memory) (rd : Nat) (src : Memory) (rs heads : Nat) : Memory :=
  (List.range heads).foldl (fun m h =>
    memWriteN (memWriteN m (rawOffset rd h 0) (memReadN src (rawOffset rs h 0) 256)) (rawOffset rd h 1)
      (memReadN src (rawOffset rs h 1) 256)) dst

/-- Copies the exponents of slot (js, rs) to slot (jd, rd) at one layer. -/
def moveExps (exps : Memory) (layers l jd rd js rs : Nat) : Memory :=
  memWriteN exps (expOffset layers l jd rd 0 0) (memReadN exps (expOffset layers l js rs 0 0) 4)

/-- Copies the record of slot (js, rs) to slot (jd, rd): score and position number. -/
def moveRecord (slots : Memory) (jd rd js rs : Nat) : Memory :=
  memWriteN (memWriteN slots (512 * jd + 2 * rd) (memReadN slots (512 * js + 2 * rs) 2)) (512 * jd + 128 + 4 * rd)
    (memReadN slots (512 * js + 128 + 4 * rs) 4)

/-- Rollback (R156) at one layer, before the leaves are published: the KV of node path[k] moves into the k-th slot. No slot is
written before it is read, since the path ascends; each page that receives a row is written once. -/
def rollbackLayer (e j : Nat) (x : Entry) (s : State) (l : Nat) : Except PageStop Unit × State :=
  match x.parts[j]? with
  | none => (.ok (), s)
  | some p =>
    let v := requestService e x
    let moves := ((List.range p.path.length).filter fun k => p.path.getD k k != k).filterMap fun k =>
      (p.slots[k]?).bind fun d => (p.slots[p.path.getD k k]?).map fun r => (d, r)
    let heads := (streamOf s p.stream).heads
    eachPage (fun u jd =>
      match ((moves.filter fun m => m.1.1 == jd).map fun m => m.2.1).eraseDups.foldl (fun acc js =>
          match acc with
          | (.ok t, w) =>
            (match currentPage w v ((((entryOf w e).bind fun y => y.parts[j]?)).getD p) l js with
             | (.ok m, w1) => (.ok (tblPut t js m), w1)
             | (.error f, w1) => (.error f, w1))
          | r => r) ((.ok [], u) : Except AccessErr (Tbl Memory) × State) with
      | (.error f, u1) => (.error (.failed f), u1)
      | (.ok pages, u1) =>
        match rewritePage u1 e j l jd fun bytes =>
            (moves.filter fun m => m.1.1 == jd).foldl (fun m q => moveRow m q.1.2 (tblGetD pages q.2.1 []) q.2.2 heads) bytes with
        | (.error g, u2) => (.error g, u2)
        | (.ok _, u2) =>
          let t := streamOf u2 p.stream
          (.ok (), setStream u2 p.stream { t with exps := (moves.filter fun m => m.1.1 == jd).foldl (fun m q =>
            moveExps m t.layers l q.1.1 q.1.2 q.2.1 q.2.2) t.exps })) ((moves.map fun m => m.1.1).eraseDups) s

/-- The leaf of a run. -/
def runLeaf (s : State) (key : Nat) (live : BitVec 64) : KvLeaf :=
  let r := tblGet s.runs key
  { live := live, frame := BitVec.ofNat 24 (key % 2 ^ 24), tier := decide (2 ^ 24 ≤ key)
    nfm1 := BitVec.ofNat 2 ((r.map Run.frames).getD 1 - 1), raw := (r.map Run.raw).getD false, map := true
    h1off := BitVec.ofNat 11 ((r.map Run.h1off).getD 0) }

/-- A stream, the runs that its leaves stop naming, and the stream before the change. -/
structure Change where
  t : Stream
  runs : List Nat
  old : Stream

/-- Maps index j of every layer onto new runs with a LIVE mask. -/
def remapIndex (s : State) (a : Change) (j : Nat) (live : BitVec 64) (key : Nat → Option Nat) : Change :=
  (List.range a.t.layers).foldl (fun b l =>
    match key l with
    | none => b
    | some k =>
      let old := leafOf b.t l j
      { b with t := b.t.setLeaf l j (runLeaf s k live), runs := if old.map then b.runs ++ [runKey old] else b.runs }) a

/-- Unmaps index j, which the epoch being closed then holds with the slots that the old leaves mark live. -/
def Change.unmap (a : Change) (j epoch : Nat) : Change :=
  let r := unmapIndices a.t [j]
  { a with
    t := { r.1 with held := r.1.held ++ [{ index := j, epoch := epoch, live := liveOf a.old j }], tailFree := if j = r.1.tail then 0 else r.1.tailFree }
    runs := a.runs ++ r.2 }

/-- Clears LIVE bit r of index j at every layer; an index left without a live slot is unmapped (R196). -/
def Change.evict (a : Change) (j r epoch : Nat) : Change :=
  let t1 := (List.range a.t.layers).foldl (fun t l =>
    let k := leafOf t l j
    if k.map then t.setLeaf l j { k with live := k.live &&& ~~~(1#64 <<< r) } else t) a.t
  if liveOf t1 j = 0 then ({ a with t := t1 } : Change).unmap j epoch else { a with t := t1 }

/-- The committed slots' mask of one index. -/
def slotMask (slots : List (Nat × Nat)) (j : Nat) : BitVec 64 :=
  slots.foldl (fun m q => if q.1 = j then m ||| (1#64 <<< q.2) else m) 0

/-- Publishes the kept candidates: the touched indices with a kept slot are mapped onto the part's new runs, the other new runs
are given up (R147, R155, R156, R189). -/
def publishSlots (s : State) (p : Part) (kept : List (Nat × Nat)) (t : Stream) : Change :=
  let js := touched p.slots
  let a := js.foldl (fun b j =>
    if kept.any fun q => q.1 == j then
      remapIndex s b j (liveOf b.t j ||| slotMask kept j) (fun l => tblGet p.newRuns (128 * j + l))
    else b) ({ t := t, runs := [], old := streamOf s p.stream } : Change)
  let lost := (p.newRuns.filter fun q => !(kept.any fun k => k.1 == q.1 / 128)).map Prod.snd
  match kept.getLast? with
  | none => { a with runs := a.runs ++ lost }
  | some (j, r) => { a with t := { a.t with tail := j, tailFree := r + 1 }, runs := a.runs ++ lost }

/-- The score of R194. -/
def newScore (s d a : Nat) : Nat := min 65535 (s - (rhu s d).toNat + a)

/-- Decays and updates the scores of the slots that were live before the kept ones (R194). -/
def updateScores (t : Stream) (f : Profile) (p : Part) (kept : List (Nat × Nat)) : Stream :=
  { t with slots := (List.range (pplOf t.layers)).foldl (fun m j =>
      (liveSlots t j).foldl (fun n r =>
        if kept.contains (j, r) then n
        else memWriteN n (512 * j + 2 * r)
          (leBytes 2 (newScore (slotScore t j r) f.decay.toNat (tblGetD p.scores (64 * j + r) 0)))) m) t.slots }

/-- Live slots of a stream, all indices: (index, slot). -/
def allLive (t : Stream) : List (Nat × Nat) :=
  (List.range (pplOf t.layers)).flatMap fun j => (liveSlots t j).map fun r => (j, r)

/-- The slot that budget eviction takes next: unprotected, lowest score, then lowest position, then furthest behind the tail. -/
def budgetNext (t : Stream) (f : Profile) : Option (Nat × Nat) :=
  ((allLive t).filter fun q => !protectedPos f t.positions.toNat (slotPos t q.1 q.2)).foldl (fun best q =>
    match best with
    | none => some q
    | some b =>
      let key (v : Nat × Nat) : Nat × Nat := (slotScore t v.1 v.2, slotPos t v.1 v.2)
      if (key q).1 < (key b).1 ∨ ((key q).1 = (key b).1 ∧ ((key q).2 < (key b).2 ∨
          ((key q).2 = (key b).2 ∧ behindTail t b.1 < behindTail t q.1))) then some q else some b) none

/-- Budget eviction of n slots. Answers whether too few were unprotected. -/
def evictBudget (f : Profile) (epoch : Nat) : Nat → Change → Change × Bool
  | 0, a => (a, false)
  | n + 1, a =>
    match budgetNext a.t f with
    | none => (a, true)
    | some (j, r) => evictBudget f epoch n (a.evict j r epoch)

/-- The index that relocation empties: a mapped non-tail index with the fewest live slots, the one furthest behind the tail on a
tie (R197). -/
def relocateIndex (t : Stream) : Option Nat :=
  ((List.range (pplOf t.layers)).filter fun j => mappedAny t j && j != t.tail).foldl (fun best j =>
    match best with
    | none => some j
    | some b =>
      if (liveSlots t j).length < (liveSlots t b).length ∨
          ((liveSlots t j).length = (liveSlots t b).length ∧ behindTail t b < behindTail t j) then some j else some b) none

/-- More indices are mapped than R197 allows. -/
def sparse (t : Stream) (f : Profile) : Bool :=
  let js := (List.range (pplOf t.layers)).filter fun j => mappedAny t j && j != t.tail
  let live := (js.map fun j => (liveSlots t j).length).sum
  decide ((live + 63) / 64 + f.cslack.toNat < js.length)

/-- Writes the relocated rows of one destination index at one layer; answers the run. -/
def relocatePage (s : State) (e j : Nat) (v : Service) (t : Stream) (l idx src : Nat) (moves : List ((Nat × Nat) × Nat)) :
    Except PageStop Nat × State :=
  let bytesOf (u : State) (i : Nat) : Except AccessErr Memory × State :=
    if (leafOf t l i).map then
      match tblGet u.runs (runKey (leafOf t l i)) with | some r => readPage u (runKey (leafOf t l i)) r v | none => (.ok [], u)
    else (.ok [], u)
  match bytesOf s src with
  | (.error f, s1) => (.error (.failed f), s1)
  | (.ok from_, s1) =>
    match bytesOf s1 idx with
    | (.error f, s2) => (.error (.failed f), s2)
    | (.ok to_, s2) =>
      let page := (moves.filter fun m => m.1.1 == idx).foldl (fun m q => moveRow m q.1.2 from_ q.2 t.heads) to_
      match placePage s2 e j none (v.ctx.bind fun c => streamKvSlot s2 c t) page with
      | some (key, s3) => (.ok key, s3)
      | none => (.error .waits, s2)

/-- Writes every page of a relocation and names it in the leaves. -/
def relocatePages (s : State) (e j : Nat) (v : Service) (t0 : Stream) (src : Nat) (slots : List (Nat × Nat))
    (moves : List ((Nat × Nat) × Nat)) (a : Change) : Except PageStop Change × State :=
  ((List.range t0.layers).flatMap fun l => (touched slots).map fun idx => (l, idx)).foldl (fun acc q =>
    match acc with
    | (.ok b, u) =>
      (match relocatePage u e j v t0 q.1 q.2 src moves with
       | (.ok key, u1) =>
         let old := leafOf b.t q.1 q.2
         (.ok { b with t := b.t.setLeaf q.1 q.2 (runLeaf u1 key (old.live ||| slotMask slots q.2))
                       runs := if old.map then b.runs ++ [runKey old] else b.runs }, u1)
       | (.error g, u1) => (.error g, u1))
    | r => r) (.ok a, s)

/-- Relocates one index (R197), with a reservation of its own from the free pool; without it nothing changes. -/
def relocate (s : State) (e j c i epoch : Nat) (a : Change) : Except AccessErr Change × State :=
  match relocateIndex a.t, ctxOf s c, entryOf s e with
  | some src, some k, some x =>
    let live := liveSlots a.t src
    (match candidateSlots a.t live.length with
     | none => (.ok a, s)
     | some slots =>
       let js := touched slots
       let need := unbackedPages k a.t.layers i js
       match (k.pool a.t.kvTier).takeWhole (js.length * a.t.layers + need.length) false with
       | none => (.ok a, s)
       | some (qs, pool, _) =>
         let k1 := backPages (k.setPool a.t.kvTier pool) a.t.kvTier need (qs.take need.length)
         let s1 := modEntry (setCtx s c k1) e fun y => { y with parts := y.parts.modify j fun p =>
           { p with reserved := p.reserved ++ qs.drop need.length } }
         let moves := slots.zip live
         match relocatePages s1 e j (requestService e x) a.t src slots moves a with
         | (.error .waits, s2) => (.ok a, keepReads s s2)
         | (.error (.failed f), s2) => (.error f, s2)
         | (.ok b, s2) =>
           let t1 := b.t
           let exps := (List.range t1.layers).foldl (fun m l =>
             moves.foldl (fun n q => moveExps n t1.layers l q.1.1 q.1.2 src q.2) m) t1.exps
           let recs := moves.foldl (fun m q => moveRecord m q.1.1 q.1.2 src q.2) t1.slots
           let last := (slots.getLast?).getD (t1.tail, t1.tailFree - 1)
           let t2 := { t1 with exps := exps, slots := recs, tail := last.1, tailFree := last.2 + 1 }
           (.ok (({ b with t := t2 } : Change).unmap src epoch), bumpFn s2 c 6 1))
  | _, _, _ => (.ok a, s)

/-- Harvest after the commit: scores, budget eviction, relocation (R194, R196, R197). -/
def harvest (s : State) (e j c i epoch : Nat) (p : Part) (kept : List (Nat × Nat)) (a : Change) : Except AccessErr Change × State :=
  match ctxOf s c with
  | none => (.ok a, s)
  | some k =>
    let f := profileOf k a.t
    let a1 : Change := { a with t := updateScores a.t f p kept }
    let excess := (allLive a1.t).length - f.budget.toNat
    let r := if f.budget = 0 then (a1, false) else evictBudget f epoch excess a1
    let s1 := if r.2 then bumpFn s c 5 1 else s
    if sparse r.1.t f then relocate s1 e j c i epoch r.1 else (.ok r.1, s1)

/-- The final working region of a part at recurrent layer r (R218). -/
def finalRegion (x : Entry) (m : List Byte) (p : Part) (r : Nat) : Nat :=
  match x.cmd with
  | .step _ => 1 + p.path.getD (p.path.length - 1) 0
  | _ => chunkDst ((p.nodes + recChunkLen m r - 1) / recChunkLen m r - 1)

/-- Region 0 of every recurrent layer is remapped to the pages of the final region; every other working region and the old backing
are released with the epoch. Answers the quads. -/
def commitRegions (k : Ctx) (x : Entry) (m : List Byte) (p : Part) : Ctx × List WinPage :=
  let i := p.stream
  let pages := (List.range (nrec m)).flatMap fun r => (List.range (recPages m r)).map fun q =>
    (regionPage i r 0 + q, regionPage i r (finalRegion x m p r) + q)
  let keep := pages.filterMap fun v => (tblGet k.winPages v.2).map fun w => (v.1, w)
  let mine := regionPages k i
  let gone := (mine.map Prod.snd).filter fun w => !(keep.map Prod.snd).contains w
  ({ k with winPages := keep.foldl (fun t v => tblPut t v.1 v.2) (k.winPages.filter fun v => !mine.contains v) }, gone)

/-- The tokens that a committed part emits (R154, R161). -/
def emitted (x : Entry) (p : Part) : List (BitVec 16) :=
  match x.cmd with
  | .step _ => ((p.path.drop 1).map fun i => p.tokens.getD i 0) ++ [p.bonus]
  | _ => if samples x.cmd then [p.bonus] else []

/-- How many candidates a part keeps: its path in a STEP, the whole run in a PREFILL. -/
def keptCount (x : Entry) (p : Part) : Nat :=
  match x.cmd with
  | .step _ => p.path.length
  | .prefill _ => p.nodes
  | _ => 0

/-- Publishes what a commit decided, at one point: the stream, its regions, the epoch, and the quads not used (R155, R177, R218). -/
def publishCommit (s : State) (e j : Nat) (x : Entry) (pk : Package) (p : Part) (h : Change) : State :=
  let c := x.ctx
  let i := p.stream
  let s1 := setStream s i h.t
  match ctxOf s1 c with
  | none => s1
  | some v =>
    let regions := commitRegions v x pk.manifest p
    let quads (tier : Bool) : List Nat := (regions.2.filter fun w => w.tier == tier).map WinPage.quad
    let s2 := (closeEpoch (setCtx s1 c regions.1) c none
      { Epoch.none_ with runs := h.runs, quads0 := quads false, quads1 := quads true }).1
    let unused := (((entryOf s2 e).bind fun y => y.parts[j]?).map Part.reserved).getD []
    let s3 := modEntry (modCtx s2 c fun w => w.setPool h.t.kvTier ((w.pool h.t.kvTier).giveUnused unused)) e fun z =>
      { z with parts := z.parts.modify j fun q => { q with reserved := [], recReserved := [], newRuns := [] } }
    settlePart s3 e j stSuccess (emitted x p).length (streamOf s3 i).positions.toNat (p.path.map fun q => 2 ^ q).sum (emitted x p)

/-- The stream as its commit leaves it, before its leaves are published: the count, the pending token and the stored tree. A command
that appends positions and has no draft node of its own leaves no stored tree where the package has draft nodes, since a stored tree
is one that was built at the last commit (R136, R155; DEDUCED, log 53). -/
def committedStream (t : Stream) (x : Entry) (pk : Package) (p : Part) : Stream :=
  let n := keptCount x p
  let slots := (List.range n).foldl (fun m q =>
    match p.slots[q]? with
    | some (jx, r) => memWriteN m (512 * jx + 128 + 4 * r) (leBytes 4 (p.basePos.toNat + q))
    | none => m) t.slots
  { t with
    slots := slots, positions := t.positions + BitVec.ofNat 32 n
    pending := match x.cmd with
      | .step _ => some p.bonus
      | .prefill _ => if samples x.cmd then some p.bonus else none
      | _ => t.pending
    tree := if appends x.cmd && hasDraft pk then p.draft else t.tree, pinnedEntry := none }

/-- The commit of one stream, at one point, with its record (R155 to R158, R218). While a write finds no quad nothing changes; a page
that cannot be read ends the job, and nothing is committed. -/
def commitPart (s0 : State) (e j : Nat) (x0 : Entry) (pk : Package) : State :=
  let c := x0.ctx
  let i := ((x0.parts[j]?).map Part.stream).getD 0
  let moved := match x0.cmd with
    | .step _ => eachPage (rollbackLayer e j x0) (List.range (fieldAt pk.manifest 40 1)) s0
    | _ => (.ok (), s0)
  match moved with
  | (.error .waits, s) => keepReads s0 s
  | (.error (.failed f), s) => failEngine (keepReads (settleFaults s0 s i) s) e f
  | (.ok _, s) =>
    match entryOf s e, ctxOf s c with
    | some x, some k =>
      (match x.parts[j]? with
       | none => s
       | some p =>
         let kept := p.slots.take (keptCount x p)
         let a := publishSlots s p kept (committedStream (streamOf s i) x pk p)
         match (if appends x.cmd then harvest s e j c i k.open_ p kept a else (.ok a, s)) with
         | (.ok h, s1) => publishCommit s1 e j x pk p h
         | (.error f, s1) => failEngine (keepReads (faultStream s0 i) s1) e f)
    | _, _ => s

/-- STREAM_COMMIT: batch entry `row` of request e commits once every gang of its wave has ended and it has been sampled. -/
def streamCommit (s : State) (e row : Nat) : State :=
  match entryOf s e with
  | none => s
  | some x =>
    match x.parts[row]?, requestPackage s x with
    | some p, some pk =>
      if p.outcome.isSome || p.wave == 0 || x.status.isSome || !waveDone x pk.manifest (requestNodes s x) p.wave then s
      else commitPart s e row x pk
    | _, _ => s

end Sys2Proof.Machine
end

