-- ==== Sys2Proof/Machine/Faults.lean ====
section
/-! DEFINITION. Transient events and the retirement of units (R332, R333, R425, R451 to R455, R457). -/

namespace Sys2Proof.Machine

/-! ### Windows of transient events (R452) -/

/-- The times that still count in a window of so many ms. -/
def inWindow (t : Nat) (window : BitVec 14) (times : List Nat) : List Nat :=
  times.filter fun x => decide (t ≤ x + window.toNat * 1000000)

/-- A further event: the times kept, and whether the limit is reached. -/
def addTransient (t : Nat) (limit : BitVec 8) (window : BitVec 14) (times : List Nat) : List Nat × Bool :=
  let l := inWindow t window times ++ [t]
  (l, decide (limit.toNat ≤ l.length))

/-! ### What every retirement does (R453, R455, R457) -/

/-- A retirement is logged and reported. -/
def tellRetire (s : State) (r : Untold) : State :=
  raiseEvent (logFaultAt s r.time r.frame.toNat 3 0 r.kind r.unit 0) 0 0x0A r.kind r.unit

/-- TEL has started again: it logs and reports the retirements of the meantime (R460). -/
def tellRetired (s : State) : State := s.fw.untold.foldl tellRetire { s with fw := { s.fw with untold := [] } }

/-- The retirement is recorded, FW_FAULT_STATUS.RETIRE is set, and it is logged and reported, during a steward reset once TEL has
started again: kind and unit of R454. -/
def noteRetire (s : State) (kind unit : Nat) : State :=
  let r : Untold := { time := now s, frame := s.time.frameNum, kind := kind, unit := unit }
  let s1 := { s with
    fw := { s.fw with faultRetire := true }
    retired := { s.retired with total := s.retired.total + 1 } }
  if telStopped s then { s1 with fw := { s1.fw with untold := s1.fw.untold ++ [r] } } else tellRetire s1 r

/-- A pool after quads have left it for good. -/
def Pool.lose (p : Pool) (gone : Nat → Bool) : Pool :=
  { p with all := p.all.filter fun q => !gone q
           free := p.free.filter fun q => !gone q
           resv := p.resv.filter fun q => !gone q
           part := p.part.filter fun q => !gone q.1 }

/-- The first tier or state-SRAM quads that a context has data in: mapped pages, windows, table frames and runs (R332, R453). -/
def dataQuads (s : State) (c : Nat) (k : Ctx) (tier : Bool) : List Nat :=
  ((k.pages.map fun p => pteOf p.2).filter fun p => p.valid && p.tier == (if tier then 1 else 0)).map (fun p => p.target) ++
    (k.winPages.filter fun p => p.2.tier == tier).map (fun p => p.2.quad) ++
    (if tier then [] else (k.root.toList ++ k.tables.map Prod.snd).map fun f => f / 4) ++
    (s.runs.filter fun r => r.2.ctx == c && decide (2 ^ 24 ≤ r.1) == tier).map fun r => r.1 % 2 ^ 24 / 4

/-- Committed state of stream i that lies on lost quads: a leaf's run, region 0, or a page of its tables (R207). -/
def streamHit (k : Ctx) (i : Nat) (t : Stream) (tier : Bool) (gone : Nat → Bool) : Bool :=
  (t.leaves.any fun l => l.2.map && l.2.tier == tier && gone (l.2.frame.toNat / 4)) ||
  ((regionPages k i).any fun p => p.2.tier == tier && gone p.2.quad && decide (p.1 % 128 < 4)) ||
  ((List.range (pplOf t.layers)).any fun j => mappedAny t j && (tablePages t.layers i j).any fun v =>
    match tblGet k.winPages v with | some w => w.tier == tier && gone w.quad | none => false)

/-- Streams whose committed state lies on lost quads become FAULTED (R207). -/
def faultStreams (s : State) (tier : Bool) (gone : Nat → Bool) : State :=
  { s with streams := tblMap s.streams fun i t =>
      match ctxOf s t.ctx with
      | none => t
      | some k => if t.state ≠ .closed ∧ streamHit k i t tier gone = true then { t with state := .faulted } else t }

/-- The parts of entry e lose the quads that they had reserved on lost resources and take others, from the free pool and then from the
reserve; a request that finds none ends as one with data there (DESIGN CHOICE, log 50). -/
def replaceReserved (s : State) (e : Nat) (tier : Bool) (gone : Nat → Bool) (unit : Nat) : State :=
  match entryOf s e with
  | none => s
  | some x =>
    (List.range x.parts.length).foldl (fun u j =>
      match ((entryOf u e).bind fun y => y.parts[j]?), ctxOf u x.hdr.fn.toNat with
      | some p, some k =>
        let lost := p.reserved.filter gone
        if lost.isEmpty || (streamOf u p.stream).kvTier != tier then u
        else
          let keep (qs : List Nat) (v : State) : State := modEntry v e fun y =>
            { y with parts := y.parts.set j { p with reserved := p.reserved.filter (fun q => !gone q) ++ qs } }
          (match (k.pool tier).takeWhole lost.length true with
           | some (qs, pool, _) => keep qs (setCtx u x.hdr.fn.toNat (k.setPool tier pool))
           | none => faultRequest (keep [] u) e 0x20 unit)
      | _, _ => u) s

/-- Quads that a PACKAGE_LOAD has taken lie on lost resources: the request ends as one with data there (R332, R453). -/
def loseLoad (s : State) (e : Nat) (tier : Bool) (gone : Nat → Bool) (unit : Nat) : State :=
  match entryOf s e with
  | none => s
  | some x => if (if tier then x.quads1 else x.quads).any gone then faultRequest s e 0x20 unit else s

/-- The cause of a job that had data on lost quads: 0x20, but 0x26 for committed state of a stream on a slice (R450, R453; which of
the two a slice gives is DEDUCED, log 44). -/
def lossCause (s : State) (c : Nat) (tier : Bool) (gone : Nat → Bool) : Nat :=
  let hit := match ctxOf s c with
    | some k => s.streams.any fun p => p.2.ctx == c && streamHit k p.1 p.2 tier gone
    | none => false
  if tier && hit then 0x26 else 0x20

/-- Quads leave every pool and the store, streams become FAULTED, and the jobs of the contexts with data there fault (R332, R453). -/
def loseQuads (s : State) (tier : Bool) (gone : Nat → Bool) (unit : Nat) : State :=
  let hit := (s.ctxs.filter fun p => (dataQuads s p.1 p.2 tier).any gone).map fun p => (p.1, lossCause s p.1 tier gone)
  let s1 := faultStreams s tier gone
  let s2 := setStore s1 tier { storeOf s1 tier with back := (storeOf s1 tier).back.filter fun q => !gone q }
  let s3 := { s2 with ctxs := tblMap s2.ctxs fun _ k => k.setPool tier ((k.pool tier).lose gone) }
  let s4 := hit.foldl (fun u c => faultJob u c.1 c.2 unit true) s3
  (s4.docket.entries.map Prod.fst).foldl (fun u e => replaceReserved (loseLoad u e tier gone unit) e tier gone unit) s4

/-- Both copies of the engine area on pseudo-channel p are lost: every request ends with CONTEXT_LOST, every context is
destroyed, and FAULT_N and HBUSY_N fall until a cold reset (R333). -/
def loseDevice (s : State) : State :=
  let fs := ((s.docket.entries.map fun p => p.2.hdr.fn.toNat) ++ s.ctxs.map Prod.fst).eraseDups
  let s1 := fs.foldl (fun u f => endAllRequests u f stContextLost) s
  let s2 := (s1.ctxs.map Prod.fst).foldl (fun u c => beginDestruction u c 0) s1
  let s3 := logFault s2 5 0 0 0 0
  { s3 with fw := { s3.fw with devLoss := true } }

/-- A request that was queued for a pseudo-channel that retires is a device fault of what it served (R332, R334). -/
def failQueued (s : State) (p : Nat) (r : HbmReq) : State :=
  match r.entry, r.ctx with
  | some e, _ => faultRequest s e 0x20 p
  | none, some c => faultJob s c 0x20 p true
  | none, none => s

/-- A pseudo-channel retires with a cause of HBM_PC_STATE (R332). When its mirror has retired too the device is lost, and every
outstanding request ends with CONTEXT_LOST, whatever else the retirement would do to it (R333). -/
def retirePc (s : State) (p : Nat) (cause : BitVec 4) : State :=
  if s.retired.pcs.contains p then s
  else
    let x := pcOf s p
    let s1 := setPc s p { Pc.reset with retired := true, cause := cause }
    let s2 := noteRetire { s1 with retired := { s1.retired with pcs := p :: s1.retired.pcs } } 0 p
    let s3 := if s2.retired.pcs.contains (p ^^^ 64) then loseDevice s2 else s2
    (x.reads ++ x.writes ++ x.stalled).foldl (fun u r => failQueued u p r) (loseQuads s3 false (fun q => quadPc q == p) p)

/-- A transient event of a pseudo-channel; at the limit it retires, while its channel retrains only afterwards (R331, R334). -/
def transientPc (s : State) (p : Nat) : State :=
  if s.retired.pcs.contains p then s
  else
    let x := pcOf s p
    let r := addTransient (now s) s.hbm.transLimit s.hbm.transWindow x.transient
    let held := pcHeld s p
    let s1 := setPc s p { x with transient := r.1, late := x.late || (r.2 && held) }
    if r.2 && !held then retirePc s1 p 1 else s1

/-- Pseudo-channels whose retry failed in the command just done are permanently faulty and retire (R306, R331). -/
def retireCondemned (s : State) : State :=
  s.hbm.condemned.foldl (fun u p => retirePc u p 2) { s with hbm := { s.hbm with condemned := [] } }

/-- A firmware slot striped over a retired channel becomes INVALID (R425, R443). -/
def FwSlot.loseChannel (x : FwSlot) (i : Nat) : FwSlot :=
  if x.chmask.getLsbD i && decide (x.state = .valid ∨ x.state = .writing) then { x with state := .invalid } else x

/-- A flash channel retires with a cause of FLS_CH_STATE (R425). -/
def retireFlash (s : State) (ch : Nat) (cause : BitVec 4) : State :=
  if s.retired.flash.contains ch then s
  else
    let s1 := setFlashChan s ch { flashChanOf s ch with retired := true, cause := cause, switching := false }
    let s2 := { s1 with
      retired := { s1.retired with flash := ch :: s1.retired.flash }
      fw := if ch < 4 then { s1.fw with slotA := s1.fw.slotA.loseChannel ch }
            else { s1.fw with slotB := s1.fw.slotB.loseChannel (ch - 4) } }
    noteRetire s2 1 ch

/-- A transient event of a flash channel (R423, R424). -/
def transientFlash (s : State) (ch : Nat) : State :=
  if s.retired.flash.contains ch then s
  else
    let x := flashChanOf s ch
    let r := addTransient (now s) s.flash.transLimit s.flash.transWindow x.transient
    let s1 := setFlashChan s ch { x with transient := r.1 }
    if r.2 then retireFlash s1 ch 1 else s1

/-- Each sector that stayed uncorrectable in the command just done is one transient event of its channel (R423). -/
def countSuspects (s : State) : State :=
  s.flash.suspects.foldl transientFlash { s with flash := { s.flash with suspects := [] } }

/-- A tile retires, with its slice when the failure lay in the slice or the router (R453). A tile that has retired already still has its
slice in service, and that slice retires alone (R72). -/
def retireTile (s : State) (t : Nat) (withSlice : Bool) : State :=
  let tile := !s.retired.tiles.contains t
  let slice := withSlice && !s.retired.slices.contains t
  if !tile && !slice then s
  else
    let s1 := { s with retired := { s.retired with
      tiles := if tile then t :: s.retired.tiles else s.retired.tiles
      slices := if slice then t :: s.retired.slices else s.retired.slices } }
    let s2 := noteRetire s1 (if slice then 4 else 3) t
    let s3 := match (tileOf s2 t).entry with
      | some e => faultRequest s2 e 0x24 t
      | none => s2
    if slice then loseQuads s3 true (fun q => q / 256 == t) t else s3

/-- A transient event of a tile, which also counts in its counter (R451, R452, R462). -/
def transientTile (s : State) (t : Nat) : State :=
  if s.retired.tiles.contains t then s
  else
    let x := tileOf s t
    let r := addTransient (now s) s.sched.tileLimit s.sched.tileWindow x.transient
    let s1 := bumpTile (setTile s t { x with transient := r.1 }) t 6 1
    if r.2 then retireTile s1 t false else s1

/-- A retry of a tile failed: the job that made the access ends with CAUSE 0x21 and the tile retires (R452). -/
def failTile (s : State) (t : Nat) (withSlice : Bool) : State :=
  let s1 := match (tileOf s t).entry with
    | some e => faultRequest s e 0x21 t
    | none => s
  retireTile s1 t withSlice

/-- An HBM read that stays uncorrectable: a transient event when the second read is clean, else the pseudo-channel retires with
its check-bit cause; an engine-area quad is served from its mirror (R306, R315, R334). -/
def burstFault (s : State) (p : Nat) (again : Bool) : State := if again then retirePc s p 2 else transientPc s p

end Sys2Proof.Machine
end

