-- ==== Sys2Proof/Machine/Library.lean ====
section
/-! DEFINITION. The Library: LIB_WRITE, LIB_ERASE, erases and their suspends, read-retry, rate switches (R409 to R425). -/

namespace Sys2Proof.Machine

/-! ### Blocks -/

/-- Channels in service. -/
def liveChannels (s : State) : List Nat := (List.range 8).filter fun c => !s.retired.flash.contains c

/-- Mask of the channels in service. -/
def liveMask (s : State) : BitVec 8 := BitVec.ofNat 8 ((liveChannels s).map fun c => 2 ^ c).sum

/-- Channels of a Library block. -/
def LibBlock.channels (b : LibBlock) : List Nat := setBits b.chmask.toNat 8

/-- Library block of a unit. -/
def blockOf (s : State) (u : Nat) : Nat := u / (8 * s.flash.upb.toNat)

/-- Units of one package: its manifest unit and the stored pages of its segments (R388). -/
def packageUnits (lunit : Nat) (m : List Byte) : List (Nat × Nat) :=
  (lunit, 1) :: ((segmentsOf m).filter fun g => g.kind != 4).map fun g => (lunit + g.loff, g.pages)

/-- Unit ranges of every package that is loaded or being loaded (R397). -/
def usedUnits (s : State) : List (Nat × Nat) :=
  (s.ctxs.flatMap fun c => c.2.packages.flatMap fun p => packageUnits p.2.lunit p.2.manifest) ++
    s.docket.entries.flatMap fun p => match p.2.cmd with
      | .packageLoad b => if p.2.image.isEmpty then [] else packageUnits b.lunit.toNat p.2.image
      | _ => []

/-- Some unit of a range belongs to a package that is loaded or being loaded. -/
def unitsUsed (s : State) (u n : Nat) : Bool := (usedUnits s).any fun r => rangesMeet r (u, n)

/-- Some unit of a Library block is in use (FLS_LBLK_STATE.INUSE). -/
def blockUsed (s : State) (g : Nat) : Bool := unitsUsed s (g * 8 * s.flash.upb.toNat) (8 * s.flash.upb.toNat)

/-! ### LIB_WRITE (R418, R419) -/

/-- Admission check of LIB_WRITE: the fields that no block state can change. -/
def libWriteCheck (s : State) (b : LibWriteBody) : Option (BitVec 8) :=
  if s.fuses.lcs = 4 then some stNotPermitted
  else if b.nunits = 0 ∨ b.src.toNat % 4096 ≠ 0 then some stInvalid
  else none

/-- The channel of the next unit of a Library block (R413). -/
def LibBlock.nextChannel (b : LibBlock) : Nat := b.channels.getD (b.wp % max 1 b.channels.length) 0

/-- The program of unit u on a channel reports no failure, and all its 16 sectors read back at level 0 (R418, R419). -/
def unitVerifies (s : State) (g u ch : Nat) : Bool :=
  !s.env.nandBad.contains (ch, nandBlock s g ch) && !((List.range 16).any fun j => s.env.libErr.contains (16 * u + j))

/-- Programs a unit's 16 sectors (R414). -/
def programUnit (s : State) (u : Nat) (bs : List Byte) : State :=
  (List.range 16).foldl (fun v j => putSector v u j ((bs.drop (4096 * j)).take 4096)) s

/-- Programs and verifies units one after another, each after its image has been read whole; answers the status, the units done and the
state (R417 to R419, R425). -/
def writeUnits (g src : Nat) : Nat → Nat → State → BitVec 8 × Nat × State
  | 0, k, s => (stSuccess, k, s)
  | n + 1, k, s =>
    let b := libBlockOf s g
    let upb := s.flash.upb.toNat
    let u := g * 8 * upb + b.wp
    let ch := b.nextChannel
    if (flashChanOf s ch).retired then (stLowerError, k, setLibBlock s g { b with state := .damaged })
    else
      match hostRead s (src + 65536 * k) 65536 with
      | .error => (stLowerError, k, s)
      | .late => (stLowerLate, k, s)
      | .data bs =>
        let s1 := programUnit s u bs
        if !unitVerifies s g u ch then
          (stLowerError, k, setLibBlock s1 g { b with state := .damaged, marked := b.marked ||| (1#8 <<< ch) })
        else
          let wp := b.wp + 1
          writeUnits g src n (k + 1)
            (setLibBlock s1 g { b with wp := wp, state := if wp = b.channels.length * upb then .full else .opened })

/-- A LIB_WRITE whose units are done, or that stops: RESULT holds the units programmed and verified. A late host read leaves it to its
deadline (R277, R418). -/
def endLibWrite (s : State) (e : Nat) (st : BitVec 8) (done : Nat) : State :=
  if st = stLowerLate then readLate (modEntry s e fun y => { y with result := BitVec.ofNat 64 done }) e else finishWith s e st done

/-- LIB_WRITE starts. -/
def startLibWrite (s : State) (e : Nat) (_x : Entry) (b : LibWriteBody) : State :=
  let upb := s.flash.upb.toNat
  let u := b.lunit.toNat
  let g := blockOf s u
  let k := libBlockOf s g
  if upb = 0 ∨ s.flash.nlb.toNat ≤ g then finish s e stInvalid
  else if k.state = .bad then finish s e stNotPermitted
  else if u ≠ g * 8 * upb + k.wp ∨ k.channels.length * upb < k.wp + b.nunits.toNat ∨ (k.state ≠ .erased ∧ k.state ≠ .opened) then
    finish s e stInvalid
  else if unitsUsed s u b.nunits.toNat then finish s e stNotPermitted
  else
    let r := writeUnits g b.src.toNat b.nunits.toNat 0 s
    endLibWrite r.2.2 e r.1 r.2.1

/-! ### LIB_ERASE (R420 to R422) -/

/-- Admission check of LIB_ERASE. -/
def libEraseCheck (s : State) (b : LibEraseBody) : Option (BitVec 8) :=
  if s.fuses.lcs = 4 then some stNotPermitted
  else if b.nblk = 0 ∨ s.flash.nlb.toNat < b.first.toNat + b.nblk.toNat then some stInvalid
  else none

/-- Replaces the NAND block that a Library block has on a channel by the channel's first spare; none when it has no spare left
(R420). -/
def replaceNand (s : State) (g ch : Nat) : Option State :=
  match (flashChanOf s ch).spares with
  | [] => none
  | k :: rest =>
    some (setLibBlock (setFlashChan s ch { flashChanOf s ch with spares := rest }) g
      { libBlockOf s g with nand := tblPut (libBlockOf s g).nand ch k, marked := (libBlockOf s g).marked &&& ~~~(1#8 <<< ch) })

/-- Replaces the NAND blocks of a Library block on these channels, one after another. -/
def replaceOn (s : State) (g : Nat) (chs : List Nat) : Option State :=
  chs.foldl (fun u c => u.bind fun v => replaceNand v g c) (some s)

/-- Replaces the marked NAND blocks of a Library block from the spares of their channels; none when one has no spare left. -/
def replaceMarked (s : State) (g : Nat) : Option State :=
  replaceOn s g ((setBits (libBlockOf s g).marked.toNat 8).filter fun c => !s.retired.flash.contains c)

/-- The channels in service whose NAND block of a Library block reports a failed erase (R420). -/
def erasesFailed (s : State) (g : Nat) : List Nat :=
  (liveChannels s).filter fun c => s.env.nandBad.contains (c, nandBlock s g c)

/-- The erase of a Library block's NAND blocks: one that fails is replaced and erased once more. None when a channel has no spare
left or a second erase fails: the Library block is BAD (R420). -/
def eraseNand (s : State) (g : Nat) : Option State :=
  match replaceOn s g (erasesFailed s g) with
  | none => none
  | some s1 =>
    if !(erasesFailed s1 g).isEmpty || (liveChannels s).isEmpty then none
    else some { s1 with libMem := s1.libMem.filter fun p => !((liveChannels s).any fun c => p.1 / 2 ^ 16 == c * 2 ^ 24 + nandBlock s1 g c) }

/-- RESULT of LIB_ERASE. -/
def eraseResult (x : Entry) : Nat := x.progress + 2 ^ 32 * x.spoiled

/-- Starts the next erase of a LIB_ERASE, passing blocks that become BAD; with none left the command completes. -/
def nextErase (e : Nat) : Nat → State → State
  | 0, s => s
  | fuel + 1, s =>
    match entryOf s e with
    | none => s
    | some x =>
      match x.cmd with
      | .libErase b =>
        if b.nblk.toNat ≤ x.progress + x.spoiled then finishWith s e stSuccess (eraseResult x)
        else
          let g := b.first.toNat + x.progress + x.spoiled
          let s1 := setLibBlock s g { libBlockOf s g with state := .erasePending }
          (match replaceMarked s1 g with
           | none =>
             nextErase e fuel (modEntry (setLibBlock s1 g { libBlockOf s1 g with state := .bad }) e fun y =>
               { y with spoiled := y.spoiled + 1 })
           | some s2 => { s2 with flash := { s2.flash with erases := s2.flash.erases ++ [{ block := g, entry := some e }] } })
      | _ => s

/-- LIB_ERASE starts. -/
def startLibErase (s : State) (e : Nat) (_x : Entry) (b : LibEraseBody) : State :=
  let gs := (List.range b.nblk.toNat).map fun k => b.first.toNat + k
  if gs.any (fun g => blockUsed s g || decide ((libBlockOf s g).state = .bad)) ∨ liveChannels s = [] then
    finish s e stNotPermitted
  else nextErase e (b.nblk.toNat + 1) s

/-- The flash manager starts no further operation during a handover (R446). -/
def flashHeld (s : State) : Bool := s.fw.handover.isSome

/-- NAND_ERASE_DONE: the erase of a Library block ends and the block is ERASED over the channels in service, or BAD; its command goes
on with the next block. An erase without a command finishes in the background (R420, R421). -/
def nandEraseDone (s : State) (g : Nat) : State :=
  match s.flash.erases.find? fun r => r.block == g with
  | none => s
  | some r =>
    let s1 := { s with flash := { s.flash with erases := s.flash.erases.filter fun q => q.block != g } }
    let done := eraseNand s1 g
    let s2 := match done with
      | none => setLibBlock s1 g { libBlockOf s1 g with state := .bad }
      | some u => setLibBlock u g { libBlockOf u g with state := .erased, chmask := liveMask s, wp := 0 }
    match r.entry with
    | none => s2
    | some e =>
      let s3 := modEntry s2 e fun y =>
        if done.isNone then { y with spoiled := y.spoiled + 1 } else { y with progress := y.progress + 1 }
      if flashHeld s3 then s3
      else match entryOf s3 e with
        | none => s3
        | some x => nextErase e (match x.cmd with | .libErase b => b.nblk.toNat + 1 | _ => 0) s3

/-- LIB_ERASEs that a handover kept from their next block go on. -/
def kickErases (s : State) : State :=
  if flashHeld s then s
  else
    s.docket.entries.foldl (fun u p =>
      match p.2.cmd with
      | .libErase b =>
        if p.2.state = .running ∧ p.2.dispatched ∧ (u.flash.erases.all fun r => r.entry != some p.1) then
          nextErase p.1 (b.nblk.toNat + 1) u
        else u
      | _ => u) s

/-- The erase of a block runs on a channel: its NAND blocks on every channel in service. -/
def erasing (s : State) (ch g : Nat) : Bool :=
  (s.flash.erases.any fun r => r.block == g) && !s.retired.flash.contains ch

/-- ERASE_SUSPEND: a read reaches the erasing LUN; the erase is suspended, the reads are served and the erase resumes (R421). -/
def eraseSuspend (s : State) (ch g : Nat) : State :=
  if erasing s ch g then setFlashChan s ch { flashChanOf s ch with susp := (flashChanOf s ch).susp + 1 } else s

/-- Every NAND operation is cut and the flash manager starts again: interrupted erases are done again in the background, and every
channel starts in SDR timing mode 0 (R410, R422). -/
def resetFlash (s : State) : State :=
  { s with flash := { s.flash with
      erases := (s.flash.blocks.filter fun (p : Nat × LibBlock) => decide (p.2.state = .erasePending)).map fun p =>
        { block := p.1, entry := none }
      chans := tblMap s.flash.chans fun _ c => { c with switching := false, rate := 0, timing := 0, decodeFails := 0 } } }

/-! ### Read-retry, timeouts and rate switches (R411, R423, R424) -/

/-- FLASH_READ_RETRY: a sector of a channel decodes at a level from 1 to NRL, or stays uncorrectable (R423). -/
def flashReadRetry (s : State) (ch : Nat) (level : Option (BitVec 4)) : State :=
  if s.retired.flash.contains ch then s
  else match level with
    | none => transientFlash (bump s 8 1) ch
    | some l => if l = 0 ∨ s.flash.nrl < l then s else transientFlash s ch

/-- FLASH_COMMAND_TIMEOUT: a command does not complete within twice its maximum time after one reissue (R424). -/
def flashCommandTimeout (s : State) (ch : Nat) : State := retireFlash s ch 2

/-- The timing fields of FLS_RDTIM as one number. -/
def rdtimTiming (s : State) : BitVec 11 :=
  BitVec.ofNat 11 (s.flash.rlat.toNat + 64 * s.flash.rpre.toNat + 256 * s.flash.odt.toNat)

/-- FLS_RDTIM.APPLY: every channel in service switches at its next idle point (R411). -/
def rdtimApply (s : State) : State :=
  (liveChannels s).foldl (fun u c => setFlashChan u c { flashChanOf u c with switching := true, decodeFails := 0 }) s

/-- CHANNEL_RATE_SWITCH: a switching channel reaches its idle point. With reads that decode it runs at the new values; a switch
whose reads fail is tried once more and then retires the channel (R411, R424). -/
def channelRateSwitch (s : State) (ch : Nat) (reads : Bool) : State :=
  let x := flashChanOf s ch
  if !x.switching || x.retired then s
  else if reads then
    setFlashChan s ch { x with switching := false, rate := s.flash.rate, timing := rdtimTiming s, decodeFails := 0 }
  else if x.decodeFails = 0 then setFlashChan s ch { x with decodeFails := 1 }
  else retireFlash s ch 3

end Sys2Proof.Machine
end

