-- ==== Sys2Proof/Machine/Resets.lean ====
section
/-! DEFINITION. Cold and warm resets, and what each keeps (R280, R422, R501, R502, R532). -/

namespace Sys2Proof.Machine

/-! ### Parts of a reset -/

/-- The fault-log ring as the copies in the journal give it (R458). -/
def logFromCopies (copies : List (Nat × List Byte)) : Tbl (List Byte) :=
  copies.foldl (fun t r => tblPut t r.1 r.2) []

/-- The stewards after a cold reset: slots, journal copies and the record number are the Library's. -/
def Fw.cold (w : Fw) : Fw :=
  { Fw.reset with
    slotA := w.slotA, slotB := w.slotB, log := logFromCopies w.logCopies, logSeq := w.logSeq, logCopies := w.logCopies
    untold := w.untold }

/-- The stewards after a warm reset: the running image goes on, the fault log stays, every register is at its cold value, and a
device loss stays until a cold reset (R333, R366, R458, R502, R532). -/
def Fw.warm (w : Fw) : Fw :=
  { Fw.reset with
    version := w.version, svn := w.svn, image := w.image, slot := w.slot, region := w.region, recovered := w.recovered, slotA := w.slotA
    slotB := w.slotB, devLoss := w.devLoss, log := w.log, logSeq := w.logSeq, logCopies := w.logCopies, untold := w.untold }

/-- Retired pseudo-channels as training at start finds them (R328, HBM_PC_STATE cause 6). -/
def retiredPcs (s : State) : Tbl Pc :=
  s.retired.pcs.foldl (fun t p => tblPut t p { Pc.reset with retired := true, cause := 6 }) []

/-- Flash channels after a reset of the flash controller; retired ones have cause 4 (R410, FLS_CH_STATE). -/
def retiredChans (s : State) : Tbl FlashChan :=
  let kept := tblMap s.flash.chans fun _ c =>
    { FlashChan.reset with spares := c.spares }
  s.retired.flash.foldl (fun t c =>
    tblPut t c { tblGetD kept c FlashChan.reset with retired := true, cause := 4 }) kept

/-- A port after a reset; a retired one has cause 3 (R488). -/
def bootPort (s : State) (p : Nat) : Port :=
  if s.retired.ports.contains p then { Port.reset with state := 3, cause := 3 } else Port.reset

/-- The Span block after a cold or warm reset. -/
def bootSpan (s : State) : Span := { Span.reset with port0 := bootPort s 0, port1 := bootPort s 1 }

/-- Every NAND operation is cut; what belongs to the parts, the journal and the records stays, registers return to their cold
values (R410, R422). -/
def Flash.restart (x : Flash) (chans : Tbl FlashChan) : Flash :=
  { x with transLimit := 16, transWindow := 1000, chans := chans, rate := 0, rlat := 0, rpre := 0, odt := 0
           erases := (x.blocks.filter fun (p : Nat × LibBlock) => decide (p.2.state = .erasePending)).map fun p =>
             { block := p.1, entry := none } }

/-- What cold and warm resets clear alike: contexts, rings, jobs and the Docket without completions, counters, the Almanac,
panic, freezes and held writes, HBM and flash queues, the Span, the steward private SRAM (R280), and every register but the exceptions of
R501. -/
def clearAll (s : State) : State :=
  { s with
    runs := [], stewardMem := [], store0 := { fresh := 16384, back := [] }, store1 := { fresh := 0, back := [] }, syncs := [], codecSlots := []
    streams := [], docket := Docket.reset, tiles := []
    almanac := Almanac.reset, sched := Sched.reset, ctxs := [], dbg := Dbg.reset, heldWrites := [], lrs := Lrs.reset
    hbm := { Hbm.reset with pcs := retiredPcs s }, flash := s.flash.restart (retiredChans s), span := bootSpan s
    sec := Sec.reset }

/-! ### Cold reset (R494) -/

/-- The test port's instruction once PERST_N is high: one that takes balls away acts as BYPASS (R521). -/
def releasedInstr (i : TestInstr) : TestInstr :=
  match i with
  | .extest | .takesBalls => .bypass
  | .bypass | .idcode | .debugHalt _ | .debugResume _ => i

/-- A cold reset begins: every unit stops, the link goes down, and with PERST_N high the boot ROM starts at Device Time 0. The
journal remembers that the boot before ended in the last-resort state (R497 step 1). -/
def coldReset (s : State) : State :=
  let t := clearAll s
  { t with
    time := Time.reset, fns := [], fw := s.fw.cold, power := { Power.reset with railsGood := s.power.railsGood }
    boot := Boot.reset, pins := { s.pins with perstHigh := true, testInstr := releasedInstr s.pins.testInstr, smbAddress := 0x4D, response := [] }
    flash := { t.flash with lrsMark := s.flash.lrsMark || s.lrs.active } }

/-- Power goes: everything outside the Library and the fuses is gone (R422, R504). -/
def losePower (s : State) : State :=
  { coldReset s with
    power := { Power.reset with railsGood := false }, pins := { s.pins with thermtrip := false, testInstr := .idcode, response := [] }
    hbmMem := [], sramMem := [], localMem := [], frostMem := [] }

/-- PERST_N moves at its ball and stays there: low for 1 µs or more it starts a cold reset, which ends when it rises (R493, R494). -/
def perstMoves (s : State) (high : Bool) : State :=
  if !s.power.railsGood || s.power.clocksStopped || s.pins.perstHigh == high then s
  else
    let t := coldReset s
    { t with pins := { t.pins with perstHigh := high } }

/-- TEST_EN moves: high it holds PERST_N internally low, and the engine does not leave the reset (R510). -/
def testEnMoves (s : State) (high : Bool) : State :=
  if !s.power.railsGood || s.power.clocksStopped || s.pins.testEn == high then { s with pins := { s.pins with testEn := high } }
  else
    let t := coldReset s
    { t with pins := { t.pins with perstHigh := s.pins.perstHigh, testEn := high } }

/-- Power comes, and a cold reset begins (R492 to R494). -/
def powerUp (s : State) : State :=
  let t := losePower s
  { t with power := { t.power with railsGood := true }, pins := { t.pins with perstHigh := true, smbAddress := 0x4D } }

/-- A low level of PERST_N of so many ticks: from 1 µs on a cold reset, once the rails are up; a thermal trip ends only when power
is removed (R493, R516, R523). -/
def perstLow (s : State) (ticks : Nat) : State :=
  if !s.power.railsGood || s.power.clocksStopped || !s.pins.perstHigh || decide (ticks < 100) then s else coldReset s

/-! ### Warm reset (R501, R502, R532) -/

/-- A function after a warm reset: its registers are cold, its configuration space is kept. -/
def Fn.warm (x : Fn) : Fn := { Fn.reset with msix := x.msix, cfg := x.cfg, d3hot := x.d3hot }

/-- Power state after a warm reset: PWR_CAP, the temperatures and the thermal limit stay. -/
def Power.warm (p : Power) : Power :=
  { Power.reset with
    cap := p.cap, tj := p.tj, thbm := p.thbm, throttle := p.throttle, vdd := p.vdd, avsSince := p.avsSince
    freq := if p.throttle then 800 else 1600, tiles := if p.throttle then 24 else 96 }

/-- A warm reset begins: no completion is written, and steps 2 to 6 of R497 follow. -/
def warmReset (s : State) : State :=
  let t := clearAll s
  { t with
    time := { s.time with eqxOffset := 0, eqxValid := false, eqxErr := 0 }, fns := tblMap s.fns fun _ x => x.warm, fw := s.fw.warm
    power := s.power.warm, hbm := { t.hbm with rate := s.hbm.rate }
    boot := { s.boot with stage := 2, recovAddr := 0, released := false } }

/-! ### Firmware start (R495 to R497) -/

/-- Library units outside the firmware slots are erased, each as an LIB_ERASE erases it; with no channel in service there is nothing
to erase (R407, R420). -/
def eraseUnits (s : State) : State :=
  if liveChannels s = [] then s
  else
    (List.range s.flash.nlb.toNat).foldl (fun u g =>
      if (libBlockOf u g).state = .bad then u
      else
        match (replaceMarked u g).bind fun v => eraseNand v g with
        | none => setLibBlock u g { libBlockOf u g with state := .bad }
        | some v => setLibBlock v g { libBlockOf v g with state := .erased, chmask := liveMask v, wp := 0 })
      { s with flash := { s.flash with erases := [] } }

/-- The provisioned records that a payload gives (R405); the timing table is not part of it and stays (log 6). -/
def recordsOf (s : State) (payload : List Byte) : Records :=
  { ownerKey := payload.take 64, trustSeq := BitVec.ofNat 32 (fieldAt payload 136 4)
    trustRecord := (payload.drop 128).take 1408
    certificate := (payload.drop 1600).take (fieldAt payload 1536 4)
    rdtim := match s.flash.records with | some r => r.rdtim | none => 0 }

/-- Library work of a life-cycle transition (R407). -/
def finishLcWork (s : State) : State :=
  match s.flash.lcWork with
  | none => s
  | some w =>
    let s1 := if w.toLcs = 3 ∨ w.fromLcs = 3 ∨ w.toLcs = 4 then eraseUnits s else s
    let recs := if w.toLcs = 4 then none else if w.toLcs = 1 then some (recordsOf s w.payload) else s1.flash.records
    { s1 with flash := { s1.flash with records := recs, lcWork := none } }

/-- Step 1: the Frost header of a boot that ended in the last-resort state gives a fault-log record (R458, R474). The record
carries the header's Device Time, frame number and cause. -/
def noteLrs (s : State) : State :=
  if !s.flash.lrsMark then s
  else
    let h := memReadN s.frostMem 0 48
    let s0 := { s with flash := { s.flash with lrsMark := false } }
    if h.take 8 = ascii "EZBFROST" then logFaultAt s0 (fieldAt h 16 8) (fieldAt h 24 4) 6 0 (fieldAt h 41 1) 0 0 else s0

/-- Both pseudo-channels of a channel retire. -/
def retireChannel (s : State) (c : Nat) (cause : BitVec 4) : State := retirePc (retirePc s (2 * c) cause) (2 * c + 1) cause

/-- Channel c has been trained. -/
def markTrained (s : State) (c : Nat) : State :=
  setChan s c { Chan.reset with trainedAt := s.time.dtime, trainedTemp := (s.hbm.temps[c / 16]?).join }

/-- Step 3: every channel in service is trained, and Span ports that are not retired start training. A channel that fails training has
both its pseudo-channels retired (R312, R328). -/
def trainAll (s : State) (failed : BitVec 64) : State :=
  let s1 := (List.range 64).foldl (fun u c => if failed.getLsbD c then retireChannel u c 5 else markTrained u c) s
  let up (p : Port) : Port := if p.state = 3 then p else { p with state := 1 }
  { s1 with span := { s1.span with port0 := up s1.span.port0, port1 := up s1.span.port1 } }

/-- Step 4: HBM, state SRAM with the Frost area, local stores and accumulator files are wiped (R280). -/
def wipeAll (s : State) : State :=
  { s with hbmMem := [], sramMem := [], localMem := [], frostMem := [], tiles := [] }

/-- Step 5: FLS_RDTIM from the records, with every channel moved to it; in BLANK, without records, channels stay in SDR (R411). -/
def loadTiming (s : State) : State :=
  match s.flash.records with
  | none => s
  | some r =>
    let w := r.rdtim
    let s1 := { s with flash := { s.flash with
      rate := w.extractLsb' 0 3, rlat := w.extractLsb' 4 6, rpre := w.extractLsb' 10 2, odt := w.extractLsb' 12 3 } }
    (liveChannels s1).foldl (fun u c =>
      setFlashChan u c { flashChanOf u c with rate := s1.flash.rate, timing := rdtimTiming s1 }) s1

/-- Steps 1 to 6 of R497; the engine key and the nonce are drawn (R376, R406), and TEL tells the retirements that it has still to
tell (R460). -/
def bringUp (s : State) (failed : BitVec 64) : State :=
  let s1 := loadTiming (wipeAll (trainAll (finishLcWork (noteLrs s)) failed))
  let r := drawBytes 64 s1
  let n := drawBytes 32 r.2
  tellRetired { n.2 with
    sec := { n.2.sec with engineKey := r.1, nonce := n.1 }, almanac := Almanac.reset
    fw := { n.2.fw with wdtEnd := BitVec.ofNat 64 (now s + 1000000 * n.2.fw.wdt.toNat) }
    boot := { n.2.boot with stage := 5, released := true } }

end Sys2Proof.Machine
end

