-- ==== Sys2Proof/Machine/Auth.lean ====
section
/-! DEFINITION. Life-cycle transitions and trust-list updates: SEC_AUTH_CTRL.GO (R380, R403 to R407). -/

namespace Sys2Proof.Machine

/-! ### Trust lists (R379, R380) -/

/-- PUBID of entry k of a trust-list record. -/
def pubid (r : List Byte) (k : Nat) : Nat := fieldAt r (128 + 80 * k) 4

/-- Bytes 0 to 1,407 of a trust-list record are well formed: magic, NENT, reserved bytes, PUBIDs non-zero and unique, entries at
or beyond NENT zero. -/
def trustOk (r : List Byte) : Bool :=
  let n := fieldAt r 12 1
  decide (r.take 8 = ascii "EZBTRUST") && decide (n ≤ 16) && zeroAt r 13 3 && zeroAt r 80 48 &&
    ((List.range n).all fun k => pubid r k != 0 && zeroAt r (132 + 80 * k) 12) &&
    ((List.range n).all fun k => (List.range k).all fun j => pubid r j != pubid r k) && zeroAt r (128 + 80 * n) (80 * (16 - n))

/-- The device digest of a trust-list record is this device's or all zero. -/
def trustHere (s : State) (r : List Byte) : Bool := zeroAt r 16 64 || decide ((r.drop 16).take 64 = deviceDigest s)

/-- Owner signatures verify under the owner key of the records. -/
def ownerVerifies (s : State) (context : String) (message signature : List Byte) : Bool :=
  match s.flash.records with
  | some r => verifies r.ownerKey context message signature
  | none => false

/-- ERR of a trust-list update: format, device, sequence, signature, the first that fails (R380; order DESIGN CHOICE, log 37). -/
def trustError (s : State) (r : List Byte) : BitVec 4 :=
  if !trustOk r then 2
  else if !trustHere s r then 4
  else if fieldAt r 8 4 ≤ (match s.flash.records with | some q => q.trustSeq.toNat | none => 0) then 6
  else if !ownerVerifies s "EZB9600 TRUST" (r.take 1408) ((r.drop 1408).take 29792) then 3
  else 0

/-- An accepted list replaces the stored one. -/
def storeTrust (s : State) (r : List Byte) : State :=
  match s.flash.records with
  | none => s
  | some q => { s with flash := { s.flash with
      records := some { q with trustSeq := BitVec.ofNat 32 (fieldAt r 8 4), trustRecord := r.take 1408 } } }

/-! ### Life-cycle transitions (R404 to R406) -/

/-- Who authorises a transition of R404. -/
inductive Signer where
  | root | owner | pf
deriving DecidableEq, Repr

/-- The transitions of R404 and their signers; FIELD to RETURN only while KEPOCH is at most 2. -/
def transition (kepoch : BitVec 2) (a b : BitVec 3) : Option Signer :=
  if a = 0 ∧ b = 1 then some .root
  else if a = 1 ∧ b = 2 then some .pf
  else if a = 2 ∧ b = 3 ∧ kepoch ≤ 2 then some .owner
  else if a = 3 ∧ b = 1 then some .root
  else if (a = 0 ∨ a = 1 ∨ a = 3) ∧ b = 4 then some .root
  else if a = 2 ∧ b = 4 then some .owner
  else none

/-- The transition needs a provisioning payload (R404). -/
def needsPayload (b : BitVec 3) : Bool := b == 1

/-- A provisioning payload is well formed (R405); its trust list is for this device or for any (R380). -/
def payloadOk (s : State) (p : List Byte) : Bool :=
  let n := fieldAt p 1536 4
  decide (p.length = 1600 + n) && decide (1 ≤ n) && decide (n ≤ 32768) && zeroAt p 64 64 && trustOk (p.drop 128) &&
    trustHere s (p.drop 128) && zeroAt p 1540 60

/-- Length of the payload that a record announces, bounded as R405 bounds it. -/
def payLen (r : List Byte) : Nat := min (fieldAt r 12 4) (1600 + 32768)

/-- ERR of a life-cycle record `r` with payload `p` for a transition to `b` by `w` (R406): format, then FROM, TO and SIGNER, then
nonce and device, then payload, then signature (order DESIGN CHOICE, log 37). -/
def recordError (s : State) (r p : List Byte) (b : BitVec 3) (w : Signer) : BitVec 4 :=
  let signed := r.take 192
  let sig := (r.drop 192).take 29792
  let want := if needsPayload b then decide (fieldAt r 12 4 = p.length) && payloadOk s p && decide ((r.drop 112).take 64 = shake256 p 64)
    else decide (fieldAt r 12 4 = 0) && zeroAt r 112 64
  if r.take 8 ≠ ascii "EZBLCAUT" ∨ !zeroAt r 11 1 ∨ !zeroAt r 176 16 ∨ 1 < fieldAt r 10 1 then 2
  else if fieldAt r 8 1 ≠ s.fuses.lcs.toNat ∨ fieldAt r 9 1 ≠ b.toNat ∨ fieldAt r 10 1 ≠ (if w = .owner then 1 else 0) then 5
  else if (r.drop 16).take 32 ≠ s.sec.nonce ∨ (r.drop 48).take 64 ≠ deviceDigest s then 4
  else if !want then 2
  else if !(if w = .owner then ownerVerifies s "EZB9600 LC" signed sig else rootVerifies s "EZB9600 LC" signed sig) then 3
  else 0

/-- An accepted transition: the fuses first, the Library work in the journal, then a warm reset (R406, R407). -/
def acceptTransition (s : State) (b : BitVec 3) (payload : List Byte) : State :=
  let a := s.fuses.lcs
  warmReset { s with
    fuses := { s.fuses with
      lcs := b
      kepoch := if a = 2 ∧ b = 3 then s.fuses.kepoch + 1 else s.fuses.kepoch
      uds := if b = 4 then BitVec.allOnes 256 else s.fuses.uds }
    flash := { s.flash with lcWork := some { fromLcs := a, toLcs := b, payload := payload } } }

/-- ERR is set. -/
def setAuthErr (s : State) (e : BitVec 4) : State := { s with sec := { s.sec with err := e } }

/-- Checks and carries out a life-cycle transition (R406). -/
def lcTransition (s : State) : State :=
  let b := s.sec.toLcs
  let a := s.sec.authAddr.toNat
  match transition s.fuses.kepoch s.fuses.lcs b with
  | none => setAuthErr s 5
  | some .pf => if a = 0 then acceptTransition s b [] else setAuthErr s 5
  | some w =>
    if a = 0 then setAuthErr s 1
    else
      match hostRead s a 29984 with
      | .data r =>
        (match (if needsPayload b then hostRead s (a + 30016) (payLen r) else .data []) with
         | .data p =>
           let e := recordError s r p b w
           if e = 0 then acceptTransition s b p else setAuthErr s e
         | _ => setAuthErr s 1)
      | _ => setAuthErr s 1

/-- Checks and stores a trust-list update (R380). -/
def trustUpdate (s : State) : State :=
  let a := s.sec.authAddr.toNat
  if a = 0 then setAuthErr s 1
  else
    match hostRead s a 31200 with
    | .data r =>
      let e := trustError s r
      if e = 0 then storeTrust (setAuthErr s 0) r else setAuthErr s e
    | _ => setAuthErr s 1

/-- One GO: OP 0 a transition, OP 1 a trust-list update; the nonce is redrawn afterwards (R406). -/
def authGo (s : State) : State :=
  let s1 := if s.sec.op = 0 then lcTransition s else trustUpdate s
  let n := drawBytes 32 s1
  { n.2 with sec := { n.2.sec with nonce := n.1, busy := false } }

/-- A GO that a handover held runs once the handover has ended (R448). -/
def releaseAuth (s : State) : State := if s.sec.busy && s.fw.handover.isNone then authGo s else s

/-- A write of SEC_AUTH_CTRL: OP and TO, and GO, which is ignored while BUSY. OP 2 and 3 are reserved, so that a write of them leaves OP
as it is (R5, R406). A GO that waits goes by OP and TO as they stand when it runs (DESIGN CHOICE, log 37). -/
def authCtrl (s : State) (v : BitVec 32) : State :=
  let op := v.extractLsb' 0 2
  let go := v.getLsbD 5
  let s1 := { s with sec := { s.sec with op := if op < 2 then op else s.sec.op, toLcs := v.extractLsb' 2 3 } }
  let s2 := countIf (decide (2 ≤ op) || strayBits v 0x3F || (go && s.sec.busy)) s1 0
  if !go || s.sec.busy then s2
  else if s.fw.handover.isSome then { s2 with sec := { s2.sec with busy := true } }
  else authGo s2

end Sys2Proof.Machine
end

