-- ==== Sys2Proof/Machine/Firmware.lean ====
section
/-! DEFINITION. Firmware images, FW_UPDATE and the live handover (R442 to R448). -/

namespace Sys2Proof.Machine

/-! ### Images (R442) -/

/-- CODELEN of an image. -/
def codeLen (img : List Byte) : Nat := fieldAt img 24 4

/-- Header fields of an image of `len` bytes are right (R445 step 3). -/
def headerOk (img : List Byte) (len : Nat) : Bool :=
  decide (img.take 8 = ascii "EZBFWIMG") && fieldAt img 8 2 == 1 && decide (65536 ≤ codeLen img) &&
    decide (codeLen img ≤ 1540096) && decide (codeLen img % 64 = 0) && decide (len = 256 + codeLen img + 29792)

/-- The digest and the signature of an image verify. -/
def imageGenuine (s : State) (img : List Byte) : Bool :=
  decide (shake256 ((img.drop 256).take (codeLen img)) 64 = (img.drop 32).take 64) &&
    rootVerifies s "EZB9600 FW" (img.take 256) ((img.drop (256 + codeLen img)).take 29792)

/-- VERSION and SVN of an image, and the handover formats HOFMT and HOMIN. -/
def imageVersion (img : List Byte) : BitVec 32 := BitVec.ofNat 32 (fieldAt img 12 4)
def imageSvn (img : List Byte) : BitVec 32 := BitVec.ofNat 32 (fieldAt img 16 4)
def imageHofmt (img : List Byte) : Nat := fieldAt img 20 2
def imageHomin (img : List Byte) : Nat := fieldAt img 22 2

/-! ### Image regions (R426) -/

/-- Address of an image region of the steward private SRAM: 1,536 KiB each, A first. -/
def regionBase (b : Bool) : Nat := if b then 1572864 else 0

/-- An image region is empty. -/
def clearRegion (s : State) (b : Bool) : State := { s with stewardMem := memWipe s.stewardMem (regionBase b) 1572864 }

/-- A whole image is read into an image region. -/
def loadRegion (s : State) (b : Bool) (img : List Byte) : State :=
  { s with stewardMem := memWriteN (clearRegion s b).stewardMem (regionBase b) img }

/-! ### Slots (R443) -/

/-- A slot: false A, true B. -/
def slotState (s : State) (b : Bool) : FwSlot := if b then s.fw.slotB else s.fw.slotA
/-- Replaces a slot. -/
def setSlotState (s : State) (b : Bool) (v : FwSlot) : State :=
  if b then { s with fw := { s.fw with slotB := v } } else { s with fw := { s.fw with slotA := v } }
/-- The slot that FW_UPDATE writes: the one that is not active, and A when none is (R445, R496). -/
def idleSlot (s : State) : Bool := s.fw.slotA.active
/-- SVN of the active image; while none is active, of the running one (R445, R496). -/
def activeSvn (s : State) : BitVec 32 :=
  if s.fw.slotA.active then s.fw.slotA.svn else if s.fw.slotB.active then s.fw.slotB.svn else s.fw.svn
/-- In-service channels of a slot, bit i for channel 4n + i. -/
def slotMaskLive (s : State) (b : Bool) : BitVec 4 :=
  BitVec.ofNat 4 (((List.range 4).filter fun i => !s.retired.flash.contains ((if b then 4 else 0) + i)).map fun i => 2 ^ i).sum

/-- Marks a slot active and the other not. -/
def activate (s : State) (b : Bool) : State :=
  { s with fw := { s.fw with
      slotA := { s.fw.slotA with active := !b }, slotB := { s.fw.slotB with active := b } } }

/-- RESULT of FW_UPDATE (R444). -/
def updateResult (outcome : Nat) (slot : Bool) (version : BitVec 32) : Nat :=
  outcome + 256 * (if slot then 1 else 0) + 65536 * version.toNat

/-! ### FW_UPDATE (R445 to R447) -/

/-- Admission check of FW_UPDATE: step 1. -/
def fwCheck (b : FwUpdateBody) : Option (BitVec 8) :=
  if b.src.toNat % 4096 ≠ 0 ∨ 2 < b.mode.toNat ∨ b.len.toNat < 256 + 65536 + 29792 ∨ 1570144 < b.len.toNat then some stInvalid
  else none

/-- A handover ends without effect: the old image resumes and FW_UPDATE completes with OUTCOME 3 (R447). -/
def rollback (s : State) : State :=
  match s.fw.handover with
  | none => s
  | some h =>
    finishWith (clearRegion { s with fw := { s.fw with handover := none } } (!s.fw.region)) h.entry stSuccess
      (updateResult 3 h.slot (slotState s h.slot).version)

/-- A handover commits: the new image runs, its slot is active, the old region is cleared and admission resumes (R446 step 5). -/
def commitHandover (s : State) : State :=
  match s.fw.handover with
  | none => s
  | some h =>
    let n := slotState s h.slot
    let s1 := activate s h.slot
    let s2 := { s1 with fw := { s1.fw with
      handover := none, version := n.version, svn := n.svn, image := n.image, slot := h.slot, region := !s1.fw.region, recovered := false } }
    finishWith (clearRegion s2 s.fw.region) h.entry stSuccess (updateResult 2 h.slot n.version)

/-- The old image's format lies within what the new image reads (R447). -/
def formatsMeet (old new : List Byte) : Bool :=
  decide (imageHomin new ≤ imageHofmt old) && decide (imageHofmt old ≤ imageHofmt new)

/-- Step 4 on: the image is programmed into slot t and read back, then marked as MODE says; with MODE 2 the handover opens. A slot
whose program or comparison fails is INVALID (R445). -/
def writeSlot (s : State) (e : Nat) (b : FwUpdateBody) (t : Bool) (img : List Byte) : State :=
  let v := imageVersion img
  let put (st : SlotState) : State := setSlotState s t
    { state := st, active := false, chmask := slotMaskLive s t, version := v, svn := imageSvn img, image := img }
  if s.env.slotBad.contains t then finish (clearRegion (put .invalid) (!s.fw.region)) e stLowerError
  else
    let s1 := put .valid
    let s2 := { s1 with flash := { s1.flash with maxSvn := if s1.flash.maxSvn < imageSvn img then imageSvn img else s1.flash.maxSvn } }
    if b.mode = 0 then finishWith (clearRegion s2 (!s.fw.region)) e stSuccess (updateResult 0 t v)
    else if b.mode = 1 then finishWith (activate (clearRegion s2 (!s.fw.region)) t) e stSuccess (updateResult 1 t v)
    else
      let s3 := { s2 with fw := { s2.fw with handover := some { entry := e, slot := t, since := s2.time.dtime } } }
      if formatsMeet s.fw.image img then s3 else rollback s3

/-- FW_UPDATE: the image is read into the idle image region and checked, then its slot is written; the other region is empty again
unless a handover goes on (R426, R445). -/
def startFwUpdate (s : State) (e : Nat) (_x : Entry) (b : FwUpdateBody) : State :=
  let t := idleSlot s
  if s.fuses.lcs = 4 ∨ slotMaskLive s t = 0 then finish s e stNotPermitted
  else
    match hostRead s b.src.toNat b.len.toNat with
    | .error => finish s e stLowerError
    | .late => readLate s e
    | .data img =>
      if !headerOk img b.len.toNat then finish s e stInvalid
      else if !imageGenuine s img then finish s e stSignature
      else if imageSvn img < activeSvn s then finish s e stNotPermitted
      else writeSlot (loadRegion s (!s.fw.region) img) e b t img

/-- A handover is ready to end: it commits, or after 20 ms it rolls back (R446, R447). -/
def endsHandover (s : State) : State :=
  match s.fw.handover with
  | none => s
  | some h => if h.since.toNat + 20000000 < now s then rollback s else commitHandover s

end Sys2Proof.Machine
end

