-- ==== Sys2Proof/Machine/Docket.lean ====
section
/-! DEFINITION. The Docket: admission (R431), readiness (R139, R249), the choice of the next start (R245 to R248), promotion,
deadlines, timeouts and retirement (R158, R163, R242 to R247). -/

namespace Sys2Proof.Machine

/-! ### Deadlines (R242) -/

/-- The frame that a deadline's tag names, within 128 frames of the current one. -/
def taggedFrame (s : State) (w : BitVec 32) : BitVec 32 :=
  let f := s.time.frameNum
  f + (BitVec.ofNat 8 (w.toNat / 2 ^ 24) - BitVec.ofNat 8 f.toNat).signExtend 32

/-- The phase of w in frame f has passed. -/
def phasePassed (s : State) (f w : BitVec 32) : Bool :=
  let d := (s.time.frameNum - f).toInt
  decide (0 < d) || (decide (d = 0) && decide (w.toNat % 2 ^ 24 ≤ phaseOf s))

/-- The deadline of an RT entry has passed. -/
def deadlinePassed (s : State) (x : Entry) : Bool :=
  x.hdr.cls == 0 && phasePassed s x.deadlineFrame x.hdr.deadline

/-! ### Admission (R431) -/

/-- Admission is held: an update handover is under way, or a steward reset (R432, R438, R473). -/
def admissionHeld (s : State) : Bool := s.fw.handover.isSome || !stewardsServe s

/-- Context c exists and its destruction has not begun (R337, R354). -/
def contextAlive (s : State) (c : Nat) : Bool :=
  match ctxOf s c with
  | some k => !k.destroying
  | none => false

/-- The command needs an open job (R354). -/
def needsJob : Command → Bool
  | .syncWait _ | .syncSignal _ | .copy _ | .tileRun _ | .streamPark _ | .streamUnpark _ | .step _ | .prefill _
  | .recChunk _ | .kvMap _ | .kvUnmap _ | .jobEnd _ | .present _ => true
  | _ => false

/-- The command is a JOB_BEGIN; a JOB_END. -/
def isBegin : Command → Bool
  | .jobBegin _ => true
  | _ => false
def isEnd : Command → Bool
  | .jobEnd _ => true
  | _ => false

/-- Tiles in service. -/
def tilesInService (s : State) : Nat := ((List.range 96).filter fun t => !s.retired.tiles.contains t).length

/-- Admission check of TILE_RUN (R108). -/
def tileRunCheck (s : State) (b : TileRunBody) : Option (BitVec 8) :=
  if b.len = 0 ∨ 65536 < b.len.toNat ∨ b.gang = 0 ∨ 96 < b.gang.toNat ∨ tilesInService s < b.gang.toNat ∨
      b.prog.toNat % 16 ≠ 0 ∨ 2 ^ 48 ≤ b.prog.toNat then some stInvalid
  else none

/-- Admission check of JOB_BEGIN: the reserved flags, and SPANJOB (R480). -/
def jobBeginCheck (s : State) (c : Nat) (b : JobBeginBody) : Option (BitVec 8) :=
  let w := b.spanjob
  let taken := s.ctxs.any fun p => p.1 != c && match p.2.job with
    | some j => j.span != 0 && spanJobNum j.span == spanJobNum w
    | none => false
  if 2 ≤ b.flags.toNat then some stInvalid
  else if w ≠ 0 ∧ (spanJobNum w = 0 ∨ 2 ^ 46 ≤ w.toNat ∨ spanJobLast w < spanJobFirst w ∨ s.span.chip.toNat < spanJobFirst w ∨
      spanJobLast w < s.span.chip.toNat ∨ !s.span.active ∨ taken) then some stInvalid
  else none

/-- Admission check of PRESENT (R253): class RT, a queue of the function, and no field of a condition that is not asked for. -/
def presentCheck (s : State) (h : ReqHeader) (b : PresentBody) : Option (BitVec 8) :=
  let swait := b.flags.getLsbD 0
  if h.cls ≠ 0 ∨ 4 ≤ b.flags.toNat ∨ !isQueue s h.fn.toNat b.pq.toNat ∨ (!b.flags.getLsbD 1 ∧ b.notbefore ≠ 0) ∨
      (!swait ∧ (b.cidx ≠ 0 ∨ b.target ≠ 0)) ∨ (swait ∧ (syncIndex s h.fn.toNat b.cidx.toNat).isNone) then some stInvalid
  else none

/-- The body checks that each command's chapter places at admission (R431 step 7). Answers the parts of a model command. -/
def bodyCheck (s : State) (h : ReqHeader) (cmd : Command) : Except (BitVec 8) (List Part) :=
  let c := h.fn.toNat
  let by_ (r : Option (BitVec 8)) : Except (BitVec 8) (List Part) := match r with | some st => .error st | none => .ok []
  match cmd with
  | .syncWait b => by_ (syncCheck s c b)
  | .syncSignal b => by_ (syncCheck s c b)
  | .copy b => by_ (copyCheck s c b)
  | .tileRun b => by_ (tileRunCheck s b)
  | .packageUnload p => by_ (unloadCheck s c p)
  | .streamOpen b => by_ (openCheck s c b)
  | .streamPark b => by_ (parkCheck b)
  | .step b => stepCheck s c b
  | .prefill b => prefillCheck s c b
  | .recChunk b => recCheck s c b
  | .poolGrow b => by_ (poolCheck b)
  | .poolShrink b => by_ (poolCheck b)
  | .tableLoad b => by_ (tableCheck s c b)
  | .jobBegin b => by_ (jobBeginCheck s c b)
  | .jobEnd f => by_ (if 2 ≤ f.toNat then some stInvalid else none)
  | .present b => by_ (presentCheck s h b)
  | .contextCreate b => by_ (createCheck b)
  | .fwUpdate b => by_ (fwCheck b)
  | .libWrite b => by_ (libWriteCheck s b)
  | .libErase b => by_ (libEraseCheck s b)
  | .attest b => by_ (attestCheck s b)
  | .kvMap b => by_ (if 2 ≤ b.mode.toNat then some stInvalid else none)
  | .nop | .packageLoad _ | .streamClose _ | .streamUnpark _ | .kvUnmap _ | .contextDestroy _ => .ok []

/-- The checks of R431 in order: the first that fails gives the status. `hdrBad`, `bodyBad`: reserved bytes of the raw entry. -/
def admitCheck (s : State) (h : ReqHeader) (cmd : Command) (hdrBad bodyBad : Bool) : Except (BitVec 8) (List Part) :=
  let c := h.fn.toNat
  let job := jobOf s c
  let rtok := match ctxOf s c with | some k => k.rtok | none => false
  if hdrBad || h.cls == 3 then .error stInvalid
  else if 0x80 ≤ opcodeOf cmd ∧ c ≠ 0 then .error stNotPermitted
  else if c = 0 ∧ needsContext cmd ∧ !contextAlive s 0 then .error stContextLost
  else if h.cls ≠ 0 ∧ h.deadline ≠ 0 then .error stInvalid
  else if h.cls = 0 ∧ !rtok then .error stNotPermitted
  else if h.cls = 0 ∧ phasePassed s (taggedFrame s h.deadline) h.deadline then .error stDeadline
  else if (needsJob cmd ∧ job.isNone) ∨ (isBegin cmd ∧ job.isSome) then .error stInvalid
  else if !isEnd cmd && (match job with | some j => j.faulted | none => false) then .error stJobFaulted
  else if bodyBad then .error stInvalid
  else bodyCheck s h cmd

/-- A Docket entry as it is fetched. `raw`: the 64 bytes, when they were read from a ring. -/
def newEntry (s : State) (h : ReqHeader) (cmd : Command) (raw : List Byte) : Entry :=
  { state := .fetched, hdr := h, cmd := cmd, parent := none, seq := 0, admitTime := now s, readyTime := 0, dispatched := false,
    overdue := false, inJob := false, deadlineFrame := 0, notBefore := 0, status := none, result := 0, epoch := none,
    started := 0, tiles := [], loose := [], node := 0, chunk := 0, parts := [], ended := [], begun := [], walks := [], sampled := [],
    lists := [], image := raw, due := false, quads := [], quads1 := [], window := 0, images := [], installed := [], progress := 0,
    spoiled := 0, drbgGen := 0, recDone := false, lateAt := none }

/-- Puts a fetched entry into the Docket; answers its number. -/
def addEntry (s : State) (x : Entry) : Nat × State :=
  let id := s.docket.nextId
  (id, { s with docket := { s.docket with nextId := id + 1, entries := tblPut s.docket.entries id x } })

/-- A reserved opcode: the entry completes with INVALID_COMMAND under its own opcode (R5). -/
def rejectOpcode (s : State) (e : Nat) (x : Entry) (op : Nat) : State :=
  let f := x.hdr.fn.toNat
  let s1 := writeCompletion s f x.hdr.sq.toNat x.hdr.cid.toNat op stInvalid 0 x.hdr.imm
  dropEntry (traceWrite (bumpFn s1 f 12 1) f 3 stInvalid.toNat x.hdr.sq.toNat op x.hdr.cid.toNat) e

/-- JOB_BEGIN opens its job at its admission (R355, R356). -/
def admitBase (s : State) (x : Entry) : State :=
  match x.cmd with
  | .jobBegin b => openJob s x.ctx b
  | _ => s

/-- An entry as it is queued, with the next sequence number (R250). -/
def queuedAs (s : State) (x : Entry) (parts : List Part) : Entry :=
  { x with
    state := .queued, seq := (admitBase s x).docket.nextSeq, admitTime := now (admitBase s x)
    inJob := (jobOf (admitBase s x) x.ctx).isSome
    notBefore := match x.cmd with | .present b => taggedFrame s b.notbefore | _ => 0
    deadlineFrame := if x.hdr.cls = 0 then taggedFrame s x.hdr.deadline else 0
    parts := parts, image := [] }

/-- The Docket gives out one sequence number. -/
def takeSeq (s : State) : State := { s with docket := { s.docket with nextSeq := s.docket.nextSeq + 1 } }

/-- An entry passes its checks: it is QUEUED with the next sequence number (R250, R355, R356). -/
def queueEntry (s : State) (e : Nat) (x : Entry) (parts : List Part) : State :=
  let s2 := setEntry (takeSeq (admitBase s x)) e (queuedAs s x parts)
  let s3 := if isEnd x.cmd then noteEnder s2 x.ctx e else s2
  traceWrite s3 x.ctx 1 0 x.hdr.sq.toNat (opcodeOf x.cmd) x.hdr.cid.toNat

/-- Admits or rejects one fetched entry. One whose batch table has not come stays FETCHED until it comes or its limit ends (R133,
R277; DEDUCED, log 54). -/
def admitEntry (s : State) (e : Nat) : State :=
  match entryOf s e with
  | none => s
  | some x =>
    if x.state ≠ .fetched then s
    else
      let raw := parseEntry x.hdr.fn.toNat x.hdr.sq.toNat x.image
      let fromRing := !x.image.isEmpty
      if fromRing && raw.cmd.isNone then rejectOpcode s e x raw.opcode
      else
        match admitCheck s x.hdr x.cmd (fromRing && raw.hdrBad) (fromRing && raw.bodyBad) with
        | .error st => if st = stLowerLate then readLate s e else finish s e st
        | .ok parts => queueEntry s e x parts

/-! ### Readiness (R139, R249) -/

/-- Streams that a request names. -/
def namedStreams (x : Entry) : List Nat :=
  match x.cmd with
  | .streamClose i => [i.toNat]
  | .streamPark b => [b.stream.toNat]
  | .streamUnpark i => [i.toNat]
  | .step _ | .prefill _ | .recChunk _ => x.parts.map Part.stream
  | .kvMap b => if b.mode = 1 then [b.stream.toNat, b.sstream.toNat] else [b.stream.toNat]
  | .kvUnmap b => [b.stream.toNat]
  | _ => []

/-- The presentation queue that a request names. -/
def namedQueue (c : Command) : Option Nat :=
  match c with
  | .step b => if b.pq = 0xFFFF then none else some b.pq.toNat
  | .prefill b => if b.pq = 0xFFFF then none else some b.pq.toNat
  | .present b => some b.pq.toNat
  | _ => none

/-- Requests of the same context admitted earlier that have not retired. -/
def earlier (s : State) (x : Entry) : List (Nat × Entry) :=
  s.docket.entries.filter fun p =>
    p.2.parent.isNone && p.2.hdr.fn == x.hdr.fn && decide (p.2.state ≠ .fetched) && decide (p.2.seq < x.seq)

/-- Some earlier request of a kind names a stream of x. -/
def behind (s : State) (x : Entry) (streams : List Nat) (kind : Nat × Entry → Bool) : Bool :=
  (earlier s x).any fun p => kind p && (namedStreams p.2).any streams.contains

/-- KV_MAP, KV_UNMAP or STREAM_CLOSE. -/
def mapKind (p : Nat × Entry) : Bool :=
  match p.2.cmd with
  | .kvMap _ | .kvUnmap _ | .streamClose _ => true
  | _ => false

/-- STREAM_PARK. -/
def parkKind (p : Nat × Entry) : Bool :=
  match p.2.cmd with
  | .streamPark _ => true
  | _ => false

/-- STEP, PREFILL or REC_CHUNK. -/
def isModel (c : Command) : Bool :=
  match c with
  | .step _ | .prefill _ | .recChunk _ => true
  | _ => false

/-- What a STREAM_CLOSE need not wait for: a dispatched request whose part for the stream waits in GROWTH_WAIT (R209). -/
def closeIgnores (i : Nat) (p : Nat × Entry) : Bool :=
  p.2.dispatched && p.2.parts.any fun q => q.stream == i && q.waiting

/-- A STREAM_PARK may act on its stream now (R221 to R223). -/
def parkDue (s : State) (x : Entry) (b : ParkBody) : Bool :=
  let i := b.stream.toNat
  let t := streamOf s i
  if !openIn s x.ctx i ∨ t.state = .faulted ∨ t.state = .fallow then true
  else if t.state = .growthWait then false
  else
    let mine := (consumers s i).filter fun p => p.2.hdr.fn == x.hdr.fn && decide (p.2.state ≠ .fetched)
    if b.flags.getLsbD 0 then mine.all fun p => !p.2.dispatched else mine.isEmpty

/-- The Library blocks of a LIB command. -/
def libBlocks (s : State) (c : Command) : List Nat :=
  match c with
  | .libWrite b => [blockOf s b.lunit.toNat]
  | .libErase b => (List.range b.nblk.toNat).map fun k => b.first.toNat + k
  | _ => []

/-- A LIB command waits for an earlier one on a common block, or for an erase of its blocks that still runs. -/
def libWaits (s : State) (x : Entry) : Bool :=
  let mine := libBlocks s x.cmd
  ((earlier s x).any fun p => (libBlocks s p.2.cmd).any mine.contains) || s.flash.erases.any fun r => mine.contains r.block

/-- The counter that a PRESENT waits for has met its target, or is POISONED (R254). -/
def presentCounter (s : State) (c : Nat) (b : PresentBody) : Bool :=
  !b.flags.getLsbD 0 || match syncIndex s c b.cidx.toNat with
    | some g => (syncOf s g).poisoned || decide (b.target.toNat ≤ (syncOf s g).value.toNat)
    | none => false

/-- The conditions of R254. -/
def presentDue (s : State) (x : Entry) (b : PresentBody) : Bool :=
  !((earlier s x).any fun p => namedQueue p.2.cmd == some b.pq.toNat) && presentCounter s x.ctx b &&
    (!b.flags.getLsbD 1 || phasePassed s x.notBefore b.notbefore)

/-- The commands of SEC and LDR, and the flash manager's, that a handover holds (R446, R448). -/
def heldByHandover (c : Command) : Bool :=
  match c with
  | .packageLoad _ | .packageUnload _ | .contextCreate _ | .contextDestroy _ | .attest _ | .libWrite _ | .libErase _ => true
  | _ => false

/-- Ordering of an admitted request is met, residency left out (R139, R209, R222, R223, R351). -/
def ordered (s : State) (x : Entry) : Bool :=
  !fenceBlocked s x && !(heldByHandover x.cmd && s.fw.handover.isSome) &&
  (match x.cmd with
   | .syncWait _ => false
   | .streamClose i => !behind s x [i.toNat] fun p => !closeIgnores i.toNat p
   | .streamPark b => parkDue s x b && !behind s x [b.stream.toNat] fun p => !isModel p.2.cmd
   | .streamUnpark i => !behind s x [i.toNat] fun _ => true
   | .step _ | .prefill _ | .recChunk _ => !behind s x (namedStreams x) fun p => !parkKind p
   | .kvMap b => !behind s x (namedStreams x) mapKind && !mapWaits s b
   | .kvUnmap b => !behind s x [b.stream.toNat] mapKind
   | .present b => presentDue s x b
   | .contextCreate b => (match ctxOf s b.ctx.toNat with | some k => !k.destroying | none => true)
   | .fwUpdate _ => !(earlier s x).any fun p => match p.2.cmd with | .fwUpdate _ => true | _ => false
   | .libWrite _ | .libErase _ => !libWaits s x
   | _ => true)

/-- The request may start: QUEUED or READY, its deadline not passed, ordered, and its streams resident (R244, R249). -/
def eligible (s : State) (x : Entry) : Bool :=
  x.parent.isNone && decide (x.state = .queued ∨ x.state = .ready) && !deadlinePassed s x && ordered s x &&
    (!isModel x.cmd || (fallowStreams s x).isEmpty)

/-- Every stream of a running model request has its outcome, its records are written, and none of its operations is left (R249). -/
def recordsDone (s : State) (e : Nat) (x : Entry) : Bool :=
  isModel x.cmd && x.parent.isNone && x.parts.all (fun p => p.outcome.isSome) && (childrenOf s e).isEmpty

/-- What the Docket does with an entry by itself: a QUEUED one whose conditions are met becomes READY, which an operation expanded
from a request is at once, and a running one whose last operation has retired becomes RETIRING (R249). -/
def markReady (s : State) (e : Nat) (x : Entry) : Entry :=
  if x.state = .queued ∧ (x.parent.isSome ∨ eligible s x = true) then { x with state := .ready, readyTime := now s }
  else if x.state = .running ∧ recordsDone s e x = true then { x with state := .retiring }
  else x

/-- Replaces every entry of the Docket by a function of it. -/
def mapEntries (s : State) (f : Nat → Entry → Entry) : State :=
  { s with docket := { s.docket with entries := tblMap s.docket.entries f } }

/-- Entries become READY and RETIRING (R249). -/
def refreshReady (s : State) : State := mapEntries s (markReady s)

/-! ### Starts of operations that need no tile (R246) -/

/-- The marker of a PRESENT is written and it completes (R254); a POISONED counter ends it (R358). -/
def startPresent (s : State) (e : Nat) (x : Entry) (b : PresentBody) : State :=
  let bad := b.flags.getLsbD 0 && match syncIndex s x.ctx b.cidx.toNat with | some g => (syncOf s g).poisoned | none => false
  if bad then finish s e stPoisoned
  else
    let tag := (List.range 4).map fun k => BitVec.ofNat 16 (b.tag.toNat / 65536 ^ k)
    finish (pqWrite s x.ctx b.pq.toNat (recordBytes s 0 stSuccess 0xFF 0 0 tag)) e stSuccess

/-- What a request does at its start on its unit; a model request and a TILE_RUN start with their tiles, and a SYNC_WAIT never
starts. -/
def startUnit (s : State) (e : Nat) (x : Entry) : State :=
  match x.cmd with
  | .nop => finish s e stSuccess
  | .syncSignal b => foldContext (startSyncSignal s e x b) x.ctx
  | .copy b => startCopy s e x b
  | .packageLoad b => startPackageLoad s e x b
  | .packageUnload h => startPackageUnload s e x h
  | .streamOpen b => startStreamOpen s e x b
  | .streamClose i => startStreamClose s e x i.toNat
  | .streamPark b => startPark s e x b
  | .streamUnpark i => startUnpark s e x i.toNat
  | .kvMap b => startKvMap s e x b
  | .kvUnmap b => startKvUnmap s e x b
  | .poolGrow b => startPoolGrow s e x b
  | .poolShrink b => startPoolShrink s e x b
  | .tableLoad b => startTableLoad s e x b
  | .jobBegin _ => finish s e stSuccess
  | .jobEnd f => startJobEnd s e x f
  | .present b => startPresent s e x b
  | .contextCreate b => startContextCreate s e b
  | .contextDestroy c => startContextDestroy s e c.toNat
  | .fwUpdate b => startFwUpdate s e x b
  | .libWrite b => startLibWrite s e x b
  | .libErase b => startLibErase s e x b
  | .attest b => startAttest s e x b
  | .syncWait _ | .tileRun _ | .step _ | .prefill _ | .recChunk _ => s

/-- A SYNC_WAIT or TILE_RUN, which no unit starts. -/
def neverStarts (c : Command) : Bool :=
  match c with
  | .syncWait _ | .tileRun _ => true
  | _ => false

/-- A request starts on its unit: it is RUNNING and dispatched, then its unit acts. -/
def startEntry (s : State) (e : Nat) : State :=
  match entryOf s e with
  | none => s
  | some x0 =>
    if isModel x0.cmd then startModel s e x0
    else if neverStarts x0.cmd then s
    else
      let s1 := noteStart (setEntry s e { x0 with state := .running }) e
      startUnit s1 e ((entryOf s1 e).getD x0)

/-- Requests that start as soon as they may; the others have a row of their own for their start (log 1). -/
def startsAtOnce (c : Command) : Bool :=
  match c with
  | .syncWait _ | .tileRun _ | .streamClose _ | .streamPark _ | .step _ | .prefill _ | .recChunk _ | .present _ => false
  | _ => true

/-- Operations that need no tile and start on a unit (R246). -/
def needsNoTile (c : Command) : Bool := !isModel c && !neverStarts c

/-- Rank of operations that need no tile: RT, OVERDUE, IA, BK (R246). -/
def unitRank (x : Entry) : Nat := if x.hdr.cls = 0 then 0 else if x.overdue then 1 else if x.hdr.cls = 1 then 2 else 3

/-- Another waiting operation that needs no tile goes before e: a better rank, or the same rank and older. -/
def outranked (s : State) (e : Nat) (x : Entry) : Bool :=
  s.docket.entries.any fun p =>
    p.1 != e && needsNoTile p.2.cmd && eligible s p.2 &&
      (decide (unitRank p.2 < unitRank x) || (decide (unitRank p.2 = unitRank x) && decide (p.2.seq < x.seq)))

/-- Starts request e if it needs no tile, may start, and none goes before it. -/
def startFree (s : State) (e : Nat) : State :=
  match entryOf s e with
  | none => s
  | some x => if running s ∧ startsAtOnce x.cmd ∧ eligible s x ∧ !outranked s e x then startEntry s e else s

/-- An entry of the same ring was fetched before e and still waits for its batch table (R250). -/
def fetchedAhead (s : State) (e : Nat) : Bool :=
  match entryOf s e with
  | none => false
  | some x => s.docket.entries.any fun p =>
    decide (p.1 < e) && decide (p.2.state = .fetched) && p.2.lateAt.isSome && p.2.hdr.fn == x.hdr.fn && p.2.hdr.sq == x.hdr.sq

/-- Entries whose admission was held are admitted in the order in which they were fetched, once it is held no longer (R432). -/
def admitFetched (s : State) : State :=
  if admissionHeld s then s
  else ((s.docket.entries.filter fun p => decide (p.2.state = .fetched)).map Prod.fst).foldl
    (fun u e => if fetchedAhead u e then u else startFree (refreshReady (admitEntry u e)) e) s

/-- What the units noticed during a command: a pseudo-channel whose retry failed retires, and Library reads that stayed uncorrectable
count for their channel (R306, R425). -/
def noticed (s : State) : State := countSuspects (retireCondemned s)

/-- What follows the starts of a command: held erases go on, what the units noticed takes effect, READY entries are marked. -/
def wrapUp (s : State) : State := refreshReady (noticed (kickErases s))

/-- What follows every change of the Docket: what the units noticed, held entries are admitted and start, and what follows from
that. -/
def settle (s : State) : State := wrapUp (admitFetched (releaseAuth (noticed s)))

/-- What an event outside the rings has made possible, while the engine runs. -/
def settleLive (s : State) : State := if running s then settle s else noticed s

/-! ### Fetching (R251, R348, R349) -/

/-- Requests that function f holds in the Docket. -/
def heldRequests (s : State) (f : Nat) : Nat := (requestsOf s f).length

/-- Requests of function f whose completion goes to completion ring q. -/
def owedTo (s : State) (f q : Nat) : Nat :=
  ((requestsOf s f).filter fun e => match entryOf s e with
    | some x => (ringOf s f x.hdr.sq.toNat).cq.toNat == q
    | none => false).length

/-- The function fetches within its quota, and 1,024 Docket entries are free (R251). -/
def fetchOpen (s : State) (f : Nat) : Bool :=
  (match ctxOf s f with | some k => decide (heldRequests s f < k.dquota) | none => true) &&
    decide (s.docket.entries.length + 1024 ≤ 16384)

/-- An entry of submission ring q may be fetched. -/
def mayFetch (s : State) (f q : Nat) : Bool :=
  let r := ringOf s f q
  let c := ringOf s f r.cq.toNat
  running s && takesDma s f && r.en && decide (r.kind = 0) && fetchOpen s f &&
    decide (owedTo s f r.cq.toNat + ringFill c < 2 ^ c.log2n.toNat - 1)

/-- A ring command's row: its entry has just been fetched, is admitted and starts if it may (log 1). -/
def submit (s : State) (h : ReqHeader) (cmd : Command) : State :=
  if mayFetch s h.fn.toNat h.sq.toNat then settle (addEntry s (newEntry s h cmd [])).2 else s

/-! ### Operations that need tiles (R245 to R248) -/

/-- The window in force (R240). -/
def currentWindow (s : State) : Window := s.almanac.active.getD s.almanac.cur Window.default

/-- Gang size of the first gang that a model request will run, when some stream takes part. -/
def rootGang (s : State) (x : Entry) : Option Nat :=
  if x.parts.all fun p => (streamVerdict s x p).isSome then none
  else ((requestNodes s x).find? fun q => q.2.kind != 4 && q.2.pred.all fun p => p == 0xFFFF).map fun q => q.2.gang

/-- Tiles that an operation needs; none when it needs no tile. -/
def gangSize (s : State) (x : Entry) : Option Nat :=
  match x.parent with
  | some p => (entryOf s p).bind fun q => (requestPackage s q).map fun k => (graphNode k.graph (x.node % 65536)).gang
  | none =>
    match x.cmd with
    | .tileRun b => some b.gang.toNat
    | .step _ | .prefill _ | .recChunk _ => rootGang s x
    | _ => none

/-- An operation that waits for tiles: its entry number, entry and gang. -/
structure TileOp where
  e : Nat
  x : Entry
  gang : Nat
deriving DecidableEq

/-- Tiles that run programs. -/
def busyTiles (s : State) : List Nat := (s.tiles.filter fun p => p.2.entry.isSome).map Prod.fst

/-- Tiles that the Docket may dispatch to: in service, and no more than power allows (R20, R248). -/
def dispatchable (s : State) : Nat := min s.power.tiles.toNat (tilesInService s)

/-- Tile t is in service and idle. -/
def idleTile (s : State) (t : Nat) : Bool := decide (t < 96) && !s.retired.tiles.contains t && (tileOf s t).entry.isNone

/-- READY operations that need tiles and whose gang the dispatchable tiles can hold (R246). -/
def tileOps (s : State) : List TileOp :=
  s.docket.entries.filterMap fun p =>
    if p.2.dispatched ∨ !(if p.2.parent.isSome then decide (p.2.state = .ready) else eligible s p.2) then none
    else match gangSize s p.2 with
      | some g => if g ≤ dispatchable s then some { e := p.1, x := p.2, gang := g } else none
      | none => none

/-- Lexicographic order of keys. -/
def lexLt : List Nat → List Nat → Bool
  | a :: as, b :: bs => decide (a < b) || (a == b && lexLt as bs)
  | _, _ => false

/-- The operation with the least key. -/
def bestOp (key : TileOp → List Nat) (l : List TileOp) : Option TileOp :=
  l.foldl (fun b o => match b with
    | none => some o
    | some x => if lexLt (key o) (key x) then some o else some x) none

/-- Tiles that RT programs hold. -/
def rtHeld (s : State) : Nat :=
  (s.tiles.filter fun p => match p.2.entry.bind (entryOf s) with
    | some x => x.hdr.cls == 0
    | none => false).length

/-- RT operations that the RTCAP limit does not keep from starting. -/
def rtOps (s : State) : List TileOp :=
  (tileOps s).filter fun o =>
    o.x.hdr.cls == 0 && decide (rtHeld s + o.gang ≤ min (currentWindow s).rtcap (dispatchable s))

/-- Earliest deadline first, then admission order. -/
def rtKey (s : State) (o : TileOp) : List Nat :=
  [(o.x.deadlineFrame - s.time.frameNum + 0x80000000#32).toNat, o.x.hdr.deadline.toNat % 2 ^ 24, o.x.seq, o.e]

/-- OVERDUE operations, oldest first. -/
def overdueOps (s : State) : List TileOp := (tileOps s).filter fun o => o.x.hdr.cls != 0 && o.x.overdue
def ageKey (o : TileOp) : List Nat := [o.x.readyTime, o.x.seq, o.e]

/-- Weight of a class in the window in force. -/
def classWeight (s : State) (cls : BitVec 2) : Nat := if cls = 1 then (currentWindow s).iaw else (currentWindow s).bkw

/-- IA and BK operations that their contexts offer: each context's oldest of a class whose weight is not 0. -/
def shareOps (s : State) : List TileOp :=
  let l := (tileOps s).filter fun o => o.x.hdr.cls != 0 && !o.x.overdue && classWeight s o.x.hdr.cls != 0
  l.filter fun o => l.all fun v => v.x.hdr.cls != o.x.hdr.cls || v.x.hdr.fn != o.x.hdr.fn || !lexLt (ageKey v) (ageKey o)

/-- Key of a context's pass within a class. -/
def passKey (x : Entry) : Nat := 2 * x.ctx + (if x.hdr.cls = 1 then 0 else 1)

/-- Lower class pass, IA on a tie, lower context pass, admission order. -/
def shareKey (s : State) (o : TileOp) : List Nat :=
  [if o.x.hdr.cls = 1 then s.sched.passIA else s.sched.passBK, o.x.hdr.cls.toNat, tblGetD s.sched.ctxPass (passKey o.x) 0, o.x.seq,
    o.e]

/-- The gang fits the idle tiles that may be dispatched now. -/
def fits (s : State) (g : Nat) : Bool :=
  decide (g ≤ ((List.range 96).filter (idleTile s)).length) && decide ((busyTiles s).length + g ≤ dispatchable s)

/-- None of the tile's last 7 starts was an OVERDUE start (R247). -/
def freshTile (s : State) (t : Nat) : Bool := !(tileOf s t).starts.contains true

/-- An OVERDUE gang has a set of idle tiles that R247 permits. -/
def overdueFits (s : State) (g : Nat) : Bool :=
  fits s g && decide (g ≤ ((List.range 96).filter fun t => idleTile s t && freshTile s t).length)

/-- The operations of the winning rank with the rank's number and key (R245). -/
def winningRank (s : State) : Nat × List TileOp × (TileOp → List Nat) :=
  if !(rtOps s).isEmpty then (1, rtOps s, rtKey s)
  else if !(overdueOps s).isEmpty then (2, overdueOps s, ageKey)
  else (3, shareOps s, shareKey s)

/-- Rank of an operation that holds a claim, while it still takes part (R246). -/
def claimRank (s : State) (c : Nat) : Option Nat :=
  if (rtOps s).any fun o => o.e == c then some 1
  else if (overdueOps s).any fun o => o.e == c then some 2
  else if (shareOps s).any fun o => o.e == c then some 3
  else none

/-- A claim of another operation, of a rank from `best` to `rank`, holds operation e back. -/
def claimBlocks (s : State) (e best rank : Nat) : Bool :=
  s.sched.claims.any fun c => c != e && match claimRank s c with
    | some r => decide (best ≤ r) && decide (r ≤ rank)
    | none => false

/-- The OVERDUE start that R247 permits while RT work could start: the oldest OVERDUE gang with a permitted set of idle tiles. An
RT claim does not hold it back. -/
def overdueStart (s : State) : Option TileOp :=
  bestOp ageKey ((overdueOps s).filter fun o => overdueFits s o.gang && !claimBlocks s o.e 2 2)

/-- The operation that starts next, and whether it is an OVERDUE start on permitted tiles only. -/
def nextStart (s : State) : Option (TileOp × Bool) :=
  let w := winningRank s
  let od := if w.1 = 1 then overdueStart s else none
  match od with
  | some o => some (o, true)
  | none =>
    (bestOp w.2.2 (w.2.1.filter fun o => fits s o.gang && !claimBlocks s o.e 1 w.1)).map fun o => (o, false)

/-- The operation that claims tiles: while some tile is idle, the chosen one of the winning rank when none of the rank fits, unless
a claim already stands there (R245, R246). -/
def nextClaim (s : State) : Option TileOp :=
  let w := winningRank s
  if !((List.range 96).any (idleTile s)) || w.2.1.any fun o => fits s o.gang then none
  else match bestOp w.2.2 w.2.1 with
    | some o => if s.sched.claims.contains o.e || claimBlocks s o.e 1 w.1 then none else some o
    | none => none

/-- The passes grow by the winner's share (R245). -/
def chargeShare (s : State) (o : TileOp) : State :=
  if o.x.hdr.cls = 0 ∨ o.x.overdue then s
  else
    let w := classWeight s o.x.hdr.cls
    let cw := match ctxOf s o.x.ctx with | some k => k.weight.toNat | none => 1
    let n := 65536 * o.gang / max 1 w
    { s with sched := { s.sched with
        passIA := if o.x.hdr.cls = 1 then s.sched.passIA + n else s.sched.passIA
        passBK := if o.x.hdr.cls = 1 then s.sched.passBK else s.sched.passBK + n
        ctxPass := tblPut s.sched.ctxPass (passKey o.x)
          (tblGetD s.sched.ctxPass (passKey o.x) 0 + 65536 * o.gang / max 1 cw) } }

/-- Starts an expanded gang. -/
def startChild (s : State) (e : Nat) (x : Entry) (tiles : List Nat) : State :=
  match x.parent.bind (entryOf s) with
  | none => s
  | some q => match requestPackage s q with
    | none => s
    | some p => startGang s e x q p tiles

/-- The first gang that a model request has expanded and that fits the tiles starts on them, as an OVERDUE start if the request is
OVERDUE (R247). -/
def startFirstChild (s : State) (e : Nat) (tiles : List Nat) : State :=
  match (childrenOf s e).find? fun g => match entryOf s g with
    | some y => gangSize s y == some tiles.length
    | none => false with
  | none => s
  | some g => match entryOf s g with
    | some y =>
      let y1 := { y with overdue := match entryOf s e with | some x => x.overdue | none => false }
      startChild (setEntry s g y1) g y1 tiles
    | none => s

/-- Starts a tile operation on a set of tiles. -/
def startTileOp (s : State) (o : TileOp) (tiles : List Nat) : State :=
  let s1 := chargeShare { s with sched := { s.sched with claims := s.sched.claims.filter fun c => c != o.e } } o
  if o.x.parent.isSome then startChild s1 o.e o.x tiles
  else
    match o.x.cmd with
    | .tileRun b =>
      startTiles s1 o.e o.x b.prog.toNat b.len.toNat [b.arg0.toNat, b.arg1.toNat, b.arg2.toNat] tiles
    | _ => startFirstChild (startModel s1 o.e o.x) o.e tiles

/-- Tiles can take a gang: as many, distinct and idle; for an OVERDUE start under R247 none with a recent OVERDUE start. -/
def tilesOk (s : State) (o : TileOp) (permitted : Bool) (tiles : List Nat) : Bool :=
  tiles.length == o.gang && tiles.eraseDups.length == tiles.length && tiles.all (idleTile s) &&
    (!permitted || tiles.all (freshTile s))

/-- DISPATCH: entry e starts if it is the one that the Docket starts next; a tile operation takes the given tiles, or claims when no
tiles are given and none of its rank fits. Otherwise nothing changes. -/
def dispatch (s : State) (e : Nat) (tiles : List Nat) : State :=
  if !running s then s
  else match entryOf s e with
    | none => s
    | some x =>
      match gangSize s x with
      | some _ =>
        if tiles = [] then
          match nextClaim s with
          | some o => if o.e = e then { s with sched := { s.sched with claims := s.sched.claims ++ [e] } } else s
          | none => s
        else
          (match nextStart s with
           | some (o, permitted) => if o.e = e ∧ tilesOk s o permitted tiles then startTileOp s o tiles else s
           | none => s)
      | none =>
        if x.dispatched ∨ tiles ≠ [] ∨ !eligible s x then s
        else if isModel x.cmd then startEntry s e
        else startFree s e

/-! ### Promotion, deadlines, timeouts, retirement -/

/-- OVERDUE_PROMOTE: a READY IA or BK operation has waited past its class's age limit (R247). -/
def overduePromote (s : State) (e : Nat) : State :=
  match entryOf s e with
  | none => s
  | some x =>
    let limit := if x.hdr.cls = 1 then s.sched.ageIA.toNat else s.sched.ageBK.toNat
    if running s ∧ x.state = .ready ∧ !x.dispatched ∧ !x.overdue ∧ (x.hdr.cls = 1 ∨ x.hdr.cls = 2) ∧
        limit * 1000 < now s - x.readyTime then
      bump (setEntry s e { x with overdue := true }) 4 1
    else s

/-- The parts of a request that wait in GROWTH_WAIT end with PAGE_EXHAUSTED; their streams keep what they had (R163). -/
def exhaustWaits (s : State) (e : Nat) : State :=
  match entryOf s e with
  | none => s
  | some x =>
    (List.range x.parts.length).foldl (fun u j =>
      match x.parts[j]? with
      | none => u
      | some p =>
        if p.waiting ∧ p.outcome.isNone then
          let t := streamOf u p.stream
          let u1 := setStream u p.stream { t with
            state := if t.state = .growthWait then .active else t.state, pinnedEntry := none }
          let u2 := modCtx u1 x.ctx fun k => { k with growth := k.growth.filter fun g => g.1 != p.stream }
          settlePart u2 e j stExhausted 0 t.positions.toNat 0 []
        else u) s

/-- Every part of a model request has its outcome. -/
def partsDone (x : Entry) : Bool := isModel x.cmd && !x.parts.isEmpty && x.parts.all fun p => p.outcome.isSome

/-- DEADLINE_MISSED: an RT request that has not been dispatched by its deadline ends with its records and no other effect (R158, R244);
a dispatched one loses the streams that still wait (R163). -/
def deadlineMissed (s : State) (e : Nat) : State :=
  match entryOf s e with
  | none => s
  | some x =>
    if !running s ∨ x.parent.isSome ∨ x.state = .fetched ∨ !deadlinePassed s x then s
    else if x.dispatched then exhaustWaits s e
    else finish (settleAll (abandon s e) e stDeadline) e stDeadline

/-- The status of a request whose parts have all settled: the numerically smallest of its records (R158). -/
def partsStatus (x : Entry) : BitVec 8 :=
  match x.status with
  | some st => st
  | none =>
    let l := x.parts.filterMap Part.outcome
    if l.all fun st => st == stSuccess then stSuccess else l.foldl (fun m st => if st.toNat < m.toNat then st else m) 0xFF

/-- REQUEST_TIMEOUT: a request has not retired by its timeout (R243). The streams that still wait, for a reservation or for their
swap-in, end with PAGE_EXHAUSTED, and the request ends by itself when that settles its last stream (R199, R227). -/
def requestTimeout (s : State) (e : Nat) : State :=
  match entryOf s e with
  | none => s
  | some x =>
    let limit := if x.hdr.timeout = 0 then 1000000 else x.hdr.timeout.toNat
    if !running s ∨ x.parent.isSome ∨ x.state = .fetched ∨ now s < x.admitTime + limit * 1000 then s
    else if isEnd x.cmd then timeoutJobEnd s e x
    else
      let s1 := exhaustWaits s e
      match entryOf s1 e with
      | none => s1
      | some y =>
        if partsDone y then (if y.dispatched then s1 else finish (abandon s1 e) e (partsStatus y))
        else endRequest s1 e stCancelled

/-- REQUEST_RETIRE: the last operation of a request has ended; its records stand and its completion entry is written. -/
def requestRetire (s : State) (e : Nat) : State :=
  match entryOf s e with
  | none => s
  | some x =>
    if !running s ∨ x.parent.isSome ∨ !x.dispatched then s
    else if s.fw.handover.map (fun h => h.entry) = some e then endsHandover s
    else
      match x.status, x.cmd with
      | some st, .jobEnd _ => if (jobOf s x.ctx).isNone then finish s e st else tryJobEnd s e
      | some st, _ => finish (settleAll (abandon s e) e st) e st
      | none, .jobEnd _ =>
        if (jobOf s x.ctx).bind (fun j => j.ender) = some e then tryJobEnd s e else s
      | none, .tileRun _ => if (tilesOf s [e]).isEmpty ∧ x.state = .retiring then finish s e stSuccess else s
      | none, _ =>
        if isModel x.cmd ∧ x.parts.all (fun p => p.outcome.isSome) ∧ (tilesOf s (e :: childrenOf s e)).isEmpty then
          finish (abandon s e) e (partsStatus x)
        else s

/-- Step 1 of the growth sequence for a consumer whose swap-in finds no room, then steps 2 and 3 (R199, R227). -/
def growSwapIn (s : State) (e i : Nat) (x : Entry) : State :=
  let wait (u : State) (event : Bool) : State :=
    let again := match ctxOf u x.ctx with | some k => k.growth.any fun g => g.1 == i | none => true
    if again then u else enterWait u e (x.parts.findIdx fun p => p.stream == i) x.ctx i true event
  match ctxOf s x.ctx with
  | none => s
  | some k =>
    match growthEvict s e x.ctx i (swapQuads k i) with
    | (true, s1) => wait s1 false
    | (false, s1) =>
      match swapInReserve s1 x.ctx i (requestService e x) with
      | (.done, s2) => s2
      | (.lost cause unit, s2) => faultRequest s2 e cause unit
      | (.short, s2) => wait s2 true

/-- SWAP_IN: the Docket brings back a stream in Fallow before a consumer that is otherwise ready; a shortage of state SRAM sends the
consumer into the growth sequence of that tier (R225, R227, R228). -/
def swapInRow (s : State) (e i : Nat) : State :=
  match entryOf s e with
  | none => s
  | some x =>
    if !running s ∨ x.parent.isSome ∨ x.dispatched ∨ !isModel x.cmd ∨ (x.state ≠ .queued ∧ x.state ≠ .ready) ∨ deadlinePassed s x ∨
        !ordered s x ∨ !(fallowStreams s x).contains i then s
    else
      match swapIn s x.ctx i (requestService e x) false with
      | (.done, s1) => endSwapWait s1 x.ctx e i
      | (.lost cause unit, s1) => faultRequest s1 e cause unit
      | (.short, s1) => if x.parts.any (fun p => p.stream == i && p.waiting) then s1 else growSwapIn s1 e i x

/-- LOWER_TIER_ERROR: a lower-tier read of a running request fails; the request ends (R276). -/
def lowerTierError (s : State) (e : Nat) : State :=
  match entryOf s (rootOf s e) with
  | none => s
  | some x => if running s ∧ x.dispatched ∧ x.state = .running then endRequest s (rootOf s e) stLowerError else s

/-- LOWER_TIER_LATE: a lower-tier read of a request has not come by its limit; the request ends then and not before, at its admission
when the read was that of its batch table (R133, R277). -/
def lowerTierLate (s : State) (e : Nat) : State :=
  match entryOf s (rootOf s e) with
  | none => s
  | some x =>
    if !running s ∨ !lateDue s x then s
    else if x.state = .fetched ∧ x.lateAt.isSome then finish s (rootOf s e) stLowerLate
    else if x.dispatched ∧ x.state = .running then endRequest s (rootOf s e) stLowerLate
    else s

end Sys2Proof.Machine
end

