-- ==== Sys2Proof/Machine/Rings.lean ====
section
/-! DEFINITION. Rings, doorbells, ring fetch and moderation (R340 to R349, R363, R534). -/

namespace Sys2Proof.Machine

/-! ### Register accesses -/

/-- The function is there: the PF, or a VF that VF Enable and NumVFs bring up (R335; SR-IOV specification, log 18). -/
def fnExists (s : State) (f : Nat) : Bool :=
  f == 0 || ((fnOf s 0).cfg.vfEnable && decide (f ≤ (fnOf s 0).cfg.numVfs.toNat))

/-- The function's BAR0 answers: the PCIe link is up and the function is there and not in D3hot (R494, R503). -/
def barOpen (s : State) (f : Nat) : Bool := ticking s && s.boot.linkUp && fnExists s f && !(fnOf s f).d3hot

/-- A write to an emulated register: discarded while HBUSY_N is low (R367), withdrawn and counted while the stewards do not serve
(R430, R438), else served at its arrival (R429, log 58). -/
def emuWrite (s : State) (f : Nat) (k : State → State) : State :=
  if !ready s || !barOpen s f then s
  else if !stewardsServe s then bump s 9 1
  else k s

/-- A write that only the PF may make: from a VF the offset is unlisted (R339, R430, R526). -/
def pfWrite (s : State) (f : Nat) (k : State → State) : State :=
  emuWrite s f fun u => if f = 0 then k u else ignored u f

/-! ### Doorbells (R344 to R346) -/

/-- A doorbell write: the new tail of a submission ring, or the consumed index of another ring; a write of another size than 32 bits
is none (R344). -/
def doorbell (s : State) (f r : Nat) (size : AccessSize) (v : BitVec 32) : State :=
  if !ready s || !barOpen s f then s
  else if size ≠ .b32 then ignored s f
  else
    let q := ringOf s f r
    let w := BitVec.ofNat 16 v.toNat
    if 2 ^ 16 ≤ v.toNat ∨ !q.en then ignored s f
    else if q.kind = 0 then
      if q.host - q.own ≤ w - q.own ∧ (w - q.own).toNat ≤ 2 ^ q.log2n.toNat - 1 then setRing s f r { q with host := w }
      else ignored s f
    else if w - q.host ≤ q.own - q.host then
      let s1 := setRing s f r { q with host := w }
      if q.kind = 3 then flushLost s1 f else s1
    else ignored s f

/-! ### RING_FETCH (R348, R349, R534) -/

/-- The bus address of entry i of a ring (R340). -/
def slotAddress (r : Ring) (i : BitVec 16) : Nat := r.base.toNat + i.toNat % 2 ^ r.log2n.toNat * entrySize r.kind

/-- Fetches the entry at the head of submission ring q. A failed or late read loses the entry and answers for it (R534). -/
def fetchEntry (s : State) (f q : Nat) : State :=
  let r := ringOf s f q
  let s1 := setRing s f q { r with own := r.own + 1 }
  let lost (st : BitVec 8) : State := writeCompletion s1 f q 0 0 st r.own.toNat false
  match hostRead s (slotAddress r r.own) 64 with
  | .error => lost stLowerError
  | .late => lost stLowerLate
  | .data bs =>
    let raw := parseEntry f q bs
    (addEntry s1 (newEntry s1 raw.hdr (raw.cmd.getD .nop) bs)).2

/-- Fetches up to n entries while the function may fetch and the ring holds some. -/
def fetchGo (f q : Nat) : Nat → State → State
  | 0, s => s
  | n + 1, s =>
    let r := ringOf s f q
    if mayFetch s f q && r.own != r.host then fetchGo f q n (fetchEntry s f q) else s

/-- Rings of a function that have an entry to fetch, and may. -/
def ringsToServe (s : State) (f : Nat) : List Nat :=
  ((fnOf s f).rings.filter fun p => mayFetch s f p.1 && p.2.own != p.2.host).map Prod.fst

/-- Whose turn comes after `last` in a round robin over rising numbers. -/
def afterTurn (last : Nat) (l : List Nat) : Option Nat := (l.find? fun i => decide (last < i)).orElse fun _ => l.head?

/-- The function and the ring that the next turn belongs to: functions round robin, and each function's rings round robin (R348; one
turn of a ring is a turn of its function, DESIGN CHOICE, log 55). -/
def fetchTurn (s : State) : Option (Nat × Nat) :=
  (afterTurn s.docket.turn.toNat ((s.fns.map Prod.fst).filter fun f => !(ringsToServe s f).isEmpty)).bind fun f =>
    (afterTurn (fnOf s f).turn.toNat (ringsToServe s f)).map fun q => (f, q)

/-- The turn is taken. -/
def takeTurn (s : State) (f q : Nat) : State :=
  let s1 := { s with docket := { s.docket with turn := BitVec.ofNat 8 f } }
  setFn s1 f { fnOf s1 f with turn := BitVec.ofNat 8 q }

/-- One turn of a submission ring: at most 8 entries, then the fetch head is written to its index word; the entries are admitted in
ring order (R250, R343, R348). Out of its turn a ring waits. -/
def ringFetch (s : State) (f q : Nat) : State :=
  if fetchTurn s ≠ some (f, q) then s
  else
    let s1 := fetchGo f q 8 (takeTurn s f q)
    let r := ringOf s1 f q
    settle (hostWrite s1 r.idx.toNat (leBytes 8 r.own.toNat))

/-! ### HIF_RING_CTRL (R341, R342) -/

/-- The ERR code of a COMMIT: 0 when it is accepted. -/
def commitError (s : State) (f i : Nat) : BitVec 4 :=
  let r := ringOf s f i
  let cq := ringOf s f r.cq.toNat
  let events := (fnOf s f).rings.any fun p => p.1 != i && p.2.en && decide (p.2.kind = 3)
  if r.en then 1
  else if r.log2n.toNat < 6 ∨ 16 < r.log2n.toNat then 2
  else if r.kind = 0 ∧ !(cq.en && decide (cq.kind = 1)) then 3
  else if (r.kind = 0 ∨ r.kind = 2) ∧ r.idx = 0 then 4
  else if (if f = 0 then 2048 else 64) ≤ r.vector.toNat then 5
  else if r.kind = 3 ∧ events then 6
  else 0

/-- COMMIT of ring i; a new event ring is space for the count of dropped events (R365). -/
def commitRing (s : State) (f i : Nat) : State :=
  let r := ringOf s f i
  let e := commitError s f i
  if e ≠ 0 then setRing s f i { r with err := e }
  else flushLost (setRing s f i
    { r with own := 0, host := 0, phase := true, unsent := 0, firstUnsent := 0, en := true, busy := false, err := 0 }) f

/-- An enabled submission ring names completion ring i. -/
def namedAsCq (s : State) (f i : Nat) : Bool :=
  (fnOf s f).rings.any fun p => p.2.en && decide (p.2.kind = 0) && decide (p.2.cq.toNat = i)

/-- An admitted request can still write to ring i (R342). -/
def stillWritten (s : State) (f i : Nat) : Bool :=
  if (ringOf s f i).kind = 1 then owedTo s f i != 0
  else (requestsOf s f).any fun e => match entryOf s e with
    | some x => namedQueue x.cmd == some i
    | none => false

/-- A BUSY ring that nothing can write any more is disabled. -/
def endDisable (s : State) (f i : Nat) : State :=
  let r := ringOf s f i
  if r.busy ∧ !stillWritten s f i then setRing s f i { r with en := false, busy := false } else s

/-- DISABLE of ring i, by kind. -/
def disableRing (s : State) (f i : Nat) : State :=
  let r := ringOf s f i
  if !r.en then setRing s f i { r with err := 0 }
  else if r.kind = 0 ∨ r.kind = 3 then setRing s f i { r with en := false, err := 0 }
  else if r.kind = 1 ∧ namedAsCq s f i then setRing s f i { r with err := 7 }
  else endDisable (setRing s f i { r with busy := true, err := 0 }) f i

/-- A write of HIF_RING_CTRL for the selected ring. -/
def ringCtrl (s0 : State) (f : Nat) (v : BitVec 32) : State :=
  let s := countIf (strayBits v 3) s0 f
  let i := (fnOf s f).ringSel.toNat
  if v.getLsbD 0 && v.getLsbD 1 then setRing s f i { ringOf s f i with err := 8 }
  else if v.getLsbD 0 then commitRing s f i
  else if v.getLsbD 1 then disableRing s f i
  else s

/-! ### Moderation (R363) -/

/-- A ring's moderation timer expires: 4 TIME µs after the first entry since its last message. -/
def moderationTimer (s : State) (f i : Nat) : State :=
  let r := ringOf s f i
  if takesDma s f ∧ r.en ∧ r.ien ∧ r.time ≠ 0 ∧ r.unsent ≠ 0 ∧ r.firstUnsent.toNat + 4000 * r.time.toNat ≤ now s then
    sendMsix (setRing s f i { r with unsent := 0 }) f r.vector.toNat
  else s

/-! ### The rows -/

/-- DOORBELL_SUBMISSION (R345). -/
def execDoorbellSubmission (fn : BitVec 8) (ring : BitVec 8) (write : DoorbellWrite) (s : State) :
    Host.Outcome State Fault Refusal := .next (doorbell s fn.toNat ring.toNat write.size write.value)

/-- DOORBELL_CONSUMED (R346). -/
def execDoorbellConsumed (fn : BitVec 8) (ring : BitVec 8) (write : DoorbellWrite) (s : State) :
    Host.Outcome State Fault Refusal := .next (doorbell s fn.toNat ring.toNat write.size write.value)

/-- RING_FETCH (R348, R349, R534). -/
def execRingFetch (fn : BitVec 8) (ring : BitVec 8) (s : State) : Host.Outcome State Fault Refusal :=
  .next (ringFetch s fn.toNat ring.toNat)

/-- RING_COMMIT (R341). -/
def execRingCommit (fn : BitVec 8) (value : BitVec 32) (s : State) : Host.Outcome State Fault Refusal :=
  .next (emuWrite s fn.toNat fun u => ringCtrl u fn.toNat value)

/-- RING_DISABLE (R342). -/
def execRingDisable (fn : BitVec 8) (value : BitVec 32) (s : State) : Host.Outcome State Fault Refusal :=
  .next (emuWrite s fn.toNat fun u => ringCtrl u fn.toNat value)

/-- RING_DISABLE_END (R342). -/
def execRingDisableEnd (fn : BitVec 8) (ring : BitVec 8) (s : State) : Host.Outcome State Fault Refusal :=
  .next (endDisable s fn.toNat ring.toNat)

/-- MODERATION_TIMER (R363). -/
def execModerationTimer (fn : BitVec 8) (ring : BitVec 8) (s : State) : Host.Outcome State Fault Refusal :=
  .next (moderationTimer s fn.toNat ring.toNat)

end Sys2Proof.Machine
end

