-- ==== Sys2Proof/Machine/FnRows.lean ====
section
/-! DEFINITION. Attachment, leases, function resets and power states (R336, R368 to R374, R503), host-window commits (R266) and
DRBG reseeds (R151, R153). -/

namespace Sys2Proof.Machine

/-- A write to a per-context register: ignored without a context, or from step 1 of its destruction (R430, R526). -/
def ctxWrite (s : State) (f : Nat) (k : State → Ctx → State) : State :=
  emuWrite s f fun u =>
    match ctxOf u f with
    | some x => if x.destroying then ignored u f else k u x
    | none => ignored u f

/-! ### Leases and orphaning -/

/-- The clock of the lease and grace timers, which stand still in the last-resort state (R373). -/
def timerNow (s : State) : Nat := if s.lrs.active then s.lrs.dtime.toNat else now s

/-- The lease timer starts at PERIOD (R369, R371). -/
def startLease (s : State) (f : Nat) : State :=
  let x := fnOf s f
  setFn s f { x with leaseEnd := BitVec.ofNat 64 (timerNow s + 1000000 * x.leasePeriod.toNat) }

/-- A write of HIF_LEASE (R369, R530). A hardware register: it answers whatever the stewards do (R367). -/
def leaseWrite (s : State) (f : Nat) (v : BitVec 32) : State :=
  if !barOpen s f then s
  else
    let x := fnOf s f
    let p := v.extractLsb' 0 16
    let inRange := decide (10 ≤ p.toNat) && decide (p.toNat ≤ 60000)
    let renew := v.getLsbD 31
    let live := decide (x.state = .attached)
    let s1 := setFn s f { x with
      leasePeriod := if inRange then p else x.leasePeriod, grace := v.extractLsb' 16 8 }
    let s2 := if renew && live then startLease s1 f else s1
    countIf (!inRange || strayBits v 0x80FFFFFF || (renew && !live)) s2 f

/-- The function is ORPHANED at once: its grace period starts, its requests end and the PF hears of it (R370). During a freeze
the ends wait for Thaw (R473, R475). -/
def orphanNow (s : State) (f : Nat) : State :=
  let x := fnOf s f
  let s1 := setFn s f { x with
    state := .orphaned, graceEnd := BitVec.ofNat 64 (now s + 1000000000 * x.grace.toNat), attachPend := false
    orphanAtThaw := s.dbg.frozen.isSome }
  let s2 := if s.dbg.frozen.isSome then s1 else endAllRequests s1 f stCancelled
  raiseEvent s2 0 0x08 f 0

/-- The grace period ends: the context is destroyed and the function is DETACHED, its rings reset (R368, R371; DEDUCED for the
PF, log 35). -/
def graceEnds (s : State) (f : Nat) : State :=
  let s1 := beginDestruction s f 1
  setFn s1 f { fnOf s1 f with state := .detached, rings := [] }

/-- Lease expiry or DETACH; a GRACE of 0 destroys the context at once, but during a freeze only after Thaw (R370, R371). -/
def orphan (s : State) (f : Nat) : State :=
  let s1 := orphanNow s f
  if (fnOf s f).grace = 0 ∧ s.dbg.frozen.isNone then graceEnds s1 f else s1

/-- LEASE_EXPIRY is due: attached, and the lease has run out; in the last-resort state the timers stand still (R370, R373). -/
def leaseExpiry (s : State) (f : Nat) : State :=
  if (fnOf s f).state = .attached ∧ (fnOf s f).leaseEnd.toNat ≤ now s ∧ !s.lrs.active then orphan s f else s

/-- GRACE_EXPIRY is due; a freeze holds the destruction back until Thaw (R371, R373, R475). -/
def graceExpiry (s : State) (f : Nat) : State :=
  if (fnOf s f).state = .orphaned ∧ (fnOf s f).graceEnd.toNat ≤ now s ∧ !s.lrs.active ∧ s.dbg.frozen.isNone then
    graceEnds s f
  else s

/-! ### HIF_CTRL (R368, R371) -/

/-- The grace period has run out, and the destruction is still to come. -/
def graceOver (s : State) (f : Nat) : Bool :=
  decide ((fnOf s f).state = .orphaned) && decide ((fnOf s f).graceEnd.toNat ≤ timerNow s)

/-- An ATTACH takes effect once no request of the function is in the Docket; grace that has run out destroys the context first, and a
VF without a live context stays as it is (R371, R374). -/
def attachEffect (s : State) (f : Nat) : State :=
  let s0 := graceExpiry s f
  let x := fnOf s0 f
  if !x.attachPend || !(requestsOf s0 f).isEmpty || graceOver s0 f then s0
  else if f ≠ 0 ∧ !contextAlive s0 f then setFn s0 f { x with attachPend := false }
  else startLease (setFn s0 f { x with attachPend := false, rings := [], state := .attached, orphanAtThaw := false }) f

/-- ATTACH: for an ATTACHED function, one with an ATTACH pending, and a VF without a context, it is ignored (R368; log 35). -/
def attachRequest (s : State) (f : Nat) (stray : Bool) : State :=
  let x := fnOf s f
  if x.state = .attached ∨ x.attachPend ∨ (f ≠ 0 ∧ !contextAlive s f) then ignored s f
  else
    let s1 := countIf stray s f
    attachEffect (setFn s1 f { fnOf s1 f with attachPend := true }) f

/-- A write of HIF_CTRL, a hardware register. Both bits set: the write is ignored (R371). A DETACH of a function that is not ATTACHED,
or in the last-resort state, in which no function is orphaned (R373), is ignored (the first: DESIGN CHOICE, log 35). -/
def ctrlWrite (s : State) (f : Nat) (v : BitVec 32) : State :=
  let stray := strayBits v 3
  if !barOpen s f then s
  else if v.getLsbD 0 && v.getLsbD 1 then ignored s f
  else if v.getLsbD 1 then
    if (fnOf s f).state = .attached ∧ !s.lrs.active then orphan (countIf stray s f) f else ignored s f
  else if v.getLsbD 0 then attachRequest s f stray
  else countIf stray s f

/-! ### Function resets (R336, R372, R503) -/

/-- FLR of one function: it is orphaned, its context is destroyed at once with no grace, and its registers and counters return to
their cold values (R372, R501, R532). In the last-resort state nothing is orphaned or destroyed (R373): the configuration space and the
lease register alone return to their reset values. -/
def flrOne (s : State) (f : Nat) : State :=
  if s.lrs.active then
    setFn s f { fnOf s f with d3hot := false, cfg := PcieCfg.reset, msix := [], leasePeriod := 1000, grace := 5 }
  else
    let s1 := if (fnOf s f).state = .attached then orphanNow s f else s
    let s2 := endAllRequests (beginDestruction s1 f 0) f stCancelled
    zeroFnCounters (setFn s2 f Fn.reset) f

/-- Functions that hold any state of their own. -/
def liveFns (s : State) : List Nat := ((s.fns.map Prod.fst) ++ (s.ctxs.map Prod.fst)).eraseDups

/-- Every VF goes, and its context with it: VF Enable is clear (R372). -/
def dropVfs (s : State) : State := ((liveFns s).filter fun g => g != 0).foldl flrOne s

/-- FLR of function f; one of the PF clears VF Enable and so destroys every VF's context as well (R372). The resets are at once (R336):
the PF is reset first, so that nothing is written for it any more. -/
def flr (s : State) (f : Nat) : State :=
  if f = 0 then dropVfs (flrOne s 0) else if fnExists s f then flrOne s f else s

/-! ### Host windows (R266) -/

/-- A write of MMU_HWINn_CTRL: EN and W, and with COMMIT the mapping is replaced at one point and the open epoch closes. -/
def hwinCtrl (s : State) (f n : Nat) (v : BitVec 32) : State :=
  ctxWrite s f fun u x =>
    let w := tblGetD x.hwins n HWin.reset
    if w.busyEpoch.isSome then ignored u f
    else
      let w1 := { w with en := v.getLsbD 0, w := v.getLsbD 1 }
      let u1 := countIf (strayBits v 7) u f
      if v.getLsbD 2 then
        let c := closeEpoch u1 f none Epoch.none_
        let m := if w1.en then some (w1.base, w1.pages.toNat, w1.w) else none
        modCtx c.1 f fun k => { k with hwins := tblPut k.hwins n { w1 with mapped := m, busyEpoch := some c.2 } }
      else modCtx u1 f fun k => { k with hwins := tblPut k.hwins n w1 }

/-! ### DRBG reseeds (R151, R153) -/

/-- OLDGEN: a request dispatched before the last reseed still holds the previous generation (R153). -/
def oldGen (s : State) (c : Nat) : Bool :=
  match ctxOf s c with
  | none => false
  | some k => s.docket.entries.any fun p =>
      decide (p.2.ctx = c) && p.2.dispatched && decide (p.2.drbgGen < k.drbg.gen) &&
        (match p.2.cmd with | .step _ => true | .prefill _ => true | _ => false)

/-- Reseeds the DRBG of context c: SRC false from the true random source, true from the seed words, which are zeroed. -/
def reseed (s : State) (c : Nat) (words : Bool) : State :=
  match ctxOf s c with
  | none => s
  | some k =>
    let d := k.drbg
    let r := if words then (d.words.flatMap fun w => leBytes 4 w.toNat, s) else drawBytes 64 s
    let d1 : Drbg := { seed := r.1, gen := d.gen + 1, pos := 0, prev := some (d.seed, d.gen, d.pos),
                       words := List.replicate 16 0, deferred := none }
    setCtx r.2 c { k with drbg := d1 }

/-- A write of ATT_DRBG_CTRL: with RESEED it reseeds, or while OLDGEN reads 1 it is deferred, the last one counting. -/
def drbgCtrl (s : State) (f : Nat) (v : BitVec 32) : State :=
  ctxWrite s f fun u x =>
    let u1 := countIf (strayBits v 3) u f
    if !v.getLsbD 0 then u1
    else if oldGen u f then
      modCtx u1 f fun k => { k with drbg := { x.drbg with deferred := some (v.getLsbD 1) } }
    else reseed u1 f (v.getLsbD 1)

/-- A deferred reseed takes effect once OLDGEN reads 0. -/
def drbgApply (s : State) (c : Nat) : State :=
  match (ctxOf s c).bind fun k => k.drbg.deferred with
  | some words => if oldGen s c || !contextAlive s c then s else reseed s c words
  | none => s

/-! ### The rows -/

/-- HWIN_COMMIT (R266). -/
def execHwinCommit (fn : BitVec 8) (window : BitVec 4) (value : BitVec 32) (s : State) :
    Host.Outcome State Fault Refusal := .next (hwinCtrl s fn.toNat window.toNat value)

/-- DRBG_RESEED (R151, R153). -/
def execDrbgReseed (fn : BitVec 8) (value : BitVec 32) (s : State) : Host.Outcome State Fault Refusal :=
  .next (drbgCtrl s fn.toNat value)

/-- DRBG_RESEED_APPLY (R153). -/
def execDrbgReseedApply (ctx : BitVec 8) (s : State) : Host.Outcome State Fault Refusal := .next (drbgApply s ctx.toNat)

/-- LEASE_RENEW (R369, R530). -/
def execLeaseRenew (fn : BitVec 8) (value : BitVec 32) (s : State) : Host.Outcome State Fault Refusal :=
  .next (leaseWrite s fn.toNat value)

/-- LEASE_EXPIRY (R370). -/
def execLeaseExpiry (fn : BitVec 8) (s : State) : Host.Outcome State Fault Refusal := .next (settleLive (leaseExpiry s fn.toNat))

/-- GRACE_EXPIRY (R371). -/
def execGraceExpiry (fn : BitVec 8) (s : State) : Host.Outcome State Fault Refusal := .next (settleLive (graceExpiry s fn.toNat))

/-- ATTACH (R371). -/
def execAttach (fn : BitVec 8) (value : BitVec 32) (s : State) : Host.Outcome State Fault Refusal :=
  .next (settleLive (ctrlWrite s fn.toNat value))

/-- ATTACH_EFFECT (R371). -/
def execAttachEffect (fn : BitVec 8) (s : State) : Host.Outcome State Fault Refusal := .next (attachEffect s fn.toNat)

/-- DETACH (R370). -/
def execDetach (fn : BitVec 8) (value : BitVec 32) (s : State) : Host.Outcome State Fault Refusal :=
  .next (settleLive (ctrlWrite s fn.toNat value))

/-- FLR (R372). -/
def execFlr (fn : BitVec 8) (s : State) : Host.Outcome State Fault Refusal := .next (settleLive (flr s fn.toNat))

/-- HOT_RESET: an FLR on every function at once; the link has to train again (R336). -/
def execHotReset (s : State) : Host.Outcome State Fault Refusal :=
  .next (settleLive (flr { s with boot := { s.boot with linkUp := false } } 0))

/-- D3HOT_ENTRY (R503). -/
def execD3hotEntry (fn : BitVec 8) (s : State) : Host.Outcome State Fault Refusal :=
  .next (setFn s fn.toNat { fnOf s fn.toNat with d3hot := true })

/-- D3HOT_TO_D0 acts as an FLR of the function (R503). -/
def execD3hotToD0 (fn : BitVec 8) (s : State) : Host.Outcome State Fault Refusal :=
  .next (if (fnOf s fn.toNat).d3hot then settleLive (flr s fn.toNat) else s)

end Sys2Proof.Machine
end

