-- ==== Sys2Proof/Machine/BootRows.lean ====
section
/-! DEFINITION. Boot, recovery, resets, power capping and thermal limits (R492 to R506, R512, R523), and SEC_AUTH_CTRL. -/

namespace Sys2Proof.Machine

/-! ### Requests that components carry (R427, R434) -/

/-- The component that carries a running request (R427; DEDUCED from what each owns, log 40). -/
def carrier (c : Command) : Option Component :=
  match c with
  | .packageLoad _ | .packageUnload _ | .contextCreate _ | .contextDestroy _ => some .ldr
  | .libWrite _ | .libErase _ => some .flm
  | .attest _ => some .sec
  | .fwUpdate _ => some .sup
  | _ => none

/-- Running requests that components of a list carry. -/
def carried (s : State) (l : List Component) : List Nat :=
  (s.docket.entries.filter fun p => p.2.parent.isNone && p.2.dispatched && (match carrier p.2.cmd with
    | some c => l.contains c
    | none => false)).map Prod.fst

/-- Every component (R427). -/
def allComponents : List Component := [.sup, .tel, .emu, .adm, .ldr, .flm, .sec]

/-- Requests that restarted components were carrying complete with CANCELLED; their jobs continue (R434). During a handover a
component of another core than EMU's is a new one: the handover rolls back, and the old components resume where they were with what they
carry (R446, R447). -/
def dropCarried (s : State) (l : List Component) : State :=
  if s.fw.handover.isSome && l.any (fun c => c != .emu) then rollback s
  else (carried s l).foldl (fun u e => endRequest u e stCancelled) s

/-! ### The boot ROM (R495, R496) -/

/-- A write of a hardware register that only the PF has: from a VF the offset is unlisted (R339, R526). -/
def hwWrite (s : State) (f : Nat) (k : State → State) : State :=
  if !barOpen s f then s else if f = 0 then k s else ignored s f

/-- Why an image does not start: header 2, digest 3, signature 4, SVN 5; 0 when it starts (R495 step 4). The SVN is held against
the highest that the journal records (DEDUCED: of either slot, or ever, log 38). -/
def bootError (s : State) (img : List Byte) : BitVec 4 :=
  if !headerOk img img.length then 2
  else if shake256 ((img.drop 256).take (codeLen img)) 64 ≠ (img.drop 32).take 64 then 3
  else if !imageGenuine s img then 4
  else if imageSvn img < s.flash.maxSvn ∨ imageSvn img < s.fw.slotA.svn ∨ imageSvn img < s.fw.slotB.svn then 5
  else 0

/-- An image starts: slot b, or through recovery. After a cold or warm reset the bring-up follows; in a steward reset the engine is up
already, and the stewards serve again (R438, R497). -/
def startImage (s : State) (img : List Byte) (b recovered fallback : Bool) : State :=
  { s with
    fw := { s.fw with
      version := imageVersion img, svn := imageSvn img, image := img, slot := b, region := false, recovered := recovered }
    boot := { s.boot with stage := if s.boot.released then 5 else 2, slot := b, fallback := fallback } }

/-- The slots that the boot ROM tries: the active one, then the other, of those that are VALID (R443, R495). -/
def bootOrder (s : State) : List Bool :=
  let first := s.fw.slotB.active && !s.fw.slotA.active
  [first, !first].filter fun b => decide ((slotState s b).state = .valid)

/-- A slot cannot be read: no channel of it is in service, or its flash reads fail (R495, R496). -/
def slotUnread (s : State) (b : Bool) : Bool :=
  decide ((slotMaskLive s b) &&& (slotState s b).chmask = 0) || s.env.slotErr.contains b

/-- Tries one slot: its image goes into region A and starts, or the failure is recorded and the slot is INVALID (R495 steps 3 to 5). -/
def trySlot (s : State) (b : Bool) : State :=
  let x := slotState s b
  let e := if slotUnread s b then 6 else bootError s x.image
  let s0 := if slotUnread s b then s else loadRegion s false x.image
  if e = 0 then activate (startImage s0 x.image b false (!x.active)) b
  else
    let s1 := setSlotState s0 b { x with state := .invalid }
    { s1 with boot := { s1.boot with err := e } }

/-- BOOT_ROM: the active slot, then the other; with none started the ROM enters recovery, and no slot is active (R495, R496). -/
def bootRom (s : State) : State :=
  if !ticking s || s.boot.stage != 0 || s.lrs.active then s
  else
    let order := bootOrder s
    let s0 := { s with stewardMem := [], boot := { s.boot with err := if order.isEmpty then 1 else 0 } }
    let s1 := order.foldl (fun u b => if u.boot.stage = 0 then trySlot u b else u) s0
    if s1.boot.stage ≠ 0 then s1
    else { s1 with
      fw := { s1.fw with slotA := { s1.fw.slotA with active := false }, slotB := { s1.fw.slotB with active := false } }
      boot := { s1.boot with stage := 6, slot := false } }

/-- The image that HIF_RECOV_CTRL.GO read starts. In a steward reset the requests that components carried end and retirements are
told now (R438, R460). -/
def recoverWith (s : State) (img : List Byte) : State :=
  let s1 := dropCarried (startImage (loadRegion s false img) img false true s.boot.fallback) allComponents
  if telStopped s1 then s1 else tellRetired s1

/-- HIF_RECOV_CTRL.GO: reads an image from the host, checks it and starts it; a failure leaves the ROM waiting (R496). -/
def recoveryGo (s : State) : State :=
  let err (e : BitVec 4) : State := { s with boot := { s.boot with err := e } }
  if s.boot.stage ≠ 6 then ignored s 0
  else
    match hostRead s s.boot.recovAddr.toNat 256 with
    | .data h =>
      if !headerOk h (256 + codeLen h + 29792) then err 2
      else
        match hostRead s s.boot.recovAddr.toNat (256 + codeLen h + 29792) with
        | .data img =>
          let e := bootError s img
          if e = 0 then recoverWith s img else err e
        | _ => err 7
    | _ => err 7

/-- FIRMWARE_BRINGUP: started firmware trains HBM, of which some channels may fail, and releases HBUSY_N (R328, R497). -/
def firmwareBringup (s : State) : State :=
  if ticking s && s.boot.stage == 2 && !s.lrs.active then bringUp s s.env.trainBad else s

/-! ### Keys (R441, R502) -/

/-- A write of LRS_RESET (R441). -/
def lrsKey (s : State) (key : BitVec 32) : State :=
  if s.lrs.active ∧ key = 0xC01DB007 then coldReset s else ignored s 0

/-- A write of PWR_WARM_RESET (R502). -/
def warmKey (s : State) (key : BitVec 32) : State := if key = 0x5EA50A11 then warmReset s else ignored s 0

/-! ### Power capping (R505, R506, R512) -/

/-- The regulator is asked for a voltage of 0.60 V to 0.90 V in steps of 5 mV, a free value: the spec gives no voltage for a clock
(R512, log 4). The oldest request of the last 1 ms that may still lack its acknowledgement is kept. -/
def askVoltage (s : State) : State :=
  let r := drawNat s
  let since := match r.2.power.avsSince with
    | some t => if now s ≤ t.toNat + 1000000 then t else s.time.dtime
    | none => s.time.dtime
  { r.2 with power := { r.2.power with vdd := 600 + 5 * (r.1 % 61), avsSince := some since } }

/-- One step of the cap's own settings: down while the average is above CAP, clock first and then tiles; up in the reverse order
while it is 5 % or more below (R505). -/
def Power.capStep (p : Power) (watts : Nat) : Power :=
  if p.cap.toNat < watts then
    if 800 < p.capFreq.toNat then { p with capFreq := p.capFreq - 25, floor := false }
    else if 24 < p.capTiles.toNat then { p with capTiles := p.capTiles - 8, floor := false }
    else { p with floor := true }
  else if 100 * watts ≤ 95 * p.cap.toNat then
    if p.capTiles.toNat < 96 then { p with capTiles := p.capTiles + 8, floor := false }
    else if p.capFreq.toNat < 1600 then { p with capFreq := p.capFreq + 25, floor := false }
    else { p with floor := false }
  else { p with floor := false }

/-- The settings in force: the thermal limit's while throttled, else the cap's; the lower of the two (R523, R524). -/
def Power.apply (p : Power) : Power :=
  { p with freq := if p.throttle then 800 else p.capFreq, tiles := if p.throttle then 24 else p.capTiles }

/-- Settings change; a change of the clock goes with a voltage request. -/
def setPower (s : State) (p : Power) : State :=
  let s1 := { s with power := p }
  if p.freq = s.power.freq then s1 else askVoltage s1

/-- POWER_ESTIMATE: the average over the last 10 ms (R505). -/
def powerEstimate (s : State) (watts : BitVec 10) : State :=
  if !ticking s then s else setPower s ({ s.power with watts := watts }.capStep watts.toNat).apply

/-- AVS_ACK_TIMEOUT: a request went 1 ms without acknowledgement (R512). -/
def avsTimeout (s : State) : State :=
  match s.power.avsSince with
  | some t => if t.toNat + 1000000 ≤ now s then losePower s else s
  | none => s

/-! ### Temperature (R523) -/

/-- The temperatures as sampled. -/
def sampled (s : State) (junction stack : BitVec 8) : State :=
  { s with power := { s.power with tj := junction, thbm := stack } }

/-- At 105 °C, or a stack at 95 °C, the engine drops at once to 800 MHz and 24 tiles. -/
def thermalThrottle (s : State) (junction stack : BitVec 8) : State :=
  if !ticking s then s
  else
    let s1 := sampled s junction stack
    if 105 ≤ junction.toNat ∨ 95 ≤ stack.toNat then setPower s1 { s1.power with throttle := true }.apply else s1

/-- Throttling ends below 100 °C with every stack below 90 °C. -/
def throttleExit (s : State) (junction stack : BitVec 8) : State :=
  if !ticking s then s
  else
    let s1 := sampled s junction stack
    if junction.toNat < 100 ∧ stack.toNat < 90 then setPower s1 { s1.power with throttle := false }.apply else s1

/-- At 115 °C, or a stack at 105 °C, THERMTRIP_N is asserted and every clock stops. -/
def thermtrip (s : State) (junction stack : BitVec 8) : State :=
  if ticking s ∧ (115 ≤ junction.toNat ∨ 105 ≤ stack.toNat) then
    let s1 := sampled s junction stack
    { s1 with power := { s1.power with clocksStopped := true }, pins := { s1.pins with thermtrip := true } }
  else s

/-! ### The rows -/

/-- COLD_RESET (R493, R494, R510). -/
def execColdReset (cause : ColdCause) (s : State) : Host.Outcome State Fault Refusal :=
  .next (match cause with
    | .powerUp => powerUp s
    | .perst n => perstLow s n
    | .perstMoves high => perstMoves s high
    | .testEnMoves high => testEnMoves s high)

/-- BOOT_ROM (R495). -/
def execBootRom (s : State) : Host.Outcome State Fault Refusal := .next (bootRom s)

/-- FIRMWARE_BRINGUP (R497). -/
def execFirmwareBringup (s : State) : Host.Outcome State Fault Refusal := .next (firmwareBringup s)

/-- RECOVERY_GO (R496). -/
def execRecoveryGo (fn : BitVec 8) (s : State) : Host.Outcome State Fault Refusal := .next (hwWrite s fn.toNat recoveryGo)

/-- LRS_RESET (R441). -/
def execLrsReset (fn : BitVec 8) (key : BitVec 32) (s : State) : Host.Outcome State Fault Refusal :=
  .next (hwWrite s fn.toNat fun u => lrsKey u key)

/-- PWR_WARM_RESET (R502). -/
def execPwrWarmReset (fn : BitVec 8) (key : BitVec 32) (s : State) : Host.Outcome State Fault Refusal :=
  .next (pfWrite s fn.toNat fun u => warmKey u key)

/-- POWER_LOSS (R422, R492). -/
def execPowerLoss (s : State) : Host.Outcome State Fault Refusal := .next (losePower s)

/-- POWER_ESTIMATE (R505). -/
def execPowerEstimate (watts : BitVec 10) (s : State) : Host.Outcome State Fault Refusal :=
  .next (settleLive (powerEstimate s watts))

/-- AVS_ACK_TIMEOUT (R512). -/
def execAvsAckTimeout (s : State) : Host.Outcome State Fault Refusal := .next (avsTimeout s)

/-- THERMAL_THROTTLE (R523). -/
def execThermalThrottle (junction : BitVec 8) (stack : BitVec 8) (s : State) : Host.Outcome State Fault Refusal :=
  .next (thermalThrottle s junction stack)

/-- THERMAL_THROTTLE_EXIT (R523). -/
def execThermalThrottleExit (junction : BitVec 8) (stack : BitVec 8) (s : State) : Host.Outcome State Fault Refusal :=
  .next (throttleExit s junction stack)

/-- THERMTRIP (R523). -/
def execThermtrip (junction : BitVec 8) (stack : BitVec 8) (s : State) : Host.Outcome State Fault Refusal :=
  .next (thermtrip s junction stack)

/-- SEC_AUTH_LC_TRANSITION (R406). -/
def execSecAuthLcTransition (fn : BitVec 8) (value : BitVec 32) (s : State) : Host.Outcome State Fault Refusal :=
  .next (pfWrite s fn.toNat fun u => authCtrl u value)

/-- SEC_AUTH_TRUST_UPDATE (R380). -/
def execSecAuthTrustUpdate (fn : BitVec 8) (value : BitVec 32) (s : State) : Host.Outcome State Fault Refusal :=
  .next (pfWrite s fn.toNat fun u => authCtrl u value)

/-- PCIE_LINK_UP: the link finishes training (R494). -/
def execPcieLinkUp (s : State) : Host.Outcome State Fault Refusal :=
  .next (if ticking s then { s with boot := { s.boot with linkUp := true } } else s)

end Sys2Proof.Machine
end

