-- ==== Sys2Proof/Machine/FrameTime.lean ====
section
/-! DEFINITION. Frame time: pulses, boundaries and the sync state (R231 to R237), the Almanac (R238 to R240), panic (R255). -/

namespace Sys2Proof.Machine

/-! ### Boundaries (R231, R232, R240) -/

/-- What a window change does: every pass is 0 and a claim lapses (R245, R246). -/
def newWindow (s : State) : State :=
  { s with sched := { s.sched with passIA := 0, passBK := 0, ctxPass := [], claims := [] } }

/-- The Almanac at a boundary: a pending image is installed, and window 0 is in force (R240). -/
def Almanac.atBoundary (a : Almanac) : Almanac :=
  match a.queued with
  | some w => { a with active := w, queued := none, cur := 0, gen := a.gen + 1 }
  | none => { a with cur := 0 }

/-- Boundary records go to the functions that trace them (R467). -/
def traceBoundary (s : State) : State :=
  (s.fns.filter fun p => p.2.traceFrames).foldl (fun u p => traceWrite u p.1 4 0 0 0 0) s

/-- A frame boundary at this tick. `t` gives the tracker's fields after the event; the frame number goes up, the period written to
TIM_FRAME_PERIOD becomes P_f, and P is the measured period while LOCKED, else P_f (R231, R232). -/
def boundary (s : State) (t : Time) : State :=
  let pf := 1000 * s.time.periodReg.toNat
  let t1 := { t with
    frameStart := s.time.dtime, pf := pf, period := if t.locked then t.pm else pf, frameNum := s.time.frameNum + 1
    hold := false }
  traceBoundary (newWindow (markTablesDue { s with time := t1, almanac := s.almanac.atBoundary }))

/-- P_f from the next boundary on: the period that a boundary at this tick takes (R231). -/
def nextPf (s : State) : Nat := 1000 * s.time.periodReg.toNat

/-! ### FSYNC (R233 to R237) -/

/-- Half the Solstice window (R234). -/
def solstice (t : Time) : Nat := t.pm / 16

/-- The pulse lies inside the Solstice window, both ends included (R234). -/
def insideWindow (t : Time) : Bool :=
  decide (t.expected.toNat ≤ t.dtime.toNat + solstice t) && decide (t.dtime.toNat ≤ t.expected.toNat + solstice t)

/-- P_m after a pulse inside the window at the interval i since the boundary's own pulse (R237). -/
def measured (pm i : Nat) : Nat :=
  (min 200000000 (max 1000000 ((pm : Int) + ((i : Int) - pm + 4) / 8))).toNat

/-- The tracker after a pulse that sets a boundary, LOCKED with period pm (R234, R236). -/
def Time.lockAt (t : Time) (pm : Nat) : Time :=
  { t with locked := true, pm := pm, nign := 0, nmiss := 0, lastPulse := some t.dtime, enOff := false
           expected := t.dtime + BitVec.ofNat 64 pm }

/-- A pulse (R236): acquire, accept, ignore or relock. -/
def pulse (s : State) : State :=
  let t := s.time
  if !t.locked then
    let s1 := boundary s (t.lockAt (nextPf s))
    raiseAll s1 0x02 0 s1.time.frameNum.toNat
  else if t.nign = 4 then
    let i := now s - t.lastIgnored.toNat
    let s1 := boundary s (t.lockAt (if 1000000 ≤ i ∧ i ≤ 200000000 then i else nextPf s))
    raiseAll s1 0x03 0 s1.time.frameNum.toNat
  else if insideWindow t then
    boundary s (t.lockAt (match t.lastPulse with | some p => measured t.pm (now s - p.toNat) | none => t.pm))
  else bump { s with time := { t with nign := t.nign + 1, lastIgnored := t.dtime } } 1 1

/-- A rising edge of FSYNC after which the pin stays high for `high` ticks; below 3 it is no pulse, and with EN = 0 no pulse is
looked for (R233). -/
def fsyncEdge (s : State) (high : Nat) : State :=
  if ticking s && s.time.en && decide (3 ≤ high) then settleLive (pulse s) else s

/-- The tracker after a boundary that leaves it FREE: NIGN and NMISS keep their values (R236). -/
def Time.goFree (t : Time) : Time := { t with locked := false, lastPulse := none, enOff := false }

/-- A boundary that no pulse sets: the period of FREE ends, or the boundary at which a write of EN = 0 makes the engine FREE
(R236). -/
def freeBoundary (s : State) : State :=
  let t := s.time
  if !ticking s then s
  else if !t.locked then
    if t.frameStart.toNat + t.period ≤ now s then settleLive (boundary s { t with lastPulse := none }) else s
  else if t.enOff ∧ t.offAt.toNat ≤ now s then settleLive (boundary s t.goFree)
  else s

/-- The late edge: at or after E + W with no pulse accepted (R234, R236). -/
def lateEdge (s : State) : State :=
  let t := s.time
  if !ticking s || !t.locked || t.enOff || decide (now s < t.expected.toNat + solstice t) then s
  else if t.nmiss < 3 then
    settleLive (boundary (bump s 2 1)
      { t with nmiss := t.nmiss + 1, lastPulse := none, expected := t.expected + BitVec.ofNat 64 t.pm })
  else
    let s1 := boundary s t.goFree
    settleLive (raiseAll s1 0x04 0 s1.time.frameNum.toNat)

/-- While LOCKED the phase reaches 16,777,215 and holds (R235). -/
def phaseHold (s : State) : State :=
  if ticking s && s.time.locked && decide (phaseOf s = 16777215) then { s with time := { s.time with hold := true } } else s

/-- A write of TIM_FSYNC_CTRL. EN 0 while LOCKED: a boundary follows at E, or at the first tick after the write once E has
passed, and the engine is FREE from it (R236; EN written 1 before that boundary takes the disable back, log 36). -/
def fsyncCtrl (s : State) (v : BitVec 32) : State :=
  let t := s.time
  let u := countIf (strayBits v 1) s 0
  if v.getLsbD 0 then { u with time := { t with en := true, enOff := false } }
  else if t.locked ∧ !t.enOff then
    { u with time := { t with
        en := false, enOff := true, offAt := BitVec.ofNat 64 (max t.expected.toNat (now s + 1)) } }
  else { u with time := { t with en := false } }

/-! ### The Almanac (R238 to R240) -/

/-- The window whose phases take in phase p: the last one whose START is not above it. -/
def windowAt (ws : List Window) (p : Nat) : Nat := (ws.filter fun w => decide (w.start.toNat ≤ p)).length - 1

/-- The phase reaches a window's START: its shares take force (R240). -/
def almanacWindow (s : State) : State :=
  let w := windowAt s.almanac.active (phaseOf s)
  if w = s.almanac.cur then s else newWindow { s with almanac := { s.almanac with cur := w } }

/-- Entry w of an image. -/
def imageWindow (img : List Byte) (w : Nat) : Window :=
  { start := BitVec.ofNat 24 (fieldAt img (64 + 16 * w) 3), rtcap := fieldAt img (68 + 16 * w) 1
    iaw := fieldAt img (69 + 16 * w) 1, bkw := fieldAt img (70 + 16 * w) 1 }

/-- The windows of an image. -/
def imageWindows (img : List Byte) : List Window := (List.range (fieldAt img 0 1)).map (imageWindow img)

/-- The STARTs strictly ascend. -/
def ascending : List Window → Bool
  | [] => true
  | [_] => true
  | a :: b :: r => decide (a.start < b.start) && ascending (b :: r)

/-- Byte o of an image is reserved. -/
def imageReserved (o : Nat) : Bool :=
  if o < 64 then decide (o ≠ 0) else decide ((o - 64) % 16 = 3) || decide (7 ≤ (o - 64) % 16)

/-- The ERR code of an image as it was read, empty when the read failed: the lowest that applies (R239). -/
def imageError (img : List Byte) : BitVec 4 :=
  let n := fieldAt img 0 1
  let ws := imageWindows img
  if img.isEmpty then 1
  else if n = 0 ∨ 64 < n then 2
  else if (imageWindow img 0).start ≠ 0 then 3
  else if !ascending ws then 4
  else if ws.any fun w => decide (96 < w.rtcap) then 5
  else if (List.range img.length).any fun o => imageReserved o && decide (img.getD o 0 ≠ 0) then 6
  else 0

/-- A read of an image that fails gives no byte; a translation that failed is recorded (R239, R273). -/
def imageRead (r : Got × State) : List Byte × State :=
  match r with
  | (.ok bs, s) => (bs, s)
  | (.err (.trans k va w), s) => ([], recordTrans s 0 k va w 1 0)
  | (.err _, s) => ([], s)

/-- Reads an image through context 0's translation: the header, then the entries that NWIN gives (R238, R239). -/
def readImage (s : State) : List Byte × State :=
  let a := s.almanac.base.toNat
  let h := imageRead (readVA s 0 a 64 3 .engine)
  let n := fieldAt h.1 0 1
  if h.1.isEmpty ∨ n = 0 ∨ 64 < n then h
  else
    let r := imageRead (readVA h.2 0 (a + 64) (16 * n) 3 .engine)
    (if r.1.isEmpty then [] else h.1 ++ r.1, r.2)

/-- A write of SCH_ALMANAC_CTRL: COMMIT reads the image, unless BUSY (R239). -/
def almanacCtrl (s : State) (v : BitVec 32) : State :=
  if v.getLsbD 0 then
    match s.almanac.checking with
    | some _ => ignored s 0
    | none =>
      let r := readImage (countIf (strayBits v 1) s 0)
      noticed { r.2 with almanac := { r.2.almanac with checking := some r.1 } }
  else countIf (strayBits v 1) s 0

/-- The check ends: ERR is set, and an accepted image becomes pending in place of any other (R239). -/
def almanacCheckEnd (s : State) : State :=
  match s.almanac.checking with
  | none => s
  | some img =>
    let e := imageError img
    { s with almanac := { s.almanac with
        checking := none, err := e, queued := if e = 0 then some (imageWindows img) else s.almanac.queued } }

/-! ### Panic (R255) -/

/-- Some RT request that names a presentation queue runs in its deadline frame at a phase of D - LEAD or more. -/
def panicCause (s : State) : Bool :=
  s.docket.entries.any fun p =>
    p.2.parent.isNone && decide (p.2.hdr.cls = 0) && decide (p.2.state = .running) && (namedQueue p.2.cmd).isSome &&
      decide (p.2.deadlineFrame = s.time.frameNum) &&
      decide (p.2.hdr.deadline.toNat % 2 ^ 24 ≤ phaseOf s + s.sched.panicLead.toNat)

/-- Panic is raised and counted. A freeze of the Docket does not hold the real-time port back (R255, R470). -/
def panicRaise (s : State) : State :=
  if s.sched.panicEn && !s.sched.panic && panicCause s then
    bump { s with sched := { s.sched with panic := true } } 3 1
  else s

/-- Panic is released once no such request remains, or EN is 0. -/
def panicRelease (s : State) : State :=
  if s.sched.panicEn && panicCause s then s else { s with sched := { s.sched with panic := false } }

/-! ### The rows -/

/-- FSYNC_PULSE (R236). -/
def execFsyncPulse (high : Nat) (s : State) : Host.Outcome State Fault Refusal := .next (fsyncEdge s high)

/-- FRAME_BOUNDARY_FREE (R236). -/
def execFrameBoundaryFree (s : State) : Host.Outcome State Fault Refusal := .next (freeBoundary s)

/-- LATE_EDGE (R234). -/
def execLateEdge (s : State) : Host.Outcome State Fault Refusal := .next (lateEdge s)

/-- FRAME_PHASE_HOLD (R235). -/
def execFramePhaseHold (s : State) : Host.Outcome State Fault Refusal := .next (phaseHold s)

/-- ALMANAC_WINDOW (R240). -/
def execAlmanacWindow (s : State) : Host.Outcome State Fault Refusal := .next (almanacWindow s)

/-- PANIC_RAISE (R255). -/
def execPanicRaise (s : State) : Host.Outcome State Fault Refusal := .next (panicRaise s)

/-- PANIC_RELEASE (R255). -/
def execPanicRelease (s : State) : Host.Outcome State Fault Refusal := .next (panicRelease s)

/-- FSYNC_DISABLE: TIM_FSYNC_CTRL written with EN = 0 (R236). -/
def execFsyncDisable (fn : BitVec 8) (s : State) : Host.Outcome State Fault Refusal :=
  .next (pfWrite s fn.toNat fun u => fsyncCtrl u 0)

/-- ALMANAC_COMMIT: SCH_ALMANAC_CTRL written with COMMIT = 1 (R239). -/
def execAlmanacCommit (fn : BitVec 8) (s : State) : Host.Outcome State Fault Refusal :=
  .next (pfWrite s fn.toNat fun u => almanacCtrl u 1)

/-- ALMANAC_CHECK_END (R239). -/
def execAlmanacCheckEnd (s : State) : Host.Outcome State Fault Refusal := .next (almanacCheckEnd s)

end Sys2Proof.Machine
end

