-- ==== Sys2Proof/Machine/HbmRows.lean ====
section
/-! DEFINITION. The HBM controller's events: retraining, error recovery, refresh, timers (R305, R306, R311, R318 to R334). -/

namespace Sys2Proof.Machine

/-! ### Retraining (R329, R330) -/

/-- Transient events of a channel in the current window (DEDUCED: those of both its pseudo-channels, log 39). -/
def channelTransients (s : State) (c : Nat) : Nat :=
  (inWindow (now s) s.hbm.transWindow (pcOf s (2 * c)).transient).length +
    (inWindow (now s) s.hbm.transWindow (pcOf s (2 * c + 1)).transient).length

/-- How far a stack's temperature lies from the one at the training; 0 where either was never read. -/
def tempMoved : Option (BitVec 8) → Option (BitVec 8) → Nat
  | some t, some t0 => max t.toNat t0.toNat - min t.toNat t0.toNat
  | _, _ => 0

/-- A trigger of R329 holds: the period, the temperature since the training, or half the transient limit, rounded up. -/
def retrainTrigger (s : State) (c : Nat) : Bool :=
  let x := chanOf s c
  let moved := tempMoved (s.hbm.temps[c / 16]?).join x.trainedTemp
  (decide (s.hbm.retrainPeriod ≠ 0) && decide (x.trainedAt.toNat + 1000000000 * s.hbm.retrainPeriod.toNat ≤ now s)) ||
  (decide (s.hbm.retrainDelta ≠ 0) && decide (s.hbm.retrainDelta.toNat ≤ moved)) ||
  decide ((s.hbm.transLimit.toNat + 1) / 2 ≤ channelTransients s c)

/-- Channel c becomes due. -/
def makeDue (s : State) (c : Nat) : State := setChan s c { chanOf s c with due := true }

/-- Both pseudo-channels of the channel are in service. -/
def channelLive (s : State) (c : Nat) : Bool :=
  !s.retired.pcs.contains (2 * c) && !s.retired.pcs.contains (2 * c + 1)

/-- The channel whose retraining may start: the lowest that is due and in service, with no panic and no other retraining. -/
def nextRetrain (s : State) : Option Nat :=
  if s.sched.panic || s.hbm.retraining.isSome then none
  else (List.range 64).find? fun c => (chanOf s c).due && channelLive s c

/-- Issues every queued request of a pseudo-channel; what waits in the sources stays there (R330). -/
def drainPc (p : Nat) : Nat → State → State
  | 0, s => s
  | n + 1, s => if (pcOf s p).reads.isEmpty && (pcOf s p).writes.isEmpty then s else drainPc p n (issueOne s p)

/-- Requests of a pseudo-channel's queues. -/
def queuedBursts (s : State) (p : Nat) : Nat := burstsOf (pcOf s p).reads + burstsOf (pcOf s p).writes

/-- Bank b of a pseudo-channel is refreshed: its row is closed, H stays (R319). -/
def Pc.refreshed (x : Pc) (b : Nat) : Pc :=
  let k := bankOf x b
  x.setBank b { k with row := none, left := false, refreshes := k.refreshes + 1 }

/-- REFab: every bank of the pseudo-channel is refreshed (R325). -/
def refreshAll (s : State) (p : Nat) : State :=
  if s.retired.pcs.contains p then s else setPc s p ((List.range (16 * nsid s)).foldl Pc.refreshed (pcOf s p))

/-- RETRAIN_START: no further request is admitted, the queues are served and drained, REFab is issued, and the channel trains (R330 steps
1 to 4). -/
def retrainStart (s : State) (c : Nat) : State :=
  if nextRetrain s = some c then
    let s0 := { s with hbm := { s.hbm with retraining := some (BitVec.ofNat 6 c), retrainChan := BitVec.ofNat 6 c } }
    let s1 := drainPc (2 * c) (queuedBursts s0 (2 * c)) s0
    let s2 := drainPc (2 * c + 1) (queuedBursts s1 (2 * c + 1)) s1
    refreshAll (refreshAll s2 (2 * c)) (2 * c + 1)
  else s

/-- Every bank of a pseudo-channel is precharged; `reset`: H goes back to 0b0011 (R319, R326, R330). -/
def prechargePc (s : State) (p : Nat) (reset : Bool) : State :=
  let x := pcOf s p
  setPc s p { x with banks := tblMap x.banks fun _ b =>
    { b with row := none, left := false, history := if reset then 3 else b.history } }

/-- A threshold reached while the channel retrained retires the pseudo-channel when the retraining ends (R334). -/
def lateThreshold (s : State) (p : Nat) : State := if (pcOf s p).late then retirePc s p 1 else s

/-- RETRAIN_END: REFab is issued again, H is reset and requests are admitted again, those that wait in the sources first; a training
step that failed retires the channel (R330 steps 5 and 6, R334). -/
def retrainEnd (s : State) (trained : Bool) : State :=
  match s.hbm.retraining with
  | none => s
  | some c =>
    let n := c.toNat
    let s1 := { s with hbm := { s.hbm with retraining := none, retrainCount := s.hbm.retrainCount + 1 } }
    if !trained then retireChannel s1 n 5
    else
      let s2 := refreshAll (refreshAll s1 (2 * n)) (2 * n + 1)
      let s3 := markTrained (prechargePc (prechargePc s2 (2 * n) true) (2 * n + 1) true) n
      let s4 := lateThreshold (lateThreshold s3 (2 * n)) (2 * n + 1)
      admitStalled (admitStalled s4 (2 * n)) (2 * n + 1)

/-- A write of HBM_RETRAIN_CTRL: PERIOD, TDELTA, and NOW for channel CHAN (R329). -/
def retrainCtrl (s : State) (v : BitVec 32) : State :=
  let s1 := { s with hbm := { s.hbm with retrainPeriod := v.extractLsb' 0 16, retrainDelta := v.extractLsb' 16 8 } }
  let s2 := countIf (strayBits v 0x7FFFFFFF) s1 0
  if v.getLsbD 24 then makeDue s2 (v.extractLsb' 25 6).toNat else s2

/-! ### Error recovery (R306, R326, R327, R334) -/

/-- A retry that failed: while the channel retrains it is a training failure, which ends the retraining (R334). -/
def retryFailed (s : State) (p : Nat) (both : Bool) (cause : BitVec 4) : State :=
  if pcHeld s p then retrainEnd s false
  else if both then retireChannel s (p / 2) cause
  else retirePc s p cause

/-- What a replayed command does to its bank: rows are reopened as needed (R326). -/
def replayed (x : Pc) (time : Word64) : HbmCmd → Pc
  | .precharge b => x.setBank b { bankOf x b with row := none, left := false }
  | .activate b r => x.setBank b { bankOf x b with row := some r, idleFrom := time }
  | .read b r _ => x.setBank b { bankOf x b with row := some r, idleFrom := time }
  | .write b r _ _ => x.setBank b { bankOf x b with row := some r, idleFrom := time }

/-- A replay issues commands again in their order. A write carries its original bytes, which the model's memory holds since the write
was acknowledged (R317, R326). -/
def replayRows (s : State) (l : List Issued) : State :=
  l.foldl (fun u q => setPc u q.pc (replayed (pcOf u q.pc) u.time.dtime q.cmd)) s

/-- AERR: every bank of the channel is precharged, the last `window` commands of the retry buffer are replayed, and each
pseudo-channel that had one of them takes a transient event; an AERR during the replay is a failed retry (R326). -/
def aerr (s : State) (c window : Nat) (again : Bool) : State :=
  let live := [2 * c, 2 * c + 1].filter fun p => !s.retired.pcs.contains p
  if live.isEmpty then s
  else if again || pcHeld s (2 * c) then retryFailed s (2 * c) true 3
  else
    let buf := (chanOf s c).retry.filter fun q => live.contains q.pc
    let l := buf.drop (buf.length - window)
    let s1 := replayRows (live.foldl (fun u p => prechargePc u p false) s) l
    live.foldl (fun u p => if l.any fun q => q.pc == p then transientPc u p else u) s1

/-- A data parity error whose repeat is clean, or fails too (R327). -/
def parityError (s : State) (p : Nat) (again : Bool) : State :=
  if s.retired.pcs.contains p then s
  else if again then retryFailed s p false 4
  else transientPc s p

/-- An uncorrectable burst is read once more (R306). Addresses beyond the stacks hold no burst. -/
def uncorrectableBurst (s : State) (addr : BitVec 38) (again : Bool) : State :=
  let q := addr.toNat / 65536
  if q < hbmQuads s ∧ !s.retired.pcs.contains (quadPc q) then burstFault s (quadPc q) again else s

/-- A codeword of 34 bytes is decoded; a correction counts in HBM_CORR (R305). -/
def symbolCorrection (s : State) (burst : List Byte) : State :=
  match symbolDecode burst with
  | .corrected _ => if burst.length = 34 then bump s 5 1 else s
  | _ => s

/-! ### Refresh, timers, ageing (R311, R318, R319, R321, R324) -/

/-- The stack of a pseudo-channel was above 85 °C when it was last read (R325). -/
def stackHot (s : State) (p : Nat) : Bool :=
  match (s.hbm.temps[p / 32]?).join with
  | some t => decide (85 < t.toNat)
  | none => false

/-- The ns to the next turn of the refresh rotation: half as many above 85 °C (R325). -/
def refreshPeriod (s : State) (p : Nat) : Nat := if stackHot s p then Config.refreshInterval / 2 else Config.refreshInterval

/-- The turn of the rotation passes to the next bank (R324). -/
def nextTurn (s : State) (p : Nat) (x : Pc) : Pc :=
  { x with refNext := (x.refNext + 1) % (16 * nsid s), refDue := x.refDue + BitVec.ofNat 64 (refreshPeriod s p) }

/-- The bank's refresh may be postponed now: under panic, or while RT requests that hit its row wait (R324). -/
def postpones (s : State) (x : Pc) (b : Nat) : Bool :=
  s.sched.panic || (x.reads ++ x.writes).any fun r => r.cls == 0 && r.bank == b && (bankOf x b).row == some r.row

/-- The turn of bank b falls due (R324): a refresh that was pulled in stands for it; it is postponed where that is allowed and the
limit is not reached; else it is issued, ahead of every request of the bank. -/
def dueRefresh (s : State) (p b : Nat) : State :=
  let x := nextTurn s p (pcOf s p)
  let k := bankOf x b
  setPc s p (
    if 0 < k.ahead then x.setBank b { k with ahead := k.ahead - 1 }
    else if postpones s x b && decide (k.owed < Config.refreshLimit) then x.setBank b { k with owed := k.owed + 1 }
    else x.refreshed b)

/-- A refresh of bank b out of its turn: one that was postponed, once nothing postpones it, or while the bank is idle one that is pulled
in (R324). -/
def earlyRefresh (s : State) (p b : Nat) : State :=
  let x := pcOf s p
  let k := bankOf x b
  if 0 < k.owed then
    if postpones s x b then s else setPc s p ((x.setBank b { k with owed := k.owed - 1 }).refreshed b)
  else if (x.reads ++ x.writes).any (fun r => r.bank == b) || decide (Config.refreshLimit ≤ k.ahead) then s
  else setPc s p ((x.setBank b { k with ahead := k.ahead + 1 }).refreshed b)

/-- REFRESH of a bank (R324). While the channel retrains the REFab commands cover a turn that falls due (R334). -/
def refreshBank (s : State) (p b : Nat) : State :=
  let x := pcOf s p
  if s.retired.pcs.contains p || decide (16 * nsid s ≤ b) then s
  else if b = x.refNext ∧ x.refDue.toNat ≤ now s then
    (if pcHeld s p then setPc s p (nextTurn s p x) else dueRefresh s p b)
  else if pcHeld s p then s
  else earlyRefresh s p b

/-- The temperature of a stack is read; the highest one shows in PWR_TEMP (R311). The first readout is the reference of the channels
that were trained before it (DEDUCED, log 39). -/
def readTemp (s : State) (stack : Nat) (celsius : BitVec 8) : State :=
  let temps := s.hbm.temps.set stack (some celsius)
  let top : BitVec 8 := temps.foldl (fun a b => match b with | some t => if a < t then t else a | none => a) 0
  let s1 := { s with hbm := { s.hbm with temps := temps }, power := { s.power with thbm := top } }
  (List.range 16).foldl (fun u i =>
    let c := 16 * stack + i
    match (chanOf u c).trainedTemp with
    | none => setChan u c { chanOf u c with trainedTemp := some celsius }
    | some _ => u) s1

/-- The idle timer of a bank expires with no request to it: the row is precharged and H shifts (R319). -/
def idleTimer (s : State) (p b : Nat) : State :=
  let x := pcOf s p
  let k := bankOf x b
  if k.row.isSome && decide (k.idleFrom.toNat + s.hbm.idle.toNat ≤ now s) && !((x.reads ++ x.writes).any fun r => r.bank == b) then
    setPc s p (x.setBank b { k with row := none, left := false, history := k.history <<< 1 })
  else s

/-- A request has waited longer than the age limit (R321). Indices count the read queue, then the write queue. -/
def ageRequest (s : State) (p i : Nat) : State :=
  let x := pcOf s p
  let old (r : HbmReq) : HbmReq := if r.issued.toNat + s.hbm.ageLimit.toNat < now s then { r with aged := true } else r
  setPc s p { x with
    reads := x.reads.mapIdx fun k r => if k = i then old r else r
    writes := x.writes.mapIdx fun k r => if k + x.reads.length = i then old r else r }

/-- The write queue starts draining: 48 bursts, or no read waiting (R318). -/
def writeDrain (s : State) (p : Nat) : State := if (pcOf s p).writes.isEmpty then s else setPc s p (pcOf s p).settled

/-! ### The rows -/

/-- An HBM event happens while the stacks are trained: from bring-up on, with the clocks running and outside the last-resort state (R440, R497). -/
def hbmRow (s : State) (k : State → State) : Host.Outcome State Fault Refusal :=
  .next (if ticking s && s.boot.released && !s.lrs.active then settleLive (k s) else s)

/-- HBM_RETRAIN_NOW (R329). -/
def execHbmRetrainNow (fn : BitVec 8) (value : BitVec 32) (s : State) : Host.Outcome State Fault Refusal :=
  .next (pfWrite s fn.toNat fun u => retrainCtrl u value)

/-- RETRAIN_DUE (R329). -/
def execRetrainDue (channel : BitVec 6) (s : State) : Host.Outcome State Fault Refusal :=
  hbmRow s fun u => if retrainTrigger u channel.toNat then makeDue u channel.toNat else u

/-- RETRAIN_START (R330). -/
def execRetrainStart (channel : BitVec 6) (s : State) : Host.Outcome State Fault Refusal :=
  hbmRow s fun u => retrainStart u channel.toNat

/-- RETRAIN_END (R330). -/
def execRetrainEnd (trained : Bool) (s : State) : Host.Outcome State Fault Refusal := hbmRow s fun u => retrainEnd u trained

/-- AERR (R326). -/
def execAerr (channel : BitVec 6) (window : Nat) (again : Bool) (s : State) : Host.Outcome State Fault Refusal :=
  hbmRow s fun u => aerr u channel.toNat window again

/-- DERR (R327). -/
def execDerr (pc : BitVec 7) (again : Bool) (s : State) : Host.Outcome State Fault Refusal :=
  hbmRow s fun u => parityError u pc.toNat again

/-- READ_PARITY_ERROR (R327). -/
def execReadParityError (pc : BitVec 7) (again : Bool) (s : State) : Host.Outcome State Fault Refusal :=
  hbmRow s fun u => parityError u pc.toNat again

/-- UNCORRECTABLE_BURST (R306). -/
def execUncorrectableBurst (addr : BitVec 38) (again : Bool) (s : State) : Host.Outcome State Fault Refusal :=
  hbmRow s fun u => uncorrectableBurst u addr again

/-- SYMBOL_CORRECTION (R305). -/
def execSymbolCorrection (burst : List Byte) (s : State) : Host.Outcome State Fault Refusal :=
  hbmRow s fun u => symbolCorrection u burst

/-- REFRESH (R324). -/
def execRefresh (pc : BitVec 7) (bank : BitVec 6) (s : State) : Host.Outcome State Fault Refusal :=
  hbmRow s fun u => refreshBank u pc.toNat bank.toNat

/-- HBM_TEMP_READ (R311). -/
def execHbmTempRead (stack : BitVec 2) (celsius : BitVec 8) (s : State) : Host.Outcome State Fault Refusal :=
  hbmRow s fun u => readTemp u stack.toNat celsius

/-- PAGE_IDLE_TIMER (R319). -/
def execPageIdleTimer (pc : BitVec 7) (bank : BitVec 6) (s : State) : Host.Outcome State Fault Refusal :=
  hbmRow s fun u => idleTimer u pc.toNat bank.toNat

/-- REQUEST_AGED (R321). -/
def execRequestAged (pc : BitVec 7) (index : Nat) (s : State) : Host.Outcome State Fault Refusal :=
  hbmRow s fun u => ageRequest u pc.toNat index

/-- WRITE_QUEUE_DRAIN (R318). -/
def execWriteQueueDrain (pc : BitVec 7) (s : State) : Host.Outcome State Fault Refusal :=
  hbmRow s fun u => writeDrain u pc.toNat

/-! ### Flash rows (R409 to R425) -/

/-- A write of FLS_RDTIM: the rate unless 6 or 7, the read timing, and with APPLY the switch of every channel (R411). -/
def rdtimWrite (s : State) (v : BitVec 32) : State :=
  let rate := v.extractLsb' 0 3
  let s1 := { s with flash := { s.flash with
    rate := if rate < 6 then rate else s.flash.rate
    rlat := v.extractLsb' 4 6, rpre := v.extractLsb' 10 2, odt := v.extractLsb' 12 3 } }
  let s2 := countIf (decide (6 ≤ rate) || strayBits v 0x17FF7) s1 0
  if v.getLsbD 16 then rdtimApply s2 else s2

/-- FLASH_READ_RETRY (R423). -/
def execFlashReadRetry (channel : BitVec 3) (level : Option (BitVec 4)) (s : State) : Host.Outcome State Fault Refusal :=
  hbmRow s fun u => flashReadRetry u channel.toNat level

/-- FLASH_COMMAND_TIMEOUT (R424). -/
def execFlashCommandTimeout (channel : BitVec 3) (s : State) : Host.Outcome State Fault Refusal :=
  hbmRow s fun u => flashCommandTimeout u channel.toNat

/-- FLS_RDTIM_APPLY (R411). -/
def execFlsRdtimApply (fn : BitVec 8) (value : BitVec 32) (s : State) : Host.Outcome State Fault Refusal :=
  .next (pfWrite s fn.toNat fun u => rdtimWrite u value)

/-- CHANNEL_RATE_SWITCH (R411, R424). -/
def execChannelRateSwitch (channel : BitVec 3) (reads : Bool) (s : State) : Host.Outcome State Fault Refusal :=
  hbmRow s fun u => channelRateSwitch u channel.toNat reads

end Sys2Proof.Machine
end

