-- ==== Sys2Proof/Machine/MicroOps.lean ====
section
/-! DEFINITION. Gate micro-programs: the fields of a micro-op (R115), the check of a slot (R116), what each micro-op computes for one
element (R113, R117 to R121), reductions (R123) and the top-k list (R129). -/

namespace Sys2Proof.Machine

/-! ### Fields (R115) -/

/-- Fields of a micro-op. -/
def uCode (u : Nat) : Nat := bitsOf u 7 0
def uRd (u : Nat) : Nat := bitsOf u 10 8
def uRa (u : Nat) : Nat := bitsOf u 13 11
def uRb (u : Nat) : Nat := bitsOf u 16 14
def uRc (u : Nat) : Nat := bitsOf u 19 17
def uXb (u : Nat) : Bool := bitOf u 20
def uRl (u : Nat) : Bool := bitOf u 21
def uWe (u : Nat) : Bool := bitOf u 22
def uEs (u : Nat) : Bool := bitOf u 23
def uSh (u : Nat) : Nat := bitsOf u 29 24
def uJ (u : Nat) : Nat := bitsOf u 30 30
def uImm (u : Nat) : Int := signedOf 32 (bitsOf u 63 32)
def uE (u : Nat) : Int := signedOf 12 (bitsOf u 75 64)
def uK (u : Nat) : Nat := bitsOf u 81 76 + 1
def uRbase (u : Nat) : Nat := bitsOf u 105 85

/-- The code is in the table of R117. -/
def isMicroOp (c : Nat) : Bool := (1 ≤ c && c ≤ 0x15) || (0x20 ≤ c && c ≤ 0x24) || c == 0x30

/-- A reserved bit of a micro-op is set. -/
def microReserved (u : Nat) : Bool := bitOf u 31 || decide (bitsOf u 84 82 ≠ 0) || decide (bitsOf u 127 106 ≠ 0)

/-- REDSUM, REDMAX or REDMAXABS. -/
def isReduction (u : Nat) : Bool := decide (0x21 ≤ uCode u) && decide (uCode u ≤ 0x23)

/-- TOPK. -/
def isTopk (u : Nat) : Bool := uCode u == 0x24

/-- The micro-op names a row sidecar. -/
def usesSidecar (u : Nat) : Bool := decide (0x20 ≤ uCode u) && decide (uCode u ≤ 0x24)

/-- A micro-program runs up to and including its first OUT (R116). -/
def toOut : List Nat → List Nat
  | [] => []
  | u :: r => if uCode u = 0x30 then [u] else u :: toOut r

/-- The micro-ops of a slot that have effect. -/
def microProgram (l : List Word128) : List Nat := toOut (l.map BitVec.toNat)

/-- The slot contents that 16 micro-ops give: none when R116 rejects them. -/
def checkSlot (l : List Word128) : Option (List Word128) :=
  let p := microProgram l
  let js := (p.filter isReduction).map uJ
  if p.any (fun u => uCode u == 0x30) && p.all (fun u => isMicroOp (uCode u) && !microReserved u) &&
      decide (js.eraseDups.length = js.length) && decide ((p.filter isTopk).length ≤ 1) &&
      p.all (fun u => !usesSidecar u || uRbase u % 8 == 0) then some l
  else none

/-! ### The top-k list (R129) -/

/-- An entry ranks above another: a larger key, or an equal one with a lower index. -/
def ranksAbove (a b : Int × Nat) : Bool := decide (b.1 < a.1) || (a.1 == b.1 && decide (a.2 < b.2))

/-- Puts an entry before the first that it ranks above. A list that RL = 1 reads need not be in rank order: its entries then keep their
order (DESIGN CHOICE: R129 does not speak of such a list, log 56). -/
def insertRank (a : Int × Nat) : List (Int × Nat) → List (Int × Nat)
  | [] => [a]
  | b :: r => if ranksAbove a b then a :: b :: r else b :: insertRank a r

/-- Offers an entry to a full list: it goes before the first that it ranks above, and the last entry leaves. -/
def offer (l : List (Int × Nat)) (a : Int × Nat) : List (Int × Nat) := (insertRank a l).take l.length

/-! ### One element (R113, R117) -/

/-- What a row's elements build up: reductions 0 and 1, and the top-k list. -/
structure RowAcc where
  red : List Int
  top : List (Int × Nat)
deriving DecidableEq, Repr

/-- An element in its lane: V0 to V7, whether anything has saturated, what its row has built up, and OUT's operand. -/
structure Lane where
  v : List Int
  sat : Bool
  acc : RowAcc
  out : Int
deriving DecidableEq, Repr

/-- What an element brings: its dynamic exponents, GARG, its column, and the sidecar values at issue by RBASE. -/
structure LaneIn where
  ea : Int
  eb : Int
  garg : Nat
  col : Nat
  ldr : Nat → Int

/-- A saturated 64-bit result, and whether the saturation changed it. -/
def sat64 (v : Int) : Int × Bool := (satTo 64 v, satChanges 64 v)

/-- The result of a micro-op that writes RD (R117 to R120). -/
def microResult (x : LaneIn) (v : Nat → Int) (u : Nat) : Int × Bool :=
  let a := v (uRa u)
  let b := v (uRb u)
  let c := uCode u
  if c = 0x01 then sat64 (a + b)
  else if c = 0x02 then sat64 (a - b)
  else if c = 0x03 then sat64 (a + uImm u)
  else if c = 0x04 then sat64 (rhu (a * b) (uSh u))
  else if c = 0x05 then sat64 (rhu (a * uImm u) (uSh u))
  else if c = 0x06 then sat64 (a * 2 ^ uSh u)
  else if c = 0x07 then (rhu a (uSh u), false)
  else if c = 0x08 then (min a b, false)
  else if c = 0x09 then (max a b, false)
  else if c = 0x0A then sat64 a.natAbs
  else if c = 0x0B then sat64 (-a)
  else if c = 0x0C then (if 0 ≤ v (uRc u) then a else b, false)
  else if c = 0x0D then sat64 (shiftBy a ((if uXb u then x.eb else x.ea) - uE u))
  else if c = 0x0E then (signedOf 16 x.garg, false)
  else if c = 0x0F then sat64 (uImm u * 2 ^ uSh u)
  else if c = 0x20 then (x.ldr (uRbase u), false)
  else functionValue c a

/-- Folds a value into a reduction (R123); |-2^63| counts as 2^63 - 1. -/
def reduceValue (u : Nat) (r a : Int) : Int :=
  if uCode u = 0x21 then r + a else if uCode u = 0x22 then max r a else max r (min (2 ^ 63 - 1) (a.natAbs : Int))

/-- One micro-op on a lane. -/
def microStep (x : LaneIn) (l : Lane) (u : Nat) : Lane :=
  let v (i : Nat) : Int := l.v.getD i 0
  let a := v (uRa u)
  if uCode u = 0x30 then { l with out := a }
  else if isReduction u then
    { l with acc := { l.acc with red := l.acc.red.modify (uJ u) fun r => reduceValue u r a } }
  else if isTopk u then
    { l with sat := l.sat || satChanges 48 a
             acc := { l.acc with top := offer l.acc.top (satTo 48 a, (x.garg + x.col) % 2 ^ 16) } }
  else
    let r := microResult x v u
    { l with v := l.v.set (uRd u) r.1, sat := l.sat || r.2 }

/-- Carries an element through a micro-program: V0 and V1 hold the inputs (R113). -/
def runElement (p : List Nat) (x : LaneIn) (a b : Int) (acc : RowAcc) : Lane :=
  p.foldl (microStep x) { v := [a, b, 0, 0, 0, 0, 0, 0], sat := false, acc := acc, out := 0 }

/-- The value a reduction starts from without RL (R123). -/
def redStart (u : Nat) : Int := if uCode u = 0x22 then -(2 ^ 63) else 0

/-- The filler entries of a top-k list (R129). -/
def topFiller (k : Nat) : List (Int × Nat) := List.replicate k (-(2 ^ 47), 0xFFFF)

/-- A top-k entry of 8 bytes: the key in bits 47:0, the index in bits 63:48 (R130). -/
def topWord (a : Int × Nat) : Nat := (a.1 % (2 ^ 48 : Int)).toNat + 2 ^ 48 * (a.2 % 2 ^ 16)
def topEntry (w : Nat) : Int × Nat := (signedOf 48 (w % 2 ^ 48), w / 2 ^ 48 % 2 ^ 16)

end Sys2Proof.Machine
end

