-- ==== Sys2Proof/Machine/Hazards.lean ====
section
/-! DEFINITION. Accesses of tile programs that nothing orders (R70, R96, R99, R104, R105, R125): which bytes are unpredictable, which
lines of a state slice are wholly old or wholly new, and what fences, SIGNAL and WAIT order. -/

namespace Sys2Proof.Machine

/-! ### Ranges -/

/-- The bytes that two ranges share. -/
def common (a b : Range) : Option Range :=
  if a.1 = b.1 ∧ meets a.2.1 a.2.2 b.2.1 b.2.2 then
    let lo := max a.2.1 b.2.1
    some (a.1, lo, min (a.2.1 + a.2.2) (b.2.1 + b.2.2) - lo)
  else none

/-- The bytes that two lists of ranges share. -/
def clashes (a b : List Range) : List Range := a.flatMap fun x => b.filterMap (common x)

/-- A range cut at the multiples of n of its space. -/
def cutAt (n : Nat) (r : Range) : List Range :=
  (List.range ((r.2.1 + r.2.2 + n - 1) / n - r.2.1 / n)).filterMap fun i => common r (r.1, n * (r.2.1 / n + i), n)

/-- A range within one page lies in a state slice (R70, R71). -/
def inSlice (s : State) (r : Range) : Bool :=
  decide (96 ≤ r.1) &&
    match translate s (r.1 - 96) r.2.1 false .engine with
    | .ok (.ordinary p) => p.tier == 1
    | .ok (.backed w) => w.tier
    | .ok (.kv i l j) => (leafOf (streamOf s i) l j).tier
    | _ => false

/-- Each piece either takes the bytes that stand beside it or stays as it is (R70: wholly one or the other; free, log 11). -/
def mixPieces (s : State) (l : List (Range × List Byte)) : State :=
  (List.range l.length).foldl (fun u i =>
    match l[i]? with
    | some p => if Config.freeNat (s.drawn + i) % 2 = 1 then putRange u p.1 p.2 else u
    | none => u) { s with drawn := s.drawn + l.length }

/-- The 64-byte lines of a range, each with its part of some bytes. -/
def linesWith (r : Range) (bs : List Byte) : List (Range × List Byte) :=
  (cutAt 64 r).map fun q => (q, (bs.drop (q.2.1 - r.2.1)).take q.2.2)

/-- What part of an instruction's destination held before it. -/
def InFlight.before (f : InFlight) (r : Range) : List Byte :=
  match (f.writes.zip f.was).find? fun p => common p.1 r == some r with
  | some p => (p.2.drop (r.2.1 - p.1.2.1)).take r.2.2
  | none => []

/-- An instruction's ranges are rows that a COPY moves within this chip. -/
def InFlight.moves (f : InFlight) : Bool := f.unit == 2 && f.remote.isEmpty && f.reads.length == f.writes.length

/-! ### What fences and sync counters order (R99, R104) -/

/-- Accesses of the gang of tile t that have completed. -/
def looseOf (s : State) (t : Nat) : List Loose := (((tileOf s t).entry.bind (entryOf s)).map Entry.loose).getD []

/-- Changes the completed accesses of the gang of tile t. -/
def modLoose (s : State) (t : Nat) (g : List Loose → List Loose) : State :=
  match (tileOf s t).entry with
  | some e => modEntry s e fun x => { x with loose := g x.loose }
  | none => s

/-- A completed access that nothing orders before what tile t does now: on its own tile no later instruction has waited for its fence
(R104); on another no WAIT of tile t has acquired a SIGNAL that released it (R99). -/
def Loose.unordered (l : Loose) (t : Nat) (seen : Tbl Nat) : Bool :=
  if l.tile = t then !l.fenced
  else match l.rel with
    | some n => decide (tblGetD seen l.tile 0 < n)
    | none => true

/-- An instruction of tile t has completed; what it read and wrote stays unordered until a fence or a counter orders it. -/
def noteDone (s : State) (t : Nat) (f : InFlight) : State :=
  if f.reads.isEmpty && f.writes.isEmpty && f.sideReads.isEmpty && f.sideWrites.isEmpty then s
  else modLoose s t fun l => l ++ [{ tile := t, flight := { f with was := [], holds := [] }, fenced := false, rel := none }]

/-- The fences of a mask name the fence that an access armed. -/
def fenceNamed (mask : Nat) (l : Loose) : Bool := match l.flight.fence with | some i => bitOf mask i.toNat | none => false

/-- An instruction of tile t has waited for the fences of a mask. In a gang of one tile, and for an access that wrote nothing, no more
order is needed. -/
def noteFences (s : State) (t mask : Nat) : State :=
  if mask = 0 then s
  else modLoose s t fun l => l.filterMap fun a =>
    if a.tile == t && fenceNamed mask a then
      if (tileOf s t).gang = 1 || (a.flight.writes.isEmpty && a.flight.sideWrites.isEmpty) then none else some { a with fenced := true }
    else some a

/-- A SIGNAL of tile t releases the writes behind the fences that its WAITF names (R99). -/
def release (s : State) (t mask : Nat) : State :=
  let n := (tileOf s t).signals + 1
  let s1 := modLoose s t fun l => l.map fun a => if a.tile == t && fenceNamed mask a then { a with rel := a.rel.or (some n) } else a
  setTile s1 t { tileOf s1 t with signals := n }

/-- The SIGNALs that stand before an addition of tile t: its own, and those that its WAITs have acquired. -/
def signalClock (s : State) (t : Nat) : Tbl Nat := tblPut (tileOf s t).seen t (tileOf s t).signals

/-- The SIGNALs that stand before the additions with which a counter met a target (R99). -/
def Sync.clockAt (v : Sync) (target : Word64) : Tbl Nat :=
  (((v.marks.find? fun m => target ≤ m.value).or v.marks.getLast?).map Mark.clock).getD []

/-- A WAIT of tile t acquires what was released before the additions that met its target (R99). -/
def acquire (s : State) (t g : Nat) (target : Word64) : State :=
  setTile s t { tileOf s t with seen := mergeClock (tileOf s t).seen ((syncOf s g).clockAt target) }

/-! ### Accesses that meet (R70, R96, R104, R105, R125) -/

/-- An instruction that another may clash with: its tile, and whether it has completed. -/
structure Met where
  tile : Nat
  f : InFlight
  done : Bool
deriving DecidableEq, Repr

/-- Units that keep order between two instructions of one tile: the same unit, but not the copy engine (R105). -/
def keepsOrder (t u t' u' : Nat) : Bool := t == t' && u == u' && u != 2

/-- Both instructions use the gate pipe of one tile, which interlocks their sidecars (R125). -/
def sharesPipe (t u t' u' : Nat) : Bool := t == t' && decide (u ≤ 1) && decide (u' ≤ 1)

/-- The instructions that keep no order with one of unit u that tile t issues: those in flight on the tiles of its context, and the
completed ones of its gang that nothing has ordered. -/
def metBy (s : State) (t u : Nat) : List Met :=
  let x := tileOf s t
  let live := (s.tiles.filter fun p => p.2.ctx == x.ctx).flatMap fun p => p.2.inflight.map fun i => { tile := p.1, f := i, done := false : Met }
  let past := ((looseOf s t).filter fun l => l.unordered t x.seen).map fun l => { tile := l.tile, f := l.flight, done := true : Met }
  (live ++ past).filter fun m => !keepsOrder t u m.tile m.f.unit

/-- The COPY or FILL instructions of one tile reach a slice in issue order (R70). -/
def sliceOrder (s : State) (t : Nat) (f : InFlight) (m : Met) (r : Range) : Bool :=
  m.tile == t && f.unit == 2 && m.f.unit == 2 && inSlice s r

/-- Bytes that an instruction reads and another writes, page by page. -/
def readRaces (s : State) (t : Nat) (f : InFlight) : List (Met × Range) :=
  (metBy s t f.unit).flatMap fun m =>
    let l := clashes f.reads (m.f.writes ++ m.f.sideWrites) ++
      clashes f.sideReads (m.f.writes ++ if sharesPipe t f.unit m.tile m.f.unit then [] else m.f.sideWrites)
    ((l.flatMap (cutAt 65536)).filter fun r => !sliceOrder s t f m r).map fun r => (m, r)

/-- Bytes that two instructions write: of one tile, or while the other is in flight on another tile. -/
def writeRaces (s : State) (t : Nat) (f : InFlight) : List (Met × Range) :=
  ((metBy s t f.unit).filter fun m => !m.done || m.tile == t).flatMap fun m =>
    let l := clashes f.writes (m.f.writes ++ m.f.sideWrites) ++
      clashes f.sideWrites (m.f.writes ++ if sharesPipe t f.unit m.tile m.f.unit then [] else m.f.sideWrites)
    (l.flatMap (cutAt 65536)).map fun r => (m, r)

/-- Bytes that an instruction writes and another reads: of one tile, or while the other is in flight on another tile. -/
def overRaces (s : State) (t : Nat) (f : InFlight) : List (Met × Range) :=
  ((metBy s t f.unit).filter fun m => !m.done || m.tile == t).flatMap fun m =>
    let l := clashes f.writes (m.f.reads ++ m.f.sideReads) ++
      clashes f.sideWrites (m.f.reads ++ if sharesPipe t f.unit m.tile m.f.unit then [] else m.f.sideReads)
    ((l.flatMap (cutAt 65536)).filter fun r => !sliceOrder s t f m r).map fun r => (m, r)

/-- Two tiles' copies meet in a slice while both are in flight: each line is wholly one's or the other's (R70). -/
def lineRace (s : State) (t : Nat) (f : InFlight) (q : Met × Range) : Bool :=
  !q.1.done && q.1.tile != t && q.1.f.unit == 2 && f.unit == 2 && inSlice s q.2

/-- A block entry whose accumulators are unpredictable. -/
def AccBlock.scrubbed (b : AccBlock) (drawn : Nat) : AccBlock :=
  { b with acc := (List.range 256).map fun i => BitVec.ofNat 64 (Config.freeNat (drawn + i)) }

/-- The accumulators of the held result of a tile become unpredictable. -/
def scrubHeld (s : State) (t : Nat) (h : Held) : State :=
  let bank := if h.bank then 16 else 0
  let cubes := (tileOf s t).cubes.mapIdx fun c q => { q with file := q.file.map fun p =>
    if bank ≤ p.1 ∧ p.1 < bank + 16 then (p.1, p.2.scrubbed (s.drawn + 256 * (32 * c + p.1))) else p }
  setTile { s with drawn := s.drawn + 256 * 128 } t { tileOf s t with cubes := cubes }

/-- What an instruction whose operands were overwritten leaves is unpredictable: its bytes, the held result, or the slot that it
loads. -/
def scrubResult (s : State) (t : Nat) (f : InFlight) : State :=
  let s1 := (f.writes ++ f.sideWrites).foldl scrub s
  let x := tileOf s1 t
  if f.loads then
    let ops := (List.range 16).map fun i => BitVec.ofNat 128 (Config.freeNat (s1.drawn + i))
    let g := f.slot.getD 0
    let slots := match checkSlot ops with | some l => tblPut x.slots g l | none => tblDel x.slots g
    setTile { s1 with drawn := s1.drawn + 16 } t { x with slots := slots }
  else if f.unit = 0 ∧ f.writes = [] then
    match x.held with
    | some h => scrubHeld s1 t h
    | none => s1
  else s1

/-- Before an instruction takes effect: what it reads of bytes that another writes is unpredictable (R104), or line by line old or new
in a slice (R70). -/
def beforeEffect (s : State) (t : Nat) (f : InFlight) : State :=
  (readRaces s t f).foldl (fun u q =>
    if lineRace s t f q then mixPieces u (linesWith q.2 (q.1.f.before q.2)) else scrub u q.2) s

/-- After the effect the lines that were read old hold what was written again. `s`: the state before it. -/
def settleLines (s : State) (t : Nat) (f : InFlight) (u : State) : State :=
  ((readRaces s t f).filter fun q => lineRace s t f q && (clashes [q.2] f.writes).isEmpty).foldl (fun v q =>
    putRange v q.2 (rangeBytes s q.2)) u

/-- An instruction reads bytes that another then writes: a COPY in a slice keeps each line that it moves wholly old or new (R70), any
other reader in flight has an unpredictable result, and so are the bytes (R104). -/
def overwrite (s : State) (t : Nat) (f : InFlight) (u : State) (q : Met × Range) :
    State :=
  if lineRace s t f q && q.1.f.moves then
    match (q.1.f.reads.zip q.1.f.writes).find? fun p => common p.1 q.2 == some q.2 with
    | some p =>
      mixPieces u ((linesWith q.2 (rangeBytes u q.2)).map fun l =>
        ((p.2.1, p.2.2.1 + (l.1.2.1 - p.1.2.1), l.1.2.2), l.2))
    | none => u
  else
    let v := scrub u q.2
    if q.1.done then v else scrubResult v q.1.tile q.1.f

/-- An outstanding copy whose destination another one writes too: the bytes that they share (R96). -/
def noteSpoiled (s : State) (q : Met × Range) : State :=
  if q.1.done then s
  else setTile s q.1.tile { tileOf s q.1.tile with
    inflight := (tileOf s q.1.tile).inflight.map fun i => if i = q.1.f then { i with spoiled := q.2 :: i.spoiled } else i }

/-- After an instruction's effect: bytes that another writes too are unpredictable (R96, R104), or in a slice line by line one's or the
other's (R70), and so for bytes that another still read. `s`: the state before the effect. -/
def afterEffect (s : State) (t : Nat) (f : InFlight) (u : State) : State :=
  let s1 := (writeRaces s t f).foldl (fun v q =>
    if lineRace s t f q then mixPieces v (linesWith q.2 (f.before q.2)) else noteSpoiled (scrub v q.2) q) u
  (overRaces s t f).foldl (overwrite s t f) s1

/-- The bytes of an instruction's destination that another outstanding copy writes too (R96). -/
def spoiledBy (s : State) (t : Nat) (f : InFlight) : List Range :=
  ((writeRaces s t f).filter fun q => !q.1.done && !lineRace s t f q).map Prod.snd

/-- What a COPY or FILL is about to overwrite (R70, R106). -/
def withBefore (s : State) (f : InFlight) : InFlight :=
  if f.unit = 2 then { f with was := f.writes.map (rangeBytes s) } else f

end Sys2Proof.Machine
end

