-- ==== Sys2Proof/Machine/SpanOps.lean ====
section
/-! DEFINITION. Span transfers (R477 to R488): frames that wait for their ACK, coded blocks on the wire, failure and resend, and the
retirement of ports. -/

namespace Sys2Proof.Machine

/-! ### Blocks on the wire (R484) -/

/-- The Span key (R484). -/
def spanKey (s : State) : List Byte := s.span.key.flatMap fun w => leBytes 4 w.toNat

/-- The tweak of a Span data unit (R484): TYPE, SRC chip, sending port, SEQ. -/
def spanTweak (ty chip : Nat) (port : Bool) (seq : BitVec 32) : Nat :=
  ty + 2 ^ 8 * chip + (if port then 2 ^ 23 else 0) + 2 ^ 24 * seq.toNat

/-- A block, its header and its payload, as DATA carries it: data units of TYPE 0x21 and 0x22, filled up to whole granules (R284,
R484). -/
def wireBlock (s : State) (b : List Byte × List Byte) (port : Bool) (seq : BitVec 32) : List Byte :=
  let chip := s.span.chip.toNat
  let bs := xtsEncrypt (spanKey s) (spanTweak 0x21 chip port seq) b.1 ++ xtsEncrypt (spanKey s) (spanTweak 0x22 chip port seq) b.2
  bs ++ leBytes ((32 - bs.length % 32) % 32) 0

/-- The header and the payload of a received block, decrypted; none when the header does not say how long the payload is, or the frame
is shorter (R484). -/
def unwireBlock (s : State) (f : SpanFrame) : Option (List Byte × List Byte) :=
  let src := f.src.toNat
  let h := xtsDecrypt (spanKey s) (spanTweak 0x21 src f.srcPort f.seq) (f.payload.take 16)
  match parseHeader h with
  | none => none
  | some (_, _, _, plen, _) =>
    let d := (f.payload.drop 16).take (16 * plen)
    if d.length = 16 * plen then some (h, xtsDecrypt (spanKey s) (spanTweak 0x22 src f.srcPort f.seq) d) else none

/-- The raw bytes of a received block, decoded against the slots of context c; none: a codec failure (R292, R293, R484). -/
def openWire (s : State) (c : Nat) (f : SpanFrame) : Option (List Byte) :=
  (unwireBlock s f).bind fun b =>
    match decodeBlock (contextGen s c) b.1 (fun n => b.2.take n) with
    | .ok raw => some raw
    | .error _ => none

/-- The encoder codes a block for the wire against a slot of context c; one that goes raw counts in CODEC_RAW (R290, R291). -/
def encodeFor (s : State) (c : Nat) (slot : Option Nat) (raw : List Byte) : (List Byte × List Byte) × State :=
  let k := codedBlock s c slot raw
  (k, if rawHeader k.1 then bumpFn s c 9 1 else s)

/-! ### Frames that wait for an ACK (R485) -/

/-- The port that gives a new frame its SEQ: one that is up, else one that is not retired. -/
def framePort (s : State) : Bool := (sendingPort s).getD (decide (s.span.port0.state = 3))

/-- Puts a frame on the wire if its port is up. -/
def emit (s : State) (port : Bool) (o : Outstanding) : State :=
  if s.span.active && decide ((portOf s port).state = 2) then
    putFrame s port o.port o.frameType 0 o.dst o.jobNum o.seq o.address o.arg o.payload
  else s

/-- Sends a DATA, RDREQ or SIGNAL of context c and waits for its ACK (R483, R485). Answers the port and SEQ that name the frame. -/
def sendTracked (s : State) (c frameType dst jobNum address : Nat) (arg : Word64) (payload : Bool → BitVec 32 → List Byte)
    (store : Landing) : (Bool × BitVec 32) × State :=
  let p := framePort s
  let x := portOf s p
  let q := x.seq + 1
  let o : Outstanding :=
    { port := p, lastPort := p, frameType := frameType, ctx := c, jobNum := jobNum, dst := dst, seq := q, sentAt := s.time.dtime
      resends := 0, address := address, arg := arg, payload := payload p q, acked := false, filled := false, store := store }
  let s1 := setPort s p { x with seq := q }
  ((p, q), emit { s1 with span := { s1.span with outstanding := s1.span.outstanding ++ [o] } } p o)

/-- Sends one block of context c to another chip as a DATA, coded against the slot that CSLOT names (R94, R484). -/
def sendBlock (s : State) (c dst jobNum address cslot : Nat) (raw : List Byte) : (Bool × BitVec 32) × State :=
  let k := encodeFor s c (namedSlot s c cslot) raw
  sendTracked k.2 c 1 dst jobNum address 0 (wireBlock s k.1) .va

/-- The port that a resend uses: the other one if it is in service, else the same (R485). -/
def resendPort (s : State) (o : Outstanding) : Bool :=
  if (portOf s (!o.lastPort)).state = 2 then !o.lastPort else o.lastPort

/-- The frame goes out again with its SEQ (R485). -/
def resendFrame (s : State) (o : Outstanding) : State :=
  let p := resendPort s o
  let o1 := { o with lastPort := p, sentAt := s.time.dtime, resends := o.resends + 1 }
  emit { s with span := { s.span with
    outstanding := s.span.outstanding.map fun x => if x.port = o.port ∧ x.seq = o.seq then o1 else x } } p o1

/-- Every frame of a Span job stops waiting. -/
def dropFrames (s : State) (c jobNum : Nat) : State :=
  { s with span := { s.span with outstanding := s.span.outstanding.filter fun o => !(o.ctx == c && o.jobNum == jobNum) } }

/-- The context whose open job carries a JOBNUM (R481). -/
def spanContext (s : State) (n : Nat) : Option Nat :=
  (s.ctxs.find? fun p => match p.2.job with
    | some j => j.span != 0 && spanJobNum j.span == n && !j.faulted
    | none => false).map Prod.fst

/-- The open Span job of context c that has not faulted. -/
def spanJobOf (s : State) (c : Nat) : Option Word64 :=
  match (ctxOf s c).bind Ctx.job with
  | some j => if j.span ≠ 0 ∧ !j.faulted then some j.span else none
  | none => none

/-- A transfer fails: its job ends with CAUSE 0x25, announced to the members (R258, R482, R485). -/
def failTransfer (s : State) (o : Outstanding) : State :=
  let s1 := dropFrames s o.ctx o.jobNum
  match spanJobOf s1 o.ctx with
  | some w => if spanJobNum w = o.jobNum then faultJob s1 o.ctx 0x25 (if o.lastPort then 1 else 0) true else s1
  | none => s1

/-- Every open Span job of the chip faults with CAUSE 0x25 (R488, R490). -/
def faultSpanJobs (s : State) (unit : Nat) : State :=
  (s.ctxs.map Prod.fst).foldl (fun u c =>
    match spanJobOf u c with
    | some w => faultJob (dropFrames u c (spanJobNum w)) c 0x25 unit true
    | none => u) s

/-! ### Ports (R488) -/

/-- A port retires: what it had not delivered goes out on the other port; with both retired the Span falls (R488, R491). -/
def retirePort (s : State) (p : Bool) (cause : BitVec 4) : State :=
  let n := if p then 1 else 0
  if s.retired.ports.contains n then s
  else
    let s1 := setPort s p { portOf s p with state := 3, cause := cause, lostAt := none }
    let s2 := noteRetire { s1 with retired := { s1.retired with ports := n :: s1.retired.ports } } 2 n
    if s2.retired.ports.contains (1 - n) then
      faultSpanJobs { s2 with span := { s2.span with active := false, eqxSent := none, eqxNext := none } } n
    else
      (s2.span.outstanding.filter fun o => o.lastPort == p && !o.acked).foldl resendFrame s2

/-- A transient event of a port; at the limit it retires (R452, R488). -/
def transientPort (s : State) (p : Bool) : State :=
  if s.retired.ports.contains (if p then 1 else 0) then s
  else
    let x := portOf s p
    let r := addTransient (now s) s.span.transLimit s.span.transWindow x.transient
    let s1 := setPort s p { x with transient := r.1 }
    if r.2 then retirePort s1 p 1 else s1

/-! ### Equinox (R489) -/

/-- SEQ of the next new frame. -/
def nextSeq (s : State) : BitVec 32 := (portOf s (framePort s)).seq + 1

/-- Sends an EQX request to the reference. -/
def eqxRequest (s : State) : State :=
  let s1 := sendFrame s 7 0 s.span.refChip.toNat 0 (now s) 0 [] none
  { s1 with span := { s1.span with eqxSent := some s.time.dtime, eqxSeq := nextSeq s, eqxNext := none } }

/-- A measurement starts; the reference itself reads OFFSET 0, VALID 1, ERR 0 (R489). -/
def eqxStart (s : State) : State :=
  if s.span.chip = s.span.refChip then
    { s with time := { s.time with eqxOffset := 0, eqxValid := true, eqxErr := 0 }
             span := { s.span with eqxSamples := [], eqxSent := none, eqxNext := none } }
  else eqxRequest { s with span := { s.span with eqxSamples := [], eqxSent := none, eqxNext := none } }

/-- An EQX request that is due goes out (R489: 100 µs apart). -/
def eqxDue (s : State) : State :=
  match s.span.eqxNext with
  | some t => if s.span.active && decide (t.toNat ≤ now s) && s.dbg.frozen.isNone then eqxRequest s else s
  | none => s

/-- The first sample with the smallest round-trip time. -/
def bestSample : List (Int × Int) → Option (Int × Int)
  | [] => none
  | x :: r => match bestSample r with
    | some y => if y.1 < x.1 then some y else some x
    | none => some x

/-- After 16 exchanges: OFFSET and ERR (R489). An ERR that 16 bits do not hold is a free value (log 4). -/
def eqxFinish (s : State) : State :=
  match bestSample s.span.eqxSamples with
  | none => s
  | some (rtt, d) =>
    let err := (rtt + 1) / 2
    let (e, s1) := if 0 ≤ err ∧ err < 65536 then (err.toNat, s) else drawNat s
    { s1 with time := { s1.time with
                eqxOffset := BitVec.ofInt 64 ((d + 1) / 2), eqxValid := true, eqxErr := BitVec.ofNat 16 e }
              span := { s1.span with eqxSamples := [] } }

/-- A reply completes the open exchange (R489). -/
def eqxReply (s : State) (t2 t3 : Nat) : State :=
  match s.span.eqxSent with
  | none => s
  | some t1 =>
    let t4 := now s
    let rtt : Int := (t4 - t1.toNat : Int) - (t3 - t2 : Int)
    let d : Int := (t2 - t1.toNat : Int) + (t3 - t4 : Int)
    let l := s.span.eqxSamples ++ [(rtt, d)]
    let s1 := { s with span := { s.span with eqxSamples := l, eqxSent := none } }
    if 16 ≤ l.length then eqxFinish s1
    else { s1 with span := { s1.span with eqxNext := some (t1 + 100000) } }

end Sys2Proof.Machine
end

