-- ==== Sys2Proof/Machine/SpanLinks.lean ====
section
/-! DEFINITION. The Span rows: SPN_CTRL (R477, R489, R490), received frames (R481 to R485, R489) and the ports (R485, R488, R518). -/

namespace Sys2Proof.Machine

/-! ### SPN_CTRL -/

/-- COMMIT: the block is locked and the chip is ACTIVE; Equinox is measured (R477, R489). An ACTIVE chip is not changed; one with both
ports retired is locked and not ACTIVE (DEDUCED, log 41). -/
def spanCommit (s : State) : State :=
  if s.span.active then s
  else
    let s1 := { s with span := { s.span with locked := true } }
    if s.retired.ports.contains 0 && s.retired.ports.contains 1 then s1
    else eqxStart { s1 with span := { s1.span with active := true }, time := { s1.time with eqxValid := false } }

/-- LEAVE: no frame is sent or received any more, and every open Span job faults (R490). -/
def spanLeave (s : State) : State :=
  if s.span.active then
    let s1 := { s with span := { s.span with active := false, eqxSent := none, eqxNext := none, eqxSamples := [] } }
    let s2 := faultSpanJobs s1 0
    { s2 with span := { s2.span with outstanding := [] } }
  else s

/-- REMEASURE (R489). -/
def spanRemeasure (s : State) : State := if s.span.active then eqxStart s else s

/-- A write of SPN_CTRL; each bit that is 1 acts, in bit order (log 41). -/
def spanCtrl (s : State) (v : BitVec 32) : State :=
  let s0 := countIf (strayBits v 7) s 0
  let s1 := if v.getLsbD 0 then spanCommit s0 else s0
  let s2 := if v.getLsbD 1 then spanLeave s1 else s1
  if v.getLsbD 2 then spanRemeasure s2 else s2

/-! ### Received frames -/

/-- A frame that the chip takes: EtherType, SPANID and FCS are right, it is addressed to this chip, the port is up, the chip is
ACTIVE and runs (R477, R478, R485, R491). -/
def takesFrame (s : State) (f : SpanFrame) : Bool :=
  s.span.active && s.dbg.frozen.isNone && !s.lrs.active && f.fcsGood && f.etherType == 0x88B5 && f.spanId == s.span.spanId &&
    f.dst == s.span.chip && (portOf s f.port).state == 2

/-- An answer to a frame: ACK, or NACK with its reason (R483). -/
def answer (s : State) (f : SpanFrame) (nack : Nat) : State :=
  if nack = 0 then sendFrame s 4 0 f.src.toNat f.jobNum.toNat 0 0 [] (some f.seq)
  else sendFrame s 5 0 f.src.toNat f.jobNum.toNat 0 (BitVec.ofNat 64 nack) [] (some f.seq)

/-- The key under which an applied SEQ is remembered while its Span job is open (R485). -/
def seenKey (f : SpanFrame) : Nat × Nat :=
  (2 ^ 16 * f.jobNum.toNat + 2 * f.src.toNat + (if f.srcPort then 1 else 0), f.seq.toNat)

/-- Serves a DATA, RDREQ or SIGNAL once: NOJOB without an open job, an ACK again for a repeated SEQ, else the effect with its answer
(R481, R485). `k` gives the NACK reason, 0 for an ACK. -/
def serveFrame (s : State) (f : SpanFrame) (k : State → Nat → Nat × State) : State :=
  if !takesFrame s f then s
  else if s.span.seen.contains (seenKey f) then answer s f 0
  else match spanContext s f.jobNum.toNat with
    | none => answer s f 1
    | some c =>
      let r := k s c
      if r.1 = 0 then answer { r.2 with span := { r.2.span with seen := seenKey f :: r.2.span.seen } } f 0
      else answer r.2 f r.1

/-- A block goes into HBM as it came, encrypted for its place under the data key of the context (R302, R484). -/
def storeSealed (s : State) (c a : Nat) (p : Pte) (b : List Byte × List Byte) : State :=
  let o := a % 65536 / 4096
  let v := Source.remote.service c 3
  let s1 := putStored s p.target o (sealBlock (dataKeyOf s c) (65536 * p.target + 4096 * o) b) v
  let w := pteWord { p with zmask := p.zmask - (if bitOf p.zmask o then 2 ^ o else 0) }
  modCtx s1 c fun x => { x with pages := tblPut x.pages (a / 65536) w }

/-- The bundles that a tile runs from a block that a frame has written are unpredictable (R107). -/
def spoilBundles (s : State) (c a : Nat) : State :=
  (codeTiles s c a 4096).foldl (fun u p =>
    match common (96 + c, a, 4096) (96 + c, p.2.prog, 16 * p.2.len) with
    | some r => scrub u r
    | none => u) s

/-- A DATA block reaches its device-virtual address: an HBM destination takes it coded, any other decoded (R484). Answers the NACK
reason. -/
def storeBlock (s : State) (c a : Nat) (f : SpanFrame) : Nat × State :=
  let s1 := walked s c a 3 .remote
  match unwireBlock s f, translate s c a true .remote with
  | none, _ => (3, s)
  | some _, .error (.device cause unit) => (3, faultJob s1 c cause unit true)
  | some _, .error _ => (2, s1)
  | some b, .ok (.ordinary p) =>
    if a % 4096 ≠ 0 then (2, s1)
    else if p.tier = 0 then
      (if quadRetired s false p.target then (3, faultJob s1 c 0x20 (quadPc p.target) true)
       else (0, spoilBundles (storeSealed s1 c a p b) c a))
    else
      (match openWire s c f with
       | none => (3, s1)
       | some raw =>
         match writeVA s1 c a raw none 3 .remote with
         | (none, s2) => (0, s2)
         | (some (.device cause unit), s2) => (3, faultJob s2 c cause unit true)
         | (some _, s2) => (2, s2))
  | some _, .ok _ => (2, s1)

/-- The RDREQ that a DATA answers, when its block goes to a local store or is still awaited (R483, R485). -/
def awaited (s : State) (f : SpanFrame) : Option Outstanding :=
  s.span.outstanding.find? fun o =>
    o.frameType == 2 && !o.filled && o.dst == f.src.toNat && o.jobNum == f.jobNum.toNat && o.arg == f.addr

/-- A frame that has its ACK, and its DATA if it asked for one, waits no longer. -/
def completeFrames (s : State) : State :=
  let l := s.span.outstanding.filter fun o => !(o.acked && (o.filled || o.frameType != 2))
  { s with span := { s.span with outstanding := l } }

/-- Changes the outstanding frame that o is. -/
def modFrame (s : State) (o : Outstanding) (g : Outstanding → Outstanding) : State :=
  { s with span := { s.span with
      outstanding := s.span.outstanding.map fun x => if x.port = o.port ∧ x.seq = o.seq then g x else x } }

/-- A frame that follows from another belongs to the same COPY (R486). -/
def followFrame (s : State) (o : Outstanding) (id : Bool × BitVec 32) : State :=
  { s with tiles := tblMap s.tiles fun _ x =>
      { x with inflight := x.inflight.map fun i =>
          if i.remote.contains (o.port, o.seq) then { i with remote := i.remote ++ [id] } else i } }

/-- A COPY that is still in flight waits for this frame; what a program that has ended asked for goes nowhere (R110). -/
def copyWaits (s : State) (o : Outstanding) : Bool :=
  s.tiles.any fun p => p.2.inflight.any fun i => i.remote.contains (o.port, o.seq)

/-- Bytes that have come for a COPY and that another outstanding copy writes too are unpredictable (R96, R486). -/
def spoilLanded (s : State) (o : Outstanding) (r : Range) : State :=
  let l := s.tiles.flatMap fun p => (p.2.inflight.filter fun i => i.remote.contains (o.port, o.seq)).flatMap InFlight.spoiled
  (l.filterMap (common r)).foldl scrub s

/-- SPAN_DATA: the block is stored, or fills the RDREQ that asked for it (R483, R484). -/
def takeData (s : State) (c : Nat) (f : SpanFrame) : Nat × State :=
  match awaited s f with
  | some o =>
    let fill (u : State) : Nat × State := (0, completeFrames (modFrame u o fun x => { x with filled := true }))
    (match o.store, openWire s c f with
     | .tile t a, some raw =>
       fill (if copyWaits s o then
           spoilLanded { s with localMem := memWriteN s.localMem (2 ^ 21 * t + a) raw } o (t, a, 4096)
         else s)
     | .chip dst address cslot, some raw =>
       if copyWaits s o then
         let r := sendBlock s c dst o.jobNum address cslot raw
         fill (followFrame r.2 o r.1)
       else fill s
     | .va, _ =>
       if copyWaits s o then
         let r := storeBlock s c f.addr.toNat f
         if r.1 = 0 then fill (spoilLanded r.2 o (96 + c, f.addr.toNat, 4096)) else r
       else fill s
     | _, none => (3, s))
  | none => storeBlock s c f.addr.toNat f

/-- The block at an address as the sender's codec takes it: a coded block of HBM goes as it is stored, decrypted (R18, R484). -/
def sealedBlock (s : State) (c a : Nat) : Option (Except AccessErr (List Byte × List Byte) × State) :=
  match translate s c a false .remote with
  | .ok (.ordinary p) =>
    let o := a % 65536 / 4096
    if p.tier ≠ 0 || bitOf p.zmask o then none
    else
      let place := 65536 * p.target + 4096 * o
      let u := storedAt s (16 * p.target + o)
      match readStored (walked s c a 3 .remote) place u with
      | (none, s1) => some (.error (.device 0x20 (quadPc p.target)), s1)
      | (some d, s1) =>
        let b := openBlock (dataKeyOf s c) place d
        let n := match parseHeader b.1 with | some (_, _, _, plen, _) => 16 * plen | none => 4096
        some (.ok (b.1, b.2 n), hbmTouch s1 false p.target (4096 * o) (min (32 * u.granules) (65536 - 4096 * o)) []
          (Source.remote.service c 3))
  | _ => none

/-- The block that an RDREQ asks for, as the wire carries it. A block of a tier that is not coded, and one of Library flash, whose slots
are its package's, is coded as a write that names no slot (DESIGN CHOICE, log 41). -/
def askedBlock (s : State) (c a : Nat) : Except AccessErr (List Byte × List Byte) × State :=
  match sealedBlock s c a with
  | some r => r
  | none =>
    match readBlock s c a 4096 3 .remote with
    | (.err e, s1) => (.error e, s1)
    | (.ok raw, s1) => let k := encodeFor s1 c none raw; (.ok k.1, k.2)

/-- RDREQ: the block goes to the return address as a DATA of its own (R483). -/
def takeRead (s : State) (c : Nat) (f : SpanFrame) : Nat × State :=
  let a := f.addr.toNat
  if a % 4096 ≠ 0 then (2, s)
  else match askedBlock s c a with
    | (.ok b, s1) =>
      let r := sendTracked s1 c 1 f.src.toNat f.jobNum.toNat f.arg.toNat 0 (wireBlock s1 b) .va
      (0, r.2)
    | (.error (.trans _ _ _), s1) => (2, s1)
    | (.error (.lower _), s1) => (3, s1)
    | (.error .late, s1) => (3, s1)
    | (.error (.device cause unit), s1) => (3, faultJob s1 c cause unit true)

/-- SPAN_SIGNAL: the amount is added to a counter of the job's window; one that it poisons ends the job with CAUSE 0x0E (R98, R100).
An index beyond the window answers NACK 2 (log 41). -/
def takeSignal (s : State) (c : Nat) (f : SpanFrame) : Nat × State :=
  match syncIndex s c f.addr.toNat with
  | none => (2, s)
  | some g =>
    let r := addSync s g f.arg.toNat
    let s1 := foldContext r.1 c
    (0, if r.2 then faultJob s1 c 0x0E 0 true else s1)

/-- The outstanding frame that an ACK or NACK answers. -/
def answered (s : State) (f : SpanFrame) : Option Outstanding :=
  s.span.outstanding.find? fun o =>
    o.seq == f.seq && o.dst == f.src.toNat && o.jobNum == f.jobNum.toNat && (o.port == f.port || o.lastPort == f.port)

/-- ACK: the frame is done; one that was resent counts as a transient event of the port that sent it first (R485, R488). -/
def takeAck (s : State) (f : SpanFrame) : State :=
  if !takesFrame s f then s
  else match answered s f with
    | none => s
    | some o =>
      let s1 := completeFrames (modFrame s o fun x => { x with acked := true })
      if 0 < o.resends ∧ !o.acked then transientPort s1 o.port else s1

/-- NACK with reason 1, 2 or 3: the transfer fails (R485). -/
def takeNack (s : State) (f : SpanFrame) : State :=
  if !takesFrame s f ∨ f.arg.toNat = 0 ∨ 3 < f.arg.toNat then s
  else match answered s f with
    | none => s
    | some o => failTransfer s o

/-- JOBFAULT: the open job ends with CAUSE 0x25 and the port of arrival as UNIT; it is not announced again (R482). -/
def takeJobFault (s : State) (f : SpanFrame) : State :=
  if !takesFrame s f then s
  else match spanContext s f.jobNum.toNat with
    | none => s
    | some c => faultJob (dropFrames s c f.jobNum.toNat) c 0x25 (if f.port then 1 else 0) false

/-- EQX: a request is answered with this chip's Device Time; a reply from the reference that carries the SEQ of the open request
completes an exchange (R483, R489). -/
def takeEqx (s : State) (f : SpanFrame) : State :=
  if !takesFrame s f then s
  else if f.flags.getLsbD 0 then
    (if f.src = s.span.refChip ∧ f.seq = s.span.eqxSeq then eqxReply s f.arg.toNat f.addr.toNat else s)
  else sendFrame s 7 1 f.src.toNat 0 (now s) s.time.dtime [] (some f.seq)

/-! ### Resends and ports -/

/-- SPAN_RESEND: no ACK came within RTO µs; the frame goes out again, or the transfer fails after RETRIES (R485). -/
def spanResend (s : State) (p : Bool) (q : BitVec 32) : State :=
  match s.span.outstanding.find? fun o => o.port == p && o.seq == q && !o.acked with
  | none => s
  | some o =>
    if !s.span.active ∨ s.dbg.frozen.isSome ∨ now s < o.sentAt.toNat + 1000 * s.span.rto.toNat then s
    else if s.span.retries.toNat ≤ o.resends then failTransfer s o
    else resendFrame s o

/-- BLOCK_LOCK_LOSS: the port is down; one that is not up within 100 ms has failed its retry and retires (R488). -/
def blockLockLoss (s : State) (p relocked : Bool) : State :=
  if (portOf s p).state ≠ 2 then s
  else if relocked then setPort s p { portOf s p with state := 0, lostAt := some s.time.dtime }
  else retirePort s p 2

/-- SPAN_LINK_UP: training ends, or block lock is regained, within 100 ms as a transient event (R488). -/
def spanLinkUp (s : State) (p : Bool) : State :=
  let x := portOf s p
  if x.state = 2 ∨ x.state = 3 ∨ !s.boot.released then s
  else match x.lostAt with
    | none => setPort s p { x with state := 2, calAt := s.time.dtime, calTemp := s.power.tj }
    | some t =>
      if now s ≤ t.toNat + 100000000 then transientPort (setPort s p { x with state := 2, lostAt := none }) p
      else retirePort s p 2

/-- A recalibration of the port is due: 600 s or 10 °C since the last, while the other port is up (R518). -/
def recalibrationDue (s : State) (p : Bool) : Bool :=
  let x := portOf s p
  let a := x.calTemp.toInt
  let b := s.power.tj.toInt
  decide (x.state = 2) && decide ((portOf s (!p)).state = 2) &&
    (decide (x.calAt.toNat + 600000000000 ≤ now s) || decide (10 ≤ (a - b).natAbs))

/-- PORT_RECALIBRATION: it succeeds, or the port has failed a retry and retires (R488, R518). -/
def portRecalibration (s : State) (p good : Bool) : State :=
  if !recalibrationDue s p then s
  else if good then setPort s p { portOf s p with calAt := s.time.dtime, calTemp := s.power.tj }
  else retirePort s p 2

/-! ### The rows -/

/-- SPN_COMMIT (R477, R489). -/
def execSpnCommit (fn : BitVec 8) (s : State) : Host.Outcome State Fault Refusal := .next (pfWrite s fn.toNat fun u => spanCtrl u 1)

/-- SPN_LEAVE (R490). -/
def execSpnLeave (fn : BitVec 8) (s : State) : Host.Outcome State Fault Refusal :=
  .next (pfWrite s fn.toNat fun u => settleLive (spanCtrl u 2))

/-- SPN_REMEASURE (R489, R490). -/
def execSpnRemeasure (fn : BitVec 8) (s : State) : Host.Outcome State Fault Refusal :=
  .next (pfWrite s fn.toNat fun u => spanCtrl u 4)

/-- SPAN_DATA (R484, R485). -/
def execSpanData (f : SpanFrame) (s : State) : Host.Outcome State Fault Refusal :=
  .next (settleLive (serveFrame s f fun u c => takeData u c f))

/-- RDREQ (R483, R485). -/
def execRdreq (f : SpanFrame) (s : State) : Host.Outcome State Fault Refusal :=
  .next (settleLive (serveFrame s f fun u c => takeRead u c f))

/-- SPAN_SIGNAL (R485). -/
def execSpanSignal (f : SpanFrame) (s : State) : Host.Outcome State Fault Refusal :=
  .next (settleLive (serveFrame s f fun u c => takeSignal u c f))

/-- ACK (R485). -/
def execAck (f : SpanFrame) (s : State) : Host.Outcome State Fault Refusal := .next (settleLive (takeAck s f))

/-- NACK (R485). -/
def execNack (f : SpanFrame) (s : State) : Host.Outcome State Fault Refusal := .next (settleLive (takeNack s f))

/-- JOBFAULT (R482). -/
def execJobfault (f : SpanFrame) (s : State) : Host.Outcome State Fault Refusal := .next (settleLive (takeJobFault s f))

/-- EQX (R489). -/
def execEqx (f : SpanFrame) (s : State) : Host.Outcome State Fault Refusal := .next (takeEqx s f)

/-- SPAN_RESEND (R485). -/
def execSpanResend (port : Bool) (seq : BitVec 32) (s : State) : Host.Outcome State Fault Refusal :=
  .next (settleLive (spanResend s port seq))

/-- BLOCK_LOCK_LOSS (R488). -/
def execBlockLockLoss (port relocked : Bool) (s : State) : Host.Outcome State Fault Refusal :=
  .next (if ticking s then settleLive (blockLockLoss s port relocked) else s)

/-- PORT_RECALIBRATION (R518). -/
def execPortRecalibration (port good : Bool) (s : State) : Host.Outcome State Fault Refusal :=
  .next (if ticking s then settleLive (portRecalibration s port good) else s)

/-- SPAN_LINK_UP (R488). -/
def execSpanLinkUp (port : Bool) (s : State) : Host.Outcome State Fault Refusal :=
  .next (if ticking s then settleLive (spanLinkUp s port) else s)

end Sys2Proof.Machine
end

