-- ==== Sys2Proof/Machine/Frost.lean ====
section
/-! DEFINITION. Frost snapshots: what the Frost area holds after one (R469, R471), freezes and Thaw (R470, R473). -/

namespace Sys2Proof.Machine

/-! ### Sections of the snapshot (R471) -/

/-- The Docket entry number in a snapshot: its place among the entries that stand (log 22). -/
def entryNumber (s : State) (e : Nat) : Nat := (s.docket.entries.map Prod.fst).idxOf e

/-- A mask of numbers as little-endian bytes. -/
def maskBytes (n : Nat) (l : List Nat) : List Byte := leBytes n ((l.eraseDups.filter fun k => decide (k < 8 * n)).map fun k => 2 ^ k).sum

/-- The header; COMPLETE, LENGTH and SEQ take their values when the snapshot is complete. -/
def frostHeader (s : State) (trigger : Nat) : List Byte :=
  ascii "EZBFROST" ++ leBytes 2 1 ++ leBytes 1 trigger ++ leBytes 1 s.fuses.lcs.toNat ++ leBytes 4 s.fw.version.toNat ++
    leBytes 8 (now s) ++ leBytes 4 s.time.frameNum.toNat ++ leBytes 4 (phaseOf s) ++ leBytes 4 (counterOf s 0xC).value ++
    leBytes 4 0 ++ leBytes 1 0 ++ leBytes 1 s.lrs.cause.toNat ++ leBytes 6 0 ++ maskBytes 16 s.retired.pcs ++
    maskBytes 12 s.retired.tiles ++ maskBytes 1 s.retired.flash ++ maskBytes 1 s.retired.ports

/-- Ring r of function f. -/
def frostRing (s : State) (f r : Nat) (x : Ring) : List Byte :=
  leBytes 2 x.own.toNat ++ leBytes 2 x.host.toNat ++ leBytes 1 x.kind.toNat ++ leBytes 1 x.log2n.toNat ++
    leBytes 1 ((if x.en then 1 else 0) + (if x.phase then 2 else 0) + (if x.busy then 4 else 0)) ++ leBytes 1 0 ++
    leBytes 2 (if x.kind = 1 then owedTo s f r else 0)

/-- STATE of a Docket entry. -/
def entryCode : EntryState → Nat
  | .fetched => 1
  | .queued => 2
  | .ready => 3
  | .running => 4
  | .retiring => 5

/-- Some earlier request names a stream of x: the first such stream (R139). -/
def streamBehind (s : State) (x : Entry) : Option Nat :=
  (namedStreams x).find? fun i => behind s x [i] fun _ => true

/-- WAIT of a Docket entry and its argument (DEDUCED where several hold: in the order of the codes, log 22). -/
def entryWait (s : State) (x : Entry) : Nat × Nat :=
  let queued := decide (x.state = .queued)
  let counter : Option Nat := match x.cmd with
    | .syncWait b => syncIndex s x.ctx b.cidx.toNat
    | .present b => if presentCounter s x.ctx b then none else syncIndex s x.ctx b.cidx.toNat
    | _ => none
  match (if queued && x.parent.isNone then counter else none) with
  | some g => (1, g)
  | none =>
    match (if queued && x.parent.isNone then streamBehind s x else none) with
    | some i => (2, i)
    | none =>
      match (if queued && isModel x.cmd then (fallowStreams s x).head? else none) with
      | some i => (3, i)
      | none =>
        match x.parts.find? fun p => p.waiting with
        | some p => (5, p.stream)
        | none =>
          if x.due && (waitingSlot x).isSome then (6, 0)
          else if x.state = .ready then (match gangSize s x with | some g => (4, g) | none => (0, 0))
          else (0, 0)

/-- A Docket entry. -/
def frostEntry (s : State) (x : Entry) : List Byte :=
  let w := entryWait s x
  let cls := if x.overdue then 3 else x.hdr.cls.toNat
  leBytes 1 (entryCode x.state) ++ leBytes 1 x.ctx ++ leBytes 1 cls ++
    leBytes 1 (if x.parent.isSome then 0 else opcodeOf x.cmd) ++ leBytes 1 x.hdr.sq.toNat ++ leBytes 1 w.1 ++
    leBytes 2 (match x.parent with | some p => entryNumber s p | none => 0xFFFF) ++ leBytes 8 x.seq ++
    leBytes 8 x.hdr.cid.toNat ++ leBytes 8 w.2 ++ leBytes 8 x.readyTime ++ leBytes 4 x.hdr.deadline.toNat ++
    leBytes 1 ((gangSize s x).getD x.tiles.length) ++ leBytes 3 0 ++ maskBytes 12 x.tiles ++ leBytes 4 0

/-- WAITs and SYNC_WAITs that wait for a global counter. -/
def waitersOn (s : State) (g : Nat) : Nat :=
  (s.tiles.filter fun p => p.2.entry.isSome && (match p.2.waitOn with
    | some w => syncIndex s p.2.ctx w.index == some g
    | none => false)).length +
  (s.docket.entries.filter fun p => match p.2.cmd with
    | .syncWait b => decide (p.2.state = .queued) && syncIndex s p.2.ctx b.cidx.toNat == some g
    | _ => false).length

/-- A sync counter of context c. -/
def frostSync (s : State) (c g : Nat) : List Byte :=
  let v := syncOf s g
  leBytes 8 v.value.toNat ++ leBytes 1 c ++ leBytes 1 (if v.poisoned then 2 else 1) ++ leBytes 2 (waitersOn s g)

/-- Tile t. -/
def frostTile (s : State) (t : Nat) : List Byte :=
  let x := tileOf s t
  let depth (u : Nat) : Nat := (x.inflight.filter fun i => i.unit == u).length
  let still (code : Nat) : List Byte := leBytes 18 code ++ leBytes 2 0xFFFF
  if s.retired.tiles.contains t then still 2
  else match x.entry with
    | none => still 0
    | some e =>
      leBytes 1 1 ++ leBytes 1 x.ctx ++ leBytes 1 x.rank ++ leBytes 1 x.gang ++ leBytes 2 x.pc ++
        (x.fences.map fun f => f) ++ (List.range 4).flatMap (fun u => leBytes 1 (depth u)) ++
        (match x.waitOn with
         | some w => leBytes 2 ((syncIndex s x.ctx w.index).getD 0xFFFF) ++ leBytes 8 w.target.toNat
         | none => leBytes 2 0xFFFF ++ leBytes 8 0) ++ leBytes 2 (entryNumber s e)

/-- Age in ns of the oldest request of a pseudo-channel. -/
def oldestAge (s : State) (x : Pc) : Nat := ((x.reads ++ x.writes).map fun r => now s - r.issued.toNat).foldl max 0

/-- Pseudo-channel p. -/
def frostPc (s : State) (p : Nat) : List Byte :=
  let x := pcOf s p
  leBytes 1 (if x.retired then 2 else if pcHeld s p then 1 else 0) ++ leBytes 1 (burstsOf x.reads) ++
    leBytes 1 (burstsOf x.writes) ++
    leBytes 1 ((if s.sched.panic then 1 else 0) + (if pcHeld s p then 2 else 0)) ++ leBytes 8 (oldestAge s x)

/-- The context that owns a codec slot. -/
def slotOwner (s : State) (g : Nat) : Nat :=
  ((s.ctxs.find? fun p => decide (p.2.slotBase ≤ g) && decide (g < p.2.slotBase + p.2.slotCount)).map Prod.fst).getD 0

/-- A TABLE_LOAD of a slot is due and stalled (COD_SLOT_FLAGS.WAITING). -/
def slotWaiting (s : State) (g : Nat) : Bool :=
  s.docket.entries.any fun p => p.2.due && waitingSlot p.2 == some g

/-- Codec slot g. -/
def frostSlot (s : State) (g : Nat) (x : CodecSlot) : List Byte :=
  let num (o : Option Generation) : Nat := (o.map fun v => v.gen).getD 0
  let refs (o : Option Generation) : Nat := (o.map fun v => genRefs s v.serial).getD 0
  leBytes 2 (num x.cur) ++ leBytes 2 (num x.prev) ++ leBytes 2 (refs x.cur) ++ leBytes 2 (refs x.prev) ++
    leBytes 1 (if slotWaiting s g then 1 else 0) ++ leBytes 1 (slotOwner s g)

/-- State code of a stream (R207). -/
def streamCode : StreamState → Nat
  | .closed => 0
  | .active => 1
  | .fallow => 2
  | .growthWait => 3
  | .faulted => 4

/-- Stream i, which a context holds. -/
def frostStream (s : State) (i : Nat) (x : Stream) : List Byte :=
  leBytes 1 (streamCode x.state) ++ leBytes 1 x.ctx ++ leBytes 4 x.positions.toNat ++
    leBytes 2 (match x.pending with | some t => t.toNat | none => 0xFFFF) ++ leBytes 2 (consumers s i).length ++ leBytes 1 x.profile.toNat

/-- STATE code of an attachment. -/
def attachCode : Attach → Nat
  | .detached => 0
  | .attached => 1
  | .orphaned => 2

/-- Context c. -/
def frostCtx (s : State) (c : Nat) : List Byte :=
  let st := leBytes 1 (attachCode (fnOf s c).state)
  match ctxOf s c with
  | none => st ++ leBytes 1 0 ++ leBytes 2 (heldRequests s c)
  | some k =>
    st ++ leBytes 1 (1 + (match k.job with | some j => if j.faulted then 6 else 2 | none => 0)) ++ leBytes 2 (heldRequests s c) ++
      leBytes 3 k.pool0.free.length ++ leBytes 3 k.pool0.resv.length ++ leBytes 3 k.pool1.free.length ++
      leBytes 3 k.pool1.resv.length ++ leBytes 2 k.syncBase ++ leBytes 2 k.syncCount

/-- Writes items of a section of a snapshot. -/
def frostItems (m : Memory) (base size : Nat) (items : List (Nat × List Byte)) : Memory :=
  items.foldl (fun u p => memWriteN u (base + size * p.1) p.2) m

/-- Steward core registers, only in the last-resort state or with debug open; what they hold is free (R403, R471). -/
def frostCores (s : State) (m : Memory) : Memory :=
  if s.lrs.active || s.fuses.lcs == 0 || decide (3 ≤ s.fuses.lcs) then
    frostItems m 0x0B00000 65536 ((List.range 4).map fun c => (c, (List.range 65536).map (Config.coreByte c)))
  else m

/-- The Frost area after a snapshot (R471). -/
def frostImage (s : State) (trigger : Nat) : Memory :=
  let m0 := memWriteN [] 0 (frostHeader s trigger)
  let m1 := s.fns.foldl (fun u p => frostItems u 0x0100000 16 (p.2.rings.map fun r => (256 * p.1 + r.1, frostRing s p.1 r.1 r.2))) m0
  let m2 := frostItems m1 0x0200000 64 (s.docket.entries.map fun p => (entryNumber s p.1, frostEntry s p.2))
  let m3 := s.ctxs.foldl (fun u p => frostItems u 0x0300000 16
    ((List.range p.2.syncCount).map fun i => (p.2.syncBase + i, frostSync s p.1 (p.2.syncBase + i)))) m2
  let m4 := frostItems m3 0x0400000 4096 ((List.range 96).map fun t => (t, frostTile s t))
  let m5 := frostItems m4 0x0500000 256 ((List.range 128).map fun p => (p, frostPc s p))
  let m6 := frostItems m5 0x0600000 64 ((List.range 96).map fun t => (t, (List.range 16).map (Config.meshCredit t)))
  let m7 := frostItems m6 0x0700000 16 (s.codecSlots.map fun p => (p.1, frostSlot s p.1 p.2))
  let m8 := frostItems m7 0x0800000 32 ((s.streams.filter fun p => decide (p.2.state ≠ .closed)).map fun p => (p.1, frostStream s p.1 p.2))
  let m9 := frostItems m8 0x0A00000 256 ((List.range 256).map fun c => (c, frostCtx s c))
  frostCores s m9

/-- A snapshot is taken at this tick and replaces the one before; it counts in FROST (R462, R471). -/
def takeFrost (s : State) (trigger : Nat) : State :=
  let s1 := bump s 0xC 1
  { s1 with
    frostMem := frostImage s1 trigger
    dbg := { s1.dbg with trigger := BitVec.ofNat 2 trigger, complete := false } }

/-- The snapshot is complete: SEQ holds FROST as it is now, so after a CLEAR made meanwhile (R475), and LENGTH the whole area. -/
def finishFrost (s : State) : State :=
  { s with
    frostMem := memWriteN (memWriteN s.frostMem 32 (leBytes 4 (counterOf s 0xC).value ++ leBytes 4 67108864)) 40 [1]
    dbg := { s.dbg with complete := true } }

/-! ### Freezes (R470, R473) -/

/-- Freezes the engine at this tick and takes a snapshot. -/
def freeze (s : State) (why : Freeze) (trigger : Nat) : State :=
  let s1 := takeFrost s trigger
  { s1 with dbg := { s1.dbg with frozen := some why, frozenAt := s.time.dtime } }

/-- The held writes are made in their order, then the ends of the functions that were orphaned meanwhile apply (R473). -/
def unfreeze (s : State) : State :=
  let ws := s.heldWrites
  let s1 := { s with dbg := { s.dbg with frozen := none }, heldWrites := [] }
  let s2 := ws.foldl (fun u w => hostWrite u w.address w.bytes) s1
  ((s2.fns.filter fun p => p.2.orphanAtThaw).map Prod.fst).foldl (fun u f =>
    endAllRequests (setFn u f { fnOf u f with orphanAtThaw := false }) f stCancelled) s2

end Sys2Proof.Machine
end

