-- ==== Sys2Proof/Machine/Stewards.lean ====
section
/-! DEFINITION. Steward firmware's own events (R427 to R441), the last-resort state, tile transients (R451, R452), Frost triggers
and Thaw (R469 to R475). -/

namespace Sys2Proof.Machine

/-! ### Components and the requests they carry (R427, R434) -/

/-- Number of a component in FW_LAST_RESTART.COMP. -/
def compCode : Component → Nat
  | .sup => 0
  | .tel => 1
  | .emu => 2
  | .adm => 3
  | .ldr => 4
  | .flm => 5
  | .sec => 6

/-- The core that a component is bound to. -/
def compCore : Component → Nat
  | .sup | .tel => 0
  | .emu => 1
  | .adm | .ldr => 2
  | .flm | .sec => 3

/-- Number of a cause in FW_LAST_RESTART.CAUSE. -/
def causeCode : RestartCause → Nat
  | .watchdog => 0
  | .protection => 1
  | .trap => 2

/-- A restart is counted, noted in FW_LAST_RESTART and logged (R434, R435, R458). -/
def noteRestart (s : State) (comp core cause : Nat) : State :=
  let s1 := logFault s 4 0 (comp + 32 * cause) 0 0
  { s1 with fw := { s1.fw with lastRestart := BitVec.ofNat 7 (comp + 8 * core + 32 * cause) } }

/-- The stewards run: firmware is up and the last-resort sequencer has not stopped them. -/
def stewardsRun (s : State) : Bool := ticking s && s.boot.stage == 5 && !s.lrs.active && !s.dbg.pendingStw

/-- Core c. -/
def coreOf (s : State) (c : Nat) : Core := s.fw.cores.getD c Core.reset

/-- COMPONENT_RESTART (R434). A component of a core that a debugger holds does not restart. -/
def componentRestart (s : State) (c : Component) (cause : RestartCause) : State :=
  if !stewardsRun s || (coreOf s (compCore c)).debugHalt then s
  else
    let s1 := noteRestart (dropCarried s [c]) (compCode c) (compCore c) (causeCode cause)
    let times := tblGetD s1.fw.compTimes (compCode c) []
    { s1 with fw := { s1.fw with
        comp := s1.fw.comp + 1, compTimes := tblPut s1.fw.compTimes (compCode c) (times ++ [now s]) } }

/-- Components of a core. -/
def coreComps (c : Nat) : List Component :=
  [Component.sup, .tel, .emu, .adm, .ldr, .flm, .sec].filter fun x => compCore x == c

/-- CORE_RESTART: SUP restarts a single stopped core other than core 0; a core that a debugger holds is not seen as stopped
(R435, R439). -/
def coreRestart (s : State) (c : Nat) : State :=
  let x := coreOf s c
  if !stewardsRun s || c == 0 || x.debugHalt then s
  else
    let s1 := noteRestart (dropCarried s (coreComps c)) 7 c 3
    { s1 with fw := { s1.fw with
        coreRestarts := s1.fw.coreRestarts + 1
        cores := s1.fw.cores.set c { x with stopped := false, restarts := x.restarts ++ [now s] } } }

/-! ### Steward reset (R436, R438) -/

/-- The stewards start again from the slot that the journal marks active; with none that starts, the ROM waits in recovery (R438,
R495, R496). HBUSY_N stays high, and admission is held (R366). -/
def rebootStewards (s : State) : State := bootRom { s with boot := { s.boot with stage := 0 } }

/-- Every channel in service moves to the rate and timing of FLS_RDTIM (R410). -/
def restoreTiming (s : State) : State :=
  (liveChannels s).foldl (fun u c => setFlashChan u c { flashChanOf u c with rate := s.flash.rate, timing := rdtimTiming s }) s

/-- The steward reset itself: a handover is dropped with its slot VALID, NAND operations are cut, the private SRAM is wiped and the
slot is started again; registers, contexts and leases stay, and carried requests end and retirements are told once the components have
started again (R422, R438, R448, R460, R532). -/
def stewardReset (s : State) : State :=
  let s0 := { s with dbg := { s.dbg with pendingStw := false }, fw := { s.fw with handover := none } }
  let s1 := logFault (restoreTiming (resetFlash s0)) 7 0 0 0 0
  let s2 := rebootStewards { s1 with
    stewardMem := []
    sec := { s1.sec with busy := false }
    fw := { s1.fw with
      faultStw := true, steward := s1.fw.steward + 1, compTimes := []
      cores := List.replicate 4 Core.reset, wdtEnd := BitVec.ofNat 64 (now s1 + 1000000 * s1.fw.wdt.toNat) } }
  if stewardsServe s2 then tellRetired (dropCarried s2 allComponents) else s2

/-- STEWARD_RESET: the device watchdog expires. With STWEN a Frost freezes the engine first, unless a freeze already stands
(R436, R469, R475); in the last-resort state it has no effect (R441). -/
def watchdogExpiry (s : State) : State :=
  if !stewardsRun s || decide (now s < s.fw.wdtEnd.toNat) then s
  else if s.dbg.stwEn && s.dbg.frozen.isNone then
    let s1 := freeze s .stwreset 3
    { s1 with dbg := { s1.dbg with pendingStw := true } }
  else stewardReset s

/-! ### The last-resort state (R440, R441) -/

/-- At least two bits of a mask, or bit 0. -/
def lastResortMask (n : Nat) : Nat := if (setBits n 4).length < 2 ∧ n % 2 = 0 then n + 1 else n

/-- LAST_RESORT_ENTRY: everything stops, a snapshot is written, FAULT_N and HBUSY_N are asserted. Which cores were marked stopped
is the outside's (a free value, log 4); on a trap of core 0 they are those that the state shows. -/
def lastResort (s : State) (trap : Bool) : State :=
  if !stewardsRun s && !(ticking s && s.boot.stage == 2 && !s.lrs.active) && !s.dbg.pendingStw then s
  else
    let r := drawNat s
    let shown := ((List.range 4).filter fun c => (coreOf s c).stopped).map fun c => 2 ^ c
    let mask := if trap then shown.sum else lastResortMask (r.1 % 16)
    let cause : BitVec 3 := if trap then 3 else if 2 ≤ (setBits mask 4).length then 1 else 2
    let s1 := { (if trap then s else r.2) with
      lrs := { s.lrs with
        active := true, cause := cause, stopped := BitVec.ofNat 4 mask, dtime := s.time.dtime, frostOk := true, frostErr := false
        frostLen := 67108864 }
      heldWrites := []
      fw := { s.fw with cores := s.fw.cores.mapIdx fun i c => { c with stopped := bitOf mask i } } }
    let s2 := finishFrost (freeze s1 .lrs 1)
    { s2 with dbg := { s2.dbg with pendingStw := false } }

/-! ### Frost triggers and Thaw (R469, R473, R475) -/

/-- What came due during a freeze applies at Thaw: the deadlines of requests that were not dispatched, then the timeouts (R473,
R475). -/
def applyDue (s : State) : State :=
  let s1 := (s.docket.entries.map Prod.fst).foldl deadlineMissed s
  (s1.docket.entries.map Prod.fst).foldl requestTimeout s1

/-- Thaw: the units resume, the held writes are made, and what came due applies (R473). -/
def thaw (s : State) : State := applyDue (unfreeze s)

/-- A write of DBG_FROST_CTRL: STWEN, LIMIT, TRIG and THAW. -/
def frostCtrl (s : State) (v : BitVec 32) : State :=
  let limit := v.extractLsb' 16 16
  let inRange := decide (1 ≤ limit.toNat) && decide (limit.toNat ≤ 10000)
  let trig := v.getLsbD 0
  let ends := v.getLsbD 1
  let isDebug := decide (s.dbg.frozen = some .debug)
  let s1 := { s with dbg := { s.dbg with stwEn := v.getLsbD 2, limit := if inRange then limit else s.dbg.limit } }
  let lost := !inRange || strayBits v 0xFFFF0007 || (trig && s.dbg.frozen.isSome) || (ends && !isDebug)
  let s2 := countIf lost s1 0
  if ends && isDebug then thaw s2
  else if trig && s.dbg.frozen.isNone then freeze s2 .debug 2
  else s2

/-- FROST_LIMIT_EXPIRY: LIMIT ms have passed since F. -/
def frostLimit (s : State) : State :=
  if s.dbg.frozen = some .debug ∧ s.dbg.frozenAt.toNat + 1000000 * s.dbg.limit.toNat ≤ now s then thaw s else s

/-- FROST_COMPLETE: the snapshot is written; an STWRESET freeze ends and the steward reset proceeds. -/
def frostComplete (s : State) : State :=
  if s.dbg.trigger = 0 ∨ s.dbg.complete then s
  else
    let s1 := finishFrost s
    if s.dbg.pendingStw then stewardReset (unfreeze s1) else s1

/-! ### Tiles and the fault status (R451, R452, R457) -/

/-- TILE_TRANSIENT: an error of a tile, its slice or its router that a retry cleared, or a retry that failed. -/
def tileTransient (s : State) (t : Nat) (what : TileEvent) : State :=
  match what with
  | .reread | .resend => transientTile s t
  | .storeFailed => failTile s t false
  | .sliceFailed | .hopFailed => failTile s t true

/-- A write of a mask to FW_FAULT_STATUS: 1 clears RETIRE and STWRESET (R457). -/
def clearFaultStatus (s : State) (v : BitVec 32) : State :=
  let s1 := { s with fw := { s.fw with
    faultRetire := s.fw.faultRetire && !v.getLsbD 0, faultStw := s.fw.faultStw && !v.getLsbD 1 } }
  countIf (strayBits v 3) s1 0

/-! ### The rows -/

/-- COMPONENT_RESTART (R434). -/
def execComponentRestart (c : Component) (cause : RestartCause) (s : State) : Host.Outcome State Fault Refusal :=
  .next (settleLive (componentRestart s c cause))

/-- CORE_RESTART (R435). -/
def execCoreRestart (core : BitVec 2) (s : State) : Host.Outcome State Fault Refusal :=
  .next (settleLive (coreRestart s core.toNat))

/-- STEWARD_RESET (R438). -/
def execStewardReset (s : State) : Host.Outcome State Fault Refusal := .next (settleLive (watchdogExpiry s))

/-- LAST_RESORT_ENTRY (R440). -/
def execLastResortEntry (trap : Bool) (s : State) : Host.Outcome State Fault Refusal := .next (lastResort s trap)

/-- TILE_TRANSIENT (R451, R452). -/
def execTileTransient (t : Fin 96) (what : TileEvent) (s : State) : Host.Outcome State Fault Refusal :=
  hbmRow s fun u => tileTransient u t.val what

/-- FAULT_STATUS_CLEAR (R457). -/
def execFaultStatusClear (fn : BitVec 8) (mask : BitVec 32) (s : State) : Host.Outcome State Fault Refusal :=
  .next (pfWrite s fn.toNat fun u => clearFaultStatus u mask)

/-- DEBUG_FROST (R469). -/
def execDebugFrost (fn : BitVec 8) (value : BitVec 32) (s : State) : Host.Outcome State Fault Refusal :=
  .next (pfWrite s fn.toNat fun u => settleLive (frostCtrl u value))

/-- THAW (R473). -/
def execThaw (fn : BitVec 8) (value : BitVec 32) (s : State) : Host.Outcome State Fault Refusal :=
  .next (pfWrite s fn.toNat fun u => settleLive (frostCtrl u value))

/-- FROST_LIMIT_EXPIRY (R473). -/
def execFrostLimitExpiry (s : State) : Host.Outcome State Fault Refusal := .next (settleLive (frostLimit s))

/-- FROST_COMPLETE (R471, R473). -/
def execFrostComplete (s : State) : Host.Outcome State Fault Refusal := .next (settleLive (frostComplete s))

end Sys2Proof.Machine
end

