-- ==== Sys2Proof/Machine/Registers.lean ====
section
/-! DEFINITION. The registers of BAR0 (R338, R339, R524 to R533): what each reads, and what a write of each does. The registers that
start an action share the operation of their own row. -/

namespace Sys2Proof.Machine

/-! ### Values that registers show -/

/-- A 32-bit register value. -/
def reg (n : Nat) : BitVec 32 := BitVec.ofNat 32 n

/-- Bit 0 or 1. -/
def bit (b : Bool) : Nat := if b then 1 else 0

/-- A count that saturates at 255. -/
def sat255 (n : Nat) : Nat := min n 255

/-- Bit j of word i of a map of retired units: unit 32 i + j is listed. -/
def mapWord (units : List Nat) (i : Nat) : Nat := ((List.range 32).map fun j => if units.contains (32 * i + j) then 2 ^ j else 0).sum

/-- A transient limit register: LIMIT and WINDOW. -/
def limitWord (limit : BitVec 8) (window : BitVec 14) : Nat := limit.toNat + 2 ^ 8 * window.toNat

/-- HIF_STATUS.LEFT: ms to the end of the lease, s to the end of grace, rounded up (R369); the timers stand still in the last-resort state (R373). -/
def leftField (s : State) (f : Nat) : Nat :=
  let x := fnOf s f
  match x.state with
  | .attached => min 65535 ((x.leaseEnd.toNat - timerNow s + 999999) / 1000000)
  | .orphaned => (x.graceEnd.toNat - timerNow s + 999999999) / 1000000000
  | .detached => 0

/-- HIF_STATUS. -/
def hifStatus (s : State) (f : Nat) : Nat :=
  let x := fnOf s f
  (match x.state with | .detached => 0 | .attached => 1 | .orphaned => 2) + 4 * bit (ctxOf s f).isSome + 8 * bit (ready s) +
    16 * bit (!fetchOpen s f) + 32 * bit x.attachPend + 64 * bit s.lrs.active + 2 ^ 16 * leftField s f

/-- HIF_ID (R527). -/
def hifId (s : State) (f : Nat) : Nat := f + 2 ^ 8 * bit s.fuses.code + 2 ^ 12 * s.fuses.rev.toNat + 2 ^ 16 * 0x9600

/-- HIF_BOOT (R494). -/
def hifBoot (s : State) : Nat :=
  s.boot.stage.toNat + 16 * bit s.boot.slot + 32 * bit s.boot.fallback + 2 ^ 8 * s.boot.err.toNat

/-- LRS_STATUS (R441). -/
def lrsStatus (s : State) : Nat :=
  bit s.lrs.active + 2 * s.lrs.cause.toNat + 16 * s.lrs.stopped.toNat + 2 ^ 8 * bit s.lrs.frostOk + 2 ^ 9 * bit s.lrs.frostErr

/-- FW_HEALTH (R435, R437). -/
def fwHealth (s : State) : Nat :=
  ((List.range 4).map fun c =>
    match s.fw.cores[c]? with | some k => if k.stopped || k.debugHalt then 0 else 2 ^ c | none => 0).sum +
    2 ^ 8 * sat255 s.fw.comp + 2 ^ 16 * sat255 s.fw.coreRestarts + 2 ^ 24 * sat255 s.fw.steward

/-- FW_FAULT_STATUS (R457). -/
def fwFaultStatus (s : State) : Nat :=
  bit s.fw.faultRetire + 2 * bit s.fw.faultStw + 4 * bit s.fw.devLoss + 2 ^ 8 * sat255 s.retired.total

/-- The 32 bytes of fault-log record q; zeros when the ring no longer holds it (R458). -/
def logRecord (s : State) (q : Nat) : List Byte := (tblGet s.fw.log q).getD (leBytes 32 0)

/-- SEQ of the newest fault-log record; 0 before the first (log 42). -/
def newestSeq (s : State) : Nat := if s.fw.logSeq = 0 ∧ s.fw.log.isEmpty then 0 else (s.fw.logSeq - 1).toNat

/-- Steward debug access is open: in BLANK, RETURN and SCRAPPED (R403). -/
def debugOpen (s : State) : Bool := s.fuses.lcs == 0 || s.fuses.lcs == 3 || s.fuses.lcs == 4

/-- Transient events that count in a unit's window now. -/
def windowCount (s : State) (window : BitVec 14) (times : List Nat) : Nat := sat255 (inWindow (now s) window times).length

/-- HBM_PC_STATE (R332). -/
def pcState (s : State) (p : Nat) : Nat :=
  let x := pcOf s p
  (if x.retired then 2 else if pcHeld s p then 1 else 0) + 4 * x.cause.toNat + 2 ^ 8 * (((s.hbm.temps[p / 32]?).join).getD 0).toNat +
    2 ^ 16 * windowCount s s.hbm.transWindow x.transient

/-- FLS_CH_STATE (R425). -/
def flsChState (s : State) (c : Nat) : Nat :=
  let x := flashChanOf s c
  (if x.retired then 1 else if x.switching then 2 else 0) + 4 * x.cause.toNat +
    2 ^ 8 * windowCount s s.flash.transWindow x.transient + 2 ^ 16 * x.susp.toNat

/-- The code of a block state (R416). -/
def BlockState.code : BlockState → Nat
  | .erased => 0
  | .opened => 1
  | .full => 2
  | .erasePending => 3
  | .damaged => 4
  | .bad => 5

/-- FLS_LBLK_STATE (R416). -/
def lblkState (s : State) (g : Nat) : Nat :=
  let b := libBlockOf s g
  b.state.code + 8 * b.chmask.toNat + 2 ^ 11 * bit (blockUsed s g) + 2 ^ 12 * (b.wp % 2 ^ 15)

/-- SPN_PORT_STATEp (R488). -/
def spnPortState (s : State) (p : Bool) : Nat :=
  let x := portOf s p
  x.state.toNat + 4 * x.cause.toNat + 2 ^ 8 * windowCount s s.span.transWindow x.transient

/-- FW_SLOTn_STATE (R443). -/
def fwSlotState (x : FwSlot) : Nat :=
  (match x.state with | .empty => 0 | .writing => 1 | .valid => 2 | .invalid => 3) + 4 * bit x.active + 16 * x.chmask.toNat

/-- COD_SLOT_FLAGS of slot i of context c (R296, R298). -/
def codFlags (s : State) (c i : Nat) : Nat :=
  let waits := s.docket.entries.any fun p =>
    decide (p.2.hdr.fn.toNat = c) && p.2.due && (match p.2.cmd with | .tableLoad b => b.slot.toNat == i | _ => false)
  match ctxSlot s c i with
  | none => 0
  | some sl =>
    let held (o : Option Generation) : Bool := match o with | some g => decide (genRefs s g.serial ≠ 0) | none => false
    bit (held sl.cur) + 2 * bit (held sl.prev) + 4 * bit waits +
      8 * (match sl.cur with | some g => g.npc.toNat | none => 0)

/-- COD_SLOT_STATE of slot i of context c. -/
def codState (s : State) (c i : Nat) : Nat :=
  let num (o : Option Generation) : Nat := match o with | some g => g.gen | none => 0
  match ctxSlot s c i with
  | some sl => num sl.cur + 2 ^ 16 * num sl.prev
  | none => 0

/-- Streams of a context in some states. -/
def streamCount (s : State) (c : Nat) (p : StreamState → Bool) : Nat :=
  (s.streams.filter fun q => decide (q.2.ctx = c) && p q.2.state).length

/-- Word j of a host window: BASE_LO, BASE_HI, PAGES, CTRL (R266). -/
def hwinWord (w : HWin) (j : Nat) : Nat :=
  if j = 0 then w.base.toNat % 2 ^ 32
  else if j = 1 then w.base.toNat / 2 ^ 32
  else if j = 2 then w.pages.toNat
  else bit w.en + 2 * bit w.w + 8 * bit w.busyEpoch.isSome

/-- A pool register: FREE, RESV, RTGT, QUOTA (R192). -/
def poolWord (p : Pool) (j : Nat) : Nat :=
  if j = 0 then p.free.length else if j = 1 then p.resv.length else if j = 2 then p.rtgt else p.quota

/-- A Harvest policy register (R198). -/
def policyWord (p : Profile) : Nat :=
  p.sink.toNat + 2 ^ 8 * p.recent.toNat + 2 ^ 20 * p.decay.toNat + 2 ^ 24 * p.cslack.toNat + 2 ^ 28 * bit p.gevict

/-! ### Reads -/

/-- Per-context registers of the context bound to the function (R525, R526). -/
def readCtx (s : State) (f o : Nat) (x : Ctx) : Nat :=
  if o = 0x210020 then x.weight.toNat + 2 ^ 8 * bit x.rtok + 2 ^ 16 * x.dquota
  else if o = 0x210200 then x.syncCount
  else if o = 0x210204 then x.tpFault.toNat
  else if o = 0x210208 then x.jobFault.toNat
  else if o = 0x220000 then x.mmuAddr % 2 ^ 32
  else if o = 0x220004 then x.mmuAddr / 2 ^ 32
  else if o = 0x220008 then x.mmuInfo.toNat
  else if o = 0x220010 then x.ltLimit.toNat
  else if 0x220100 ≤ o ∧ o < 0x220120 then poolWord (x.pool (decide (0x220110 ≤ o))) (o % 16 / 4)
  else if 0x220200 ≤ o ∧ o < 0x220300 then hwinWord (tblGetD x.hwins ((o - 0x220200) / 16) HWin.reset) (o % 16 / 4)
  else if o = 0x230040 then 4 * bit (oldGen s f) + 2 ^ 16 * (x.drbg.gen % 2 ^ 16)
  else if 0x230100 ≤ o ∧ o < 0x230120 then
    let p := x.profiles.getD ((o - 0x230100) / 8) Profile.reset
    if o % 8 = 0 then p.budget.toNat else policyWord p
  else if o = 0x240000 then x.streamQuota
  else if o = 0x240004 then streamCount s f fun st => decide (st ≠ .closed)
  else if o = 0x240008 then streamCount s f fun st => decide (st = .fallow)
  else if o = 0x250000 then x.slotCount
  else if o = 0x250004 then (fnOf s f).codSel.toNat
  else if o = 0x250008 then codState s f (fnOf s f).codSel.toNat
  else if o = 0x25000C then codFlags s f (fnOf s f).codSel.toNat
  else 0

/-- Emulated registers that every function has (R525: Fn and All). -/
def readFn (s : State) (f o : Nat) : Nat :=
  let x := fnOf s f
  let r := ringOf s f x.ringSel.toNat
  let mine (n : Nat) : Bool := isCounter n && (f == 0 || counterOwner n == f) && (f == 0 || decide (0x2000 ≤ n))
  if o = 0x200000 then x.ringSel.toNat
  else if o = 0x200004 then r.base.toNat % 2 ^ 32
  else if o = 0x200008 then r.base.toNat / 2 ^ 32
  else if o = 0x20000C then r.idx.toNat % 2 ^ 32
  else if o = 0x200010 then r.idx.toNat / 2 ^ 32
  else if o = 0x200014 then r.kind.toNat + 2 ^ 8 * r.log2n.toNat + 2 ^ 16 * r.cq.toNat
  else if o = 0x200018 then r.vector.toNat + 2 ^ 15 * bit r.ien + 2 ^ 16 * r.count.toNat + 2 ^ 24 * r.time.toNat
  else if o = 0x20001C then 4 * bit r.en + 8 * bit r.busy + 16 * r.err.toNat
  else if o = 0x200020 then 2 * x.eventMask.toNat
  else if o = 0x280000 then s.fw.version.toNat
  else if o = 0x280004 then bit s.fw.slot + 2 * bit s.fw.handover.isSome
  else if o = 0x290000 then s.fuses.lcs.toNat + 16 * s.fuses.kepoch.toNat + 2 ^ 8 * bit (debugOpen s)
  else if o = 0x2A0000 then x.cntSel.toNat
  else if o = 0x2A0004 then (if mine x.cntSel.toNat then (counterOf s x.cntSel.toNat).value % 2 ^ 32 else 0)
  else if o = 0x2A0008 then x.cntHi.toNat
  else if o = 0x2A000C then (if mine x.cntSel.toNat then 2 * bit (counterOf s x.cntSel.toNat).evten else 0)
  else if o = 0x2A0040 then x.traceBase.toNat % 2 ^ 32
  else if o = 0x2A0044 then x.traceBase.toNat / 2 ^ 32
  else if o = 0x2A0048 then bit x.traceEn + 2 * bit x.traceFrames + 2 ^ 8 * x.traceLog2n.toNat
  else if o = 0x2A004C then x.traceCount.toNat
  else if o = 0x2B0000 then s.span.chip.toNat + 2 ^ 16 * s.span.spanId.toNat
  else if o = 0x2C0004 then
    s.power.freq.toNat + 2 ^ 11 * s.power.tiles.toNat + 2 ^ 18 * s.power.watts.toNat + 2 ^ 28 * bit s.power.floor
  else if o = 0x2C000C then s.power.tj.toNat + 2 ^ 8 * s.power.thbm.toNat + 2 ^ 16 * bit s.power.throttle
  else if o = 0x2D0000 then now s % 2 ^ 32
  else if o = 0x2D0004 then x.dtimeHi.toNat
  else if o = 0x2D0018 then
    bit s.time.locked + 4 * (s.time.nign % 8) + 2 ^ 5 * (s.time.nmiss % 8) + 2 ^ 8 * bit s.time.hold
  else if o = 0x2D001C then s.time.period
  else if o = 0x2D0020 then s.time.frameNum.toNat
  else if o = 0x2D0024 then phaseOf s
  else if o = 0x2D0030 then s.time.eqxOffset.toNat % 2 ^ 32
  else if o = 0x2D0034 then x.eqxHi.toNat
  else if o = 0x2D0038 then bit (s.time.eqxValid && s.span.active) + 2 ^ 16 * s.time.eqxErr.toNat
  else 0

/-- PF-only registers of the scheduling, memory and flash blocks. -/
def readPfLow (s : State) (o : Nat) : Nat :=
  let x := fnOf s 0
  if o = 0x210000 then s.almanac.base.toNat % 2 ^ 32
  else if o = 0x210004 then s.almanac.base.toNat / 2 ^ 32
  else if o = 0x210008 then
    2 * bit s.almanac.queued.isSome + 4 * bit s.almanac.checking.isSome + 2 ^ 8 * s.almanac.err.toNat +
      2 ^ 16 * s.almanac.gen.toNat
  else if o = 0x210010 then s.sched.ageIA.toNat
  else if o = 0x210014 then s.sched.ageBK.toNat
  else if o = 0x210018 then s.sched.panicLead.toNat + 2 ^ 31 * bit s.sched.panicEn
  else if o = 0x210030 then limitWord s.sched.tileLimit s.sched.tileWindow
  else if 0x210040 ≤ o ∧ o < 0x21004C then mapWord s.retired.tiles ((o - 0x210040) / 4)
  else if o = 0x220300 then storeCount s false
  else if o = 0x220304 then storeCount s true
  else if o = 0x260000 then s.hbm.rate.toNat
  else if o = 0x260004 then s.hbm.idle.toNat + 2 ^ 16 * s.hbm.policy.toNat
  else if o = 0x260008 then s.hbm.ageLimit.toNat
  else if o = 0x26000C then limitWord s.hbm.transLimit s.hbm.transWindow
  else if o = 0x260010 then s.hbm.retrainPeriod.toNat + 2 ^ 16 * s.hbm.retrainDelta.toNat
  else if o = 0x260014 then
    bit s.hbm.retraining.isSome + 2 * s.hbm.retrainChan.toNat + 2 ^ 16 * s.hbm.retrainCount.toNat
  else if o = 0x260018 then x.pcSel.toNat
  else if o = 0x26001C then pcState s x.pcSel.toNat
  else if 0x260020 ≤ o ∧ o < 0x260030 then mapWord s.retired.pcs ((o - 0x260020) / 4)
  else if o = 0x270000 then
    s.flash.tgt.toNat + 4 * s.flash.lun.toNat + 16 * s.flash.nrl.toNat + 2 ^ 8 * s.flash.upb.toNat
  else if o = 0x270004 then s.flash.nlb.toNat
  else if o = 0x270008 then
    s.flash.rate.toNat + 2 ^ 4 * s.flash.rlat.toNat + 2 ^ 10 * s.flash.rpre.toNat + 2 ^ 12 * s.flash.odt.toNat +
      2 ^ 17 * bit (s.flash.chans.any fun c => c.2.switching)
  else if o = 0x27000C then limitWord s.flash.transLimit s.flash.transWindow
  else if o = 0x270010 then x.flsChSel.toNat
  else if o = 0x270014 then flsChState s x.flsChSel.toNat
  else if o = 0x270018 then mapWord s.retired.flash 0
  else if o = 0x27001C then x.lblkSel.toNat
  else if o = 0x270020 then lblkState s x.lblkSel.toNat
  else 0

/-- PF-only registers of the stewards, the security block, Frost, the Span, power and frame time. -/
def readPfHigh (s : State) (o : Nat) : Nat :=
  let x := fnOf s 0
  if o = 0x280010 then fwSlotState s.fw.slotA
  else if o = 0x280014 then s.fw.slotA.version.toNat
  else if o = 0x280018 then fwSlotState s.fw.slotB
  else if o = 0x28001C then s.fw.slotB.version.toNat
  else if o = 0x280020 then s.fw.wdt.toNat
  else if o = 0x280024 then fwHealth s
  else if o = 0x280028 then s.fw.lastRestart.toNat
  else if o = 0x280040 then fwFaultStatus s
  else if o = 0x280048 then x.logSel.toNat
  else if o = 0x28004C then newestSeq s
  else if 0x280050 ≤ o ∧ o < 0x280070 then fieldAt (logRecord s x.logSel.toNat) (o - 0x280050) 4
  else if 0x290010 ≤ o ∧ o < 0x290030 then fieldAt s.sec.nonce (o - 0x290010) 4
  else if o = 0x290030 then s.sec.authAddr.toNat % 2 ^ 32
  else if o = 0x290034 then s.sec.authAddr.toNat / 2 ^ 32
  else if o = 0x290038 then
    s.sec.op.toNat + 4 * s.sec.toLcs.toNat + 2 ^ 6 * bit s.sec.busy + 2 ^ 8 * s.sec.err.toNat
  else if o = 0x2A0020 then 4 * bit s.dbg.stwEn + 2 ^ 16 * s.dbg.limit.toNat
  else if o = 0x2A0024 then bit s.dbg.frozen.isSome + 2 * s.dbg.trigger.toNat + 8 * bit s.dbg.complete
  else if o = 0x2B0004 then 8 * bit s.span.active
  else if o = 0x2B0008 then s.span.refChip.toNat
  else if o = 0x2B0050 then s.span.rto.toNat + 2 ^ 16 * s.span.retries.toNat
  else if o = 0x2B0054 then limitWord s.span.transLimit s.span.transWindow
  else if o = 0x2B0058 then spnPortState s false
  else if o = 0x2B005C then spnPortState s true
  else if o = 0x2B0060 then mapWord s.retired.ports 0
  else if o = 0x2C0000 then s.power.cap.toNat
  else if o = 0x2D0010 then s.time.periodReg.toNat
  else if o = 0x2D0014 then bit s.time.en
  else 0

/-- Offsets of per-context registers. -/
def isCtxReg (o : Nat) : Bool :=
  [0x210020, 0x210200, 0x210204, 0x210208, 0x220000, 0x220004, 0x220008, 0x220010, 0x230040, 0x240000, 0x240004, 0x240008,
   0x250000, 0x250004, 0x250008, 0x25000C].contains o ||
    (o % 4 == 0 && ((decide (0x220100 ≤ o) && decide (o < 0x220120)) || (decide (0x220200 ≤ o) && decide (o < 0x220300)) ||
      (decide (0x230000 ≤ o) && decide (o < 0x230040)) || (decide (0x230100 ≤ o) && decide (o < 0x230120))))

/-- A read of an emulated register as EMU serves it, without the latches that a read of LO sets (R430, R526). -/
def readEmu (s : State) (f o : Nat) : Nat :=
  if isCtxReg o then
    match ctxOf s f with
    | some x => if x.destroying then 0 else readCtx s f o x
    | none => 0
  else
    let a := readFn s f o
    if f ≠ 0 then a else a + readPfLow s o + readPfHigh s o

/-- HIF hardware registers and the last-resort block. -/
def readHw (s : State) (f o : Nat) : Nat :=
  let x := fnOf s f
  if o = 0x100000 then x.leasePeriod.toNat + 2 ^ 16 * x.grace.toNat
  else if o = 0x100004 then hifStatus s f
  else if o = 0x100020 then hifId s f
  else if f ≠ 0 then 0
  else if o = 0x10000C then hifBoot s
  else if o = 0x100010 then s.boot.recovAddr.toNat % 2 ^ 32
  else if o = 0x100014 then s.boot.recovAddr.toNat / 2 ^ 32
  else if o = 0x110000 then lrsStatus s
  else if o = 0x110004 then s.lrs.dtime.toNat % 2 ^ 32
  else if o = 0x110008 then s.lrs.dtime.toNat / 2 ^ 32
  else if o = 0x11000C then s.lrs.frostLen.toNat
  else if o = 0x110014 then s.lrs.frostPage.toNat
  else 0

/-- MSI-X vectors of a function (R335). -/
def vectorsOf (f : Nat) : Nat := if f = 0 then 2048 else 64

/-- Word j of an MSI-X table entry (base specification, log 18). -/
def msixWord (m : Msix) (j : Nat) : Nat :=
  if j = 0 then m.address.toNat % 2 ^ 32
  else if j = 1 then m.address.toNat / 2 ^ 32
  else if j = 2 then m.data.toNat
  else bit m.masked

/-- A read of a doorbell page (R347). -/
def readDoorbell (s : State) (f o : Nat) : Nat :=
  let r := ringOf s f (o / 4096)
  if !r.en then 0 else if o % 4096 = 0 then r.host.toNat else if o % 4096 = 4 then r.own.toNat else 0

/-- A 32-bit read of BAR0 of a function; the Frost window shows nothing before its wipe has finished (R6, R338, R339, R367). -/
def readReg (s : State) (f o : Nat) : BitVec 32 :=
  let v := vectorsOf f
  if o % 4 ≠ 0 ∨ !barOpen s f then 0
  else if o < 0x100000 then reg (readDoorbell s f o)
  else if o < 0x120000 then reg (readHw s f o)
  else if o < 0x120000 + 16 * v then reg (msixWord (tblGetD (fnOf s f).msix ((o - 0x120000) / 16) Msix.reset) (o % 16 / 4))
  else if 0x130000 ≤ o ∧ o < 0x130000 + v / 8 then
    reg (mapWord (((fnOf s f).msix.filter fun p => p.2.pending).map Prod.fst) ((o - 0x130000) / 4))
  else if 0x200000 ≤ o ∧ o < 0x400000 then
    (if ready s && stewardsServe s then reg (readEmu s f o) else 0)
  else if 0x400000 ≤ o ∧ o < 0x800000 ∧ f = 0 ∧ (s.boot.released ∨ s.lrs.active) then
    reg (memNat s.frostMem (2 ^ 22 * s.lrs.frostPage.toNat + (o - 0x400000)) 4)
  else 0

/-- A read of BAR0 by its size: 32 bits aligned to 4 bytes anywhere, 64 bits aligned to 8 bytes in the MSI-X table; every other one
reads 0 (R339). -/
def readAccess (s : State) (f o : Nat) (size : AccessSize) : BitVec 64 :=
  match size with
  | .b32 => (readReg s f o).setWidth 64
  | .b64 =>
    if o % 8 = 0 ∧ 0x120000 ≤ o ∧ o < 0x120000 + 16 * vectorsOf f then readReg s f (o + 4) ++ readReg s f o else 0
  | _ => 0

/-! ### Writes -/

/-- The two halves of a 64-bit address. -/
def setLo (a : Word64) (v : BitVec 32) (mask : Nat) : Word64 :=
  BitVec.ofNat 64 (a.toNat / 2 ^ 32 * 2 ^ 32 + (v.toNat &&& mask))
def setHi (a : Word64) (v : BitVec 32) (mask : Nat) : Word64 :=
  BitVec.ofNat 64 (a.toNat % 2 ^ 32 + 2 ^ 32 * (v.toNat &&& mask))

/-- A write of a transient limit register: each field takes effect when it is in range. Answers the values and whether a part was
ignored. -/
def limitWrite (limit : BitVec 8) (window : BitVec 14) (v : BitVec 32) : BitVec 8 × BitVec 14 × Bool :=
  let l := v.extractLsb' 0 8
  let w := v.extractLsb' 8 14
  let okL := decide (2 ≤ l.toNat)
  let okW := decide (10 ≤ w.toNat) && decide (w.toNat ≤ 10000)
  (if okL then l else limit, if okW then w else window, !okL || !okW || strayBits v 0x3FFFFF)

/-- A W1C record of bit 15: writing 1 clears the whole record (R106, R273, R450). -/
def clearRecord (v : BitVec 32) : Bool := v.getLsbD 15

/-- A write of a DRBG seed word (R151). -/
def seedWrite (s : State) (f i : Nat) (v : BitVec 32) : State :=
  modCtx s f fun k => { k with drbg := { k.drbg with words := k.drbg.words.set i v } }

/-- A write of MMU_HWINn_BASE or PAGES; ignored while BUSY (R266, R529). -/
def hwinField (s : State) (f n j : Nat) (v : BitVec 32) (x : Ctx) : State :=
  let w := tblGetD x.hwins n HWin.reset
  let put (y : HWin) : State := modCtx s f fun k => { k with hwins := tblPut k.hwins n y }
  if w.busyEpoch.isSome then ignored s f
  else if j = 0 then countIf (strayBits v 0xFFFF0000) (put { w with base := setLo w.base v 0xFFFF0000 }) f
  else if j = 1 then put { w with base := setHi w.base v 0xFFFFFFFF }
  else
    let p := v.extractLsb' 0 25
    if 16777216 < p.toNat then ignored s f else countIf (strayBits v 0x1FFFFFF) (put { w with pages := p }) f

/-- A write of a Harvest profile (R198). -/
def profileWrite (s : State) (f o : Nat) (v : BitVec 32) (x : Ctx) : State :=
  let n := (o - 0x230100) / 8
  let p := x.profiles.getD n Profile.reset
  let put (y : Profile) : State := modCtx s f fun k => { k with profiles := k.profiles.set n y }
  if o % 8 = 0 then
    let b := v.extractLsb' 0 17
    if 65536 < b.toNat then ignored s f else countIf (strayBits v 0x1FFFF) (put { p with budget := b }) f
  else
    let d := v.extractLsb' 20 4
    let y := { p with
      sink := v.extractLsb' 0 8, recent := v.extractLsb' 8 12, decay := if d = 0 then p.decay else d
      cslack := v.extractLsb' 24 4, gevict := v.getLsbD 28 }
    countIf (decide (d = 0) || strayBits v 0x1FFFFFFF) (put y) f

/-- A write of a per-context register of a context that is alive. -/
def writeCtx (s : State) (f o : Nat) (v : BitVec 32) (x : Ctx) : State :=
  let stray := strayBits v 0x8000
  if o = 0x210204 then countIf stray (if clearRecord v then modCtx s f fun k => { k with tpFault := 0 } else s) f
  else if o = 0x210208 then countIf stray (if clearRecord v then modCtx s f fun k => { k with jobFault := 0 } else s) f
  else if o = 0x220008 then
    countIf stray (if clearRecord v then modCtx s f fun k => { k with mmuInfo := 0, mmuAddr := 0 } else s) f
  else if o = 0x220010 then
    let n := v.toNat % 2 ^ 20
    if n < 100 ∨ 1000000 < n then ignored s f
    else countIf (strayBits v 0xFFFFF) (modCtx s f fun k => { k with ltLimit := BitVec.ofNat 20 n }) f
  else if 0x220200 ≤ o ∧ o < 0x220300 then hwinField s f ((o - 0x220200) / 16) (o % 16 / 4) v x
  else if 0x230000 ≤ o ∧ o < 0x230040 then seedWrite s f ((o - 0x230000) / 4) v
  else if 0x230100 ≤ o ∧ o < 0x230120 then profileWrite s f o v x
  else if o = 0x250004 then
    let n := v.toNat % 2 ^ 9
    if x.slotCount ≤ n then ignored s f
    else countIf (strayBits v 0x1FF) (setFn s f { fnOf s f with codSel := BitVec.ofNat 9 n }) f
  else ignored s f

/-- A write of a register of the selected ring; all but HIF_RING_MOD are ignored while the ring is enabled (R340, R529). -/
def ringWriteReg (s : State) (f o : Nat) (v : BitVec 32) : State :=
  let i := (fnOf s f).ringSel.toNat
  let r := ringOf s f i
  if o = 0x200018 then
    let c := v.extractLsb' 16 8
    countIf (decide (c = 0) || strayBits v 0xFFFF87FF)
      (setRing s f i { r with
        vector := v.extractLsb' 0 11, ien := v.getLsbD 15, count := if c = 0 then r.count else c
        time := v.extractLsb' 24 8 }) f
  else if r.en then ignored s f
  else if o = 0x200004 then countIf (strayBits v 0xFFFFF000) (setRing s f i { r with base := setLo r.base v 0xFFFFF000 }) f
  else if o = 0x200008 then setRing s f i { r with base := setHi r.base v 0xFFFFFFFF }
  else if o = 0x20000C then countIf (strayBits v 0xFFFFFFF8) (setRing s f i { r with idx := setLo r.idx v 0xFFFFFFF8 }) f
  else if o = 0x200010 then setRing s f i { r with idx := setHi r.idx v 0xFFFFFFFF }
  else
    countIf (strayBits v 0x00FF1F03)
      (setRing s f i { r with kind := v.extractLsb' 0 2, log2n := v.extractLsb' 8 5, cq := v.extractLsb' 16 8 }) f

/-- The selected counter belongs to the function, or the function is the PF (R462, R464). -/
def counterMine (s : State) (f : Nat) : Bool :=
  let n := (fnOf s f).cntSel.toNat
  isCounter n && (f == 0 || (decide (0x2000 ≤ n) && counterOwner n == f))

/-- A write of DBG_CNT_CTRL: CLEAR and EVTEN of the selected counter (R464, R465). -/
def counterCtrl (s : State) (f : Nat) (v : BitVec 32) : State :=
  let n := (fnOf s f).cntSel.toNat
  if !counterMine s f then ignored s f
  else
    let c := counterOf s n
    let c1 := if v.getLsbD 0 then { c with value := 0, sat := false } else c
    countIf (strayBits v 3) (setCounter s n { c1 with evten := v.getLsbD 1 }) f

/-- A write of DBG_TRACE_CTRL (R467, R529). -/
def traceCtrl (s : State) (f : Nat) (v : BitVec 32) : State :=
  let x := fnOf s f
  let l := v.extractLsb' 8 5
  let ok := !x.traceEn && decide (6 ≤ l.toNat) && decide (l.toNat ≤ 20)
  let y := { x with
    traceEn := v.getLsbD 0, traceFrames := v.getLsbD 1, traceLog2n := if ok then l else x.traceLog2n
    traceCount := if v.getLsbD 0 && !x.traceEn then 0 else x.traceCount }
  countIf (!ok || strayBits v 0x1F03) (setFn s f y) f

/-- A write of an emulated register that every function has. -/
def writeFn (s : State) (f o : Nat) (v : BitVec 32) : State :=
  let x := fnOf s f
  if o = 0x200000 then countIf (strayBits v 0xFF) (setFn s f { x with ringSel := v.extractLsb' 0 8 }) f
  else if 0x200004 ≤ o ∧ o ≤ 0x200018 then ringWriteReg s f o v
  else if o = 0x20001C then ringCtrl s f v
  else if o = 0x200020 then
    countIf (strayBits v 0xFFE) (setFn s f { x with eventMask := v.extractLsb' 1 11 ||| 0x400 }) f
  else if o = 0x2A0000 then countIf (strayBits v 0xFFFF) (setFn s f { x with cntSel := v.extractLsb' 0 16 }) f
  else if o = 0x2A000C then counterCtrl s f v
  else if o = 0x2A0040 then
    countIf (strayBits v 0xFFFFF000) (setFn s f { x with traceBase := setLo x.traceBase v 0xFFFFF000 }) f
  else if o = 0x2A0044 then setFn s f { x with traceBase := setHi x.traceBase v 0xFFFFFFFF }
  else if o = 0x2A0048 then traceCtrl s f v
  else ignored s f

/-- A write of a PF-only register of the scheduling, memory and flash blocks. -/
def writePfLow (s : State) (o : Nat) (v : BitVec 32) : State :=
  let x := fnOf s 0
  let n := v.toNat
  if o = 0x210000 then
    countIf (strayBits v 0xFFFFFFC0) { s with almanac := { s.almanac with base := setLo s.almanac.base v 0xFFFFFFC0 } } 0
  else if o = 0x210004 then
    countIf (strayBits v 0xFFFF) { s with almanac := { s.almanac with base := setHi s.almanac.base v 0xFFFF } } 0
  else if o = 0x210008 then almanacCtrl s v
  else if o = 0x210010 ∨ o = 0x210014 then
    if n < 100 ∨ 4000000 < n then ignored s 0
    else if o = 0x210010 then { s with sched := { s.sched with ageIA := v } }
    else { s with sched := { s.sched with ageBK := v } }
  else if o = 0x210018 then
    countIf (strayBits v 0x80FFFFFF)
      { s with sched := { s.sched with panicLead := v.extractLsb' 0 24, panicEn := v.getLsbD 31 } } 0
  else if o = 0x210030 then
    let r := limitWrite s.sched.tileLimit s.sched.tileWindow v
    countIf r.2.2 { s with sched := { s.sched with tileLimit := r.1, tileWindow := r.2.1 } } 0
  else if o = 0x260000 then
    if n % 4 = 3 then ignored s 0
    else countIf (strayBits v 3) { s with hbm := { s.hbm with rate := v.extractLsb' 0 2 } } 0
  else if o = 0x260004 then
    let i := v.extractLsb' 0 16
    let p := v.extractLsb' 16 2
    countIf (decide (i.toNat < 10) || decide (p = 3) || strayBits v 0x3FFFF)
      { s with hbm := { s.hbm with
          idle := if i.toNat < 10 then s.hbm.idle else i, policy := if p = 3 then s.hbm.policy else p } } 0
  else if o = 0x260008 then
    let l := v.extractLsb' 0 17
    if l.toNat < 500 ∨ 100000 < l.toNat then ignored s 0
    else countIf (strayBits v 0x1FFFF) { s with hbm := { s.hbm with ageLimit := l } } 0
  else if o = 0x26000C then
    let r := limitWrite s.hbm.transLimit s.hbm.transWindow v
    countIf r.2.2 { s with hbm := { s.hbm with transLimit := r.1, transWindow := r.2.1 } } 0
  else if o = 0x260010 then retrainCtrl s v
  else if o = 0x260018 then countIf (strayBits v 0x7F) (setFn s 0 { x with pcSel := v.extractLsb' 0 7 }) 0
  else if o = 0x270008 then rdtimWrite s v
  else if o = 0x27000C then
    let r := limitWrite s.flash.transLimit s.flash.transWindow v
    countIf r.2.2 { s with flash := { s.flash with transLimit := r.1, transWindow := r.2.1 } } 0
  else if o = 0x270010 then countIf (strayBits v 7) (setFn s 0 { x with flsChSel := v.extractLsb' 0 3 }) 0
  else if o = 0x27001C then
    let g := v.extractLsb' 0 24
    if s.flash.nlb.toNat ≤ g.toNat then ignored s 0
    else countIf (strayBits v 0xFFFFFF) (setFn s 0 { x with lblkSel := g }) 0
  else ignored s 0

/-- A write of a PF-only register of the Span: RW-L fields and the key are ignored after COMMIT (R8, R477, R529). -/
def writeSpan (s : State) (o : Nat) (v : BitVec 32) : State :=
  if o = 0x2B0000 then
    if s.span.locked then ignored s 0
    else countIf (strayBits v 0xFFFF7FFF)
      { s with span := { s.span with chip := v.extractLsb' 0 15, spanId := v.extractLsb' 16 16 } } 0
  else if o = 0x2B0004 then spanCtrl s v
  else if o = 0x2B0008 then
    if s.span.locked then ignored s 0
    else countIf (strayBits v 0x7FFF) { s with span := { s.span with refChip := v.extractLsb' 0 15 } } 0
  else if 0x2B0010 ≤ o ∧ o < 0x2B0050 then
    if s.span.locked then ignored s 0 else { s with span := { s.span with key := s.span.key.set ((o - 0x2B0010) / 4) v } }
  else if o = 0x2B0050 then
    let t := v.extractLsb' 0 16
    let r := v.extractLsb' 16 4
    countIf (decide (t.toNat < 5) || decide (r = 0) || strayBits v 0xFFFFF)
      { s with span := { s.span with rto := if t.toNat < 5 then s.span.rto else t, retries := if r = 0 then s.span.retries else r } } 0
  else if o = 0x2B0054 then
    let r := limitWrite s.span.transLimit s.span.transWindow v
    countIf r.2.2 { s with span := { s.span with transLimit := r.1, transWindow := r.2.1 } } 0
  else ignored s 0

/-- A write of a PF-only register of the stewards, the security block, Frost, power and frame time. -/
def writePfHigh (s : State) (o : Nat) (v : BitVec 32) : State :=
  let x := fnOf s 0
  if o = 0x280020 then
    let p := v.extractLsb' 0 14
    if p.toNat < 100 ∨ 10000 < p.toNat then ignored s 0
    else countIf (strayBits v 0x3FFF) { s with fw := { s.fw with wdt := p } } 0
  else if o = 0x280040 then clearFaultStatus s v
  else if o = 0x280048 then setFn s 0 { x with logSel := v }
  else if o = 0x290030 then
    countIf (strayBits v 0xFFFFFFC0) { s with sec := { s.sec with authAddr := setLo s.sec.authAddr v 0xFFFFFFC0 } } 0
  else if o = 0x290034 then { s with sec := { s.sec with authAddr := setHi s.sec.authAddr v 0xFFFFFFFF } }
  else if o = 0x290038 then authCtrl s v
  else if o = 0x2A0020 then settleLive (frostCtrl s v)
  else if o = 0x2C0000 then
    let c := v.extractLsb' 0 9
    if c.toNat < 250 ∨ 450 < c.toNat then ignored s 0
    else countIf (strayBits v 0x1FF) { s with power := { s.power with cap := c } } 0
  else if o = 0x2C0008 then warmKey s v
  else if o = 0x2D0010 then
    let p := v.extractLsb' 0 18
    if p.toNat < 1000 ∨ 200000 < p.toNat then ignored s 0
    else countIf (strayBits v 0x3FFFF) { s with time := { s.time with periodReg := p } } 0
  else if o = 0x2D0014 then fsyncCtrl s v
  else ignored s 0

/-- A write of an emulated register, by its scope (R430, R525, R526). -/
def writeEmu (s : State) (f o : Nat) (v : BitVec 32) : State :=
  if 0x22020C ≤ o ∧ o < 0x220300 ∧ o % 16 = 12 then hwinCtrl s f ((o - 0x220200) / 16) v
  else if o = 0x230040 then drbgCtrl s f v
  else if isCtxReg o then ctxWrite s f fun u x => writeCtx u f o v x
  else emuWrite s f fun u =>
    if o < 0x200024 ∨ (0x2A0000 ≤ o ∧ o < 0x2A0020) ∨ (0x2A0040 ≤ o ∧ o < 0x2A0050) then writeFn u f o v
    else if f ≠ 0 then ignored u f
    else if o < 0x280000 then writePfLow u o v
    else if 0x2B0000 ≤ o ∧ o < 0x2C0000 then settleLive (writeSpan u o v)
    else writePfHigh u o v

/-- A pending vector that nothing masks any more sends the message that it held back (R363; base specification, log 18). -/
def releaseVector (s : State) (f i : Nat) : State :=
  let x := fnOf s f
  let m := tblGetD x.msix i Msix.reset
  if m.pending && !m.masked && x.cfg.msixEnable && !x.cfg.msixMask && takesDma s f then
    hostWrite (setFn s f { x with msix := tblPut x.msix i { m with pending := false } }) m.address.toNat (leBytes 4 m.data.toNat)
  else s

/-- A write of an MSI-X table word (base specification, log 18). -/
def msixWrite (s : State) (f o : Nat) (v : BitVec 32) : State :=
  let i := (o - 0x120000) / 16
  let m := tblGetD (fnOf s f).msix i Msix.reset
  let put (y : Msix) (u : State) : State := setFn u f { fnOf u f with msix := tblPut (fnOf u f).msix i y }
  if o % 16 = 0 then put { m with address := setLo m.address v 0xFFFFFFFC } s
  else if o % 16 = 4 then put { m with address := setHi m.address v 0xFFFFFFFF } s
  else if o % 16 = 8 then put { m with data := v } s
  else releaseVector (put { m with masked := v.getLsbD 0 } s) f i

/-- A write of the configuration space of a function (R335; the layout is the base specification's, log 18). It answers in D3hot too.
Clearing VF Enable takes every VF away (R372). -/
def configWrite (s : State) (f : Nat) (r : ConfigReg) (v : BitVec 32) : State :=
  let x := fnOf s f
  let put (y : PcieCfg) : State := setFn s f { x with cfg := y }
  if !(ticking s && s.boot.linkUp && fnExists s f) then s
  else match r with
    | .sriov =>
      if f ≠ 0 then s
      else
        let s1 := put { x.cfg with vfEnable := v.getLsbD 0, numVfs := v.extractLsb' 16 8 }
        if x.cfg.vfEnable && !v.getLsbD 0 then dropVfs s1 else s1
    | .msixControl =>
      (List.range (vectorsOf f)).foldl (fun u i => releaseVector u f i)
        (put { x.cfg with msixEnable := v.getLsbD 15, msixMask := v.getLsbD 14 })
    | .deviceControl => put { x.cfg with maxPayload := v.extractLsb' 5 3, maxReadReq := v.extractLsb' 12 3 }
    | .aerUncStatus => put { x.cfg with aerUncStatus := x.cfg.aerUncStatus &&& ~~~v }
    | .aerUncMask => put { x.cfg with aerUncMask := v }
    | .aerUncSeverity => put { x.cfg with aerUncSeverity := v }
    | .aerCorStatus => put { x.cfg with aerCorStatus := x.cfg.aerCorStatus &&& ~~~v }
    | .aerCorMask => put { x.cfg with aerCorMask := v }
    | .ide => put { x.cfg with ideLink := v.getLsbD 0, ideSelective := v.getLsbD 1 }

/-- A write of a hardware register (R338, R367). -/
def writeHw (s : State) (f o : Nat) (v : BitVec 32) : State :=
  if o = 0x100000 then leaseWrite s f v
  else if o = 0x100008 then settleLive (ctrlWrite s f v)
  else hwWrite s f fun u =>
    if o = 0x100010 then
      countIf (strayBits v 0xFFFFF000) { u with boot := { u.boot with recovAddr := setLo u.boot.recovAddr v 0xFFFFF000 } } 0
    else if o = 0x100014 then { u with boot := { u.boot with recovAddr := setHi u.boot.recovAddr v 0xFFFFFFFF } }
    else if o = 0x100018 then (if v.getLsbD 0 then countIf (strayBits v 1) (recoveryGo u) 0 else countIf (strayBits v 1) u 0)
    else if o = 0x110010 then lrsKey u v
    else if o = 0x110014 then
      countIf (strayBits v 0xF) { u with lrs := { u.lrs with frostPage := v.extractLsb' 0 4 } } 0
    else ignored u 0

/-- A 32-bit write of BAR0 of a function (R338, R339). -/
def writeReg (s : State) (f o : Nat) (v : BitVec 32) : State :=
  if !barOpen s f then s
  else if o < 0x100000 then
    if o % 4096 = 0 then doorbell s f (o / 4096) .b32 v else if ready s then ignored s f else s
  else if o % 4 ≠ 0 then ignored s f
  else if o < 0x120000 then writeHw s f o v
  else if o < 0x120000 + 16 * vectorsOf f then msixWrite s f o v
  else if 0x200000 ≤ o ∧ o < 0x400000 then writeEmu s f o v
  else ignored s f

/-- A write of BAR0 by its size: 64 bits, aligned to 8 bytes, in the MSI-X table alone, as its two words; every other size than 32
bits is ignored (R339, R344). -/
def writeAccess (s : State) (f o : Nat) (size : AccessSize) (v : BitVec 64) : State :=
  match size with
  | .b32 => writeReg s f o (v.setWidth 32)
  | .b64 =>
    if !barOpen s f then s
    else if o % 8 = 0 ∧ 0x120000 ≤ o ∧ o < 0x120000 + 16 * vectorsOf f then
      msixWrite (msixWrite s f o (v.setWidth 32)) f (o + 4) (v.extractLsb' 32 32)
    else if o < 0x100000 ∧ !ready s then s
    else ignored s f
  | _ => if !barOpen s f ∨ (o < 0x100000 ∧ !ready s) then s else ignored s f

/-! ### Reads that change state (R230, R430, R464, R468) -/

/-- A read of an emulated LO register: the answer, and the latch of HI. While HBUSY_N is low it reads 0; while the stewards do not
serve it times out (R367, R430). -/
def latchRead (s : State) (f : Nat) (lo : Nat) (latch : Fn → Fn) : State :=
  if !barOpen s f then s
  else if !ready s then { s with busRead := 0 }
  else if !stewardsServe s then { bump s 9 1 with busRead := 0 }
  else { setFn s f (latch (fnOf s f)) with busRead := reg lo }

/-- TIM_DTIME_LO is read: HI latches bits 63:32. -/
def dtimeRead (s : State) (f : Nat) : State := latchRead s f (now s % 2 ^ 32) fun x => { x with dtimeHi := reg (now s / 2 ^ 32) }

/-- DBG_CNT_LO is read: HI latches bits 47:32 and SAT of the selected counter. -/
def counterRead (s : State) (f : Nat) : State :=
  let c := counterOf s (fnOf s f).cntSel.toNat
  if counterMine s f then
    latchRead s f (c.value % 2 ^ 32) fun x => { x with cntHi := reg (c.value / 2 ^ 32 % 2 ^ 16 + 2 ^ 31 * bit c.sat) }
  else latchRead s f 0 fun x => { x with cntHi := 0 }

/-- TIM_EQX_OFFSET_LO is read: HI latches bits 63:32. -/
def eqxRead (s : State) (f : Nat) : State :=
  latchRead s f (s.time.eqxOffset.toNat % 2 ^ 32) fun x => { x with eqxHi := reg (s.time.eqxOffset.toNat / 2 ^ 32) }

/-- EMU_TIMEOUT: an emulated access was not served within 20 µs, or found the queue full: a read is answered with 0, a write withdrawn;
both count (R430, R533, log 58). -/
def emuTimeout (s : State) (f : Nat) (write : Bool) : State :=
  if !barOpen s f || !ready s then s
  else if write then bump s 9 1 else { bump s 9 1 with busRead := 0 }

/-! ### The rows -/

/-- REGISTER_WRITE (R8, R339, R526, R529). -/
def execRegisterWrite (fn : BitVec 8) (place : RegPlace) (value : BitVec 64) (s : State) :
    Host.Outcome State Fault Refusal :=
  .next (match place with
    | .bar0 offset size => writeAccess s fn.toNat offset.toNat size value
    | .config r => settleLive (configWrite s fn.toNat r (value.setWidth 32)))

/-- COUNTER_CLEAR (R465). -/
def execCounterClear (fn : BitVec 8) (value : BitVec 32) (s : State) : Host.Outcome State Fault Refusal :=
  .next (emuWrite s fn.toNat fun u => counterCtrl u fn.toNat value)

/-- TRACE_ENABLE (R467). -/
def execTraceEnable (fn : BitVec 8) (value : BitVec 32) (s : State) : Host.Outcome State Fault Refusal :=
  .next (emuWrite s fn.toNat fun u => traceCtrl u fn.toNat value)

/-- DTIME_READ (R230, R528). -/
def execDtimeRead (fn : BitVec 8) (s : State) : Host.Outcome State Fault Refusal := .next (dtimeRead s fn.toNat)

/-- COUNTER_READ (R464). -/
def execCounterRead (fn : BitVec 8) (s : State) : Host.Outcome State Fault Refusal := .next (counterRead s fn.toNat)

/-- EQX_OFFSET_READ (R468). -/
def execEqxOffsetRead (fn : BitVec 8) (s : State) : Host.Outcome State Fault Refusal := .next (eqxRead s fn.toNat)

/-- EMU_TIMEOUT (R430). -/
def execEmuTimeout (fn : BitVec 8) (write : Bool) (s : State) : Host.Outcome State Fault Refusal :=
  .next (emuTimeout s fn.toNat write)

end Sys2Proof.Machine
end

