-- ==== Sys2Proof/Machine/RingRows.lean ====
section
/-! DEFINITION. The rows of the ring commands and of their later parts, and of the Docket's own events. A ring command's row is its
entry just fetched (log 1); a row whose event is not due changes nothing (log 3). -/

namespace Sys2Proof.Machine

/-- A row that changes the Docket: its effect while the engine runs, then what follows from it. -/
def docketRow (s : State) (k : State → State) : Host.Outcome State Fault Refusal :=
  .next (if running s then settle (k s) else s)

/-! ### Ring commands -/

/-- NOP (R358). -/
def execNop (h : ReqHeader) (s : State) : Host.Outcome State Fault Refusal := .next (submit s h .nop)

/-- SYNC_WAIT (R358). -/
def execSyncWait (h : ReqHeader) (b : SyncBody) (s : State) : Host.Outcome State Fault Refusal :=
  .next (submit s h (.syncWait b))

/-- SYNC_SIGNAL (R358). -/
def execSyncSignal (h : ReqHeader) (b : SyncBody) (s : State) : Host.Outcome State Fault Refusal :=
  .next (submit s h (.syncSignal b))

/-- COPY (R359). -/
def execCopy (h : ReqHeader) (b : CopyBody) (s : State) : Host.Outcome State Fault Refusal :=
  .next (submit s h (.copy b))

/-- TILE_RUN (R108). -/
def execTileRun (h : ReqHeader) (b : TileRunBody) (s : State) : Host.Outcome State Fault Refusal :=
  .next (submit s h (.tileRun b))

/-- PACKAGE_LOAD (R395). -/
def execPackageLoad (h : ReqHeader) (b : PackageLoadBody) (s : State) : Host.Outcome State Fault Refusal :=
  .next (submit s h (.packageLoad b))

/-- STREAM_OPEN (R208). -/
def execStreamOpen (h : ReqHeader) (b : StreamOpenBody) (s : State) : Host.Outcome State Fault Refusal :=
  .next (submit s h (.streamOpen b))

/-- STREAM_PARK (R221). -/
def execStreamPark (h : ReqHeader) (b : ParkBody) (s : State) : Host.Outcome State Fault Refusal :=
  .next (submit s h (.streamPark b))

/-- STEP (R131). -/
def execStep (h : ReqHeader) (b : StepBody) (s : State) : Host.Outcome State Fault Refusal :=
  .next (submit s h (.step b))

/-- PREFILL (R160). -/
def execPrefill (h : ReqHeader) (b : PrefillBody) (s : State) : Host.Outcome State Fault Refusal :=
  .next (submit s h (.prefill b))

/-- REC_CHUNK (R210). -/
def execRecChunk (h : ReqHeader) (b : RecChunkBody) (s : State) : Host.Outcome State Fault Refusal :=
  .next (submit s h (.recChunk b))

/-- KV_MAP (R183). -/
def execKvMap (h : ReqHeader) (b : KvMapBody) (s : State) : Host.Outcome State Fault Refusal :=
  .next (submit s h (.kvMap b))

/-- KV_UNMAP (R188). -/
def execKvUnmap (h : ReqHeader) (b : KvUnmapBody) (s : State) : Host.Outcome State Fault Refusal :=
  .next (submit s h (.kvUnmap b))

/-- POOL_GROW (R192). -/
def execPoolGrow (h : ReqHeader) (b : PoolBody) (s : State) : Host.Outcome State Fault Refusal :=
  .next (submit s h (.poolGrow b))

/-- POOL_SHRINK (R193). -/
def execPoolShrink (h : ReqHeader) (b : PoolBody) (s : State) : Host.Outcome State Fault Refusal :=
  .next (submit s h (.poolShrink b))

/-- TABLE_LOAD (R299). -/
def execTableLoad (h : ReqHeader) (b : TableLoadBody) (s : State) : Host.Outcome State Fault Refusal :=
  .next (submit s h (.tableLoad b))

/-- JOB_BEGIN (R356). -/
def execJobBegin (h : ReqHeader) (b : JobBeginBody) (s : State) : Host.Outcome State Fault Refusal :=
  .next (submit s h (.jobBegin b))

/-- PRESENT (R253). -/
def execPresent (h : ReqHeader) (b : PresentBody) (s : State) : Host.Outcome State Fault Refusal :=
  .next (submit s h (.present b))

/-- CONTEXT_CREATE (R360). -/
def execContextCreate (h : ReqHeader) (b : ContextCreateBody) (s : State) : Host.Outcome State Fault Refusal :=
  .next (submit s h (.contextCreate b))

/-- FW_UPDATE (R445). -/
def execFwUpdate (h : ReqHeader) (b : FwUpdateBody) (s : State) : Host.Outcome State Fault Refusal :=
  .next (submit s h (.fwUpdate b))

/-- LIB_WRITE (R418). -/
def execLibWrite (h : ReqHeader) (b : LibWriteBody) (s : State) : Host.Outcome State Fault Refusal :=
  .next (submit s h (.libWrite b))

/-- LIB_ERASE (R420). -/
def execLibErase (h : ReqHeader) (b : LibEraseBody) (s : State) : Host.Outcome State Fault Refusal :=
  .next (submit s h (.libErase b))

/-- ATTEST (R400). -/
def execAttest (h : ReqHeader) (b : AttestBody) (s : State) : Host.Outcome State Fault Refusal :=
  .next (submit s h (.attest b))

/-- PACKAGE_UNLOAD (R399). -/
def execPackageUnload (h : ReqHeader) (handle : BitVec 32) (s : State) : Host.Outcome State Fault Refusal :=
  .next (submit s h (.packageUnload handle))

/-- STREAM_CLOSE (R209). -/
def execStreamClose (h : ReqHeader) (stream : BitVec 16) (s : State) : Host.Outcome State Fault Refusal :=
  .next (submit s h (.streamClose stream))

/-- STREAM_UNPARK (R226). -/
def execStreamUnpark (h : ReqHeader) (stream : BitVec 16) (s : State) : Host.Outcome State Fault Refusal :=
  .next (submit s h (.streamUnpark stream))

/-- JOB_END (R356). -/
def execJobEnd (h : ReqHeader) (flags : BitVec 8) (s : State) : Host.Outcome State Fault Refusal :=
  .next (submit s h (.jobEnd flags))

/-- CONTEXT_DESTROY (R361). -/
def execContextDestroy (h : ReqHeader) (ctx : BitVec 8) (s : State) : Host.Outcome State Fault Refusal :=
  .next (submit s h (.contextDestroy ctx))

/-! ### Later parts of ring commands -/

/-- Starts entry e if it is a request of a kind that may start now, and none goes before it (R244, R246). -/
def startKind (s : State) (e : Nat) (kind : Command → Bool) : State :=
  match entryOf s e with
  | none => s
  | some x => if kind x.cmd ∧ !x.dispatched ∧ eligible s x ∧ !outranked s e x then startEntry s e else s

/-- SYNC_WAIT_RETIRE (R249, R358); a fenced wait does not leave QUEUED before its fence is met (R351). -/
def execSyncWaitRetire (e : Nat) (s : State) : Host.Outcome State Fault Refusal :=
  docketRow s fun u => match entryOf u e with
    | some x => if fenceBlocked u x then u else retireSyncWait u e
    | none => u

/-- STREAM_CLOSE_POINT (R209). -/
def execStreamClosePoint (e : Nat) (s : State) : Host.Outcome State Fault Refusal :=
  docketRow s fun u => startKind u e fun c => match c with | .streamClose _ => true | _ => false

/-- PARK (R221 to R224). -/
def execPark (e : Nat) (s : State) : Host.Outcome State Fault Refusal :=
  docketRow s fun u => startKind u e fun c => match c with | .streamPark _ => true | _ => false

/-- SWAP_IN (R225, R227). -/
def execSwapIn (e : Nat) (stream : BitVec 16) (s : State) : Host.Outcome State Fault Refusal :=
  docketRow s fun u => swapInRow u e stream.toNat

/-- A table generation that waits installs (R298, R396). -/
def tableInstall (s : State) (e : Nat) : State :=
  match entryOf s e with
  | none => s
  | some x =>
    if !x.dispatched ∨ x.state ≠ .running ∨ x.status.isSome then s
    else match x.cmd with
      | .tableLoad b => installTableLoad s e x b
      | .packageLoad b => if s.fw.handover.isSome then s else installLoad s e x b
      | _ => s

/-- TABLE_INSTALL (R298). -/
def execTableInstall (e : Nat) (s : State) : Host.Outcome State Fault Refusal := docketRow s fun u => tableInstall u e

/-- PRESENT_START (R254). -/
def execPresentStart (e : Nat) (s : State) : Host.Outcome State Fault Refusal :=
  docketRow s fun u => startKind u e fun c => match c with | .present _ => true | _ => false

/-- Destruction goes on unless the engine has stopped or is frozen (R373, R470). -/
def destroys (s : State) : Bool := s.dbg.frozen.isNone && !s.lrs.active

/-- CONTEXT_DESTRUCTION (R281). -/
def execContextDestruction (ctx : BitVec 8) (s : State) : Host.Outcome State Fault Refusal :=
  .next (if destroys s then settleLive (contextDestruction s ctx.toNat) else s)

/-- CONTEXT_WIPE_END (R281). -/
def execContextWipeEnd (ctx : BitVec 8) (s : State) : Host.Outcome State Fault Refusal :=
  .next (if destroys s then settleLive (contextWipeEnd s ctx.toNat) else s)

/-- HANDOVER_ROLLBACK (R447). -/
def execHandoverRollback (s : State) : Host.Outcome State Fault Refusal := docketRow s rollback

/-- NAND_ERASE_DONE (R420, R421). -/
def execNandEraseDone (block : Nat) (s : State) : Host.Outcome State Fault Refusal := docketRow s fun u => nandEraseDone u block

/-- ERASE_SUSPEND (R421). -/
def execEraseSuspend (channel : BitVec 3) (block : Nat) (s : State) : Host.Outcome State Fault Refusal :=
  .next (eraseSuspend s channel.toNat block)

/-! ### The Docket -/

/-- DISPATCH (R245 to R248). -/
def execDispatch (e : Nat) (tiles : List Nat) (s : State) : Host.Outcome State Fault Refusal :=
  docketRow s fun u => dispatch u e tiles

/-- OVERDUE_PROMOTE (R247). -/
def execOverduePromote (e : Nat) (s : State) : Host.Outcome State Fault Refusal := docketRow s fun u => overduePromote u e

/-- DEADLINE_MISSED (R163, R244). -/
def execDeadlineMissed (e : Nat) (s : State) : Host.Outcome State Fault Refusal := docketRow s fun u => deadlineMissed u e

/-- REQUEST_TIMEOUT (R243). -/
def execRequestTimeout (e : Nat) (s : State) : Host.Outcome State Fault Refusal := docketRow s fun u => requestTimeout u e

/-- REQUEST_RETIRE (R249). -/
def execRequestRetire (e : Nat) (s : State) : Host.Outcome State Fault Refusal := docketRow s fun u => requestRetire u e

/-- LOWER_TIER_ERROR (R276). -/
def execLowerTierError (e : Nat) (s : State) : Host.Outcome State Fault Refusal :=
  docketRow s fun u => lowerTierError u e

/-- LOWER_TIER_LATE (R277). -/
def execLowerTierLate (e : Nat) (s : State) : Host.Outcome State Fault Refusal :=
  docketRow s fun u => lowerTierLate u e

/-! ### Attention, sampling, commits and growth -/

/-- KV_SET_DELIVER (R143). -/
def execKvSetDeliver (e : Nat) (rank : Nat) (s : State) : Host.Outcome State Fault Refusal :=
  docketRow s fun u => kvSetDeliver u e rank

/-- CANDIDATE_WRITE (R147). -/
def execCandidateWrite (e : Nat) (row : Nat) (layer : Nat) (s : State) : Host.Outcome State Fault Refusal :=
  docketRow s fun u => candidateWrite u e row layer

/-- SAMPLING (R150, R152). -/
def execSampling (e : Nat) (s : State) : Host.Outcome State Fault Refusal := docketRow s fun u => sampling u e

/-- STREAM_COMMIT (R155). -/
def execStreamCommit (e : Nat) (row : Nat) (s : State) : Host.Outcome State Fault Refusal :=
  docketRow s fun u => streamCommit u e row

/-- GROWTH_RETRY (R200). -/
def execGrowthRetry (ctx : BitVec 8) (tier : Bool) (s : State) : Host.Outcome State Fault Refusal :=
  docketRow s fun u => growthRetry u ctx.toNat tier

/-- EPOCH_DRAIN (R179). -/
def execEpochDrain (ctx : BitVec 8) (epoch : Nat) (s : State) : Host.Outcome State Fault Refusal :=
  .next (if destroys s then settleLive (epochDrain s ctx.toNat epoch) else s)

end Sys2Proof.Machine
end

