-- ==== Sys2Proof/Machine/Sideband.lean ====
section
/-! DEFINITION. The MCTP endpoint (R459, R465, R519), the test port (R439, R521) and corrected SRAM words (R451). -/

namespace Sys2Proof.Machine

/-! ### The endpoint -/

/-- The endpoint answers: firmware runs, and neither a steward reset nor the last-resort state holds it (R459). A handover's commit
takes no time here, so that its pause is never seen (log 15). -/
def endpointServes (s : State) : Bool := ticking s && s.boot.stage == 5 && !s.lrs.active && !s.dbg.pendingStw

/-- The answer that the endpoint sends. -/
def respond (s : State) (bs : List Byte) : State := { s with pins := { s.pins with response := bs } }

/-- The 42 data bytes of GET_HEALTH. -/
def healthBytes (s : State) : List Byte :=
  leBytes 4 (fwFaultStatus s) ++ ((List.range 4).flatMap fun i => leBytes 4 (mapWord s.retired.pcs i)) ++
    leBytes 1 (mapWord s.retired.flash 0) ++ leBytes 1 (mapWord s.retired.ports 0) ++
    ((List.range 3).flatMap fun i => leBytes 4 (mapWord s.retired.tiles i)) ++ leBytes 4 (fwHealth s) ++
    leBytes 4 s.fw.version.toNat

/-- The 8 data bytes of GET_COUNTER (R465). A number that is no counter reads 0 (R462). -/
def counterBytes (s : State) (n : Nat) : List Byte :=
  let c := counterOf s n
  leBytes 8 (if isCounter n then c.value + 2 ^ 63 * bit c.sat else 0)

/-- A vendor-defined message from its command byte on: the response repeats the command and adds a completion code (R459). A COUNT
outside 1 to 4 has no stated outcome: its code is a free value (log 4). -/
def vendorMessage (s : State) (bs : List Byte) : State :=
  match bs with
  | [] => s
  | cmd :: d =>
    let ok (r : List Byte) : State := respond s (cmd :: 0 :: r)
    let badLength : State := respond s [cmd, 2]
    if cmd = 1 then (if d.length = 0 then ok (healthBytes s) else badLength)
    else if cmd = 2 then
      if d.length ≠ 5 then badLength
      else
        let q := BitVec.ofNat 32 (fieldAt d 0 4)
        let n := fieldAt d 4 1
        if n = 0 ∨ 4 < n then
          let r := drawNat s
          respond r.2 [cmd, BitVec.ofNat 8 r.1]
        else ok ((List.range n).flatMap fun i => logRecord s (q + BitVec.ofNat 32 i).toNat)
    else if cmd = 3 then
      if d.length ≠ 4 then badLength
      else respond (clearFaultStatus s (BitVec.ofNat 32 (fieldAt d 0 4))) [cmd, 0]
    else if cmd = 4 then (if d.length ≠ 2 then badLength else ok (counterBytes s (fieldAt d 0 2)))
    else respond s [cmd, 1]

/-- A message that the endpoint serves. -/
def serveMessage (s : State) (k : State → State) : State := if endpointServes s then k s else s

/-! ### The test port (R439, R521) -/

/-- Halts or resumes a steward core through the debug port. -/
def haltCore (s : State) (c : Nat) (halt : Bool) : State :=
  match s.fw.cores[c]? with
  | some k => { s with fw := { s.fw with cores := s.fw.cores.set c { k with debugHalt := halt } } }
  | none => s

/-- A test-port instruction: one that takes balls away acts only while PERST_N is low, a debug one only where access is open;
elsewhere each acts as BYPASS. -/
def testPort (s : State) (i : TestInstr) : State :=
  let put (j : TestInstr) (u : State) : State := { u with pins := { u.pins with testInstr := j } }
  match i with
  | .bypass | .idcode => put i s
  | .extest | .takesBalls => put (if perstInside s then .bypass else i) s
  | .debugHalt c => if debugOpen s then put i (haltCore s c.toNat true) else put .bypass s
  | .debugResume c => if debugOpen s then put i (haltCore s c.toNat false) else put .bypass s

/-! ### SRAM (R451) -/

/-- A word of a local store or a state slice was read with one wrong bit: its code corrects it, and it is counted. The array goes on
holding what was written. -/
def sramCorrection (s : State) (slice : Bool) (a : Nat) : State :=
  if a % 8 = 0 ∧ a < 96 * (if slice then 2 ^ 24 else 2 ^ 21) then bump s 6 1 else s

/-! ### The rows -/

/-- MCTP_CONTROL: the answer that DSP0236 requires, which the spec does not give (R459; free, log 21). -/
def execMctpControl (request : List Byte) (s : State) : Host.Outcome State Fault Refusal :=
  .next (serveMessage s fun u => respond u (Config.mctpControl request))

/-- GET_HEALTH (R459). -/
def execGetHealth (request : List Byte) (s : State) : Host.Outcome State Fault Refusal :=
  .next (serveMessage s fun u => vendorMessage u request)

/-- GET_FAULT_LOG (R459). -/
def execGetFaultLog (request : List Byte) (s : State) : Host.Outcome State Fault Refusal :=
  .next (serveMessage s fun u => vendorMessage u request)

/-- CLEAR_FAULT_STATUS (R457, R459). -/
def execClearFaultStatus (request : List Byte) (s : State) : Host.Outcome State Fault Refusal :=
  .next (serveMessage s fun u => vendorMessage u request)

/-- GET_COUNTER (R459, R465). -/
def execGetCounter (request : List Byte) (s : State) : Host.Outcome State Fault Refusal :=
  .next (serveMessage s fun u => vendorMessage u request)

/-- SRAM_CORRECTION (R451, R462). -/
def execSramCorrection (slice : Bool) (address : Nat) (s : State) : Host.Outcome State Fault Refusal :=
  .next (if ticking s then sramCorrection s slice address else s)

/-- TEST_PORT_INSTRUCTION (R521). -/
def execTestPortInstruction (i : TestInstr) (s : State) : Host.Outcome State Fault Refusal := .next (testPort s i)

/-- SMBUS_ARP_ASSIGN: the address holds until the next cold reset (R519). -/
def execSmbusArpAssign (address : BitVec 7) (s : State) : Host.Outcome State Fault Refusal :=
  .next (serveMessage s fun u => { u with pins := { u.pins with smbAddress := address } })

end Sys2Proof.Machine
end

