-- ==== Sys2Proof/Machine/TileOps.lean ====
section
/-! DEFINITION. What every tile instruction shares: bundle fields, the fetch (R109), fences and queues (R73, R77, R78, R92), and
faults (R79, R106). -/

namespace Sys2Proof.Machine

/-! ### Fields of a bundle and registers -/

/-- Opcode, fence mask and armed fence of a bundle (R77). -/
def opOf (w : Nat) : Nat := bitsOf w 7 0
def armed (w : Nat) : Option (BitVec 3) := if bitOf w 19 then some (BitVec.ofNat 3 (bitsOf w 18 16)) else none

/-- Scalar register i; S0 reads 0 (R74). -/
def Tile.sreg (x : Tile) (i : Nat) : Nat := if i = 0 then 0 else (x.sregs.getD i 0).toNat

/-- Writes scalar register i; S0 ignores writes (R74). -/
def Tile.setSreg (x : Tile) (i v : Nat) : Tile := if i = 0 then x else { x with sregs := x.sregs.set i (BitVec.ofNat 64 v) }

/-- Descriptor register i. -/
def Tile.dreg (x : Tile) (i : Nat) : Nat := (x.dregs.getD i 0).toNat

/-- Fence count. -/
def Tile.fence (x : Tile) (i : Nat) : Nat := (x.fences.getD i 0).toNat

/-- Changes the fence that an instruction arms. -/
def Tile.moveFence (x : Tile) (f : Option (BitVec 3)) (g : BitVec 8 → BitVec 8) : Tile :=
  match f with
  | some i => { x with fences := x.fences.modify i.toNat g }
  | none => x

/-! ### Counters -/

/-- Counts an event of a tile for the tile and for the context whose program runs there (R462). -/
def countTile (s : State) (t k n : Nat) : State :=
  if n = 0 then s else bumpFn (bumpTile s t k n) (tileOf s t).ctx k n

/-! ### Faults (R95, R106) -/

/-- The copies that a faulting gang has outstanding finish or stop at a row boundary (R106). -/
def stopRows (s : State) (e : Nat) : State :=
  (tilesOf s [e]).foldl (fun u t => setTile u t { tileOf u t with rowStop := true }) s

/-- The program of tile t faults: the first fault of the job is recorded and the job ends; a request of no job ends alone. -/
def tileFault (s : State) (t cause : Nat) : State :=
  match (tileOf s t).entry with
  | none => s
  | some e => settleLive (faultRequest (stopRows (recordTpFault s t cause) e) e cause t)

/-- A WAIT on, or an SREAD of, a POISONED counter: cause 0x0D, and the request ends with SYNC_POISONED (R100). -/
def poisonFault (s : State) (t : Nat) : State :=
  match (tileOf s t).entry with
  | none => s
  | some e =>
    tileFault (modEntry s (rootOf s e) fun x => { x with status := some (endStatusOf x stPoisoned) }) t 0x0D

/-- An access of tile t fails (R95, R106, R273): a translation failure or a codec failure on data of the context faults the
program, a lower-tier failure ends the request alone, a late read ends it at its limit (R277), another device fault ends the job with
its own cause. -/
def failAccess (s : State) (t : Nat) (err : AccessErr) : State :=
  let x := tileOf s t
  match x.entry with
  | none => s
  | some e =>
    match err with
    | .trans k va w => tileFault (recordTrans s x.ctx k va w 0 x.rank) t (if k = 3 then 0x0C else 0x0B)
    | .lower st => settleLive (endRequest s (rootOf s e) st)
    | .late => readLate s e
    | .device cause unit => if cause = 0x22 then tileFault s t 0x10 else settleLive (faultRequest s e cause unit)

/-! ### Access of a tile program -/

/-- The streams whose recurrent windows a program may write: those that the STEP, PREFILL or REC_CHUNK it was started for names
(R206). -/
def programStreams (s : State) (t : Nat) : List Nat :=
  match (tileOf s t).entry.bind (gangOf s) with
  | some (_, _, x, _, _) => x.parts.map Part.stream
  | none => []

/-- The program on tile t as a source of accesses. -/
def programSource (s : State) (t : Nat) : Source :=
  { isEngine := false, writes := programStreams s t, entry := (tileOf s t).entry, tile := some t }

/-- Service class of a program's accesses. -/
def programService (s : State) (t : Nat) : Nat := ((tileOf s t).entry.bind (entryOf s)).elim 3 Entry.service

/-! ### Fetch (R102, R109) -/

/-- The bundle at the program counter: from the instruction cache, or from the block of 4 KiB that the cache reads for it and keeps,
16 blocks in all (R74, R109; which block leaves is a DESIGN CHOICE, log 15). -/
def fetchBundle (s : State) (t : Nat) : Except AccessErr Nat × State :=
  let x := tileOf s t
  let va := x.prog + 16 * x.pc
  let b := va / 4096
  match x.cached.find? fun k => k.1 == b with
  | some k => (.ok (leNat ((k.2.drop (va % 4096)).take 16)), s)
  | none =>
    match readVA s x.ctx (4096 * b) 4096 (programService s t) (programSource s t) with
    | (.err f, s1) => (.error f, s1)
    | (.ok bs, s1) =>
      (.ok (leNat ((bs.drop (va % 4096)).take 16)), setTile s1 t { tileOf s1 t with cached := ((b, bs) :: x.cached).take 16 })

/-! ### Issue -/

/-- How an instruction's effect ends. -/
inductive EffectEnd where
  | fine
  | sent (frames : List (Bool × BitVec 32))       -- Span frames that must be answered before the instruction completes (R486)
  | failed (err : AccessErr)
  | fault (cause : Nat)

/-- What an instruction does at issue. -/
inductive TileIssue where
  | stall
  | fault (cause : Nat)
  | poisoned
  | wait (w : WaitOn)
  | done (s : State) (next : Nat)         -- it completes at issue; the next bundle
  | queued (f : InFlight) (effect : State → State × EffectEnd)

/-- Queue depth of a unit (R73). -/
def queueDepth (unit : Nat) : Nat := if unit ≤ 1 then 4 else if unit = 2 then 16 else 8

/-- The queue of a unit is full. -/
def queueFull (x : Tile) (unit : Nat) : Bool := decide (unit ≤ 3) && decide (queueDepth unit ≤ (x.inflight.filter fun i => i.unit == unit).length)

/-- The instruction must wait: for a fence of its mask, or for a fence that it would raise past 255 (R77, R78). -/
def fenceWait (x : Tile) (w : Nat) : Bool :=
  ((List.range 8).any fun i => bitOf w (8 + i) && decide (x.fence i ≠ 0)) ||
    match armed w with | some i => decide (x.fence i.toNat = 255) | none => false

/-- The unit that executes an opcode; 4 is the sequencer (R80). -/
def unitOf (op : Nat) : Nat :=
  if !isTileOp op then 4 else if op ≤ 8 then 4 else if op ≤ 0x22 then 0 else if op ≤ 0x31 then 1 else if op ≤ 0x41 then 2 else 3

/-- The micro-program slot that a bundle names: a drain's, a GLOAD's or a GRUN's (R87, R91). -/
def namedGate (w : Nat) : Option Nat :=
  if unitOf (opOf w) = 0 ∧ !bitOf w 45 then some (bitsOf w 101 96)
  else if unitOf (opOf w) = 1 then some (bitsOf w 95 90)
  else none

/-- A slot is interlocked (R92): a GLOAD waits for every instruction that names the slot, any other for the GLOADs of it. -/
def slotWait (x : Tile) (w : Nat) : Bool :=
  match namedGate w with
  | none => false
  | some g => x.inflight.any fun i => i.slot == some g && (opOf w == 0x30 || i.loads)

/-- The next bundle is this one's successor. -/
def advance (s : State) (t : Nat) : State := setTile s t { tileOf s t with pc := (tileOf s t).pc + 1 }

/-- An instruction stands in its unit's queue from its issue until it completes (R78; log 11). `s`: the state before its effect, `u`
the one after it. -/
def standQueued (s : State) (t w : Nat) (f : InFlight) (u : State) : State :=
  let v := afterEffect s t f (settleLines s t f u)
  let x := tileOf v t
  setTile v t { (x.moveFence (armed w) fun n => n + 1) with
    inflight := x.inflight ++ [{ f with fence := armed w, spoiled := spoiledBy s t f }], pc := x.pc + 1 }

/-- An instruction goes to its unit and takes effect. -/
def queueUp (s : State) (t w : Nat) (f : InFlight) (effect : State → State × EffectEnd) : State :=
  let g := withBefore s f
  match effect (beforeEffect s t g) with
  | (u, .failed err) => failAccess u t err
  | (u, .fault cause) => tileFault u t cause
  | (u, .fine) => standQueued s t w g u
  | (u, .sent frames) => standQueued s t w { g with remote := frames } u

/-- An access of the sequencer has completed as it issued; a fence that it arms is released in the same cycle (R78). -/
def seqComplete (s : State) (t w : Nat) (f : InFlight) : State := noteDone s t { f with fence := armed w }

/-- Issues the bundle at the program counter of tile t, if it is of opcode `op` and may issue now; else nothing changes. A program
counter past the end, a failed fetch, a reserved opcode and a reserved field fault (R79, R102, R106). -/
def issueTile (s : State) (t op : Nat) (body : State → Tile → Nat → TileIssue) : State :=
  let x := tileOf s t
  if !running s || x.entry.isNone || x.halted || x.stopped || x.waitOn.isSome then s
  else if x.len ≤ x.pc then tileFault s t 0x0F
  else
    match fetchBundle s t with
    | (.error f, s1) => failAccess s1 t f
    | (.ok w, s1) =>
      if fenceWait x w || queueFull x (unitOf (opOf w)) || slotWait x w then s
      else if !isTileOp (opOf w) then tileFault s1 t 0x01
      else if bundleBad w then tileFault s1 t 0x02
      else if opOf w ≠ op then s
      else
        let s2 := noteFences s1 t (bitsOf w 15 8)
        match body s2 (tileOf s2 t) w with
        | .stall => s
        | .fault cause => tileFault s2 t cause
        | .poisoned => poisonFault s2 t
        | .wait v => setTile s2 t { tileOf s2 t with waitOn := some v }
        | .done u next => setTile u t { tileOf u t with pc := next }
        | .queued f effect => queueUp s2 t w f effect

/-- The first cause among the checks of an instruction: (failed, cause). -/
def firstCause (l : List (Bool × Nat)) : Option Nat := (l.find? fun p => p.1).map Prod.snd

/-! ### Local-store addresses of sequencer and gate instructions (R86) -/

/-- Scalar + OFF for LDS, STS, DLOAD and GLOAD; none when it is misaligned or past the local store. The sum wraps (DEDUCED: scalar
arithmetic wraps, R101). -/
def localAddress (x : Tile) (w size align : Nat) (sa off : Nat) : Option Nat :=
  let a := (x.sreg (bitsOf w (sa + 4) sa) + bitsOf w (off + 20) off) % 2 ^ 64
  if a % align = 0 ∧ a + size ≤ 2 ^ 21 then some a else none

end Sys2Proof.Machine
end

