-- ==== Sys2Proof/Machine/TileSeq.lean ====
section
/-! DEFINITION. The sequencer instructions (R101, R102, R103, R85): TNOP, HALT, BR, SETI, ALU, LDS, STS, DLOAD, DADD. -/

namespace Sys2Proof.Machine

/-! ### ALU and BR (R101, R102) -/

/-- The ALU functions on 64-bit scalars (R101). -/
def aluFn (fn : Nat) (a b : Word64) : Word64 :=
  if fn = 0 then a + b
  else if fn = 1 then a - b
  else if fn = 2 then a * b
  else if fn = 3 then a &&& b
  else if fn = 4 then a ||| b
  else if fn = 5 then a ^^^ b
  else if fn = 6 then a <<< (b.toNat % 64)
  else if fn = 7 then a >>> (b.toNat % 64)
  else if fn = 8 then a.sshiftRight (b.toNat % 64)
  else if fn = 9 then (if b.slt a then b else a)
  else if fn = 10 then (if b.slt a then a else b)
  else if fn = 11 then (if b < a then b else a)
  else if b < a then a else b

/-- The conditions of BR (R102). -/
def brTaken (cond : Nat) (a b : Word64) : Bool :=
  if cond = 0 then true
  else if cond = 1 then a == b
  else if cond = 2 then a != b
  else if cond = 3 then a.slt b
  else if cond = 4 then b.sle a
  else if cond = 5 then a.ult b
  else b.ule a

/-- Scalar i as a 64-bit word. -/
def Tile.word (x : Tile) (i : Nat) : Word64 := BitVec.ofNat 64 (x.sreg i)

/-! ### The bodies -/

/-- An instruction of the sequencer that changes its own tile alone. -/
def seqDone (s : State) (t : Nat) (x : Tile) : TileIssue := .done (setTile s t x) (x.pc + 1)

/-- HALT stops issue and discards a held result (R89, R103). -/
def haltBody (t : Nat) (s : State) (x : Tile) (_w : Nat) : TileIssue :=
  .done (setTile s t { x with halted := true, held := none }) (x.pc + 1)

/-- BR: a taken branch outside the program faults (R102). -/
def brBody (s : State) (x : Tile) (w : Nat) : TileIssue :=
  if brTaken (bitsOf w 49 47) (x.word (bitsOf w 41 37)) (x.word (bitsOf w 46 42)) then
    let target : Int := (x.pc : Int) + signedOf 20 (bitsOf w 83 64)
    if target < 0 ∨ (x.len : Int) ≤ target then .fault 0x0F else .done s target.toNat
  else .done s (x.pc + 1)

/-- SETI (R101). -/
def setiBody (t : Nat) (s : State) (x : Tile) (w : Nat) : TileIssue :=
  seqDone s t (x.setSreg (bitsOf w 36 32) (bitsOf w 127 64))

/-- ALU (R101). -/
def aluBody (t : Nat) (s : State) (x : Tile) (w : Nat) : TileIssue :=
  let b := if bitOf w 47 then (BitVec.ofNat 32 (bitsOf w 95 64)).signExtend 64 else x.word (bitsOf w 46 42)
  seqDone s t (x.setSreg (bitsOf w 36 32) (aluFn (bitsOf w 51 48) (x.word (bitsOf w 41 37)) b).toNat)

/-- What a sequencer instruction reads or writes in its own local store, for the hazards of R104. -/
def seqFlight (reads writes : List Range) : InFlight := { InFlight.of 4 with reads := reads, writes := writes }

/-- LDS (R86, R101). -/
def ldsBody (t : Nat) (s : State) (x : Tile) (w : Nat) : TileIssue :=
  match localAddress x w 8 8 37 64 with
  | none => .fault 0x06
  | some a =>
    let f := seqFlight [(t, a, 8)] []
    let s1 := seqComplete (beforeEffect s t f) t w f
    seqDone s1 t (x.setSreg (bitsOf w 36 32) (leNat (localRead s1 t a 8)))

/-- STS (R86, R101). It completes at issue, and its bytes stay unordered for the other units until its fence is waited for (R78,
R104). -/
def stsBody (t : Nat) (s : State) (x : Tile) (w : Nat) : TileIssue :=
  match localAddress x w 8 8 37 64 with
  | none => .fault 0x06
  | some a =>
    let f := seqFlight [] [(t, a, 8)]
    .done (seqComplete (afterEffect s t f (localWrite s t a (leBytes 8 (x.sreg (bitsOf w 36 32))))) t w f) (x.pc + 1)

/-- DLOAD (R85, R86). -/
def dloadBody (t : Nat) (s : State) (x : Tile) (w : Nat) : TileIssue :=
  match localAddress x w 32 32 37 64 with
  | none => .fault 0x06
  | some a =>
    let f := seqFlight [(t, a, 32)] []
    let s1 := seqComplete (beforeEffect s t f) t w f
    let d := leNat (localRead s1 t a 32)
    match descCheck d (((ctxOf s1 x.ctx).map Ctx.slotCount).getD 0) with
    | some cause => .fault cause
    | none => seqDone s1 t { x with dregs := x.dregs.set (bitsOf w 35 32) (BitVec.ofNat 256 d) }

/-- DADD: BASE grows modulo 2^48; nothing is checked (R85, R101). -/
def daddBody (t : Nat) (s : State) (x : Tile) (w : Nat) : TileIssue :=
  let i := bitsOf w 35 32
  let d := x.dreg i
  let base := (d % 2 ^ 48 + x.sreg (bitsOf w 41 37)) % 2 ^ 48
  seqDone s t { x with dregs := x.dregs.set i (BitVec.ofNat 256 (d / 2 ^ 48 * 2 ^ 48 + base)) }

end Sys2Proof.Machine
end

