-- ==== Sys2Proof/Machine/CopyEngine.lean ====
section
/-! DEFINITION. The copy engine: COPY and FILL (R93 to R96), between local stores, the context's address space and other chips
(R82, R477, R484, R486). -/

namespace Sys2Proof.Machine

/-! ### Sides of a copy -/

/-- One side: its descriptor, the first row, and where its rows lie. -/
structure Side where
  d : Desc
  row0 : Nat
deriving DecidableEq, Repr

/-- Address of row r (R84). -/
def Side.addr (x : Side) (r : Nat) : Nat := x.d.base + (x.row0 + r) * x.d.stride

/-- Tile whose local store a side names: the own one, or that of a gang member (R82, R86). None when the tile of a member whose
program has ended has been given to another gang: no instruction reaches it there (R86; what such an access does is a DESIGN CHOICE,
log 11). -/
def sideTile (s : State) (t : Nat) (d : Desc) : Option Nat :=
  if d.tier = 0 then some t
  else
    match ((((tileOf s t).entry.bind (entryOf s)).map Entry.tiles).getD [])[d.rank]? with
    | some u => if (tileOf s u).last = (tileOf s t).entry then some u else none
    | none => none

/-- The space of a side, for hazards; none on another chip. -/
def sideSpace (s : State) (t : Nat) (d : Desc) : Option Nat :=
  if d.tier = 3 then none else if d.tier = 2 then some (96 + (tileOf s t).ctx) else sideTile s t d

/-- The bytes of a side row by row, for hazards. -/
def sideRanges (s : State) (t : Nat) (x : Side) (nr nb : Nat) : List Range :=
  match sideSpace s t x.d with
  | some space => (List.range nr).map fun r => (space, x.addr r, nb)
  | none => []

/-- A row in the context's space touches a coded tier (R94). -/
def rowCoded (s : State) (c a n : Nat) : Bool :=
  (List.range (n / 65536 + 2)).any fun i =>
    let p := max a (65536 * (a / 65536 + i))
    decide (p < a + n) && codedSide s c p

/-- The side is coded at row r: HBM, Library flash or another chip (R94). -/
def sideCoded (s : State) (t : Nat) (x : Side) (r nb : Nat) : Bool :=
  x.d.tier == 3 || (x.d.tier == 2 && rowCoded s (tileOf s t).ctx (x.addr r) nb)

/-- The checks of one side: (failed, cause) in order (R85, R86, R477). -/
def sideChecks (s : State) (x : Tile) (d : Desc) : List (Bool × Nat) :=
  [(d.tier = 1 ∧ x.gang ≤ d.rank, 0x0A), (d.tier = 3 && (!s.span.active || (spanJobOf s x.ctx).isNone), 0x0B)]

/-- The alignment and size rules of R93 and R94, and the local-store bound of R86: (failed, cause). -/
def shapeChecks (s : State) (t : Nat) (sides : List Side) (nr nb : Nat) : List (Bool × Nat) :=
  [(nb < 32 ∨ nb % 32 ≠ 0, 0x07),
   ((List.range nr).any fun r => sides.any fun x =>
      decide (x.addr r % 32 ≠ 0) || ((decide (x.addr r % 4096 ≠ 0) || decide (nb % 4096 ≠ 0)) && sideCoded s t x r nb), 0x07),
   ((List.range nr).any fun r => sides.any fun x => x.d.isLocal && decide (2 ^ 21 < x.addr r + nb), 0x06)]

/-! ### Rows -/

/-- Reads n bytes of a side that is not on another chip. -/
def sideRead (s : State) (t : Nat) (x : Side) (a n : Nat) : Got × State :=
  if x.d.tier = 2 then readVA s (tileOf s t).ctx a n (programService s t) (programSource s t)
  else match sideTile s t x.d with
    | some u => (.ok (localRead s u a n), s)
    | none => (.ok ((List.range n).map fun i => Config.freeByte (a + i) s.drawn), { s with drawn := s.drawn + 1 })

/-- Sends the blocks of a row to another chip (R484, R486). -/
def sendRow (s : State) (c job : Nat) (d : Desc) (a : Nat) (bs : List Byte) : List (Bool × BitVec 32) × State :=
  (List.range (bs.length / 4096)).foldl (fun (r : List (Bool × BitVec 32) × State) i =>
    let q := sendBlock r.2 c d.chip job (a + 4096 * i) d.cslot ((bs.drop (4096 * i)).take 4096)
    (r.1 ++ [q.1], q.2)) ([], s)

/-- JOBNUM of the open Span job of a tile's context. -/
def tileJob (s : State) (t : Nat) : Nat := ((spanJobOf s (tileOf s t).ctx).map spanJobNum).getD 0

/-- Writes a row of the destination; a coded side names DD.CSLOT (R94). A row whose write fails is as it was: the copy has stopped at a
row boundary (R106). -/
def sideWrite (s : State) (t : Nat) (x : Side) (a : Nat) (bs : List Byte) : State × EffectEnd :=
  let c := (tileOf s t).ctx
  if x.d.tier = 2 then
    match writeVA s c a bs (namedSlot s c x.d.cslot) (programService s t) (programSource s t) with
    | (some f, s1) => (putRange s1 (96 + c, a, bs.length) (rangeBytes s (96 + c, a, bs.length)), .failed f)
    | (none, s1) => (s1, .fine)
  else if x.d.tier = 3 then
    let r := sendRow s c (tileJob s t) x.d a bs
    (r.2, .sent r.1)
  else match sideTile s t x.d with
    | some u => (localWrite s u a bs, .fine)
    | none => (s, .fine)

/-- Asks another chip for the blocks of a row (R483, R484): each comes back to the device-virtual address of the destination, to the
local store, or to be sent on. A return address that is no device-virtual one is a free value (log 4). -/
def askRow (s : State) (t : Nat) (x y : Side) (r nb : Nat) : List (Bool × BitVec 32) × State :=
  let c := (tileOf s t).ctx
  (List.range (nb / 4096)).foldl (fun (acc : List (Bool × BitVec 32) × State) i =>
    let a := y.addr r + 4096 * i
    let (free, s1) := if y.d.tier = 2 then (a, acc.2) else drawNat acc.2
    let landing : Landing :=
      if y.d.tier = 2 then .va else if y.d.tier = 3 then .chip y.d.chip a y.d.cslot else .tile ((sideTile s t y.d).getD t) a
    let q := sendTracked s1 c 2 x.d.chip (tileJob s t) (x.addr r + 4096 * i) (BitVec.ofNat 64 free) (fun _ _ => []) landing
    (acc.1 ++ [q.1], q.2)) ([], s)

/-- One row of a COPY. -/
def copyRow (s : State) (t : Nat) (x y : Side) (nb r : Nat) : State × EffectEnd :=
  if x.d.tier = 3 then
    let q := askRow s t x y r nb
    (q.2, .sent q.1)
  else
    match sideRead s t x (x.addr r) nb with
    | (.err f, s1) => (s1, .failed f)
    | (.ok bs, s1) => sideWrite s1 t y (y.addr r) bs

/-- Runs the rows of an instruction in order until one fails (R106). -/
def runRows (row : State → Nat → State × EffectEnd) : List Nat → State → List (Bool × BitVec 32) → State × EffectEnd
  | [], s, sent => (s, .sent sent)
  | r :: rs, s, sent =>
    match row s r with
    | (u, .fine) => runRows row rs u sent
    | (u, .sent l) => runRows row rs u (sent ++ l)
    | (u, e) => (u, e)

/-- The generations that the blocks of a side hold while they are in flight: those that the blocks read name, and the current one of
the slot that the blocks written name (R291, R297). -/
def sideHolds (s : State) (t : Nat) (x : Side) (nr nb : Nat) (write : Bool) : List Nat :=
  let c := (tileOf s t).ctx
  (List.range nr).flatMap fun r =>
    if !sideCoded s t x r nb then []
    else if write then
      match ((namedSlot s c x.d.cslot).bind (ctxSlot s c)).bind CodecSlot.cur with
      | some g => List.replicate (nb / 4096) g.serial
      | none => []
    else if x.d.tier = 2 then readHolds s c (x.addr r) nb else []

/-- An in-flight COPY or FILL. -/
def copyFlight (reads writes : List Range) (holds : List Nat) : InFlight :=
  { InFlight.of 2 with reads := reads, writes := writes, holds := holds }

/-! ### The instructions -/

/-- A COPY with its sides as captured at issue (R81, R93). -/
structure CopyOp where
  src : Side
  dst : Side
  nr : Nat
  nb : Nat
deriving DecidableEq, Repr

/-- Reads a COPY bundle. -/
def copyOp (x : Tile) (w : Nat) : CopyOp :=
  { src := { d := descOf (x.dreg (bitsOf w 35 32)), row0 := x.sreg (bitsOf w 44 40) }
    dst := { d := descOf (x.dreg (bitsOf w 39 36)), row0 := x.sreg (bitsOf w 49 45) }, nr := bitsOf w 79 64 + 1, nb := bitsOf w 119 96 }

/-- The cause with which a COPY faults at issue (R85, R86, R93, R94). -/
def copyCause (s : State) (t : Nat) (x : Tile) (w : Nat) : Option Nat :=
  let o := copyOp x w
  (descAtIssue (x.dreg (bitsOf w 35 32))).or ((descAtIssue (x.dreg (bitsOf w 39 36))).or
    (firstCause (sideChecks s x o.src.d ++ sideChecks s x o.dst.d ++ shapeChecks s t [o.src, o.dst] o.nr o.nb)))

/-- A COPY in flight. -/
def CopyOp.flight (s : State) (t : Nat) (o : CopyOp) : InFlight :=
  copyFlight (sideRanges s t o.src o.nr o.nb) (sideRanges s t o.dst o.nr o.nb)
    (sideHolds s t o.src o.nr o.nb false ++ sideHolds s t o.dst o.nr o.nb true)

/-- COPY (R93 to R96). Where its source and destination overlap, the bytes are unpredictable. -/
def copyBody (t : Nat) (s : State) (x : Tile) (w : Nat) : TileIssue :=
  let o := copyOp x w
  match copyCause s t x w with
  | some cause => .fault cause
  | none =>
    let f := o.flight s t
    .queued f fun u =>
      let r := runRows (fun v i => copyRow v t o.src o.dst o.nb i) (List.range o.nr) u []
      ((clashes f.reads f.writes).foldl scrub r.1, r.2)

/-- A FILL with its side and pattern as captured at issue (R81, R93). -/
structure FillOp where
  dst : Side
  nr : Nat
  nb : Nat
  pat : Byte
deriving DecidableEq, Repr

/-- Reads a FILL bundle. -/
def fillOp (x : Tile) (w : Nat) : FillOp :=
  { dst := { d := descOf (x.dreg (bitsOf w 39 36)), row0 := x.sreg (bitsOf w 49 45) }, nr := bitsOf w 79 64 + 1, nb := bitsOf w 103 80
    pat := BitVec.ofNat 8 (bitsOf w 111 104) }

/-- The cause with which a FILL faults at issue (R85, R86, R93, R94). -/
def fillCause (s : State) (t : Nat) (x : Tile) (w : Nat) : Option Nat :=
  let o := fillOp x w
  (descAtIssue (x.dreg (bitsOf w 39 36))).or (firstCause (sideChecks s x o.dst.d ++ shapeChecks s t [o.dst] o.nr o.nb))

/-- A FILL in flight. -/
def FillOp.flight (s : State) (t : Nat) (o : FillOp) : InFlight :=
  copyFlight [] (sideRanges s t o.dst o.nr o.nb) (sideHolds s t o.dst o.nr o.nb true)

/-- FILL (R93, R94). -/
def fillBody (t : Nat) (s : State) (x : Tile) (w : Nat) : TileIssue :=
  let o := fillOp x w
  match fillCause s t x w with
  | some cause => .fault cause
  | none =>
    .queued (o.flight s t) fun u =>
      runRows (fun v i => sideWrite v t o.dst (o.dst.addr i) (List.replicate o.nb o.pat)) (List.range o.nr) u []

end Sys2Proof.Machine
end

