-- ==== Sys2Proof/Machine/GatePipe.lean ====
section
/-! DEFINITION. Tensors in the local store (R83, R84), GLOAD and GRUN (R91, R92), the gate pipe over the elements of an instruction
(R113, R123 to R126), narrowing (R127, R128) and the lists (R130). -/

namespace Sys2Proof.Machine

/-! ### Tensors in the local store (R84) -/

/-- A signed byte of a local store. -/
def localExp (s : State) (t a : Nat) : Int := ((localRead s t a 1).headD 0).toInt

/-- Element (r, c) of an A16 or I32 tensor in the local store of tile t. -/
def tensorElem (s : State) (t : Nat) (d : Desc) (r c : Nat) : Int :=
  if d.fmt = 1 then signedOf 16 (leNat (localRead s t (d.base + r * d.stride + 2 * c) 2))
  else signedOf 32 (leNat (localRead s t (d.base + r * d.stride + 4 * c) 4))

/-- Exponent of element (r, c): its segment's RS8, or the slot exponent. -/
def tensorExp (s : State) (t : Nat) (d : Desc) (r c : Nat) : Int :=
  if d.fmt = 1 then localExp s t (d.base + d.soff + r * d.sstr + c / d.segLen) else d.slotExp

/-- The bytes of elements (r, c0) to (r, c0 + n - 1) and of their exponents, for m rows from r0. -/
def tensorRanges (t : Nat) (d : Desc) (r0 m c0 n : Nat) : List Range :=
  (List.range m).flatMap fun i =>
    let r := r0 + i
    if d.fmt = 1 then
      [(t, d.base + r * d.stride + 2 * c0, 2 * n),
       (t, d.base + d.soff + r * d.sstr + c0 / d.segLen, (c0 + n - 1) / d.segLen - c0 / d.segLen + 1)]
    else [(t, d.base + r * d.stride + 4 * c0, 4 * n)]

/-- Every byte that an instruction reads or writes. -/
def InFlight.ranges (f : InFlight) : List Range := f.reads ++ f.writes ++ f.sideReads ++ f.sideWrites

/-- Every byte of the ranges lies in the local store. -/
def inStore (l : List Range) : Bool := l.all fun r => decide (r.2.1 + r.2.2 ≤ 2 ^ 21)

/-! ### What an instruction does in the gate pipe -/

/-- A drain or a GRUN: its program, its operands by row and column, its output tensor. -/
structure GateJob where
  prog : List Nat
  garg : Nat
  row0 : Nat                      -- first output row
  m : Nat
  n : Nat
  a : Nat → Nat → Int
  ea : Nat → Nat → Int
  b : Nat → Nat → Int
  eb : Nat → Nat → Int
  dout : Desc

/-- The OUT of a program. -/
def outOp (p : List Nat) : Nat := (p.getLast?).getD 0

/-- Sidecar ranges of a program over m rows from row0: those it reads, and those it writes (R124, R125, R130). -/
def sideSpan (u : Nat) : Nat := if isTopk u then 8 * uK u else 8
def sideRange (t row0 m u : Nat) : Range := (t, uRbase u + sideSpan u * row0, sideSpan u * m)
def sideReadsOf (t row0 m : Nat) (p : List Nat) : List Range :=
  (p.filter fun u => usesSidecar u && (uCode u == 0x20 || uRl u)).map (sideRange t row0 m)
def sideWritesOf (t row0 m : Nat) (p : List Nat) : List Range :=
  (p.filter fun u => isReduction u || isTopk u).map (sideRange t row0 m)

/-- A signed 64-bit sidecar entry. -/
def sideEntry (s : State) (t a : Nat) : Int := signedOf 64 (leNat (localRead s t a 8))

/-- What row i starts from (R123, R129, R130). -/
def rowStart (s : State) (t : Nat) (g : GateJob) (i : Nat) : RowAcc :=
  let at_ (u : Nat) : Nat := uRbase u + sideSpan u * (g.row0 + i)
  let red (j : Nat) : Int :=
    match g.prog.find? fun u => isReduction u && uJ u == j with
    | some u => if uRl u then sideEntry s t (at_ u) else redStart u
    | none => 0
  let top := match g.prog.find? isTopk with
    | some u =>
      if uRl u then (List.range (uK u)).map fun k => topEntry (leNat (localRead s t (at_ u + 8 * k) 8)) else topFiller (uK u)
    | none => []
  { red := [red 0, red 1], top := top }

/-- The elements of row i in order: what OUT gave each, how many saturated, and what the row has built up. -/
def gateRow (s : State) (t : Nat) (g : GateJob) (i : Nat) : List Int × Nat × RowAcc :=
  (List.range g.n).foldl (fun (r : List Int × Nat × RowAcc) c =>
    let x : LaneIn := { ea := g.ea i c, eb := g.eb i c, garg := g.garg, col := c
                        ldr := fun b => sideEntry s t (b + 8 * (g.row0 + i)) }
    let l := runElement g.prog x (g.a i c) (g.b i c) r.2.2
    (r.1 ++ [l.out], r.2.1 + (if l.sat then 1 else 0), l.acc)) ([], 0, rowStart s t g i)

/-- The sidecar bytes of row i: (address, bytes). -/
def rowSides (g : GateJob) (i : Nat) (r : RowAcc) : List (Nat × List Byte) :=
  (g.prog.filter fun u => isReduction u || isTopk u).map fun u =>
    let a := uRbase u + sideSpan u * (g.row0 + i)
    if isTopk u then (a, r.top.flatMap fun e => leBytes 8 (topWord e))
    else (a, signedBytes 8 (satTo 64 (r.red.getD (uJ u) 0)))

/-- Exponent with which OUT narrows element (i, c) (R127). -/
def outExp (g : GateJob) (i c : Nat) : Int := uE (outOp g.prog) + (if uEs (outOp g.prog) then g.ea i c else 0)

/-- The narrowed bytes of row i, and the counts of REQ_EXP_CLAMP and ARITH_SAT (R42, R43, R45, R127). Where the row's last element lies
inside a segment of an A16 output, that segment is narrowed from the elements that the instruction has, and its RS8 is written (DESIGN
CHOICE: R127 does not say what the rest of the segment then means, log 56). -/
def rowOut (g : GateJob) (i : Nat) (vs : List Int) : List (Nat × List Byte) × Nat × Nat :=
  let d := g.dout
  let r := g.row0 + i
  if !uWe (outOp g.prog) then ([], 0, 0)
  else if d.fmt = 1 then
    (List.range ((g.n + d.segLen - 1) / d.segLen)).foldl (fun (x : List (Nat × List Byte) × Nat × Nat) j =>
      let c0 := d.segLen * j
      let q := requant (outExp g i c0) ((vs.drop c0).take d.segLen)
      (x.1 ++ [(d.base + r * d.stride + 2 * c0, q.1.flatMap (signedBytes 2)), (d.base + d.soff + r * d.sstr + j, signedBytes 1 q.2.1)],
        x.2.1 + (if q.2.2 then 1 else 0), x.2.2)) ([], 0, 0)
  else
    (List.range g.n).foldl (fun (x : List (Nat × List Byte) × Nat × Nat) c =>
      let q := narrowState (outExp g i c) d.slotExp (vs.getD c 0)
      (x.1 ++ [(d.base + r * d.stride + 4 * c, signedBytes 4 q.1)], x.2.1, x.2.2 + (if q.2 then 1 else 0))) ([], 0, 0)

/-- Runs a job: every operand and sidecar is read as it stands, then the output is written, then the sidecars row by row in program
order (R124 to R126). The order is a DESIGN CHOICE where an output overlaps an operand's other elements, or sidecar ranges overlap each
other or the output (log 56). -/
def runGate (s : State) (t : Nat) (g : GateJob) : State :=
  let rows := (List.range g.m).map fun i =>
    let r := gateRow s t g i
    (rowOut g i r.1, r.2.1, rowSides g i r.2.2)
  let put (u : State) (l : List (Nat × List Byte)) : State := l.foldl (fun v p => localWrite v t p.1 p.2) u
  let s1 := rows.foldl (fun u r => put u r.1.1) s
  let s2 := rows.foldl (fun u r => put u r.2.2) s1
  let s3 := countTile s2 t 0 (rows.map fun r => r.1.2.2).sum
  countTile (countTile s3 t 1 (rows.map fun r => r.1.2.1).sum) t 2 (rows.map fun r => r.2.1).sum

/-- The checks of a tensor that the gate pipe reads or writes: tier 0, A16 or I32, rows and columns in the tensor (R88, R91):
(failed, cause). -/
def gateChecks (d : Desc) (row0 m n : Nat) : List (Bool × Nat) :=
  [(d.tier ≠ 0, 0x04), (d.fmt ≠ 1 ∧ d.fmt ≠ 2, 0x04), (d.rows < row0 + m, 0x04), (d.cols < n, 0x04)]

/-- The bytes of the output tensor that an instruction writes (R127). -/
def outRanges (t : Nat) (p : List Nat) (d : Desc) (row0 m n : Nat) : List Range :=
  if uWe (outOp p) then tensorRanges t d row0 m 0 n else []

/-! ### GLOAD (R91, R92, R116) -/

/-- A GLOAD of slot g from address a in flight. -/
def gloadFlight (t g a : Nat) : InFlight := { InFlight.of 1 with slot := some g, loads := true, reads := [(t, a, 256)] }

/-- The 16 micro-ops that stand at an address of a local store. -/
def slotImage (s : State) (t a : Nat) : List Word128 :=
  (List.range 16).map fun i => BitVec.ofNat 128 (leNat (localRead s t (a + 16 * i) 16))

/-- What a GLOAD does: the slot holds the new micro-program, or is empty and GATE_SLOT_REJECT counts. -/
def gloadEffect (t g a : Nat) (u : State) : State :=
  let y := tileOf u t
  match checkSlot (slotImage u t a) with
  | some l => setTile u t { y with slots := tblPut y.slots g l }
  | none => countTile (setTile u t { y with slots := tblDel y.slots g }) t 3 1

/-- GLOAD (R91, R92, R116). -/
def gloadBody (t : Nat) (_s : State) (x : Tile) (w : Nat) : TileIssue :=
  match localAddress x w 256 64 85 64 with
  | none => .fault 0x06
  | some a =>
    .queued (gloadFlight t (bitsOf w 95 90) a) fun u => (gloadEffect t (bitsOf w 95 90) a u, .fine)

/-! ### GRUN (R91, R113, R128) -/

/-- A GRUN with its descriptors and scalars as captured at issue (R81, R91). -/
structure GrunOp where
  da : Desc
  db : Desc
  dout : Desc
  dbe : Bool
  m : Nat
  n : Nat
  si : Nat
  so : Nat
  slot : Nat
  garg : Nat
deriving DecidableEq, Repr

/-- Reads a GRUN bundle. -/
def grunOp (x : Tile) (w : Nat) : GrunOp :=
  { da := descOf (x.dreg (bitsOf w 35 32)), db := descOf (x.dreg (bitsOf w 39 36)), dout := descOf (x.dreg (bitsOf w 44 41))
    dbe := bitOf w 40, m := bitsOf w 63 48 + 1, n := bitsOf w 71 64 + 1, si := x.sreg (bitsOf w 84 80)
    so := x.sreg (bitsOf w 89 85), slot := bitsOf w 95 90, garg := bitsOf w 127 112 }

/-- The micro-program that a GRUN runs. -/
def GrunOp.prog (o : GrunOp) (x : Tile) : List Nat := ((tblGet x.slots o.slot).map microProgram).getD []

/-- The cause with which a GRUN faults before its ranges are looked at (R85, R91, R128). -/
def grunCause (x : Tile) (w : Nat) : Option Nat :=
  let o := grunOp x w
  let descs := (descAtIssue (x.dreg (bitsOf w 35 32))).or
    ((if o.dbe then descAtIssue (x.dreg (bitsOf w 39 36)) else none).or (descAtIssue (x.dreg (bitsOf w 44 41))))
  let checks := gateChecks o.da o.si o.m o.n ++ (if o.dbe then gateChecks o.db o.si o.m o.n else []) ++
    gateChecks o.dout o.so o.m o.n ++ [(uEs (outOp (o.prog x)) && o.dout.fmt == 1 && decide (o.da.seg < o.dout.seg), 0x04)]
  descs.or (if (tblGet x.slots o.slot).isNone then some 0x04 else firstCause checks)

/-- A GRUN in flight. -/
def grunFlight (t : Nat) (x : Tile) (o : GrunOp) : InFlight :=
  { InFlight.of 1 with
    slot := some o.slot
    reads := tensorRanges t o.da o.si o.m 0 o.n ++ (if o.dbe then tensorRanges t o.db o.si o.m 0 o.n else [])
    writes := outRanges t (o.prog x) o.dout o.so o.m o.n, sideReads := sideReadsOf t o.so o.m (o.prog x)
    sideWrites := sideWritesOf t o.so o.m (o.prog x) }

/-- What a GRUN does; it discards a held result (R89, R91). -/
def grunEffect (t : Nat) (x : Tile) (o : GrunOp) (u : State) : State :=
  let job : GateJob :=
    { prog := o.prog x, garg := o.garg, row0 := o.so, m := o.m, n := o.n
      a := fun i c => tensorElem u t o.da (o.si + i) c, ea := fun i c => tensorExp u t o.da (o.si + i) c
      b := fun i c => if o.dbe then tensorElem u t o.db (o.si + i) c else 0
      eb := fun i c => if o.dbe then tensorExp u t o.db (o.si + i) c else 0, dout := o.dout }
  let v := runGate u t job
  setTile v t { tileOf v t with held := none }

/-- GRUN (R91). -/
def grunBody (t : Nat) (_s : State) (x : Tile) (w : Nat) : TileIssue :=
  match grunCause x w with
  | some cause => .fault cause
  | none =>
    if !inStore (grunFlight t x (grunOp x w)).ranges then .fault 0x06
    else .queued (grunFlight t x (grunOp x w)) fun u => (grunEffect t x (grunOp x w) u, .fine)

end Sys2Proof.Machine
end

