-- ==== Sys2Proof/Machine/MatrixUnit.lean ====
section
/-! DEFINITION. The matrix unit: MMW, MMA and MEW (R36 to R41, R52, R57, R60 to R63, R66, R83, R87 to R90). -/

namespace Sys2Proof.Machine

/-! ### Operands of an instruction (R87) -/

/-- A matrix instruction with its descriptors and scalars as captured at issue (R81, R87). -/
structure MatOp where
  op : Nat                        -- 0x20 MMW, 0x21 MMA, 0x22 MEW
  da : Desc
  dw : Desc
  dout : Desc
  db : Desc
  doIndex : Nat
  acc : Bool
  hold : Bool
  dbe : Bool
  tb : Bool
  m : Nat
  n : Nat
  k : Nat
  sm : Nat
  sn : Nat
  sk : Nat
  so : Nat
  gp : Nat
  garg : Nat
deriving DecidableEq, Repr

/-- Reads a matrix bundle. Under HOLD, DB, DBE, GP and GARG are not read (R89). -/
def matOp (x : Tile) (w : Nat) : MatOp :=
  let d (i : Nat) : Desc := descOf (x.dreg i)
  { op := opOf w, da := d (bitsOf w 35 32), dw := d (bitsOf w 39 36), dout := d (bitsOf w 43 40), db := d (bitsOf w 79 76)
    doIndex := bitsOf w 43 40, acc := bitOf w 44, hold := bitOf w 45, dbe := bitOf w 46 && !bitOf w 45, tb := bitOf w 47
    m := bitsOf w 55 48 + 1, n := bitsOf w 63 56 + 1, k := bitsOf w 75 64 + 1, sm := x.sreg (bitsOf w 84 80)
    sn := x.sreg (bitsOf w 89 85), sk := x.sreg (bitsOf w 94 90), so := x.sreg (bitsOf w 106 102), gp := bitsOf w 101 96
    garg := bitsOf w 127 112 }

/-- Column blocks (R59). -/
def MatOp.nb (o : MatOp) : Nat := (o.n + 15) / 16

/-- Copies of an accumulator: 4 or 2 in a K-fold, 1 in an N-fold (R60). -/
def MatOp.ways (o : MatOp) : Nat := if o.op = 0x20 then (if o.nb = 1 then 4 else if o.nb = 2 then 2 else 1) else 1

/-- The BASE checks of the descriptors that the instruction names (R85). -/
def matDescs (x : Tile) (w : Nat) : Option Nat :=
  let c (hi : Nat) : Option Nat := descAtIssue (x.dreg (bitsOf w hi (hi - 3)))
  (c 35).or ((c 39).or (if bitOf w 45 then none else (c 43).or (if bitOf w 46 then c 79 else none)))

/-- The checks of R88 and R89, and the segment condition of R30: (failed, cause). DB is held to the bounds of DO (log 43). -/
def matChecks (o : MatOp) (slots : Tbl (List Word128)) (held : Option Held) : List (Bool × Nat) :=
  let kext := if o.tb then o.dw.cols else o.dw.rows
  let next := if o.tb then o.dw.rows else o.dw.cols
  let formats : List (Bool × Nat) :=
    [(o.da.tier ≠ 0 ∨ o.dw.tier ≠ 0, 0x04), (o.da.fmt ≠ 1, 0x04),
     (if o.op = 0x20 then !o.dw.isWeight else o.dw.fmt != 1, 0x04), (o.hold ∧ o.doIndex ≠ 0, 0x08),
     (o.da.rows < o.sm + o.m, 0x04)]
  let bounds : List (Bool × Nat) :=
    if o.op = 0x22 then
      [(o.k ≠ 1, 0x04), (o.da.cols < o.sn + o.n ∨ o.dw.rows < o.sm + o.m ∨ o.dw.cols < o.sn + o.n, 0x04)]
    else [(o.da.cols < o.sk + o.k ∨ kext < o.sk + o.k, 0x04), (next < o.sn + o.n, 0x04)]
  let rest : List (Bool × Nat) :=
    [(o.sn % 16 ≠ 0, 0x04), (o.op = 0x20 ∧ o.sk % o.dw.group ≠ 0, 0x04), (o.op = 0x21 ∧ o.sk % 16 ≠ 0, 0x04),
     (o.op = 0x20 ∧ o.da.segLen < o.dw.group, 0x05), (o.tb ∧ o.op ≠ 0x21, 0x04),
     (!o.hold && (tblGet slots o.gp).isNone, 0x04), (o.hold ∧ 4 < o.nb, 0x08),
     (o.acc && (match held with | some h => h.m != o.m || h.n != o.n | none => true), 0x08)]
  formats ++ bounds ++ (if o.hold then [] else gateChecks o.dout o.so o.m o.n) ++
    (if o.dbe then gateChecks o.db o.so o.m o.n else []) ++ rest

/-! ### Bytes read -/

/-- The words and scales of a weight operand: K indices sk to sk + k - 1, columns sn to sn + n - 1 (R83). -/
def weightRanges (t : Nat) (d : Desc) (sk k sn n : Nat) : List Range :=
  let word := 4 * d.weightBits
  (List.range ((n + 15) / 16)).flatMap fun b =>
    let cols := min 16 (n - 16 * b)
    let cb := sn / 16 + b
    ((List.range ((sk + k - 1) / 32 + 1 - sk / 32)).map fun i => (t, d.base + cb * d.stride + 16 * (sk / 32 + i) * word, cols * word)) ++
      ((List.range ((sk + k - 1) / d.group + 1 - sk / d.group)).map fun i =>
        (t, d.base + d.soff + cb * d.sstr + 16 * (sk / d.group + i) * 2, cols * 2))

/-- The bytes that a matrix instruction reads, sidecars aside. -/
def matReads (t : Nat) (o : MatOp) : List Range :=
  (if o.op = 0x22 then tensorRanges t o.da o.sm o.m o.sn o.n ++ tensorRanges t o.dw o.sm o.m o.sn o.n
   else tensorRanges t o.da o.sm o.m o.sk o.k ++
     (if o.op = 0x20 then weightRanges t o.dw o.sk o.k o.sn o.n
      else if o.tb then tensorRanges t o.dw o.sn o.n o.sk o.k
      else tensorRanges t o.dw o.sk o.k o.sn o.n)) ++
  (if o.dbe then tensorRanges t o.db o.so o.m 0 o.n else [])

/-! ### The product (R36 to R40) -/

/-- Weight (k, n) of a tensor (R27, R83). -/
def weightAt (s : State) (t : Nat) (d : Desc) (k n : Nat) : Int :=
  let word := 4 * d.weightBits
  let a := d.base + n / 16 * d.stride + (16 * (k / 32) + n % 16) * word
  weightValue d.weightBits (leNat (localRead s t a word)) (k % 32)

/-- GS16 word of group g in column n (R28, R83). -/
def scaleAt (s : State) (t : Nat) (d : Desc) (g n : Nat) : Nat :=
  leNat (localRead s t (d.base + d.soff + n / 16 * d.sstr + (16 * g + n % 16) * 2) 2)

/-- Sum of products over a group (R36). -/
def groupSum (a b : Nat → Int) (g : Nat × Nat) : Int :=
  (List.range g.2).foldl (fun v i => v + a (g.1 + i) * b (g.1 + i)) 0

/-- Groups of G along K, as (first index, length); the last may be shorter (R28). -/
def fixedGroups (g k : Nat) : List (Nat × Nat) := (List.range ((k + g - 1) / g)).map fun q => (g * q, min g (k - g * q))

/-- Groups of activation mode: runs over which both exponents keep their values, cut at every 128th index (R40). -/
def runGroups (e : Nat → Int × Int) (k : Nat) : List (Nat × Nat) :=
  ((List.range k).foldl (fun (l : List (Nat × Nat)) i =>
    match l with
    | (s, n) :: r => if i % 128 = 0 ∨ e i ≠ e (i - 1) then (i, 1) :: (s, n) :: r else (s, n + 1) :: r
    | [] => [(i, 1)]) []).reverse

/-- The second A16 operand's element and exponent at (k, n) (R87). -/
def secondElem (s : State) (t : Nat) (o : MatOp) (k n : Nat) : Int :=
  if o.tb then tensorElem s t o.dw n k else tensorElem s t o.dw k n
def secondExp (s : State) (t : Nat) (o : MatOp) (k n : Nat) : Int :=
  if o.tb then tensorExp s t o.dw n k else tensorExp s t o.dw k n

/-- A group of one element: its partial P, the factor that makes Q of it, and its value exponent x (R36, R38). -/
structure Group where
  part : Int
  scale : Int
  exp : Int
deriving DecidableEq, Repr

/-- The groups of element (i, j) in order (R38, R40, R66). -/
def matGroups (s : State) (t : Nat) (o : MatOp) (i j : Nat) : List Group :=
  let a (k : Nat) : Int := tensorElem s t o.da (o.sm + i) (o.sk + k)
  let ea (k : Nat) : Int := tensorExp s t o.da (o.sm + i) (o.sk + k)
  if o.op = 0x20 then
    (fixedGroups o.dw.group o.k).map fun g =>
      let gs := scaleAt s t o.dw ((o.sk + g.1) / o.dw.group) (o.sn + j)
      { part := groupSum a (fun k => weightAt s t o.dw (o.sk + k) (o.sn + j)) g, scale := gsMantissa gs
        exp := ea g.1 - gsShift gs - o.dw.shift }
  else if o.op = 0x21 then
    let eb (k : Nat) : Int := secondExp s t o (o.sk + k) (o.sn + j)
    (runGroups (fun k => (ea k, eb k)) o.k).map fun g =>
      { part := groupSum a (fun k => secondElem s t o (o.sk + k) (o.sn + j)) g, scale := 1, exp := ea g.1 + eb g.1 }
  else
    [{ part := tensorElem s t o.da (o.sm + i) (o.sn + j) * tensorElem s t o.dw (o.sm + i) (o.sn + j), scale := 1
       exp := tensorExp s t o.da (o.sm + i) (o.sn + j) + tensorExp s t o.dw (o.sm + i) (o.sn + j) }]

/-- The largest of a list that is not empty. -/
def largest (l : List Int) : Int := l.tail.foldl max (l.headD 0)

/-- Row exponent of row i of a new accumulation (R37). -/
def rowExponent (s : State) (t : Nat) (o : MatOp) (i : Nat) : Int :=
  if o.op = 0x20 then
    largest ((List.range o.k).map fun k => tensorExp s t o.da (o.sm + i) (o.sk + k)) - 15 - o.dw.shift
  else if o.op = 0x21 then
    largest ((List.range o.k).flatMap fun k => (List.range o.n).map fun j =>
      tensorExp s t o.da (o.sm + i) (o.sk + k) + secondExp s t o (o.sk + k) (o.sn + j)) - 15
  else
    largest ((List.range o.n).map fun j =>
      tensorExp s t o.da (o.sm + i) (o.sn + j) + tensorExp s t o.dw (o.sm + i) (o.sn + j)) - 15

/-! ### Folding onto the cubes (R57, R60 to R62) -/

/-- One copy of an accumulator: its value and whether it has saturated, and the partial of the last group that it took. -/
structure AccCopy where
  sum : Int × Bool
  part : Int
deriving DecidableEq, Repr

/-- Folds the groups of one element into its copies, group g into copy g mod `ways`; the existing value stands in the first copy (R38,
R60, R62). -/
def foldCopies (ways : Nat) (u : Int) (start : Int × Bool) (groups : List Group) : List AccCopy :=
  let numbered := (List.range groups.length).zip groups
  (List.range ways).map fun r =>
    let own := (numbered.filter fun p => p.1 % ways == r).map Prod.snd
    { sum := foldGroups u (if r = 0 then start else (0, false)) (own.map fun g => (g.part * g.scale, g.exp))
      part := ((own.getLast?).map Group.part).getD 0 }

/-- The drain path adds the copies of an accumulator (R62). A K-fold kept under HOLD keeps its copies, and they are added when the result
is drained or when an instruction adds into it (DESIGN CHOICE: under HOLD no drain runs and the spec does not say when they are added,
log 57). -/
def addCopies (l : List (Int × Bool)) : Int × Bool := l.tail.foldl addPartial (l.headD (0, false))

/-- Fold passes (R60). -/
def MatOp.passes (o : MatOp) : Nat := if 1 < o.ways then 1 else (o.nb + 3) / 4

/-- The column block that cube c takes in pass q of a fold of so many ways; N-fold cubes past the last column block are gated (R60). -/
def cubeColumn (ways nb q c : Nat) : Option Nat :=
  if ways = 4 then some 0 else if ways = 2 then some (c % 2) else if 4 * q + c < nb then some (4 * q + c) else none

/-- The copy that a cube makes of its accumulators (R60). -/
def cubeCopy (ways c : Nat) : Nat := if ways = 4 then c else if ways = 2 then c / 2 else 0

/-- The cube that holds copy r of the accumulators of column block b (R60). -/
def copyCube (ways b r : Nat) : Nat := if ways = 4 then r else if ways = 2 then b + 2 * r else b % 4

/-- The number under which a cube's file lists block entry i of a bank (R57). -/
def fileKey (bank : Bool) (i : Nat) : Nat := (if bank then 16 else 0) + i

/-- An unlisted block entry. -/
def AccBlock.zero : AccBlock :=
  { acc := List.replicate 256 0, part := List.replicate 256 0, exps := List.replicate 16 0 }

/-- Block entry of row block i in a bank of a tile's cube. -/
def accBlockOf (x : Tile) (c : Nat) (bank : Bool) (i : Nat) : AccBlock :=
  ((x.cubes[c]?).bind fun q => tblGet q.file (fileKey bank i)).getD AccBlock.zero

/-- Held accumulator (i, j): its copies added (R39, R62). -/
def heldValue (x : Tile) (h : Held) (i j : Nat) : Int × Bool :=
  addCopies ((List.range h.ways).map fun r =>
    (((accBlockOf x (copyCube h.ways (j / 16) r) h.bank (i / 16)).acc.getD (16 * (i % 16) + j % 16) 0).toInt, false))

/-- Exponent U of held row i (R39). -/
def heldExp (x : Tile) (h : Held) (i : Nat) : Int := (accBlockOf x 0 h.bank (i / 16)).exps.getD (i % 16) 0

/-- What a matrix instruction computes: the exponents of its rows, and the copies of its accumulators, row by row. -/
structure MatResult where
  exps : List Int
  copies : List (List AccCopy)
deriving DecidableEq, Repr

/-- The accumulators of an instruction, as its fold leaves them; with ACC they start from the held ones (R37 to R41, R62). -/
def matResult (s : State) (t : Nat) (o : MatOp) (x : Tile) : MatResult :=
  let base := if o.acc then x.held else none
  let exps := (List.range o.m).map fun i => match base with | some h => heldExp x h i | none => rowExponent s t o i
  { exps := exps
    copies := (List.range o.m).flatMap fun i => (List.range o.n).map fun j =>
      foldCopies o.ways (exps.getD i 0) (match base with | some h => heldValue x h i j | none => (0, false)) (matGroups s t o i j) }

/-- Accumulator (i, j) of a result of N columns, its copies added. -/
def MatResult.value (r : MatResult) (n i j : Nat) : Int × Bool := addCopies ((r.copies.getD (i * n + j) []).map AccCopy.sum)

/-- How many accumulators count in ARITH_SAT: an output element counts once, whichever of its copies or of the additions of the copies
saturate; the copies that HOLD keeps have not been added yet (R41, R62; DESIGN CHOICE, log 57). -/
def MatResult.saturated (r : MatResult) (hold : Bool) : Nat :=
  (r.copies.filter fun l => if hold then l.any fun c => c.sum.2 else (addCopies (l.map AccCopy.sum)).2).length

/-- Block entry of row block i of column block b, copy r (R57). Masked rows and columns hold 0 (R63). -/
def accBlock (z : MatResult) (o : MatOp) (r b i : Nat) : AccBlock :=
  let cell (l : Nat) : AccCopy :=
    if 16 * i + l / 16 < o.m ∧ 16 * b + l % 16 < o.n then
      ((z.copies.getD ((16 * i + l / 16) * o.n + 16 * b + l % 16) [])[r]?).getD { sum := (0, false), part := 0 }
    else { sum := (0, false), part := 0 }
  { acc := (List.range 256).map fun l => BitVec.ofInt 64 (cell l).sum.1
    part := (List.range 256).map fun l => BitVec.ofInt 32 (cell l).part
    exps := (List.range 16).map fun l => z.exps.getD (16 * i + l) 0 }

/-- First K index of the last weight block that a cube takes: of the last K block, two of them at once in a W2 N-fold, or of the last
group of its copy; none when it has no group (R55, R60, R61). -/
def lastBlock (o : MatOp) (c : Nat) : Option Nat :=
  if o.ways = 1 then
    (if o.dw.weightBits = 2 ∧ o.op = 0x20 then some ((o.k - 1) / 32 * 32) else some ((o.k - 1) / 16 * 16))
  else
    let l := (fixedGroups o.dw.group o.k)
    (((List.range l.length).zip l).filter fun p => p.1 % o.ways == cubeCopy o.ways c).getLast?.map fun p =>
      (p.2.1 + p.2.2 - 1) / 16 * 16

/-- The weight block of column block b from K index k0: the values (k, n), masked ones 0 (R52, R63). -/
def weightBlock (s : State) (t : Nat) (o : MatOp) (b k0 : Nat) : List Int :=
  (List.range (if o.ways = 1 ∧ o.dw.weightBits = 2 ∧ o.op = 0x20 then 512 else 256)).map fun l =>
    let k := k0 + l / 16
    let n := 16 * b + l % 16
    if k < o.k ∧ n < o.n then
      (if o.op = 0x20 then weightAt s t o.dw (o.sk + k) (o.sn + n) else secondElem s t o (o.sk + k) (o.sn + n))
    else 0

/-- The bank of pass q (R57). -/
def passBank (x : Tile) (o : MatOp) (q : Nat) : Bool :=
  match x.held with
  | some h => if o.acc then h.bank else x.bank != (q % 2 == 1)
  | none => x.bank != (q % 2 == 1)

/-- Cube c after a pass: its block entries, and the weight block that it took last, which went through the shadow set (R52, R57; that the
shadow set still holds it is a DESIGN CHOICE, log 57). In element-wise mode no weight block is loaded. -/
def cubeAfter (s : State) (t : Nat) (x : Tile) (o : MatOp) (z : MatResult) (q : Nat) (c : Nat) (k : Cube) : Cube :=
  match cubeColumn o.ways o.nb q c with
  | none => k
  | some b =>
    let file := (List.range ((o.m + 15) / 16)).foldl (fun f i =>
      tblPut f (fileKey (passBank x o q) i) (accBlock z o (cubeCopy o.ways c) b i)) k.file
    match if o.op = 0x22 then none else lastBlock o c with
    | some k0 => { weights := weightBlock s t o b k0, shadow := weightBlock s t o b k0, file := file }
    | none => { k with file := file }

/-- The cubes after an instruction, and the bank that the next pass uses: passes alternate, one that adds into held rows does not
(R57). -/
def foldOnto (s : State) (t : Nat) (x : Tile) (o : MatOp) (z : MatResult) : Tile :=
  let cubes := (List.range o.passes).foldl (fun l q => l.mapIdx fun c k => cubeAfter s t x o z q c k) x.cubes
  { x with cubes := cubes, bank := if o.acc then x.bank else x.bank != (o.passes % 2 == 1) }

/-! ### The instruction -/

/-- The cause with which a matrix instruction faults before its ranges are looked at (R85, R88, R89). -/
def matCause (x : Tile) (w : Nat) : Option Nat := (matDescs x w).or (firstCause (matChecks (matOp x w) x.slots x.held))

/-- The micro-program of a drain; none under HOLD (R89, R90). -/
def MatOp.drain (o : MatOp) (x : Tile) : List Nat := if o.hold then [] else ((tblGet x.slots o.gp).map microProgram).getD []

/-- A matrix instruction in flight. -/
def matFlight (t : Nat) (x : Tile) (o : MatOp) : InFlight :=
  { InFlight.of 0 with
    slot := if o.hold then none else some o.gp, reads := matReads t o
    writes := if o.hold then [] else outRanges t (o.drain x) o.dout o.so o.m o.n, sideReads := sideReadsOf t o.so o.m (o.drain x)
    sideWrites := sideWritesOf t o.so o.m (o.drain x) }

/-- What a matrix instruction does: it keeps its result under HOLD, else drains it through the gate pipe (R89, R90). -/
def matEffect (t : Nat) (x : Tile) (o : MatOp) (u : State) : State :=
  let r := matResult u t o x
  let s1 := countTile u t 0 (r.saturated o.hold)
  let y := foldOnto u t (tileOf s1 t) o r
  if o.hold then setTile s1 t { y with held := some { m := o.m, n := o.n, ways := o.ways, bank := passBank x o 0 } }
  else
    let job : GateJob :=
      { prog := o.drain x, garg := o.garg, row0 := o.so, m := o.m, n := o.n
        a := fun i c => (r.value o.n i c).1, ea := fun i _ => r.exps.getD i 0
        b := fun i c => if o.dbe then tensorElem u t o.db (o.so + i) c else 0
        eb := fun i c => if o.dbe then tensorExp u t o.db (o.so + i) c else 0, dout := o.dout }
    runGate (setTile s1 t { y with held := none }) t job

/-- A matrix instruction (R87 to R90). -/
def matrixBody (t : Nat) (_s : State) (x : Tile) (w : Nat) : TileIssue :=
  match matCause x w with
  | some cause => .fault cause
  | none =>
    if !inStore (matFlight t x (matOp x w)).ranges then .fault 0x06
    else .queued (matFlight t x (matOp x w)) fun u => (matEffect t x (matOp x w) u, .fine)

end Sys2Proof.Machine
end

