-- ==== Sys2Proof/Machine/SyncUnit.lean ====
section
/-! DEFINITION. SIGNAL, WAIT and SREAD (R97 to R100), with a remote SIGNAL (R98, R486). -/

namespace Sys2Proof.Machine

/-- Counter index that a bundle names (R98): CIDX plus the scalar, not wrapped, so that a sum of 2^64 and more lies outside every window
(DESIGN CHOICE: the spec does not say whether this sum wraps, log 43). -/
def counterIndex (x : Tile) (w : Nat) : Nat := bitsOf w 45 32 + (if bitOf w 46 then x.sreg (bitsOf w 51 47) else 0)

/-- Amount or target of a bundle (R98). -/
def counterValue (x : Tile) (w : Nat) : Nat := if bitOf w 68 then x.sreg (bitsOf w 73 69) else bitsOf w 127 96

/-- An instruction in the sync unit. -/
def syncFlight : InFlight := InFlight.of 3

/-- SIGNAL: the addition, here or on another chip, and the release of the writes behind the fences that it waited for (R98 to R100,
R477, R486). A remote SIGNAL of a chip that is not ACTIVE faults with cause 0x0B (R477); so does one of a context without an open Span
job (SPANJOB 0), of which the spec says nothing (DESIGN CHOICE, log 41). -/
def signalBody (t : Nat) (s : State) (x : Tile) (w : Nat) : TileIssue :=
  let i := counterIndex x w
  let amount := counterValue x w
  if bitOf w 52 then
    match s.span.active, spanJobOf s x.ctx with
    | true, some _ =>
      .queued syncFlight fun v =>
        let u := release v t (bitsOf w 15 8)
        let r := sendTracked u x.ctx 3 (bitsOf w 67 53) (((spanJobOf u x.ctx).map spanJobNum).getD 0) i (BitVec.ofNat 64 amount)
          (fun _ _ => []) .va
        (r.2, .sent [r.1])
    | _, _ => .fault 0x0B
  else
    match syncIndex s x.ctx i with
    | none => .fault 0x09
    | some g =>
      .queued syncFlight fun v =>
        let u := release v t (bitsOf w 15 8)
        let r := addSyncBy u g amount (signalClock u t)
        if r.2 then (r.1, .fault 0x0E) else (foldContext r.1 (tileOf r.1 t).ctx, .fine)

/-- WAIT holds issue until the counter is at least the target, and acquires what the additions that met it released (R98 to R100). -/
def waitBody (t : Nat) (s : State) (x : Tile) (w : Nat) : TileIssue :=
  if bitOf w 52 then .fault 0x09
  else
    match syncIndex s x.ctx (counterIndex x w) with
    | none => .fault 0x09
    | some g =>
      let v := syncOf s g
      if v.poisoned then .poisoned
      else if counterValue x w ≤ v.value.toNat then .done (acquire s t g (BitVec.ofNat 64 (counterValue x w))) (x.pc + 1)
      else .wait { index := counterIndex x w, target := BitVec.ofNat 64 (counterValue x w), met := false }

/-- WAIT_RESUME: a WAIT whose target has been met issues; on a counter that is POISONED the program faults (R100). -/
def waitResume (s : State) (t : Nat) : State :=
  let x := tileOf s t
  match x.waitOn with
  | none => s
  | some w =>
    if !running s || x.entry.isNone || x.stopped then s
    else
      match syncIndex s x.ctx w.index with
      | none => s
      | some g =>
        if w.met then advance (acquire (setTile s t { x with waitOn := none }) t g w.target) t
        else if (syncOf s g).poisoned then poisonFault s t
        else s

/-- SREAD: the counter's value goes to a scalar (R98, R100). -/
def sreadBody (t : Nat) (s : State) (x : Tile) (w : Nat) : TileIssue :=
  if bitOf w 52 || bitOf w 68 then .fault 0x09
  else
    match syncIndex s x.ctx (counterIndex x w) with
    | none => .fault 0x09
    | some g =>
      if (syncOf s g).poisoned then .poisoned
      else .queued syncFlight fun u =>
        (setTile u t ((tileOf u t).setSreg (bitsOf w 73 69) (syncOf u g).value.toNat), .fine)

end Sys2Proof.Machine
end

