-- ==== Sys2Proof/Machine/TileRows.lean ====
section
/-! DEFINITION. The rows of a tile: its instructions, their completion (R78) and the end of a program (R103, R110, R393). -/

namespace Sys2Proof.Machine

/-! ### INSTRUCTION_COMPLETE (R78, R105, R486) -/

/-- A drain or a GRUN: it uses the gate pipe (R90). -/
def InFlight.usesPipe (f : InFlight) : Bool := f.slot.isSome && !f.loads

/-- An instruction may complete: the matrix unit, the gate pipe and the sync unit in issue order, drains and GRUNs one after the other
in issue order too, a COPY in any (R90, R96, R105); what it sent to other chips is answered. -/
def mayComplete (s : State) (x : Tile) (i : Nat) (f : InFlight) : Bool :=
  (f.unit == 2 || (x.inflight.take i).all fun o => o.unit != f.unit && !(o.usesPipe && f.usesPipe)) &&
    f.remote.all fun r => !(s.span.outstanding.any fun o => o.port == r.1 && o.seq == r.2)

/-- Instruction i of those in flight on tile t completes and releases its fence; what it read and wrote stays unordered until a fence
or a counter orders it (R104). It does so in a DEBUG or STWRESET freeze too
(R470). -/
def instructionComplete (s : State) (t i : Nat) : State :=
  let x := tileOf s t
  match x.inflight[i]? with
  | none => s
  | some f =>
    if !ready s || s.dbg.frozen == some .lrs || !mayComplete s x i f then s
    else noteDone (setTile s t { (x.moveFence f.fence fun n => n - 1) with inflight := x.inflight.eraseIdx i }) t f

/-! ### PROGRAM_END (R103, R110, R147 to R149, R393) -/

/-- The program of a tile has ended, or has been stopped (R103, R106, R110). -/
def programOver (x : Tile) : Bool :=
  x.entry.isSome && (x.stopped || (x.halted && x.inflight.isEmpty && x.fences.all fun n => n == 0))

/-- The candidates of a rank's parts are written, if that has not happened yet (R147). -/
def rankCandidates (s : State) (g rank : Nat) : State :=
  match gangOf s g with
  | none => s
  | some (y, _, x, _, d) =>
    if d.kind = 1 && appends x.cmd then
      ((rankParts x (y.node / 65536) d y.chunk rank).map Prod.fst).foldl (fun u j => writeCandidates u g j) s
    else s

/-- A rank's candidates still wait to be written (R181). -/
def candidatesLeft (s : State) (g rank : Nat) : Bool :=
  match gangOf s g with
  | none => false
  | some (y, _, x, _, d) =>
    d.kind == 1 && appends x.cmd && ((rankParts x (y.node / 65536) d y.chunk rank).any fun q => !y.ended.contains (q.1, 0))

/-- What the engine takes from a rank's local store when its program ends: the top-k lists of a head node, the trees of a draft
node (R149, R393). -/
def takeResults (s : State) (g t rank : Nat) : State :=
  match gangOf s g with
  | none => s
  | some (y, e, x, p, d) =>
    let w := y.node / 65536
    let ps := rankParts x w d y.chunk rank
    if d.kind = 3 then
      let k := 8 * fieldAt p.manifest 43 1
      ps.foldl (fun u q =>
        let first := (rankRows x p.manifest d w y.chunk rank q.1).1
        let l := localRead s t (d.lsoff + k * first) (k * gangRows x p.manifest d y.chunk q.2)
        modEntry u e fun z => { z with lists := tblPut z.lists q.1 l }) s
    else if d.kind = 4 then
      (List.range ps.length).foldl (fun u i =>
        match ps[i]? with
        | none => u
        | some q =>
          let tree := draftTree (localRead s t (d.lsoff + 64 * i) 64)
          modEntry u e fun z => { z with parts := z.parts.modify q.1 fun v => { v with draft := tree } }) s
    else s

/-- The output rows of a REC_CHUNK that lie in tile t are taken as its program ends (R211; log 33). -/
def rankRowsOut (s : State) (g t : Nat) : State :=
  match gangOf s g with
  | none => s
  | some (y, e, x, p, _) => takeRows s e x p (y.node / 65536) (y.node % 65536) y.chunk t y.tiles

/-- A gang whose tiles have all ended: a TILE_RUN is ready to retire; an operation expanded from a request is over, and the graph
goes on (R110, R111, R393). -/
def gangOver (s : State) (e : Nat) : State :=
  match entryOf s e with
  | none => s
  | some y =>
    if !(tilesOf s [e]).isEmpty then s
    else match y.parent with
      | none => if y.status.isNone then setEntry s e { y with state := .retiring } else s
      | some r =>
        let s1 := delEntry (unwait s [e]) e
        match entryOf s1 r with
        | none => s1
        | some x =>
          if x.status.isSome then s1
          else expand (setEntry s1 r { x with ended := x.ended ++ [(y.node, y.chunk)] }) r (y.node / 65536)

/-- PROGRAM_END of tile t. It waits while the candidates of its rank cannot be written yet (R147, R181). -/
def programEnd (s : State) (t : Nat) : State :=
  let x := tileOf s t
  if !running s || !programOver x then s
  else
    match x.entry with
    | none => s
    | some e =>
      if x.stopped then settle (gangOver (releaseTile s t) e)
      else
        let s1 := rankCandidates s e x.rank
        if candidatesLeft s1 e x.rank then s1
        else settle (gangOver (releaseTile (rankRowsOut (takeResults (foldFreed s1 e x.rank) e t x.rank) e t) t) e)

/-! ### The rows -/

/-- TNOP (R80, R101). -/
def execTnop (t : Fin 96) (s : State) : Host.Outcome State Fault Refusal :=
  .next (issueTile s t 0x00 fun u x _ => .done u (x.pc + 1))

/-- HALT (R103). -/
def execHalt (t : Fin 96) (s : State) : Host.Outcome State Fault Refusal := .next (issueTile s t 0x01 (haltBody t))

/-- BR (R102). -/
def execBr (t : Fin 96) (s : State) : Host.Outcome State Fault Refusal := .next (issueTile s t 0x02 brBody)

/-- SETI (R101). -/
def execSeti (t : Fin 96) (s : State) : Host.Outcome State Fault Refusal := .next (issueTile s t 0x03 (setiBody t))

/-- ALU (R101). -/
def execAlu (t : Fin 96) (s : State) : Host.Outcome State Fault Refusal := .next (issueTile s t 0x04 (aluBody t))

/-- LDS (R101). -/
def execLds (t : Fin 96) (s : State) : Host.Outcome State Fault Refusal := .next (issueTile s t 0x05 (ldsBody t))

/-- STS (R101). -/
def execSts (t : Fin 96) (s : State) : Host.Outcome State Fault Refusal := .next (issueTile s t 0x06 (stsBody t))

/-- DLOAD (R85, R101). -/
def execDload (t : Fin 96) (s : State) : Host.Outcome State Fault Refusal := .next (issueTile s t 0x07 (dloadBody t))

/-- DADD (R101). -/
def execDadd (t : Fin 96) (s : State) : Host.Outcome State Fault Refusal := .next (issueTile s t 0x08 (daddBody t))

/-- MMW (R87). -/
def execMmw (t : Fin 96) (s : State) : Host.Outcome State Fault Refusal := .next (issueTile s t 0x20 (matrixBody t))

/-- MMA (R87). -/
def execMma (t : Fin 96) (s : State) : Host.Outcome State Fault Refusal := .next (issueTile s t 0x21 (matrixBody t))

/-- MEW (R66, R87). -/
def execMew (t : Fin 96) (s : State) : Host.Outcome State Fault Refusal := .next (issueTile s t 0x22 (matrixBody t))

/-- GLOAD (R91). -/
def execGload (t : Fin 96) (s : State) : Host.Outcome State Fault Refusal := .next (issueTile s t 0x30 (gloadBody t))

/-- GRUN (R91). -/
def execGrun (t : Fin 96) (s : State) : Host.Outcome State Fault Refusal := .next (issueTile s t 0x31 (grunBody t))

/-- COPY of a tile program (R93). -/
def execTileCopy (t : Fin 96) (s : State) : Host.Outcome State Fault Refusal := .next (issueTile s t 0x40 (copyBody t))

/-- FILL (R93). -/
def execFill (t : Fin 96) (s : State) : Host.Outcome State Fault Refusal := .next (issueTile s t 0x41 (fillBody t))

/-- SIGNAL (R98). -/
def execSignal (t : Fin 96) (s : State) : Host.Outcome State Fault Refusal := .next (issueTile s t 0x50 (signalBody t))

/-- WAIT (R98). -/
def execWait (t : Fin 96) (s : State) : Host.Outcome State Fault Refusal := .next (issueTile s t 0x51 (waitBody t))

/-- WAIT_RESUME (R100). -/
def execWaitResume (t : Fin 96) (s : State) : Host.Outcome State Fault Refusal := .next (waitResume s t)

/-- SREAD (R98). -/
def execSread (t : Fin 96) (s : State) : Host.Outcome State Fault Refusal := .next (issueTile s t 0x52 (sreadBody t))

/-- INSTRUCTION_COMPLETE (R78). -/
def execInstructionComplete (t : Fin 96) (index : Nat) (s : State) : Host.Outcome State Fault Refusal :=
  .next (instructionComplete s t index)

/-- PROGRAM_END (R103). -/
def execProgramEnd (t : Fin 96) (s : State) : Host.Outcome State Fault Refusal := .next (programEnd s t)

end Sys2Proof.Machine
end

