-- ==== Sys2Proof/Machine/Dispatch.lean ====
section
/-! DEFINITION. The dispatch: one arm per command, each one call of its meaning. -/

namespace Sys2Proof.Machine

/-- The effect of a command on everything but the queue. -/
def exec (i : Instr) (s : State) : Host.Outcome State Fault Refusal :=
  match i with
  | .nop h => Sys2Proof.Machine.execNop h s
  | .syncWait h b => Sys2Proof.Machine.execSyncWait h b s
  | .syncWaitRetire e => Sys2Proof.Machine.execSyncWaitRetire e s
  | .syncSignal h b => Sys2Proof.Machine.execSyncSignal h b s
  | .copy h b => Sys2Proof.Machine.execCopy h b s
  | .tileRun h b => Sys2Proof.Machine.execTileRun h b s
  | .packageLoad h b => Sys2Proof.Machine.execPackageLoad h b s
  | .packageUnload h handle => Sys2Proof.Machine.execPackageUnload h handle s
  | .streamOpen h b => Sys2Proof.Machine.execStreamOpen h b s
  | .streamClose h stream => Sys2Proof.Machine.execStreamClose h stream s
  | .streamClosePoint e => Sys2Proof.Machine.execStreamClosePoint e s
  | .streamPark h b => Sys2Proof.Machine.execStreamPark h b s
  | .park e => Sys2Proof.Machine.execPark e s
  | .streamUnpark h stream => Sys2Proof.Machine.execStreamUnpark h stream s
  | .swapIn e stream => Sys2Proof.Machine.execSwapIn e stream s
  | .step h b => Sys2Proof.Machine.execStep h b s
  | .prefill h b => Sys2Proof.Machine.execPrefill h b s
  | .recChunk h b => Sys2Proof.Machine.execRecChunk h b s
  | .kvMap h b => Sys2Proof.Machine.execKvMap h b s
  | .kvUnmap h b => Sys2Proof.Machine.execKvUnmap h b s
  | .poolGrow h b => Sys2Proof.Machine.execPoolGrow h b s
  | .poolShrink h b => Sys2Proof.Machine.execPoolShrink h b s
  | .tableLoad h b => Sys2Proof.Machine.execTableLoad h b s
  | .tableInstall e => Sys2Proof.Machine.execTableInstall e s
  | .jobBegin h b => Sys2Proof.Machine.execJobBegin h b s
  | .jobEnd h flags => Sys2Proof.Machine.execJobEnd h flags s
  | .present h b => Sys2Proof.Machine.execPresent h b s
  | .presentStart e => Sys2Proof.Machine.execPresentStart e s
  | .contextCreate h b => Sys2Proof.Machine.execContextCreate h b s
  | .contextDestroy h ctx => Sys2Proof.Machine.execContextDestroy h ctx s
  | .contextDestruction ctx => Sys2Proof.Machine.execContextDestruction ctx s
  | .contextWipeEnd ctx => Sys2Proof.Machine.execContextWipeEnd ctx s
  | .fwUpdate h b => Sys2Proof.Machine.execFwUpdate h b s
  | .handoverRollback => Sys2Proof.Machine.execHandoverRollback s
  | .libWrite h b => Sys2Proof.Machine.execLibWrite h b s
  | .libErase h b => Sys2Proof.Machine.execLibErase h b s
  | .nandEraseDone block => Sys2Proof.Machine.execNandEraseDone block s
  | .eraseSuspend channel block => Sys2Proof.Machine.execEraseSuspend channel block s
  | .attest h b => Sys2Proof.Machine.execAttest h b s
  | .tnop t => Sys2Proof.Machine.execTnop t s
  | .halt t => Sys2Proof.Machine.execHalt t s
  | .programEnd t => Sys2Proof.Machine.execProgramEnd t s
  | .br t => Sys2Proof.Machine.execBr t s
  | .seti t => Sys2Proof.Machine.execSeti t s
  | .alu t => Sys2Proof.Machine.execAlu t s
  | .lds t => Sys2Proof.Machine.execLds t s
  | .sts t => Sys2Proof.Machine.execSts t s
  | .dload t => Sys2Proof.Machine.execDload t s
  | .dadd t => Sys2Proof.Machine.execDadd t s
  | .mmw t => Sys2Proof.Machine.execMmw t s
  | .mma t => Sys2Proof.Machine.execMma t s
  | .mew t => Sys2Proof.Machine.execMew t s
  | .gload t => Sys2Proof.Machine.execGload t s
  | .grun t => Sys2Proof.Machine.execGrun t s
  | .tileCopy t => Sys2Proof.Machine.execTileCopy t s
  | .fill t => Sys2Proof.Machine.execFill t s
  | .signal t => Sys2Proof.Machine.execSignal t s
  | .wait t => Sys2Proof.Machine.execWait t s
  | .waitResume t => Sys2Proof.Machine.execWaitResume t s
  | .sread t => Sys2Proof.Machine.execSread t s
  | .instructionComplete t index => Sys2Proof.Machine.execInstructionComplete t index s
  | .doorbellSubmission fn ring write => Sys2Proof.Machine.execDoorbellSubmission fn ring write s
  | .doorbellConsumed fn ring write => Sys2Proof.Machine.execDoorbellConsumed fn ring write s
  | .ringFetch fn ring => Sys2Proof.Machine.execRingFetch fn ring s
  | .dispatch e tiles => Sys2Proof.Machine.execDispatch e tiles s
  | .overduePromote e => Sys2Proof.Machine.execOverduePromote e s
  | .deadlineMissed e => Sys2Proof.Machine.execDeadlineMissed e s
  | .requestTimeout e => Sys2Proof.Machine.execRequestTimeout e s
  | .requestRetire e => Sys2Proof.Machine.execRequestRetire e s
  | .moderationTimer fn ring => Sys2Proof.Machine.execModerationTimer fn ring s
  | .kvSetDeliver e rank => Sys2Proof.Machine.execKvSetDeliver e rank s
  | .candidateWrite e row layer => Sys2Proof.Machine.execCandidateWrite e row layer s
  | .sampling e => Sys2Proof.Machine.execSampling e s
  | .streamCommit e row => Sys2Proof.Machine.execStreamCommit e row s
  | .growthRetry ctx tier => Sys2Proof.Machine.execGrowthRetry ctx tier s
  | .epochDrain ctx epoch => Sys2Proof.Machine.execEpochDrain ctx epoch s
  | .fsyncPulse high => Sys2Proof.Machine.execFsyncPulse high s
  | .frameBoundaryFree => Sys2Proof.Machine.execFrameBoundaryFree s
  | .lateEdge => Sys2Proof.Machine.execLateEdge s
  | .almanacWindow => Sys2Proof.Machine.execAlmanacWindow s
  | .panicRaise => Sys2Proof.Machine.execPanicRaise s
  | .panicRelease => Sys2Proof.Machine.execPanicRelease s
  | .fsyncDisable fn => Sys2Proof.Machine.execFsyncDisable fn s
  | .almanacCommit fn => Sys2Proof.Machine.execAlmanacCommit fn s
  | .almanacCheckEnd => Sys2Proof.Machine.execAlmanacCheckEnd s
  | .ringCommit fn value => Sys2Proof.Machine.execRingCommit fn value s
  | .ringDisable fn value => Sys2Proof.Machine.execRingDisable fn value s
  | .ringDisableEnd fn ring => Sys2Proof.Machine.execRingDisableEnd fn ring s
  | .hwinCommit fn window value => Sys2Proof.Machine.execHwinCommit fn window value s
  | .drbgReseed fn value => Sys2Proof.Machine.execDrbgReseed fn value s
  | .drbgReseedApply ctx => Sys2Proof.Machine.execDrbgReseedApply ctx s
  | .leaseRenew fn value => Sys2Proof.Machine.execLeaseRenew fn value s
  | .leaseExpiry fn => Sys2Proof.Machine.execLeaseExpiry fn s
  | .graceExpiry fn => Sys2Proof.Machine.execGraceExpiry fn s
  | .attach fn value => Sys2Proof.Machine.execAttach fn value s
  | .attachEffect fn => Sys2Proof.Machine.execAttachEffect fn s
  | .detach fn value => Sys2Proof.Machine.execDetach fn value s
  | .flr fn => Sys2Proof.Machine.execFlr fn s
  | .hotReset => Sys2Proof.Machine.execHotReset s
  | .d3hotEntry fn => Sys2Proof.Machine.execD3hotEntry fn s
  | .d3hotToD0 fn => Sys2Proof.Machine.execD3hotToD0 fn s
  | .coldReset cause => Sys2Proof.Machine.execColdReset cause s
  | .bootRom => Sys2Proof.Machine.execBootRom s
  | .firmwareBringup => Sys2Proof.Machine.execFirmwareBringup s
  | .recoveryGo fn => Sys2Proof.Machine.execRecoveryGo fn s
  | .lrsReset fn key => Sys2Proof.Machine.execLrsReset fn key s
  | .pwrWarmReset fn key => Sys2Proof.Machine.execPwrWarmReset fn key s
  | .powerLoss => Sys2Proof.Machine.execPowerLoss s
  | .powerEstimate watts => Sys2Proof.Machine.execPowerEstimate watts s
  | .avsAckTimeout => Sys2Proof.Machine.execAvsAckTimeout s
  | .thermalThrottle junction stack => Sys2Proof.Machine.execThermalThrottle junction stack s
  | .thermalThrottleExit junction stack => Sys2Proof.Machine.execThermalThrottleExit junction stack s
  | .thermtrip junction stack => Sys2Proof.Machine.execThermtrip junction stack s
  | .secAuthLcTransition fn value => Sys2Proof.Machine.execSecAuthLcTransition fn value s
  | .secAuthTrustUpdate fn value => Sys2Proof.Machine.execSecAuthTrustUpdate fn value s
  | .hbmRetrainNow fn value => Sys2Proof.Machine.execHbmRetrainNow fn value s
  | .retrainDue channel => Sys2Proof.Machine.execRetrainDue channel s
  | .retrainStart channel => Sys2Proof.Machine.execRetrainStart channel s
  | .retrainEnd trained => Sys2Proof.Machine.execRetrainEnd trained s
  | .aerr channel window again => Sys2Proof.Machine.execAerr channel window again s
  | .derr pc again => Sys2Proof.Machine.execDerr pc again s
  | .readParityError pc again => Sys2Proof.Machine.execReadParityError pc again s
  | .uncorrectableBurst addr again => Sys2Proof.Machine.execUncorrectableBurst addr again s
  | .symbolCorrection burst => Sys2Proof.Machine.execSymbolCorrection burst s
  | .refresh pc bank => Sys2Proof.Machine.execRefresh pc bank s
  | .hbmTempRead stack celsius => Sys2Proof.Machine.execHbmTempRead stack celsius s
  | .pageIdleTimer pc bank => Sys2Proof.Machine.execPageIdleTimer pc bank s
  | .requestAged pc index => Sys2Proof.Machine.execRequestAged pc index s
  | .writeQueueDrain pc => Sys2Proof.Machine.execWriteQueueDrain pc s
  | .flashReadRetry channel level => Sys2Proof.Machine.execFlashReadRetry channel level s
  | .flashCommandTimeout channel => Sys2Proof.Machine.execFlashCommandTimeout channel s
  | .flsRdtimApply fn value => Sys2Proof.Machine.execFlsRdtimApply fn value s
  | .channelRateSwitch channel reads => Sys2Proof.Machine.execChannelRateSwitch channel reads s
  | .lowerTierError e => Sys2Proof.Machine.execLowerTierError e s
  | .lowerTierLate e => Sys2Proof.Machine.execLowerTierLate e s
  | .componentRestart c cause => Sys2Proof.Machine.execComponentRestart c cause s
  | .coreRestart core => Sys2Proof.Machine.execCoreRestart core s
  | .stewardReset => Sys2Proof.Machine.execStewardReset s
  | .lastResortEntry trap => Sys2Proof.Machine.execLastResortEntry trap s
  | .tileTransient t what => Sys2Proof.Machine.execTileTransient t what s
  | .faultStatusClear fn mask => Sys2Proof.Machine.execFaultStatusClear fn mask s
  | .debugFrost fn value => Sys2Proof.Machine.execDebugFrost fn value s
  | .thaw fn value => Sys2Proof.Machine.execThaw fn value s
  | .frostLimitExpiry => Sys2Proof.Machine.execFrostLimitExpiry s
  | .frostComplete => Sys2Proof.Machine.execFrostComplete s
  | .counterClear fn value => Sys2Proof.Machine.execCounterClear fn value s
  | .traceEnable fn value => Sys2Proof.Machine.execTraceEnable fn value s
  | .dtimeRead fn => Sys2Proof.Machine.execDtimeRead fn s
  | .counterRead fn => Sys2Proof.Machine.execCounterRead fn s
  | .eqxOffsetRead fn => Sys2Proof.Machine.execEqxOffsetRead fn s
  | .registerWrite fn place value => Sys2Proof.Machine.execRegisterWrite fn place value s
  | .emuTimeout fn write => Sys2Proof.Machine.execEmuTimeout fn write s
  | .spnCommit fn => Sys2Proof.Machine.execSpnCommit fn s
  | .spnLeave fn => Sys2Proof.Machine.execSpnLeave fn s
  | .spnRemeasure fn => Sys2Proof.Machine.execSpnRemeasure fn s
  | .spanData f => Sys2Proof.Machine.execSpanData f s
  | .rdreq f => Sys2Proof.Machine.execRdreq f s
  | .spanSignal f => Sys2Proof.Machine.execSpanSignal f s
  | .ack f => Sys2Proof.Machine.execAck f s
  | .nack f => Sys2Proof.Machine.execNack f s
  | .jobfault f => Sys2Proof.Machine.execJobfault f s
  | .eqx f => Sys2Proof.Machine.execEqx f s
  | .spanResend port seq => Sys2Proof.Machine.execSpanResend port seq s
  | .blockLockLoss port relocked => Sys2Proof.Machine.execBlockLockLoss port relocked s
  | .portRecalibration port good => Sys2Proof.Machine.execPortRecalibration port good s
  | .mctpControl request => Sys2Proof.Machine.execMctpControl request s
  | .getHealth request => Sys2Proof.Machine.execGetHealth request s
  | .getFaultLog request => Sys2Proof.Machine.execGetFaultLog request s
  | .clearFaultStatus request => Sys2Proof.Machine.execClearFaultStatus request s
  | .getCounter request => Sys2Proof.Machine.execGetCounter request s
  | .sramCorrection slice address => Sys2Proof.Machine.execSramCorrection slice address s
  | .spanLinkUp port => Sys2Proof.Machine.execSpanLinkUp port s
  | .pcieLinkUp => Sys2Proof.Machine.execPcieLinkUp s
  | .framePhaseHold => Sys2Proof.Machine.execFramePhaseHold s
  | .testPortInstruction what => Sys2Proof.Machine.execTestPortInstruction what s
  | .smbusArpAssign address => Sys2Proof.Machine.execSmbusArpAssign address s

end Sys2Proof.Machine
end

