-- ==== Sys2Proof/Machine/Tick.lean ====
section
/-! DEFINITION. What the engine does while no command waits: one tick of REFCLK_SYS (log 2). -/

namespace Sys2Proof.Machine

/-- Every pseudo-channel with a waiting request issues one column command (R318, R322). -/
def serveAll (s : State) : State := (s.hbm.pcs.map Prod.fst).foldl serveOne s

/-- Events of a list within so many ns before now. -/
def within (s : State) (ns : Nat) (l : List Nat) : Nat := (l.filter fun t => decide (now s < t + ns)).length

/-- SUP restarts the device watchdog: no core is stopped, SUP's core is not halted by a debugger, no component has restarted 3
times within 1 s, no core 3 times within 10 s (R436, R439). -/
def supServes (s : State) : Bool :=
  s.boot.stage == 5 && !s.lrs.active && !(s.fw.cores.any fun c => c.stopped) &&
    !((s.fw.cores.head?.map fun c => c.debugHalt).getD false) &&
    (s.fw.compTimes.all fun p => decide (within s 1000000000 p.2 < 3)) &&
    (s.fw.cores.all fun c => decide (within s 10000000000 c.restarts < 3))

/-- The device watchdog starts again with its period (R436; how often SUP restarts it is a DESIGN CHOICE: at every tick, log 2). -/
def petWatchdog (s : State) : State :=
  if supServes s then { s with fw := { s.fw with wdtEnd := BitVec.ofNat 64 (now s + 1000000 * s.fw.wdt.toNat) } } else s

/-- A port that lost block lock and is not up within 100 ms retires (R488). -/
def latePort (s : State) (p : Bool) : State :=
  match (portOf s p).lostAt with
  | some t => if t.toNat + 100000000 < now s then settleLive (retirePort s p 2) else s
  | none => s

/-- One tick of REFCLK_SYS: Device Time goes up by 10 ns and each pseudo-channel serves one request (R230, R318; DESIGN CHOICE,
log 2); a due EQX request goes out (R489), a port without lock for too long retires. Every other event of time has a row of its own. Without power, in PERST_N and after a thermal trip no clock runs (R493, R523). -/
def idleTick (s : State) : State :=
  if !ticking s then s
  else
    let s1 := serveAll { s with time := { s.time with dtime := s.time.dtime + 10 } }
    petWatchdog (latePort (latePort (eqxDue s1) false) true)

end Sys2Proof.Machine
end

