-- ==== Sys2Proof/Machine/Flags.lean ====
section
/-! DEFINITION. The pins that the engine drives and the test port's identification, as functions of the state (R366, R457, R493,
R517, R519, R520, R523). -/

namespace Sys2Proof.Machine

/-- VDD_IO18 is within tolerance: the engine drives its open-drain pins; before that they read high (R517). -/
def pinsDriven (s : State) : Bool := s.power.railsGood

/-- HBUSY_N is driven low (R366): until READY after a reset, while PERST_N is low, in the last-resort state, after a device loss. -/
def hbusyLow (s : State) : Bool :=
  pinsDriven s && (!s.boot.released || !perstInside s || s.lrs.active || s.fw.devLoss)

/-- FAULT_N is driven low (R457). -/
def faultLow (s : State) : Bool :=
  pinsDriven s && (s.lrs.active || s.fw.devLoss || s.fw.faultRetire || s.fw.faultStw)

/-- THERMTRIP_N is driven low (R523). -/
def thermtripLow (s : State) : Bool := pinsDriven s && s.pins.thermtrip

/-- SMB_ALERT_N is asserted: FW_FAULT_STATUS holds a cause that drives FAULT_N (R519). -/
def smbAlertLow (s : State) : Bool :=
  pinsDriven s && (s.fw.devLoss || s.fw.faultRetire || s.fw.faultStw)

/-- IDCODE of the test port: bits 31:28 the silicon revision, bits 27:12 0x9600; bits 11:0 are the BSDL file's (R520; free,
log 4). -/
def idcode (s : State) : BitVec 32 :=
  BitVec.ofNat 32 (2 ^ 28 * s.fuses.rev.toNat + 2 ^ 12 * 0x9600 + Config.freeNat 0 % 2 ^ 12)

end Sys2Proof.Machine
end

