-- ==== Sys2Proof/Safety.lean ====
section
/-! DEFINITION. What claims are stated in: the canonical form of memories, the fuses that only move forward, the quiet Docket, the
row of a ring command, and the issue of a tile instruction. -/

namespace Sys2Proof.Machine

/-! ### Invariants -/

/-- Every memory of the engine is in canonical form (log 5, 6, 10). -/
def memoriesOk (s : State) : Prop :=
  s.hostMem.wf ∧ s.localMem.wf ∧ s.sramMem.wf ∧ tblWf s.hbmMem ∧ tblWf s.libMem ∧ s.frostMem.wf ∧ s.stewardMem.wf

/-- The fuses of a later state follow from those of an earlier one: the order and the revision never change, KEPOCH never falls, a
part that is DESTROYED stays so, and the device secret is kept until the part is DESTROYED, when every bit of it reads 1 (R375, R403 to R407). -/
def fusesFollow (a b : Fuses) : Prop :=
  b.code = a.code ∧ b.rev = a.rev ∧ b.rootKey = a.rootKey ∧ b.rootDigest = a.rootDigest ∧ a.kepoch ≤ b.kepoch ∧ (a.lcs = 4 → b.lcs = 4) ∧
    (b.uds = a.uds ∨ (b.lcs = 4 ∧ b.uds = BitVec.allOnes 256))

/-- A run of steps from a state. -/
inductive Steps : State → State → Prop where
  | refl (s : State) : Steps s s
  | next {s t u : State} : Steps s t → step t = .next u → Steps s u

/-! ### A quiet Docket -/

/-- Nothing waits in the Docket, no GO of SEC_AUTH_CTRL is held, and no read has failed for good: nothing follows from an event. -/
def calm (s : State) : Prop :=
  s.docket.entries = [] ∧ s.sec.busy = false ∧ s.hbm.condemned = [] ∧ s.flash.suspects = []

/-- No tile runs a program. -/
def tilesIdle (s : State) : Prop := ∀ p ∈ s.tiles, p.2.entry = none

/-- The entry of a ring command has just been fetched (R348, log 1). -/
def fetched (s : State) (h : ReqHeader) (cmd : Command) : State := (addEntry s (newEntry s h cmd [])).2

/-- A ring command meets nothing else: its ring may be fetched from, the Docket is empty, no tile runs, nothing holds admission. -/
def alone (s : State) (h : ReqHeader) : Prop :=
  mayFetch s h.fn.toNat h.sq.toNat = true ∧ calm s ∧ tilesIdle s ∧ admissionHeld s = false

/-- The entry of a ring command passes the checks of R431 with these parts. -/
def admits (s : State) (h : ReqHeader) (cmd : Command) (parts : List Part) : Prop :=
  admitCheck (fetched s h cmd) h cmd false false = .ok parts

/-- A ring command's entry right after its admission (R250, R431), READY once it may start. -/
def admitted (s : State) (h : ReqHeader) (cmd : Command) (parts : List Part) : State :=
  refreshReady (queueEntry (fetched s h cmd) s.docket.nextId (newEntry s h cmd []) parts)

/-- A ring command that meets nothing else, passes its checks and may start at once (R139, R246, R249, R431). -/
def startsAlone (s : State) (h : ReqHeader) (cmd : Command) : Prop :=
  alone s h ∧ admits s h cmd [] ∧ (entryOf (admitted s h cmd []) s.docket.nextId).any (eligible (admitted s h cmd [])) = true

/-- The state in which a ring command that starts at once begins its work: its entry is RUNNING and dispatched. -/
def began (s : State) (h : ReqHeader) (cmd : Command) : State :=
  let u := admitted s h cmd []
  noteStart (setEntry u s.docket.nextId
    { (entryOf u s.docket.nextId).getD (newEntry s h cmd []) with state := .running }) s.docket.nextId

/-- The entry of a command that has begun. -/
def begunEntry (s : State) (h : ReqHeader) (cmd : Command) : Entry :=
  (entryOf (began s h cmd) s.docket.nextId).getD (newEntry s h cmd [])

/-- The row of a ring command. -/
def ringRow (h : ReqHeader) : Command → Instr
  | .nop => .nop h
  | .syncWait b => .syncWait h b
  | .syncSignal b => .syncSignal h b
  | .copy b => .copy h b
  | .tileRun b => .tileRun h b
  | .packageLoad b => .packageLoad h b
  | .packageUnload p => .packageUnload h p
  | .streamOpen b => .streamOpen h b
  | .streamClose i => .streamClose h i
  | .streamPark b => .streamPark h b
  | .streamUnpark i => .streamUnpark h i
  | .step b => .step h b
  | .prefill b => .prefill h b
  | .recChunk b => .recChunk h b
  | .kvMap b => .kvMap h b
  | .kvUnmap b => .kvUnmap h b
  | .poolGrow b => .poolGrow h b
  | .poolShrink b => .poolShrink h b
  | .tableLoad b => .tableLoad h b
  | .jobBegin b => .jobBegin h b
  | .jobEnd f => .jobEnd h f
  | .present b => .present h b
  | .contextCreate b => .contextCreate h b
  | .contextDestroy c => .contextDestroy h c
  | .fwUpdate b => .fwUpdate h b
  | .libWrite b => .libWrite h b
  | .libErase b => .libErase h b
  | .attest b => .attest h b

/-! ### Registers -/

/-- A write of an emulated register of function f is served: HBUSY_N is high, BAR0 answers and the stewards serve (R367, R430). -/
def servesWrite (s : State) (f : Nat) : Prop := ready s = true ∧ barOpen s f = true ∧ stewardsServe s = true

/-- HBM and flash events happen: the stacks are trained, the clocks run and the last-resort sequencer has not stopped the engine
(R440, R497). -/
def stacksRun (s : State) : Prop := ticking s = true ∧ s.boot.released = true ∧ s.lrs.active = false

/-! ### Tile instructions -/

/-- The bundle that stands at the program counter of tile t; none where its fetch fails (R109). -/
def bundleAt (s : State) (t : Nat) : Option Nat :=
  match (fetchBundle s t).1 with
  | .ok w => some w
  | .error _ => none

/-- The state in which bundle w of tile t takes effect: it is fetched, and the fences of its mask have been waited for (R77, R109). -/
def issueState (s : State) (t w : Nat) : State := noteFences (fetchBundle s t).2 t (bitsOf w 15 8)

/-- The bundle w at the program counter of tile t is of opcode op and may issue (R73, R77, R78, R92, R102, R109). -/
structure Issues (s : State) (t op w : Nat) : Prop where
  runs : running s = true
  held : (tileOf s t).entry.isSome = true
  goes : (tileOf s t).halted = false ∧ (tileOf s t).stopped = false ∧ (tileOf s t).waitOn = none
  inside : (tileOf s t).pc < (tileOf s t).len
  fetch : bundleAt s t = some w
  free : fenceWait (tileOf s t) w = false ∧ queueFull (tileOf s t) (unitOf op) = false ∧ slotWait (tileOf s t) w = false
  good : opOf w = op ∧ isTileOp op = true ∧ bundleBad w = false

/-- No instruction that is in flight, or has completed and is not ordered, may meet one of a unit that tile t issues. -/
def meetsNothing (s : State) (t unit : Nat) : Prop := metBy s t unit = []

/-- Byte k of the engine's local stores lies outside the ranges of tile t among some ranges. -/
def outsideAll (t k : Nat) (l : List Range) : Prop := ∀ r ∈ l, r.1 = t → k < 2 ^ 21 * t + r.2.1 ∨ 2 ^ 21 * t + r.2.1 + r.2.2 ≤ k

end Sys2Proof.Machine
end

