-- ==== Sys2Proof/WellFormed.lean ====
section
/-! DEFINITION. Which commands can reach the engine: the operands whose type is wider than the unit that they name. A command that
breaks this names nothing; its meaning is then that of an event that does not happen (log 3). -/

namespace Sys2Proof

/-- The payload of a Span frame: a DATA carries 1 to 129 whole granules (R284, R483). -/
def dataPayload (f : SpanFrame) : Bool :=
  decide (f.payload.length % 32 = 0) && decide (0 < f.payload.length) && decide (f.payload.length ≤ 4128)

/-- Tile numbers of a gang: at most 96, below 96, no two equal (R11, R109). -/
def tileList (l : List Nat) : Bool := l.all (fun t => decide (t < 96)) && decide l.Nodup

/-- Operands in the range of what they name. -/
def Instr.wf : Instr → Bool
  | .dispatch _ tiles => tileList tiles
  | .kvSetDeliver _ rank => decide (rank < 96)
  | .candidateWrite _ row layer => decide (row < 1024) && decide (layer < 128)
  | .streamCommit _ row => decide (row < 1024)
  | .nandEraseDone block => decide (block < 2 ^ 24)
  | .eraseSuspend _ block => decide (block < 2 ^ 24)
  | .instructionComplete _ index => decide (index < 32)
  | .symbolCorrection burst => decide (burst.length = 34)
  | .sramCorrection slice address => decide (address % 8 = 0) && decide (address < 96 * (if slice then 2 ^ 24 else 2 ^ 21))
  | .spanData f => dataPayload f
  | .rdreq f | .spanSignal f | .ack f | .nack f | .jobfault f | .eqx f => f.payload.isEmpty
  | .getHealth r | .getFaultLog r | .clearFaultStatus r | .getCounter r => !r.isEmpty
  | _ => true

end Sys2Proof
end

