-- ==== Sys2Proof/Certificates/Slice0/Obligations.lean ====
section
/-! DEFINITION. The statements for the provers. A conclusion `exec c s = .next t` names the whole next state: whatever t does not name
is unchanged, every byte of memory and every register with it. -/

open Sys2Proof Sys2Proof.Machine

/-! ### The machine -/

/-- A step runs the command at the front of the queue on the state with the queue's rest. -/
def Obligations.stepRunsFront : Prop :=
  ∀ (c : Instr) (s : State), step { s with pending := c :: s.pending } = exec c s

/-- With an empty queue a step is one tick: Device Time advances by 10 while the clock runs, and nothing happens while it does not;
no context, stream, request or fuse changes without a Span port that has lost its link. What one tick does is the model's choice
(log 2). -/
def Obligations.emptyQueueTicks : Prop :=
  ∀ s : State, s.pending = [] → ∃ t : State, step s = .next t ∧
    (ticking s = false → t = s) ∧ (ticking s = true → t.time.dtime = s.time.dtime + 10) ∧
    (s.span.port0.lostAt = none → s.span.port1.lostAt = none →
      t = { s with time := t.time, hbm := t.hbm, fw := t.fw, span := t.span })

/-- Every command is executed in every state: none ends in a fault or a refusal. -/
def Obligations.everyCommandAnswers : Prop :=
  ∀ (c : Instr) (s : State), ∃ t : State, exec c s = .next t

/-- No command touches the queue of the commands that wait, nor what the outside decides. -/
def Obligations.commandsKeepQueueAndOutside : Prop :=
  ∀ (c : Instr) (s t : State), exec c s = .next t → t.pending = s.pending ∧ t.env = s.env

/-- No command changes Device Time but one that begins a cold reset, which sets it to 0. -/
def Obligations.onlyTicksMoveDeviceTime : Prop :=
  ∀ (c : Instr) (s t : State), exec c s = .next t → t.time.dtime = s.time.dtime ∨
    (t.time.dtime = 0 ∧ t.boot = Boot.reset ∧ ((∃ k, c = .coldReset k) ∨ c = .powerLoss ∨ c = .avsAckTimeout ∨
      (∃ f k, c = .lrsReset f k) ∨ (∃ f v, c = .registerWrite f (.bar0 0x110010 .b32) v)))

/-- Every step keeps every byte memory in its canonical form. -/
def Obligations.stepKeepsMemories : Prop :=
  ∀ s t : State, memoriesOk s → step s = .next t → memoriesOk t

/-- The fuses only move forward: a step never changes the order or the revision, never lowers KEPOCH, never leaves SCRAPPED, and
changes the device secret only to all ones. -/
def Obligations.fusesOnlyMoveForward : Prop :=
  ∀ s t : State, step s = .next t → fusesFollow s.fuses t.fuses

/-- After the cold reset the queue is empty, nothing runs, every memory is in canonical form, and the registers hold the values of
their Reset columns. -/
def Obligations.resetLeaves : Prop :=
  let s := State.reset
  memoriesOk s ∧ s.pending = [] ∧ calm s ∧ tilesIdle s ∧ ready s = false ∧ s.boot.stage = 0 ∧ s.ctxs = [] ∧ s.streams = [] ∧
    s.time.dtime = 0 ∧ s.time.frameNum = 0 ∧ s.time.locked = false ∧ s.time.periodReg = 16667 ∧ s.time.en = false ∧
    s.sched.ageIA = 10000 ∧ s.sched.ageBK = 250000 ∧ s.sched.panicLead = 1048576 ∧ s.sched.panicEn = true ∧
    s.almanac.active = [Window.default] ∧ s.hbm.rate = 2 ∧ s.hbm.idle = 200 ∧ s.hbm.ageLimit = 4000 ∧ s.hbm.transLimit = 16 ∧
    s.hbm.transWindow = 1000 ∧ s.hbm.retrainPeriod = 600 ∧ s.hbm.retrainDelta = 10 ∧ s.fw.wdt = 500 ∧ s.span.rto = 50 ∧
    s.span.retries = 3 ∧ s.power.cap = 400 ∧ s.power.freq = 1600 ∧ s.power.tiles = 96 ∧ s.dbg.stwEn = true ∧ s.dbg.limit = 100 ∧
    s.dbg.counters = [] ∧ s.lrs.active = false ∧ s.pins.smbAddress = 0x4D ∧ Fn.reset.leasePeriod = 1000 ∧ Fn.reset.grace = 5 ∧
    Fn.reset.eventMask = 0x7FF ∧ Ctx.reset.ltLimit = 4000 ∧ Bank.reset.history = 3 ∧
    Profile.reset = { budget := 0, sink := 4, recent := 64, decay := 3, cslack := 2, gevict := true }

/-! ### Ring commands -/

/-- Nothing follows an event while the Docket is empty, no GO of SEC_AUTH_CTRL is held and no read has failed for good: the settling that most rows end with
changes nothing. A request that retires while its tiles are idle changes the host's side (functions, host memory, held writes,
counters), frees its Docket entry, and leaves no epoch and no claim waiting for it; every other part of the state stays. -/
def Obligations.frameOfRetirement : Prop :=
  (∀ s : State, calm s → settle s = s ∧ settleLive s = s ∧ wrapUp s = s) ∧
  (∀ (s : State) (e : Nat) (x : Entry) (st : BitVec 8),
     tilesIdle s → entryOf s e = some x → childrenOf s e = [] →
       finish s e st = { s with
         fns := (finish s e st).fns, hostMem := (finish s e st).hostMem, heldWrites := (finish s e st).heldWrites
         dbg := { s.dbg with counters := (finish s e st).dbg.counters }
         docket := { s.docket with entries := tblDel s.docket.entries e }, ctxs := (unwait s [e]).ctxs
         sched := { s.sched with claims := s.sched.claims.filter fun c => !([e].contains c) } })

/-- A ring command that waits for tiles, for a counter, for its stream or for its instant (SYNC_WAIT, TILE_RUN, STREAM_CLOSE,
STREAM_PARK, STEP, PREFILL, REC_CHUNK, PRESENT) becomes the Docket's entry, QUEUED or READY, with the next sequence number; nothing
else happens to it before its own row. A ring command that fails a check of admission completes with the status of the first check
that fails; nothing else of it happens. One whose batch table does not come in time stays FETCHED until LOWER_TIER_LATE ends it. -/
def Obligations.admissionQueuesOrCompletes : Prop :=
  (∀ (s : State) (h : ReqHeader) (cmd : Command) (parts : List Part),
     alone s h → admits s h cmd parts → startsAtOnce cmd = false →
       exec (ringRow h cmd) s = .next (admitted s h cmd parts) ∧
         ∃ y : Entry, (admitted s h cmd parts).docket.entries = [(s.docket.nextId, y)] ∧ y.cmd = cmd ∧ y.hdr = h ∧
           y.parts = parts ∧ y.seq = s.docket.nextSeq ∧ (y.state = .queued ∨ y.state = .ready) ∧ y.dispatched = false) ∧
  (∀ (s : State) (h : ReqHeader) (cmd : Command) (st : BitVec 8),
     alone s h → admitCheck (fetched s h cmd) h cmd false false = .error st → st ≠ stLowerLate →
       exec (ringRow h cmd) s = .next (finish (fetched s h cmd) s.docket.nextId st)) ∧
  (∀ (s : State) (h : ReqHeader) (cmd : Command),
     alone s h → admitCheck (fetched s h cmd) h cmd false false = .error stLowerLate →
       exec (ringRow h cmd) s = .next (readLate (fetched s h cmd) s.docket.nextId) ∧
         ∃ y : Entry, (readLate (fetched s h cmd) s.docket.nextId).docket.entries = [(s.docket.nextId, y)] ∧
           y.state = .fetched ∧ y.cmd = cmd ∧ y.lateAt.isSome = true)

/-- A VF that submits a PF-only opcode gets NOT_PERMITTED, and the command has no other effect: besides its completion (host memory,
ring indices, counters and trace) the Docket is as empty as before. -/
def Obligations.vfCannotSubmitPfOpcodes : Prop :=
  ∀ (s : State) (h : ReqHeader) (cmd : Command),
    alone s h → h.fn ≠ 0 → 0x80 ≤ opcodeOf cmd → h.cls ≠ 3 →
      ∃ t : State, exec (ringRow h cmd) s = .next t ∧ t = finish (fetched s h cmd) s.docket.nextId stNotPermitted ∧
        t = { s with
          fns := t.fns, hostMem := t.hostMem, heldWrites := t.heldWrites, dbg := { s.dbg with counters := t.dbg.counters }
          docket := { s.docket with nextId := s.docket.nextId + 1 }, ctxs := (unwait s [s.docket.nextId]).ctxs
          sched := { s.sched with claims := s.sched.claims.filter fun c => !([s.docket.nextId].contains c) } }

/-- A completion without interrupt, trace and counter events: its 32 bytes stand at the produced index of the completion ring that
the submission ring names, the index moves by one, the phase bit flips when the ring wraps, and every other byte of host memory is
as before. -/
def Obligations.completionEntryWritten : Prop :=
  ∀ (s : State) (e : Nat) (x : Entry) (st : BitVec 8), entryOf s e = some x → tilesIdle s →
    let f := x.hdr.fn.toNat
    let q := ringOf s f x.hdr.sq.toNat
    let r := ringOf s f q.cq.toNat
    takesDma s f = true → r.en = true → r.kind = 1 → r.ien = false → s.dbg.frozen = none → s.hostMem.wf = true →
    (fnOf s f).traceEn = false → (∀ k, (counterOf s (0x2000 + 32 * f + k)).evten = false) →
      let a := slotAddress r r.own
      let t := finish s e st
      memReadN t.hostMem a 32 =
          completionBytes s r.phase x.hdr.cid.toNat x.hdr.sq.toNat (opcodeOf x.cmd) q.own.toNat st x.result.toNat ∧
        (∀ b : Nat, b < a ∨ a + 32 ≤ b → memRead t.hostMem b = memRead s.hostMem b) ∧
        (ringOf t f q.cq.toNat).own = r.own + 1 ∧
        (ringOf t f q.cq.toNat).phase = (if r.own.toNat % 2 ^ r.log2n.toNat = 2 ^ r.log2n.toNat - 1 then !r.phase else r.phase)

/-- NOP does nothing but complete. JOB_BEGIN opens its job, with the counters of its window zeroed when ZERO = 1, and completes.
JOB_END, alone in its job, closes it and completes: with SUCCESS, or with JOB_FAULTED when the job has faulted. SYNC_SIGNAL adds its
value to its counter and completes; a sum of 2^64 or more poisons the counter instead, faults the job with cause 0x0E and completes
with JOB_FAULTED; a POISONED counter ignores the addition. -/
def Obligations.nopJobsAndSignals : Prop :=
  ((∀ (s : State) (h : ReqHeader), startsAlone s h .nop →
     exec (.nop h) s = .next (wrapUp (finish (began s h .nop) s.docket.nextId stSuccess))) ∧
   (∀ (s : State) (h : ReqHeader) (b : JobBeginBody) (k : Ctx), startsAlone s h (.jobBegin b) → ctxOf s h.fn.toNat = some k →
     exec (.jobBegin h b) s = .next (wrapUp (finish (began s h (.jobBegin b)) s.docket.nextId stSuccess)) ∧
       jobOf (began s h (.jobBegin b)) h.fn.toNat = some { tag := b.tag, span := b.spanjob, faulted := false, ender := none } ∧
       (b.flags = 1 → ∀ i, i < k.syncCount → syncOf (began s h (.jobBegin b)) (k.syncBase + i) = Sync.reset) ∧
       (b.flags = 0 → (began s h (.jobBegin b)).syncs = s.syncs)) ∧
   (∀ (s : State) (h : ReqHeader) (f : BitVec 8) (j : Job), startsAlone s h (.jobEnd f) → jobOf s h.fn.toNat = some j →
     j.ender = none →
     exec (.jobEnd h f) s = .next (wrapUp (finish (closeJob (began s h (.jobEnd f)) h.fn.toNat) s.docket.nextId
       (if j.faulted then stJobFaulted else stSuccess))) ∧
       jobOf (closeJob (began s h (.jobEnd f)) h.fn.toNat) h.fn.toNat = none)) ∧
  (∀ (s : State) (h : ReqHeader) (b : SyncBody) (g : Nat), startsAlone s h (.syncSignal b) →
     let u := began s h (.syncSignal b)
     let v := syncOf u g
     let w := v.plus b.value.toNat (allSignals u)
     syncIndex u h.fn.toNat b.cidx.toNat = some g →
       (v.poisoned = false → v.value.toNat + b.value.toNat < 2 ^ 64 →
         exec (.syncSignal h b) s = .next (wrapUp (foldContext (finish (markMet (setSync u g w) g w.value) s.docket.nextId stSuccess)
           h.fn.toNat)) ∧ w.value = v.value + b.value ∧ w.poisoned = false) ∧
       (v.poisoned = false → 2 ^ 64 ≤ v.value.toNat + b.value.toNat →
         exec (.syncSignal h b) s = .next (wrapUp (foldContext (finish
           (faultJob (setSync u g { v with poisoned := true }) h.fn.toNat 0x0E 0 true) s.docket.nextId stJobFaulted)
             h.fn.toNat))) ∧
       (v.poisoned = true → exec (.syncSignal h b) s = .next (wrapUp (finish u s.docket.nextId stSuccess))))

/-- A COPY whose every piece is moved completes with SUCCESS on the memory that the pieces leave; one whose piece fails or breaks
the 4,096-byte rule ends as R278 and R94 say, the bytes written in the context's space being unpredictable. -/
def Obligations.copyMovesItsPieces : Prop :=
  ∀ (s : State) (h : ReqHeader) (b : CopyBody), startsAlone s h (.copy b) →
    let u := began s h (.copy b)
    let slot := namedSlot u h.fn.toNat b.cslot.toNat
    let ok (a : BitVec 64) : Bool := decide (a.toNat % 4096 = 0) && decide (b.len.toNat % 4096 = 0)
    let r := copyGo h.fn.toNat (begunEntry s h (.copy b)).service (Source.engineOf s.docket.nextId) slot b.dir.toNat (ok b.src)
      (ok b.dst) b.len.toNat (b.len.toNat / 32 + 2) u b.src.toNat b.dst.toNat b.len.toNat
    let lost : State := scrubCopy r.2.2 h.fn.toNat b r.2.1 slot
    (r.1 = .done → exec (.copy h b) s = .next (wrapUp (finish r.2.2 s.docket.nextId stSuccess))) ∧
    (∀ f, r.1 = .failed f → exec (.copy h b) s = .next (wrapUp (failEngine lost s.docket.nextId f))) ∧
    (r.1 = .rule → exec (.copy h b) s = .next (wrapUp (faultRequest lost s.docket.nextId 0x07 0)))

/-- POOL_GROW within the quota moves free quads of the store into the context's free pool, then the reserve to its target;
POOL_SHRINK wipes quads of the free pool and gives them back to the store. CONTEXT_CREATE of an absent context takes the lowest free
windows (the model's choice, log 7) of sync counters and table slots, zeroes the counters and empties the slots, draws a data key
and a DRBG seed, leaves a VF DETACHED and completes. CONTEXT_DESTROY of a context begins step 1 of its destruction and does not
complete; of an absent context it completes with INVALID_COMMAND. -/
def Obligations.poolsAndContexts : Prop :=
  ((∀ (s : State) (h : ReqHeader) (b : PoolBody) (k : Ctx) (qs : List Nat) (v : State), startsAlone s h (.poolGrow b) →
     let u := began s h (.poolGrow b)
     let p := k.pool (b.tier == 1)
     ctxOf u h.fn.toNat = some k → p.all.length + b.quads.toNat ≤ p.quota → p.targetBad b = false →
     storeTake u (b.tier == 1) b.quads.toNat = some (qs, v) →
       exec (.poolGrow h b) s = .next (wrapUp (finish (setCtx v h.fn.toNat (k.setPool (b.tier == 1)
         (({ p with all := p.all ++ qs, free := p.free ++ qs }).setTarget b))) s.docket.nextId stSuccess))) ∧
   (∀ (s : State) (h : ReqHeader) (b : PoolBody) (k : Ctx), startsAlone s h (.poolShrink b) →
     let u := began s h (.poolShrink b)
     let p := k.pool (b.tier == 1)
     let out := p.free.take b.quads.toNat
     ctxOf u h.fn.toNat = some k → (k.growth.any fun g => g.2 == (b.tier == 1)) = false → p.targetBad b = false →
     b.quads.toNat ≤ p.free.length →
       exec (.poolShrink h b) s = .next (wrapUp (finish (storeGive (out.foldl (fun t q => quadWipe t (b.tier == 1) q)
         (setCtx u h.fn.toNat (k.setPool (b.tier == 1) (({ p with
           all := p.all.filter fun q => !out.contains q, free := p.free.drop b.quads.toNat }).setTarget b))))
         (b.tier == 1) out) s.docket.nextId stSuccess)))) ∧
  ((∀ (s : State) (h : ReqHeader) (b : ContextCreateBody) (sb cb : Nat), startsAlone s h (.contextCreate b) →
     let u := began s h (.contextCreate b)
     let key := drawBytes 64 u
     let seed := drawBytes 64 key.2
     let c := b.ctx.toNat
     let x : Ctx := { Ctx.reset with
       weight := b.weight, rtok := b.flags.getLsbD 0, dquota := b.dquota.toNat, syncBase := sb, syncCount := b.sync.toNat
       slotBase := cb, slotCount := b.cslots.toNat, streamQuota := b.streams.toNat, dataKey := key.1
       drbg := { Drbg.reset with seed := seed.1 }, pool0 := { Pool.empty with quota := b.quota0.toNat }
       pool1 := { Pool.empty with quota := b.quota1.toNat } }
     let v := setCtx (emptySlots (zeroSyncs (zeroFnCounters seed.2 c) sb b.sync.toNat) cb b.cslots.toNat) c x
     u.fuses.lcs ≠ 0 → u.fuses.lcs ≠ 4 → ctxOf u c = none →
     firstFit 16384 b.sync.toNat (u.ctxs.map fun p => (p.2.syncBase, p.2.syncCount)) = some sb →
     firstFit 512 b.cslots.toNat (u.ctxs.map fun p => (p.2.slotBase, p.2.slotCount)) = some cb →
       exec (.contextCreate h b) s = .next (wrapUp (finish
         (setFn v c { fnOf v c with codSel := 0, state := if c = 0 then (fnOf v c).state else .detached }) s.docket.nextId stSuccess))) ∧
   (∀ (s : State) (h : ReqHeader) (c : BitVec 8), startsAlone s h (.contextDestroy c) →
     let u := began s h (.contextDestroy c)
     ((ctxOf u c.toNat).isSome = true →
       exec (.contextDestroy h c) s = .next (wrapUp (beginDestruction u c.toNat 2))) ∧
     (ctxOf u c.toNat = none →
       exec (.contextDestroy h c) s = .next (wrapUp (finish u s.docket.nextId stInvalid)))))

/-- STREAM_OPEN takes a free Stream Table entry, backs region 0 of every recurrent layer with wiped quads, opens the stream ACTIVE
with no positions and writes its ID; STREAM_UNPARK of a stream in Fallow swaps it in and completes; of a stream that is not in
Fallow it only completes. KV_MAP of MODE 1 makes each named index of the stream name what the source stream's index names, and
completes; of MODE 0 it publishes what it imported, every layer of every named index, and completes. KV_UNMAP takes the named mapped
indices off every layer under a new epoch, and waits for that epoch; an unmapped tail stays the tail with first free slot 0. -/
def Obligations.streamsAndMappings : Prop :=
  ((∀ (s : State) (h : ReqHeader) (b : StreamOpenBody) (k : Ctx) (p : Package) (qs : List Nat) (pool : Pool) (n : Nat),
     startsAlone s h (.streamOpen b) →
     let c := h.fn.toNat
     let u := began s h (.streamOpen b)
     let d := drawNat u
     let i := freeStream d.2 (d.1 % (65536 - d.2.streams.length)) 65536 0
     let pages := regionZeroPages p.manifest i
     let v := qs.foldl (fun t q => quadWipe t true q) (setCtx d.2 c (backPages { k with pool1 := pool } true pages qs))
     let w := setStream v i { Stream.reset with
       state := .active, ctx := c, handle := b.pkg, profile := BitVec.ofNat 2 b.profile.toNat
       layers := fieldAt p.manifest 40 1, heads := fieldAt p.manifest 41 1, kvTier := p.kvTier }
     ctxOf u c = some k → packageOf k b.pkg = some p → p.unloading = false → openCount u c < k.streamQuota →
     u.streams.length < 65536 → k.pool1.takeWhole pages.length true = some (qs, pool, n) →
       exec (.streamOpen h b) s = .next (wrapUp (finish
         (if takesDma w c then hostWrite w b.result.toNat (leBytes 8 i) else w) s.docket.nextId stSuccess))) ∧
   (∀ (s : State) (h : ReqHeader) (i : BitVec 16), startsAlone s h (.streamUnpark i) →
     let c := h.fn.toNat
     let u := began s h (.streamUnpark i)
     let t := streamOf u i.toNat
     let v : Service := { cls := (begunEntry s h (.streamUnpark i)).service, ctx := some c, entry := some s.docket.nextId }
     (openIn u c i.toNat = true → t.state ≠ .faulted → t.state ≠ .fallow →
       exec (.streamUnpark h i) s = .next (wrapUp (finish u s.docket.nextId stSuccess))) ∧
     (∀ w : State, openIn u c i.toNat = true → t.state = .fallow → swapIn u c i.toNat v true = (.done, w) →
       exec (.streamUnpark h i) s = .next (wrapUp (finish w s.docket.nextId stSuccess))))) ∧
  ((∀ (s : State) (h : ReqHeader) (b : KvMapBody) (v w : State), startsAlone s h (.kvMap b) →
     let c := h.fn.toNat
     let u := began s h (.kvMap b)
     let i := b.stream.toNat
     let t := streamOf u i
     b.mode = 1 → mapBad u c b = false → (streamOf u b.sstream.toNat).state ≠ .faulted → sourceBad u c b = (false, v) →
     backTables v c i (namedIndices t b.first.toNat b.npages.toNat) = some w →
       exec (.kvMap h b) s = .next (wrapUp (publishMap ((List.range b.npages.toNat).foldl (fun y k =>
         aliasIndex y i b.sstream.toNat (ringIndex t b.first.toNat k)
           (ringIndex (streamOf y b.sstream.toNat) b.sfirst.toNat k)) w) s.docket.nextId c))) ∧
   (∀ (s : State) (h : ReqHeader) (b : KvMapBody) (v w : State) (a : Import) (keys : List Nat), startsAlone s h (.kvMap b) →
     let c := h.fn.toNat
     let u := began s h (.kvMap b)
     let i := b.stream.toNat
     let t := streamOf u i
     let work := (List.range b.npages.toNat).flatMap fun k => (List.range (streamOf v i).layers).map fun l => (k, l)
     let e := s.docket.nextId
     let y : Service := { cls := (begunEntry s h (.kvMap b)).service, ctx := some c, entry := some e }
     b.mode = 0 → mapBad u c b = false → backTables u c i (namedIndices t b.first.toNat b.npages.toNat) = some v →
     importGo c i (Source.engineOf e) y (streamKvSlot v c (streamOf v i)) b work v 0
       { leaves := [], exps := [], slots := [] } = (.ok a, w, keys) →
       let z := streamOf w i
       exec (.kvMap h b) s = .next (wrapUp (publishMap (setStream w i { z with
         leaves := a.leaves.foldl (fun m p => tblPut m p.1 p.2) z.leaves
         exps := a.exps.foldl (fun m p => memWriteN m p.1 p.2) z.exps
         slots := a.slots.foldl (fun m p => memWriteN m p.1 p.2) z.slots }) e c))) ∧
   (∀ (s : State) (h : ReqHeader) (b : KvUnmapBody), startsAlone s h (.kvUnmap b) →
     let u := began s h (.kvUnmap b)
     let i := b.stream.toNat
     let t := streamOf u i
     let js := (namedIndices t b.first.toNat b.npages.toNat).filter (mappedAny t)
     let r := unmapIndices t js
     let k := changeUnder u h.fn.toNat i (some s.docket.nextId) (if js.contains t.tail then { r.1 with tailFree := 0 } else r.1)
       js r.2
     openIn u h.fn.toNat i = true → (t.state = .active ∨ t.state = .growthWait) → b.first.toNat < pplOf t.layers → b.npages ≠ 0 →
     b.npages.toNat ≤ pplOf t.layers →
       exec (.kvUnmap h b) s = .next (wrapUp (modEntry k.1 s.docket.nextId fun y => { y with epoch := some k.2 }))))

/-- TABLE_LOAD reads and checks its image and holds it, not yet due: its slot changes only at TABLE_INSTALL, after the next frame
boundary. PACKAGE_UNLOAD unmaps every page of the package's window at one point, marks the package unloading and closes the epoch
that releases its quads and table frames; it completes when the epoch drains. PACKAGE_LOAD of a signed manifest whose capsule opens
takes a window, quads and table frames; without listed tables it then reads and hashes every segment and publishes the package (R395
steps 9 and 10), with listed tables it waits for their install. -/
def Obligations.tablesAndPackages : Prop :=
  (∀ (s : State) (h : ReqHeader) (b : TableLoadBody) (img : List Byte) (v : State), startsAlone s h (.tableLoad b) →
     let c := h.fn.toNat
     let u := began s h (.tableLoad b)
     let e := s.docket.nextId
     slotOfPackage u c b.slot.toNat = false →
     tableSource u c (begunEntry s h (.tableLoad b)).service (Source.engineOf e) b = (.ok img, v) → (parseImage img).isSome = true →
       exec (.tableLoad h b) s = .next (wrapUp (modEntry v e fun y => { y with image := img, due := false }))) ∧
  (∀ (s : State) (h : ReqHeader) (p : BitVec 32) (k : Ctx) (g : Package), startsAlone s h (.packageUnload p) →
     let c := h.fn.toNat
     let u := began s h (.packageUnload p)
     let n := p.toNat % 64
     let mine := k.pages.filter fun q => q.1 / 2 ^ 24 == n
     let k1 := { k with pages := k.pages.filter fun q => q.1 / 2 ^ 24 != n
                        packages := tblPut k.packages n { g with unloading := true } }
     let gone := emptyTables u c k1 none
     let k2 := { k1 with tables := k1.tables.filter fun t => !gone.contains t }
     let of (tier : Nat) : List Nat := (mine.filter fun q => (pteOf q.2).tier == tier).map fun q => (pteOf q.2).target
     let r := closeEpoch (invalidateWindow (setCtx u c k2) c n) c (some s.docket.nextId)
       { Epoch.none_ with quads0 := of 0, quads1 := of 1, frames := gone.map Prod.snd, handle := some p }
     ctxOf u c = some k → packageOf k p = some g → g.unloading = false →
     (u.streams.any fun t => decide (t.2.ctx = c) && decide (t.2.state ≠ .closed) && t.2.handle == p) = false →
       exec (.packageUnload h p) s = .next (wrapUp (modEntry r.1 s.docket.nextId fun y => { y with epoch := some r.2 }))) ∧
  (∀ (s : State) (h : ReqHeader) (b : PackageLoadBody) (k k2 : Ctx) (n : Nat) (v w : State) (pk cap ck : List Byte)
     (q0 q1 : List Nat) (p0 p1 : Pool) (n0 n1 : Nat) (images : List (Nat × List Byte)), startsAlone s h (.packageLoad b) →
     let c := h.fn.toNat
     let u := began s h (.packageLoad b)
     let e := s.docket.nextId
     let x := begunEntry s h (.packageLoad b)
     let unit := unitBytes v b.lunit.toNat 0 65536
     let m := unit.take (fieldAt unit 56 4)
     let segs := segmentsOf m
     let want (tier : Nat) : Nat := ((segs.filter fun g => g.tier == tier).map Segment.pages).sum
     let y := { x with image := m, quads := q0, quads1 := q1, window := n, due := false }
     startLoadChecks u b = none → ctxOf u c = some k → freeWindow u c k = some n → unitRead u b.lunit.toNat 0 65536 = (.good, v) →
     manifestOk unit = true → b.cbase.toNat + fieldAt unit 48 2 ≤ k.syncCount → b.slotbase.toNat + fieldAt unit 13 1 ≤ k.slotCount →
     rangesTaken u c k b.cbase.toNat b.slotbase.toNat m = false → publisherKey v (fieldAt unit 36 4) = some pk →
     verifies pk "EZB9600 CAROP" m ((unit.drop 32768).take 29792) = true → hostRead v b.cap.toNat 1760 = .data cap →
     unwrap v m cap = some ck → k.pool0.takeWhole (want 0) false = some (q0, p0, n0) →
     k.pool1.takeWhole (want 1) false = some (q1, p1, n1) →
     takeTables { k with pool0 := p0, pool1 := p1, contentKeys := tblPut k.contentKeys n ck }
       (tableKeys (segs.flatMap (segmentPages n))) = some k2 →
     loadTables (setEntry (setCtx v c k2) e y) ck b.lunit.toNat m = (.ok images, w) →
       (images = [] → exec (.packageLoad h b) s = .next (wrapUp (loadSegments w e y b))) ∧
       (images ≠ [] → exec (.packageLoad h b) s = .next (wrapUp (modEntry w e fun z =>
         { z with images := images.foldl (fun t p => tblPut t p.1 p.2) [] }))))

/-- LIB_WRITE programs its units in order at the write pointer of its block and completes with the number that it wrote; LIB_ERASE
of unused blocks that are not BAD marks the first ERASE_PENDING and starts its erase. ATTEST writes the report, the certificate or
the encapsulation key and completes with its length. FW_UPDATE of a genuine image that is not older makes the idle slot VALID with
it; MODE 0 leaves it so, MODE 1 makes it the active slot, MODE 2 opens a handover when the formats meet. NAND_ERASE_DONE: the units
of the block lose their data (what an erased unit reads is the model's choice, log 6), and the block is ERASED over the channels in
service with write pointer 0; a background erase ends there. When a NAND block reports a failed erase and its channel has no spare
left, the block is BAD. ERASE_SUSPEND counts one suspend of the channel. HANDOVER_ROLLBACK ends
the handover; the old image stays and FW_UPDATE completes with OUTCOME 3. -/
def Obligations.libraryAndFirmware : Prop :=
  ((∀ (s : State) (h : ReqHeader) (b : LibWriteBody), startsAlone s h (.libWrite b) →
     let u := began s h (.libWrite b)
     let g := blockOf u b.lunit.toNat
     let k := libBlockOf u g
     let r := writeUnits g b.src.toNat b.nunits.toNat 0 u
     u.flash.upb ≠ 0 → g < u.flash.nlb.toNat → (k.state = .erased ∨ k.state = .opened) →
     b.lunit.toNat = g * 8 * u.flash.upb.toNat + k.wp → k.wp + b.nunits.toNat ≤ k.channels.length * u.flash.upb.toNat →
     unitsUsed u b.lunit.toNat b.nunits.toNat = false →
       (r.1 ≠ stLowerLate → exec (.libWrite h b) s = .next (wrapUp (finishWith r.2.2 s.docket.nextId r.1 r.2.1))) ∧
       (r.1 = stLowerLate → exec (.libWrite h b) s = .next (wrapUp (readLate
         (modEntry r.2.2 s.docket.nextId fun y => { y with result := BitVec.ofNat 64 r.2.1 }) s.docket.nextId)))) ∧
   (∀ (s : State) (h : ReqHeader) (b : LibEraseBody) (v : State), startsAlone s h (.libErase b) →
     let u := began s h (.libErase b)
     let g := b.first.toNat
     (∀ k, k < b.nblk.toNat → blockUsed u (g + k) = false ∧ (libBlockOf u (g + k)).state ≠ .bad) → b.nblk ≠ 0 →
     liveChannels u ≠ [] → replaceMarked (setLibBlock u g { libBlockOf u g with state := .erasePending }) g = some v →
       exec (.libErase h b) s = .next (wrapUp { v with
         flash := { v.flash with erases := v.flash.erases ++ [{ block := g, entry := some s.docket.nextId }] } }))) ∧
  ((∀ (s : State) (h : ReqHeader) (b : AttestBody), startsAlone s h (.attest b) →
     let u := began s h (.attest b)
     let r := drawBytes 32 u
     let out := attestOutput u b r.1
     exec (.attest h b) s = .next (wrapUp (finishWith
       (if takesDma u h.fn.toNat then hostWrite r.2 b.out.toNat out else r.2) s.docket.nextId stSuccess out.length))) ∧
   (∀ (s : State) (h : ReqHeader) (b : FwUpdateBody) (img : List Byte), startsAlone s h (.fwUpdate b) →
     let u := began s h (.fwUpdate b)
     let t := idleSlot u
     let v := setSlotState (loadRegion u (!u.fw.region) img) t
       { state := .valid, active := false, chmask := slotMaskLive u t, version := imageVersion img, svn := imageSvn img
         image := img }
     let w := { v with flash := { v.flash with maxSvn := if v.flash.maxSvn < imageSvn img then imageSvn img else v.flash.maxSvn } }
     let z := clearRegion w (!u.fw.region)
     u.fuses.lcs ≠ 4 → slotMaskLive u t ≠ 0 → hostRead u b.src.toNat b.len.toNat = .data img →
     headerOk img b.len.toNat = true → imageGenuine u img = true → ¬ imageSvn img < activeSvn u →
     u.env.slotBad.contains t = false →
       (b.mode = 0 → exec (.fwUpdate h b) s =
         .next (wrapUp (finishWith z s.docket.nextId stSuccess (updateResult 0 t (imageVersion img))))) ∧
       (b.mode = 1 → exec (.fwUpdate h b) s =
         .next (wrapUp (finishWith (activate z t) s.docket.nextId stSuccess (updateResult 1 t (imageVersion img))))) ∧
       (b.mode = 2 → formatsMeet u.fw.image img = true → exec (.fwUpdate h b) s = .next (wrapUp
         { w with fw := { w.fw with handover := some { entry := s.docket.nextId, slot := t, since := w.time.dtime } } })))) ∧
  ((∀ (s : State) (g : Nat), running s = true → (s.flash.erases.find? fun r => r.block == g) = some { block := g, entry := none } →
     let u := { s with flash := { s.flash with erases := s.flash.erases.filter fun q => q.block != g } }
     let live := liveChannels s
     live ≠ [] → erasesFailed s g = [] →
       exec (.nandEraseDone g) s = .next (settle (setLibBlock { u with
         libMem := s.libMem.filter fun p => !(live.any fun c => p.1 / 2 ^ 16 == c * 2 ^ 24 + nandBlock s g c) } g
         { libBlockOf s g with state := .erased, chmask := liveMask s, wp := 0 }))) ∧
   (∀ (s : State) (g : Nat), running s = true → (s.flash.erases.find? fun r => r.block == g) = some { block := g, entry := none } →
     let u := { s with flash := { s.flash with erases := s.flash.erases.filter fun q => q.block != g } }
     replaceOn u g (erasesFailed s g) = none →
       exec (.nandEraseDone g) s = .next (settle (setLibBlock u g { libBlockOf s g with state := .bad }))) ∧
   (∀ (s : State) (c : BitVec 3) (g : Nat), erasing s c.toNat g = true →
     exec (.eraseSuspend c g) s =
       .next (setFlashChan s c.toNat { flashChanOf s c.toNat with susp := (flashChanOf s c.toNat).susp + 1 })) ∧
   (∀ (s : State) (c : BitVec 3) (g : Nat), erasing s c.toNat g = false → exec (.eraseSuspend c g) s = .next s)) ∧
  (∀ (s : State) (h : Handover), running s = true → s.fw.handover = some h →
     exec .handoverRollback s = .next (settle (finishWith
       (clearRegion { s with fw := { s.fw with handover := none } } (!s.fw.region)) h.entry stSuccess
       (updateResult 3 h.slot (slotState s h.slot).version))))

/-! ### Rings -/

/-- A submission doorbell of an enabled ring with bits 31:16 zero: its value becomes the tail when it does not move back and leaves
at most 2^n - 1 unfetched entries; otherwise the doorbell is ignored. -/
def Obligations.submissionDoorbell : Prop :=
  (∀ (s : State) (f r : BitVec 8) (v : BitVec 32), ready s = true → barOpen s f.toNat = true →
     let q := ringOf s f.toNat r.toNat
     let w : BitVec 16 := v.setWidth 16
     let d : DoorbellWrite := { size := .b32, value := v }
     q.en = true → q.kind = 0 → v.toNat < 2 ^ 16 →
       (q.host - q.own ≤ w - q.own → (w - q.own).toNat ≤ 2 ^ q.log2n.toNat - 1 →
         exec (.doorbellSubmission f r d) s = .next (setRing s f.toNat r.toNat { q with host := w })) ∧
       (¬(q.host - q.own ≤ w - q.own ∧ (w - q.own).toNat ≤ 2 ^ q.log2n.toNat - 1) →
         exec (.doorbellSubmission f r d) s = .next (ignored s f.toNat)))

/-- A consumed-index doorbell of an enabled completion or event ring or presentation queue: the value becomes the consumed index
when it lies between the last one and the produced index, and an event ring then reports what it lost; otherwise it is ignored. A
doorbell to a disabled ring, with a bit of 31:16 set or of another size than 32 bits is ignored, as either row. -/
def Obligations.consumedDoorbell : Prop :=
  (∀ (s : State) (f r : BitVec 8) (v : BitVec 32), ready s = true → barOpen s f.toNat = true →
     let q := ringOf s f.toNat r.toNat
     let w : BitVec 16 := v.setWidth 16
     let d : DoorbellWrite := { size := .b32, value := v }
     q.en = true → q.kind ≠ 0 → v.toNat < 2 ^ 16 →
       (w - q.host ≤ q.own - q.host → q.kind ≠ 3 →
         exec (.doorbellConsumed f r d) s = .next (setRing s f.toNat r.toNat { q with host := w })) ∧
       (w - q.host ≤ q.own - q.host → q.kind = 3 →
         exec (.doorbellConsumed f r d) s = .next (flushLost (setRing s f.toNat r.toNat { q with host := w }) f.toNat)) ∧
       (¬ w - q.host ≤ q.own - q.host → exec (.doorbellConsumed f r d) s = .next (ignored s f.toNat))) ∧
  (∀ (s : State) (f r : BitVec 8) (d : DoorbellWrite), ready s = true → barOpen s f.toNat = true →
     (d.size ≠ .b32 ∨ (ringOf s f.toNat r.toNat).en = false ∨ 2 ^ 16 ≤ d.value.toNat) →
       exec (.doorbellSubmission f r d) s = .next (ignored s f.toNat) ∧
       exec (.doorbellConsumed f r d) s = .next (ignored s f.toNat))

/-- COMMIT of the selected ring: with no error every index becomes 0, the phase 1, and the ring is enabled, and the events that were
dropped are reported if there are any; with an error the ring only takes its ERR code, and COMMIT with DISABLE gives ERR 8. DISABLE stops a submission ring or an event ring at once, is refused
with ERR 7 while an enabled submission ring names the completion ring, and else leaves a ring BUSY until nothing can write to it,
when RING_DISABLE_END disables it. RING_FETCH of a ring whose turn it is (log 55) and which has one unfetched entry reads its 64 bytes once, puts it into the Docket,
moves the fetch head past it and writes the head to the ring's index word; a failed or late read completes for it with
LOWER_TIER_ERROR or LOWER_TIER_LATE, RESULT holding the index. Out of its turn a ring waits. A ring with IEN = 1 whose moderation time has passed since the first unannounced entry sends its vector
and starts to count anew. -/
def Obligations.ringsCommitFetchAndSend : Prop :=
  (∀ (s : State) (f : BitVec 8), servesWrite s f.toNat →
     let i := (fnOf s f.toNat).ringSel.toNat
     let r := ringOf s f.toNat i
     let on := setRing s f.toNat i
       { r with own := 0, host := 0, phase := true, unsent := 0, firstUnsent := 0, en := true, busy := false, err := 0 }
     (commitError s f.toNat i = 0 → exec (.ringCommit f 1) s = .next (flushLost on f.toNat) ∧
       ((fnOf s f.toNat).evLost = 0 → flushLost on f.toNat = on)) ∧
     (commitError s f.toNat i ≠ 0 → exec (.ringCommit f 1) s = .next (setRing s f.toNat i { r with err := commitError s f.toNat i })) ∧
     exec (.ringCommit f 3) s = .next (setRing s f.toNat i { r with err := 8 }) ∧
     (r.en = true → (r.kind = 0 ∨ r.kind = 3) →
       exec (.ringDisable f 2) s = .next (setRing s f.toNat i { r with en := false, err := 0 })) ∧
     (r.en = true → r.kind = 1 → namedAsCq s f.toNat i = true →
       exec (.ringDisable f 2) s = .next (setRing s f.toNat i { r with err := 7 })) ∧
     (r.en = true → r.kind = 2 → stillWritten (setRing s f.toNat i { r with busy := true, err := 0 }) f.toNat i = true →
       exec (.ringDisable f 2) s = .next (setRing s f.toNat i { r with busy := true, err := 0 })) ∧
     (∀ j : BitVec 8, (ringOf s f.toNat j.toNat).busy = true → stillWritten s f.toNat j.toNat = false →
       exec (.ringDisableEnd f j) s =
         .next (setRing s f.toNat j.toNat { ringOf s f.toNat j.toNat with en := false, busy := false }))) ∧
  (∀ (s : State) (f q : BitVec 8), mayFetch s f.toNat q.toNat = true → fetchTurn s = some (f.toNat, q.toNat) →
     let r := ringOf s f.toNat q.toNat
     let a := slotAddress r r.own
     let u := takeTurn s f.toNat q.toNat
     let s1 := setRing u f.toNat q.toNat { r with own := r.own + 1 }
     r.host = r.own + 1 →
       (∀ bs : List Byte, hostRead s a 64 = .data bs →
         let raw := parseEntry f.toNat q.toNat bs
         exec (.ringFetch f q) s = .next (settle (hostWrite (addEntry s1 (newEntry s1 raw.hdr (raw.cmd.getD .nop) bs)).2 r.idx.toNat
           (leBytes 8 (r.own + 1).toNat)))) ∧
       (∀ st : BitVec 8, (hostRead s a 64 = .error ∧ st = stLowerError) ∨ (hostRead s a 64 = .late ∧ st = stLowerLate) → r.cq ≠ q →
         let s2 := writeCompletion s1 f.toNat q.toNat 0 0 st r.own.toNat false
         exec (.ringFetch f q) s = .next (settle (hostWrite s2 r.idx.toNat (leBytes 8 (r.own + 1).toNat))))) ∧
  (∀ (s : State) (f q : BitVec 8), fetchTurn s ≠ some (f.toNat, q.toNat) → exec (.ringFetch f q) s = .next s) ∧
  (∀ (s : State) (f i : BitVec 8),
     let r := ringOf s f.toNat i.toNat
     takesDma s f.toNat = true → r.en = true → r.ien = true → r.time ≠ 0 → r.unsent ≠ 0 →
     r.firstUnsent.toNat + 4000 * r.time.toNat ≤ now s →
       exec (.moderationTimer f i) s =
         .next (sendMsix (setRing s f.toNat i.toNat { r with unsent := 0 }) f.toNat r.vector.toNat))

/-! ### Scheduling and requests -/

/-- DISPATCH of the operation that the Docket starts next, on as many distinct idle tiles as its gang needs, starts it on them; with
no tiles given, the operation that claims gets its claim. -/
def Obligations.dispatchStartsTheNext : Prop :=
  (∀ (s : State) (e : Nat) (tiles : List Nat) (x : Entry) (o : TileOp) (permitted : Bool), running s = true →
    entryOf s e = some x → (gangSize s x).isSome = true → tiles ≠ [] → nextStart s = some (o, permitted) → o.e = e →
    tilesOk s o permitted tiles = true →
      exec (.dispatch e tiles) s = .next (settle (startTileOp s o tiles))) ∧
  (∀ (s : State) (e : Nat) (x : Entry) (o : TileOp), running s = true → entryOf s e = some x →
    (gangSize s x).isSome = true → nextClaim s = some o → o.e = e →
      exec (.dispatch e []) s = .next (settle { s with sched := { s.sched with claims := s.sched.claims ++ [e] } }))

/-- While an RT operation may start, what starts is an RT operation, or an OVERDUE one whose whole gang finds idle tiles with no
OVERDUE start among their last 7. The earliest deadline goes first among the RT operations that fit and that no claim holds back. -/
def Obligations.realTimeStartsFirst : Prop :=
  (∀ (s : State) (o : TileOp) (permitted : Bool), rtOps s ≠ [] → nextStart s = some (o, permitted) →
     (o.x.hdr.cls = 0 ∧ permitted = false) ∨ (o.x.overdue = true ∧ overdueFits s o.gang = true ∧ permitted = true)) ∧
  (∀ (s : State) (o v : TileOp), rtOps s ≠ [] → nextStart s = some (o, false) → v ∈ rtOps s → fits s v.gang = true →
     claimBlocks s v.e 1 1 = false → lexLt (rtKey s v) (rtKey s o) = false)

/-- A READY IA or BK operation that has waited past its class's age limit becomes OVERDUE, which OVERDUE_PROMOTE counts. An RT
request whose deadline passes before its dispatch completes with DEADLINE_MISSED, a record for each of its streams first; after its
dispatch only the streams that wait in GROWTH_WAIT end. A request with no waiting stream that has not retired by its timeout ends with
CANCELLED. A lower-tier read of a running request that fails, or that has not come by the context's limit, ends the request, and it
alone, with LOWER_TIER_ERROR or LOWER_TIER_LATE. -/
def Obligations.limitsEndRequests : Prop :=
  (∀ (s : State) (e : Nat) (x : Entry), running s = true → entryOf s e = some x → x.state = .ready → x.dispatched = false →
     x.overdue = false → (x.hdr.cls = 1 ∨ x.hdr.cls = 2) →
     (if x.hdr.cls = 1 then s.sched.ageIA.toNat else s.sched.ageBK.toNat) * 1000 < now s - x.readyTime →
       exec (.overduePromote e) s = .next (settle (bump (setEntry s e { x with overdue := true }) 4 1))) ∧
  ((∀ (s : State) (e : Nat) (x : Entry), running s = true → entryOf s e = some x → x.parent = none → x.state ≠ .fetched →
     deadlinePassed s x = true →
       (x.dispatched = false → exec (.deadlineMissed e) s = .next (settle (finish (settleAll (abandon s e) e stDeadline) e stDeadline))) ∧
       (x.dispatched = true → exec (.deadlineMissed e) s = .next (settle (exhaustWaits s e)))) ∧
   (∀ (s : State) (e : Nat) (x : Entry), running s = true → entryOf s e = some x → x.parent = none → x.state ≠ .fetched →
     isEnd x.cmd = false → (∀ p ∈ x.parts, p.waiting = false) → partsDone x = false →
     x.admitTime + (if x.hdr.timeout = 0 then 1000000 else x.hdr.timeout.toNat) * 1000 ≤ now s →
       exec (.requestTimeout e) s = .next (settle (endRequest s e stCancelled)))) ∧
  (∀ (s : State) (e : Nat) (x : Entry), running s = true → entryOf s e = some x → x.parent = none → x.dispatched = true →
     x.state = .running →
       exec (.lowerTierError e) s = .next (settle (endRequest s e stLowerError)) ∧
       (lateDue s x = true → exec (.lowerTierLate e) s = .next (settle (endRequest s e stLowerLate))))

/-- REQUEST_RETIRE: a TILE_RUN in RETIRING whose tiles have let go completes with SUCCESS; a model request whose parts have all
settled and whose tiles are idle completes with SUCCESS when every record is SUCCESS, else with the numerically smallest record
status. SYNC_WAIT_RETIRE: a wait whose counter has reached its value completes with SUCCESS and the counter's value; on a POISONED
counter it completes with SYNC_POISONED. -/
def Obligations.requestsRetire : Prop :=
  ((∀ (s : State) (e : Nat) (x : Entry) (b : TileRunBody), running s = true → entryOf s e = some x → x.parent = none →
     x.dispatched = true → x.status = none → x.cmd = .tileRun b → s.fw.handover = none → tilesOf s [e] = [] → x.state = .retiring →
       exec (.requestRetire e) s = .next (settle (finish s e stSuccess))) ∧
   (∀ (s : State) (e : Nat) (x : Entry), running s = true → entryOf s e = some x → x.parent = none → x.dispatched = true →
     x.status = none → isModel x.cmd = true → s.fw.handover = none → (x.parts.all fun p => p.outcome.isSome) = true →
     tilesOf s (e :: childrenOf s e) = [] →
       exec (.requestRetire e) s = .next (settle (finish (abandon s e) e (partsStatus x))))) ∧
  (∀ (s : State) (e : Nat) (x : Entry) (b : SyncBody) (g : Nat), running s = true → entryOf s e = some x →
     fenceBlocked s x = false → x.cmd = .syncWait b → x.state ≠ .fetched → syncIndex s x.ctx b.cidx.toNat = some g →
       ((syncOf s g).poisoned = false → b.value.toNat ≤ (syncOf s g).value.toNat →
         exec (.syncWaitRetire e) s = .next (settle (finishWith s e stSuccess (syncOf s g).value.toNat))) ∧
       ((syncOf s g).poisoned = true → exec (.syncWaitRetire e) s = .next (settle (finish s e stPoisoned))))

/-- STREAM_CLOSE_POINT, PARK and PRESENT_START: the request starts when nothing that needs no tile goes before it, and its unit acts on
the stream or the queue: the close point, the park by the stream's state, or the marker and the completion. SWAP_IN brings the state of
a stream in Fallow back into state SRAM before its consumer. A move takes quads for region 0 from the free pool of the tier it goes to,
copies region 0 and the runs of state SRAM, and remaps them at one point under a new epoch. TABLE_INSTALL of a due TABLE_LOAD puts its
table into the slot as a new generation, writes the generation number and completes. EPOCH_DRAIN: an epoch that no operation holds,
and of whose package no block in flight holds a table, releases what it holds: it is drained; while one holds it nothing changes. -/
def Obligations.laterPartsRun : Prop :=
  (∀ (s : State) (e : Nat) (x : Entry), running s = true → entryOf s e = some x → x.dispatched = false → eligible s x = true →
     outranked s e x = false →
     let u := noteStart (setEntry s e { x with state := .running }) e
     let y := { x with state := EntryState.running, dispatched := true, started := s.docket.starts }
     (∀ i : BitVec 16, x.cmd = .streamClose i → openIn u x.ctx i.toNat = true →
       exec (.streamClosePoint e) s = .next (settle (closePoint u e y i.toNat))) ∧
     (∀ (b : ParkBody) (v : State), x.cmd = .streamPark b →
       openIn u x.ctx b.stream.toNat = true → (streamOf u b.stream.toNat).state ≠ .faulted →
       (streamOf u b.stream.toNat).state ≠ .fallow →
       moveStream u x.ctx b.stream.toNat true false { cls := x.service, ctx := some x.ctx, entry := some e } = (.done, v) →
       exec (.park e) s = .next (settle (finish v e stSuccess))) ∧
     (∀ b : PresentBody, x.cmd = .present b → b.flags.getLsbD 0 = false →
       exec (.presentStart e) s = .next (settle (finish (pqWrite u x.ctx b.pq.toNat
         (recordBytes u 0 stSuccess 0xFF 0 0 ((List.range 4).map fun k => BitVec.ofNat 16 (b.tag.toNat / 65536 ^ k)))) e
         stSuccess)))) ∧
  (∀ (s v : State) (e : Nat) (i : BitVec 16) (x : Entry), running s = true → entryOf s e = some x → x.parent = none →
     x.dispatched = false → isModel x.cmd = true → (x.state = .queued ∨ x.state = .ready) → deadlinePassed s x = false →
     ordered s x = true → (fallowStreams s x).contains i.toNat = true →
     swapIn s x.ctx i.toNat (requestService e x) false = (.done, v) →
       exec (.swapIn e i) s = .next (settle (endSwapWait v x.ctx e i.toNat))) ∧
  (∀ (s : State) (c i : Nat) (toHbm resv : Bool) (a : Service) (k : Ctx) (qs : List Nat) (pool : Pool) (n : Nat)
     (made : Tbl KvLeaf) (u v : State), ctxOf s c = some k →
     (k.pool (!toHbm)).takeWhole (pagesIn k i toHbm).length resv = some (qs, pool, n) →
     copyRegion (setCtx s c (k.setPool (!toHbm) pool)) c toHbm (if toHbm = true then streamStateSlot k (streamOf s i) else none)
       (pagesIn k i toHbm) qs a = (.done, u) →
     copyRuns c i toHbm resv (streamKvSlot s c (streamOf s i)) a (movedRuns (streamOf s i) toHbm) u = (.done, made, v) →
       moveStream s c i toHbm resv a = (.done, moveRegion v c i toHbm a.entry (pagesIn k i toHbm) qs made)) ∧
  (∀ (s : State) (e : Nat) (x : Entry) (b : TableLoadBody) (npc : BitVec 2) (lengths : List (List Nat)) (sl : CodecSlot),
     running s = true → entryOf s e = some x → x.dispatched = true → x.state = .running → x.status = none →
     x.cmd = .tableLoad b → parseImage x.image = some (npc, lengths) → ctxSlot s x.ctx b.slot.toNat = some sl → x.due = true →
     (s.docket.entries.any fun p =>
       decide (p.2.ctx = x.ctx) && decide (p.2.seq < x.seq) && waitingSlot p.2 == some b.slot.toNat) = false →
     canInstall s sl = true →
       let r := installTable s x.ctx b.slot.toNat npc lengths x.service
       exec (.tableInstall e) s = .next (settle (finish
         (if b.result ≠ 0 ∧ takesDma r.2.2 x.ctx = true then hostWrite r.2.2 b.result.toNat (leBytes 8 r.1) else r.2.2) e stSuccess))) ∧
  (∀ (s : State) (c : BitVec 8) (id : Nat) (k : Ctx) (p : Epoch), s.dbg.frozen = none → s.lrs.active = false →
     ctxOf s c.toNat = some k → (k.closed.find? fun q => q.id == id) = some p →
       (p.waits.any (holdsEpoch s) = false → slotsHeld s c.toNat p = false →
         exec (.epochDrain c id) s = .next (settleLive (drainEpoch s c.toNat p))) ∧
       ((p.waits.any (holdsEpoch s) = true ∨ slotsHeld s c.toNat p = true) → exec (.epochDrain c id) s = .next (settleLive s)))

/-- CONTEXT_DESTRUCTION of a context whose destruction has begun, whose epochs have drained and whose requests have retired wipes
its quads and tiles, zeroes its counters and syncs, empties its slots and forgets its keys; CONTEXT_WIPE_END gives the quads back,
frees the stream IDs, forgets the context, disables a VF's rings, logs the destruction and tells the PF (with an empty Docket
nothing is left to complete). Otherwise neither changes anything. -/
def Obligations.contextDestructionRuns : Prop :=
  ∀ (s : State) (c : BitVec 8) (k : Ctx), s.dbg.frozen = none → s.lrs.active = false → ctxOf s c.toNat = some k →
    (k.destroying = true → k.wiping = false → k.closed = [] → contextBusy s c.toNat = false →
      ∃ t : State, exec (.contextDestruction c) s = .next (settleLive t) ∧
        ctxOf t c.toNat = some { k with
          wiping := true, pages := [], root := none, tables := [], winPages := [], hwins := [], packages := [], contentKeys := []
          dataKey := [], drbg := Drbg.reset, growth := [] } ∧
        (∀ n, (0x2000 + 32 * c.toNat ≤ n ∧ n < 0x2000 + 32 * c.toNat + 32) → counterOf t n = Counter.reset) ∧
        (∀ i, i < k.syncCount → syncOf t (k.syncBase + i) = Sync.reset) ∧
        (∀ i, i < k.slotCount → slotOf t (k.slotBase + i) = CodecSlot.reset) ∧
        t = { s with
          hbmMem := t.hbmMem, hbm := t.hbm, sramMem := t.sramMem, localMem := t.localMem, tiles := t.tiles, syncs := t.syncs
          codecSlots := t.codecSlots, runs := t.runs, streams := t.streams, ctxs := t.ctxs, fns := t.fns, hostMem := t.hostMem
          heldWrites := t.heldWrites, dbg := { s.dbg with counters := t.dbg.counters } }) ∧
    (k.wiping = true → s.docket.entries = [] →
      let s1 := storeGive (storeGive s false k.pool0.all) true k.pool1.all
      let s2 := { s1 with
        streams := s1.streams.filter (fun p => decide (p.2.ctx ≠ c.toNat)), ctxs := tblDel s1.ctxs c.toNat }
      let x := fnOf s2 c.toNat
      let s3 := if c.toNat = 0 then s2 else
        setFn s2 c.toNat { x with rings := tblMap x.rings (fun _ (r : Ring) => { r with en := false, busy := false }) }
      exec (.contextWipeEnd c) s =
        .next (settleLive (raiseEvent (logFault s3 2 c.toNat k.destroyCause 0 0) 0 0x09 c.toNat 0))) ∧
    (k.destroying = false → k.wiping = false → exec (.contextDestruction c) s = .next (settleLive s) ∧
      exec (.contextWipeEnd c) s = .next (settleLive s))

/-- KV_SET_DELIVER while fewer than B sets of the rank are unfreed: the pages that the next set of its walk names are read, the set is
written into the next buffer of the rank's tile, and FILL grows by 1. -/
def Obligations.walkSetDelivered : Prop :=
  ∀ (s v : State) (g rank fill free : Nat) (y x : Entry) (e : Nat) (p : Package) (d : GraphNode) (k : Walk) (a : WalkSet)
    (rest : List WalkSet) (pages : List (Nat × Memory)), running s = true →
    let u := foldFreed s g rank
    gangOf u g = some (y, e, x, p, d) → walkCounters u x.ctx p d = some (fill, free) → tblGet y.walks rank = some k →
    k.todo = a :: rest → (syncOf u fill).poisoned = false → (syncOf u free).poisoned = false →
    (syncOf u fill).value.toNat - (syncOf u free).value.toNat < d.b →
    readHeads u ((x.parts[a.part]?).elim 0 Part.stream) (a.kind == 0) a.head (requestService e x)
      (setRuns x d (chunkBase x y.chunk) a) = (.ok pages, v) →
      let tile := y.tiles.getD rank 0
      let w := localWrite v tile (d.lsoff + k.delivered % d.b * 35136)
        (setBytes a.part a.head a.kind d.layer a.rbase (setRows u x p d (y.node / 65536) y.chunk rank tile pages a) (setMask x a))
      let k1 := { k with todo := rest, delivered := k.delivered + 1, open_ := k.open_ ++ [(k.delivered, a)] }
      let z := modEntry w g fun q => { q with walks := tblPut q.walks rank k1 }
      (syncOf z fill).poisoned = false → (syncOf z fill).value.toNat + 1 < 2 ^ 64 →
        let n := (syncOf z fill).plus 1 (allSignals z)
        exec (.kvSetDeliver g rank) s = .next (settle (markMet (setSync z fill n) fill n.value)) ∧
          n.value = (syncOf z fill).value + 1

/-- CANDIDATE_WRITE acts on the first running attention gang of the layer that serves the batch entry and has not written it;
SAMPLING samples the streams of the first wave whose pass is done, in ascending batch index, and lets its draft nodes start;
STREAM_COMMIT commits a part of a done wave that has not settled. GROWTH_RETRY retries the waiting streams of the context and tier,
in their order. A score stays within 16 bits, never grows without a delivery, and a saturated one stays saturated while its inputs
make up for its decay. -/
def Obligations.passesWriteSampleAndCommit : Prop :=
  ((∀ (s : State) (e row layer g : Nat), running s = true →
     (childrenOf s e).find? (writesRow s row layer) = some g →
       exec (.candidateWrite e row layer) s = .next (settle (writeCandidates s g row))) ∧
   (∀ (s : State) (e w : Nat) (x : Entry) (p : Package), running s = true → entryOf s e = some x →
     requestPackage s x = some p → samples x.cmd = true → x.parent = none → samplesLater s x = false →
     ((openWaves x).find? fun w => !x.sampled.contains w && passDone x p.manifest (requestNodes s x) w) = some w →
       let s1 := ((waveParts x w).map Prod.fst).foldl (fun u j => samplePart u e j (fieldAt p.manifest 43 1)) s
       exec (.sampling e) s = .next (settle (expand (modEntry s1 e fun y => { y with sampled := w :: y.sampled }) e w))) ∧
   (∀ (s : State) (e row : Nat) (x : Entry) (p : Part) (pk : Package), running s = true → entryOf s e = some x →
     x.parts[row]? = some p → requestPackage s x = some pk → p.outcome = none → p.wave ≠ 0 → x.status = none →
     waveDone x pk.manifest (requestNodes s x) p.wave = true →
       exec (.streamCommit e row) s = .next (settle (commitPart s e row x pk)))) ∧
  (∀ (s : State) (c : BitVec 8) (tier : Bool) (k : Ctx), running s = true → ctxOf s c.toNat = some k →
     exec (.growthRetry c tier) s = .next (settle
       (((k.growth.filter fun g => g.2 == tier).map Prod.fst).foldl (fun u i => retryStream u c.toNat i) s))) ∧
  (∀ s d a : Nat, s ≤ 65535 → newScore s d a ≤ 65535 ∧ newScore s d 0 ≤ s ∧
     ((rhu 65535 d).toNat ≤ a → newScore 65535 d a = 65535))

/-! ### Arithmetic and tile instructions -/

/-- Every right shift rounds half up, a shift by 0 leaves the value, and a shift by at least the width yields 0. -/
def Obligations.rightShiftsRoundHalfUp : Prop :=
  (∀ v : Int, rhu v 0 = v) ∧
  (∀ (v : Int) (k : Nat), 0 < k → 2 ^ k * rhu v k ≤ v + 2 ^ (k - 1) ∧ v + 2 ^ (k - 1) < 2 ^ k * (rhu v k + 1)) ∧
  (∀ (v : Int) (n k : Nat), 0 < n → n ≤ k → -(2 ^ (n - 1)) ≤ v → v < 2 ^ (n - 1) → rhu v k = 0)

/-- Without the ceiling or the floor the largest magnitude of a segment lands in 16,384 to 32,767 after the shift, but for a
positive maximum that rounds up to 32,768, which saturates to 32,767, and a negative one of exactly -32,768, which is stored
unchanged. When the shift is a left one, no value saturates. -/
def Obligations.narrowingFillsSixteenBits : Prop :=
  ∀ (u : Int) (vs : List Int) (v : Int), (∀ x ∈ vs, -(2 ^ 63) ≤ x ∧ x < 2 ^ 63) → v ∈ vs → v.natAbs = maxAbs vs → v ≠ 0 →
    (requant u vs).2.2 = false →
      let r := (requant u vs).2.1 - u
      let y := shiftBy v (-r)
      16384 ≤ y.natAbs ∧ y.natAbs ≤ 32768 ∧ (requant u vs).1 = vs.map (fun x => satTo 16 (shiftBy x (-r))) ∧
        (y = 32768 → satTo 16 y = 32767) ∧ (y ≠ 32768 → satTo 16 y = y) ∧
        (r < 0 → ∀ x ∈ vs, satTo 16 (shiftBy x (-r)) = x * 2 ^ (-r).toNat)

/-- The ALU functions: addition, subtraction and multiplication wrap modulo 2^64; shift counts are taken modulo 64; minima and
maxima are signed or unsigned as their FN says. -/
def Obligations.aluFunctions : Prop :=
  ∀ a b : Word64,
    (aluFn 0 a b).toNat = (a.toNat + b.toNat) % 2 ^ 64 ∧ (aluFn 1 a b).toNat = (a.toNat + 2 ^ 64 - b.toNat) % 2 ^ 64 ∧
    (aluFn 2 a b).toNat = a.toNat * b.toNat % 2 ^ 64 ∧
    (aluFn 3 a b).toNat = a.toNat &&& b.toNat ∧ (aluFn 4 a b).toNat = a.toNat ||| b.toNat ∧
    (aluFn 5 a b).toNat = a.toNat ^^^ b.toNat ∧
    (aluFn 6 a b).toNat = a.toNat * 2 ^ (b.toNat % 64) % 2 ^ 64 ∧ (aluFn 7 a b).toNat = a.toNat / 2 ^ (b.toNat % 64) ∧
    (aluFn 8 a b).toInt = a.toInt / 2 ^ (b.toNat % 64) ∧
    (aluFn 9 a b).toInt = min a.toInt b.toInt ∧ (aluFn 10 a b).toInt = max a.toInt b.toInt ∧
    (aluFn 11 a b).toNat = min a.toNat b.toNat ∧ (aluFn 12 a b).toNat = max a.toNat b.toNat

/-- TNOP, SETI, ALU, DADD and HALT complete at issue: each changes the registers of its tile that its fields name and moves on to
the next bundle; besides the fetch, and the note that the fences of its mask have been waited for, nothing else changes. A bundle that
the instruction cache holds is fetched without any change, and one that names no fence leaves no note. BR: a taken branch goes to
PC + DISP, and faults with cause 0x0F when that lies outside the program; one not taken goes on. LDS, STS and DLOAD at a local address
that is aligned and inside the local store, while no access that is not ordered before them may meet theirs: a load writes its
register, a store its 8 bytes of the tile's own local store, a DLOAD a descriptor that passes its checks; each leaves its access to be
ordered (log 11). Outside, each faults with cause 0x06, and a bad descriptor with its own cause. -/
def Obligations.sequencerInstructions : Prop :=
  (∀ (s : State) (t : Fin 96) (w : Nat),
     let u := issueState s t w
     let x := tileOf u t
     (Issues s t 0x00 w → exec (.tnop t) s = .next (setTile u t { x with pc := x.pc + 1 })) ∧
     (Issues s t 0x03 w → exec (.seti t) s =
       .next (setTile u t { x.setSreg (bitsOf w 36 32) (bitsOf w 127 64) with pc := x.pc + 1 })) ∧
     (Issues s t 0x04 w →
       let b := if bitOf w 47 then (BitVec.ofNat 32 (bitsOf w 95 64)).signExtend 64 else x.word (bitsOf w 46 42)
       exec (.alu t) s = .next (setTile u t
         { x.setSreg (bitsOf w 36 32) (aluFn (bitsOf w 51 48) (x.word (bitsOf w 41 37)) b).toNat with pc := x.pc + 1 })) ∧
     (Issues s t 0x08 w →
       let i := bitsOf w 35 32
       let base := (x.dreg i % 2 ^ 48 + x.sreg (bitsOf w 41 37)) % 2 ^ 48
       exec (.dadd t) s = .next (setTile u t
         { x with dregs := x.dregs.set i (BitVec.ofNat 256 (x.dreg i / 2 ^ 48 * 2 ^ 48 + base)), pc := x.pc + 1 })) ∧
     (Issues s t 0x01 w →
       exec (.halt t) s = .next (setTile u t { x with halted := true, held := none, pc := x.pc + 1 })) ∧
     (∀ k : Nat × List Byte, (tileOf s t).cached.find? (fun q => q.1 == ((tileOf s t).prog + 16 * (tileOf s t).pc) / 4096) = some k →
       bundleAt s t = some (leNat ((k.2.drop (((tileOf s t).prog + 16 * (tileOf s t).pc) % 4096)).take 16)) ∧
         (bitsOf w 15 8 = 0 → issueState s t w = s))) ∧
  (∀ (s : State) (t : Fin 96) (w : Nat), Issues s t 0x02 w →
     let u := issueState s t w
     let x := tileOf u t
     let taken := brTaken (bitsOf w 49 47) (x.word (bitsOf w 41 37)) (x.word (bitsOf w 46 42))
     let target : Int := (x.pc : Int) + signedOf 20 (bitsOf w 83 64)
     (taken = false → exec (.br t) s = .next (setTile u t { x with pc := x.pc + 1 })) ∧
     (taken = true → 0 ≤ target → target < (x.len : Int) →
       exec (.br t) s = .next (setTile u t { x with pc := target.toNat })) ∧
     (taken = true → (target < 0 ∨ (x.len : Int) ≤ target) → exec (.br t) s = .next (tileFault u t 0x0F))) ∧
  (∀ (s : State) (t : Fin 96) (w a : Nat),
     let u := issueState s t w
     let x := tileOf u t
     let moved (reads writes : List Range) (v : State) : State := seqComplete v t w (seqFlight reads writes)
     meetsNothing u t 4 →
     (Issues s t 0x05 w → localAddress x w 8 8 37 64 = some a → exec (.lds t) s =
       .next (setTile (moved [(t.val, a, 8)] [] u) t
         { x.setSreg (bitsOf w 36 32) (leNat (localRead u t a 8)) with pc := x.pc + 1 })) ∧
     (Issues s t 0x06 w → localAddress x w 8 8 37 64 = some a → exec (.sts t) s =
       .next (setTile (moved [] [(t.val, a, 8)] (localWrite u t a (leBytes 8 (x.sreg (bitsOf w 36 32))))) t
         { x with pc := x.pc + 1 })) ∧
     (Issues s t 0x07 w → localAddress x w 32 32 37 64 = some a →
       let d := leNat (localRead u t a 32)
       (descCheck d (((ctxOf u x.ctx).map Ctx.slotCount).getD 0) = none → exec (.dload t) s =
         .next (setTile (moved [(t.val, a, 32)] [] u) t
           { x with dregs := x.dregs.set (bitsOf w 35 32) (BitVec.ofNat 256 d), pc := x.pc + 1 })) ∧
       (∀ cause, descCheck d (((ctxOf u x.ctx).map Ctx.slotCount).getD 0) = some cause →
         exec (.dload t) s = .next (tileFault u t cause))) ∧
     (Issues s t 0x05 w → localAddress x w 8 8 37 64 = none → exec (.lds t) s = .next (tileFault u t 0x06)) ∧
     (Issues s t 0x06 w → localAddress x w 8 8 37 64 = none → exec (.sts t) s = .next (tileFault u t 0x06)) ∧
     (Issues s t 0x07 w → localAddress x w 32 32 37 64 = none → exec (.dload t) s = .next (tileFault u t 0x06)))

/-- MMW, MMA, MEW, GLOAD, GRUN, COPY, FILL, SIGNAL and SREAD complete their issue: one that passes its checks takes effect, stands in
its unit's queue with the fence that it armed, and the tile goes on to the next bundle; one that fails a check faults with its cause.
COPY and FILL between local stores move their rows in order; what the other sides of a COPY do is stated by the rows that it runs. A
local SIGNAL adds its amount to its counter, or is ignored by a POISONED one, or poisons it and faults with cause 0x0E; a remote one
sends a frame. SREAD reads its counter. A bundle past the program's end faults with cause 0x0F, one with a reserved opcode with 0x01,
one with a reserved field with 0x02, whichever tile instruction the row names. -/
def Obligations.queuedInstructions : Prop :=
  ((∀ (s : State) (t : Fin 96) (w op : Nat) (row : Instr),
     (op, row) ∈ ([(0x20, .mmw t), (0x21, .mma t), (0x22, .mew t)] : List (Nat × Instr)) → Issues s t op w →
     let u := issueState s t w
     let x := tileOf u t
     let f := matFlight t x (matOp x w)
     (matCause x w = none → inStore f.ranges = true →
       exec row s = .next (standQueued u t w f (matEffect t x (matOp x w) (beforeEffect u t f)))) ∧
     (matCause x w = none → inStore f.ranges = false → exec row s = .next (tileFault u t 0x06)) ∧
     (∀ cause, matCause x w = some cause → exec row s = .next (tileFault u t cause))) ∧
   (∀ (s : State) (t : Fin 96) (w : Nat), Issues s t 0x30 w →
     let u := issueState s t w
     let g := bitsOf w 95 90
     (∀ a, localAddress (tileOf u t) w 256 64 85 64 = some a →
       exec (.gload t) s = .next (standQueued u t w (gloadFlight t g a) (gloadEffect t g a (beforeEffect u t (gloadFlight t g a))))) ∧
     (localAddress (tileOf u t) w 256 64 85 64 = none → exec (.gload t) s = .next (tileFault u t 0x06))) ∧
   (∀ (s : State) (t : Fin 96) (w : Nat), Issues s t 0x31 w →
     let u := issueState s t w
     let x := tileOf u t
     let f := grunFlight t x (grunOp x w)
     (grunCause x w = none → inStore f.ranges = true →
       exec (.grun t) s = .next (standQueued u t w f (grunEffect t x (grunOp x w) (beforeEffect u t f)))) ∧
     (grunCause x w = none → inStore f.ranges = false → exec (.grun t) s = .next (tileFault u t 0x06)) ∧
     (∀ cause, grunCause x w = some cause → exec (.grun t) s = .next (tileFault u t cause)))) ∧
  ((∀ (s : State) (t : Fin 96) (w : Nat), Issues s t 0x40 w →
     let u := issueState s t w
     let x := tileOf u t
     let o := copyOp x w
     let f := withBefore u (o.flight u t)
     let lost (v : State) : State := (clashes f.reads f.writes).foldl scrub v
     (∀ a b, copyCause u t x w = none → o.src.d.tier ≤ 1 → o.dst.d.tier ≤ 1 → sideTile u t o.src.d = some a →
       sideTile u t o.dst.d = some b → sideTile (beforeEffect u t f) t o.src.d = some a → sideTile (beforeEffect u t f) t o.dst.d = some b →
       exec (.tileCopy t) s = .next (standQueued u t w f (lost ((List.range o.nr).foldl (fun v r =>
         localWrite v b (o.dst.addr r) (localRead v a (o.src.addr r) o.nb)) (beforeEffect u t f))))) ∧
     (∀ v l, copyCause u t x w = none →
       runRows (fun v i => copyRow v t o.src o.dst o.nb i) (List.range o.nr) (beforeEffect u t f) [] = (v, .sent l) →
       exec (.tileCopy t) s = .next (standQueued u t w { f with remote := l } (lost v))) ∧
     (∀ v err, copyCause u t x w = none →
       runRows (fun v i => copyRow v t o.src o.dst o.nb i) (List.range o.nr) (beforeEffect u t f) [] = (v, .failed err) →
       exec (.tileCopy t) s = .next (failAccess (lost v) t err)) ∧
     (∀ cause, copyCause u t x w = some cause → exec (.tileCopy t) s = .next (tileFault u t cause))) ∧
   (∀ (s : State) (t : Fin 96) (w : Nat), Issues s t 0x41 w →
     let u := issueState s t w
     let x := tileOf u t
     let o := fillOp x w
     let f := withBefore u (o.flight u t)
     (∀ b, fillCause u t x w = none → o.dst.d.tier ≤ 1 → sideTile u t o.dst.d = some b →
       exec (.fill t) s = .next (standQueued u t w f ((List.range o.nr).foldl (fun v r =>
         localWrite v b (o.dst.addr r) (List.replicate o.nb o.pat)) u))) ∧
     (∀ v l, fillCause u t x w = none →
       runRows (fun v i => sideWrite v t o.dst (o.dst.addr i) (List.replicate o.nb o.pat)) (List.range o.nr) u [] = (v, .sent l) →
       exec (.fill t) s = .next (standQueued u t w { f with remote := l } v)) ∧
     (∀ v err, fillCause u t x w = none →
       runRows (fun v i => sideWrite v t o.dst (o.dst.addr i) (List.replicate o.nb o.pat)) (List.range o.nr) u [] = (v, .failed err) →
       exec (.fill t) s = .next (failAccess v t err)) ∧
     (∀ cause, fillCause u t x w = some cause → exec (.fill t) s = .next (tileFault u t cause)))) ∧
  ((∀ (s : State) (t : Fin 96) (w : Nat), Issues s t 0x50 w →
     let u := issueState s t w
     let x := tileOf u t
     let i := counterIndex x w
     let v := release u t (bitsOf w 15 8)
     (∀ g, bitOf w 52 = false → syncIndex u x.ctx i = some g →
       ((syncOf u g).poisoned = false → (syncOf u g).value.toNat + counterValue x w < 2 ^ 64 →
         let c := (syncOf u g).plus (counterValue x w) (signalClock v t)
         let r := markMet (setSync v g c) g c.value
         exec (.signal t) s = .next (standQueued u t w syncFlight (foldContext r (tileOf r t).ctx))) ∧
       ((syncOf u g).poisoned = true →
         exec (.signal t) s = .next (standQueued u t w syncFlight (foldContext v (tileOf v t).ctx))) ∧
       ((syncOf u g).poisoned = false → 2 ^ 64 ≤ (syncOf u g).value.toNat + counterValue x w →
         exec (.signal t) s = .next (tileFault (setSync v g { syncOf u g with poisoned := true }) t 0x0E))) ∧
     (bitOf w 52 = false → syncIndex u x.ctx i = none → exec (.signal t) s = .next (tileFault u t 0x09)) ∧
     (∀ j, bitOf w 52 = true → u.span.active = true → spanJobOf u x.ctx = some j →
       let r := sendTracked v x.ctx 3 (bitsOf w 67 53) (((spanJobOf v x.ctx).map spanJobNum).getD 0) i
         (BitVec.ofNat 64 (counterValue x w)) (fun _ _ => []) .va
       exec (.signal t) s = .next (standQueued u t w { syncFlight with remote := [r.1] } r.2)) ∧
     (bitOf w 52 = true → u.span.active = false → exec (.signal t) s = .next (tileFault u t 0x0B))) ∧
   (∀ (s : State) (t : Fin 96) (w g : Nat), Issues s t 0x52 w → bitOf w 52 = false → bitOf w 68 = false →
     let u := issueState s t w
     let x := tileOf u t
     syncIndex u x.ctx (counterIndex x w) = some g →
       ((syncOf u g).poisoned = false → exec (.sread t) s = .next (standQueued u t w syncFlight
         (setTile u t (x.setSreg (bitsOf w 73 69) (syncOf u g).value.toNat)))) ∧
       ((syncOf u g).poisoned = true → exec (.sread t) s = .next (poisonFault u t)))) ∧
  (∀ (s : State) (t op : Nat) (body : State → Tile → Nat → TileIssue), running s = true → (tileOf s t).entry.isSome = true →
     (tileOf s t).halted = false → (tileOf s t).stopped = false → (tileOf s t).waitOn = none →
       ((tileOf s t).len ≤ (tileOf s t).pc → issueTile s t op body = tileFault s t 0x0F) ∧
       (∀ w : Nat, (tileOf s t).pc < (tileOf s t).len → bundleAt s t = some w →
         fenceWait (tileOf s t) w = false → queueFull (tileOf s t) (unitOf (opOf w)) = false → slotWait (tileOf s t) w = false →
           (isTileOp (opOf w) = false → issueTile s t op body = tileFault (fetchBundle s t).2 t 0x01) ∧
           (isTileOp (opOf w) = true → bundleBad w = true → issueTile s t op body = tileFault (fetchBundle s t).2 t 0x02)))

/-- An instruction that stands in a queue raises the count of the fence that it arms by 1 and keeps the tile's other fences,
registers and program, when nothing meets its accesses or it has none; INSTRUCTION_COMPLETE of one that may complete takes it off,
lowers that count by 1, and leaves its accesses to be ordered. What the queued instructions do to their tile: a matrix instruction
changes its cubes and keeps a held result under HOLD, or drops the held one; a GRUN drops it; a GLOAD puts a checked micro-program into
its slot, or empties the slot. Frame: a GRUN and a drain of a checked micro-program change no byte of any local store but those of
their output and their sidecars; under HOLD no byte changes. -/
def Obligations.fencesAndEffects : Prop :=
  ((∀ (s u : State) (t w : Nat) (f : InFlight),
     meetsNothing s t f.unit ∨ f.ranges = [] →
     let x := tileOf u t
     standQueued s t w f u = setTile u t { (x.moveFence (armed w) fun n => n + 1) with
       inflight := x.inflight ++ [{ f with fence := armed w, spoiled := [] }], pc := x.pc + 1 }) ∧
   (∀ (s : State) (t : Fin 96) (i : Nat) (f : InFlight), ready s = true → s.dbg.frozen ≠ some .lrs →
     (tileOf s t).inflight[i]? = some f → mayComplete s (tileOf s t) i f = true →
       let u := setTile s t { ((tileOf s t).moveFence f.fence fun n => n - 1) with inflight := (tileOf s t).inflight.eraseIdx i }
       exec (.instructionComplete t i) s = .next (noteDone u t f) ∧ (f.ranges = [] → noteDone u t f = u) ∧
         (∃ l, noteDone u t f = { u with docket := { u.docket with entries := l } }))) ∧
  ((∀ (s : State) (t : Nat) (x : Tile) (o : MatOp),
     let y := foldOnto s t (tileOf s t) o (matResult s t o x)
     (o.hold = true → tileOf (matEffect t x o s) t =
       { y with held := some { m := o.m, n := o.n, ways := o.ways, bank := passBank x o 0 } } ∧
         (matEffect t x o s).localMem = s.localMem) ∧
     (o.hold = false → tileOf (matEffect t x o s) t = { y with held := none })) ∧
   (∀ (s : State) (t : Nat) (x : Tile) (o : GrunOp), tileOf (grunEffect t x o s) t = { tileOf s t with held := none }) ∧
   (∀ (s : State) (t g a : Nat),
     (∀ l, checkSlot (slotImage s t a) = some l →
       gloadEffect t g a s = setTile s t { tileOf s t with slots := tblPut (tileOf s t).slots g l }) ∧
     (checkSlot (slotImage s t a) = none → tblGet (tileOf (gloadEffect t g a s) t).slots g = none ∧
       (gloadEffect t g a s).localMem = s.localMem))) ∧
  (∀ (s : State) (t k : Nat) (x : Tile), s.localMem.wf = true →
     (∀ o : GrunOp, ((o.prog x).filter isTopk).length ≤ 1 → 0 < o.n →
       outsideAll t k ((grunFlight t x o).writes ++ (grunFlight t x o).sideWrites) →
       memRead (grunEffect t x o s).localMem k = memRead s.localMem k) ∧
     (∀ o : MatOp, ((o.drain x).filter isTopk).length ≤ 1 → 0 < o.n → o.hold = false →
       outsideAll t k ((matFlight t x o).writes ++ (matFlight t x o).sideWrites) →
       memRead (matEffect t x o s).localMem k = memRead s.localMem k))

/-- WAIT: a counter that has reached the target lets the tile go on at once, and orders what the additions up to it released;
otherwise the tile waits, and WAIT_RESUME lets it go on so once an addition has met the target. On a POISONED counter the program faults. PROGRAM_END of a
tile that has halted with nothing in flight and every fence 0, of a TILE_RUN: the tile is free again, and when it was the last of its
gang the entry is RETIRING. -/
def Obligations.waitsAndProgramEnd : Prop :=
  ((∀ (s : State) (t : Fin 96) (w g : Nat), Issues s t 0x51 w → bitOf w 52 = false →
     let u := issueState s t w
     let x := tileOf u t
     syncIndex u x.ctx (counterIndex x w) = some g →
       ((syncOf u g).poisoned = false → counterValue x w ≤ (syncOf u g).value.toNat →
         exec (.wait t) s = .next (setTile u t { x with
           seen := mergeClock x.seen ((syncOf u g).clockAt (BitVec.ofNat 64 (counterValue x w))), pc := x.pc + 1 })) ∧
       ((syncOf u g).poisoned = false → (syncOf u g).value.toNat < counterValue x w →
         let v : WaitOn := { index := counterIndex x w, target := BitVec.ofNat 64 (counterValue x w), met := false }
         exec (.wait t) s = .next (setTile u t { x with waitOn := some v })) ∧
       ((syncOf u g).poisoned = true → exec (.wait t) s = .next (poisonFault u t))) ∧
   (∀ (s : State) (t : Fin 96) (v : WaitOn) (g : Nat), running s = true → (tileOf s t).entry.isSome = true →
     (tileOf s t).stopped = false → (tileOf s t).waitOn = some v → syncIndex s (tileOf s t).ctx v.index = some g →
       (v.met = true → exec (.waitResume t) s =
         .next (setTile s t { tileOf s t with
           waitOn := none, seen := mergeClock (tileOf s t).seen ((syncOf s g).clockAt v.target), pc := (tileOf s t).pc + 1 })) ∧
       (v.met = false → (syncOf s g).poisoned = true → exec (.waitResume t) s = .next (poisonFault s t)) ∧
       (v.met = false → (syncOf s g).poisoned = false → exec (.waitResume t) s = .next s))) ∧
  (∀ (s : State) (t : Fin 96) (e : Nat) (y : Entry), running s = true → (tileOf s t).entry = some e →
     (tileOf s t).stopped = false → (tileOf s t).halted = true → (tileOf s t).inflight = [] →
     ((tileOf s t).fences.all fun n => n == 0) = true → entryOf s e = some y → y.parent = none → y.status = none →
       let u := releaseTile s t
       exec (.programEnd t) s = .next (settle (if (tilesOf u [e]).isEmpty then setEntry u e { y with state := .retiring } else u)) ∧
         tileOf u t = { tileOf s t with
           entry := none, held := none, cached := [], inflight := [], halted := false, stopped := false, rowStop := false
           waitOn := none })

/-! ### Frame time -/

/-- A frame boundary: the phase is 0, the frame number goes up by 1, the programmed period becomes P_f, P is the measured period
while LOCKED and P_f while FREE, every pass is 0, claims lapse, and a pending Almanac image takes force from window 0. -/
def Obligations.frameBoundary : Prop :=
  ∀ (s : State) (t : Time),
    let u := boundary s t
    phaseOf u = 0 ∧ u.time.dtime = t.dtime ∧ u.time.frameStart = s.time.dtime ∧ u.time.frameNum = s.time.frameNum + 1 ∧
      u.time.pf = 1000 * s.time.periodReg.toNat ∧
      u.time.period = (if t.locked = true then t.pm else 1000 * s.time.periodReg.toNat) ∧
      u.sched.passIA = 0 ∧ u.sched.passBK = 0 ∧ u.sched.ctxPass = [] ∧ u.sched.claims = [] ∧ u.almanac.cur = 0 ∧
      u.almanac.queued = none ∧ u.almanac.active = s.almanac.queued.getD s.almanac.active

/-- A pulse: shorter than 3 ticks, or with EN = 0, it is none. FREE: the engine locks with P_f and tells every function. LOCKED,
inside the Solstice window: a boundary, with the measured period updated when the last boundary was a pulse too. Outside it is
ignored and counted; after 4 ignored pulses in a row the next one relocks. The measured period moves an eighth of the way to the
interval, rounded half up, and stays from 1 ms to 200 ms. -/
def Obligations.fsyncPulses : Prop :=
  (∀ (s : State) (high : Nat), ticking s = true →
     let t := s.time
     (t.en = false → exec (.fsyncPulse high) s = .next s) ∧ (high < 3 → exec (.fsyncPulse high) s = .next s) ∧
     (t.en = true → 3 ≤ high →
       (t.locked = false →
         let u := boundary s (t.lockAt (nextPf s))
         exec (.fsyncPulse high) s = .next (settleLive (raiseAll u 0x02 0 u.time.frameNum.toNat))) ∧
       (t.locked = true → t.nign ≠ 4 → insideWindow t = true → ∀ p, t.lastPulse = some p →
         exec (.fsyncPulse high) s = .next (settleLive (boundary s (t.lockAt (measured t.pm (now s - p.toNat)))))) ∧
       (t.locked = true → t.nign ≠ 4 → insideWindow t = true → t.lastPulse = none →
         exec (.fsyncPulse high) s = .next (settleLive (boundary s (t.lockAt t.pm)))) ∧
       (t.locked = true → t.nign ≠ 4 → insideWindow t = false → exec (.fsyncPulse high) s =
         .next (settleLive (bump { s with time := { t with nign := t.nign + 1, lastIgnored := t.dtime } } 1 1))) ∧
       (t.locked = true → t.nign = 4 →
         let i := now s - t.lastIgnored.toNat
         let u := boundary s (t.lockAt (if 1000000 ≤ i ∧ i ≤ 200000000 then i else nextPf s))
         exec (.fsyncPulse high) s = .next (settleLive (raiseAll u 0x03 0 u.time.frameNum.toNat))))) ∧
  (∀ pm i : Nat, (measured pm i : Int) = min 200000000 (max 1000000 ((pm : Int) + rhu ((i : Int) - pm) 3)) ∧
     1000000 ≤ measured pm i ∧ measured pm i ≤ 200000000)

/-- While FREE a boundary follows when the period ends; while LOCKED, at E plus half the window with no pulse, a late edge sets the
boundary and counts a missing pulse, and after 3 of them the engine goes FREE and tells every function; while LOCKED the phase holds
at its greatest value. The PF's write of EN = 0: a FREE engine stops to look for pulses; a LOCKED one stays LOCKED until the
boundary at E, or at the next tick once E has passed. ALMANAC_COMMIT by the PF reads the image and leaves it to the check; a second
one while BUSY is ignored. ALMANAC_CHECK_END sets ERR to the lowest code that applies, and an image with none becomes pending.
ALMANAC_WINDOW brings the window of the phase into force. Panic is raised, once, while an RT request that feeds a presentation queue
nears its deadline, and released when none does or panic is disabled. -/
def Obligations.almanacPanicAndFreeFrames : Prop :=
  (∀ s : State, ticking s = true →
     let t := s.time
     (t.locked = false → t.frameStart.toNat + t.period ≤ now s →
       exec .frameBoundaryFree s = .next (settleLive (boundary s { t with lastPulse := none }))) ∧
     (t.locked = true → t.enOff = true → t.offAt.toNat ≤ now s →
       exec .frameBoundaryFree s = .next (settleLive (boundary s t.goFree))) ∧
     (t.locked = true → t.enOff = false → t.expected.toNat + solstice t ≤ now s → t.nmiss < 3 →
       exec .lateEdge s = .next (settleLive (boundary (bump s 2 1)
         { t with nmiss := t.nmiss + 1, lastPulse := none, expected := t.expected + BitVec.ofNat 64 t.pm }))) ∧
     (t.locked = true → t.enOff = false → t.expected.toNat + solstice t ≤ now s → 3 ≤ t.nmiss →
       let u := boundary s t.goFree
       exec .lateEdge s = .next (settleLive (raiseAll u 0x04 0 u.time.frameNum.toNat))) ∧
     (t.locked = true → phaseOf s = 16777215 → exec .framePhaseHold s = .next { s with time := { t with hold := true } })) ∧
  (∀ s : State, servesWrite s 0 →
     (s.time.locked = false → exec (.fsyncDisable 0) s = .next { s with time := { s.time with en := false } }) ∧
     (s.time.locked = true → s.time.enOff = false → exec (.fsyncDisable 0) s = .next { s with time := { s.time with
       en := false, enOff := true, offAt := BitVec.ofNat 64 (max s.time.expected.toNat (now s + 1)) } })) ∧
  ((∀ s : State, servesWrite s 0 → s.almanac.checking = none →
     let r := readImage s
     exec (.almanacCommit 0) s = .next (noticed { r.2 with almanac := { r.2.almanac with checking := some r.1 } })) ∧
   (∀ (s : State) (img : List Byte), servesWrite s 0 → s.almanac.checking = some img →
     exec (.almanacCommit 0) s = .next (ignored s 0)) ∧
   (∀ (s : State) (img : List Byte), s.almanac.checking = some img →
     (imageError img = 0 → exec .almanacCheckEnd s = .next { s with almanac := { s.almanac with
       checking := none, err := 0, queued := some (imageWindows img) } }) ∧
     (imageError img ≠ 0 → exec .almanacCheckEnd s = .next { s with almanac := { s.almanac with
       checking := none, err := imageError img } })) ∧
   (∀ s : State, windowAt s.almanac.active (phaseOf s) ≠ s.almanac.cur → exec .almanacWindow s = .next { s with
     almanac := { s.almanac with cur := windowAt s.almanac.active (phaseOf s) }
     sched := { s.sched with passIA := 0, passBK := 0, ctxPass := [], claims := [] } })) ∧
  (∀ s : State,
     (s.sched.panicEn = true → s.sched.panic = false → panicCause s = true →
       exec .panicRaise s = .next (bump { s with sched := { s.sched with panic := true } } 3 1)) ∧
     ((s.sched.panicEn = false ∨ panicCause s = false) →
       exec .panicRelease s = .next { s with sched := { s.sched with panic := false } }) ∧
     (s.sched.panicEn = true → panicCause s = true → exec .panicRelease s = .next s))

/-! ### Functions, boot and power -/

/-- A write of HIF_LEASE: GRACE takes any value, PERIOD one of 10 to 60,000 ms; RENEW restarts the lease of an attached function and
is ignored, and counted, for any other. Outside a freeze, the end of a lease and DETACH orphan an attached function: its grace
period starts, its requests end with CANCELLED and the PF hears of it; a GRACE of 0 destroys its context at once. The end of the
grace period destroys the context and leaves the function DETACHED, which is deduced for the PF (log 35). Before they are due,
neither changes anything. -/
def Obligations.leasesAndGrace : Prop :=
  (∀ (s : State) (f : BitVec 8) (v : BitVec 32), barOpen s f.toNat = true → strayBits v 0x80FFFFFF = false →
     let c := f.toNat
     let x := fnOf s c
     let p := v.extractLsb' 0 16
     let kept (q : BitVec 16) : Fn := { x with leasePeriod := q, grace := v.extractLsb' 16 8 }
     let renewed (q : BitVec 16) : Fn := { kept q with leaseEnd := BitVec.ofNat 64 (timerNow s + 1000000 * q.toNat) }
     (10 ≤ p.toNat ∧ p.toNat ≤ 60000 →
       (v.getLsbD 31 = false → exec (.leaseRenew f v) s = .next (setFn s c (kept p))) ∧
       (v.getLsbD 31 = true → x.state = .attached → exec (.leaseRenew f v) s = .next (setFn s c (renewed p))) ∧
       (v.getLsbD 31 = true → x.state ≠ .attached → exec (.leaseRenew f v) s = .next (ignored (setFn s c (kept p)) c))) ∧
     (p.toNat < 10 ∨ 60000 < p.toNat →
       (v.getLsbD 31 = true → x.state = .attached →
         exec (.leaseRenew f v) s = .next (ignored (setFn s c (renewed x.leasePeriod)) c)) ∧
       (v.getLsbD 31 = false ∨ x.state ≠ .attached →
         exec (.leaseRenew f v) s = .next (ignored (setFn s c (kept x.leasePeriod)) c)))) ∧
  (∀ (s : State) (f : BitVec 8), s.dbg.frozen = none → s.lrs.active = false →
     let c := f.toNat
     let x := fnOf s c
     let o := raiseEvent (endAllRequests (setFn s c { x with
       state := .orphaned, graceEnd := BitVec.ofNat 64 (now s + 1000000000 * x.grace.toNat), attachPend := false
       orphanAtThaw := false }) c stCancelled) 0 0x08 c 0
     let gone (u : State) : State :=
       let d := beginDestruction u c 1
       setFn d c { fnOf d c with state := .detached, rings := [] }
     let r := if x.grace = 0 then gone o else o
     (x.state = .attached → x.leaseEnd.toNat ≤ now s → exec (.leaseExpiry f) s = .next (settleLive r)) ∧
     (x.state = .attached → barOpen s c = true → exec (.detach f 2) s = .next (settleLive r)) ∧
     (x.state = .orphaned → x.graceEnd.toNat ≤ now s → exec (.graceExpiry f) s = .next (settleLive (gone s))) ∧
     (now s < x.leaseEnd.toNat → exec (.leaseExpiry f) s = .next (settleLive s)) ∧
     (now s < x.graceEnd.toNat → exec (.graceExpiry f) s = .next (settleLive s)))

/-- ATTACH of a function that is not attached (of a VF, one with a context): with no request of it in the Docket its rings return to
their reset values, its lease starts at PERIOD and it is ATTACHED; otherwise ATTACHPEND holds until ATTACH_EFFECT does the same. At the
instant at which the grace of an orphaned VF has run out, its context is destroyed first and the VF is DETACHED. A write with ATTACH
and DETACH both set is ignored and counted. FLR of a VF without requests destroys its context at once and returns its registers and
counters to their cold values; of a VF that is not there it does nothing; FLR of the PF does so for every function, the PF's first, and
a hot reset is that with the link down. D3hot is entered, and left as by an FLR. -/
def Obligations.attachAndFunctionResets : Prop :=
  (∀ (s : State) (f : BitVec 8), (f = 0 ∨ contextAlive s f.toNat = true) → graceOver s f.toNat = false →
     let c := f.toNat
     let x := fnOf s c
     let done := setFn s c { x with
       rings := [], state := .attached, attachPend := false, orphanAtThaw := false
       leaseEnd := BitVec.ofNat 64 (timerNow s + 1000000 * x.leasePeriod.toNat) }
     (barOpen s c = true → x.state ≠ .attached → x.attachPend = false →
       (requestsOf s c = [] → exec (.attach f 1) s = .next (settleLive done)) ∧
       (requestsOf s c ≠ [] → exec (.attach f 1) s = .next (settleLive (setFn s c { x with attachPend := true })))) ∧
     (x.attachPend = true → requestsOf s c = [] → exec (.attachEffect f) s = .next done) ∧
     (x.attachPend = true → requestsOf s c ≠ [] → exec (.attachEffect f) s = .next s) ∧
     (barOpen s c = true → exec (.attach f 3) s = .next (settleLive (ignored s c)))) ∧
  (∀ (s : State) (f : BitVec 8) (k : Ctx), f ≠ 0 → barOpen s f.toNat = true → ctxOf s f.toNat = some k → k.destroying = false →
     (fnOf s f.toNat).state = .orphaned → (fnOf s f.toNat).graceEnd.toNat ≤ now s → (fnOf s f.toNat).attachPend = false →
     s.docket.entries = [] → s.lrs.active = false → s.dbg.frozen = none →
       ∃ t : State, exec (.attach f 1) s = .next (settleLive t) ∧ (fnOf t f.toNat).state = .detached ∧
         contextAlive t f.toNat = false) ∧
  (∀ s : State, s.lrs.active = false →
     (∀ (f : BitVec 8) (k : Ctx), f ≠ 0 → fnExists s f.toNat = true → s.docket.entries = [] → s.dbg.frozen = none →
       ctxOf s f.toNat = some k →
       ∃ t : State, exec (.flr f) s = .next (settleLive t) ∧ fnOf t f.toNat = Fn.reset ∧
         contextAlive t f.toNat = false ∧
         (∀ n, 0x2000 + 32 * f.toNat ≤ n → n < 0x2000 + 32 * f.toNat + 32 → counterOf t n = Counter.reset) ∧
         (∀ c, c ≠ f.toNat → ctxOf t c = ctxOf s c ∧ (c ≠ 0 → fnOf t c = fnOf s c)) ∧
         t = { s with
           fns := t.fns, ctxs := t.ctxs, syncs := t.syncs, hostMem := t.hostMem, heldWrites := t.heldWrites
           dbg := { s.dbg with counters := t.dbg.counters } }) ∧
     (∀ f : BitVec 8, f ≠ 0 → fnExists s f.toNat = false → exec (.flr f) s = .next (settleLive s)) ∧
     (let all (u : State) := dropVfs (flrOne u 0)
      exec (.flr 0) s = .next (settleLive (all s)) ∧
        exec .hotReset s = .next (settleLive (all { s with boot := { s.boot with linkUp := false } })) ∧
        (s.docket.entries = [] → s.dbg.frozen = none → fnOf (all s) 0 = Fn.reset)) ∧
     (∀ f : BitVec 8, exec (.d3hotEntry f) s = .next (setFn s f.toNat { fnOf s f.toNat with d3hot := true })) ∧
     (∀ f : BitVec 8, (fnOf s f.toNat).d3hot = true → exec (.d3hotToD0 f) s = .next (settleLive (flr s f.toNat))) ∧
     (∀ f : BitVec 8, (fnOf s f.toNat).d3hot = false → exec (.d3hotToD0 f) s = .next s))

/-- A COMMIT of a host window replaces its mapping at one point and closes the context's open epoch; a write while the window is
BUSY is ignored and counted. A RESEED installs a new seed, zeroes the seed words, counts a generation and restarts the stream; while
a request still draws from the generation before, it is deferred until DRBG_RESEED_APPLY. -/
def Obligations.windowsAndSeedsReplace : Prop :=
  ∀ (s : State) (f : BitVec 8) (k : Ctx), ctxOf s f.toNat = some k → k.destroying = false →
    let c := f.toNat
    let d := k.drbg
    let fresh (seed : List Byte) : Ctx := { k with drbg := {
      seed := seed, gen := d.gen + 1, pos := 0, prev := some (d.seed, d.gen, d.pos), words := List.replicate 16 0, deferred := none } }
    let words := d.words.flatMap fun w => leBytes 4 w.toNat
    let r := drawBytes 64 s
    (servesWrite s c →
      (∀ (n : BitVec 4) (v : BitVec 32), strayBits v 7 = false → v.getLsbD 2 = true →
        let w := tblGetD k.hwins n.toNat HWin.reset
        (w.busyEpoch = none → exec (.hwinCommit f n v) s = .next (setCtx s c { k with
          open_ := k.open_ + 1
          closed := k.closed ++ [{ Epoch.none_ with id := k.open_, waits := startedOps s c none }]
          hwins := tblPut k.hwins n.toNat { w with
            en := v.getLsbD 0, w := v.getLsbD 1, busyEpoch := some k.open_
            mapped := if v.getLsbD 0 = true then some (w.base, w.pages.toNat, v.getLsbD 1) else none } })) ∧
        (w.busyEpoch.isSome = true → exec (.hwinCommit f n v) s = .next (ignored s c))) ∧
      (oldGen s c = false → exec (.drbgReseed f 3) s = .next (setCtx s c (fresh words)) ∧
        exec (.drbgReseed f 1) s = .next (setCtx r.2 c (fresh r.1))) ∧
      (oldGen s c = true → exec (.drbgReseed f 3) s = .next (setCtx s c { k with drbg := { d with deferred := some true } }) ∧
        exec (.drbgReseed f 1) s = .next (setCtx s c { k with drbg := { d with deferred := some false } }))) ∧
    (oldGen s c = false → d.deferred = some true → exec (.drbgReseedApply f) s = .next (setCtx s c (fresh words))) ∧
    (oldGen s c = false → d.deferred = some false → exec (.drbgReseedApply f) s = .next (setCtx r.2 c (fresh r.1))) ∧
    (oldGen s c = true → exec (.drbgReseedApply f) s = .next s)

/-- A low level on PERST_N of 1 µs or more, a move of PERST_N or TEST_EN, the key of LRS_RESET in the last-resort state and a power-up start a cold reset: Device
Time, functions, contexts, Docket and registers are at their cold values; the fuses, the Library, its records, its retired units and
host memory stay. A shorter pulse, and any other write of LRS_RESET, does none of it. While TEST_EN is high or PERST_N low the engine does
not leave the reset. -/
def Obligations.coldResetKeepsTheLibrary : Prop :=
  ∀ s : State,
    (let t := coldReset s
     t.time = Time.reset ∧ t.fns = [] ∧ t.ctxs = [] ∧ t.streams = [] ∧ t.docket.entries = [] ∧ t.tiles = [] ∧ t.boot = Boot.reset ∧
       t.sec = Sec.reset ∧ t.sched = Sched.reset ∧ t.dbg = Dbg.reset ∧ t.lrs = Lrs.reset ∧ t.almanac = Almanac.reset ∧
       t.fuses = s.fuses ∧ t.libMem = s.libMem ∧ t.hostMem = s.hostMem ∧ t.retired = s.retired ∧
       t.flash.records = s.flash.records ∧ t.flash.blocks = s.flash.blocks ∧ t.fw.slotA = s.fw.slotA ∧ t.fw.slotB = s.fw.slotB ∧
       ready t = false) ∧
    (∀ n : Nat, s.power.railsGood = true → s.power.clocksStopped = false → s.pins.perstHigh = true → 100 ≤ n →
      exec (.coldReset (.perst n)) s = .next (coldReset s)) ∧
    (∀ n : Nat, n < 100 → exec (.coldReset (.perst n)) s = .next s) ∧
    (s.power.railsGood = true → s.power.clocksStopped = false →
      (∀ high : Bool, s.pins.perstHigh ≠ high → exec (.coldReset (.perstMoves high)) s =
        .next { coldReset s with pins := { (coldReset s).pins with perstHigh := high } }) ∧
      (∀ high : Bool, s.pins.testEn ≠ high → exec (.coldReset (.testEnMoves high)) s =
        .next { coldReset s with pins := { (coldReset s).pins with perstHigh := s.pins.perstHigh, testEn := high } })) ∧
    (s.pins.testEn = true ∨ s.pins.perstHigh = false → ticking s = false) ∧
    (∃ t : State, exec (.coldReset .powerUp) s = .next t ∧ t.power.railsGood = true ∧ t.pins.perstHigh = true ∧
      t.hbmMem = [] ∧ t.sramMem = [] ∧ t.localMem = [] ∧ t.libMem = s.libMem ∧ t.fuses = s.fuses ∧ t.boot = Boot.reset ∧
      t.time = Time.reset) ∧
    (barOpen s 0 = true → s.lrs.active = true → exec (.lrsReset 0 0xC01DB007) s = .next (coldReset s)) ∧
    (∀ key : BitVec 32, barOpen s 0 = true → (s.lrs.active = false ∨ key ≠ 0xC01DB007) →
      exec (.lrsReset 0 key) s = .next (ignored s 0))

/-- Power loss, and a regulator that leaves a request without acknowledgement for 1 ms, take everything outside the Library and the
fuses. The key of PWR_WARM_RESET starts a warm reset: the Docket, the contexts and the rings go without a completion, while Device
Time, the running image, PWR_CAP and the fuses stay. -/
def Obligations.powerLossAndWarmReset : Prop :=
  ∀ s : State,
    (exec .powerLoss s = .next (losePower s) ∧
      (∀ a : BitVec 64, s.power.avsSince = some a → a.toNat + 1000000 ≤ now s → exec .avsAckTimeout s = .next (losePower s)) ∧
      (∀ a : BitVec 64, s.power.avsSince = some a → now s < a.toNat + 1000000 → exec .avsAckTimeout s = .next s) ∧
      (let t := losePower s
       t.power.railsGood = false ∧ ticking t = false ∧ t.hbmMem = [] ∧ t.sramMem = [] ∧ t.localMem = [] ∧ t.frostMem = [] ∧
         t.ctxs = [] ∧ t.docket.entries = [] ∧ t.libMem = s.libMem ∧ t.flash.blocks = s.flash.blocks ∧ t.fuses = s.fuses)) ∧
    (servesWrite s 0 →
      (exec (.pwrWarmReset 0 0x5EA50A11) s = .next (warmReset s)) ∧
      (∀ key : BitVec 32, key ≠ 0x5EA50A11 → exec (.pwrWarmReset 0 key) s = .next (ignored s 0))) ∧
    (let t := warmReset s
     t.boot.stage = 2 ∧ ready t = false ∧ t.boot.recovAddr = 0 ∧ t.stewardMem = [] ∧ t.ctxs = [] ∧ t.docket.entries = [] ∧ t.hostMem = s.hostMem ∧
       (∀ f, (fnOf t f).rings = []) ∧ t.time.dtime = s.time.dtime ∧ t.fw.version = s.fw.version ∧ t.power.cap = s.power.cap ∧
       t.fuses = s.fuses ∧ t.libMem = s.libMem)

/-- BOOT_ROM reads the first VALID slot of its order into image region A and starts it when it passes its checks; without a VALID slot,
and with the only one unreadable or failing, it enters recovery, a failed slot being INVALID. RECOVERY_GO reads an image from host memory and starts it, or keeps the cause of its failure.
FIRMWARE_BRINGUP wipes every memory but the Library and releases HBUSY_N. PCIE_LINK_UP brings the link up. -/
def Obligations.bootStages : Prop :=
  ∀ s : State,
    (ticking s = true → s.boot.stage = 0 → s.lrs.active = false →
      let s0 (e : BitVec 4) : State := { s with stewardMem := [], boot := { s.boot with err := e } }
      let idle (u : State) : State := { u with
        fw := { u.fw with slotA := { u.fw.slotA with active := false }, slotB := { u.fw.slotB with active := false } }
        boot := { u.boot with stage := 6, slot := false } }
      let failed (u : State) (b : Bool) (e : BitVec 4) : State :=
        let v := setSlotState u b { slotState s b with state := .invalid }
        { v with boot := { v.boot with err := e } }
      (bootOrder s = [] → exec .bootRom s = .next (idle (s0 1))) ∧
      (∀ (b : Bool) (rest : List Bool), bootOrder s = b :: rest → slotUnread s b = false →
        let x := slotState s b
        let u := loadRegion (s0 0) false x.image
        bootError (s0 0) x.image = 0 →
          exec .bootRom s = .next (activate (startImage u x.image b false (!x.active)) b)) ∧
      (∀ b : Bool, bootOrder s = [b] → slotUnread s b = false → bootError (s0 0) (slotState s b).image ≠ 0 →
        exec .bootRom s = .next (idle (failed (loadRegion (s0 0) false (slotState s b).image) b
          (bootError (s0 0) (slotState s b).image)))) ∧
      (∀ b : Bool, bootOrder s = [b] → slotUnread s b = true → exec .bootRom s = .next (idle (failed (s0 0) b 6)))) ∧
    (ticking s = true → s.boot.stage = 2 → s.lrs.active = false → exec .firmwareBringup s = .next (bringUp s s.env.trainBad)) ∧
    (∀ bad : BitVec 64,
      let t := bringUp s bad
      t.boot.stage = 5 ∧ t.boot.released = true ∧ t.hbmMem = [] ∧ t.sramMem = [] ∧ t.localMem = [] ∧ t.frostMem = [] ∧ t.tiles = [] ∧
        t.almanac = Almanac.reset ∧ t.sec.engineKey.length = 64 ∧ t.sec.nonce.length = 32 ∧ t.fuses = s.fuses) ∧
    (barOpen s 0 = true → s.boot.stage = 6 → ∀ h img : List Byte,
      hostRead s s.boot.recovAddr.toNat 256 = .data h → headerOk h (256 + codeLen h + 29792) = true →
      hostRead s s.boot.recovAddr.toNat (256 + codeLen h + 29792) = .data img →
        (bootError s img = 0 → exec (.recoveryGo 0) s = .next (recoverWith s img)) ∧
        (bootError s img ≠ 0 →
          exec (.recoveryGo 0) s = .next { s with boot := { s.boot with err := bootError s img } })) ∧
    (barOpen s 0 = true → s.boot.stage ≠ 6 → exec (.recoveryGo 0) s = .next (ignored s 0)) ∧
    (ticking s = true → exec .pcieLinkUp s = .next { s with boot := { s.boot with linkUp := true } })

/-- The power cap steps the clock by 25 MHz between 800 and 1,600 MHz and the tiles by 8 between 24 and 96, down in that order and
up in the reverse one. The thermal limit drops to 800 MHz and 24 tiles at 105 °C, or a stack at 95 °C, and is left only below 100 °C
with every stack below 90 °C. At 115 °C, or a stack at 105 °C, THERMTRIP_N is asserted and every clock stops. A change of the clock
goes with a voltage request, whose value is free (log 4). -/
def Obligations.powerAndThermalLimits : Prop :=
  (∀ (p : Power) (w : Nat), 800 ≤ p.capFreq.toNat → p.capFreq.toNat ≤ 1600 → p.capFreq.toNat % 25 = 0 → 24 ≤ p.capTiles.toNat →
    p.capTiles.toNat ≤ 96 → p.capTiles.toNat % 8 = 0 →
      let q := p.capStep w
      800 ≤ q.capFreq.toNat ∧ q.capFreq.toNat ≤ 1600 ∧ q.capFreq.toNat % 25 = 0 ∧ 24 ≤ q.capTiles.toNat ∧ q.capTiles.toNat ≤ 96 ∧
        q.capTiles.toNat % 8 = 0 ∧
        (p.cap.toNat < w → q.capFreq.toNat = max 800 (p.capFreq.toNat - 25) ∧
          q.capTiles.toNat = (if 800 < p.capFreq.toNat then p.capTiles.toNat else max 24 (p.capTiles.toNat - 8))) ∧
        (w ≤ p.cap.toNat → 100 * w ≤ 95 * p.cap.toNat → q.capTiles.toNat = min 96 (p.capTiles.toNat + 8) ∧
          q.capFreq.toNat = (if p.capTiles.toNat < 96 then p.capFreq.toNat else min 1600 (p.capFreq.toNat + 25)))) ∧
  (∀ (s : State), ticking s = true →
    let set (u : State) (p : Power) : State := if p.freq = u.power.freq then { u with power := p } else askVoltage { u with power := p }
    (∀ w : BitVec 10, exec (.powerEstimate w) s =
      .next (settleLive (set s ({ s.power with watts := w }.capStep w.toNat).apply))) ∧
    (∀ j h : BitVec 8,
      let u : State := { s with power := { s.power with tj := j, thbm := h } }
      (105 ≤ j.toNat ∨ 95 ≤ h.toNat →
        exec (.thermalThrottle j h) s = .next (set u { u.power with throttle := true, freq := 800, tiles := 24 })) ∧
      (j.toNat < 105 → h.toNat < 95 → exec (.thermalThrottle j h) s = .next u) ∧
      (j.toNat < 100 → h.toNat < 90 → exec (.thermalThrottleExit j h) s =
        .next (set u { u.power with throttle := false, freq := s.power.capFreq, tiles := s.power.capTiles })) ∧
      (100 ≤ j.toNat ∨ 90 ≤ h.toNat → exec (.thermalThrottleExit j h) s = .next u) ∧
      (115 ≤ j.toNat ∨ 105 ≤ h.toNat → exec (.thermtrip j h) s = .next { u with
        power := { u.power with clocksStopped := true }, pins := { u.pins with thermtrip := true } })))

/-- SEC_AUTH_CTRL.GO: a life-cycle transition that R404 does not list ends with ERR 5; PROVISIONED to FIELD needs only address 0; a
signed transition and a trust-list update are read from host memory, checked, and accepted or refused with the first ERR that
applies. An accepted transition blows the fuses and starts a warm reset; every GO redraws the nonce. The order of the checks is the
model's choice (log 37). -/
def Obligations.authorisedChanges : Prop :=
  ∀ s : State, servesWrite s 0 → s.sec.busy = false → s.fw.handover = none →
    let ended (u : State) : State :=
      let n := drawBytes 32 u
      { n.2 with sec := { n.2.sec with nonce := n.1, busy := false } }
    (∀ tl : BitVec 3,
      let v : BitVec 32 := BitVec.ofNat 32 (0x20 + 4 * tl.toNat)
      let u : State := { s with sec := { s.sec with op := 0, toLcs := tl } }
      let go := exec (.secAuthLcTransition 0 v) s
      (transition s.fuses.kepoch s.fuses.lcs tl = none → go = .next (ended (setAuthErr u 5))) ∧
      (s.fuses.lcs = 1 → tl = 2 → s.sec.authAddr = 0 → go = .next (ended (acceptTransition u tl []))) ∧
      (s.fuses.lcs = 1 → tl = 2 → s.sec.authAddr ≠ 0 → go = .next (ended (setAuthErr u 5))) ∧
      (∀ w : Signer, transition s.fuses.kepoch s.fuses.lcs tl = some w → w ≠ .pf → s.sec.authAddr = 0 →
        go = .next (ended (setAuthErr u 1))) ∧
      (∀ (w : Signer) (r p : List Byte), transition s.fuses.kepoch s.fuses.lcs tl = some w → w ≠ .pf → s.sec.authAddr ≠ 0 →
        hostRead s s.sec.authAddr.toNat 29984 = .data r →
        (tl ≠ 1 → p = []) → (tl = 1 → hostRead s (s.sec.authAddr.toNat + 30016) (payLen r) = .data p) →
          (recordError u r p tl w = 0 → go = .next (ended (acceptTransition u tl p))) ∧
          (recordError u r p tl w ≠ 0 → go = .next (ended (setAuthErr u (recordError u r p tl w)))))) ∧
    (∀ r : List Byte, s.sec.authAddr ≠ 0 → hostRead s s.sec.authAddr.toNat 31200 = .data r →
      let u : State := { s with sec := { s.sec with op := 1, toLcs := 0 } }
      (trustError u r = 0 → exec (.secAuthTrustUpdate 0 0x21) s = .next (ended (storeTrust (setAuthErr u 0) r))) ∧
      (trustError u r ≠ 0 → exec (.secAuthTrustUpdate 0 0x21) s = .next (ended (setAuthErr u (trustError u r))))) ∧
    (∀ (k : BitVec 2) (a b : BitVec 3), transition k a b ≠ none →
      (a = 0 ∧ b = 1) ∨ (a = 1 ∧ b = 2) ∨ (a = 2 ∧ b = 3 ∧ k ≤ 2) ∨ (a = 3 ∧ b = 1) ∨ (a ≤ 3 ∧ b = 4)) ∧
    (∀ (tl : BitVec 3) (p : List Byte), (acceptTransition s tl p).fuses.lcs = tl ∧ (acceptTransition s tl p).boot.stage = 2 ∧
      (acceptTransition s tl p).ctxs = [] ∧ (tl = 4 → (acceptTransition s tl p).fuses.uds = BitVec.allOnes 256))

/-! ### HBM, flash and faults -/

/-- A channel becomes due by a trigger or by the PF's NOW; the lowest due channel in service is taken out of service while neither
panic nor another retraining holds it back: what its queues hold is served first, every bank is refreshed at the start and again at
the end, requests that come meanwhile wait in their sources and are admitted when the training ends. Training that ends well leaves
the channel trained at this instant and temperature, each history 0b0011, and a transient threshold reached meanwhile takes effect;
training that fails retires both pseudo-channels. -/
def Obligations.channelsRetrain : Prop :=
  (∀ (s : State) (v : BitVec 32), servesWrite s 0 → strayBits v 0x7FFFFFFF = false →
    let u : State := { s with hbm := { s.hbm with retrainPeriod := v.extractLsb' 0 16, retrainDelta := v.extractLsb' 16 8 } }
    let c := (v.extractLsb' 25 6).toNat
    (v.getLsbD 24 = true → exec (.hbmRetrainNow 0 v) s = .next (setChan u c { chanOf u c with due := true })) ∧
    (v.getLsbD 24 = false → exec (.hbmRetrainNow 0 v) s = .next u)) ∧
  (∀ (s : State) (c : BitVec 6), stacksRun s →
    let n := c.toNat
    (retrainTrigger s n = true → exec (.retrainDue c) s = .next (settleLive (setChan s n { chanOf s n with due := true }))) ∧
    (retrainTrigger s n = false → exec (.retrainDue c) s = .next (settleLive s)) ∧
    (nextRetrain s = some n →
      let u : State := { s with hbm := { s.hbm with retraining := some c, retrainChan := c } }
      let a := drainPc (2 * n) (queuedBursts u (2 * n)) u
      let b := drainPc (2 * n + 1) (queuedBursts a (2 * n + 1)) a
      exec (.retrainStart c) s = .next (settleLive (refreshAll (refreshAll b (2 * n)) (2 * n + 1))) ∧
        ((∀ p, p = 2 * n ∨ p = 2 * n + 1 → (pcOf s p).reads = [] ∧ (pcOf s p).writes = []) → b = u)) ∧
    (nextRetrain s ≠ some n → exec (.retrainStart c) s = .next (settleLive s)) ∧
    (s.hbm.retraining = some c →
      let u : State := { s with hbm := { s.hbm with retraining := none, retrainCount := s.hbm.retrainCount + 1 } }
      let r := refreshAll (refreshAll u (2 * n)) (2 * n + 1)
      let t := markTrained (prechargePc (prechargePc r (2 * n) true) (2 * n + 1) true) n
      let w := lateThreshold (lateThreshold t (2 * n)) (2 * n + 1)
      exec (.retrainEnd true) s = .next (settleLive (admitStalled (admitStalled w (2 * n)) (2 * n + 1))) ∧
      ((pcOf s (2 * n)).late = false → (pcOf s (2 * n + 1)).late = false → w = t) ∧
      exec (.retrainEnd false) s = .next (settleLive (retirePc (retirePc u (2 * n) 5) (2 * n + 1) 5))) ∧
    (s.hbm.retraining = none → ∀ good : Bool, exec (.retrainEnd good) s = .next (settleLive s))) ∧
  (∀ (s : State) (p : Nat),
    (s.retired.pcs.contains p = false → ∀ b, b < 16 * nsid s → bankOf (pcOf (refreshAll s p) p) b =
      { bankOf (pcOf s p) b with row := none, left := false, refreshes := (bankOf (pcOf s p) b).refreshes + 1 }) ∧
    (∀ c : Nat, chanOf (markTrained s c) c =
      { trainedAt := s.time.dtime, trainedTemp := (s.hbm.temps[c / 16]?).join, due := false, retry := [] }) ∧
    (∀ r : HbmReq, pcHeld s p = true → pushReq s p r = setPc s p { pcOf s p with stalled := (pcOf s p).stalled ++ [r] }))

/-- DERR, a read parity error and an uncorrectable burst that a repeat clears are a transient event of their pseudo-channel, which
retires with cause 1 when its events of the window reach the limit; while its channel retrains, that the limit was reached is kept
for the end of the retraining. One that the repeat does not clear retires it at once, or fails the training. On a retired
pseudo-channel they change nothing. AERR: every bank of the channel's pseudo-channels in service is closed, their commands of the
window are replayed from the retry buffer, and each with one of them takes a transient event; an AERR during the replay retires them,
and one during a retraining fails the training. A retirement enters the unit in its map, counts it, sets FW_FAULT_STATUS.RETIRE and is
logged, or, while the telemetry worker is stopped, is told later; a unit that has retired is not retired again, and the slice of a
retired tile retires alone. -/
def Obligations.errorsCountAndRetire : Prop :=
  (∀ (s : State) (pc : BitVec 7), stacksRun s →
     let p := pc.toNat
     let times := (pcOf s p).transient.filter (fun a => decide (now s ≤ a + s.hbm.transWindow.toNat * 1000000)) ++ [now s]
     let full := decide (s.hbm.transLimit.toNat ≤ times.length)
     let u := setPc s p { pcOf s p with transient := times, late := (pcOf s p).late || (full && pcHeld s p) }
     let counted := if full = true ∧ pcHeld s p = false then retirePc u p 1 else u
     let failed := if pcHeld s p = true then retrainEnd s false else retirePc s p 4
     (s.retired.pcs.contains p = false →
       exec (.derr pc false) s = .next (settleLive counted) ∧ exec (.readParityError pc false) s = .next (settleLive counted) ∧
       exec (.derr pc true) s = .next (settleLive failed) ∧ exec (.readParityError pc true) s = .next (settleLive failed) ∧
       (∀ a : BitVec 38, a.toNat / 65536 < hbmQuads s → quadPc (a.toNat / 65536) = p →
         exec (.uncorrectableBurst a false) s = .next (settleLive counted) ∧
         exec (.uncorrectableBurst a true) s = .next (settleLive (retirePc s p 2)))) ∧
     (s.retired.pcs.contains p = true → ∀ again : Bool,
       exec (.derr pc again) s = .next (settleLive s) ∧ exec (.readParityError pc again) s = .next (settleLive s))) ∧
  (∀ (s : State) (c : BitVec 6) (w : Nat), stacksRun s →
     let n := c.toNat
     let live := [2 * n, 2 * n + 1].filter fun p => !s.retired.pcs.contains p
     let buf := (chanOf s n).retry.filter fun q => live.contains q.pc
     let l := buf.drop (buf.length - w)
     let t := replayRows (live.foldl (fun u p => prechargePc u p false) s) l
     (live ≠ [] → pcHeld s (2 * n) = false →
       exec (.aerr c w false) s =
         .next (settleLive (live.foldl (fun u p => if l.any (fun q => q.pc == p) = true then transientPc u p else u) t)) ∧
       exec (.aerr c w true) s = .next (settleLive (retirePc (retirePc s (2 * n) 3) (2 * n + 1) 3))) ∧
     (live ≠ [] → pcHeld s (2 * n) = true → ∀ again : Bool, exec (.aerr c w again) s = .next (settleLive (retrainEnd s false))) ∧
     (live = [] → ∀ again : Bool, exec (.aerr c w again) s = .next (settleLive s))) ∧
  (∀ (s : State) (p ch t : Nat) (cause : BitVec 4) (slice : Bool),
     (s.retired.pcs.contains p = true → retirePc s p cause = s) ∧
     (s.retired.flash.contains ch = true → retireFlash s ch cause = s) ∧
     (s.retired.tiles.contains t = true → slice = false ∨ s.retired.slices.contains t = true → retireTile s t slice = s) ∧
     (s.retired.flash.contains ch = false →
       let u := retireFlash s ch cause
       u.retired = { s.retired with flash := ch :: s.retired.flash, total := s.retired.total + 1 } ∧ u.fw.faultRetire = true ∧
         (flashChanOf u ch).retired = true ∧
         (telStopped s = false → u.fw.logSeq = s.fw.logSeq + 1) ∧
         (telStopped s = true → u.fw.logSeq = s.fw.logSeq ∧ u.fw.untold.length = s.fw.untold.length + 1)) ∧
     (s.retired.tiles.contains t = false → (tileOf s t).entry = none →
       (retireTile s t false).retired = { s.retired with tiles := t :: s.retired.tiles, total := s.retired.total + 1 } ∧
         (retireTile s t false).fw.faultRetire = true) ∧
     (s.retired.tiles.contains t = true → s.retired.slices.contains t = false → (tileOf s t).entry = none → s.ctxs = [] →
       s.docket.entries = [] →
         (retireTile s t true).retired = { s.retired with slices := t :: s.retired.slices, total := s.retired.total + 1 }))

/-- A corrected symbol counts in HBM_CORR. Refreshes take the banks in rotation: a due refresh closes its bank and keeps H, is owed
while requests of its bank wait and fewer than the limit are owed, and is spared where one was pulled in before; a refresh out of its
turn pays one that is owed or pulls one in on a bank without requests. A stack's temperature shows in PWR_TEMP, and a first readout
only sets the reference of the stack's channels. The idle timer closes its bank and shifts H. A request that has waited longer than
the limit is aged. The write queue drains from 48 bursts, or with no read waiting, down to 16. -/
def Obligations.hbmTimersAndRefresh : Prop :=
  ∀ s : State, stacksRun s →
    (∀ b w : List Byte, b.length = 34 → symbolDecode b = .corrected w → exec (.symbolCorrection b) s = .next (settleLive (bump s 5 1))) ∧
    (∀ b : List Byte, symbolDecode b = .clean → exec (.symbolCorrection b) s = .next (settleLive s)) ∧
    (∀ (pc : BitVec 7) (bank : BitVec 6), s.retired.pcs.contains pc.toNat = false → pcHeld s pc.toNat = false →
      bank.toNat < 16 * nsid s →
      let p := pc.toNat
      let x := pcOf s p
      let b := bankOf x bank.toNat
      let done (y : Pc) (c : Bank) : State := setPc s p (y.setBank bank.toNat
        { c with row := none, left := false, refreshes := c.refreshes + 1 })
      (bank.toNat = x.refNext → x.refDue.toNat ≤ now s →
        let y := { x with refNext := (x.refNext + 1) % (16 * nsid s), refDue := x.refDue + BitVec.ofNat 64 (refreshPeriod s p) }
        (b.ahead = 0 → (postpones s y bank.toNat = false ∨ Config.refreshLimit ≤ b.owed) →
          exec (.refresh pc bank) s = .next (settleLive (done y b))) ∧
        (b.ahead = 0 → postpones s y bank.toNat = true → b.owed < Config.refreshLimit →
          exec (.refresh pc bank) s = .next (settleLive (setPc s p (y.setBank bank.toNat { b with owed := b.owed + 1 })))) ∧
        (0 < b.ahead →
          exec (.refresh pc bank) s = .next (settleLive (setPc s p (y.setBank bank.toNat { b with ahead := b.ahead - 1 }))))) ∧
      (¬(bank.toNat = x.refNext ∧ x.refDue.toNat ≤ now s) →
        (0 < b.owed → postpones s x bank.toNat = false → let c := { b with owed := b.owed - 1 }
          exec (.refresh pc bank) s = .next (settleLive (done (x.setBank bank.toNat c) c))) ∧
        (0 < b.owed → postpones s x bank.toNat = true → exec (.refresh pc bank) s = .next (settleLive s)) ∧
        (b.owed = 0 → ((x.reads ++ x.writes).any fun r => r.bank == bank.toNat) = false → b.ahead < Config.refreshLimit →
          let c := { b with ahead := b.ahead + 1 }
          exec (.refresh pc bank) s = .next (settleLive (done (x.setBank bank.toNat c) c))))) ∧
    (∀ (k : BitVec 2) (c : BitVec 8), ∃ t : State, exec (.hbmTempRead k c) s = .next (settleLive t) ∧
      t.hbm.temps = s.hbm.temps.set k.toNat (some c) ∧ (k.toNat < s.hbm.temps.length → c ≤ t.power.thbm) ∧
      t.power.thbm ∈ (0 : BitVec 8) :: t.hbm.temps.filterMap id ∧
      (∀ n a, (chanOf s n).trainedTemp = some a → chanOf t n = chanOf s n) ∧
      t = { s with hbm := { s.hbm with temps := t.hbm.temps, chans := t.hbm.chans }, power := { s.power with thbm := t.power.thbm } }) ∧
    (∀ (pc : BitVec 7) (bank : BitVec 6),
      let x := pcOf s pc.toNat
      let b := bankOf x bank.toNat
      let due := b.row.isSome && decide (b.idleFrom.toNat + s.hbm.idle.toNat ≤ now s) &&
        !((x.reads ++ x.writes).any fun r => r.bank == bank.toNat)
      (due = true → exec (.pageIdleTimer pc bank) s = .next (settleLive (setPc s pc.toNat (x.setBank bank.toNat
        { b with row := none, left := false, history := b.history <<< 1 })))) ∧
      (due = false → exec (.pageIdleTimer pc bank) s = .next (settleLive s))) ∧
    (∀ (pc : BitVec 7) (i : Nat) (r : HbmReq), (pcOf s pc.toNat).reads[i]? = some r →
      r.issued.toNat + s.hbm.ageLimit.toNat < now s →
      exec (.requestAged pc i) s = .next (settleLive (setPc s pc.toNat { pcOf s pc.toNat with
        reads := (pcOf s pc.toNat).reads.set i { r with aged := true } }))) ∧
    (∀ pc : BitVec 7,
      let x := pcOf s pc.toNat
      (x.writes ≠ [] → x.reads = [] ∨ 48 ≤ burstsOf x.writes →
        exec (.writeQueueDrain pc) s = .next (settleLive (setPc s pc.toNat { x with draining := true }))) ∧
      (x.writes ≠ [] → x.reads ≠ [] → burstsOf x.writes < 48 →
        exec (.writeQueueDrain pc) s = .next (settleLive (setPc s pc.toNat
          { x with draining := x.draining && decide (16 < burstsOf x.writes) }))) ∧
      (x.writes = [] → exec (.writeQueueDrain pc) s = .next (settleLive s)))

/-- A sector that decodes at level 1 to NRL is one transient event of its channel; one that stays uncorrectable counts in FLS_UNCORR
as well. A command that does not complete, and a switch whose reads fail twice, retire the channel. FLS_RDTIM.APPLY makes every
channel in service switch, and the switch brings it to the new rate and timing. -/
def Obligations.flashChannelEvents : Prop :=
  (∀ (s : State) (ch : BitVec 3), stacksRun s → s.retired.flash.contains ch.toNat = false →
    let c := ch.toNat
    let counted (u : State) : State :=
      let times := (flashChanOf u c).transient.filter (fun a => decide (now u ≤ a + u.flash.transWindow.toNat * 1000000)) ++ [now u]
      let v := setFlashChan u c { flashChanOf u c with transient := times }
      if u.flash.transLimit.toNat ≤ times.length then retireFlash v c 1 else v
    (∀ l : BitVec 4, 0 < l → l ≤ s.flash.nrl → exec (.flashReadRetry ch (some l)) s = .next (settleLive (counted s))) ∧
    exec (.flashReadRetry ch none) s = .next (settleLive (counted (bump s 8 1))) ∧
    exec (.flashCommandTimeout ch) s = .next (settleLive (retireFlash s c 2)) ∧
    (let x := flashChanOf s c
     x.switching = true → x.retired = false →
      exec (.channelRateSwitch ch true) s = .next (settleLive (setFlashChan s c
        { x with switching := false, rate := s.flash.rate, timing := rdtimTiming s, decodeFails := 0 })) ∧
      (x.decodeFails = 0 → exec (.channelRateSwitch ch false) s = .next (settleLive (setFlashChan s c { x with decodeFails := 1 }))) ∧
      (x.decodeFails ≠ 0 → exec (.channelRateSwitch ch false) s = .next (settleLive (retireFlash s c 3))))) ∧
  (∀ (s : State) (v : BitVec 32), servesWrite s 0 → strayBits v 0x17FF7 = false → v.extractLsb' 0 3 < (6 : BitVec 3) →
    let u : State := { s with flash := { s.flash with
      rate := v.extractLsb' 0 3, rlat := v.extractLsb' 4 6, rpre := v.extractLsb' 10 2, odt := v.extractLsb' 12 3 } }
    (v.getLsbD 16 = false → exec (.flsRdtimApply 0 v) s = .next u) ∧
    (v.getLsbD 16 = true → exec (.flsRdtimApply 0 v) s = .next ((liveChannels u).foldl
      (fun w c => setFlashChan w c { flashChanOf w c with switching := true, decodeFails := 0 }) u)))

/-- A component or a core other than core 0 restarts, unless a debugger holds its core: the requests that it carried complete with
CANCELLED, and the restart is counted, logged and shown in FW_LAST_RESTART. Core 0 does not restart. The device watchdog: before its
end nothing happens; at its end, with STWEN and no freeze, a Frost freezes the engine first, else the stewards reset, which with an
empty Docket and no retirement left to tell changes no context and no function. The last-resort state stops everything, shows its cause and keeps a complete
snapshot. -/
def Obligations.restartsWatchdogAndLastResort : Prop :=
  (∀ s : State, stewardsRun s = true →
     let noted (u : State) (comp core cause : Nat) : State :=
       let v := logFault u 4 0 (comp + 32 * cause) 0 0
       { v with fw := { v.fw with lastRestart := BitVec.ofNat 7 (comp + 8 * core + 32 * cause) } }
     (∀ (c : Component) (k : RestartCause), (coreOf s (compCore c)).debugHalt = false →
       let u := noted (dropCarried s [c]) (compCode c) (compCore c) (causeCode k)
       exec (.componentRestart c k) s = .next (settleLive { u with fw := { u.fw with
         comp := u.fw.comp + 1
         compTimes := tblPut u.fw.compTimes (compCode c) (tblGetD u.fw.compTimes (compCode c) [] ++ [now s]) } })) ∧
     (∀ c : BitVec 2, c ≠ 0 → (coreOf s c.toNat).debugHalt = false →
       let x := coreOf s c.toNat
       let u := noted (dropCarried s (coreComps c.toNat)) 7 c.toNat 3
       exec (.coreRestart c) s = .next (settleLive { u with fw := { u.fw with
         coreRestarts := u.fw.coreRestarts + 1
         cores := u.fw.cores.set c.toNat { x with stopped := false, restarts := x.restarts ++ [now s] } } })) ∧
     exec (.coreRestart 0) s = .next (settleLive s) ∧
     (s.fw.handover = none → (∀ l, carried s l = []) → ∀ l, dropCarried s l = s)) ∧
  (∀ s : State, stewardsRun s = true →
     (now s < s.fw.wdtEnd.toNat → exec .stewardReset s = .next (settleLive s)) ∧
     (s.fw.wdtEnd.toNat ≤ now s → s.dbg.stwEn = true → s.dbg.frozen = none →
       let u := freeze s .stwreset 3
       exec .stewardReset s = .next (settleLive { u with dbg := { u.dbg with pendingStw := true } })) ∧
     (s.fw.wdtEnd.toNat ≤ now s → s.dbg.stwEn = false ∨ s.dbg.frozen ≠ none →
       exec .stewardReset s = .next (settleLive (stewardReset s))) ∧
     (s.docket.entries = [] →
       let t := stewardReset s
       t = { s with
         fw := t.fw, boot := t.boot, flash := t.flash, stewardMem := t.stewardMem, fns := t.fns, hostMem := t.hostMem
         heldWrites := t.heldWrites, sec := { s.sec with busy := false }
         dbg := { s.dbg with pendingStw := false, counters := t.dbg.counters } } ∧
         (s.fw.untold = [] → t.fns = s.fns ∧ t.hostMem = s.hostMem ∧ t.heldWrites = s.heldWrites ∧
           t.dbg.counters = s.dbg.counters) ∧
         t.fw.faultStw = true ∧ t.fw.steward = s.fw.steward + 1 ∧ t.fw.handover = none) ∧
     (∀ trap : Bool, ∃ t : State, exec (.lastResortEntry trap) s = .next t ∧ t.lrs.active = true ∧ ready t = false ∧
       t.lrs.dtime = s.time.dtime ∧ t.dbg.frozen = some .lrs ∧ t.dbg.complete = true ∧ t.lrs.frostLen = 67108864 ∧
       t = { s with
         supply := t.supply, drawn := t.drawn, fns := t.fns, hostMem := t.hostMem, frostMem := t.frostMem, dbg := t.dbg, lrs := t.lrs
         heldWrites := t.heldWrites, fw := { s.fw with cores := t.fw.cores } } ∧ (if trap = true then t.lrs.cause = 3 else t.lrs.cause = 1 ∨ t.lrs.cause = 2)))

/-- TILE_TRANSIENT: an error that a retry cleared counts against its tile, which retires when its events of the window reach the
limit; a retry that failed ends the program's request with cause 0x21 and retires the tile, with its slice when the failure lay
there. A corrected word counts in SRAM_CORR. Writing 1 clears RETIRE and STWRESET. -/
def Obligations.tileEventsAndFaultStatus : Prop :=
  (∀ (s : State) (t : Fin 96), stacksRun s → s.retired.tiles.contains t.val = false →
    let times := (tileOf s t).transient.filter (fun a => decide (now s ≤ a + s.sched.tileWindow.toNat * 1000000)) ++ [now s]
    let u := bumpTile (setTile s t { tileOf s t with transient := times }) t 6 1
    let counted := if s.sched.tileLimit.toNat ≤ times.length then retireTile u t false else u
    let ended := match (tileOf s t).entry with | some e => faultRequest s e 0x21 t | none => s
    exec (.tileTransient t .reread) s = .next (settleLive counted) ∧
      exec (.tileTransient t .resend) s = .next (settleLive counted) ∧
      exec (.tileTransient t .storeFailed) s = .next (settleLive (retireTile ended t false)) ∧
      exec (.tileTransient t .sliceFailed) s = .next (settleLive (retireTile ended t true)) ∧
      exec (.tileTransient t .hopFailed) s = .next (settleLive (retireTile ended t true))) ∧
  (∀ (s : State) (slice : Bool) (a : Nat), ticking s = true →
    (a % 8 = 0 → a < 96 * (if slice = true then 2 ^ 24 else 2 ^ 21) → exec (.sramCorrection slice a) s = .next (bump s 6 1)) ∧
    (a % 8 ≠ 0 → exec (.sramCorrection slice a) s = .next s)) ∧
  (∀ (s : State) (v : BitVec 32), servesWrite s 0 → strayBits v 3 = false →
    exec (.faultStatusClear 0 v) s = .next { s with fw := { s.fw with
      faultRetire := s.fw.faultRetire && !v.getLsbD 0, faultStw := s.fw.faultStw && !v.getLsbD 1 } })

/-! ### Observation and registers -/

/-- TRIG freezes an engine that is not frozen, at this tick, with a snapshot; THAW and the limit end a debug freeze and no other,
making the held writes in their order; then the deadlines and the timeouts that came due apply. The end of the snapshot completes it, and a steward reset that waits for it follows. -/
def Obligations.freezeAndThaw : Prop :=
  (∀ (s : State) (v : BitVec 32), servesWrite s 0 → strayBits v 0xFFFF0007 = false → 1 ≤ (v.extractLsb' 16 16).toNat →
    (v.extractLsb' 16 16).toNat ≤ 10000 →
    let u : State := { s with dbg := { s.dbg with stwEn := v.getLsbD 2, limit := v.extractLsb' 16 16 } }
    (v.getLsbD 0 = true → v.getLsbD 1 = false → s.dbg.frozen = none → exec (.debugFrost 0 v) s = .next (freeze u .debug 2) ∧
      (freeze u .debug 2).dbg.frozen = some .debug ∧ (freeze u .debug 2).dbg.frozenAt = s.time.dtime) ∧
    (v.getLsbD 0 = true → v.getLsbD 1 = false → s.dbg.frozen ≠ none → exec (.debugFrost 0 v) s = .next (ignored u 0)) ∧
    (v.getLsbD 0 = false → v.getLsbD 1 = true → s.dbg.frozen = some .debug →
      exec (.thaw 0 v) s = .next (settleLive (applyDue (unfreeze u)))) ∧
    (v.getLsbD 0 = false → v.getLsbD 1 = true → s.dbg.frozen ≠ some .debug →
      exec (.thaw 0 v) s = .next (settleLive (ignored u 0)))) ∧
  (∀ s : State,
    (s.dbg.frozen = some .debug → s.dbg.frozenAt.toNat + 1000000 * s.dbg.limit.toNat ≤ now s →
      exec .frostLimitExpiry s = .next (settleLive (applyDue (unfreeze s)))) ∧
    (s.dbg.frozen ≠ some .debug → exec .frostLimitExpiry s = .next (settleLive s)) ∧
    (s.dbg.trigger ≠ 0 → s.dbg.complete = false → s.dbg.pendingStw = false →
      exec .frostComplete s = .next (settleLive (finishFrost s)) ∧ (finishFrost s).dbg.complete = true) ∧
    (s.dbg.trigger ≠ 0 → s.dbg.complete = false → s.dbg.pendingStw = true →
      exec .frostComplete s = .next (settleLive (stewardReset (unfreeze (finishFrost s))))) ∧
    (s.dbg.complete = true → exec .frostComplete s = .next (settleLive s)) ∧
    ((∀ p ∈ s.fns, p.2.orphanAtThaw = false) →
      unfreeze s = s.heldWrites.foldl (fun u w => hostWrite u w.address w.bytes)
        { s with dbg := { s.dbg with frozen := none }, heldWrites := [] }) ∧
    applyDue s =
      let u := (s.docket.entries.map Prod.fst).foldl deadlineMissed s
      (u.docket.entries.map Prod.fst).foldl requestTimeout u)

/-- Reads of TIM_DTIME_LO, DBG_CNT_LO and TIM_EQX_OFFSET_LO answer the low word and latch the high one, so that both belong to one
instant. An access that the stewards do not serve in time counts, and a read of it answers 0. CLEAR zeroes the selected counter's
value and SAT; EVTEN is what was written. -/
def Obligations.countersAndLatches : Prop :=
  (∀ (s : State) (f : BitVec 8), servesWrite s f.toNat →
    let c := f.toNat
    let k := counterOf s (fnOf s c).cntSel.toNat
    let lo (w : Nat) : BitVec 32 := BitVec.ofNat 32 (w % 2 ^ 32)
    let hi (w : Nat) : BitVec 32 := BitVec.ofNat 32 (w / 2 ^ 32)
    exec (.dtimeRead f) s = .next { setFn s c { fnOf s c with dtimeHi := hi (now s) } with busRead := lo (now s) } ∧
      exec (.eqxOffsetRead f) s =
        .next { setFn s c { fnOf s c with eqxHi := hi s.time.eqxOffset.toNat } with busRead := lo s.time.eqxOffset.toNat } ∧
      (counterMine s c = true → k.value < 2 ^ 48 → exec (.counterRead f) s =
        .next { setFn s c { fnOf s c with cntHi := hi (k.value + (if k.sat = true then 2 ^ 63 else 0)) } with busRead := lo k.value }) ∧
      (counterMine s c = false → exec (.counterRead f) s = .next { setFn s c { fnOf s c with cntHi := 0 } with busRead := 0 })) ∧
  (∀ (s : State) (f : BitVec 8), barOpen s f.toNat = true → ready s = true →
    exec (.emuTimeout f true) s = .next (bump s 9 1) ∧ exec (.emuTimeout f false) s = .next { bump s 9 1 with busRead := 0 }) ∧
  (∀ (s : State) (f : BitVec 8) (v : BitVec 32), servesWrite s f.toNat →
    let x := fnOf s f.toNat
    let n := x.cntSel.toNat
    let l := v.extractLsb' 8 5
    (counterMine s f.toNat = false → exec (.counterClear f v) s = .next (ignored s f.toNat)) ∧
    (counterMine s f.toNat = true → strayBits v 3 = false →
      (v.getLsbD 0 = true → exec (.counterClear f v) s = .next (setCounter s n { value := 0, sat := false, evten := v.getLsbD 1 })) ∧
      (v.getLsbD 0 = false →
        exec (.counterClear f v) s = .next (setCounter s n { counterOf s n with evten := v.getLsbD 1 }))) ∧
    (strayBits v 0x1F03 = false → x.traceEn = false → 6 ≤ l.toNat → l.toNat ≤ 20 →
      exec (.traceEnable f v) s = .next (setFn s f.toNat { x with
        traceEn := v.getLsbD 0, traceFrames := v.getLsbD 1, traceLog2n := l
        traceCount := if v.getLsbD 0 = true then 0 else x.traceCount })) ∧
    (strayBits v 0x1F03 = false → x.traceEn = true →
      exec (.traceEnable f v) s =
        .next (ignored (setFn s f.toNat { x with traceEn := v.getLsbD 0, traceFrames := v.getLsbD 1 }) f.toNat)))

/-- A PF-only register with a range reads the value last written to it, and a value outside the range is ignored and counted: the
age limits, HBM_AGE_LIMIT, PWR_CAP, TIM_FRAME_PERIOD and the device watchdog. A write that no register takes is ignored and counted:
one that is not aligned, one of 8 or 16 bits, one of 64 bits outside the MSI-X table, one of the range 0x2E_0000 to 0x3F_FFFF, one of
a per-context register of a function without a context, and every PF-only action that a VF asks for. An aligned 64-bit write in the
MSI-X table writes both its words. A write of Device Control sets both payload sizes. -/
def Obligations.registersKeepValuesInRange : Prop :=
  (∀ (s : State) (o lo hi : Nat) (mask : BitVec 32) (v : BitVec 32), servesWrite s 0 →
     (o, lo, hi, mask) ∈ ([(0x210010, 100, 4000000, 0xFFFFFFFF), (0x210014, 100, 4000000, 0xFFFFFFFF), (0x260008, 500, 100000, 0x1FFFF),
       (0x2C0000, 250, 450, 0x1FF), (0x2D0010, 1000, 200000, 0x3FFFF), (0x280020, 100, 10000, 0x3FFF)] :
         List (Nat × Nat × Nat × BitVec 32)) → strayBits v mask.toNat = false →
       (lo ≤ v.toNat → v.toNat ≤ hi → ∃ t : State, exec (.registerWrite 0 (.bar0 (BitVec.ofNat 24 o) .b32) (v.setWidth 64)) s = .next t ∧ readReg t 0 o = v ∧
         t = { s with sched := t.sched, hbm := t.hbm, power := t.power, time := t.time, fw := t.fw }) ∧
       (v.toNat < lo ∨ hi < v.toNat → exec (.registerWrite 0 (.bar0 (BitVec.ofNat 24 o) .b32) (v.setWidth 64)) s = .next (ignored s 0))) ∧
  ((∀ (s : State) (f : BitVec 8) (o : BitVec 24) (v : BitVec 32), servesWrite s f.toNat →
     (0x100000 ≤ o.toNat → o.toNat % 4 ≠ 0 → exec (.registerWrite f (.bar0 o .b32) (v.setWidth 64)) s = .next (ignored s f.toNat)) ∧
     (0x2E0000 ≤ o.toNat → o.toNat < 0x400000 → exec (.registerWrite f (.bar0 o .b32) (v.setWidth 64)) s = .next (ignored s f.toNat)) ∧
     (isCtxReg o.toNat = true → o.toNat % 4 = 0 → ctxOf s f.toNat = none →
       exec (.registerWrite f (.bar0 o .b32) (v.setWidth 64)) s = .next (ignored s f.toNat)) ∧
     (∀ (w : Word64) (size : AccessSize),
       (size = .b8 ∨ size = .b16 → exec (.registerWrite f (.bar0 o size) w) s = .next (ignored s f.toNat)) ∧
       (o.toNat % 8 ≠ 0 ∨ o.toNat < 0x120000 ∨ 0x120000 + 16 * vectorsOf f.toNat ≤ o.toNat →
         exec (.registerWrite f (.bar0 o .b64) w) s = .next (ignored s f.toNat))) ∧
     (∀ (w : Word64) (i : Nat), i < vectorsOf f.toNat → o.toNat = 0x120000 + 16 * i →
       let m := tblGetD (fnOf s f.toNat).msix i Msix.reset
       exec (.registerWrite f (.bar0 o .b64) w) s = .next (setFn s f.toNat { fnOf s f.toNat with
         msix := tblPut (fnOf s f.toNat).msix i { m with address := w &&& 0xFFFFFFFFFFFFFFFC } }))) ∧
   (∀ (s : State) (f : BitVec 8) (w : Word64), ticking s = true → s.boot.linkUp = true → fnExists s f.toNat = true →
     exec (.registerWrite f (.config .deviceControl) w) s = .next (settleLive (setFn s f.toNat { fnOf s f.toNat with
       cfg := { (fnOf s f.toNat).cfg with maxPayload := w.extractLsb' 5 3, maxReadReq := w.extractLsb' 12 3 } }))) ∧
   (∀ (s : State) (f : BitVec 8) (v : BitVec 32), servesWrite s f.toNat → f ≠ 0 →
     ∀ row ∈ ([.pwrWarmReset f v, .secAuthLcTransition f v, .secAuthTrustUpdate f v, .hbmRetrainNow f v, .flsRdtimApply f v,
       .faultStatusClear f v, .debugFrost f v, .thaw f v, .spnCommit f, .spnLeave f, .spnRemeasure f, .recoveryGo f,
       .lrsReset f v, .almanacCommit f, .fsyncDisable f] : List Instr), exec row s = .next (ignored s f.toNat)))

/-! ### Span and sideband -/

/-- COMMIT locks the identity of a chip and makes it ACTIVE, unless both ports have retired, and starts a measurement of Equinox;
REMEASURE starts one; the reference itself reads offset 0 at once. LEAVE ends every open Span job and forgets every frame. What
COMMIT does with both ports retired is deduced (log 41). A port that loses block lock goes down, or retires with cause 2 when it
does not come up again; one that comes up within 100 ms takes a transient event, later it retires. Recalibration is due after 600 s
or 10 °C while the other port is up. EQX: a request is answered with its arrival and this chip's Device Time; a reply of the
reference with the SEQ of the open request adds a sample, and the sixteenth gives OFFSET from the exchange with the smallest round trip. -/
def Obligations.spanMembersPortsAndEquinox : Prop :=
  (∀ s : State, servesWrite s 0 →
     let measured (u : State) : State :=
       if u.span.chip = u.span.refChip then { u with
         time := { u.time with eqxOffset := 0, eqxValid := true, eqxErr := 0 }
         span := { u.span with eqxSamples := [], eqxSent := none, eqxNext := none } }
       else
         let v : State := { u with span := { u.span with eqxSamples := [], eqxSent := none, eqxNext := none } }
         let w := sendFrame v 7 0 u.span.refChip.toNat 0 (now u) 0 [] none
         { w with span := { w.span with eqxSent := some u.time.dtime, eqxSeq := nextSeq u, eqxNext := none } }
     (s.span.active = false → (s.retired.ports.contains 0 && s.retired.ports.contains 1) = false →
       exec (.spnCommit 0) s = .next (measured { s with
         span := { s.span with locked := true, active := true }, time := { s.time with eqxValid := false } })) ∧
     (s.span.active = false → (s.retired.ports.contains 0 && s.retired.ports.contains 1) = true →
       exec (.spnCommit 0) s = .next { s with span := { s.span with locked := true } }) ∧
     (s.span.active = true → exec (.spnRemeasure 0) s = .next (measured s)) ∧
     (s.span.active = true →
       let u := faultSpanJobs { s with span := { s.span with active := false, eqxSent := none, eqxNext := none, eqxSamples := [] } } 0
       exec (.spnLeave 0) s = .next (settleLive { u with span := { u.span with outstanding := [] } })) ∧
     (s.span.active = false → exec (.spnRemeasure 0) s = .next s ∧ exec (.spnLeave 0) s = .next (settleLive s))) ∧
  (∀ (s : State) (p : Bool), ticking s = true →
     let x := portOf s p
     (x.state = 2 → exec (.blockLockLoss p true) s =
         .next (settleLive (setPort s p { x with state := 0, lostAt := some s.time.dtime })) ∧
       exec (.blockLockLoss p false) s = .next (settleLive (retirePort s p 2))) ∧
     (x.state ≠ 2 → ∀ again : Bool, exec (.blockLockLoss p again) s = .next (settleLive s)) ∧
     (x.state ≠ 2 → x.state ≠ 3 → s.boot.released = true →
       (x.lostAt = none → exec (.spanLinkUp p) s =
         .next (settleLive (setPort s p { x with state := 2, calAt := s.time.dtime, calTemp := s.power.tj }))) ∧
       (∀ t : Word64, x.lostAt = some t →
         (now s ≤ t.toNat + 100000000 →
           exec (.spanLinkUp p) s = .next (settleLive (transientPort (setPort s p { x with state := 2, lostAt := none }) p))) ∧
         (t.toNat + 100000000 < now s → exec (.spanLinkUp p) s = .next (settleLive (retirePort s p 2))))) ∧
     (recalibrationDue s p = true → exec (.portRecalibration p true) s =
         .next (settleLive (setPort s p { x with calAt := s.time.dtime, calTemp := s.power.tj })) ∧
       exec (.portRecalibration p false) s = .next (settleLive (retirePort s p 2))) ∧
     (recalibrationDue s p = false → ∀ good : Bool, exec (.portRecalibration p good) s = .next (settleLive s))) ∧
  (∀ (s : State) (f : SpanFrame), takesFrame s f = true →
     (f.flags.getLsbD 0 = false → exec (.eqx f) s = .next (sendFrame s 7 1 f.src.toNat 0 (now s) s.time.dtime [] (some f.seq))) ∧
     (∀ t1 : Word64, f.flags.getLsbD 0 = true → f.src = s.span.refChip → f.seq = s.span.eqxSeq → s.span.eqxSent = some t1 →
       let x : Int × Int := ((now s : Int) - t1.toNat - ((f.addr.toNat : Int) - f.arg.toNat),
         (f.arg.toNat : Int) - t1.toNat + ((f.addr.toNat : Int) - now s))
       let l := s.span.eqxSamples ++ [x]
       let u : State := { s with span := { s.span with eqxSamples := l, eqxSent := none } }
       (l.length < 16 → exec (.eqx f) s = .next { u with span := { u.span with eqxNext := some (t1 + 100000) } }) ∧
       (l.length = 16 → ∀ y : Int × Int, bestSample l = some y → 0 ≤ y.1 → y.1 < 131071 → exec (.eqx f) s = .next { u with
         time := { u.time with
           eqxOffset := BitVec.ofInt 64 ((y.2 + 1) / 2), eqxValid := true, eqxErr := BitVec.ofNat 16 ((y.1 + 1) / 2).toNat }
         span := { u.span with eqxSamples := [] } })) ∧
     (f.flags.getLsbD 0 = true → (f.src ≠ s.span.refChip ∨ f.seq ≠ s.span.eqxSeq ∨ s.span.eqxSent = none) → exec (.eqx f) s = .next s))

/-- A DATA, an RDREQ or a SIGNAL that the chip takes is served once: without an open job it answers NOJOB, a repeated SEQ is
acknowledged again and has no effect, one whose effect fails is answered with its reason, any other is acknowledged after its
effect. A frame that the chip does not take changes nothing. What served frames do: a DATA that no RDREQ asked for stores its block
at its address, one that a COPY of a tile waits for fills the local store where that copy wants it; an RDREQ at a block's address that
reads well sends the block back as a DATA, one that is not held coded in HBM coded as a write that names no slot (log 41); a SIGNAL
adds its amount to the job's counter. ACK marks its frame acknowledged, and a frame that has all that it waits for is forgotten; one that was resent is a
transient event of its first port. NACK with reason 1, 2 or 3 fails the transfer, which faults its job with cause 0x25. JOBFAULT
ends the open job with cause 0x25 without another announcement. A frame without an ACK for RTO goes out again with its SEQ, or fails
after RETRIES. -/
def Obligations.spanFramesAndAnswers : Prop :=
  (∀ (s : State) (f : SpanFrame) (row : Instr) (serve : State → Nat → Nat × State),
     (row, serve) ∈ ([(.spanData f, fun u c => takeData u c f), (.rdreq f, fun u c => takeRead u c f),
       (.spanSignal f, fun u c => takeSignal u c f)] : List (Instr × (State → Nat → Nat × State))) →
     (takesFrame s f = false → exec row s = .next (settleLive s)) ∧
     (takesFrame s f = true →
       let ack (u : State) : State := sendFrame u 4 0 f.src.toNat f.jobNum.toNat 0 0 [] (some f.seq)
       let nack (u : State) (n : Nat) : State := sendFrame u 5 0 f.src.toNat f.jobNum.toNat 0 (BitVec.ofNat 64 n) [] (some f.seq)
       (s.span.seen.contains (seenKey f) = true → exec row s = .next (settleLive (ack s))) ∧
       (s.span.seen.contains (seenKey f) = false →
         (spanContext s f.jobNum.toNat = none → exec row s = .next (settleLive (nack s 1))) ∧
         (∀ (c : Nat) (u : State), spanContext s f.jobNum.toNat = some c →
           (serve s c = (0, u) →
             exec row s = .next (settleLive (ack { u with span := { u.span with seen := seenKey f :: u.span.seen } }))) ∧
           (∀ n, n ≠ 0 → serve s c = (n, u) → exec row s = .next (settleLive (nack u n))))))) ∧
  (∀ (s : State) (c : Nat) (f : SpanFrame),
     (awaited s f = none → takeData s c f = storeBlock s c f.addr.toNat f) ∧
     (∀ (o : Outstanding) (t a : Nat) (raw : List Byte), awaited s f = some o → o.store = .tile t a → openWire s c f = some raw →
       copyWaits s o = true → (∀ p ∈ s.tiles, ∀ i ∈ p.2.inflight, i.spoiled = []) →
       takeData s c f = (0, completeFrames (modFrame { s with localMem := memWriteN s.localMem (2 ^ 21 * t + a) raw } o
         fun x => { x with filled := true }))) ∧
     (∀ (b : List Byte × List Byte) (u : State), f.addr.toNat % 4096 = 0 → askedBlock s c f.addr.toNat = (.ok b, u) →
       takeRead s c f = (0, (sendTracked u c 1 f.src.toNat f.jobNum.toNat f.arg.toNat 0 (wireBlock u b) .va).2)) ∧
     (∀ (a : Nat) (raw : List Byte) (u : State), sealedBlock s c a = none → readBlock s c a 4096 3 .remote = (.ok raw, u) →
       askedBlock s c a = (.ok (encodeFor u c none raw).1, (encodeFor u c none raw).2)) ∧
     (f.addr.toNat % 4096 ≠ 0 → takeRead s c f = (2, s)) ∧
     (∀ g : Nat, syncIndex s c f.addr.toNat = some g → (syncOf s g).poisoned = false →
       (syncOf s g).value.toNat + f.arg.toNat < 2 ^ 64 → ∃ u : State, takeSignal s c f = (0, u) ∧
         (syncOf u g).value = (syncOf s g).value + f.arg) ∧
     (syncIndex s c f.addr.toNat = none → takeSignal s c f = (2, s))) ∧
  ((∀ (s : State) (f : SpanFrame) (o : Outstanding), takesFrame s f = true → answered s f = some o →
     let same (x : Outstanding) : Bool := x.port == o.port && x.seq == o.seq
     let l := s.span.outstanding.map fun x => if same x = true then { x with acked := true } else x
     let u : State := { s with span := { s.span with outstanding := l.filter fun x => !(x.acked && (x.filled || x.frameType != 2)) } }
     ((o.resends = 0 ∨ o.acked = true) → exec (.ack f) s = .next (settleLive u)) ∧
     (0 < o.resends → o.acked = false → exec (.ack f) s = .next (settleLive (transientPort u o.port))) ∧
     (1 ≤ f.arg.toNat → f.arg.toNat ≤ 3 → exec (.nack f) s = .next (settleLive (failTransfer s o))) ∧
     (3 < f.arg.toNat → exec (.nack f) s = .next (settleLive s))) ∧
   (∀ (s : State) (f : SpanFrame), takesFrame s f = true →
     (∀ c : Nat, spanContext s f.jobNum.toNat = some c → exec (.jobfault f) s = .next (settleLive
       (faultJob (dropFrames s c f.jobNum.toNat) c 0x25 (if f.port = true then 1 else 0) false))) ∧
     (spanContext s f.jobNum.toNat = none → exec (.jobfault f) s = .next (settleLive s))) ∧
   (∀ (s : State) (p : Bool) (q : BitVec 32) (o : Outstanding), s.span.active = true → s.dbg.frozen = none →
     (s.span.outstanding.find? fun x => x.port == p && x.seq == q && !x.acked) = some o →
       (now s < o.sentAt.toNat + 1000 * s.span.rto.toNat → exec (.spanResend p q) s = .next (settleLive s)) ∧
       (o.sentAt.toNat + 1000 * s.span.rto.toNat ≤ now s →
         (o.resends < s.span.retries.toNat → exec (.spanResend p q) s = .next (settleLive (resendFrame s o))) ∧
         (s.span.retries.toNat ≤ o.resends → exec (.spanResend p q) s = .next (settleLive (failTransfer s o))))) ∧
   (∀ (s : State) (o : Outstanding) (w : Word64), spanJobOf s o.ctx = some w → spanJobNum w = o.jobNum →
     failTransfer s o = faultJob (dropFrames s o.ctx o.jobNum) o.ctx 0x25 (if o.lastPort = true then 1 else 0) true))

/-- While the endpoint serves, each vendor-defined request is answered with its command, a completion code and its data: GET_HEALTH,
GET_FAULT_LOG of 1 to 4 records, CLEAR_FAULT_STATUS, GET_COUNTER; a wrong length answers 2 and an unknown command 1. An MCTP control
message gets an answer that the spec does not give (log 21). ARP assigns the address. While it does not serve, nothing changes. -/
def Obligations.endpointAnswers : Prop :=
  ∀ s : State, endpointServes s = true →
    let answer (u : State) (bs : List Byte) : State := { u with pins := { u.pins with response := bs } }
    exec (.getHealth [1]) s = .next (answer s ([1, 0] ++ healthBytes s)) ∧ (healthBytes s).length = 42 ∧
    (∀ q : BitVec 32, ∀ n : Nat, 1 ≤ n → n ≤ 4 → exec (.getFaultLog (2 :: leBytes 4 q.toNat ++ leBytes 1 n)) s =
      .next (answer s ([2, 0] ++ (List.range n).flatMap fun i => logRecord s (q + BitVec.ofNat 32 i).toNat))) ∧
    (∀ v : BitVec 32, exec (.clearFaultStatus (3 :: leBytes 4 v.toNat)) s = .next (answer (clearFaultStatus s v) [3, 0])) ∧
    (∀ n : BitVec 16, exec (.getCounter (4 :: leBytes 2 n.toNat)) s = .next (answer s ([4, 0] ++ leBytes 8
      (if isCounter n.toNat = true then (counterOf s n.toNat).value + (if (counterOf s n.toNat).sat = true then 2 ^ 63 else 0) else 0)))) ∧
    (∀ d : List Byte, (d.length ≠ 0 → exec (.getHealth (1 :: d)) s = .next (answer s [1, 2])) ∧
      (d.length ≠ 5 → exec (.getFaultLog (2 :: d)) s = .next (answer s [2, 2])) ∧
      (d.length ≠ 4 → exec (.clearFaultStatus (3 :: d)) s = .next (answer s [3, 2])) ∧
      (d.length ≠ 2 → exec (.getCounter (4 :: d)) s = .next (answer s [4, 2])) ∧
      (∀ cmd : Byte, cmd = 0 ∨ 4 < cmd → exec (.getHealth (cmd :: d)) s = .next (answer s [cmd, 1])) ∧
      exec (.mctpControl d) s = .next (answer s (Config.mctpControl d))) ∧
    (∀ a : BitVec 7, exec (.smbusArpAssign a) s = .next { s with pins := { s.pins with smbAddress := a } })

/-- Test-port instructions that take balls away from the engine act only while PERST_N is low inside the engine, where TEST_EN holds it
too (the model's reading of R510 and R521, log 55), and steward debug instructions only where the life cycle opens steward debug
access; elsewhere they act as BYPASS. IDCODE acts at any time, and shows the silicon revision in bits 31:28 and 0x9600 in bits
27:12. -/
def Obligations.testPortActsAsBypass : Prop :=
  ∀ s : State,
    let put (i : TestInstr) : Host.Outcome State Fault Refusal := .next { s with pins := { s.pins with testInstr := i } }
    (∀ i : TestInstr, i = .extest ∨ i = .takesBalls →
      (s.pins.perstHigh = false ∨ s.pins.testEn = true → exec (.testPortInstruction i) s = put i) ∧
      (s.pins.perstHigh = true → s.pins.testEn = false → exec (.testPortInstruction i) s = put .bypass)) ∧
    (∀ (c : BitVec 2) (k : Core), s.fw.cores[c.toNat]? = some k →
      (s.fuses.lcs = 0 ∨ s.fuses.lcs = 3 ∨ s.fuses.lcs = 4 →
        let held (i : TestInstr) (b : Bool) : Host.Outcome State Fault Refusal := .next { s with
          fw := { s.fw with cores := s.fw.cores.set c.toNat { k with debugHalt := b } }, pins := { s.pins with testInstr := i } }
        exec (.testPortInstruction (.debugHalt c)) s = held (.debugHalt c) true ∧
          exec (.testPortInstruction (.debugResume c)) s = held (.debugResume c) false)) ∧
    (∀ c : BitVec 2, s.fuses.lcs ≠ 0 → s.fuses.lcs ≠ 3 → s.fuses.lcs ≠ 4 →
      exec (.testPortInstruction (.debugHalt c)) s = put .bypass ∧ exec (.testPortInstruction (.debugResume c)) s = put .bypass) ∧
    exec (.testPortInstruction .bypass) s = put .bypass ∧ exec (.testPortInstruction .idcode) s = put .idcode ∧
    (idcode s).extractLsb' 28 4 = s.fuses.rev ∧ (idcode s).extractLsb' 12 16 = 0x9600
end

