-- ==== Sys2Proof/Laws/Memory.lean ====
section
/-! SUPPORT. What the memory and table operations do: reads after writes, and the canonical form that every operation keeps. -/

namespace Sys2Proof.Machine

/-! ### The canonical form of a memory -/

/-- Every listed address of a memory lies above a bound. -/
def Memory.above (a : Nat) (m : Memory) : Prop := ∀ p ∈ m, a < p.1

@[simp] theorem Memory.wf_nil : Memory.wf [] = true := rfl

theorem Memory.wf_cons (k : Nat) (b : Byte) (r : Memory) :
    Memory.wf ((k, b) :: r) = true ↔ b ≠ 0 ∧ Memory.above k r ∧ Memory.wf r = true := by
  induction r generalizing k b with
  | nil => simp [Memory.wf, Memory.above]
  | cons q r ih =>
    obtain ⟨k', c⟩ := q
    have h := ih k' c
    simp only [Memory.wf, Bool.and_eq_true, decide_eq_true_eq]
    constructor
    · rintro ⟨⟨hb, hk⟩, hw⟩
      refine ⟨hb, ?_, hw⟩
      intro p hp
      rcases List.mem_cons.1 hp with rfl | hp
      · exact hk
      · exact lt_trans hk ((h.1 hw).2.1 p hp)
    · rintro ⟨hb, ha, hw⟩
      exact ⟨⟨hb, ha (k', c) (List.mem_cons_self ..)⟩, hw⟩

theorem Memory.above_mono {a b : Nat} {m : Memory} (h : a ≤ b) (hm : Memory.above b m) : Memory.above a m :=
  fun p hp => lt_of_le_of_lt h (hm p hp)

theorem memWrite_above {k : Nat} {m : Memory} (hm : Memory.above k m) {a : Nat} (ha : k < a) (b : Byte) :
    Memory.above k (memWrite m a b) := by
  induction m with
  | nil =>
    unfold memWrite
    split
    · exact hm
    · intro p hp; simp only [List.mem_singleton] at hp; subst hp; exact ha
  | cons q r ih =>
    obtain ⟨x, c⟩ := q
    have hx : k < x := hm (x, c) (List.mem_cons_self ..)
    have hr : Memory.above k r := fun p hp => hm p (List.mem_cons_of_mem _ hp)
    unfold memWrite
    split_ifs
    · exact hr
    · intro p hp; rcases List.mem_cons.1 hp with rfl | hp; exacts [ha, hr p hp]
    · exact hm
    · intro p hp; rcases List.mem_cons.1 hp with rfl | hp; exacts [ha, hm p hp]
    · intro p hp; rcases List.mem_cons.1 hp with rfl | hp; exacts [hx, ih hr p hp]

/-- A write keeps the canonical form. -/
theorem memWrite_wf {m : Memory} (h : m.wf = true) (a : Nat) (b : Byte) : (memWrite m a b).wf = true := by
  induction m with
  | nil => unfold memWrite; split <;> simp_all [Memory.wf]
  | cons q r ih =>
    obtain ⟨x, c⟩ := q
    obtain ⟨hc, ha, hr⟩ := (Memory.wf_cons x c r).1 h
    unfold memWrite
    split_ifs with h1 h2 h3 h4
    · exact hr
    · subst h1; exact (Memory.wf_cons _ _ _).2 ⟨h2, ha, hr⟩
    · exact h
    · refine (Memory.wf_cons _ _ _).2 ⟨h4, ?_, h⟩
      intro p hp
      rcases List.mem_cons.1 hp with rfl | hp
      · exact h3
      · exact lt_trans h3 (ha p hp)
    · exact (Memory.wf_cons _ _ _).2 ⟨hc, memWrite_above ha (by omega) b, ih hr⟩

/-- A write of several bytes keeps the canonical form. -/
theorem memWriteN_wf {m : Memory} (h : m.wf = true) (a : Nat) (bs : List Byte) : (memWriteN m a bs).wf = true := by
  induction bs generalizing m a with
  | nil => exact h
  | cons b bs ih => exact ih (memWrite_wf h a b) (a + 1)

theorem filter_wf {m : Memory} (h : m.wf = true) (f : Host.Cell → Bool) : Memory.wf (m.filter f) = true := by
  induction m with
  | nil => rfl
  | cons q r ih =>
    obtain ⟨x, c⟩ := q
    obtain ⟨hc, ha, hr⟩ := (Memory.wf_cons x c r).1 h
    rw [List.filter_cons]
    split
    · exact (Memory.wf_cons _ _ _).2 ⟨hc, fun p hp => ha p (List.mem_of_mem_filter hp), ih hr⟩
    · exact ih hr

/-- A wipe keeps the canonical form. -/
theorem memWipe_wf {m : Memory} (h : m.wf = true) (a n : Nat) : (memWipe m a n).wf = true := filter_wf h _

/-! ### Reads after writes -/

theorem memRead_above {m : Memory} {a : Nat} (h : Memory.above a m) : memRead m a = 0 := by
  cases m with
  | nil => rfl
  | cons q r =>
    obtain ⟨x, c⟩ := q
    have hx : a < x := h (x, c) (List.mem_cons_self ..)
    simp [memRead, hx, Nat.ne_of_lt hx]

/-- A byte written reads back. -/
theorem memRead_memWrite_same {m : Memory} (h : m.wf = true) (a : Nat) (b : Byte) : memRead (memWrite m a b) a = b := by
  induction m with
  | nil => unfold memWrite; split <;> simp_all [memRead]
  | cons q r ih =>
    obtain ⟨x, c⟩ := q
    obtain ⟨_, ha, hr⟩ := (Memory.wf_cons x c r).1 h
    unfold memWrite
    split_ifs with h1 h2 h3 h4
    · subst h1; rw [memRead_above ha, h2]
    · simp [memRead]
    · simp [memRead, h1, h3, h4]
    · simp [memRead]
    · simp only [memRead, if_neg h1, if_neg h3]; exact ih hr

/-- A write leaves every other byte alone. -/
theorem memRead_memWrite_other {m : Memory} (h : m.wf = true) {a k : Nat} (hk : k ≠ a) (b : Byte) :
    memRead (memWrite m a b) k = memRead m k := by
  induction m with
  | nil => unfold memWrite; split <;> simp_all [memRead]
  | cons q r ih =>
    obtain ⟨x, c⟩ := q
    obtain ⟨_, ha, hr⟩ := (Memory.wf_cons x c r).1 h
    unfold memWrite
    split_ifs with h1 h2 h3 h4
    · subst h1
      simp only [memRead, if_neg hk]
      split_ifs with h5
      · exact memRead_above (Memory.above_mono (by omega) ha)
      · rfl
    · subst h1; simp [memRead, hk]
    · rfl
    · simp only [memRead, if_neg hk]
      split_ifs with h5 h6 h7 <;> first | rfl | (exfalso; omega)
    · simp only [memRead]; rw [ih hr]

theorem memRead_memWriteN_other {m : Memory} (h : m.wf = true) (a : Nat) (bs : List Byte) {k : Nat}
    (hk : k < a ∨ a + bs.length ≤ k) : memRead (memWriteN m a bs) k = memRead m k := by
  induction bs generalizing m a with
  | nil => rfl
  | cons b bs ih =>
    simp only [memWriteN]
    rw [ih (memWrite_wf h a b) (a + 1) (by simp at hk; omega), memRead_memWrite_other h (by simp at hk; omega)]

theorem memReadN_congr {m m' : Memory} {a n : Nat} (h : ∀ k, a ≤ k → k < a + n → memRead m k = memRead m' k) :
    memReadN m a n = memReadN m' a n := by
  induction n generalizing a with
  | zero => rfl
  | succ n ih => simp only [memReadN]; rw [h a (by omega) (by omega), ih fun k h1 h2 => h k (by omega) (by omega)]

/-- Bytes written read back. -/
theorem memReadN_memWriteN_same {m : Memory} (h : m.wf = true) (a : Nat) (bs : List Byte) :
    memReadN (memWriteN m a bs) a bs.length = bs := by
  induction bs generalizing m a with
  | nil => rfl
  | cons b bs ih =>
    simp only [memWriteN, List.length_cons, memReadN]
    rw [ih (memWrite_wf h a b) (a + 1), memRead_memWriteN_other (memWrite_wf h a b) (a + 1) bs (by omega),
      memRead_memWrite_same h]

/-- Bytes outside a write read as before. -/
theorem memReadN_memWriteN_other {m : Memory} (h : m.wf = true) (a : Nat) (bs : List Byte) (k n : Nat)
    (hk : k + n ≤ a ∨ a + bs.length ≤ k) : memReadN (memWriteN m a bs) k n = memReadN m k n :=
  memReadN_congr fun x h1 h2 => memRead_memWriteN_other h a bs (by omega)

@[simp] theorem memReadN_length (m : Memory) (a n : Nat) : (memReadN m a n).length = n := by
  induction n generalizing a with
  | zero => rfl
  | succ n ih => simp [memReadN, ih]

@[simp] theorem leBytes_length (n v : Nat) : (leBytes n v).length = n := by
  induction n generalizing v with
  | zero => rfl
  | succ n ih => simp [leBytes, ih]

/-! ### Tables -/

@[simp] theorem tblGet_nil {α : Type} (k : Nat) : tblGet ([] : Tbl α) k = none := rfl

/-- A value put under a key is found there. -/
@[simp] theorem tblGet_tblPut_same {α : Type} (t : Tbl α) (k : Nat) (v : α) : tblGet (tblPut t k v) k = some v := by
  induction t with
  | nil => simp [tblPut, tblGet]
  | cons p r ih =>
    obtain ⟨x, w⟩ := p
    unfold tblPut
    split_ifs with h1 h2
    · simp [tblGet]
    · simp [tblGet]
    · simp only [tblGet, if_neg h1, if_neg h2]; exact ih

/-- Of two puts under one key the second stands. -/
@[simp] theorem tblPut_tblPut {α : Type} (m : Tbl α) (k : Nat) (a b : α) : tblPut (tblPut m k a) k b = tblPut m k b := by
  induction m with
  | nil => simp [tblPut]
  | cons p r ih =>
    obtain ⟨i, v⟩ := p
    by_cases h1 : k = i
    · simp [tblPut, h1]
    · by_cases h2 : k < i
      · simp [tblPut, h1, h2]
      · simp [tblPut, h1, h2, ih]

/-- A put under one key leaves every other key alone. -/
theorem tblGet_tblPut_other {α : Type} (t : Tbl α) {k k' : Nat} (h : k' ≠ k) (v : α) :
    tblGet (tblPut t k v) k' = tblGet t k' := by
  induction t with
  | nil => simp [tblPut, tblGet, h]
  | cons p r ih =>
    obtain ⟨x, w⟩ := p
    unfold tblPut
    split_ifs with h1 h2
    · subst h1; simp [tblGet, h]
    · simp only [tblGet, if_neg h]
      split_ifs with h3 h4 h5 <;> first | rfl | (exfalso; omega)
    · simp only [tblGet]; rw [ih]

@[simp] theorem tblGetD_tblPut_same {α : Type} (t : Tbl α) (k : Nat) (v d : α) : tblGetD (tblPut t k v) k d = v := by
  simp [tblGetD]

theorem tblGetD_tblPut_other {α : Type} (t : Tbl α) {k k' : Nat} (h : k' ≠ k) (v d : α) :
    tblGetD (tblPut t k v) k' d = tblGetD t k' d := by simp [tblGetD, tblGet_tblPut_other t h]

end Sys2Proof.Machine
end

