-- ==== Sys2Proof/Laws/Docket.lean ====
section
/-! SUPPORT. What the Docket's shared operations do: settling with an empty Docket, and a ring command that meets nothing else. -/

namespace Sys2Proof.Machine

/-! ### Settling -/

theorem refreshReady_empty {s : State} (h : s.docket.entries = []) : refreshReady s = s := by
  have : refreshReady s = { s with docket := { s.docket with entries := tblMap s.docket.entries (markReady s) } } := rfl
  rw [this, h]
  show { s with docket := { s.docket with entries := [] } } = s
  rw [← h]

theorem releaseAuth_free {s : State} (h : s.sec.busy = false) : releaseAuth s = s := by simp [releaseAuth, h]

theorem admitFetched_empty {s : State} (h : s.docket.entries = []) : admitFetched s = s := by simp [admitFetched, h]

theorem kickErases_empty {s : State} (h : s.docket.entries = []) : kickErases s = s := by simp [kickErases, h]

/-- Without failed reads the units notice nothing. -/
theorem noticed_none {s : State} (hc : s.hbm.condemned = []) (hf : s.flash.suspects = []) : noticed s = s := by
  have h1 : retireCondemned s = { s with hbm := { s.hbm with condemned := [] } } := by simp [retireCondemned, hc]
  have h2 : ({ s with hbm := { s.hbm with condemned := [] } } : State) = s := by rw [← hc]
  have h3 : countSuspects s = { s with flash := { s.flash with suspects := [] } } := by simp [countSuspects, hf]
  unfold noticed
  rw [h1, h2, h3, ← hf]

theorem wrapUp_empty {s : State} (h : s.docket.entries = []) (hc : s.hbm.condemned = []) (hf : s.flash.suspects = []) :
    wrapUp s = s := by
  unfold wrapUp
  rw [kickErases_empty h, noticed_none hc hf, refreshReady_empty h]

/-- With an empty Docket, no held GO and no failed read nothing follows from an event. -/
theorem settle_calm {s : State} (h : calm s) : settle s = s := by
  obtain ⟨hd, hb, hc, hf⟩ := h
  unfold settle
  rw [noticed_none hc hf, releaseAuth_free hb, admitFetched_empty hd, wrapUp_empty hd hc hf]

theorem settleLive_calm {s : State} (h : calm s) : settleLive s = s := by
  simp [settleLive, settle_calm h, noticed_none h.2.2.1 h.2.2.2]

/-! ### A ring command that meets nothing else -/

@[simp] theorem exec_ringRow (h : ReqHeader) (cmd : Command) (s : State) :
    exec (ringRow h cmd) s = .next (submit s h cmd) := by cases cmd <;> rfl

theorem fetched_entries {s : State} (h : ReqHeader) (cmd : Command) (hd : s.docket.entries = []) :
    (fetched s h cmd).docket.entries = [(s.docket.nextId, newEntry s h cmd [])] := by simp [fetched, addEntry, hd, tblPut]

/-- A ring command that meets nothing else is admitted and starts if it may. -/
theorem submit_alone {s : State} {h : ReqHeader} (cmd : Command) (ha : alone s h) :
    submit s h cmd = wrapUp (startFree (refreshReady (admitEntry (fetched s h cmd) s.docket.nextId)) s.docket.nextId) := by
  obtain ⟨hm, ⟨hd, hb, hc, hf⟩, _, hh⟩ := ha
  have hb' : (fetched s h cmd).sec.busy = false := hb
  have hh' : admissionHeld (fetched s h cmd) = false := hh
  unfold submit
  rw [if_pos hm]
  show settle (fetched s h cmd) = _
  unfold settle
  rw [noticed_none (s := fetched s h cmd) hc hf, releaseAuth_free hb']
  have : admitFetched (fetched s h cmd) =
      startFree (refreshReady (admitEntry (fetched s h cmd) s.docket.nextId)) s.docket.nextId := by
    unfold admitFetched
    have hah : fetchedAhead (fetched s h cmd) s.docket.nextId = false := by
      simp [fetchedAhead, entryOf, fetched_entries h cmd hd, tblGet]
    rw [hh', fetched_entries h cmd hd]
    simp [newEntry, hah]
  rw [this]

/-- An entry that passes its checks is queued. -/
theorem admitEntry_alone {s : State} {h : ReqHeader} {cmd : Command} {parts : List Part} (ha : alone s h)
    (hp : admits s h cmd parts) :
    admitEntry (fetched s h cmd) s.docket.nextId = queueEntry (fetched s h cmd) s.docket.nextId (newEntry s h cmd []) parts := by
  unfold admitEntry
  have : entryOf (fetched s h cmd) s.docket.nextId = some (newEntry s h cmd []) := by
    simp [entryOf, fetched_entries h cmd ha.2.1.1, tblGet]
  rw [this]
  have hp' : admitCheck (fetched s h cmd) h cmd false false = .ok parts := hp
  simp [newEntry, hp']

end Sys2Proof.Machine
end

