-- ==== Sys2Proof/Laws/HostSide.lean ====
section
/-! SUPPORT. What leaves the engine: completions, records, messages, events, counters and traces change nothing but functions, host
memory, held writes and counters. -/

namespace Sys2Proof.Machine

/-- Only functions, host memory, held writes and counters differ. -/
def HostOnly (s t : State) : Prop :=
  t = { s with fns := t.fns, hostMem := t.hostMem, heldWrites := t.heldWrites, dbg := { s.dbg with counters := t.dbg.counters } }

theorem HostOnly.refl (s : State) : HostOnly s s := rfl

theorem HostOnly.trans {s t u : State} (h : HostOnly s t) (k : HostOnly t u) : HostOnly s u := by
  unfold HostOnly at *
  rw [k, h]

theorem hostOnly_setFn {s t : State} (h : HostOnly s t) (f : Nat) (v : Fn) : HostOnly s (setFn t f v) := h.trans rfl
theorem hostOnly_setRing {s t : State} (h : HostOnly s t) (f r : Nat) (v : Ring) : HostOnly s (setRing t f r v) := h.trans rfl
theorem hostOnly_setCounter {s t : State} (h : HostOnly s t) (n : Nat) (c : Counter) : HostOnly s (setCounter t n c) := h.trans rfl

theorem hostOnly_hostWrite {s t : State} (h : HostOnly s t) (a : Nat) (bs : List Byte) : HostOnly s (hostWrite t a bs) := by
  refine h.trans ?_
  unfold hostWrite
  split <;> rfl

theorem hostOnly_sendMsix {s t : State} (h : HostOnly s t) (f v : Nat) : HostOnly s (sendMsix t f v) := by
  unfold sendMsix
  dsimp only
  split_ifs
  · exact h
  · exact hostOnly_setFn h _ _
  · exact hostOnly_hostWrite h _ _

theorem hostOnly_ringNotify {s t : State} (h : HostOnly s t) (f i : Nat) (imm : Bool) : HostOnly s (ringNotify t f i imm) := by
  unfold ringNotify
  dsimp only
  split
  · exact hostOnly_sendMsix (hostOnly_setRing h _ _ _) _ _
  · exact hostOnly_setRing h _ _ _

theorem hostOnly_ringWrite {s t : State} (h : HostOnly s t) (f i : Nat) (bs : List Byte) (imm : Bool) :
    HostOnly s (ringWrite t f i bs imm) :=
  hostOnly_ringNotify (hostOnly_setRing (hostOnly_hostWrite h _ _) _ _ _) _ _ _

theorem hostOnly_dropEvent {s t : State} (h : HostOnly s t) (f : Nat) : HostOnly s (dropEvent t f) :=
  hostOnly_setFn (hostOnly_setCounter h _ _) _ _

theorem hostOnly_raiseEvent {s t : State} (h : HostOnly s t) (f code arg16 arg : Nat) :
    HostOnly s (raiseEvent t f code arg16 arg) := by
  unfold raiseEvent
  dsimp only
  split_ifs
  · exact h
  · exact h
  · split
    · exact hostOnly_dropEvent h _
    · split
      · exact hostOnly_ringWrite h _ _ _ _
      · exact hostOnly_dropEvent h _

theorem hostOnly_bump {s t : State} (h : HostOnly s t) (n k : Nat) : HostOnly s (bump t n k) := by
  unfold bump
  dsimp only
  split
  · exact hostOnly_raiseEvent (hostOnly_setCounter h _ _) _ _ _ _
  · exact hostOnly_setCounter h _ _

theorem hostOnly_bumpFn {s t : State} (h : HostOnly s t) (f k n : Nat) : HostOnly s (bumpFn t f k n) := hostOnly_bump h _ _
theorem hostOnly_bumpTile {s t : State} (h : HostOnly s t) (f k n : Nat) : HostOnly s (bumpTile t f k n) := hostOnly_bump h _ _
theorem hostOnly_ignored {s t : State} (h : HostOnly s t) (f : Nat) : HostOnly s (ignored t f) := hostOnly_bumpFn h _ _ _
theorem hostOnly_countTile {s t : State} (h : HostOnly s t) (a k n : Nat) : HostOnly s (countTile t a k n) := by
  unfold countTile
  split
  · exact h
  · exact hostOnly_bumpFn (hostOnly_bumpTile h _ _ _) _ _ _

theorem hostOnly_traceWrite {s t : State} (h : HostOnly s t) (f kind status sq op cid : Nat) :
    HostOnly s (traceWrite t f kind status sq op cid) := by
  unfold traceWrite
  dsimp only
  split
  · exact hostOnly_setFn (hostOnly_hostWrite h _ _) _ _
  · exact h

theorem hostOnly_writeCompletion {s t : State} (h : HostOnly s t) (f sq cid op : Nat) (st : BitVec 8) (result : Nat) (imm : Bool) :
    HostOnly s (writeCompletion t f sq cid op st result imm) := by
  unfold writeCompletion
  dsimp only
  split
  · exact hostOnly_ringWrite h _ _ _ _
  · exact h

theorem hostOnly_pqWrite {s t : State} (h : HostOnly s t) (f q : Nat) (bs : List Byte) : HostOnly s (pqWrite t f q bs) := by
  unfold pqWrite
  dsimp only
  split_ifs
  · exact h
  · exact h
  · exact hostOnly_hostWrite (hostOnly_ringWrite h _ _ _ _) _ _
  · exact hostOnly_raiseEvent (hostOnly_bumpFn h _ _ _) _ _ _ _

/-- A retirement whose tiles are idle: besides the host side, the entries of the request and of its children leave the Docket, no
epoch waits for them and no claim of theirs stands. -/
def dropped (s : State) (es : List Nat) : State :=
  { s with
    docket := { s.docket with entries := es.foldl (fun t e => tblDel t e) s.docket.entries }
    ctxs := (unwait s es).ctxs
    sched := { s.sched with claims := s.sched.claims.filter fun c => !es.contains c } }

theorem tilesOf_idle {s : State} (h : tilesIdle s) (es : List Nat) : tilesOf s es = [] := by
  unfold tilesOf
  rw [List.map_eq_nil_iff, List.filter_eq_nil_iff]
  intro p hp
  simp [h p hp]

theorem foldl_delEntry (es : List Nat) (s : State) :
    es.foldl delEntry s = { s with docket := { s.docket with entries := es.foldl (fun t e => tblDel t e) s.docket.entries } } := by
  induction es generalizing s with
  | nil => rfl
  | cons e es ih => simp only [List.foldl_cons]; rw [ih]; rfl

theorem dropEntry_idle {s : State} (h : tilesIdle s) (e : Nat) : dropEntry s e = dropped s (e :: childrenOf s e) := by
  unfold dropEntry
  dsimp only
  rw [tilesOf_idle h, foldl_delEntry]
  rfl

theorem dropEntry_hostOnly {s u : State} (h : tilesIdle s) (hu : HostOnly s u) (e : Nat) :
    dropEntry u e = dropped u (e :: childrenOf s e) := by
  have h1 : tilesIdle u := by rw [hu]; exact h
  have h2 : childrenOf u e = childrenOf s e := by rw [hu]; rfl
  rw [dropEntry_idle h1, h2]

/-- A request retires while its tiles are idle. -/
theorem finish_idle {s : State} (h : tilesIdle s) {e : Nat} {x : Entry} (hx : entryOf s e = some x) (st : BitVec 8) :
    ∃ u, HostOnly s u ∧ finish s e st = dropped u (e :: childrenOf s e) := by
  unfold finish
  rw [hx]
  dsimp only
  refine ⟨_, ?_, dropEntry_hostOnly h ?_ e⟩ <;>
  · refine hostOnly_traceWrite ?_ ..
    split
    · exact hostOnly_bumpFn (hostOnly_bumpFn (hostOnly_writeCompletion (HostOnly.refl s) ..) ..) ..
    · exact hostOnly_bumpFn (hostOnly_writeCompletion (HostOnly.refl s) ..) ..

end Sys2Proof.Machine
end

