-- ==== Sys2Proof/Laws/Starts.lean ====
section
/-! SUPPORT. Ring commands that meet nothing else: how they are queued, how they begin, and that their retirement empties the
Docket. -/

namespace Sys2Proof.Machine

/-! ### What admission leaves -/

theorem HostOnly.docket {s t : State} (h : HostOnly s t) : t.docket = s.docket := by rw [h]
theorem HostOnly.tiles {s t : State} (h : HostOnly s t) : t.tiles = s.tiles := by rw [h]
theorem HostOnly.sec {s t : State} (h : HostOnly s t) : t.sec = s.sec := by rw [h]
theorem HostOnly.fw {s t : State} (h : HostOnly s t) : t.fw = s.fw := by rw [h]

theorem traceWrite_docket (s : State) (f k st sq op cid : Nat) : (traceWrite s f k st sq op cid).docket = s.docket :=
  (hostOnly_traceWrite (HostOnly.refl s) f k st sq op cid).docket
theorem traceWrite_tiles (s : State) (f k st sq op cid : Nat) : (traceWrite s f k st sq op cid).tiles = s.tiles :=
  (hostOnly_traceWrite (HostOnly.refl s) f k st sq op cid).tiles
theorem traceWrite_fw (s : State) (f k st sq op cid : Nat) : (traceWrite s f k st sq op cid).fw = s.fw :=
  (hostOnly_traceWrite (HostOnly.refl s) f k st sq op cid).fw

theorem admitBase_docket (s : State) (x : Entry) : (admitBase s x).docket = s.docket := by
  unfold admitBase
  split
  · unfold openJob
    split
    · rfl
    · dsimp only
      split <;> rfl
  · rfl

theorem modCtx_docket (s : State) (c : Nat) (g : Ctx → Ctx) : (modCtx s c g).docket = s.docket := by
  unfold modCtx
  split <;> rfl

theorem setEntry_only {s : State} {e : Nat} {x : Entry} (y : Entry) (h : s.docket.entries = [(e, x)]) :
    (setEntry s e y).docket.entries = [(e, y)] := by
  show tblPut s.docket.entries e y = _
  rw [h]
  simp [tblPut]

theorem entryOf_only {s : State} {e : Nat} {x : Entry} (h : s.docket.entries = [(e, x)]) : entryOf s e = some x := by
  simp [entryOf, h, tblGet]

/-- Admission leaves the queued entry alone in a Docket that held it alone. -/
theorem queueEntry_only {s : State} {e : Nat} {x0 : Entry} (x : Entry) (parts : List Part) (h : s.docket.entries = [(e, x0)]) :
    (queueEntry s e x parts).docket.entries = [(e, queuedAs s x parts)] := by
  have h1 : (takeSeq (admitBase s x)).docket.entries = [(e, x0)] := by
    show (admitBase s x).docket.entries = _
    rw [admitBase_docket, h]
  unfold queueEntry
  rw [traceWrite_docket]
  split
  · unfold noteEnder
    rw [modCtx_docket]
    exact setEntry_only _ h1
  · exact setEntry_only _ h1

theorem mapEntries_only {s : State} {e : Nat} {x : Entry} (f : Nat → Entry → Entry) (h : s.docket.entries = [(e, x)]) :
    (mapEntries s f).docket.entries = [(e, f e x)] := by
  have : (mapEntries s f).docket.entries = tblMap s.docket.entries f := rfl
  rw [this, h]
  rfl

theorem refreshReady_only {s : State} {e : Nat} {x : Entry} (h : s.docket.entries = [(e, x)]) :
    (refreshReady s).docket.entries = [(e, markReady s e x)] := mapEntries_only _ h

theorem mapEntries_same {s : State} {e : Nat} {x : Entry} (f : Nat → Entry → Entry) (h : s.docket.entries = [(e, x)])
    (hf : f e x = x) : mapEntries s f = s := by
  have : mapEntries s f = { s with docket := { s.docket with entries := tblMap s.docket.entries f } } := rfl
  rw [this, h]
  have : tblMap [(e, x)] f = [(e, x)] := by simp [tblMap, hf]
  rw [this, ← h]

/-- An entry stays as it is or becomes READY or, if it runs, RETIRING. -/
theorem markReady_cases (s : State) (e : Nat) (x : Entry) :
    markReady s e x = x ∨ markReady s e x = { x with state := .ready, readyTime := now s } ∨
      (x.state = .running ∧ markReady s e x = { x with state := .retiring }) := by
  unfold markReady
  split_ifs with h1 h2
  · exact .inr (.inl rfl)
  · exact .inr (.inr ⟨h2.1, rfl⟩)
  · exact .inl rfl

/-- The entry of a command right after its admission. -/
theorem admitted_only {s : State} {h : ReqHeader} {cmd : Command} (parts : List Part) (hd : s.docket.entries = []) :
    ∃ y : Entry, (admitted s h cmd parts).docket.entries = [(s.docket.nextId, y)] ∧ y.cmd = cmd ∧ y.hdr = h ∧ y.parent = none ∧
      y.parts = parts ∧ (y.state = .queued ∨ y.state = .ready) ∧ y.dispatched = false ∧ y.status = none ∧ y.result = 0 ∧
      y.seq = s.docket.nextSeq := by
  have h1 := queueEntry_only (newEntry s h cmd []) parts (fetched_entries h cmd hd)
  refine ⟨_, refreshReady_only h1, ?_⟩
  have hseq : (admitBase (fetched s h cmd) (newEntry s h cmd [])).docket.nextSeq = s.docket.nextSeq := by
    rw [admitBase_docket]; rfl
  rcases markReady_cases (queueEntry (fetched s h cmd) s.docket.nextId (newEntry s h cmd []) parts) s.docket.nextId
    (queuedAs (fetched s h cmd) (newEntry s h cmd []) parts) with hk | hk | ⟨hq, -⟩
  · rw [hk]; exact ⟨rfl, rfl, rfl, rfl, .inl rfl, rfl, rfl, rfl, hseq⟩
  · rw [hk]; exact ⟨rfl, rfl, rfl, rfl, .inr rfl, rfl, rfl, rfl, hseq⟩
  · cases hq

/-! ### Starts -/

/-- Nothing goes before the only entry. -/
theorem outranked_only {s : State} {e : Nat} {x : Entry} (h : s.docket.entries = [(e, x)]) : outranked s e x = false := by
  simp [outranked, h]

/-- Marking the only entry READY again changes nothing. -/
theorem refreshReady_twice {s : State} {e : Nat} {x : Entry} (h : s.docket.entries = [(e, x)]) :
    refreshReady (refreshReady s) = refreshReady s := by
  have h1 := refreshReady_only h
  rcases markReady_cases s e x with hx | hx | ⟨-, hx⟩
  · have h2 : refreshReady s = s := mapEntries_same _ h hx
    rw [h2, h2]
  all_goals
    rw [hx] at h1
    exact mapEntries_same _ h1 (by simp [markReady])

/-- A ring command that starts at once begins its work, and what follows from its start follows. -/
theorem submit_starts {s : State} {h : ReqHeader} {cmd : Command} (hs : startsAlone s h cmd) (hc : startsAtOnce cmd = true) :
    submit s h cmd = wrapUp (startEntry (admitted s h cmd []) s.docket.nextId) := by
  obtain ⟨ha, hp, he⟩ := hs
  obtain ⟨y, hy, hcmd, -⟩ := admitted_only (h := h) (cmd := cmd) [] ha.2.1.1
  rw [entryOf_only hy] at he
  have hrun : running (admitted s h cmd []) = true := by
    have h0 : running s = true := by
      have := ha.1
      simp only [mayFetch, Bool.and_eq_true] at this
      exact this.1.1.1.1.1
    have key : ∀ u : State, ∀ x : Entry, running (admitBase u x) = running u := by
      intro u x
      unfold admitBase
      split
      · unfold openJob
        split
        · rfl
        · dsimp only
          split <;> rfl
      · rfl
    have key2 : ∀ u : State, ∀ a b c d e f : Nat, running (traceWrite u a b c d e f) = running u := by
      intro u a b c d e f
      have h := hostOnly_traceWrite (HostOnly.refl u) a b c d e f
      rw [h]
      rfl
    have key3 : ∀ u : State, ∀ c e : Nat, running (noteEnder u c e) = running u := by
      intro u c e
      unfold noteEnder modCtx
      split <;> rfl
    show running (queueEntry (fetched s h cmd) s.docket.nextId (newEntry s h cmd []) []) = true
    unfold queueEntry
    rw [key2]
    have h1 : running (setEntry (takeSeq (admitBase (fetched s h cmd) (newEntry s h cmd []))) s.docket.nextId
        (queuedAs (fetched s h cmd) (newEntry s h cmd []) [])) = true := by
      show running (admitBase (fetched s h cmd) (newEntry s h cmd [])) = true
      rw [key]; exact h0
    split
    · rw [key3]; exact h1
    · exact h1
  rw [submit_alone cmd ha, admitEntry_alone ha hp]
  show wrapUp (startFree (admitted s h cmd []) s.docket.nextId) = _
  unfold startFree
  rw [entryOf_only hy]
  dsimp only
  rw [outranked_only hy, if_pos ⟨hrun, by rw [hcmd]; exact hc, by simpa using he, by simp⟩]

/-! ### Retirement -/

theorem childrenOf_only {s : State} {e : Nat} {x : Entry} (h : s.docket.entries = [(e, x)]) (hp : x.parent = none) :
    childrenOf s e = [] := by simp [childrenOf, h, hp]

/-- The only entry retires: the Docket is empty. -/
theorem finish_only {s : State} {e : Nat} {x : Entry} (ht : tilesIdle s) (h : s.docket.entries = [(e, x)])
    (hp : x.parent = none) (st : BitVec 8) : (finish s e st).docket.entries = [] := by
  obtain ⟨u, hu, hf⟩ := finish_idle ht (entryOf_only h) st
  rw [hf, childrenOf_only h hp]
  show tblDel u.docket.entries e = []
  rw [hu.docket, h]
  simp [tblDel]

theorem HostOnly.hbm {s t : State} (h : HostOnly s t) : t.hbm = s.hbm := by rw [h]
theorem HostOnly.flash {s t : State} (h : HostOnly s t) : t.flash = s.flash := by rw [h]

/-- Nothing follows the retirement of the only entry when no read has failed. -/
theorem wrapUp_finish {s : State} {e : Nat} {x : Entry} (ht : tilesIdle s) (h : s.docket.entries = [(e, x)])
    (hp : x.parent = none) (hc : s.hbm.condemned = []) (hf : s.flash.suspects = []) (st : BitVec 8) :
    wrapUp (finish s e st) = finish s e st := by
  refine wrapUp_empty (finish_only ht h hp st) ?_ ?_ <;>
  · obtain ⟨u, hu, hk⟩ := finish_idle ht (entryOf_only h) st
    rw [hk]
    first
    | exact hu.hbm ▸ hc
    | exact hu.flash ▸ hf

theorem foldContext_empty {s : State} (h : s.docket.entries = []) (c : Nat) : foldContext s c = s := by
  simp [foldContext, h]

/-! ### The state in which a command begins -/

theorem noteStart_only {s : State} {e : Nat} {x : Entry} (h : s.docket.entries = [(e, x)]) :
    (noteStart s e).docket.entries = [(e, { x with dispatched := true, started := s.docket.starts })] := by
  unfold noteStart
  rw [entryOf_only h]
  have h1 : (setEntry { s with docket := { s.docket with starts := s.docket.starts + 1 } } e
      { x with dispatched := true, started := s.docket.starts }).docket.entries =
      [(e, { x with dispatched := true, started := s.docket.starts })] := setEntry_only _ h
  dsimp only
  split
  · exact h1
  · rw [traceWrite_docket]; exact h1

theorem noteStart_tiles (s : State) (e : Nat) : (noteStart s e).tiles = s.tiles := by
  unfold noteStart
  split
  · rfl
  · dsimp only
    split
    · rfl
    · rw [traceWrite_tiles]; rfl

theorem admitBase_tiles (s : State) (x : Entry) : (admitBase s x).tiles = s.tiles := by
  unfold admitBase
  split
  · unfold openJob
    split
    · rfl
    · dsimp only
      split <;> rfl
  · rfl

theorem queueEntry_tiles (s : State) (e : Nat) (x : Entry) (parts : List Part) : (queueEntry s e x parts).tiles = s.tiles := by
  have h1 : (setEntry (takeSeq (admitBase s x)) e (queuedAs s x parts)).tiles = s.tiles := admitBase_tiles s x
  unfold queueEntry
  rw [traceWrite_tiles]
  split
  · unfold noteEnder modCtx
    split
    · exact h1
    · exact h1
  · exact h1

theorem admitted_tiles (s : State) (h : ReqHeader) (cmd : Command) (parts : List Part) :
    (admitted s h cmd parts).tiles = s.tiles := queueEntry_tiles (fetched s h cmd) _ _ _

theorem began_tiles (s : State) (h : ReqHeader) (cmd : Command) : (began s h cmd).tiles = s.tiles := by
  have : (began s h cmd).tiles = (admitted s h cmd []).tiles := noteStart_tiles _ _
  rw [this, admitted_tiles]

theorem began_idle {s : State} {h : ReqHeader} {cmd : Command} (ht : tilesIdle s) : tilesIdle (began s h cmd) := by
  unfold tilesIdle
  rw [began_tiles]
  exact ht

/-- The only entry of a Docket in which a command has begun. -/
theorem began_only {s : State} {h : ReqHeader} {cmd : Command} (hd : s.docket.entries = []) :
    (began s h cmd).docket.entries = [(s.docket.nextId, begunEntry s h cmd)] ∧ (begunEntry s h cmd).cmd = cmd ∧
      (begunEntry s h cmd).hdr = h ∧ (begunEntry s h cmd).parent = none ∧ (begunEntry s h cmd).state = .running ∧
      (begunEntry s h cmd).status = none ∧ (begunEntry s h cmd).result = 0 ∧ (begunEntry s h cmd).dispatched = true := by
  obtain ⟨y, hy, h1, h2, h3, h4, h5, h6, h7, h8, h9⟩ := admitted_only (h := h) (cmd := cmd) [] hd
  have hb : (began s h cmd).docket.entries = [(s.docket.nextId,
      { y with state := .running, dispatched := true, started := (admitted s h cmd []).docket.starts })] := by
    unfold began
    dsimp only
    rw [entryOf_only hy]
    exact noteStart_only (setEntry_only _ hy)
  have he : begunEntry s h cmd =
      { y with state := .running, dispatched := true, started := (admitted s h cmd []).docket.starts } := by
    unfold begunEntry
    rw [entryOf_only hb]
    rfl
  rw [he]
  exact ⟨hb, h1, h2, h3, rfl, h7, h8, rfl⟩

/-- A command that no tile and no wait holds starts on its unit. -/
theorem startEntry_unit {s : State} {h : ReqHeader} {cmd : Command} (hd : s.docket.entries = []) (hm : isModel cmd = false)
    (hn : neverStarts cmd = false) :
    startEntry (admitted s h cmd []) s.docket.nextId = startUnit (began s h cmd) s.docket.nextId (begunEntry s h cmd) := by
  obtain ⟨y, hy, h1, -⟩ := admitted_only (h := h) (cmd := cmd) [] hd
  have hb : noteStart (setEntry (admitted s h cmd []) s.docket.nextId { y with state := .running }) s.docket.nextId =
      began s h cmd := by
    unfold began
    dsimp only
    rw [entryOf_only hy]
    rfl
  unfold startEntry
  rw [entryOf_only hy]
  dsimp only
  rw [show isModel y.cmd = false from h1 ▸ hm, show neverStarts y.cmd = false from h1 ▸ hn, hb,
    entryOf_only (began_only hd).1]
  rfl

/-- The row of a ring command that starts at once. -/
theorem exec_starts {s : State} {h : ReqHeader} {cmd : Command} (hs : startsAlone s h cmd) (hc : startsAtOnce cmd = true) :
    exec (ringRow h cmd) s = .next (wrapUp (startUnit (began s h cmd) s.docket.nextId (begunEntry s h cmd))) := by
  rw [exec_ringRow, submit_starts hs hc, startEntry_unit hs.1.2.1.1] <;> cases cmd <;> first | rfl | (simp [startsAtOnce] at hc)

theorem begunEntry_ctx {s : State} {h : ReqHeader} {cmd : Command} (hs : startsAlone s h cmd) :
    (begunEntry s h cmd).ctx = h.fn.toNat := by
  show (begunEntry s h cmd).hdr.fn.toNat = _
  rw [(began_only hs.1.2.1.1).2.2.1]

theorem begunEntry_cmd {s : State} {h : ReqHeader} {cmd : Command} (hs : startsAlone s h cmd) :
    (begunEntry s h cmd).cmd = cmd := (began_only hs.1.2.1.1).2.1

end Sys2Proof.Machine
end

