-- ==== Sys2Proof/Laws/GatePipe.lean ====
section
/-! SUPPORT. What the gate pipe leaves as it was: the tiles, and every byte outside its output and its sidecars. -/

namespace Sys2Proof.Machine

/-! ### Writes into a local store -/

theorem writes_frame (t k : Nat) (l : List (Nat × List Byte)) : ∀ u : State, u.localMem.wf = true →
    (∀ p ∈ l, k < 2 ^ 21 * t + p.1 ∨ 2 ^ 21 * t + p.1 + p.2.length ≤ k) →
    let v := l.foldl (fun v p => localWrite v t p.1 p.2) u
    v.localMem.wf = true ∧ memRead v.localMem k = memRead u.localMem k := by
  induction l with
  | nil => intro u h _; exact ⟨h, rfl⟩
  | cons p r ih =>
    intro u h hk
    have h1 : (localWrite u t p.1 p.2).localMem.wf = true := memWriteN_wf h _ _
    have := ih (localWrite u t p.1 p.2) h1 (fun q hq => hk q (List.mem_cons_of_mem _ hq))
    refine ⟨this.1, this.2.trans ?_⟩
    exact memRead_memWriteN_other h _ _ (hk p (List.mem_cons_self ..))

theorem rows_frame {β : Type} (t k : Nat) (f : β → List (Nat × List Byte)) (l : List β) : ∀ u : State, u.localMem.wf = true →
    (∀ b ∈ l, ∀ p ∈ f b, k < 2 ^ 21 * t + p.1 ∨ 2 ^ 21 * t + p.1 + p.2.length ≤ k) →
    let v := l.foldl (fun u b => (f b).foldl (fun v p => localWrite v t p.1 p.2) u) u
    v.localMem.wf = true ∧ memRead v.localMem k = memRead u.localMem k := by
  induction l with
  | nil => intro u h _; exact ⟨h, rfl⟩
  | cons b r ih =>
    intro u h hk
    have h1 := writes_frame t k (f b) u h (hk b (List.mem_cons_self ..))
    have h2 := ih _ h1.1 (fun q hq => hk q (List.mem_cons_of_mem _ hq))
    exact ⟨h2.1, h2.2.trans h1.2⟩

/-! ### Lengths of rows and lists -/

theorem insertRank_length (a : Int × Nat) (l : List (Int × Nat)) : (insertRank a l).length = l.length + 1 := by
  induction l with
  | nil => rfl
  | cons b r ih => unfold insertRank; split <;> simp [ih]
theorem offer_length (a : Int × Nat) (l : List (Int × Nat)) : (offer l a).length = l.length := by
  simp [offer, insertRank_length]
theorem runElement_top (p : List Nat) (x : LaneIn) (a b : Int) (acc : RowAcc) : (runElement p x a b acc).acc.top.length = acc.top.length := by
  have : ∀ (p : List Nat) (l : Lane), (p.foldl (microStep x) l).acc.top.length = l.acc.top.length := by
    intro p; induction p with
    | nil => intro l; rfl
    | cons u r ih =>
      intro l; rw [List.foldl_cons, ih]
      unfold microStep
      split
      · rfl
      · split
        · rfl
        · split
          · simp [offer_length]
          · rfl
  exact this p _
theorem gateRow_facts (s : State) (t : Nat) (g : GateJob) (i : Nat) :
    (gateRow s t g i).1.length = g.n ∧ (gateRow s t g i).2.2.top.length = (rowStart s t g i).top.length := by
  unfold gateRow
  generalize hr : rowStart s t g i = r0
  have : ∀ (l : List Nat) (r : List Int × Nat × RowAcc),
      (l.foldl (fun (r : List Int × Nat × RowAcc) c =>
        let x : LaneIn := { ea := g.ea i c, eb := g.eb i c, garg := g.garg, col := c
                            ldr := fun b => sideEntry s t (b + 8 * (g.row0 + i)) }
        let l := runElement g.prog x (g.a i c) (g.b i c) r.2.2
        (r.1 ++ [l.out], r.2.1 + (if l.sat then 1 else 0), l.acc)) r).1.length = r.1.length + l.length ∧
      (l.foldl (fun (r : List Int × Nat × RowAcc) c =>
        let x : LaneIn := { ea := g.ea i c, eb := g.eb i c, garg := g.garg, col := c
                            ldr := fun b => sideEntry s t (b + 8 * (g.row0 + i)) }
        let l := runElement g.prog x (g.a i c) (g.b i c) r.2.2
        (r.1 ++ [l.out], r.2.1 + (if l.sat then 1 else 0), l.acc)) r).2.2.top.length = r.2.2.top.length := by
    intro l; induction l with
    | nil => intro r; simp
    | cons c r ih =>
      intro q
      simp only [List.foldl_cons]
      have := ih (q.1 ++ [(runElement g.prog { ea := g.ea i c, eb := g.eb i c, garg := g.garg, col := c, ldr := fun b => sideEntry s t (b + 8 * (g.row0 + i)) } (g.a i c) (g.b i c) q.2.2).out], q.2.1 + (if (runElement g.prog { ea := g.ea i c, eb := g.eb i c, garg := g.garg, col := c, ldr := fun b => sideEntry s t (b + 8 * (g.row0 + i)) } (g.a i c) (g.b i c) q.2.2).sat then 1 else 0), (runElement g.prog { ea := g.ea i c, eb := g.eb i c, garg := g.garg, col := c, ldr := fun b => sideEntry s t (b + 8 * (g.row0 + i)) } (g.a i c) (g.b i c) q.2.2).acc)
      refine ⟨this.1.trans ?_, this.2.trans ?_⟩
      · simp; omega
      · exact runElement_top _ _ _ _ _
  have := this (List.range g.n) ([], 0, r0)
  simpa using this

theorem signedBytes_length (n : Nat) (v : Int) : (signedBytes n v).length = n := by simp [signedBytes]
theorem flatMap_len {α : Type} (l : List α) (f : α → List Byte) (n : Nat) (h : ∀ a ∈ l, (f a).length = n) : (l.flatMap f).length = n * l.length := by
  induction l with
  | nil => simp
  | cons a r ih => rw [List.flatMap_cons, List.length_append, h a (List.mem_cons_self ..), ih (fun b hb => h b (List.mem_cons_of_mem _ hb))]; simp [Nat.mul_add]; omega
theorem requant_length (u : Int) (l : List Int) : (requant u l).1.length = l.length := by
  unfold requant; simp; repeat' split
  all_goals simp

/-! ### Where the writes of a row go -/

/-- The narrowed bytes of a row lie in the output ranges. -/
theorem rowOut_in (g : GateJob) (t i : Nat) (hi : i < g.m) (vs : List Int) (hv : vs.length = g.n) (hn : 0 < g.n)
    (p : Nat × List Byte) (hp : p ∈ (rowOut g i vs).1) :
    ∃ r ∈ outRanges t g.prog g.dout g.row0 g.m g.n, r.1 = t ∧ r.2.1 ≤ p.1 ∧ p.1 + p.2.length ≤ r.2.1 + r.2.2 := by
  unfold rowOut at hp
  unfold outRanges
  by_cases hw : uWe (outOp g.prog) = true
  · simp only [hw, Bool.not_true, Bool.false_eq_true, if_false, if_true] at hp ⊢
    by_cases hf : g.dout.fmt = 1
    · simp only [hf, if_true] at hp
      have hS : 0 < g.dout.segLen := by unfold Desc.segLen; positivity
      have key : ∀ (l : List Nat) (x : List (Nat × List Byte) × Nat × Nat),
          p ∈ (l.foldl (fun (x : List (Nat × List Byte) × Nat × Nat) j =>
            let c0 := g.dout.segLen * j
            let q := requant (outExp g i c0) ((vs.drop c0).take g.dout.segLen)
            (x.1 ++ [(g.dout.base + (g.row0 + i) * g.dout.stride + 2 * c0, q.1.flatMap (signedBytes 2)),
              (g.dout.base + g.dout.soff + (g.row0 + i) * g.dout.sstr + j, signedBytes 1 q.2.1)],
              x.2.1 + (if q.2.2 then 1 else 0), x.2.2)) x).1 →
          p ∈ x.1 ∨ ∃ j ∈ l, p = (g.dout.base + (g.row0 + i) * g.dout.stride + 2 * (g.dout.segLen * j),
              (requant (outExp g i (g.dout.segLen * j)) ((vs.drop (g.dout.segLen * j)).take g.dout.segLen)).1.flatMap (signedBytes 2)) ∨
            p = (g.dout.base + g.dout.soff + (g.row0 + i) * g.dout.sstr + j,
              signedBytes 1 (requant (outExp g i (g.dout.segLen * j)) ((vs.drop (g.dout.segLen * j)).take g.dout.segLen)).2.1) := by
        intro l; induction l with
        | nil => intro x h; exact .inl h
        | cons j r ih =>
          intro x h
          rw [List.foldl_cons] at h
          rcases ih _ h with h | ⟨j', hj, h⟩
          · simp at h
            rcases h with h | h | h
            · exact .inl h
            · exact .inr ⟨j, by simp, .inl h⟩
            · exact .inr ⟨j, by simp, .inr h⟩
          · exact .inr ⟨j', List.mem_cons_of_mem _ hj, h⟩
      rcases key _ _ hp with h | ⟨j, hj, h⟩
      · simp at h
      · rw [List.mem_range] at hj
        have hj' : g.dout.segLen * j < g.n := by
          have := (Nat.lt_div_iff_mul_lt hS).mp (show j < (g.n + g.dout.segLen - 1) / g.dout.segLen from hj)
          rw [Nat.mul_comm] at this; omega
        rcases h with h | h
        · refine ⟨(t, g.dout.base + (g.row0 + i) * g.dout.stride + 2 * 0, 2 * g.n), ?_, rfl, ?_, ?_⟩
          · unfold tensorRanges; simp only [List.mem_flatMap, List.mem_range]
            exact ⟨i, hi, by simp [hf]⟩
          · rw [h]; simp
          · rw [h]; simp only
            rw [flatMap_len _ _ 2 (fun a _ => signedBytes_length 2 a), requant_length]
            simp [hv]; omega
        · refine ⟨(t, g.dout.base + g.dout.soff + (g.row0 + i) * g.dout.sstr + 0 / g.dout.segLen, (0 + g.n - 1) / g.dout.segLen - 0 / g.dout.segLen + 1), ?_, rfl, ?_, ?_⟩
          · unfold tensorRanges; simp only [List.mem_flatMap, List.mem_range]
            exact ⟨i, hi, by simp [hf]⟩
          · rw [h]; simp
          · rw [h]; simp only [signedBytes_length, Nat.zero_div, Nat.sub_zero, Nat.zero_add, Nat.add_zero]
            have : j ≤ (g.n - 1) / g.dout.segLen := by
              rw [Nat.le_div_iff_mul_le hS, Nat.mul_comm]; omega
            omega
    · simp only [hf, if_false] at hp
      have key : ∀ (l : List Nat) (x : List (Nat × List Byte) × Nat × Nat),
          p ∈ (l.foldl (fun (x : List (Nat × List Byte) × Nat × Nat) c =>
            let q := narrowState (outExp g i c) g.dout.slotExp (vs.getD c 0)
            (x.1 ++ [(g.dout.base + (g.row0 + i) * g.dout.stride + 4 * c, signedBytes 4 q.1)], x.2.1, x.2.2 + (if q.2 then 1 else 0))) x).1 →
          p ∈ x.1 ∨ ∃ c ∈ l, p = (g.dout.base + (g.row0 + i) * g.dout.stride + 4 * c,
            signedBytes 4 (narrowState (outExp g i c) g.dout.slotExp (vs.getD c 0)).1) := by
        intro l; induction l with
        | nil => intro x h; exact .inl h
        | cons j r ih =>
          intro x h
          rw [List.foldl_cons] at h
          rcases ih _ h with h | ⟨j', hj, h⟩
          · simp at h
            rcases h with h | h
            · exact .inl h
            · exact .inr ⟨j, by simp, by simpa using h⟩
          · exact .inr ⟨j', List.mem_cons_of_mem _ hj, h⟩
      rcases key _ _ hp with h | ⟨c, hc, h⟩
      · simp at h
      · rw [List.mem_range] at hc
        refine ⟨(t, g.dout.base + (g.row0 + i) * g.dout.stride + 4 * 0, 4 * g.n), ?_, rfl, ?_, ?_⟩
        · unfold tensorRanges; simp only [List.mem_flatMap, List.mem_range]
          exact ⟨i, hi, by simp [hf]⟩
        · rw [h]; simp
        · rw [h]; simp only [signedBytes_length]; omega
  · simp [hw] at hp

/-- The sidecar bytes of a row lie in the sidecar ranges. -/
theorem rowSides_in (s : State) (g : GateJob) (t i : Nat) (hi : i < g.m) (hk : (g.prog.filter isTopk).length ≤ 1)
    (p : Nat × List Byte) (hp : p ∈ rowSides g i (gateRow s t g i).2.2) :
    ∃ r ∈ sideWritesOf t g.row0 g.m g.prog, r.1 = t ∧ r.2.1 ≤ p.1 ∧ p.1 + p.2.length ≤ r.2.1 + r.2.2 := by
  unfold rowSides at hp
  simp only [List.mem_map] at hp
  obtain ⟨u, hu, h⟩ := hp
  refine ⟨sideRange t g.row0 g.m u, List.mem_map_of_mem hu, rfl, ?_⟩
  have hmem := List.mem_of_mem_filter hu
  unfold sideRange sideSpan
  unfold sideSpan at h
  by_cases ht : isTopk u = true
  · simp only [ht, if_true] at h ⊢
    subst h
    have hfind : g.prog.find? isTopk = some u := by
      have huf : u ∈ g.prog.filter isTopk := List.mem_filter.mpr ⟨hmem, ht⟩
      have hf : g.prog.filter isTopk = [u] := by
        match hl : g.prog.filter isTopk, huf with
        | [a], h => simp at h; rw [h]
        | a :: b :: r, h => rw [hl] at hk; simp at hk
      rw [← List.head?_filter, hf]; rfl
    have hlen : (gateRow s t g i).2.2.top.length = uK u := by
      rw [(gateRow_facts s t g i).2]; unfold rowStart; simp only [hfind]
      split <;> simp [topFiller]
    simp only
    rw [flatMap_len _ _ 8 (fun a _ => by simp), hlen]
    have h1 : 8 * uK u * g.row0 ≤ 8 * uK u * (g.row0 + i) := Nat.mul_le_mul_left _ (by omega)
    have h2 : 8 * uK u * (g.row0 + i) + 8 * uK u ≤ 8 * uK u * g.row0 + 8 * uK u * g.m := by
      rw [← Nat.mul_add, show 8 * uK u * (g.row0 + i) + 8 * uK u = 8 * uK u * (g.row0 + i + 1) by ring]
      exact Nat.mul_le_mul_left _ (by omega)
    generalize 8 * uK u * (g.row0 + i) = A at *
    generalize 8 * uK u * g.row0 = B at *
    generalize 8 * uK u * g.m = C at *
    omega
  · have ht' : isTopk u = false := by simpa using ht
    simp only [ht', Bool.false_eq_true, if_false] at h ⊢
    subst h
    simp only [signedBytes_length]
    omega

/-- The gate pipe changes no byte outside the output and the sidecars. -/
theorem runGate_frame (s : State) (t k : Nat) (g : GateJob) (hn : 0 < g.n) (hk : (g.prog.filter isTopk).length ≤ 1)
    (hw : s.localMem.wf = true) (ho : outsideAll t k (outRanges t g.prog g.dout g.row0 g.m g.n ++ sideWritesOf t g.row0 g.m g.prog)) :
    memRead (runGate s t g).localMem k = memRead s.localMem k := by
  unfold runGate
  simp only
  rw [hostOnly_countTile (HostOnly.refl _) _ _ _, hostOnly_countTile (HostOnly.refl _) _ _ _, hostOnly_countTile (HostOnly.refl _) _ _ _]
  simp only
  have out : ∀ r ∈ outRanges t g.prog g.dout g.row0 g.m g.n ++ sideWritesOf t g.row0 g.m g.prog, ∀ p : Nat × List Byte,
      r.1 = t ∧ r.2.1 ≤ p.1 ∧ p.1 + p.2.length ≤ r.2.1 + r.2.2 → k < 2 ^ 21 * t + p.1 ∨ 2 ^ 21 * t + p.1 + p.2.length ≤ k := by
    intro r hr p ⟨h1, h2, h3⟩
    rcases ho r hr h1 with h | h
    · left; omega
    · right; omega
  have a1 := rows_frame t k (fun (r : (List (Nat × List Byte) × Nat × Nat) × Nat × List (Nat × List Byte)) => r.1.1)
    ((List.range g.m).map fun i => (rowOut g i (gateRow s t g i).1, (gateRow s t g i).2.1, rowSides g i (gateRow s t g i).2.2)) s hw (by
      intro b hb p hp
      simp only [List.mem_map, List.mem_range] at hb
      obtain ⟨i, hi, rfl⟩ := hb
      obtain ⟨r, hr, h⟩ := rowOut_in g t i hi _ (gateRow_facts s t g i).1 hn p hp
      exact out r (List.mem_append_left _ hr) p h)
  have a2 := rows_frame t k (fun (r : (List (Nat × List Byte) × Nat × Nat) × Nat × List (Nat × List Byte)) => r.2.2)
    ((List.range g.m).map fun i => (rowOut g i (gateRow s t g i).1, (gateRow s t g i).2.1, rowSides g i (gateRow s t g i).2.2)) _ a1.1 (by
      intro b hb p hp
      simp only [List.mem_map, List.mem_range] at hb
      obtain ⟨i, hi, rfl⟩ := hb
      obtain ⟨r, hr, h⟩ := rowSides_in s g t i hi hk p hp
      exact out r (List.mem_append_right _ hr) p h)
  exact a2.2.trans a1.2

/-- The gate pipe changes no tile. -/
theorem runGate_tiles (s : State) (t : Nat) (g : GateJob) : (runGate s t g).tiles = s.tiles := by
  have hfold : ∀ (l : List (Nat × List Byte)) (u : State), (l.foldl (fun v p => localWrite v t p.1 p.2) u).tiles = u.tiles := by
    intro l; induction l with
    | nil => intro u; rfl
    | cons p r ih => intro u; simp only [List.foldl_cons]; rw [ih]; rfl
  have hfold2 : ∀ {β : Type} (l : List β) (g : β → List (Nat × List Byte)) (u : State),
      (l.foldl (fun u r => (g r).foldl (fun v p => localWrite v t p.1 p.2) u) u).tiles = u.tiles := by
    intro β l g; induction l with
    | nil => intro u; rfl
    | cons p r ih => intro u; simp only [List.foldl_cons]; rw [ih, hfold]
  unfold runGate
  simp only
  rw [HostOnly.tiles (hostOnly_countTile (HostOnly.refl _) _ _ _), HostOnly.tiles (hostOnly_countTile (HostOnly.refl _) _ _ _),
    HostOnly.tiles (hostOnly_countTile (HostOnly.refl _) _ _ _), hfold2, hfold2]

end Sys2Proof.Machine
end

