-- ==== Sys2Proof/Laws/State.lean ====
section
/-! SUPPORT. What each named update of the state leaves as it was, one lemma for each field, and what it writes. -/

namespace Sys2Proof.Machine

/-! ### setFn -/

@[simp] theorem setFn_pending (s : State) (f : Nat) (v : Fn) : (setFn s f v).pending = s.pending := rfl
@[simp] theorem setFn_supply (s : State) (f : Nat) (v : Fn) : (setFn s f v).supply = s.supply := rfl
@[simp] theorem setFn_drawn (s : State) (f : Nat) (v : Fn) : (setFn s f v).drawn = s.drawn := rfl
@[simp] theorem setFn_env (s : State) (f : Nat) (v : Fn) : (setFn s f v).env = s.env := rfl
@[simp] theorem setFn_fuses (s : State) (f : Nat) (v : Fn) : (setFn s f v).fuses = s.fuses := rfl
@[simp] theorem setFn_pins (s : State) (f : Nat) (v : Fn) : (setFn s f v).pins = s.pins := rfl
@[simp] theorem setFn_busRead (s : State) (f : Nat) (v : Fn) : (setFn s f v).busRead = s.busRead := rfl
@[simp] theorem setFn_hostMem (s : State) (f : Nat) (v : Fn) : (setFn s f v).hostMem = s.hostMem := rfl
@[simp] theorem setFn_localMem (s : State) (f : Nat) (v : Fn) : (setFn s f v).localMem = s.localMem := rfl
@[simp] theorem setFn_sramMem (s : State) (f : Nat) (v : Fn) : (setFn s f v).sramMem = s.sramMem := rfl
@[simp] theorem setFn_hbmMem (s : State) (f : Nat) (v : Fn) : (setFn s f v).hbmMem = s.hbmMem := rfl
@[simp] theorem setFn_libMem (s : State) (f : Nat) (v : Fn) : (setFn s f v).libMem = s.libMem := rfl
@[simp] theorem setFn_frostMem (s : State) (f : Nat) (v : Fn) : (setFn s f v).frostMem = s.frostMem := rfl
@[simp] theorem setFn_stewardMem (s : State) (f : Nat) (v : Fn) : (setFn s f v).stewardMem = s.stewardMem := rfl
@[simp] theorem setFn_runs (s : State) (f : Nat) (v : Fn) : (setFn s f v).runs = s.runs := rfl
@[simp] theorem setFn_store0 (s : State) (f : Nat) (v : Fn) : (setFn s f v).store0 = s.store0 := rfl
@[simp] theorem setFn_store1 (s : State) (f : Nat) (v : Fn) : (setFn s f v).store1 = s.store1 := rfl
@[simp] theorem setFn_syncs (s : State) (f : Nat) (v : Fn) : (setFn s f v).syncs = s.syncs := rfl
@[simp] theorem setFn_codecSlots (s : State) (f : Nat) (v : Fn) : (setFn s f v).codecSlots = s.codecSlots := rfl
@[simp] theorem setFn_serials (s : State) (f : Nat) (v : Fn) : (setFn s f v).serials = s.serials := rfl
@[simp] theorem setFn_streams (s : State) (f : Nat) (v : Fn) : (setFn s f v).streams = s.streams := rfl
@[simp] theorem setFn_docket (s : State) (f : Nat) (v : Fn) : (setFn s f v).docket = s.docket := rfl
@[simp] theorem setFn_tiles (s : State) (f : Nat) (v : Fn) : (setFn s f v).tiles = s.tiles := rfl
@[simp] theorem setFn_retired (s : State) (f : Nat) (v : Fn) : (setFn s f v).retired = s.retired := rfl
@[simp] theorem setFn_time (s : State) (f : Nat) (v : Fn) : (setFn s f v).time = s.time := rfl
@[simp] theorem setFn_almanac (s : State) (f : Nat) (v : Fn) : (setFn s f v).almanac = s.almanac := rfl
@[simp] theorem setFn_sched (s : State) (f : Nat) (v : Fn) : (setFn s f v).sched = s.sched := rfl
@[simp] theorem setFn_ctxs (s : State) (f : Nat) (v : Fn) : (setFn s f v).ctxs = s.ctxs := rfl
@[simp] theorem setFn_hbm (s : State) (f : Nat) (v : Fn) : (setFn s f v).hbm = s.hbm := rfl
@[simp] theorem setFn_flash (s : State) (f : Nat) (v : Fn) : (setFn s f v).flash = s.flash := rfl
@[simp] theorem setFn_fw (s : State) (f : Nat) (v : Fn) : (setFn s f v).fw = s.fw := rfl
@[simp] theorem setFn_lrs (s : State) (f : Nat) (v : Fn) : (setFn s f v).lrs = s.lrs := rfl
@[simp] theorem setFn_sec (s : State) (f : Nat) (v : Fn) : (setFn s f v).sec = s.sec := rfl
@[simp] theorem setFn_dbg (s : State) (f : Nat) (v : Fn) : (setFn s f v).dbg = s.dbg := rfl
@[simp] theorem setFn_heldWrites (s : State) (f : Nat) (v : Fn) : (setFn s f v).heldWrites = s.heldWrites := rfl
@[simp] theorem setFn_span (s : State) (f : Nat) (v : Fn) : (setFn s f v).span = s.span := rfl
@[simp] theorem setFn_power (s : State) (f : Nat) (v : Fn) : (setFn s f v).power = s.power := rfl
@[simp] theorem setFn_boot (s : State) (f : Nat) (v : Fn) : (setFn s f v).boot = s.boot := rfl

/-! ### setRing -/

@[simp] theorem setRing_pending (s : State) (f r : Nat) (v : Ring) : (setRing s f r v).pending = s.pending := rfl
@[simp] theorem setRing_supply (s : State) (f r : Nat) (v : Ring) : (setRing s f r v).supply = s.supply := rfl
@[simp] theorem setRing_drawn (s : State) (f r : Nat) (v : Ring) : (setRing s f r v).drawn = s.drawn := rfl
@[simp] theorem setRing_env (s : State) (f r : Nat) (v : Ring) : (setRing s f r v).env = s.env := rfl
@[simp] theorem setRing_fuses (s : State) (f r : Nat) (v : Ring) : (setRing s f r v).fuses = s.fuses := rfl
@[simp] theorem setRing_pins (s : State) (f r : Nat) (v : Ring) : (setRing s f r v).pins = s.pins := rfl
@[simp] theorem setRing_busRead (s : State) (f r : Nat) (v : Ring) : (setRing s f r v).busRead = s.busRead := rfl
@[simp] theorem setRing_hostMem (s : State) (f r : Nat) (v : Ring) : (setRing s f r v).hostMem = s.hostMem := rfl
@[simp] theorem setRing_localMem (s : State) (f r : Nat) (v : Ring) : (setRing s f r v).localMem = s.localMem := rfl
@[simp] theorem setRing_sramMem (s : State) (f r : Nat) (v : Ring) : (setRing s f r v).sramMem = s.sramMem := rfl
@[simp] theorem setRing_hbmMem (s : State) (f r : Nat) (v : Ring) : (setRing s f r v).hbmMem = s.hbmMem := rfl
@[simp] theorem setRing_libMem (s : State) (f r : Nat) (v : Ring) : (setRing s f r v).libMem = s.libMem := rfl
@[simp] theorem setRing_frostMem (s : State) (f r : Nat) (v : Ring) : (setRing s f r v).frostMem = s.frostMem := rfl
@[simp] theorem setRing_stewardMem (s : State) (f r : Nat) (v : Ring) : (setRing s f r v).stewardMem = s.stewardMem := rfl
@[simp] theorem setRing_runs (s : State) (f r : Nat) (v : Ring) : (setRing s f r v).runs = s.runs := rfl
@[simp] theorem setRing_store0 (s : State) (f r : Nat) (v : Ring) : (setRing s f r v).store0 = s.store0 := rfl
@[simp] theorem setRing_store1 (s : State) (f r : Nat) (v : Ring) : (setRing s f r v).store1 = s.store1 := rfl
@[simp] theorem setRing_syncs (s : State) (f r : Nat) (v : Ring) : (setRing s f r v).syncs = s.syncs := rfl
@[simp] theorem setRing_codecSlots (s : State) (f r : Nat) (v : Ring) : (setRing s f r v).codecSlots = s.codecSlots := rfl
@[simp] theorem setRing_serials (s : State) (f r : Nat) (v : Ring) : (setRing s f r v).serials = s.serials := rfl
@[simp] theorem setRing_streams (s : State) (f r : Nat) (v : Ring) : (setRing s f r v).streams = s.streams := rfl
@[simp] theorem setRing_docket (s : State) (f r : Nat) (v : Ring) : (setRing s f r v).docket = s.docket := rfl
@[simp] theorem setRing_tiles (s : State) (f r : Nat) (v : Ring) : (setRing s f r v).tiles = s.tiles := rfl
@[simp] theorem setRing_retired (s : State) (f r : Nat) (v : Ring) : (setRing s f r v).retired = s.retired := rfl
@[simp] theorem setRing_time (s : State) (f r : Nat) (v : Ring) : (setRing s f r v).time = s.time := rfl
@[simp] theorem setRing_almanac (s : State) (f r : Nat) (v : Ring) : (setRing s f r v).almanac = s.almanac := rfl
@[simp] theorem setRing_sched (s : State) (f r : Nat) (v : Ring) : (setRing s f r v).sched = s.sched := rfl
@[simp] theorem setRing_ctxs (s : State) (f r : Nat) (v : Ring) : (setRing s f r v).ctxs = s.ctxs := rfl
@[simp] theorem setRing_hbm (s : State) (f r : Nat) (v : Ring) : (setRing s f r v).hbm = s.hbm := rfl
@[simp] theorem setRing_flash (s : State) (f r : Nat) (v : Ring) : (setRing s f r v).flash = s.flash := rfl
@[simp] theorem setRing_fw (s : State) (f r : Nat) (v : Ring) : (setRing s f r v).fw = s.fw := rfl
@[simp] theorem setRing_lrs (s : State) (f r : Nat) (v : Ring) : (setRing s f r v).lrs = s.lrs := rfl
@[simp] theorem setRing_sec (s : State) (f r : Nat) (v : Ring) : (setRing s f r v).sec = s.sec := rfl
@[simp] theorem setRing_dbg (s : State) (f r : Nat) (v : Ring) : (setRing s f r v).dbg = s.dbg := rfl
@[simp] theorem setRing_heldWrites (s : State) (f r : Nat) (v : Ring) : (setRing s f r v).heldWrites = s.heldWrites := rfl
@[simp] theorem setRing_span (s : State) (f r : Nat) (v : Ring) : (setRing s f r v).span = s.span := rfl
@[simp] theorem setRing_power (s : State) (f r : Nat) (v : Ring) : (setRing s f r v).power = s.power := rfl
@[simp] theorem setRing_boot (s : State) (f r : Nat) (v : Ring) : (setRing s f r v).boot = s.boot := rfl

/-! ### setCtx -/

@[simp] theorem setCtx_pending (s : State) (c : Nat) (v : Ctx) : (setCtx s c v).pending = s.pending := rfl
@[simp] theorem setCtx_supply (s : State) (c : Nat) (v : Ctx) : (setCtx s c v).supply = s.supply := rfl
@[simp] theorem setCtx_drawn (s : State) (c : Nat) (v : Ctx) : (setCtx s c v).drawn = s.drawn := rfl
@[simp] theorem setCtx_env (s : State) (c : Nat) (v : Ctx) : (setCtx s c v).env = s.env := rfl
@[simp] theorem setCtx_fuses (s : State) (c : Nat) (v : Ctx) : (setCtx s c v).fuses = s.fuses := rfl
@[simp] theorem setCtx_pins (s : State) (c : Nat) (v : Ctx) : (setCtx s c v).pins = s.pins := rfl
@[simp] theorem setCtx_busRead (s : State) (c : Nat) (v : Ctx) : (setCtx s c v).busRead = s.busRead := rfl
@[simp] theorem setCtx_hostMem (s : State) (c : Nat) (v : Ctx) : (setCtx s c v).hostMem = s.hostMem := rfl
@[simp] theorem setCtx_localMem (s : State) (c : Nat) (v : Ctx) : (setCtx s c v).localMem = s.localMem := rfl
@[simp] theorem setCtx_sramMem (s : State) (c : Nat) (v : Ctx) : (setCtx s c v).sramMem = s.sramMem := rfl
@[simp] theorem setCtx_hbmMem (s : State) (c : Nat) (v : Ctx) : (setCtx s c v).hbmMem = s.hbmMem := rfl
@[simp] theorem setCtx_libMem (s : State) (c : Nat) (v : Ctx) : (setCtx s c v).libMem = s.libMem := rfl
@[simp] theorem setCtx_frostMem (s : State) (c : Nat) (v : Ctx) : (setCtx s c v).frostMem = s.frostMem := rfl
@[simp] theorem setCtx_stewardMem (s : State) (c : Nat) (v : Ctx) : (setCtx s c v).stewardMem = s.stewardMem := rfl
@[simp] theorem setCtx_runs (s : State) (c : Nat) (v : Ctx) : (setCtx s c v).runs = s.runs := rfl
@[simp] theorem setCtx_store0 (s : State) (c : Nat) (v : Ctx) : (setCtx s c v).store0 = s.store0 := rfl
@[simp] theorem setCtx_store1 (s : State) (c : Nat) (v : Ctx) : (setCtx s c v).store1 = s.store1 := rfl
@[simp] theorem setCtx_syncs (s : State) (c : Nat) (v : Ctx) : (setCtx s c v).syncs = s.syncs := rfl
@[simp] theorem setCtx_codecSlots (s : State) (c : Nat) (v : Ctx) : (setCtx s c v).codecSlots = s.codecSlots := rfl
@[simp] theorem setCtx_serials (s : State) (c : Nat) (v : Ctx) : (setCtx s c v).serials = s.serials := rfl
@[simp] theorem setCtx_streams (s : State) (c : Nat) (v : Ctx) : (setCtx s c v).streams = s.streams := rfl
@[simp] theorem setCtx_docket (s : State) (c : Nat) (v : Ctx) : (setCtx s c v).docket = s.docket := rfl
@[simp] theorem setCtx_tiles (s : State) (c : Nat) (v : Ctx) : (setCtx s c v).tiles = s.tiles := rfl
@[simp] theorem setCtx_retired (s : State) (c : Nat) (v : Ctx) : (setCtx s c v).retired = s.retired := rfl
@[simp] theorem setCtx_time (s : State) (c : Nat) (v : Ctx) : (setCtx s c v).time = s.time := rfl
@[simp] theorem setCtx_almanac (s : State) (c : Nat) (v : Ctx) : (setCtx s c v).almanac = s.almanac := rfl
@[simp] theorem setCtx_sched (s : State) (c : Nat) (v : Ctx) : (setCtx s c v).sched = s.sched := rfl
@[simp] theorem setCtx_fns (s : State) (c : Nat) (v : Ctx) : (setCtx s c v).fns = s.fns := rfl
@[simp] theorem setCtx_hbm (s : State) (c : Nat) (v : Ctx) : (setCtx s c v).hbm = s.hbm := rfl
@[simp] theorem setCtx_flash (s : State) (c : Nat) (v : Ctx) : (setCtx s c v).flash = s.flash := rfl
@[simp] theorem setCtx_fw (s : State) (c : Nat) (v : Ctx) : (setCtx s c v).fw = s.fw := rfl
@[simp] theorem setCtx_lrs (s : State) (c : Nat) (v : Ctx) : (setCtx s c v).lrs = s.lrs := rfl
@[simp] theorem setCtx_sec (s : State) (c : Nat) (v : Ctx) : (setCtx s c v).sec = s.sec := rfl
@[simp] theorem setCtx_dbg (s : State) (c : Nat) (v : Ctx) : (setCtx s c v).dbg = s.dbg := rfl
@[simp] theorem setCtx_heldWrites (s : State) (c : Nat) (v : Ctx) : (setCtx s c v).heldWrites = s.heldWrites := rfl
@[simp] theorem setCtx_span (s : State) (c : Nat) (v : Ctx) : (setCtx s c v).span = s.span := rfl
@[simp] theorem setCtx_power (s : State) (c : Nat) (v : Ctx) : (setCtx s c v).power = s.power := rfl
@[simp] theorem setCtx_boot (s : State) (c : Nat) (v : Ctx) : (setCtx s c v).boot = s.boot := rfl

/-! ### setTile -/

@[simp] theorem setTile_pending (s : State) (t : Nat) (v : Tile) : (setTile s t v).pending = s.pending := rfl
@[simp] theorem setTile_supply (s : State) (t : Nat) (v : Tile) : (setTile s t v).supply = s.supply := rfl
@[simp] theorem setTile_drawn (s : State) (t : Nat) (v : Tile) : (setTile s t v).drawn = s.drawn := rfl
@[simp] theorem setTile_env (s : State) (t : Nat) (v : Tile) : (setTile s t v).env = s.env := rfl
@[simp] theorem setTile_fuses (s : State) (t : Nat) (v : Tile) : (setTile s t v).fuses = s.fuses := rfl
@[simp] theorem setTile_pins (s : State) (t : Nat) (v : Tile) : (setTile s t v).pins = s.pins := rfl
@[simp] theorem setTile_busRead (s : State) (t : Nat) (v : Tile) : (setTile s t v).busRead = s.busRead := rfl
@[simp] theorem setTile_hostMem (s : State) (t : Nat) (v : Tile) : (setTile s t v).hostMem = s.hostMem := rfl
@[simp] theorem setTile_localMem (s : State) (t : Nat) (v : Tile) : (setTile s t v).localMem = s.localMem := rfl
@[simp] theorem setTile_sramMem (s : State) (t : Nat) (v : Tile) : (setTile s t v).sramMem = s.sramMem := rfl
@[simp] theorem setTile_hbmMem (s : State) (t : Nat) (v : Tile) : (setTile s t v).hbmMem = s.hbmMem := rfl
@[simp] theorem setTile_libMem (s : State) (t : Nat) (v : Tile) : (setTile s t v).libMem = s.libMem := rfl
@[simp] theorem setTile_frostMem (s : State) (t : Nat) (v : Tile) : (setTile s t v).frostMem = s.frostMem := rfl
@[simp] theorem setTile_stewardMem (s : State) (t : Nat) (v : Tile) : (setTile s t v).stewardMem = s.stewardMem := rfl
@[simp] theorem setTile_runs (s : State) (t : Nat) (v : Tile) : (setTile s t v).runs = s.runs := rfl
@[simp] theorem setTile_store0 (s : State) (t : Nat) (v : Tile) : (setTile s t v).store0 = s.store0 := rfl
@[simp] theorem setTile_store1 (s : State) (t : Nat) (v : Tile) : (setTile s t v).store1 = s.store1 := rfl
@[simp] theorem setTile_syncs (s : State) (t : Nat) (v : Tile) : (setTile s t v).syncs = s.syncs := rfl
@[simp] theorem setTile_codecSlots (s : State) (t : Nat) (v : Tile) : (setTile s t v).codecSlots = s.codecSlots := rfl
@[simp] theorem setTile_serials (s : State) (t : Nat) (v : Tile) : (setTile s t v).serials = s.serials := rfl
@[simp] theorem setTile_streams (s : State) (t : Nat) (v : Tile) : (setTile s t v).streams = s.streams := rfl
@[simp] theorem setTile_docket (s : State) (t : Nat) (v : Tile) : (setTile s t v).docket = s.docket := rfl
@[simp] theorem setTile_retired (s : State) (t : Nat) (v : Tile) : (setTile s t v).retired = s.retired := rfl
@[simp] theorem setTile_time (s : State) (t : Nat) (v : Tile) : (setTile s t v).time = s.time := rfl
@[simp] theorem setTile_almanac (s : State) (t : Nat) (v : Tile) : (setTile s t v).almanac = s.almanac := rfl
@[simp] theorem setTile_sched (s : State) (t : Nat) (v : Tile) : (setTile s t v).sched = s.sched := rfl
@[simp] theorem setTile_fns (s : State) (t : Nat) (v : Tile) : (setTile s t v).fns = s.fns := rfl
@[simp] theorem setTile_ctxs (s : State) (t : Nat) (v : Tile) : (setTile s t v).ctxs = s.ctxs := rfl
@[simp] theorem setTile_hbm (s : State) (t : Nat) (v : Tile) : (setTile s t v).hbm = s.hbm := rfl
@[simp] theorem setTile_flash (s : State) (t : Nat) (v : Tile) : (setTile s t v).flash = s.flash := rfl
@[simp] theorem setTile_fw (s : State) (t : Nat) (v : Tile) : (setTile s t v).fw = s.fw := rfl
@[simp] theorem setTile_lrs (s : State) (t : Nat) (v : Tile) : (setTile s t v).lrs = s.lrs := rfl
@[simp] theorem setTile_sec (s : State) (t : Nat) (v : Tile) : (setTile s t v).sec = s.sec := rfl
@[simp] theorem setTile_dbg (s : State) (t : Nat) (v : Tile) : (setTile s t v).dbg = s.dbg := rfl
@[simp] theorem setTile_heldWrites (s : State) (t : Nat) (v : Tile) : (setTile s t v).heldWrites = s.heldWrites := rfl
@[simp] theorem setTile_span (s : State) (t : Nat) (v : Tile) : (setTile s t v).span = s.span := rfl
@[simp] theorem setTile_power (s : State) (t : Nat) (v : Tile) : (setTile s t v).power = s.power := rfl
@[simp] theorem setTile_boot (s : State) (t : Nat) (v : Tile) : (setTile s t v).boot = s.boot := rfl

/-! ### setEntry -/

@[simp] theorem setEntry_pending (s : State) (e : Nat) (v : Entry) : (setEntry s e v).pending = s.pending := rfl
@[simp] theorem setEntry_supply (s : State) (e : Nat) (v : Entry) : (setEntry s e v).supply = s.supply := rfl
@[simp] theorem setEntry_drawn (s : State) (e : Nat) (v : Entry) : (setEntry s e v).drawn = s.drawn := rfl
@[simp] theorem setEntry_env (s : State) (e : Nat) (v : Entry) : (setEntry s e v).env = s.env := rfl
@[simp] theorem setEntry_fuses (s : State) (e : Nat) (v : Entry) : (setEntry s e v).fuses = s.fuses := rfl
@[simp] theorem setEntry_pins (s : State) (e : Nat) (v : Entry) : (setEntry s e v).pins = s.pins := rfl
@[simp] theorem setEntry_busRead (s : State) (e : Nat) (v : Entry) : (setEntry s e v).busRead = s.busRead := rfl
@[simp] theorem setEntry_hostMem (s : State) (e : Nat) (v : Entry) : (setEntry s e v).hostMem = s.hostMem := rfl
@[simp] theorem setEntry_localMem (s : State) (e : Nat) (v : Entry) : (setEntry s e v).localMem = s.localMem := rfl
@[simp] theorem setEntry_sramMem (s : State) (e : Nat) (v : Entry) : (setEntry s e v).sramMem = s.sramMem := rfl
@[simp] theorem setEntry_hbmMem (s : State) (e : Nat) (v : Entry) : (setEntry s e v).hbmMem = s.hbmMem := rfl
@[simp] theorem setEntry_libMem (s : State) (e : Nat) (v : Entry) : (setEntry s e v).libMem = s.libMem := rfl
@[simp] theorem setEntry_frostMem (s : State) (e : Nat) (v : Entry) : (setEntry s e v).frostMem = s.frostMem := rfl
@[simp] theorem setEntry_stewardMem (s : State) (e : Nat) (v : Entry) : (setEntry s e v).stewardMem = s.stewardMem := rfl
@[simp] theorem setEntry_runs (s : State) (e : Nat) (v : Entry) : (setEntry s e v).runs = s.runs := rfl
@[simp] theorem setEntry_store0 (s : State) (e : Nat) (v : Entry) : (setEntry s e v).store0 = s.store0 := rfl
@[simp] theorem setEntry_store1 (s : State) (e : Nat) (v : Entry) : (setEntry s e v).store1 = s.store1 := rfl
@[simp] theorem setEntry_syncs (s : State) (e : Nat) (v : Entry) : (setEntry s e v).syncs = s.syncs := rfl
@[simp] theorem setEntry_codecSlots (s : State) (e : Nat) (v : Entry) : (setEntry s e v).codecSlots = s.codecSlots := rfl
@[simp] theorem setEntry_serials (s : State) (e : Nat) (v : Entry) : (setEntry s e v).serials = s.serials := rfl
@[simp] theorem setEntry_streams (s : State) (e : Nat) (v : Entry) : (setEntry s e v).streams = s.streams := rfl
@[simp] theorem setEntry_tiles (s : State) (e : Nat) (v : Entry) : (setEntry s e v).tiles = s.tiles := rfl
@[simp] theorem setEntry_retired (s : State) (e : Nat) (v : Entry) : (setEntry s e v).retired = s.retired := rfl
@[simp] theorem setEntry_time (s : State) (e : Nat) (v : Entry) : (setEntry s e v).time = s.time := rfl
@[simp] theorem setEntry_almanac (s : State) (e : Nat) (v : Entry) : (setEntry s e v).almanac = s.almanac := rfl
@[simp] theorem setEntry_sched (s : State) (e : Nat) (v : Entry) : (setEntry s e v).sched = s.sched := rfl
@[simp] theorem setEntry_fns (s : State) (e : Nat) (v : Entry) : (setEntry s e v).fns = s.fns := rfl
@[simp] theorem setEntry_ctxs (s : State) (e : Nat) (v : Entry) : (setEntry s e v).ctxs = s.ctxs := rfl
@[simp] theorem setEntry_hbm (s : State) (e : Nat) (v : Entry) : (setEntry s e v).hbm = s.hbm := rfl
@[simp] theorem setEntry_flash (s : State) (e : Nat) (v : Entry) : (setEntry s e v).flash = s.flash := rfl
@[simp] theorem setEntry_fw (s : State) (e : Nat) (v : Entry) : (setEntry s e v).fw = s.fw := rfl
@[simp] theorem setEntry_lrs (s : State) (e : Nat) (v : Entry) : (setEntry s e v).lrs = s.lrs := rfl
@[simp] theorem setEntry_sec (s : State) (e : Nat) (v : Entry) : (setEntry s e v).sec = s.sec := rfl
@[simp] theorem setEntry_dbg (s : State) (e : Nat) (v : Entry) : (setEntry s e v).dbg = s.dbg := rfl
@[simp] theorem setEntry_heldWrites (s : State) (e : Nat) (v : Entry) : (setEntry s e v).heldWrites = s.heldWrites := rfl
@[simp] theorem setEntry_span (s : State) (e : Nat) (v : Entry) : (setEntry s e v).span = s.span := rfl
@[simp] theorem setEntry_power (s : State) (e : Nat) (v : Entry) : (setEntry s e v).power = s.power := rfl
@[simp] theorem setEntry_boot (s : State) (e : Nat) (v : Entry) : (setEntry s e v).boot = s.boot := rfl

/-! ### delEntry -/

@[simp] theorem delEntry_pending (s : State) (e : Nat) : (delEntry s e).pending = s.pending := rfl
@[simp] theorem delEntry_supply (s : State) (e : Nat) : (delEntry s e).supply = s.supply := rfl
@[simp] theorem delEntry_drawn (s : State) (e : Nat) : (delEntry s e).drawn = s.drawn := rfl
@[simp] theorem delEntry_env (s : State) (e : Nat) : (delEntry s e).env = s.env := rfl
@[simp] theorem delEntry_fuses (s : State) (e : Nat) : (delEntry s e).fuses = s.fuses := rfl
@[simp] theorem delEntry_pins (s : State) (e : Nat) : (delEntry s e).pins = s.pins := rfl
@[simp] theorem delEntry_busRead (s : State) (e : Nat) : (delEntry s e).busRead = s.busRead := rfl
@[simp] theorem delEntry_hostMem (s : State) (e : Nat) : (delEntry s e).hostMem = s.hostMem := rfl
@[simp] theorem delEntry_localMem (s : State) (e : Nat) : (delEntry s e).localMem = s.localMem := rfl
@[simp] theorem delEntry_sramMem (s : State) (e : Nat) : (delEntry s e).sramMem = s.sramMem := rfl
@[simp] theorem delEntry_hbmMem (s : State) (e : Nat) : (delEntry s e).hbmMem = s.hbmMem := rfl
@[simp] theorem delEntry_libMem (s : State) (e : Nat) : (delEntry s e).libMem = s.libMem := rfl
@[simp] theorem delEntry_frostMem (s : State) (e : Nat) : (delEntry s e).frostMem = s.frostMem := rfl
@[simp] theorem delEntry_stewardMem (s : State) (e : Nat) : (delEntry s e).stewardMem = s.stewardMem := rfl
@[simp] theorem delEntry_runs (s : State) (e : Nat) : (delEntry s e).runs = s.runs := rfl
@[simp] theorem delEntry_store0 (s : State) (e : Nat) : (delEntry s e).store0 = s.store0 := rfl
@[simp] theorem delEntry_store1 (s : State) (e : Nat) : (delEntry s e).store1 = s.store1 := rfl
@[simp] theorem delEntry_syncs (s : State) (e : Nat) : (delEntry s e).syncs = s.syncs := rfl
@[simp] theorem delEntry_codecSlots (s : State) (e : Nat) : (delEntry s e).codecSlots = s.codecSlots := rfl
@[simp] theorem delEntry_serials (s : State) (e : Nat) : (delEntry s e).serials = s.serials := rfl
@[simp] theorem delEntry_streams (s : State) (e : Nat) : (delEntry s e).streams = s.streams := rfl
@[simp] theorem delEntry_tiles (s : State) (e : Nat) : (delEntry s e).tiles = s.tiles := rfl
@[simp] theorem delEntry_retired (s : State) (e : Nat) : (delEntry s e).retired = s.retired := rfl
@[simp] theorem delEntry_time (s : State) (e : Nat) : (delEntry s e).time = s.time := rfl
@[simp] theorem delEntry_almanac (s : State) (e : Nat) : (delEntry s e).almanac = s.almanac := rfl
@[simp] theorem delEntry_sched (s : State) (e : Nat) : (delEntry s e).sched = s.sched := rfl
@[simp] theorem delEntry_fns (s : State) (e : Nat) : (delEntry s e).fns = s.fns := rfl
@[simp] theorem delEntry_ctxs (s : State) (e : Nat) : (delEntry s e).ctxs = s.ctxs := rfl
@[simp] theorem delEntry_hbm (s : State) (e : Nat) : (delEntry s e).hbm = s.hbm := rfl
@[simp] theorem delEntry_flash (s : State) (e : Nat) : (delEntry s e).flash = s.flash := rfl
@[simp] theorem delEntry_fw (s : State) (e : Nat) : (delEntry s e).fw = s.fw := rfl
@[simp] theorem delEntry_lrs (s : State) (e : Nat) : (delEntry s e).lrs = s.lrs := rfl
@[simp] theorem delEntry_sec (s : State) (e : Nat) : (delEntry s e).sec = s.sec := rfl
@[simp] theorem delEntry_dbg (s : State) (e : Nat) : (delEntry s e).dbg = s.dbg := rfl
@[simp] theorem delEntry_heldWrites (s : State) (e : Nat) : (delEntry s e).heldWrites = s.heldWrites := rfl
@[simp] theorem delEntry_span (s : State) (e : Nat) : (delEntry s e).span = s.span := rfl
@[simp] theorem delEntry_power (s : State) (e : Nat) : (delEntry s e).power = s.power := rfl
@[simp] theorem delEntry_boot (s : State) (e : Nat) : (delEntry s e).boot = s.boot := rfl

/-! ### setStream -/

@[simp] theorem setStream_pending (s : State) (i : Nat) (v : Stream) : (setStream s i v).pending = s.pending := rfl
@[simp] theorem setStream_supply (s : State) (i : Nat) (v : Stream) : (setStream s i v).supply = s.supply := rfl
@[simp] theorem setStream_drawn (s : State) (i : Nat) (v : Stream) : (setStream s i v).drawn = s.drawn := rfl
@[simp] theorem setStream_env (s : State) (i : Nat) (v : Stream) : (setStream s i v).env = s.env := rfl
@[simp] theorem setStream_fuses (s : State) (i : Nat) (v : Stream) : (setStream s i v).fuses = s.fuses := rfl
@[simp] theorem setStream_pins (s : State) (i : Nat) (v : Stream) : (setStream s i v).pins = s.pins := rfl
@[simp] theorem setStream_busRead (s : State) (i : Nat) (v : Stream) : (setStream s i v).busRead = s.busRead := rfl
@[simp] theorem setStream_hostMem (s : State) (i : Nat) (v : Stream) : (setStream s i v).hostMem = s.hostMem := rfl
@[simp] theorem setStream_localMem (s : State) (i : Nat) (v : Stream) : (setStream s i v).localMem = s.localMem := rfl
@[simp] theorem setStream_sramMem (s : State) (i : Nat) (v : Stream) : (setStream s i v).sramMem = s.sramMem := rfl
@[simp] theorem setStream_hbmMem (s : State) (i : Nat) (v : Stream) : (setStream s i v).hbmMem = s.hbmMem := rfl
@[simp] theorem setStream_libMem (s : State) (i : Nat) (v : Stream) : (setStream s i v).libMem = s.libMem := rfl
@[simp] theorem setStream_frostMem (s : State) (i : Nat) (v : Stream) : (setStream s i v).frostMem = s.frostMem := rfl
@[simp] theorem setStream_stewardMem (s : State) (i : Nat) (v : Stream) : (setStream s i v).stewardMem = s.stewardMem := rfl
@[simp] theorem setStream_runs (s : State) (i : Nat) (v : Stream) : (setStream s i v).runs = s.runs := rfl
@[simp] theorem setStream_store0 (s : State) (i : Nat) (v : Stream) : (setStream s i v).store0 = s.store0 := rfl
@[simp] theorem setStream_store1 (s : State) (i : Nat) (v : Stream) : (setStream s i v).store1 = s.store1 := rfl
@[simp] theorem setStream_syncs (s : State) (i : Nat) (v : Stream) : (setStream s i v).syncs = s.syncs := rfl
@[simp] theorem setStream_codecSlots (s : State) (i : Nat) (v : Stream) : (setStream s i v).codecSlots = s.codecSlots := rfl
@[simp] theorem setStream_serials (s : State) (i : Nat) (v : Stream) : (setStream s i v).serials = s.serials := rfl
@[simp] theorem setStream_docket (s : State) (i : Nat) (v : Stream) : (setStream s i v).docket = s.docket := rfl
@[simp] theorem setStream_tiles (s : State) (i : Nat) (v : Stream) : (setStream s i v).tiles = s.tiles := rfl
@[simp] theorem setStream_retired (s : State) (i : Nat) (v : Stream) : (setStream s i v).retired = s.retired := rfl
@[simp] theorem setStream_time (s : State) (i : Nat) (v : Stream) : (setStream s i v).time = s.time := rfl
@[simp] theorem setStream_almanac (s : State) (i : Nat) (v : Stream) : (setStream s i v).almanac = s.almanac := rfl
@[simp] theorem setStream_sched (s : State) (i : Nat) (v : Stream) : (setStream s i v).sched = s.sched := rfl
@[simp] theorem setStream_fns (s : State) (i : Nat) (v : Stream) : (setStream s i v).fns = s.fns := rfl
@[simp] theorem setStream_ctxs (s : State) (i : Nat) (v : Stream) : (setStream s i v).ctxs = s.ctxs := rfl
@[simp] theorem setStream_hbm (s : State) (i : Nat) (v : Stream) : (setStream s i v).hbm = s.hbm := rfl
@[simp] theorem setStream_flash (s : State) (i : Nat) (v : Stream) : (setStream s i v).flash = s.flash := rfl
@[simp] theorem setStream_fw (s : State) (i : Nat) (v : Stream) : (setStream s i v).fw = s.fw := rfl
@[simp] theorem setStream_lrs (s : State) (i : Nat) (v : Stream) : (setStream s i v).lrs = s.lrs := rfl
@[simp] theorem setStream_sec (s : State) (i : Nat) (v : Stream) : (setStream s i v).sec = s.sec := rfl
@[simp] theorem setStream_dbg (s : State) (i : Nat) (v : Stream) : (setStream s i v).dbg = s.dbg := rfl
@[simp] theorem setStream_heldWrites (s : State) (i : Nat) (v : Stream) : (setStream s i v).heldWrites = s.heldWrites := rfl
@[simp] theorem setStream_span (s : State) (i : Nat) (v : Stream) : (setStream s i v).span = s.span := rfl
@[simp] theorem setStream_power (s : State) (i : Nat) (v : Stream) : (setStream s i v).power = s.power := rfl
@[simp] theorem setStream_boot (s : State) (i : Nat) (v : Stream) : (setStream s i v).boot = s.boot := rfl

/-! ### setPc -/

@[simp] theorem setPc_pending (s : State) (p : Nat) (v : Pc) : (setPc s p v).pending = s.pending := rfl
@[simp] theorem setPc_supply (s : State) (p : Nat) (v : Pc) : (setPc s p v).supply = s.supply := rfl
@[simp] theorem setPc_drawn (s : State) (p : Nat) (v : Pc) : (setPc s p v).drawn = s.drawn := rfl
@[simp] theorem setPc_env (s : State) (p : Nat) (v : Pc) : (setPc s p v).env = s.env := rfl
@[simp] theorem setPc_fuses (s : State) (p : Nat) (v : Pc) : (setPc s p v).fuses = s.fuses := rfl
@[simp] theorem setPc_pins (s : State) (p : Nat) (v : Pc) : (setPc s p v).pins = s.pins := rfl
@[simp] theorem setPc_busRead (s : State) (p : Nat) (v : Pc) : (setPc s p v).busRead = s.busRead := rfl
@[simp] theorem setPc_hostMem (s : State) (p : Nat) (v : Pc) : (setPc s p v).hostMem = s.hostMem := rfl
@[simp] theorem setPc_localMem (s : State) (p : Nat) (v : Pc) : (setPc s p v).localMem = s.localMem := rfl
@[simp] theorem setPc_sramMem (s : State) (p : Nat) (v : Pc) : (setPc s p v).sramMem = s.sramMem := rfl
@[simp] theorem setPc_hbmMem (s : State) (p : Nat) (v : Pc) : (setPc s p v).hbmMem = s.hbmMem := rfl
@[simp] theorem setPc_libMem (s : State) (p : Nat) (v : Pc) : (setPc s p v).libMem = s.libMem := rfl
@[simp] theorem setPc_frostMem (s : State) (p : Nat) (v : Pc) : (setPc s p v).frostMem = s.frostMem := rfl
@[simp] theorem setPc_stewardMem (s : State) (p : Nat) (v : Pc) : (setPc s p v).stewardMem = s.stewardMem := rfl
@[simp] theorem setPc_runs (s : State) (p : Nat) (v : Pc) : (setPc s p v).runs = s.runs := rfl
@[simp] theorem setPc_store0 (s : State) (p : Nat) (v : Pc) : (setPc s p v).store0 = s.store0 := rfl
@[simp] theorem setPc_store1 (s : State) (p : Nat) (v : Pc) : (setPc s p v).store1 = s.store1 := rfl
@[simp] theorem setPc_syncs (s : State) (p : Nat) (v : Pc) : (setPc s p v).syncs = s.syncs := rfl
@[simp] theorem setPc_codecSlots (s : State) (p : Nat) (v : Pc) : (setPc s p v).codecSlots = s.codecSlots := rfl
@[simp] theorem setPc_serials (s : State) (p : Nat) (v : Pc) : (setPc s p v).serials = s.serials := rfl
@[simp] theorem setPc_streams (s : State) (p : Nat) (v : Pc) : (setPc s p v).streams = s.streams := rfl
@[simp] theorem setPc_docket (s : State) (p : Nat) (v : Pc) : (setPc s p v).docket = s.docket := rfl
@[simp] theorem setPc_tiles (s : State) (p : Nat) (v : Pc) : (setPc s p v).tiles = s.tiles := rfl
@[simp] theorem setPc_retired (s : State) (p : Nat) (v : Pc) : (setPc s p v).retired = s.retired := rfl
@[simp] theorem setPc_time (s : State) (p : Nat) (v : Pc) : (setPc s p v).time = s.time := rfl
@[simp] theorem setPc_almanac (s : State) (p : Nat) (v : Pc) : (setPc s p v).almanac = s.almanac := rfl
@[simp] theorem setPc_sched (s : State) (p : Nat) (v : Pc) : (setPc s p v).sched = s.sched := rfl
@[simp] theorem setPc_fns (s : State) (p : Nat) (v : Pc) : (setPc s p v).fns = s.fns := rfl
@[simp] theorem setPc_ctxs (s : State) (p : Nat) (v : Pc) : (setPc s p v).ctxs = s.ctxs := rfl
@[simp] theorem setPc_flash (s : State) (p : Nat) (v : Pc) : (setPc s p v).flash = s.flash := rfl
@[simp] theorem setPc_fw (s : State) (p : Nat) (v : Pc) : (setPc s p v).fw = s.fw := rfl
@[simp] theorem setPc_lrs (s : State) (p : Nat) (v : Pc) : (setPc s p v).lrs = s.lrs := rfl
@[simp] theorem setPc_sec (s : State) (p : Nat) (v : Pc) : (setPc s p v).sec = s.sec := rfl
@[simp] theorem setPc_dbg (s : State) (p : Nat) (v : Pc) : (setPc s p v).dbg = s.dbg := rfl
@[simp] theorem setPc_heldWrites (s : State) (p : Nat) (v : Pc) : (setPc s p v).heldWrites = s.heldWrites := rfl
@[simp] theorem setPc_span (s : State) (p : Nat) (v : Pc) : (setPc s p v).span = s.span := rfl
@[simp] theorem setPc_power (s : State) (p : Nat) (v : Pc) : (setPc s p v).power = s.power := rfl
@[simp] theorem setPc_boot (s : State) (p : Nat) (v : Pc) : (setPc s p v).boot = s.boot := rfl

/-! ### setChan -/

@[simp] theorem setChan_pending (s : State) (c : Nat) (v : Chan) : (setChan s c v).pending = s.pending := rfl
@[simp] theorem setChan_supply (s : State) (c : Nat) (v : Chan) : (setChan s c v).supply = s.supply := rfl
@[simp] theorem setChan_drawn (s : State) (c : Nat) (v : Chan) : (setChan s c v).drawn = s.drawn := rfl
@[simp] theorem setChan_env (s : State) (c : Nat) (v : Chan) : (setChan s c v).env = s.env := rfl
@[simp] theorem setChan_fuses (s : State) (c : Nat) (v : Chan) : (setChan s c v).fuses = s.fuses := rfl
@[simp] theorem setChan_pins (s : State) (c : Nat) (v : Chan) : (setChan s c v).pins = s.pins := rfl
@[simp] theorem setChan_busRead (s : State) (c : Nat) (v : Chan) : (setChan s c v).busRead = s.busRead := rfl
@[simp] theorem setChan_hostMem (s : State) (c : Nat) (v : Chan) : (setChan s c v).hostMem = s.hostMem := rfl
@[simp] theorem setChan_localMem (s : State) (c : Nat) (v : Chan) : (setChan s c v).localMem = s.localMem := rfl
@[simp] theorem setChan_sramMem (s : State) (c : Nat) (v : Chan) : (setChan s c v).sramMem = s.sramMem := rfl
@[simp] theorem setChan_hbmMem (s : State) (c : Nat) (v : Chan) : (setChan s c v).hbmMem = s.hbmMem := rfl
@[simp] theorem setChan_libMem (s : State) (c : Nat) (v : Chan) : (setChan s c v).libMem = s.libMem := rfl
@[simp] theorem setChan_frostMem (s : State) (c : Nat) (v : Chan) : (setChan s c v).frostMem = s.frostMem := rfl
@[simp] theorem setChan_stewardMem (s : State) (c : Nat) (v : Chan) : (setChan s c v).stewardMem = s.stewardMem := rfl
@[simp] theorem setChan_runs (s : State) (c : Nat) (v : Chan) : (setChan s c v).runs = s.runs := rfl
@[simp] theorem setChan_store0 (s : State) (c : Nat) (v : Chan) : (setChan s c v).store0 = s.store0 := rfl
@[simp] theorem setChan_store1 (s : State) (c : Nat) (v : Chan) : (setChan s c v).store1 = s.store1 := rfl
@[simp] theorem setChan_syncs (s : State) (c : Nat) (v : Chan) : (setChan s c v).syncs = s.syncs := rfl
@[simp] theorem setChan_codecSlots (s : State) (c : Nat) (v : Chan) : (setChan s c v).codecSlots = s.codecSlots := rfl
@[simp] theorem setChan_serials (s : State) (c : Nat) (v : Chan) : (setChan s c v).serials = s.serials := rfl
@[simp] theorem setChan_streams (s : State) (c : Nat) (v : Chan) : (setChan s c v).streams = s.streams := rfl
@[simp] theorem setChan_docket (s : State) (c : Nat) (v : Chan) : (setChan s c v).docket = s.docket := rfl
@[simp] theorem setChan_tiles (s : State) (c : Nat) (v : Chan) : (setChan s c v).tiles = s.tiles := rfl
@[simp] theorem setChan_retired (s : State) (c : Nat) (v : Chan) : (setChan s c v).retired = s.retired := rfl
@[simp] theorem setChan_time (s : State) (c : Nat) (v : Chan) : (setChan s c v).time = s.time := rfl
@[simp] theorem setChan_almanac (s : State) (c : Nat) (v : Chan) : (setChan s c v).almanac = s.almanac := rfl
@[simp] theorem setChan_sched (s : State) (c : Nat) (v : Chan) : (setChan s c v).sched = s.sched := rfl
@[simp] theorem setChan_fns (s : State) (c : Nat) (v : Chan) : (setChan s c v).fns = s.fns := rfl
@[simp] theorem setChan_ctxs (s : State) (c : Nat) (v : Chan) : (setChan s c v).ctxs = s.ctxs := rfl
@[simp] theorem setChan_flash (s : State) (c : Nat) (v : Chan) : (setChan s c v).flash = s.flash := rfl
@[simp] theorem setChan_fw (s : State) (c : Nat) (v : Chan) : (setChan s c v).fw = s.fw := rfl
@[simp] theorem setChan_lrs (s : State) (c : Nat) (v : Chan) : (setChan s c v).lrs = s.lrs := rfl
@[simp] theorem setChan_sec (s : State) (c : Nat) (v : Chan) : (setChan s c v).sec = s.sec := rfl
@[simp] theorem setChan_dbg (s : State) (c : Nat) (v : Chan) : (setChan s c v).dbg = s.dbg := rfl
@[simp] theorem setChan_heldWrites (s : State) (c : Nat) (v : Chan) : (setChan s c v).heldWrites = s.heldWrites := rfl
@[simp] theorem setChan_span (s : State) (c : Nat) (v : Chan) : (setChan s c v).span = s.span := rfl
@[simp] theorem setChan_power (s : State) (c : Nat) (v : Chan) : (setChan s c v).power = s.power := rfl
@[simp] theorem setChan_boot (s : State) (c : Nat) (v : Chan) : (setChan s c v).boot = s.boot := rfl

/-! ### setFlashChan -/

@[simp] theorem setFlashChan_pending (s : State) (c : Nat) (v : FlashChan) : (setFlashChan s c v).pending = s.pending := rfl
@[simp] theorem setFlashChan_supply (s : State) (c : Nat) (v : FlashChan) : (setFlashChan s c v).supply = s.supply := rfl
@[simp] theorem setFlashChan_drawn (s : State) (c : Nat) (v : FlashChan) : (setFlashChan s c v).drawn = s.drawn := rfl
@[simp] theorem setFlashChan_env (s : State) (c : Nat) (v : FlashChan) : (setFlashChan s c v).env = s.env := rfl
@[simp] theorem setFlashChan_fuses (s : State) (c : Nat) (v : FlashChan) : (setFlashChan s c v).fuses = s.fuses := rfl
@[simp] theorem setFlashChan_pins (s : State) (c : Nat) (v : FlashChan) : (setFlashChan s c v).pins = s.pins := rfl
@[simp] theorem setFlashChan_busRead (s : State) (c : Nat) (v : FlashChan) : (setFlashChan s c v).busRead = s.busRead := rfl
@[simp] theorem setFlashChan_hostMem (s : State) (c : Nat) (v : FlashChan) : (setFlashChan s c v).hostMem = s.hostMem := rfl
@[simp] theorem setFlashChan_localMem (s : State) (c : Nat) (v : FlashChan) : (setFlashChan s c v).localMem = s.localMem := rfl
@[simp] theorem setFlashChan_sramMem (s : State) (c : Nat) (v : FlashChan) : (setFlashChan s c v).sramMem = s.sramMem := rfl
@[simp] theorem setFlashChan_hbmMem (s : State) (c : Nat) (v : FlashChan) : (setFlashChan s c v).hbmMem = s.hbmMem := rfl
@[simp] theorem setFlashChan_libMem (s : State) (c : Nat) (v : FlashChan) : (setFlashChan s c v).libMem = s.libMem := rfl
@[simp] theorem setFlashChan_frostMem (s : State) (c : Nat) (v : FlashChan) : (setFlashChan s c v).frostMem = s.frostMem := rfl
@[simp] theorem setFlashChan_stewardMem (s : State) (c : Nat) (v : FlashChan) : (setFlashChan s c v).stewardMem = s.stewardMem := rfl
@[simp] theorem setFlashChan_runs (s : State) (c : Nat) (v : FlashChan) : (setFlashChan s c v).runs = s.runs := rfl
@[simp] theorem setFlashChan_store0 (s : State) (c : Nat) (v : FlashChan) : (setFlashChan s c v).store0 = s.store0 := rfl
@[simp] theorem setFlashChan_store1 (s : State) (c : Nat) (v : FlashChan) : (setFlashChan s c v).store1 = s.store1 := rfl
@[simp] theorem setFlashChan_syncs (s : State) (c : Nat) (v : FlashChan) : (setFlashChan s c v).syncs = s.syncs := rfl
@[simp] theorem setFlashChan_codecSlots (s : State) (c : Nat) (v : FlashChan) : (setFlashChan s c v).codecSlots = s.codecSlots := rfl
@[simp] theorem setFlashChan_serials (s : State) (c : Nat) (v : FlashChan) : (setFlashChan s c v).serials = s.serials := rfl
@[simp] theorem setFlashChan_streams (s : State) (c : Nat) (v : FlashChan) : (setFlashChan s c v).streams = s.streams := rfl
@[simp] theorem setFlashChan_docket (s : State) (c : Nat) (v : FlashChan) : (setFlashChan s c v).docket = s.docket := rfl
@[simp] theorem setFlashChan_tiles (s : State) (c : Nat) (v : FlashChan) : (setFlashChan s c v).tiles = s.tiles := rfl
@[simp] theorem setFlashChan_retired (s : State) (c : Nat) (v : FlashChan) : (setFlashChan s c v).retired = s.retired := rfl
@[simp] theorem setFlashChan_time (s : State) (c : Nat) (v : FlashChan) : (setFlashChan s c v).time = s.time := rfl
@[simp] theorem setFlashChan_almanac (s : State) (c : Nat) (v : FlashChan) : (setFlashChan s c v).almanac = s.almanac := rfl
@[simp] theorem setFlashChan_sched (s : State) (c : Nat) (v : FlashChan) : (setFlashChan s c v).sched = s.sched := rfl
@[simp] theorem setFlashChan_fns (s : State) (c : Nat) (v : FlashChan) : (setFlashChan s c v).fns = s.fns := rfl
@[simp] theorem setFlashChan_ctxs (s : State) (c : Nat) (v : FlashChan) : (setFlashChan s c v).ctxs = s.ctxs := rfl
@[simp] theorem setFlashChan_hbm (s : State) (c : Nat) (v : FlashChan) : (setFlashChan s c v).hbm = s.hbm := rfl
@[simp] theorem setFlashChan_fw (s : State) (c : Nat) (v : FlashChan) : (setFlashChan s c v).fw = s.fw := rfl
@[simp] theorem setFlashChan_lrs (s : State) (c : Nat) (v : FlashChan) : (setFlashChan s c v).lrs = s.lrs := rfl
@[simp] theorem setFlashChan_sec (s : State) (c : Nat) (v : FlashChan) : (setFlashChan s c v).sec = s.sec := rfl
@[simp] theorem setFlashChan_dbg (s : State) (c : Nat) (v : FlashChan) : (setFlashChan s c v).dbg = s.dbg := rfl
@[simp] theorem setFlashChan_heldWrites (s : State) (c : Nat) (v : FlashChan) : (setFlashChan s c v).heldWrites = s.heldWrites := rfl
@[simp] theorem setFlashChan_span (s : State) (c : Nat) (v : FlashChan) : (setFlashChan s c v).span = s.span := rfl
@[simp] theorem setFlashChan_power (s : State) (c : Nat) (v : FlashChan) : (setFlashChan s c v).power = s.power := rfl
@[simp] theorem setFlashChan_boot (s : State) (c : Nat) (v : FlashChan) : (setFlashChan s c v).boot = s.boot := rfl

/-! ### setLibBlock -/

@[simp] theorem setLibBlock_pending (s : State) (g : Nat) (v : LibBlock) : (setLibBlock s g v).pending = s.pending := rfl
@[simp] theorem setLibBlock_supply (s : State) (g : Nat) (v : LibBlock) : (setLibBlock s g v).supply = s.supply := rfl
@[simp] theorem setLibBlock_drawn (s : State) (g : Nat) (v : LibBlock) : (setLibBlock s g v).drawn = s.drawn := rfl
@[simp] theorem setLibBlock_env (s : State) (g : Nat) (v : LibBlock) : (setLibBlock s g v).env = s.env := rfl
@[simp] theorem setLibBlock_fuses (s : State) (g : Nat) (v : LibBlock) : (setLibBlock s g v).fuses = s.fuses := rfl
@[simp] theorem setLibBlock_pins (s : State) (g : Nat) (v : LibBlock) : (setLibBlock s g v).pins = s.pins := rfl
@[simp] theorem setLibBlock_busRead (s : State) (g : Nat) (v : LibBlock) : (setLibBlock s g v).busRead = s.busRead := rfl
@[simp] theorem setLibBlock_hostMem (s : State) (g : Nat) (v : LibBlock) : (setLibBlock s g v).hostMem = s.hostMem := rfl
@[simp] theorem setLibBlock_localMem (s : State) (g : Nat) (v : LibBlock) : (setLibBlock s g v).localMem = s.localMem := rfl
@[simp] theorem setLibBlock_sramMem (s : State) (g : Nat) (v : LibBlock) : (setLibBlock s g v).sramMem = s.sramMem := rfl
@[simp] theorem setLibBlock_hbmMem (s : State) (g : Nat) (v : LibBlock) : (setLibBlock s g v).hbmMem = s.hbmMem := rfl
@[simp] theorem setLibBlock_libMem (s : State) (g : Nat) (v : LibBlock) : (setLibBlock s g v).libMem = s.libMem := rfl
@[simp] theorem setLibBlock_frostMem (s : State) (g : Nat) (v : LibBlock) : (setLibBlock s g v).frostMem = s.frostMem := rfl
@[simp] theorem setLibBlock_stewardMem (s : State) (g : Nat) (v : LibBlock) : (setLibBlock s g v).stewardMem = s.stewardMem := rfl
@[simp] theorem setLibBlock_runs (s : State) (g : Nat) (v : LibBlock) : (setLibBlock s g v).runs = s.runs := rfl
@[simp] theorem setLibBlock_store0 (s : State) (g : Nat) (v : LibBlock) : (setLibBlock s g v).store0 = s.store0 := rfl
@[simp] theorem setLibBlock_store1 (s : State) (g : Nat) (v : LibBlock) : (setLibBlock s g v).store1 = s.store1 := rfl
@[simp] theorem setLibBlock_syncs (s : State) (g : Nat) (v : LibBlock) : (setLibBlock s g v).syncs = s.syncs := rfl
@[simp] theorem setLibBlock_codecSlots (s : State) (g : Nat) (v : LibBlock) : (setLibBlock s g v).codecSlots = s.codecSlots := rfl
@[simp] theorem setLibBlock_serials (s : State) (g : Nat) (v : LibBlock) : (setLibBlock s g v).serials = s.serials := rfl
@[simp] theorem setLibBlock_streams (s : State) (g : Nat) (v : LibBlock) : (setLibBlock s g v).streams = s.streams := rfl
@[simp] theorem setLibBlock_docket (s : State) (g : Nat) (v : LibBlock) : (setLibBlock s g v).docket = s.docket := rfl
@[simp] theorem setLibBlock_tiles (s : State) (g : Nat) (v : LibBlock) : (setLibBlock s g v).tiles = s.tiles := rfl
@[simp] theorem setLibBlock_retired (s : State) (g : Nat) (v : LibBlock) : (setLibBlock s g v).retired = s.retired := rfl
@[simp] theorem setLibBlock_time (s : State) (g : Nat) (v : LibBlock) : (setLibBlock s g v).time = s.time := rfl
@[simp] theorem setLibBlock_almanac (s : State) (g : Nat) (v : LibBlock) : (setLibBlock s g v).almanac = s.almanac := rfl
@[simp] theorem setLibBlock_sched (s : State) (g : Nat) (v : LibBlock) : (setLibBlock s g v).sched = s.sched := rfl
@[simp] theorem setLibBlock_fns (s : State) (g : Nat) (v : LibBlock) : (setLibBlock s g v).fns = s.fns := rfl
@[simp] theorem setLibBlock_ctxs (s : State) (g : Nat) (v : LibBlock) : (setLibBlock s g v).ctxs = s.ctxs := rfl
@[simp] theorem setLibBlock_hbm (s : State) (g : Nat) (v : LibBlock) : (setLibBlock s g v).hbm = s.hbm := rfl
@[simp] theorem setLibBlock_fw (s : State) (g : Nat) (v : LibBlock) : (setLibBlock s g v).fw = s.fw := rfl
@[simp] theorem setLibBlock_lrs (s : State) (g : Nat) (v : LibBlock) : (setLibBlock s g v).lrs = s.lrs := rfl
@[simp] theorem setLibBlock_sec (s : State) (g : Nat) (v : LibBlock) : (setLibBlock s g v).sec = s.sec := rfl
@[simp] theorem setLibBlock_dbg (s : State) (g : Nat) (v : LibBlock) : (setLibBlock s g v).dbg = s.dbg := rfl
@[simp] theorem setLibBlock_heldWrites (s : State) (g : Nat) (v : LibBlock) : (setLibBlock s g v).heldWrites = s.heldWrites := rfl
@[simp] theorem setLibBlock_span (s : State) (g : Nat) (v : LibBlock) : (setLibBlock s g v).span = s.span := rfl
@[simp] theorem setLibBlock_power (s : State) (g : Nat) (v : LibBlock) : (setLibBlock s g v).power = s.power := rfl
@[simp] theorem setLibBlock_boot (s : State) (g : Nat) (v : LibBlock) : (setLibBlock s g v).boot = s.boot := rfl

/-! ### setSync -/

@[simp] theorem setSync_pending (s : State) (g : Nat) (v : Sync) : (setSync s g v).pending = s.pending := rfl
@[simp] theorem setSync_supply (s : State) (g : Nat) (v : Sync) : (setSync s g v).supply = s.supply := rfl
@[simp] theorem setSync_drawn (s : State) (g : Nat) (v : Sync) : (setSync s g v).drawn = s.drawn := rfl
@[simp] theorem setSync_env (s : State) (g : Nat) (v : Sync) : (setSync s g v).env = s.env := rfl
@[simp] theorem setSync_fuses (s : State) (g : Nat) (v : Sync) : (setSync s g v).fuses = s.fuses := rfl
@[simp] theorem setSync_pins (s : State) (g : Nat) (v : Sync) : (setSync s g v).pins = s.pins := rfl
@[simp] theorem setSync_busRead (s : State) (g : Nat) (v : Sync) : (setSync s g v).busRead = s.busRead := rfl
@[simp] theorem setSync_hostMem (s : State) (g : Nat) (v : Sync) : (setSync s g v).hostMem = s.hostMem := rfl
@[simp] theorem setSync_localMem (s : State) (g : Nat) (v : Sync) : (setSync s g v).localMem = s.localMem := rfl
@[simp] theorem setSync_sramMem (s : State) (g : Nat) (v : Sync) : (setSync s g v).sramMem = s.sramMem := rfl
@[simp] theorem setSync_hbmMem (s : State) (g : Nat) (v : Sync) : (setSync s g v).hbmMem = s.hbmMem := rfl
@[simp] theorem setSync_libMem (s : State) (g : Nat) (v : Sync) : (setSync s g v).libMem = s.libMem := rfl
@[simp] theorem setSync_frostMem (s : State) (g : Nat) (v : Sync) : (setSync s g v).frostMem = s.frostMem := rfl
@[simp] theorem setSync_stewardMem (s : State) (g : Nat) (v : Sync) : (setSync s g v).stewardMem = s.stewardMem := rfl
@[simp] theorem setSync_runs (s : State) (g : Nat) (v : Sync) : (setSync s g v).runs = s.runs := rfl
@[simp] theorem setSync_store0 (s : State) (g : Nat) (v : Sync) : (setSync s g v).store0 = s.store0 := rfl
@[simp] theorem setSync_store1 (s : State) (g : Nat) (v : Sync) : (setSync s g v).store1 = s.store1 := rfl
@[simp] theorem setSync_codecSlots (s : State) (g : Nat) (v : Sync) : (setSync s g v).codecSlots = s.codecSlots := rfl
@[simp] theorem setSync_serials (s : State) (g : Nat) (v : Sync) : (setSync s g v).serials = s.serials := rfl
@[simp] theorem setSync_streams (s : State) (g : Nat) (v : Sync) : (setSync s g v).streams = s.streams := rfl
@[simp] theorem setSync_docket (s : State) (g : Nat) (v : Sync) : (setSync s g v).docket = s.docket := rfl
@[simp] theorem setSync_tiles (s : State) (g : Nat) (v : Sync) : (setSync s g v).tiles = s.tiles := rfl
@[simp] theorem setSync_retired (s : State) (g : Nat) (v : Sync) : (setSync s g v).retired = s.retired := rfl
@[simp] theorem setSync_time (s : State) (g : Nat) (v : Sync) : (setSync s g v).time = s.time := rfl
@[simp] theorem setSync_almanac (s : State) (g : Nat) (v : Sync) : (setSync s g v).almanac = s.almanac := rfl
@[simp] theorem setSync_sched (s : State) (g : Nat) (v : Sync) : (setSync s g v).sched = s.sched := rfl
@[simp] theorem setSync_fns (s : State) (g : Nat) (v : Sync) : (setSync s g v).fns = s.fns := rfl
@[simp] theorem setSync_ctxs (s : State) (g : Nat) (v : Sync) : (setSync s g v).ctxs = s.ctxs := rfl
@[simp] theorem setSync_hbm (s : State) (g : Nat) (v : Sync) : (setSync s g v).hbm = s.hbm := rfl
@[simp] theorem setSync_flash (s : State) (g : Nat) (v : Sync) : (setSync s g v).flash = s.flash := rfl
@[simp] theorem setSync_fw (s : State) (g : Nat) (v : Sync) : (setSync s g v).fw = s.fw := rfl
@[simp] theorem setSync_lrs (s : State) (g : Nat) (v : Sync) : (setSync s g v).lrs = s.lrs := rfl
@[simp] theorem setSync_sec (s : State) (g : Nat) (v : Sync) : (setSync s g v).sec = s.sec := rfl
@[simp] theorem setSync_dbg (s : State) (g : Nat) (v : Sync) : (setSync s g v).dbg = s.dbg := rfl
@[simp] theorem setSync_heldWrites (s : State) (g : Nat) (v : Sync) : (setSync s g v).heldWrites = s.heldWrites := rfl
@[simp] theorem setSync_span (s : State) (g : Nat) (v : Sync) : (setSync s g v).span = s.span := rfl
@[simp] theorem setSync_power (s : State) (g : Nat) (v : Sync) : (setSync s g v).power = s.power := rfl
@[simp] theorem setSync_boot (s : State) (g : Nat) (v : Sync) : (setSync s g v).boot = s.boot := rfl

/-! ### setSlot -/

@[simp] theorem setSlot_pending (s : State) (g : Nat) (v : CodecSlot) : (setSlot s g v).pending = s.pending := rfl
@[simp] theorem setSlot_supply (s : State) (g : Nat) (v : CodecSlot) : (setSlot s g v).supply = s.supply := rfl
@[simp] theorem setSlot_drawn (s : State) (g : Nat) (v : CodecSlot) : (setSlot s g v).drawn = s.drawn := rfl
@[simp] theorem setSlot_env (s : State) (g : Nat) (v : CodecSlot) : (setSlot s g v).env = s.env := rfl
@[simp] theorem setSlot_fuses (s : State) (g : Nat) (v : CodecSlot) : (setSlot s g v).fuses = s.fuses := rfl
@[simp] theorem setSlot_pins (s : State) (g : Nat) (v : CodecSlot) : (setSlot s g v).pins = s.pins := rfl
@[simp] theorem setSlot_busRead (s : State) (g : Nat) (v : CodecSlot) : (setSlot s g v).busRead = s.busRead := rfl
@[simp] theorem setSlot_hostMem (s : State) (g : Nat) (v : CodecSlot) : (setSlot s g v).hostMem = s.hostMem := rfl
@[simp] theorem setSlot_localMem (s : State) (g : Nat) (v : CodecSlot) : (setSlot s g v).localMem = s.localMem := rfl
@[simp] theorem setSlot_sramMem (s : State) (g : Nat) (v : CodecSlot) : (setSlot s g v).sramMem = s.sramMem := rfl
@[simp] theorem setSlot_hbmMem (s : State) (g : Nat) (v : CodecSlot) : (setSlot s g v).hbmMem = s.hbmMem := rfl
@[simp] theorem setSlot_libMem (s : State) (g : Nat) (v : CodecSlot) : (setSlot s g v).libMem = s.libMem := rfl
@[simp] theorem setSlot_frostMem (s : State) (g : Nat) (v : CodecSlot) : (setSlot s g v).frostMem = s.frostMem := rfl
@[simp] theorem setSlot_stewardMem (s : State) (g : Nat) (v : CodecSlot) : (setSlot s g v).stewardMem = s.stewardMem := rfl
@[simp] theorem setSlot_runs (s : State) (g : Nat) (v : CodecSlot) : (setSlot s g v).runs = s.runs := rfl
@[simp] theorem setSlot_store0 (s : State) (g : Nat) (v : CodecSlot) : (setSlot s g v).store0 = s.store0 := rfl
@[simp] theorem setSlot_store1 (s : State) (g : Nat) (v : CodecSlot) : (setSlot s g v).store1 = s.store1 := rfl
@[simp] theorem setSlot_syncs (s : State) (g : Nat) (v : CodecSlot) : (setSlot s g v).syncs = s.syncs := rfl
@[simp] theorem setSlot_serials (s : State) (g : Nat) (v : CodecSlot) : (setSlot s g v).serials = s.serials := rfl
@[simp] theorem setSlot_streams (s : State) (g : Nat) (v : CodecSlot) : (setSlot s g v).streams = s.streams := rfl
@[simp] theorem setSlot_docket (s : State) (g : Nat) (v : CodecSlot) : (setSlot s g v).docket = s.docket := rfl
@[simp] theorem setSlot_tiles (s : State) (g : Nat) (v : CodecSlot) : (setSlot s g v).tiles = s.tiles := rfl
@[simp] theorem setSlot_retired (s : State) (g : Nat) (v : CodecSlot) : (setSlot s g v).retired = s.retired := rfl
@[simp] theorem setSlot_time (s : State) (g : Nat) (v : CodecSlot) : (setSlot s g v).time = s.time := rfl
@[simp] theorem setSlot_almanac (s : State) (g : Nat) (v : CodecSlot) : (setSlot s g v).almanac = s.almanac := rfl
@[simp] theorem setSlot_sched (s : State) (g : Nat) (v : CodecSlot) : (setSlot s g v).sched = s.sched := rfl
@[simp] theorem setSlot_fns (s : State) (g : Nat) (v : CodecSlot) : (setSlot s g v).fns = s.fns := rfl
@[simp] theorem setSlot_ctxs (s : State) (g : Nat) (v : CodecSlot) : (setSlot s g v).ctxs = s.ctxs := rfl
@[simp] theorem setSlot_hbm (s : State) (g : Nat) (v : CodecSlot) : (setSlot s g v).hbm = s.hbm := rfl
@[simp] theorem setSlot_flash (s : State) (g : Nat) (v : CodecSlot) : (setSlot s g v).flash = s.flash := rfl
@[simp] theorem setSlot_fw (s : State) (g : Nat) (v : CodecSlot) : (setSlot s g v).fw = s.fw := rfl
@[simp] theorem setSlot_lrs (s : State) (g : Nat) (v : CodecSlot) : (setSlot s g v).lrs = s.lrs := rfl
@[simp] theorem setSlot_sec (s : State) (g : Nat) (v : CodecSlot) : (setSlot s g v).sec = s.sec := rfl
@[simp] theorem setSlot_dbg (s : State) (g : Nat) (v : CodecSlot) : (setSlot s g v).dbg = s.dbg := rfl
@[simp] theorem setSlot_heldWrites (s : State) (g : Nat) (v : CodecSlot) : (setSlot s g v).heldWrites = s.heldWrites := rfl
@[simp] theorem setSlot_span (s : State) (g : Nat) (v : CodecSlot) : (setSlot s g v).span = s.span := rfl
@[simp] theorem setSlot_power (s : State) (g : Nat) (v : CodecSlot) : (setSlot s g v).power = s.power := rfl
@[simp] theorem setSlot_boot (s : State) (g : Nat) (v : CodecSlot) : (setSlot s g v).boot = s.boot := rfl

/-! ### setCounter -/

@[simp] theorem setCounter_pending (s : State) (n : Nat) (v : Counter) : (setCounter s n v).pending = s.pending := rfl
@[simp] theorem setCounter_supply (s : State) (n : Nat) (v : Counter) : (setCounter s n v).supply = s.supply := rfl
@[simp] theorem setCounter_drawn (s : State) (n : Nat) (v : Counter) : (setCounter s n v).drawn = s.drawn := rfl
@[simp] theorem setCounter_env (s : State) (n : Nat) (v : Counter) : (setCounter s n v).env = s.env := rfl
@[simp] theorem setCounter_fuses (s : State) (n : Nat) (v : Counter) : (setCounter s n v).fuses = s.fuses := rfl
@[simp] theorem setCounter_pins (s : State) (n : Nat) (v : Counter) : (setCounter s n v).pins = s.pins := rfl
@[simp] theorem setCounter_busRead (s : State) (n : Nat) (v : Counter) : (setCounter s n v).busRead = s.busRead := rfl
@[simp] theorem setCounter_hostMem (s : State) (n : Nat) (v : Counter) : (setCounter s n v).hostMem = s.hostMem := rfl
@[simp] theorem setCounter_localMem (s : State) (n : Nat) (v : Counter) : (setCounter s n v).localMem = s.localMem := rfl
@[simp] theorem setCounter_sramMem (s : State) (n : Nat) (v : Counter) : (setCounter s n v).sramMem = s.sramMem := rfl
@[simp] theorem setCounter_hbmMem (s : State) (n : Nat) (v : Counter) : (setCounter s n v).hbmMem = s.hbmMem := rfl
@[simp] theorem setCounter_libMem (s : State) (n : Nat) (v : Counter) : (setCounter s n v).libMem = s.libMem := rfl
@[simp] theorem setCounter_frostMem (s : State) (n : Nat) (v : Counter) : (setCounter s n v).frostMem = s.frostMem := rfl
@[simp] theorem setCounter_stewardMem (s : State) (n : Nat) (v : Counter) : (setCounter s n v).stewardMem = s.stewardMem := rfl
@[simp] theorem setCounter_runs (s : State) (n : Nat) (v : Counter) : (setCounter s n v).runs = s.runs := rfl
@[simp] theorem setCounter_store0 (s : State) (n : Nat) (v : Counter) : (setCounter s n v).store0 = s.store0 := rfl
@[simp] theorem setCounter_store1 (s : State) (n : Nat) (v : Counter) : (setCounter s n v).store1 = s.store1 := rfl
@[simp] theorem setCounter_syncs (s : State) (n : Nat) (v : Counter) : (setCounter s n v).syncs = s.syncs := rfl
@[simp] theorem setCounter_codecSlots (s : State) (n : Nat) (v : Counter) : (setCounter s n v).codecSlots = s.codecSlots := rfl
@[simp] theorem setCounter_serials (s : State) (n : Nat) (v : Counter) : (setCounter s n v).serials = s.serials := rfl
@[simp] theorem setCounter_streams (s : State) (n : Nat) (v : Counter) : (setCounter s n v).streams = s.streams := rfl
@[simp] theorem setCounter_docket (s : State) (n : Nat) (v : Counter) : (setCounter s n v).docket = s.docket := rfl
@[simp] theorem setCounter_tiles (s : State) (n : Nat) (v : Counter) : (setCounter s n v).tiles = s.tiles := rfl
@[simp] theorem setCounter_retired (s : State) (n : Nat) (v : Counter) : (setCounter s n v).retired = s.retired := rfl
@[simp] theorem setCounter_time (s : State) (n : Nat) (v : Counter) : (setCounter s n v).time = s.time := rfl
@[simp] theorem setCounter_almanac (s : State) (n : Nat) (v : Counter) : (setCounter s n v).almanac = s.almanac := rfl
@[simp] theorem setCounter_sched (s : State) (n : Nat) (v : Counter) : (setCounter s n v).sched = s.sched := rfl
@[simp] theorem setCounter_fns (s : State) (n : Nat) (v : Counter) : (setCounter s n v).fns = s.fns := rfl
@[simp] theorem setCounter_ctxs (s : State) (n : Nat) (v : Counter) : (setCounter s n v).ctxs = s.ctxs := rfl
@[simp] theorem setCounter_hbm (s : State) (n : Nat) (v : Counter) : (setCounter s n v).hbm = s.hbm := rfl
@[simp] theorem setCounter_flash (s : State) (n : Nat) (v : Counter) : (setCounter s n v).flash = s.flash := rfl
@[simp] theorem setCounter_fw (s : State) (n : Nat) (v : Counter) : (setCounter s n v).fw = s.fw := rfl
@[simp] theorem setCounter_lrs (s : State) (n : Nat) (v : Counter) : (setCounter s n v).lrs = s.lrs := rfl
@[simp] theorem setCounter_sec (s : State) (n : Nat) (v : Counter) : (setCounter s n v).sec = s.sec := rfl
@[simp] theorem setCounter_heldWrites (s : State) (n : Nat) (v : Counter) : (setCounter s n v).heldWrites = s.heldWrites := rfl
@[simp] theorem setCounter_span (s : State) (n : Nat) (v : Counter) : (setCounter s n v).span = s.span := rfl
@[simp] theorem setCounter_power (s : State) (n : Nat) (v : Counter) : (setCounter s n v).power = s.power := rfl
@[simp] theorem setCounter_boot (s : State) (n : Nat) (v : Counter) : (setCounter s n v).boot = s.boot := rfl

/-! ### Updates of an entry or a context that may be absent -/

@[simp] theorem modCtx_pending (s : State) (c : Nat) (g : Ctx → Ctx) : (modCtx s c g).pending = s.pending := by
  unfold modCtx; split <;> rfl
@[simp] theorem modCtx_supply (s : State) (c : Nat) (g : Ctx → Ctx) : (modCtx s c g).supply = s.supply := by
  unfold modCtx; split <;> rfl
@[simp] theorem modCtx_drawn (s : State) (c : Nat) (g : Ctx → Ctx) : (modCtx s c g).drawn = s.drawn := by
  unfold modCtx; split <;> rfl
@[simp] theorem modCtx_env (s : State) (c : Nat) (g : Ctx → Ctx) : (modCtx s c g).env = s.env := by
  unfold modCtx; split <;> rfl
@[simp] theorem modCtx_fuses (s : State) (c : Nat) (g : Ctx → Ctx) : (modCtx s c g).fuses = s.fuses := by
  unfold modCtx; split <;> rfl
@[simp] theorem modCtx_pins (s : State) (c : Nat) (g : Ctx → Ctx) : (modCtx s c g).pins = s.pins := by
  unfold modCtx; split <;> rfl
@[simp] theorem modCtx_busRead (s : State) (c : Nat) (g : Ctx → Ctx) : (modCtx s c g).busRead = s.busRead := by
  unfold modCtx; split <;> rfl
@[simp] theorem modCtx_hostMem (s : State) (c : Nat) (g : Ctx → Ctx) : (modCtx s c g).hostMem = s.hostMem := by
  unfold modCtx; split <;> rfl
@[simp] theorem modCtx_localMem (s : State) (c : Nat) (g : Ctx → Ctx) : (modCtx s c g).localMem = s.localMem := by
  unfold modCtx; split <;> rfl
@[simp] theorem modCtx_sramMem (s : State) (c : Nat) (g : Ctx → Ctx) : (modCtx s c g).sramMem = s.sramMem := by
  unfold modCtx; split <;> rfl
@[simp] theorem modCtx_hbmMem (s : State) (c : Nat) (g : Ctx → Ctx) : (modCtx s c g).hbmMem = s.hbmMem := by
  unfold modCtx; split <;> rfl
@[simp] theorem modCtx_libMem (s : State) (c : Nat) (g : Ctx → Ctx) : (modCtx s c g).libMem = s.libMem := by
  unfold modCtx; split <;> rfl
@[simp] theorem modCtx_frostMem (s : State) (c : Nat) (g : Ctx → Ctx) : (modCtx s c g).frostMem = s.frostMem := by
  unfold modCtx; split <;> rfl
@[simp] theorem modCtx_stewardMem (s : State) (c : Nat) (g : Ctx → Ctx) : (modCtx s c g).stewardMem = s.stewardMem := by
  unfold modCtx; split <;> rfl
@[simp] theorem modCtx_runs (s : State) (c : Nat) (g : Ctx → Ctx) : (modCtx s c g).runs = s.runs := by
  unfold modCtx; split <;> rfl
@[simp] theorem modCtx_store0 (s : State) (c : Nat) (g : Ctx → Ctx) : (modCtx s c g).store0 = s.store0 := by
  unfold modCtx; split <;> rfl
@[simp] theorem modCtx_store1 (s : State) (c : Nat) (g : Ctx → Ctx) : (modCtx s c g).store1 = s.store1 := by
  unfold modCtx; split <;> rfl
@[simp] theorem modCtx_syncs (s : State) (c : Nat) (g : Ctx → Ctx) : (modCtx s c g).syncs = s.syncs := by
  unfold modCtx; split <;> rfl
@[simp] theorem modCtx_codecSlots (s : State) (c : Nat) (g : Ctx → Ctx) : (modCtx s c g).codecSlots = s.codecSlots := by
  unfold modCtx; split <;> rfl
@[simp] theorem modCtx_serials (s : State) (c : Nat) (g : Ctx → Ctx) : (modCtx s c g).serials = s.serials := by
  unfold modCtx; split <;> rfl
@[simp] theorem modCtx_streams (s : State) (c : Nat) (g : Ctx → Ctx) : (modCtx s c g).streams = s.streams := by
  unfold modCtx; split <;> rfl
@[simp] theorem modCtx_tiles (s : State) (c : Nat) (g : Ctx → Ctx) : (modCtx s c g).tiles = s.tiles := by
  unfold modCtx; split <;> rfl
@[simp] theorem modCtx_retired (s : State) (c : Nat) (g : Ctx → Ctx) : (modCtx s c g).retired = s.retired := by
  unfold modCtx; split <;> rfl
@[simp] theorem modCtx_time (s : State) (c : Nat) (g : Ctx → Ctx) : (modCtx s c g).time = s.time := by
  unfold modCtx; split <;> rfl
@[simp] theorem modCtx_almanac (s : State) (c : Nat) (g : Ctx → Ctx) : (modCtx s c g).almanac = s.almanac := by
  unfold modCtx; split <;> rfl
@[simp] theorem modCtx_sched (s : State) (c : Nat) (g : Ctx → Ctx) : (modCtx s c g).sched = s.sched := by
  unfold modCtx; split <;> rfl
@[simp] theorem modCtx_fns (s : State) (c : Nat) (g : Ctx → Ctx) : (modCtx s c g).fns = s.fns := by
  unfold modCtx; split <;> rfl
@[simp] theorem modCtx_hbm (s : State) (c : Nat) (g : Ctx → Ctx) : (modCtx s c g).hbm = s.hbm := by
  unfold modCtx; split <;> rfl
@[simp] theorem modCtx_flash (s : State) (c : Nat) (g : Ctx → Ctx) : (modCtx s c g).flash = s.flash := by
  unfold modCtx; split <;> rfl
@[simp] theorem modCtx_fw (s : State) (c : Nat) (g : Ctx → Ctx) : (modCtx s c g).fw = s.fw := by
  unfold modCtx; split <;> rfl
@[simp] theorem modCtx_lrs (s : State) (c : Nat) (g : Ctx → Ctx) : (modCtx s c g).lrs = s.lrs := by
  unfold modCtx; split <;> rfl
@[simp] theorem modCtx_sec (s : State) (c : Nat) (g : Ctx → Ctx) : (modCtx s c g).sec = s.sec := by
  unfold modCtx; split <;> rfl
@[simp] theorem modCtx_dbg (s : State) (c : Nat) (g : Ctx → Ctx) : (modCtx s c g).dbg = s.dbg := by
  unfold modCtx; split <;> rfl
@[simp] theorem modCtx_heldWrites (s : State) (c : Nat) (g : Ctx → Ctx) : (modCtx s c g).heldWrites = s.heldWrites := by
  unfold modCtx; split <;> rfl
@[simp] theorem modCtx_span (s : State) (c : Nat) (g : Ctx → Ctx) : (modCtx s c g).span = s.span := by
  unfold modCtx; split <;> rfl
@[simp] theorem modCtx_power (s : State) (c : Nat) (g : Ctx → Ctx) : (modCtx s c g).power = s.power := by
  unfold modCtx; split <;> rfl
@[simp] theorem modCtx_boot (s : State) (c : Nat) (g : Ctx → Ctx) : (modCtx s c g).boot = s.boot := by
  unfold modCtx; split <;> rfl

@[simp] theorem modEntry_pending (s : State) (e : Nat) (g : Entry → Entry) : (modEntry s e g).pending = s.pending := by
  unfold modEntry; split <;> rfl
@[simp] theorem modEntry_supply (s : State) (e : Nat) (g : Entry → Entry) : (modEntry s e g).supply = s.supply := by
  unfold modEntry; split <;> rfl
@[simp] theorem modEntry_drawn (s : State) (e : Nat) (g : Entry → Entry) : (modEntry s e g).drawn = s.drawn := by
  unfold modEntry; split <;> rfl
@[simp] theorem modEntry_env (s : State) (e : Nat) (g : Entry → Entry) : (modEntry s e g).env = s.env := by
  unfold modEntry; split <;> rfl
@[simp] theorem modEntry_fuses (s : State) (e : Nat) (g : Entry → Entry) : (modEntry s e g).fuses = s.fuses := by
  unfold modEntry; split <;> rfl
@[simp] theorem modEntry_pins (s : State) (e : Nat) (g : Entry → Entry) : (modEntry s e g).pins = s.pins := by
  unfold modEntry; split <;> rfl
@[simp] theorem modEntry_busRead (s : State) (e : Nat) (g : Entry → Entry) : (modEntry s e g).busRead = s.busRead := by
  unfold modEntry; split <;> rfl
@[simp] theorem modEntry_hostMem (s : State) (e : Nat) (g : Entry → Entry) : (modEntry s e g).hostMem = s.hostMem := by
  unfold modEntry; split <;> rfl
@[simp] theorem modEntry_localMem (s : State) (e : Nat) (g : Entry → Entry) : (modEntry s e g).localMem = s.localMem := by
  unfold modEntry; split <;> rfl
@[simp] theorem modEntry_sramMem (s : State) (e : Nat) (g : Entry → Entry) : (modEntry s e g).sramMem = s.sramMem := by
  unfold modEntry; split <;> rfl
@[simp] theorem modEntry_hbmMem (s : State) (e : Nat) (g : Entry → Entry) : (modEntry s e g).hbmMem = s.hbmMem := by
  unfold modEntry; split <;> rfl
@[simp] theorem modEntry_libMem (s : State) (e : Nat) (g : Entry → Entry) : (modEntry s e g).libMem = s.libMem := by
  unfold modEntry; split <;> rfl
@[simp] theorem modEntry_frostMem (s : State) (e : Nat) (g : Entry → Entry) : (modEntry s e g).frostMem = s.frostMem := by
  unfold modEntry; split <;> rfl
@[simp] theorem modEntry_stewardMem (s : State) (e : Nat) (g : Entry → Entry) : (modEntry s e g).stewardMem = s.stewardMem := by
  unfold modEntry; split <;> rfl
@[simp] theorem modEntry_runs (s : State) (e : Nat) (g : Entry → Entry) : (modEntry s e g).runs = s.runs := by
  unfold modEntry; split <;> rfl
@[simp] theorem modEntry_store0 (s : State) (e : Nat) (g : Entry → Entry) : (modEntry s e g).store0 = s.store0 := by
  unfold modEntry; split <;> rfl
@[simp] theorem modEntry_store1 (s : State) (e : Nat) (g : Entry → Entry) : (modEntry s e g).store1 = s.store1 := by
  unfold modEntry; split <;> rfl
@[simp] theorem modEntry_syncs (s : State) (e : Nat) (g : Entry → Entry) : (modEntry s e g).syncs = s.syncs := by
  unfold modEntry; split <;> rfl
@[simp] theorem modEntry_codecSlots (s : State) (e : Nat) (g : Entry → Entry) : (modEntry s e g).codecSlots = s.codecSlots := by
  unfold modEntry; split <;> rfl
@[simp] theorem modEntry_serials (s : State) (e : Nat) (g : Entry → Entry) : (modEntry s e g).serials = s.serials := by
  unfold modEntry; split <;> rfl
@[simp] theorem modEntry_streams (s : State) (e : Nat) (g : Entry → Entry) : (modEntry s e g).streams = s.streams := by
  unfold modEntry; split <;> rfl
@[simp] theorem modEntry_tiles (s : State) (e : Nat) (g : Entry → Entry) : (modEntry s e g).tiles = s.tiles := by
  unfold modEntry; split <;> rfl
@[simp] theorem modEntry_retired (s : State) (e : Nat) (g : Entry → Entry) : (modEntry s e g).retired = s.retired := by
  unfold modEntry; split <;> rfl
@[simp] theorem modEntry_time (s : State) (e : Nat) (g : Entry → Entry) : (modEntry s e g).time = s.time := by
  unfold modEntry; split <;> rfl
@[simp] theorem modEntry_almanac (s : State) (e : Nat) (g : Entry → Entry) : (modEntry s e g).almanac = s.almanac := by
  unfold modEntry; split <;> rfl
@[simp] theorem modEntry_sched (s : State) (e : Nat) (g : Entry → Entry) : (modEntry s e g).sched = s.sched := by
  unfold modEntry; split <;> rfl
@[simp] theorem modEntry_fns (s : State) (e : Nat) (g : Entry → Entry) : (modEntry s e g).fns = s.fns := by
  unfold modEntry; split <;> rfl
@[simp] theorem modEntry_ctxs (s : State) (e : Nat) (g : Entry → Entry) : (modEntry s e g).ctxs = s.ctxs := by
  unfold modEntry; split <;> rfl
@[simp] theorem modEntry_hbm (s : State) (e : Nat) (g : Entry → Entry) : (modEntry s e g).hbm = s.hbm := by
  unfold modEntry; split <;> rfl
@[simp] theorem modEntry_flash (s : State) (e : Nat) (g : Entry → Entry) : (modEntry s e g).flash = s.flash := by
  unfold modEntry; split <;> rfl
@[simp] theorem modEntry_fw (s : State) (e : Nat) (g : Entry → Entry) : (modEntry s e g).fw = s.fw := by
  unfold modEntry; split <;> rfl
@[simp] theorem modEntry_lrs (s : State) (e : Nat) (g : Entry → Entry) : (modEntry s e g).lrs = s.lrs := by
  unfold modEntry; split <;> rfl
@[simp] theorem modEntry_sec (s : State) (e : Nat) (g : Entry → Entry) : (modEntry s e g).sec = s.sec := by
  unfold modEntry; split <;> rfl
@[simp] theorem modEntry_dbg (s : State) (e : Nat) (g : Entry → Entry) : (modEntry s e g).dbg = s.dbg := by
  unfold modEntry; split <;> rfl
@[simp] theorem modEntry_heldWrites (s : State) (e : Nat) (g : Entry → Entry) : (modEntry s e g).heldWrites = s.heldWrites := by
  unfold modEntry; split <;> rfl
@[simp] theorem modEntry_span (s : State) (e : Nat) (g : Entry → Entry) : (modEntry s e g).span = s.span := by
  unfold modEntry; split <;> rfl
@[simp] theorem modEntry_power (s : State) (e : Nat) (g : Entry → Entry) : (modEntry s e g).power = s.power := by
  unfold modEntry; split <;> rfl
@[simp] theorem modEntry_boot (s : State) (e : Nat) (g : Entry → Entry) : (modEntry s e g).boot = s.boot := by
  unfold modEntry; split <;> rfl

@[simp] theorem setPort_pending (s : State) (p : Bool) (v : Port) : (setPort s p v).pending = s.pending := by
  unfold setPort; split <;> rfl
@[simp] theorem setPort_supply (s : State) (p : Bool) (v : Port) : (setPort s p v).supply = s.supply := by
  unfold setPort; split <;> rfl
@[simp] theorem setPort_drawn (s : State) (p : Bool) (v : Port) : (setPort s p v).drawn = s.drawn := by
  unfold setPort; split <;> rfl
@[simp] theorem setPort_env (s : State) (p : Bool) (v : Port) : (setPort s p v).env = s.env := by
  unfold setPort; split <;> rfl
@[simp] theorem setPort_fuses (s : State) (p : Bool) (v : Port) : (setPort s p v).fuses = s.fuses := by
  unfold setPort; split <;> rfl
@[simp] theorem setPort_pins (s : State) (p : Bool) (v : Port) : (setPort s p v).pins = s.pins := by
  unfold setPort; split <;> rfl
@[simp] theorem setPort_busRead (s : State) (p : Bool) (v : Port) : (setPort s p v).busRead = s.busRead := by
  unfold setPort; split <;> rfl
@[simp] theorem setPort_hostMem (s : State) (p : Bool) (v : Port) : (setPort s p v).hostMem = s.hostMem := by
  unfold setPort; split <;> rfl
@[simp] theorem setPort_localMem (s : State) (p : Bool) (v : Port) : (setPort s p v).localMem = s.localMem := by
  unfold setPort; split <;> rfl
@[simp] theorem setPort_sramMem (s : State) (p : Bool) (v : Port) : (setPort s p v).sramMem = s.sramMem := by
  unfold setPort; split <;> rfl
@[simp] theorem setPort_hbmMem (s : State) (p : Bool) (v : Port) : (setPort s p v).hbmMem = s.hbmMem := by
  unfold setPort; split <;> rfl
@[simp] theorem setPort_libMem (s : State) (p : Bool) (v : Port) : (setPort s p v).libMem = s.libMem := by
  unfold setPort; split <;> rfl
@[simp] theorem setPort_frostMem (s : State) (p : Bool) (v : Port) : (setPort s p v).frostMem = s.frostMem := by
  unfold setPort; split <;> rfl
@[simp] theorem setPort_stewardMem (s : State) (p : Bool) (v : Port) : (setPort s p v).stewardMem = s.stewardMem := by
  unfold setPort; split <;> rfl
@[simp] theorem setPort_runs (s : State) (p : Bool) (v : Port) : (setPort s p v).runs = s.runs := by
  unfold setPort; split <;> rfl
@[simp] theorem setPort_store0 (s : State) (p : Bool) (v : Port) : (setPort s p v).store0 = s.store0 := by
  unfold setPort; split <;> rfl
@[simp] theorem setPort_store1 (s : State) (p : Bool) (v : Port) : (setPort s p v).store1 = s.store1 := by
  unfold setPort; split <;> rfl
@[simp] theorem setPort_syncs (s : State) (p : Bool) (v : Port) : (setPort s p v).syncs = s.syncs := by
  unfold setPort; split <;> rfl
@[simp] theorem setPort_codecSlots (s : State) (p : Bool) (v : Port) : (setPort s p v).codecSlots = s.codecSlots := by
  unfold setPort; split <;> rfl
@[simp] theorem setPort_serials (s : State) (p : Bool) (v : Port) : (setPort s p v).serials = s.serials := by
  unfold setPort; split <;> rfl
@[simp] theorem setPort_streams (s : State) (p : Bool) (v : Port) : (setPort s p v).streams = s.streams := by
  unfold setPort; split <;> rfl
@[simp] theorem setPort_docket (s : State) (p : Bool) (v : Port) : (setPort s p v).docket = s.docket := by
  unfold setPort; split <;> rfl
@[simp] theorem setPort_tiles (s : State) (p : Bool) (v : Port) : (setPort s p v).tiles = s.tiles := by
  unfold setPort; split <;> rfl
@[simp] theorem setPort_retired (s : State) (p : Bool) (v : Port) : (setPort s p v).retired = s.retired := by
  unfold setPort; split <;> rfl
@[simp] theorem setPort_time (s : State) (p : Bool) (v : Port) : (setPort s p v).time = s.time := by
  unfold setPort; split <;> rfl
@[simp] theorem setPort_almanac (s : State) (p : Bool) (v : Port) : (setPort s p v).almanac = s.almanac := by
  unfold setPort; split <;> rfl
@[simp] theorem setPort_sched (s : State) (p : Bool) (v : Port) : (setPort s p v).sched = s.sched := by
  unfold setPort; split <;> rfl
@[simp] theorem setPort_fns (s : State) (p : Bool) (v : Port) : (setPort s p v).fns = s.fns := by
  unfold setPort; split <;> rfl
@[simp] theorem setPort_ctxs (s : State) (p : Bool) (v : Port) : (setPort s p v).ctxs = s.ctxs := by
  unfold setPort; split <;> rfl
@[simp] theorem setPort_hbm (s : State) (p : Bool) (v : Port) : (setPort s p v).hbm = s.hbm := by
  unfold setPort; split <;> rfl
@[simp] theorem setPort_flash (s : State) (p : Bool) (v : Port) : (setPort s p v).flash = s.flash := by
  unfold setPort; split <;> rfl
@[simp] theorem setPort_fw (s : State) (p : Bool) (v : Port) : (setPort s p v).fw = s.fw := by
  unfold setPort; split <;> rfl
@[simp] theorem setPort_lrs (s : State) (p : Bool) (v : Port) : (setPort s p v).lrs = s.lrs := by
  unfold setPort; split <;> rfl
@[simp] theorem setPort_sec (s : State) (p : Bool) (v : Port) : (setPort s p v).sec = s.sec := by
  unfold setPort; split <;> rfl
@[simp] theorem setPort_dbg (s : State) (p : Bool) (v : Port) : (setPort s p v).dbg = s.dbg := by
  unfold setPort; split <;> rfl
@[simp] theorem setPort_heldWrites (s : State) (p : Bool) (v : Port) : (setPort s p v).heldWrites = s.heldWrites := by
  unfold setPort; split <;> rfl
@[simp] theorem setPort_power (s : State) (p : Bool) (v : Port) : (setPort s p v).power = s.power := by
  unfold setPort; split <;> rfl
@[simp] theorem setPort_boot (s : State) (p : Bool) (v : Port) : (setPort s p v).boot = s.boot := by
  unfold setPort; split <;> rfl

/-! ### What an update writes is what is read back -/

@[simp] theorem fnOf_setFn (s : State) (f : Nat) (v : Fn) : fnOf (setFn s f v) f = v := by simp [fnOf, setFn]
@[simp] theorem tileOf_setTile (s : State) (t : Nat) (v : Tile) : tileOf (setTile s t v) t = v := by simp [tileOf, setTile]
@[simp] theorem streamOf_setStream (s : State) (i : Nat) (v : Stream) : streamOf (setStream s i v) i = v := by simp [streamOf, setStream]
@[simp] theorem pcOf_setPc (s : State) (p : Nat) (v : Pc) : pcOf (setPc s p v) p = v := by simp [pcOf, setPc]
@[simp] theorem chanOf_setChan (s : State) (c : Nat) (v : Chan) : chanOf (setChan s c v) c = v := by simp [chanOf, setChan]
@[simp] theorem flashChanOf_setFlashChan (s : State) (c : Nat) (v : FlashChan) : flashChanOf (setFlashChan s c v) c = v := by simp [flashChanOf, setFlashChan]
@[simp] theorem libBlockOf_setLibBlock (s : State) (g : Nat) (v : LibBlock) : libBlockOf (setLibBlock s g v) g = v := by simp [libBlockOf, setLibBlock]
@[simp] theorem syncOf_setSync (s : State) (g : Nat) (v : Sync) : syncOf (setSync s g v) g = v := by simp [syncOf, setSync]
@[simp] theorem slotOf_setSlot (s : State) (g : Nat) (v : CodecSlot) : slotOf (setSlot s g v) g = v := by simp [slotOf, setSlot]
@[simp] theorem counterOf_setCounter (s : State) (n : Nat) (v : Counter) : counterOf (setCounter s n v) n = v := by simp [counterOf, setCounter]
@[simp] theorem ctxOf_setCtx (s : State) (c : Nat) (v : Ctx) : ctxOf (setCtx s c v) c = some v := by simp [ctxOf, setCtx]
@[simp] theorem entryOf_setEntry (s : State) (e : Nat) (v : Entry) : entryOf (setEntry s e v) e = some v := by simp [entryOf, setEntry]
@[simp] theorem ringOf_setRing (s : State) (f r : Nat) (v : Ring) : ringOf (setRing s f r v) f r = v := by
  simp [ringOf, setRing]
@[simp] theorem portOf_setPort (s : State) (p : Bool) (v : Port) : portOf (setPort s p v) p = v := by
  cases p <;> simp [portOf, setPort]

/-! ### Two updates of one place -/

@[simp] theorem setFn_setFn (s : State) (f : Nat) (a b : Fn) : setFn (setFn s f a) f b = setFn s f b := by simp [setFn]
@[simp] theorem setCtx_setCtx (s : State) (c : Nat) (a b : Ctx) : setCtx (setCtx s c a) c b = setCtx s c b := by simp [setCtx]
@[simp] theorem setTile_setTile (s : State) (t : Nat) (a b : Tile) : setTile (setTile s t a) t b = setTile s t b := by simp [setTile]
@[simp] theorem setEntry_setEntry (s : State) (e : Nat) (a b : Entry) : setEntry (setEntry s e a) e b = setEntry s e b := by simp [setEntry]
@[simp] theorem setSync_setSync (s : State) (g : Nat) (a b : Sync) : setSync (setSync s g a) g b = setSync s g b := by simp [setSync]

end Sys2Proof.Machine
end

