-- ==== Sys2Proof/Laws/Issue.lean ====
section
/-! SUPPORT. What issuing a tile instruction does, once for all of them, and what an instruction that may meet nothing leaves alone. -/

namespace Sys2Proof.Machine

/-- What issueTile does with a bundle that may issue. -/
theorem issueTile_issues {s : State} {t op w : Nat} {body : State → Tile → Nat → TileIssue} (h : Issues s t op w) :
    issueTile s t op body =
      match body (issueState s t w) (tileOf (issueState s t w) t) w with
      | .stall => s
      | .fault cause => tileFault (issueState s t w) t cause
      | .poisoned => poisonFault (issueState s t w) t
      | .wait v => setTile (issueState s t w) t { tileOf (issueState s t w) t with waitOn := some v }
      | .done u next => setTile u t { tileOf u t with pc := next }
      | .queued f effect => queueUp (issueState s t w) t w f effect := by
  obtain ⟨h1, h2, ⟨h3, h4, h5⟩, h6, h7, ⟨h8, h9, h10⟩, h11, h12, h13⟩ := h
  have hf : ∃ s1, fetchBundle s t = (.ok w, s1) := by
    unfold bundleAt at h7
    cases hh : fetchBundle s t with
    | mk a b => cases a <;> simp_all
  obtain ⟨s1, hf⟩ := hf
  obtain ⟨e, he⟩ := Option.isSome_iff_exists.mp h2
  unfold issueTile issueState
  simp [h1, he, h3, h4, h5, Nat.not_le.mpr h6, hf, h8, h9, h10, h11, h12, h13] <;> rfl

@[simp] theorem setSreg_pc (x : Tile) (i v : Nat) : (x.setSreg i v).pc = x.pc := by unfold Tile.setSreg; split <;> rfl


/-- noteDone changes the Docket alone. -/
theorem noteDone_eq (s : State) (t : Nat) (f : InFlight) : ∃ l, noteDone s t f = { s with docket := { s.docket with entries := l } } := by
  unfold noteDone modLoose modEntry setEntry
  repeat' split
  all_goals exact ⟨_, rfl⟩

/-! ### An instruction that may meet nothing -/

theorem readRaces_quiet {u : State} {t : Nat} {f : InFlight} (h : meetsNothing u t f.unit) : readRaces u t f = [] := by
  have h' : metBy u t f.unit = [] := h
  unfold readRaces
  rw [h']; rfl
theorem writeRaces_quiet {u : State} {t : Nat} {f : InFlight} (h : meetsNothing u t f.unit) : writeRaces u t f = [] := by
  have h' : metBy u t f.unit = [] := h
  unfold writeRaces
  rw [h']; rfl
theorem overRaces_quiet {u : State} {t : Nat} {f : InFlight} (h : meetsNothing u t f.unit) : overRaces u t f = [] := by
  have h' : metBy u t f.unit = [] := h
  unfold overRaces
  rw [h']; rfl

/-- What an instruction reads then stands as it is. -/
theorem beforeEffect_quiet {u : State} {t : Nat} {f : InFlight} (h : meetsNothing u t f.unit) : beforeEffect u t f = u := by
  simp [beforeEffect, readRaces_quiet h]

/-- What it wrote then stands too. -/
theorem afterEffect_quiet {u : State} {t : Nat} {f : InFlight} (h : meetsNothing u t f.unit) (v : State) :
    afterEffect u t f v = v := by simp [afterEffect, writeRaces_quiet h, overRaces_quiet h]

/-- An instruction that reads nothing finds nothing changed. -/
theorem beforeEffect_reads {u : State} {t : Nat} {f : InFlight} (h1 : f.reads = []) (h2 : f.sideReads = []) : beforeEffect u t f = u := by
  have : readRaces u t f = [] := by
    unfold readRaces
    simp [h1, h2, clashes]
  simp [beforeEffect, this]

/-! ### Copies within local stores -/

theorem sideTile_congr {s v : State} (hd : v.docket = s.docket) (ht : v.tiles = s.tiles) (t : Nat) (d : Desc) : sideTile v t d = sideTile s t d := by
  simp [sideTile, tileOf, entryOf, hd, ht]
  rfl

/-- A COPY between local stores moves its rows in order. -/
theorem runCopy (t a b nb : Nat) (x y : Side) (hx : x.d.tier ≤ 1) (hy : y.d.tier ≤ 1) (l : List Nat) :
    ∀ s : State, sideTile s t x.d = some a → sideTile s t y.d = some b →
      runRows (fun v i => copyRow v t x y nb i) l s [] =
        (l.foldl (fun v r => localWrite v b (y.addr r) (localRead v a (x.addr r) nb)) s, .sent []) := by
  induction l with
  | nil => intro s _ _; rfl
  | cons r rs ih =>
    intro s h1 h2
    have e : copyRow s t x y nb r = (localWrite s b (y.addr r) (localRead s a (x.addr r) nb), .fine) := by
      unfold copyRow
      rw [if_neg (by omega)]
      simp only [sideRead, if_neg (show ¬ x.d.tier = 2 by omega), h1, sideWrite, if_neg (show ¬ y.d.tier = 2 by omega),
        if_neg (show ¬ y.d.tier = 3 by omega), h2]
    simp only [runRows, e, List.foldl_cons]
    exact ih _ ((sideTile_congr (s := s) rfl rfl t _).trans h1) ((sideTile_congr (s := s) rfl rfl t _).trans h2)

/-- A FILL of a local store writes its rows in order. -/
theorem runFill (t b : Nat) (y : Side) (bs : List Byte) (hy : y.d.tier ≤ 1) (l : List Nat) :
    ∀ s : State, sideTile s t y.d = some b →
      runRows (fun v i => sideWrite v t y (y.addr i) bs) l s [] =
        (l.foldl (fun v r => localWrite v b (y.addr r) bs) s, .sent []) := by
  induction l with
  | nil => intro s _; rfl
  | cons r rs ih =>
    intro s h2
    have e : sideWrite s t y (y.addr r) bs = (localWrite s b (y.addr r) bs, .fine) := by
      simp only [sideWrite, if_neg (show ¬ y.d.tier = 2 by omega), if_neg (show ¬ y.d.tier = 3 by omega), h2]
    simp only [runRows, e, List.foldl_cons]
    exact ih _ ((sideTile_congr (s := s) rfl rfl t _).trans h2)

end Sys2Proof.Machine
end

