-- ==== Sys2Proof/Laws/Signatures.lean ====
section
/-! SUPPORT. What signing makes verifies: lengths of the sponge's output and of a signature, and the walk of a verification back over
the chains, the trees and the layers to the public key. -/

namespace Sys2Proof.Machine

/-! ### Lengths -/

theorem squeezeBlocks_length (rate n : Nat) (planes : List (List Nat)) :
    (squeezeBlocks rate n planes).length = n * (8 * (rate / 8)) := by
  induction n generalizing planes with
  | zero => simp [squeezeBlocks]
  | succ n ih =>
    have h : ((List.range (rate / 8)).flatMap fun i => leBytes 8 ((planes.getD (i / 5) []).getD (i % 5) 0)).length = 8 * (rate / 8) := by
      simp [List.length_flatMap, leBytes_length, Nat.mul_comm]
    rw [squeezeBlocks, List.length_append, ih, h, Nat.add_mul, Nat.one_mul]
    exact Nat.add_comm _ _

theorem shake256_length (m : List Byte) (n : Nat) : (shake256 m n).length = n := by
  rw [shake256, sponge, List.length_take, squeezeBlocks_length]
  omega

theorem slhHash_length (seed : List Byte) (a : SlhSpot) (m : List Byte) : (slhHash seed a m).length = 32 := shake256_length _ _

theorem chainStep_length (seed : List Byte) (layer tree pair i j : Nat) (x : List Byte) :
    (chainStep seed layer tree pair i j x).length = 32 := slhHash_length _ _ _
theorem chainSecret_length (seed secret : List Byte) (layer tree pair i : Nat) :
    (chainSecret seed secret layer tree pair i).length = 32 := slhHash_length _ _ _
theorem hyperJoin_length (seed : List Byte) (layer tree z i : Nat) (x y : List Byte) :
    (hyperJoin seed layer tree z i x y).length = 32 := slhHash_length _ _ _
theorem fewSecret_length (seed secret : List Byte) (tree pair i : Nat) : (fewSecret seed secret tree pair i).length = 32 :=
  slhHash_length _ _ _
theorem fewLeaf_length (seed : List Byte) (tree pair i : Nat) (x : List Byte) : (fewLeaf seed tree pair i x).length = 32 :=
  slhHash_length _ _ _
theorem fewJoin_length (seed : List Byte) (tree pair z i : Nat) (x y : List Byte) : (fewJoin seed tree pair z i x y).length = 32 :=
  slhHash_length _ _ _

theorem chainFrom_length {step : Nat → List Byte → List Byte} (h : ∀ j x, (step j x).length = 32) (n j : Nat) (x : List Byte)
    (hx : x.length = 32) : (chainFrom step n j x).length = 32 := by
  induction n generalizing j x with
  | zero => exact hx
  | succ n ih => exact ih _ _ (h _ _)

theorem treeNode_length {leaf : Nat → List Byte} {join : Nat → Nat → List Byte → List Byte → List Byte}
    (h : ∀ i, (leaf i).length = 32) (h2 : ∀ z i x y, (join z i x y).length = 32) (z i : Nat) : (treeNode leaf join z i).length = 32 := by
  cases z with
  | zero => exact h i
  | succ z => exact h2 _ _ _ _

theorem treePath_blocks {leaf : Nat → List Byte} {join : Nat → Nat → List Byte → List Byte → List Byte}
    (h : ∀ i, (leaf i).length = 32) (h2 : ∀ z i x y, (join z i x y).length = 32) (n z i : Nat) :
    (treePath leaf join n z i).length = n ∧ ∀ b ∈ treePath leaf join n z i, b.length = 32 := by
  induction n generalizing z i with
  | zero => simp [treePath]
  | succ n ih =>
    refine ⟨by rw [treePath, List.length_cons, (ih _ _).1], fun b hb => ?_⟩
    rcases List.mem_cons.mp hb with rfl | hb
    · exact treeNode_length h h2 _ _
    · exact (ih _ _).2 b hb

theorem chainDigits_length (m : List Byte) : (chainDigits m).length = 67 := by
  simp [chainDigits]

theorem chainDigits_small (m : List Byte) {d : Nat} (h : d ∈ chainDigits m) : d ≤ 15 := by
  simp only [chainDigits, List.mem_append, List.mem_map, List.mem_cons, List.not_mem_nil, or_false] at h
  have hm (x : Nat) : x % 16 ≤ 15 := Nat.le_of_lt_succ (Nat.mod_lt x (by decide))
  rcases h with ⟨i, -, h⟩ | h | h | h <;> exact h ▸ hm _

theorem oneTimeKey_length (seed secret : List Byte) (layer tree pair : Nat) : (oneTimeKey seed secret layer tree pair).length = 32 :=
  slhHash_length _ _ _

theorem oneTimeSign_blocks (seed secret : List Byte) (layer tree pair : Nat) (m : List Byte) :
    (oneTimeSign seed secret layer tree pair m).length = 67 ∧ ∀ b ∈ oneTimeSign seed secret layer tree pair m, b.length = 32 := by
  refine ⟨by rw [oneTimeSign, List.length_mapIdx, chainDigits_length], fun b hb => ?_⟩
  obtain ⟨i, h, rfl⟩ := List.mem_mapIdx.mp hb
  exact chainFrom_length (chainStep_length seed layer tree pair i) _ _ _ (chainSecret_length seed secret layer tree pair i)

theorem hyperSign_blocks (k : SlhSet) (seed secret : List Byte) (n layer tree leaf : Nat) (m : List Byte) :
    (hyperSign k seed secret n layer tree leaf m).length = n * (67 + k.rise) ∧
      ∀ b ∈ hyperSign k seed secret n layer tree leaf m, b.length = 32 := by
  induction n generalizing layer tree leaf m with
  | zero => simp [hyperSign]
  | succ n ih =>
    have h1 := oneTimeSign_blocks seed secret layer tree leaf m
    have h2 := treePath_blocks (oneTimeKey_length seed secret layer tree) (hyperJoin_length seed layer tree) k.rise 0 leaf
    have h3 := ih (layer + 1) (tree / 2 ^ k.rise) (tree % 2 ^ k.rise) (hyperRoot k seed secret layer tree)
    refine ⟨by simp only [hyperSign, List.length_append, h1.1, h2.1, h3.1, Nat.succ_mul]; omega, fun b hb => ?_⟩
    simp only [hyperSign, List.mem_append] at hb
    rcases hb with (hb | hb) | hb
    · exact h1.2 b hb
    · exact h2.2 b hb
    · exact h3.2 b hb

theorem fewSign_part (k : SlhSet) (seed secret : List Byte) (tree pair i : Nat) :
    (fewSecret seed secret tree pair i ::
        treePath (fun i => fewLeaf seed tree pair i (fewSecret seed secret tree pair i)) (fewJoin seed tree pair) k.forsRise 0 i).length =
        1 + k.forsRise ∧
      ∀ b ∈ fewSecret seed secret tree pair i ::
        treePath (fun i => fewLeaf seed tree pair i (fewSecret seed secret tree pair i)) (fewJoin seed tree pair) k.forsRise 0 i,
        b.length = 32 := by
  have h := treePath_blocks (leaf := fun i => fewLeaf seed tree pair i (fewSecret seed secret tree pair i)) (join := fewJoin seed tree pair)
    (fun i => fewLeaf_length seed tree pair i _) (fewJoin_length seed tree pair) k.forsRise 0 i
  refine ⟨by rw [List.length_cons, h.1]; omega, fun b hb => ?_⟩
  rcases List.mem_cons.mp hb with rfl | hb
  · exact fewSecret_length _ _ _ _ _
  · exact h.2 b hb

/-! ### Lists in parts of one length -/

theorem flatMap_parts {α β : Type} (f : α → List β) (w : Nat) (l : List α) (h : ∀ a ∈ l, (f a).length = w) :
    (l.flatMap f).length = l.length * w := by
  induction l with
  | nil => simp
  | cons a l ih =>
    rw [List.flatMap_cons, List.length_append, h a List.mem_cons_self, ih fun b hb => h b (List.mem_cons_of_mem a hb), List.length_cons,
      Nat.succ_mul]
    omega

theorem flatMap_part {α β : Type} (f : α → List β) (w : Nat) (l : List α) (h : ∀ a ∈ l, (f a).length = w) (t : Nat) (a : α)
    (ht : l[t]? = some a) : ((l.flatMap f).drop (t * w)).take w = f a := by
  induction l generalizing t with
  | nil => simp at ht
  | cons b l ih =>
    have hb := h b List.mem_cons_self
    cases t with
    | zero =>
      obtain rfl : b = a := by simpa using ht
      rw [Nat.zero_mul, List.drop_zero, List.flatMap_cons, List.take_left' hb]
    | succ t =>
      rw [List.flatMap_cons, Nat.succ_mul, Nat.add_comm (t * w) w, ← List.drop_drop, List.drop_left' hb]
      exact ih (fun c hc => h c (List.mem_cons_of_mem b hc)) t (by simpa using ht)

theorem flatten_length32 (l : List (List Byte)) (h : ∀ b ∈ l, b.length = 32) : l.flatten.length = 32 * l.length := by
  induction l with
  | nil => rfl
  | cons a l ih =>
    rw [List.flatten_cons, List.length_append, h a List.mem_cons_self, ih fun b hb => h b (List.mem_cons_of_mem a hb), List.length_cons]
    omega

theorem blocks32_flatten (l : List (List Byte)) (h : ∀ b ∈ l, b.length = 32) : blocks32 l.length l.flatten = l := by
  induction l with
  | nil => rfl
  | cons a l ih =>
    have ha := h a List.mem_cons_self
    rw [List.length_cons, blocks32, List.flatten_cons, List.take_left' ha, List.drop_left' ha, ih fun b hb => h b (List.mem_cons_of_mem a hb)]

/-! ### The way back -/

theorem chainFrom_add (step : Nat → List Byte → List Byte) (n m j : Nat) (x : List Byte) :
    chainFrom step m (j + n) (chainFrom step n j x) = chainFrom step (n + m) j x := by
  induction n generalizing j x with
  | zero => rw [Nat.zero_add]; rfl
  | succ n ih =>
    rw [show n + 1 + m = n + m + 1 by omega, show j + (n + 1) = j + 1 + n by omega]
    exact ih (j + 1) (step j x)

/-- Climbing a leaf's path reaches the node above it. -/
theorem climb_path (leaf : Nat → List Byte) (join : Nat → Nat → List Byte → List Byte → List Byte) (n z i : Nat) :
    climb join (treePath leaf join n z i) z i (treeNode leaf join z i) = treeNode leaf join (z + n) (i / 2 ^ n) := by
  induction n generalizing z i with
  | zero => simp [treePath, climb]
  | succ n ih =>
    have h : (if i % 2 = 0 then join (z + 1) (i / 2) (treeNode leaf join z i) (treeNode leaf join z (neighbour i))
        else join (z + 1) (i / 2) (treeNode leaf join z (neighbour i)) (treeNode leaf join z i)) = treeNode leaf join (z + 1) (i / 2) := by
      unfold neighbour
      by_cases he : i % 2 = 0
      · rw [if_pos he, if_pos he, treeNode, show 2 * (i / 2) = i by omega]
      · rw [if_neg he, if_neg he, treeNode, show 2 * (i / 2) = i - 1 by omega, show i - 1 + 1 = i by omega]
    rw [treePath, climb, h, ih, Nat.div_div_eq_div_mul, show z + 1 + n = z + (n + 1) by omega, Nat.pow_succ']

theorem oneTimeSign_get (seed secret : List Byte) (layer tree pair : Nat) (m : List Byte) (i : Nat) (h : i < (chainDigits m).length) :
    (oneTimeSign seed secret layer tree pair m).getD i [] =
      chainFrom (chainStep seed layer tree pair i) (chainDigits m)[i] 0 (chainSecret seed secret layer tree pair i) := by
  unfold oneTimeSign
  simp only [List.getD_eq_getElem?_getD, List.getElem?_mapIdx, List.getElem?_eq_getElem h, Option.map_some, Option.getD_some]

/-- The rest of a chain from a signature's value ends where the whole chain ends. -/
theorem chainFrom_rest (step : Nat → List Byte → List Byte) (d : Nat) (h : d ≤ 15) (x : List Byte) :
    chainFrom step (15 - d) d (chainFrom step d 0 x) = chainFrom step 15 0 x := by
  have e := chainFrom_add step d (15 - d) 0 x
  rwa [Nat.zero_add, Nat.add_sub_cancel' h] at e

/-- A one-time signature leads to the key that made it. -/
theorem oneTimeRecover_sign (seed secret : List Byte) (layer tree pair : Nat) (m : List Byte) :
    oneTimeRecover seed layer tree pair m (oneTimeSign seed secret layer tree pair m) = oneTimeKey seed secret layer tree pair := by
  refine congrArg (joinEnds seed layer tree pair) (List.ext_getElem (by simp [chainDigits_length]) fun i h1 h2 => ?_)
  have hl : i < (chainDigits m).length := by simpa using h1
  simp only [List.getElem_mapIdx, List.getElem_map, List.getElem_range, oneTimeSign_get _ _ _ _ _ _ _ hl]
  exact chainFrom_rest _ _ (chainDigits_small m (List.getElem_mem hl)) _

/-- A signature by n + 1 layers leads to the root of the tree of its last layer. -/
theorem hyperRecover_sign (k : SlhSet) (seed secret : List Byte) (n layer tree leaf : Nat) (m : List Byte) (h : leaf < 2 ^ k.rise) :
    hyperRecover k seed (n + 1) layer tree leaf m (hyperSign k seed secret (n + 1) layer tree leaf m) =
      hyperRoot k seed secret (layer + n) (tree / 2 ^ (k.rise * n)) := by
  induction n generalizing layer tree leaf m with
  | zero =>
    have h1 := oneTimeSign_blocks seed secret layer tree leaf m
    have h2 := treePath_blocks (oneTimeKey_length seed secret layer tree) (hyperJoin_length seed layer tree) k.rise 0 leaf
    have hc := climb_path (oneTimeKey seed secret layer tree) (hyperJoin seed layer tree) k.rise 0 leaf
    rw [hyperRecover, hyperRecover, hyperSign, hyperSign, List.append_nil, List.take_left' h1.1, List.drop_left' h1.1,
      List.take_of_length_le (by rw [h2.1]), oneTimeRecover_sign]
    simpa [hyperRoot, Nat.div_eq_of_lt h, treeNode] using hc
  | succ n ih =>
    have h1 := oneTimeSign_blocks seed secret layer tree leaf m
    have h2 := treePath_blocks (oneTimeKey_length seed secret layer tree) (hyperJoin_length seed layer tree) k.rise 0 leaf
    have hc := climb_path (oneTimeKey seed secret layer tree) (hyperJoin seed layer tree) k.rise 0 leaf
    have hr : climb (hyperJoin seed layer tree) (treePath (oneTimeKey seed secret layer tree) (hyperJoin seed layer tree) k.rise 0 leaf) 0 leaf
        (oneTimeKey seed secret layer tree leaf) = hyperRoot k seed secret layer tree := by
      simpa [hyperRoot, Nat.div_eq_of_lt h, treeNode] using hc
    rw [hyperRecover, hyperSign, List.append_assoc, List.take_left' h1.1, List.drop_left' h1.1, List.take_left' h2.1, oneTimeRecover_sign,
      hr, ← List.drop_drop, List.drop_left' h1.1, List.drop_left' h2.1, ih _ _ _ _ (Nat.mod_lt _ (Nat.two_pow_pos _)),
      Nat.div_div_eq_div_mul, ← Nat.pow_add, show layer + 1 + n = layer + (n + 1) by omega, Nat.mul_succ, Nat.add_comm k.rise]

/-- A few-time signature leads to the key that made it, whatever was signed. -/
def fewKey (k : SlhSet) (seed secret : List Byte) (tree pair : Nat) : List Byte :=
  fewRoots seed tree pair ((List.range k.forsTrees).map fun t =>
    treeNode (fun i => fewLeaf seed tree pair i (fewSecret seed secret tree pair i)) (fewJoin seed tree pair) k.forsRise t)

theorem fewIndex_tree (k : SlhSet) (digest : List Byte) (t : Nat) : fewIndex k digest t / 2 ^ k.forsRise = t := by
  rw [fewIndex, Nat.mul_comm, Nat.mul_add_div (Nat.two_pow_pos _), Nat.div_eq_of_lt (Nat.mod_lt _ (Nat.two_pow_pos _)), Nat.add_zero]

theorem fewRecover_sign (k : SlhSet) (seed secret : List Byte) (tree pair : Nat) (digest : List Byte) :
    fewRecover k seed tree pair digest (fewSign k seed secret tree pair digest) = fewKey k seed secret tree pair := by
  refine congrArg (fewRoots seed tree pair) ?_
  apply List.map_congr_left
  intro t ht
  have hp := flatMap_part (fun t => fewSecret seed secret tree pair (fewIndex k digest t) ::
      treePath (fun i => fewLeaf seed tree pair i (fewSecret seed secret tree pair i)) (fewJoin seed tree pair) k.forsRise 0
        (fewIndex k digest t)) (1 + k.forsRise) (List.range k.forsTrees) (fun a _ => (fewSign_part k seed secret tree pair _).1) t t
    (by rw [List.getElem?_range (List.mem_range.mp ht)])
  have hc := climb_path (fun i => fewLeaf seed tree pair i (fewSecret seed secret tree pair i)) (fewJoin seed tree pair) k.forsRise 0
    (fewIndex k digest t)
  rw [fewIndex_tree, Nat.zero_add] at hc
  simp only [fewSign, hp, List.tail_cons, List.headD_cons]
  exact hc

/-! ### Signing and verifying -/

/-- The blocks of a signature. -/
def slhParts (k : SlhSet) (secret prf seed fresh : List Byte) (context : String) (message : List Byte) : List (List Byte) :=
  let m := pureMessage context message
  let random := shake256 (prf ++ fresh ++ m) 32
  let p := slhPicks k random (slhPublic k seed secret) m
  let few := fewSign k seed secret p.2.1 p.2.2 p.1
  random :: (few ++ hyperSign k seed secret k.layers 0 p.2.1 p.2.2 (fewRecover k seed p.2.1 p.2.2 p.1 few))

theorem slhSign_flatten (k : SlhSet) (secret prf seed fresh : List Byte) (context : String) (message : List Byte) :
    slhSign k secret prf seed fresh context message = (slhParts k secret prf seed fresh context message).flatten := rfl

theorem fewSign_blocks (k : SlhSet) (seed secret : List Byte) (tree pair : Nat) (digest : List Byte) :
    (fewSign k seed secret tree pair digest).length = k.forsTrees * (1 + k.forsRise) ∧
      ∀ b ∈ fewSign k seed secret tree pair digest, b.length = 32 := by
  refine ⟨?_, fun b hb => ?_⟩
  · rw [fewSign, flatMap_parts _ (1 + k.forsRise) _ fun a _ => (fewSign_part k seed secret tree pair _).1, List.length_range]
  · obtain ⟨t, -, hb⟩ := List.mem_flatMap.mp hb
    exact (fewSign_part k seed secret tree pair _).2 b hb

theorem slhParts_blocks (k : SlhSet) (secret prf seed fresh : List Byte) (context : String) (message : List Byte) :
    (slhParts k secret prf seed fresh context message).length = k.blocks ∧
      ∀ b ∈ slhParts k secret prf seed fresh context message, b.length = 32 := by
  unfold slhParts
  refine ⟨?_, fun b hb => ?_⟩
  · simp only [List.length_cons, List.length_append, (fewSign_blocks k seed secret _ _ _).1, (hyperSign_blocks k seed secret _ _ _ _ _).1,
      SlhSet.blocks]
    omega
  · rcases List.mem_cons.mp hb with rfl | hb
    · exact shake256_length _ _
    · rcases List.mem_append.mp hb with hb | hb
      · exact (fewSign_blocks k seed secret _ _ _).2 b hb
      · exact (hyperSign_blocks k seed secret _ _ _ _ _).2 b hb

theorem slhSign_length (k : SlhSet) (secret prf seed fresh : List Byte) (context : String) (message : List Byte) :
    (slhSign k secret prf seed fresh context message).length = 32 * k.blocks := by
  have h := slhParts_blocks k secret prf seed fresh context message
  rw [slhSign_flatten, flatten_length32 _ h.2, h.1]

theorem slhPublic_length (k : SlhSet) (seed secret : List Byte) (h : seed.length = 32) : (slhPublic k seed secret).length = 64 := by
  have hr : (slhRoot k seed secret).length = 32 :=
    treeNode_length (oneTimeKey_length _ _ _ _) (hyperJoin_length _ _ _) _ _
  rw [slhPublic, List.length_append, h, hr]

/-- A signature verifies under the public key of the seeds that made it. -/
theorem slhVerify_sign (k : SlhSet) (hk : 0 < k.layers) (secret prf seed fresh : List Byte) (context : String) (message : List Byte)
    (h : seed.length = 32) :
    slhVerify k (slhPublic k seed secret) context message (slhSign k secret prf seed fresh context message) = true := by
  have hp := slhParts_blocks k secret prf seed fresh context message
  have hb : blocks32 k.blocks (slhSign k secret prf seed fresh context message) = slhParts k secret prf seed fresh context message := by
    rw [slhSign_flatten, ← hp.1, blocks32_flatten _ hp.2]
  obtain ⟨n, hn⟩ : ∃ n, k.layers = n + 1 := ⟨k.layers - 1, by omega⟩
  have hseed : (slhPublic k seed secret).take 32 = seed := List.take_left' h
  have hroot : (slhPublic k seed secret).drop 32 = slhRoot k seed secret := List.drop_left' h
  simp only [slhVerify, hb, hseed, hroot, slhPublic_length k seed secret h, slhSign_length, decide_true, Bool.true_and, decide_eq_true_eq]
  simp only [slhParts, List.headD_cons]
  generalize hpk : slhPicks k _ (slhPublic k seed secret) (pureMessage context message) = p
  have hleaf : p.2.2 < 2 ^ k.rise := by subst hpk; exact Nat.mod_lt _ (Nat.two_pow_pos _)
  have htree : p.2.1 < 2 ^ (k.rise * n) := by
    subst hpk
    have := Nat.mod_lt (beNat (((shake256 (shake256 (prf ++ fresh ++ pureMessage context message) 32 ++ slhPublic k seed secret ++
      pureMessage context message) k.digestLen).drop ((k.forsTrees * k.forsRise + 7) / 8)).take ((k.treeBits + 7) / 8)))
      (Nat.two_pow_pos k.treeBits)
    simpa [slhPicks, SlhSet.treeBits, hn] using this
  have hf := (fewSign_blocks k seed secret p.2.1 p.2.2 p.1).1
  rw [List.drop_one, List.tail_cons, ← List.drop_drop, List.drop_one, List.tail_cons, List.take_left' hf, List.drop_left' hf, hn,
    hyperRecover_sign k seed secret n _ _ _ _ hleaf, Nat.div_eq_of_lt htree, slhRoot, hn, Nat.zero_add, Nat.add_sub_cancel]

end Sys2Proof.Machine
end

