-- ==== Sys2Proof/Tests/Slice0.lean ====
section
/-! SUPPORT. Tests: the well-formedness smoke, the spec's worked examples, and a witness for the hypotheses of every obligation. -/

namespace Sys2Proof.Tests

-- One theorem at a time: many kernel evaluations at once hold many threads.
set_option Elab.async false
open Sys2Proof.Machine

/-! ### States for witnesses -/

/-- A ring of 64 entries. -/
def ring (kind : BitVec 2) (base : BitVec 64) : Ring :=
  { Ring.reset with kind := kind, log2n := 6, cq := 1, base := base, idx := 0x20000, en := true }

/-- An attached function with a submission ring, a completion ring, a presentation queue and an event ring. -/
def fn0 : Fn :=
  { Fn.reset with state := .attached, leaseEnd := 2000000000, cfg := { PcieCfg.reset with vfEnable := true, numVfs := 3 }
                  rings := [(0, ring 0 0x10000), (1, ring 1 0x11000), (2, ring 2 0x12000), (3, ring 3 0x13000)] }

/-- A context with an open job, counters 0 to 3, slots 0 to 3, an HBM page at 0, a page of state SRAM at 65536, a host window and quads
to spare. -/
def ctx0 : Ctx :=
  { Ctx.reset with
    weight := 1, rtok := true, syncCount := 4, slotCount := 4, streamQuota := 2, dquota := 16
    job := some { tag := 1, span := 0, faulted := false, ender := none }
    pool0 := { Pool.empty with quota := 8, all := [1, 2, 5], free := [2] }
    pool1 := { Pool.empty with quota := 8, all := [3, 4, 8], free := [3, 4] }
    root := some 20, tables := [(0, 21), (2 ^ 30, 22)]
    pages := [(0, pteWord (Pte.leaf 0 true false 1 0)), (1, pteWord (Pte.leaf 1 true false 8 0))]
    hwins := [(0, { HWin.reset with base := 0x40000, pages := 2, en := true, w := true, mapped := some (0x40000, 2, true) })] }

/-- An engine that runs, with the PF attached and context 0 alive. -/
def live : State :=
  { State.reset with
    boot := { Boot.reset with stage := 5, linkUp := true, released := true }, fns := [(0, fn0)], ctxs := [(0, ctx0)]
    store0 := { fresh := 16384, back := [9] }, time := { Time.reset with dtime := 1000 } }

/-- The same engine with another context 0. -/
def withCtx (k : Ctx) : State := { live with ctxs := [(0, k)] }

/-- A request of function 0 in class IA, and one in class RT. -/
def hdr : ReqHeader := { fn := 0, sq := 0, cls := 1, imm := false, fence := false, deadline := 0, timeout := 0, cid := 7 }
def rtHdr : ReqHeader := { hdr with cls := 0, deadline := 5000 }

/-- Context 0 without a job. -/
def idle : State := withCtx { ctx0 with job := none }

theorem live_alone : alone live hdr := ⟨by decide, ⟨rfl, rfl, rfl, rfl⟩, by simp [tilesIdle, live, State.reset], by decide⟩
theorem ctx_alone (k : Ctx) (hm : mayFetch (withCtx k) 0 0 = true) : alone (withCtx k) hdr :=
  ⟨hm, ⟨rfl, rfl, rfl, rfl⟩, by simp [tilesIdle, withCtx, live, State.reset], rfl⟩

/-- A command starts at once on the live engine. -/
theorem starts_of (c : Command) (ha : admits live hdr c [])
    (he : (entryOf (admitted live hdr c []) live.docket.nextId).any (eligible (admitted live hdr c [])) = true) :
    startsAlone live hdr c := ⟨live_alone, ha, he⟩

/-- A command starts at once with another context 0. -/
theorem starts_with (k : Ctx) (c : Command) (hm : mayFetch (withCtx k) 0 0 = true) (ha : admits (withCtx k) hdr c [])
    (he : (entryOf (admitted (withCtx k) hdr c []) live.docket.nextId).any (eligible (admitted (withCtx k) hdr c [])) = true) :
    startsAlone (withCtx k) hdr c := ⟨ctx_alone k hm, ha, he⟩

/-! ### Witnesses: the machine -/

theorem witness_emptyQueueTicks :
    State.reset.pending = [] ∧ ticking State.reset = true ∧ ticking { State.reset with pins := { State.reset.pins with perstHigh := false } } = false ∧
      State.reset.span.port0.lostAt = none ∧ State.reset.span.port1.lostAt = none := by decide

theorem witness_commands : ∃ t : State, exec (.d3hotEntry 0) live = .next t ∧ memoriesOk live ∧ step live = .next (idleTick live) :=
  ⟨_, rfl, by simp [memoriesOk, live, State.reset, tblWf], rfl⟩

/-! ### Witnesses: ring commands -/

/-- A Docket that holds one entry. -/
def holding (x : Entry) : State := { live with docket := { entries := [(0, x)], nextSeq := 1, nextId := 1, starts := 0, turn := 0xFF } }

/-- An entry that is READY. -/
def readyEntry (h : ReqHeader) (c : Command) : Entry := { newEntry live h c [] with state := .ready, inJob := true }

theorem witness_frameOfRetirement : calm live ∧ ∃ x, tilesIdle (holding x) ∧ entryOf (holding x) 0 = some x ∧ childrenOf (holding x) 0 = [] :=
  ⟨⟨rfl, rfl, rfl, rfl⟩, readyEntry hdr .nop, by simp [tilesIdle, holding, live, State.reset], rfl, rfl⟩

theorem witness_admission :
    (alone live hdr ∧ admits live hdr (.syncWait { cidx := 1, value := 5 }) [] ∧ startsAtOnce (.syncWait { cidx := 1, value := 5 }) = false) ∧
      admitCheck (fetched live hdr (.syncWait { cidx := 4, value := 5 })) hdr (.syncWait { cidx := 4, value := 5 }) false false = .error stInvalid :=
  ⟨⟨live_alone, rfl, rfl⟩, rfl⟩

/-- The engine with VF 1 attached as well. -/
def twoFns : State := { live with fns := [(0, fn0), (1, fn0)], ctxs := [(0, ctx0), (1, ctx0)] }

theorem witness_vf : alone twoFns { hdr with fn := 1 } ∧ 0x80 ≤ opcodeOf (.contextDestroy 0) ∧ (hdr.cls ≠ 3) :=
  ⟨⟨by decide, ⟨rfl, rfl, rfl, rfl⟩, by simp [tilesIdle, twoFns, live, State.reset], by decide⟩, by decide, by decide⟩

theorem witness_completion : ∃ x, entryOf (holding x) 0 = some x ∧ tilesIdle (holding x) ∧ takesDma (holding x) 0 = true ∧
    (ringOf (holding x) 0 1).kind = 1 ∧ (ringOf (holding x) 0 1).ien = false ∧ (holding x).hostMem.wf = true ∧
    (∀ k, (counterOf (holding x) (0x2000 + 32 * 0 + k)).evten = false) :=
  ⟨readyEntry hdr .nop, rfl, by simp [tilesIdle, holding, live, State.reset], rfl, rfl, rfl, rfl, fun _ => rfl⟩

/-- A state with the counters of context 0 set. -/
def counting (v : Sync) : State := { live with syncs := [(1, v)] }

theorem witness_jobs :
    startsAlone live hdr .nop ∧ startsAlone idle hdr (.jobBegin { tag := 1, spanjob := 0, flags := 1 }) ∧
      startsAlone idle hdr (.jobBegin { tag := 1, spanjob := 0, flags := 0 }) ∧ startsAlone live hdr (.jobEnd 0) :=
  ⟨starts_of _ rfl (by decide), starts_with _ _ rfl rfl (by decide), starts_with _ _ rfl rfl (by decide), starts_of _ rfl (by decide)⟩

theorem witness_signals (v : Sync) (hv : v = { Sync.reset with value := 0xFFFFFFFFFFFFFFFB } ∨ v = { Sync.reset with value := 0xFFFFFFFFFFFFFFFA } ∨
    v = { Sync.reset with poisoned := true }) :
    startsAlone (counting v) hdr (.syncSignal { cidx := 1, value := 5 }) ∧
      syncIndex (began (counting v) hdr (.syncSignal { cidx := 1, value := 5 })) 0 1 = some 1 ∧
      syncOf (began (counting v) hdr (.syncSignal { cidx := 1, value := 5 })) 1 = v := by
  rcases hv with rfl | rfl | rfl <;>
    exact ⟨⟨⟨by decide, ⟨rfl, rfl, rfl, rfl⟩, by simp [tilesIdle, counting, live, State.reset], by decide⟩, rfl, by decide⟩, rfl, rfl⟩

/-- COPYs that move, fail and break the rule. -/
def window : BitVec 64 := 0x500000000000

theorem witness_copy :
    startsAlone live hdr (.copy { dir := 1, cslot := 0, src := window, dst := 0x2000, len := 32 }) ∧
      (copyGo 0 2 (Source.engineOf 0) none 1 false false 32 3 live window.toNat 0x2000 32).1 = .done ∧
      (copyGo 0 2 (Source.engineOf 0) none 1 false false 32 3 live 0x800000 0x2000 32).1 = .failed (.trans 1 0x800000 false) ∧
      (copyGo 0 2 (Source.engineOf 0) none 0 false false 32 3 live 0x2000 0x800000 32).1 = .failed (.trans 1 0x800000 true) ∧
      (copyGo 0 2 (Source.engineOf 0) none 1 false false 32 3 live 0x20 0x2000 32).1 = .rule ∧
      (copyGo 0 2 (Source.engineOf 0) none 0 false false 32 3 live 0x2000 0x20 32).1 = .rule :=
  ⟨starts_of _ rfl (by decide), by decide, by decide, by decide, by decide, by decide⟩

/-- A CONTEXT_CREATE of context 1. -/
def create1 : ContextCreateBody :=
  { ctx := 1, flags := 0, weight := 1, sync := 4, cslots := 4, quota0 := 8, quota1 := 8, streams := 2, dquota := 4 }

theorem witness_pools :
    startsAlone live hdr (.poolGrow { tier := 0, flags := 0, quads := 1, rtgt := 0 }) ∧ (storeTake live false 1).map Prod.fst = some [9] ∧
      startsAlone live hdr (.poolShrink { tier := 0, flags := 0, quads := 1, rtgt := 0 }) ∧
      startsAlone live hdr (.contextCreate create1) ∧
      firstFit 16384 4 (live.ctxs.map fun p => (p.2.syncBase, p.2.syncCount)) = some 4 ∧
      startsAlone live hdr (.contextDestroy 0) ∧ startsAlone live hdr (.contextDestroy 9) :=
  ⟨starts_of _ rfl (by decide), by decide, starts_of _ rfl (by decide), starts_of _ rfl (by decide), by decide,
    starts_of _ rfl (by decide), starts_of _ rfl (by decide)⟩

/-- A package with an empty manifest in window 1, and a context that holds it. -/
def pack1 : Package :=
  { handle := 1, lunit := 0, cbase := 0, slotbase := 0, manifest := [], graph := [], digest := [], serials := [], kvTier := false, unloading := false }
def ctxP : Ctx :=
  { ctx0 with packages := [(1, pack1)], pool0 := { ctx0.pool0 with all := [1, 2, 5, 6, 7, 10], free := [2, 6, 7] }
              pool1 := { ctx0.pool1 with all := [3, 4, 8, 11, 12, 13, 14], free := [3, 4, 11, 12, 13, 14] } }

/-- Streams of that package: one ACTIVE without positions, one in Fallow, one with index 3 mapped, one whose KV lies in state SRAM. -/
def stream1 : Stream := { Stream.reset with state := .active, handle := 1 }
def fallow1 : Stream := { stream1 with state := .fallow }
def sram1 : Stream := { stream1 with kvTier := true }
def mapped1 : Stream := { stream1 with leaves := [(128 * 3, { KvLeaf.none_ with map := true, frame := 40 })] }

/-- The live engine with that package and streams 5, 6 and 7. -/
def streaming : State := { withCtx ctxP with streams := [(5, stream1), (6, mapped1), (7, fallow1), (8, sram1)] }

theorem streaming_starts (c : Command) (ha : admits streaming hdr c [])
    (he : (entryOf (admitted streaming hdr c []) live.docket.nextId).any (eligible (admitted streaming hdr c [])) = true) :
    startsAlone streaming hdr c :=
  ⟨⟨rfl, ⟨rfl, rfl, rfl, rfl⟩, by simp [tilesIdle, streaming, withCtx, live, State.reset], rfl⟩, ha, he⟩

/-- KV_MAPs of index 0: an alias of index 3 of stream 6, and an import from the host window. -/
def alias0 : KvMapBody := { stream := 5, mode := 1, first := 1, npages := 1, sstream := 6, sfirst := 3, src := 0 }
def import0 : KvMapBody := { stream := 8, mode := 0, first := 1, npages := 1, sstream := 0, sfirst := 0, src := window }

theorem witness_streams :
    startsAlone streaming hdr (.streamOpen { pkg := 1, profile := 0, result := 0x9000 }) ∧
      (ctxP.pool1.takeWhole (regionZeroPages pack1.manifest 0).length true).isSome = true ∧ openCount streaming 0 = 4 ∧
      openCount (withCtx ctxP) 0 < ctxP.streamQuota ∧
      startsAlone streaming hdr (.streamUnpark 5) ∧ startsAlone streaming hdr (.streamUnpark 7) ∧
      openIn (began streaming hdr (.streamUnpark 7)) 0 7 = true ∧
      (swapIn (began streaming hdr (.streamUnpark 7)) 0 7 { cls := 2, ctx := some 0, entry := some 0 } true).1 = .done :=
  ⟨streaming_starts _ rfl (by decide), by decide, by decide, by decide, streaming_starts _ rfl (by decide),
    streaming_starts _ rfl (by decide), by decide, by decide⟩

theorem witness_mapping :
    startsAlone streaming hdr (.kvMap alias0) ∧ mapBad (began streaming hdr (.kvMap alias0)) 0 alias0 = false ∧
      sourceBad (began streaming hdr (.kvMap alias0)) 0 alias0 = (false, began streaming hdr (.kvMap alias0)) ∧
      (backTables (began streaming hdr (.kvMap alias0)) 0 5 (namedIndices stream1 1 1)).isSome = true ∧
      startsAlone streaming hdr (.kvMap import0) ∧ mapBad (began streaming hdr (.kvMap import0)) 0 import0 = false ∧
      startsAlone streaming hdr (.kvUnmap { stream := 6, first := 3, npages := 1 }) :=
  ⟨streaming_starts _ rfl (by decide), by decide, by decide +kernel, by decide, streaming_starts _ rfl (by decide), by decide,
    streaming_starts _ rfl (by decide)⟩

/-! ### A KV_MAP import of zeros from the host window -/

theorem memReadN_nil (a n : Nat) : memReadN [] a n = List.replicate n 0 := by
  induction n generalizing a with
  | zero => rfl
  | succ n ih => rw [memReadN, ih]; rfl

theorem memWriteN_zeros (a n : Nat) : memWriteN [] a (List.replicate n 0) = [] := by
  induction n generalizing a with
  | zero => rfl
  | succ n ih => exact ih (a + 1)

theorem leNat_zeros (n : Nat) : leNat (List.replicate n 0) = 0 := by
  induction n with
  | zero => rfl
  | succ n ih => rw [List.replicate_succ, leNat, ih]; rfl

/-- A state whose context 0 has the host window, and whose host memory is empty. -/
def zeroHost (s : State) : Prop :=
  (∃ k, ctxOf s 0 = some k ∧ k.hwins = ctx0.hwins) ∧ s.env = State.reset.env ∧ s.hostMem = []

theorem zeroHost_block {s : State} (h : zeroHost s) {d n cls : Nat} (hd : d < 131072) :
    readBlock s 0 (window.toNat + d) n cls (Source.engineOf 0) = (.ok (List.replicate n 0), s) := by
  obtain ⟨⟨k, hk, hw⟩, he, hm⟩ := h
  have hwin : window.toNat = 0x500000000000 := rfl
  have hmap : (tblGetD k.hwins ((window.toNat + d - 0x500000000000) / 2 ^ 40) HWin.reset).mapped = some (0x40000, 2, true) := by
    have : (window.toNat + d - 0x500000000000) / 2 ^ 40 = 0 := by omega
    rw [this, hw]
    rfl
  have ht : ∃ a, Machine.translate s 0 (window.toNat + d) false (Source.engineOf 0) = .ok (.host a) := by
    have h1 : ¬ 2 ^ 48 ≤ window.toNat + d := by omega
    have h2 : ¬ window.toNat + d < 0x400000000000 := by omega
    have h3 : ¬ window.toNat + d < 0x500000000000 := by omega
    have h4 : window.toNat + d < 0x600000000000 := by omega
    have h5 : ¬ 2 ≤ (window.toNat + d) % 2 ^ 40 / 65536 := by omega
    refine ⟨(0x40000#64).toNat + 65536 * ((window.toNat + d) % 2 ^ 40 / 65536) + (window.toNat + d) % 65536, ?_⟩
    unfold Machine.translate
    simp only [hk, if_neg h1, if_neg h2, if_neg h3, if_pos h4, hmap, if_neg h5]
    rfl
  obtain ⟨a, ht⟩ := ht
  have hk2 : walked s 0 (window.toNat + d) cls (Source.engineOf 0) = s := by
    unfold walked
    rw [hk]
    exact if_pos (by omega)
  unfold readBlock
  rw [ht]
  simp only [hk2, hostRead, he, hm, memReadN_nil]
  rfl

theorem zeroHost_go {s : State} (h : zeroHost s) {cls : Nat} (n : Nat) : ∀ (fuel d : Nat) (acc : List Byte), n ≤ fuel →
    d % 4096 = 0 → d + 4096 * n ≤ 131072 →
    readGo 0 cls (Source.engineOf 0) fuel s (window.toNat + d) (4096 * n) acc = (.ok (acc ++ List.replicate (4096 * n) 0), s) := by
  induction n with
  | zero =>
    intro fuel d acc _ _ _
    cases fuel <;> simp [readGo]
  | succ n ih =>
    intro fuel d acc hf hm hd
    obtain ⟨f, rfl⟩ : ∃ f, fuel = f + 1 := ⟨fuel - 1, by omega⟩
    obtain ⟨m, hm1⟩ : ∃ m, 4096 * (n + 1) = m + 1 := ⟨4096 * n + 4095, by omega⟩
    have hwin : window.toNat = 0x500000000000 := rfl
    have hk : min (m + 1) (4096 - (window.toNat + d) % 4096) = 4096 := by omega
    rw [hm1, readGo, hk, zeroHost_block h (by omega)]
    show readGo 0 cls (Source.engineOf 0) f s (window.toNat + d + 4096) (m + 1 - 4096) (acc ++ List.replicate 4096 0) = _
    rw [show m + 1 - 4096 = 4096 * n by omega, show window.toNat + d + 4096 = window.toNat + (d + 4096) by omega,
      ih f (d + 4096) _ (by omega) (by omega) (by omega), List.append_assoc, List.replicate_append_replicate,
      show 4096 + 4096 * n = m + 1 by omega]
    omega

theorem zeroHost_read {s : State} (h : zeroHost s) (cls : Nat) :
    readVA s 0 window.toNat 69632 cls (Source.engineOf 0) = (.ok (List.replicate 69632 0), s) := by
  have := zeroHost_go h (cls := cls) 17 19 0 [] (by omega) (by omega) (by omega)
  rw [Nat.add_zero, List.nil_append] at this
  exact this

/-- The state once the table pages of index 1 are backed. -/
def backed0 : State := (backTables (began streaming hdr (.kvMap import0)) 0 8 (namedIndices sram1 1 1)).getD streaming


def kvSlot0 : Option Nat := streamKvSlot (began streaming hdr (.kvMap import0)) 0 sram1
/-- What the import's accesses serve. -/
def service0 : Service := { cls := 2, ctx := some 0, entry := some 0 }

def noImport : Import := { leaves := [], exps := [], slots := [] }

theorem backed0_zero : zeroHost backed0 :=
  ⟨⟨(ctxOf backed0 0).getD ctxP, by decide +kernel, by decide +kernel⟩, by decide +kernel, by decide +kernel⟩


theorem import_code :
    (writeFrom backed0 0 (streamOf backed0 8).heads (streamOf backed0 8).kvTier kvSlot0 [] false service0).isSome = true := by decide +kernel

theorem any_zeros (n : Nat) : ((List.replicate n (0 : Byte)).any fun b => b != 0) = false := by
  induction n with
  | zero => rfl
  | succ n ih => rw [List.replicate_succ, List.any_cons, ih]; rfl

theorem import_one (bs : List Byte) (h : bs = List.replicate 69632 0) :
    ∃ a w, importOne backed0 0 8 kvSlot0 service0 1 0 bs 0#64 noImport = .ok (a, w) := by
  have hz : ((bs.drop 66056).any fun b => b != 0) = false := by rw [h, List.drop_replicate, any_zeros]
  have hb : bytesMem (bs.take 65536) = [] := by rw [h, List.take_replicate, bytesMem, memWriteN_zeros]
  unfold importOne
  simp only [hz, hb, Bool.false_eq_true, if_false]
  obtain ⟨r, hr⟩ := Option.isSome_iff_exists.mp import_code
  rw [hr]
  exact ⟨_, _, rfl⟩

theorem not_late (p : Nat) (q : Nat → Nat) :
    ((List.range 64).any fun r => (0#64).getLsbD r && decide (p ≤ q r)) = false := by
  simp

theorem witness_import :
    mapBad (began streaming hdr (.kvMap import0)) 0 import0 = false ∧ sram1.state ≠ .faulted ∧
      backTables (began streaming hdr (.kvMap import0)) 0 8 (namedIndices sram1 1 1) = some backed0 ∧
      ∃ a w keys, importGo 0 8 (Source.engineOf 0) service0 kvSlot0 import0 [(0, 0)] backed0 0 noImport = (.ok a, w, keys) := by
  refine ⟨by decide, by decide, by decide +kernel, ?_⟩
  obtain ⟨a, w, hw⟩ := import_one _ rfl
  have hl : (streamOf backed0 8).layers = 1 := by decide +kernel
  have hf : fieldAt (List.replicate 69632 (0 : Byte)) 66048 8 = 0 := by
    rw [fieldAt, List.drop_replicate, List.take_replicate, leNat_zeros]
  have hi : ringIndex (streamOf backed0 8) import0.first.toNat 0 = 1 := by decide +kernel
  unfold importGo
  simp only [hl, Nat.zero_mul, Nat.add_zero]
  rw [show import0.src.toNat = window.toNat from rfl, show service0.cls = 2 from rfl, zeroHost_read backed0_zero 2]
  simp only [hf, hi, if_true, not_late, Bool.and_false, Bool.false_eq_true, if_false, hw]
  exact ⟨_, _, _, rfl⟩

/-! ### Witnesses: tables, packages, the Library and the firmware -/

/-- A TABLE_LOAD of slot 1 from the host window, and host memory with a table image of one plane there. -/
def table1 : TableLoadBody := { slot := 1, mode := 0, npc := 0, nblk := 0, src := window, result := 0x9000 }
def tabled : State := { live with hostMem := [(0x40010, 0x11)] }
def image1 : List Byte := List.replicate 16 0 ++ 0x11 :: List.replicate 127 0

theorem tabled_starts (c : Command) (ha : admits tabled hdr c [])
    (he : (entryOf (admitted tabled hdr c []) live.docket.nextId).any (eligible (admitted tabled hdr c [])) = true) :
    startsAlone tabled hdr c := ⟨⟨by decide, ⟨rfl, rfl, rfl, rfl⟩, by simp [tilesIdle, tabled, live, State.reset], by decide⟩, ha, he⟩

set_option maxRecDepth 4000 in
theorem witness_tableLoad : startsAlone tabled hdr (.tableLoad table1) ∧
    slotOfPackage (began tabled hdr (.tableLoad table1)) 0 1 = false ∧
    (tableSource (began tabled hdr (.tableLoad table1)) 0 2 (Source.engineOf 0) table1).1 = .ok image1 ∧ (parseImage image1).isSome = true :=
  ⟨tabled_starts _ rfl (by decide), by decide, by decide +kernel, by decide +kernel⟩

theorem witness_packageUnload : startsAlone (withCtx ctxP) hdr (.packageUnload 1) ∧
    packageOf ctxP 1 = some pack1 ∧ pack1.unloading = false :=
  ⟨starts_with _ _ rfl rfl (by decide), by decide, rfl⟩

def write1 : LibWriteBody := { lunit := 0, nunits := 1, src := 0x10000 }
def erase1 : LibEraseBody := { first := 1, nblk := 2 }

theorem witness_library :
    startsAlone live hdr (.libWrite write1) ∧ libBlockOf live 0 = LibBlock.reset ∧ LibBlock.reset.state = .erased ∧
      unitsUsed live 0 1 = false ∧ startsAlone live hdr (.libErase erase1) ∧ blockUsed live 1 = false ∧ blockUsed live 2 = false ∧
      liveChannels live ≠ [] ∧
      (replaceMarked (setLibBlock live 1 { libBlockOf live 1 with state := .erasePending }) 1).isSome = true :=
  ⟨starts_of _ rfl (by decide), by decide, rfl, by decide, starts_of _ rfl (by decide), by decide, by decide, by decide, by decide⟩

/-- The unit's data does not come from the host in time. -/
def lateUnit : State := { live with env := { live.env with hostLate := [(0x10000, 65536)] } }
theorem witness_libWrite :
    (writeUnits 0 0x10000 1 0 (began live hdr (.libWrite write1))).1 = stSuccess ∧ startsAlone lateUnit hdr (.libWrite write1) ∧
      (writeUnits 0 0x10000 1 0 (began lateUnit hdr (.libWrite write1))).1 = stLowerLate :=
  ⟨by decide +kernel, ⟨⟨by decide, ⟨rfl, rfl, rfl, rfl⟩, by simp [tilesIdle, lateUnit, live, State.reset], by decide⟩, rfl, by decide⟩,
    by decide +kernel⟩

def attest1 : AttestBody := { out := 0x9000, ctx := 0, mode := 0, nonce := 7 }

theorem witness_attest : startsAlone live hdr (.attest attest1) := starts_of _ rfl (by decide)
theorem witness_update : startsAlone live hdr (.fwUpdate { src := 0x9000, len := 0x20000, mode := 2 }) ∧
    live.fuses.lcs ≠ 4 ∧ slotMaskLive live (idleSlot live) ≠ 0 := ⟨starts_of _ rfl (by decide), by decide, by decide⟩

/-! ### Witnesses: rings -/

/-- The live engine with another ring i of the PF. -/
def withRing (i : Nat) (r : Ring) : State := { live with fns := [(0, { fn0 with rings := tblPut fn0.rings i r })] }

theorem witness_submissionDoorbell : ready live = true ∧ barOpen live 0 = true ∧ (ringOf live 0 0).en = true ∧ (ringOf live 0 0).kind = 0 ∧
    ((63 : BitVec 16) - (ringOf live 0 0).own).toNat ≤ 2 ^ (ringOf live 0 0).log2n.toNat - 1 ∧
    ¬ ((64 : BitVec 16) - (ringOf live 0 0).own).toNat ≤ 2 ^ (ringOf live 0 0).log2n.toNat - 1 := by decide

/-- Rings with two entries that the host has not consumed. -/
def produced (kind : BitVec 2) : State := withRing 4 { ring kind 0x14000 with own := 2 }

theorem witness_consumedDoorbell : ∀ kind ∈ [(1 : BitVec 2), 2, 3], ready (produced kind) = true ∧ barOpen (produced kind) 0 = true ∧
    (ringOf (produced kind) 0 4).en = true ∧ (ringOf (produced kind) 0 4).kind = kind ∧
    (2 : BitVec 16) - (ringOf (produced kind) 0 4).host ≤ (ringOf (produced kind) 0 4).own - (ringOf (produced kind) 0 4).host ∧
    ¬ (3 : BitVec 16) - (ringOf (produced kind) 0 4).host ≤ (ringOf (produced kind) 0 4).own - (ringOf (produced kind) 0 4).host := by
  decide

theorem witness_badDoorbell : (ringOf live 0 9).en = false ∧ 2 ^ 16 ≤ (0x10000 : BitVec 32).toNat := by decide

/-- A ring that COMMIT and DISABLE act on, selected. -/
def selecting (i : BitVec 8) (r : Ring) : State :=
  { live with fns := [(0, { fn0 with ringSel := i, rings := tblPut fn0.rings i.toNat r })] }

theorem witness_ringsCommit :
    (servesWrite (selecting 5 { ring 1 0x15000 with en := false }) 0 ∧
      commitError (selecting 5 { ring 1 0x15000 with en := false }) 0 5 = 0) ∧
    (commitError (selecting 5 { ring 1 0x15000 with en := false, log2n := 1 }) 0 5 ≠ 0) ∧
    ((ringOf (selecting 0 (ring 0 0x10000)) 0 0).en = true ∧ (ringOf (selecting 0 (ring 0 0x10000)) 0 0).kind = 0) ∧
    ((ringOf (selecting 1 (ring 1 0x11000)) 0 1).kind = 1 ∧ namedAsCq (selecting 1 (ring 1 0x11000)) 0 1 = true) := by
  refine ⟨⟨?_, by decide⟩, by decide, by decide, by decide⟩
  unfold servesWrite
  decide

/-- A presentation queue that is BUSY while a PRESENT may still write to it, and one that nothing writes to. -/
def busyQueue : State :=
  { selecting 2 (ring 2 0x12000) with
    docket := { entries := [(0, readyEntry hdr (.present { pq := 2, flags := 0, notbefore := 0, cidx := 0, target := 0, tag := 0 }))]
                nextSeq := 1, nextId := 1, starts := 0, turn := 0xFF } }
def quietQueue : State := withRing 2 { ring 2 0x12000 with busy := true }

theorem witness_ringsDisable :
    stillWritten (setRing busyQueue 0 2 { ringOf busyQueue 0 2 with busy := true, err := 0 }) 0 2 = true ∧
      (ringOf busyQueue 0 2).en = true ∧ (ringOf busyQueue 0 2).kind = 2 ∧
      (ringOf quietQueue 0 2).busy = true ∧ stillWritten quietQueue 0 2 = false := by decide

/-- A ring with one entry to fetch. -/
def fetching : State := withRing 0 { ring 0 0x10000 with host := 1 }

theorem witness_ringFetch : mayFetch fetching 0 0 = true ∧ fetchTurn fetching = some (0, 0) ∧ fetchTurn live ≠ some (0, 0) ∧
    hostRead { fetching with env := { fetching.env with hostLate := [(0x10000, 64)] } } 0x10000 64 = .late ∧ (ringOf fetching 0 0).host = (ringOf fetching 0 0).own + 1 ∧
    (ringOf fetching 0 0).cq ≠ 0 ∧ hostRead fetching 0x10000 64 = .data (List.replicate 64 0) ∧
    hostRead { fetching with env := { fetching.env with hostErr := [(0x10000, 64)] } } 0x10000 64 = .error := by decide +kernel

theorem witness_moderation : takesDma live 0 = true ∧
    (fun r : Ring => r.en = true ∧ r.ien = true ∧ r.time ≠ 0 ∧ r.unsent ≠ 0 ∧ r.firstUnsent.toNat + 4000 * r.time.toNat ≤ 4000)
      { ring 1 0x11000 with ien := true, time := 1, unsent := 1, firstUnsent := 0 } := by decide

/-! ### Witnesses: the Docket -/

/-- A Docket with these entries. -/
def docketed (s : State) (l : Tbl Entry) : State := { s with docket := { entries := l, nextSeq := 10, nextId := 10, starts := 0, turn := 0xFF } }

/-- A TILE_RUN of a gang. -/
def run1 (gang : BitVec 8) : TileRunBody := { prog := 0x2000, len := 16, gang := gang, arg0 := 1, arg1 := 2, arg2 := 3 }
def runEntry (h : ReqHeader) (gang : BitVec 8) : Entry := { readyEntry h (.tileRun (run1 gang)) with seq := 1 }
def tileOp1 (e : Nat) (x : Entry) (g : Nat) : TileOp := { e := e, x := x, gang := g }

/-- One RT gang that may start; the same beside an OVERDUE one; a gang of 96 while tile 3 runs another program. -/
def rtReady : State := docketed live [(0, runEntry rtHdr 4)]
def bkOld : Entry := { runEntry { hdr with cls := 2 } 2 with overdue := true }
def rtAndOverdue : State := docketed live [(0, runEntry rtHdr 4), (1, bkOld)]
def crowded : State :=
  { docketed live [(0, runEntry hdr 96)] with tiles := [(3, { Tile.reset with entry := some 7 })] }

theorem witness_dispatch :
    (running rtReady = true ∧ (gangSize rtReady (runEntry rtHdr 4)).isSome = true ∧
      nextStart rtReady = some (tileOp1 0 (runEntry rtHdr 4) 4, false) ∧
      tilesOk rtReady (tileOp1 0 (runEntry rtHdr 4) 4) false [0, 1, 2, 3] = true) ∧
    (running crowded = true ∧ nextClaim crowded = some (tileOp1 0 (runEntry hdr 96) 96)) := by decide +kernel

theorem witness_realTime :
    rtOps rtReady ≠ [] ∧ nextStart rtReady = some (tileOp1 0 (runEntry rtHdr 4) 4, false) ∧
      rtOps rtAndOverdue ≠ [] ∧ nextStart rtAndOverdue = some (tileOp1 1 bkOld 2, true) ∧
      fits rtReady 4 = true ∧ claimBlocks rtReady 0 1 1 = false := by decide +kernel

/-- Entries that wait, or whose deadline or timeout has passed. -/
def late (x : Entry) : State := { docketed live [(0, x)] with time := { live.time with dtime := 20000000000 } }

theorem witness_limits :
    (∀ h ∈ [hdr, { hdr with cls := 2 }], running (late (runEntry h 1)) = true ∧ (runEntry h 1).overdue = false ∧
      (if h.cls = 1 then (late (runEntry h 1)).sched.ageIA.toNat else (late (runEntry h 1)).sched.ageBK.toNat) * 1000 <
        now (late (runEntry h 1)) - (runEntry h 1).readyTime) ∧
    deadlinePassed (late (runEntry rtHdr 1)) (runEntry rtHdr 1) = true ∧ (runEntry rtHdr 1).parent = none ∧
    (runEntry rtHdr 1).dispatched = false ∧ (runEntry hdr 1).admitTime + 1000000 * 1000 ≤ now (late (runEntry hdr 1)) := by
  decide +kernel

/-- Requests that retire: a TILE_RUN, and a STEP whose one part has settled. -/
def retiring : Entry := { runEntry hdr 1 with state := .retiring, dispatched := true }
def stepBody : StepBody := { batch := window, nstreams := 1, pq := 0xFFFF, out := window }
def part1 : Part :=
  { stream := 5, nodes := 1, tsrc := false, itemp := 0, topk := 1, parent := 0, tokens := [7], outcome := some stSuccess
    waiting := false, slots := [], reserved := [], recReserved := [], newRuns := [], basePos := 0, wave := 1, path := [], bonus := 0
    scores := [], draft := none, told := false }
def stepDone : Entry := { readyEntry hdr (.step stepBody) with state := .running, dispatched := true, parts := [part1] }

theorem witness_requestsRetire :
    (running (holding retiring) = true ∧ entryOf (holding retiring) 0 = some retiring ∧ tilesOf (holding retiring) [0] = [] ∧
      retiring.status = none ∧ (holding retiring).fw.handover = none) ∧
    (entryOf (holding stepDone) 0 = some stepDone ∧ (stepDone.parts.all fun p => p.outcome.isSome) = true ∧
      tilesOf (holding stepDone) (0 :: childrenOf (holding stepDone) 0) = []) := by decide +kernel

/-- A SYNC_WAIT for 5 at counter 1. -/
def waiter : Entry := readyEntry hdr (.syncWait { cidx := 1, value := 5 })
theorem witness_syncWait :
    running (holding waiter) = true ∧ fenceBlocked (holding waiter) waiter = false ∧ syncIndex (holding waiter) waiter.ctx 1 = some 1 ∧
      syncOf { holding waiter with syncs := [(1, { Sync.reset with value := 5 })] } 1 = { Sync.reset with value := 5 } ∧
      syncOf { holding waiter with syncs := [(1, { Sync.reset with poisoned := true })] } 1 = { Sync.reset with poisoned := true } := by
  decide

/-- Later starts on stream 5 and on presentation queue 2. -/
def on (c : Command) : State := docketed streaming [(0, readyEntry hdr c)]
def park5 : ParkBody := { stream := 5, flags := 0 }
def present2 : PresentBody := { pq := 2, flags := 0, notbefore := 0, cidx := 0xFFFF, target := 0, tag := 9 }

theorem witness_laterStarts :
    (running (on (.streamClose 5)) = true ∧ eligible (on (.streamClose 5)) (readyEntry hdr (.streamClose 5)) = true ∧
      outranked (on (.streamClose 5)) 0 (readyEntry hdr (.streamClose 5)) = false ∧ openIn (on (.streamClose 5)) 0 5 = true) ∧
    (eligible (on (.streamPark park5)) (readyEntry hdr (.streamPark park5)) = true ∧ (streamOf streaming 5).state = .active ∧
      outranked (on (.streamPark park5)) 0 (readyEntry hdr (.streamPark park5)) = false ∧
      (moveStream (noteStart (on (.streamPark park5)) 0) 0 5 true false { cls := 2, ctx := some 0, entry := some 0 }).1 = .done ∧
      ctxOf streaming 0 = some ctxP ∧ (ctxP.pool0.takeWhole (pagesIn ctxP 5 true).length false).isSome = true ∧
      (copyRegion streaming 0 true none (pagesIn ctxP 5 true) [] { cls := 2, ctx := some 0, entry := some 0 }).1 = .done ∧
      (copyRuns 0 5 true false none { cls := 2, ctx := some 0, entry := some 0 } (movedRuns (streamOf streaming 5) true) streaming).1 = .done) ∧
    eligible (on (.present present2)) (readyEntry hdr (.present present2)) = true ∧
    outranked (on (.present present2)) 0 (readyEntry hdr (.present present2)) = false := by decide +kernel

/-- A STEP that names stream 7, which is in Fallow. -/
def stepFallow : Entry := { readyEntry hdr (.step stepBody) with parts := [{ part1 with stream := 7, outcome := none, wave := 0 }] }
theorem witness_swapIn :
    running (docketed streaming [(0, stepFallow)]) = true ∧ ordered (docketed streaming [(0, stepFallow)]) stepFallow = true ∧
      (fallowStreams (docketed streaming [(0, stepFallow)]) stepFallow).contains 7 = true ∧
      deadlinePassed (docketed streaming [(0, stepFallow)]) stepFallow = false ∧
      (swapIn (docketed streaming [(0, stepFallow)]) 0 7 (requestService 0 stepFallow) false).1 = .done := by decide +kernel

/-- A TABLE_LOAD that is due. -/
def tableDue : Entry := { readyEntry hdr (.tableLoad table1) with state := .running, dispatched := true, image := image1, due := true }
theorem witness_tableInstall :
    running (holding tableDue) = true ∧ entryOf (holding tableDue) 0 = some tableDue ∧
      ctxSlot (holding tableDue) 0 1 = some CodecSlot.reset ∧ canInstall (holding tableDue) CodecSlot.reset = true ∧
      ((holding tableDue).docket.entries.any fun p =>
        decide (p.2.ctx = tableDue.ctx) && decide (p.2.seq < tableDue.seq) && waitingSlot p.2 == some 1) = false := by decide +kernel

/-- Context 0 under destruction, and wiped. -/
def dying : Ctx := { ctx0 with job := none, destroying := true }
theorem witness_destruction :
    ctxOf (withCtx dying) 0 = some dying ∧ dying.wiping = false ∧ dying.closed = [] ∧ contextBusy (withCtx dying) 0 = false ∧
      ctxOf (withCtx { dying with wiping := true }) 0 = some { dying with wiping := true } ∧
      (withCtx { dying with wiping := true }).docket.entries = [] ∧ ctx0.destroying = false ∧ ctx0.wiping = false := by decide

/-- A closed epoch that nothing holds, and one that entry 0 holds. -/
def closed (w : List Nat) : Ctx := { ctx0 with closed := [{ Epoch.none_ with id := 3, waits := w }] }
theorem witness_epochs :
    ((closed [0]).closed.find? fun q => q.id == 3) = some { Epoch.none_ with id := 3, waits := [0] } ∧
      ([0].any (holdsEpoch live)) = false ∧ ([0].any (holdsEpoch (holding retiring))) = true ∧
      slotsHeld live 0 { Epoch.none_ with id := 3, waits := [0] } = false := by decide

/-- An unload waits for a block in flight that holds a table of its package. -/
def unloading (holds : List Nat) : State :=
  { withCtx { ctx0 with packages := [(0, { pack1 with handle := 64, slotbase := 1, manifest := List.replicate 13 0 ++ [1] })] } with
    codecSlots := [(1, { CodecSlot.reset with
      cur := some { gen := 1, serial := 5, npc := 1, lengths := [], side := false }
      prev := some { gen := 2, serial := 6, npc := 1, lengths := [], side := false } })]
    tiles := [(2, { Tile.reset with inflight := [{ syncFlight with unit := 2, holds := holds }] })] }
theorem witness_slotsHeld :
    slotsHeld (unloading [5]) 0 { Epoch.none_ with id := 3, handle := some 64 } = true ∧
      slotsHeld (unloading []) 0 { Epoch.none_ with id := 3, handle := some 64 } = false := by decide

theorem witness_handover : running { live with fw := { live.fw with handover := some { entry := 0, slot := true, since := 0 } } } = true := by
  decide

/-- A background erase of block 2. -/
def erasing2 : State := { live with flash := { live.flash with erases := [{ block := 2, entry := none }] } }
theorem witness_erases :
    running erasing2 = true ∧ (erasing2.flash.erases.find? fun r => r.block == 2) = some { block := 2, entry := none } ∧
      liveChannels erasing2 ≠ [] ∧ erasing erasing2 7 2 = true ∧ erasing live 7 2 = false := by decide

theorem witness_lowerTier : running (holding stepDone) = true ∧ entryOf (holding stepDone) 0 = some stepDone ∧ stepDone.parent = none ∧
    stepDone.dispatched = true ∧ stepDone.state = .running ∧ lateDue (late stepDone) stepDone = true := by decide

/-- A STEP whose batch table does not come in time. -/
def lateTable : State := { live with env := { live.env with hostLate := [(0x500000000000, 64)] } }
def lateStep : StepBody := { stepBody with out := 0x500000001000 }
theorem witness_lateTable :
    alone lateTable hdr ∧ admitCheck (fetched lateTable hdr (.step lateStep)) hdr (.step lateStep) false false = .error stLowerLate :=
  ⟨⟨by decide, ⟨rfl, rfl, rfl, rfl⟩, by simp [tilesIdle, lateTable, live, State.reset], by decide⟩, by rfl⟩

/-! ### Witnesses: attention, sampling, commits and growth -/

/-- A package whose STEP entry has one attention node of layer 3, gang 1, two buffers, FILL 0 and FREE 1. -/
def packG : Package :=
  { pack1 with
    manifest := List.replicate 14 0 ++ [1, 0] ++ List.replicate 112 0 ++ [1]
    graph := [1, 3, 1, 0] ++ List.replicate 40 0 ++ [2, 0, 0, 0, 1, 0] ++ List.replicate 6 0 ++ List.replicate 8 0xFF }

/-- A STEP under way on stream 5, and its attention gang on tile 4 with a tree block to deliver. -/
def partLive : Part := { part1 with outcome := none }
def stepLive : Entry := { stepDone with parts := [partLive] }
def set1 : WalkSet := { part := 0, head := 0, kind := 1, index := 0, runKey := 0, live := 0, rbase := 0, rows := 1 }
def walk1 : Walk := { todo := [set1], started := true, delivered := 0, open_ := [] }
def gang1 : Entry :=
  { readyEntry hdr (.step stepBody) with
    state := .running, dispatched := true, parent := some 0, node := 65536, tiles := [4], walks := [(0, walk1)] }
def attending (x : Entry) : State :=
  { docketed streaming [(0, x), (1, gang1)] with ctxs := [(0, { ctxP with packages := [(1, packG)] })] }

theorem witness_walkSet :
    running (attending stepLive) = true ∧
      gangOf (foldFreed (attending stepLive) 1 0) 1 = some (gang1, 0, stepLive, packG, graphNode packG.graph 0) ∧
      walkCounters (foldFreed (attending stepLive) 1 0) 0 packG (graphNode packG.graph 0) = some (0, 1) ∧
      tblGet gang1.walks 0 = some walk1 ∧ (graphNode packG.graph 0).b = 2 ∧
      ((readHeads (foldFreed (attending stepLive) 1 0) 5 false 0 (requestService 0 stepLive)
        (setRuns stepLive (graphNode packG.graph 0) (chunkBase stepLive gang1.chunk) set1)).1 matches .ok _) = true ∧
      syncOf (attending stepLive) 0 = Sync.reset ∧ syncOf (attending stepLive) 1 = Sync.reset := by decide +kernel

/-- The same STEP with its pass done, and sampled. -/
def passed : Entry := { stepLive with ended := [(65536, 0)] }
def sampled : Entry := { passed with sampled := [1] }

theorem witness_passes :
    ((childrenOf (attending stepLive) 0).find? (writesRow (attending stepLive) 0 3)) = some 1 ∧
    (entryOf (attending passed) 0 = some passed ∧ requestPackage (attending passed) passed = some packG ∧
      samplesLater (attending passed) passed = false ∧
      ((openWaves passed).find? fun w => !passed.sampled.contains w &&
        passDone passed packG.manifest (requestNodes (attending passed) passed) w) = some 1) ∧
    (sampled.parts[0]? = some partLive ∧ partLive.outcome = none ∧ partLive.wave ≠ 0 ∧ sampled.status = none ∧
      waveDone sampled packG.manifest (requestNodes (attending sampled) sampled) partLive.wave = true) := by decide +kernel

/-! ### Witnesses: tile instructions -/

/-- Context 0 with its first page in state SRAM, and with a Span job. -/
def ctxT : Ctx := { ctx0 with pages := [(0, pteWord (Pte.leaf 1 true false 3 0))] }
def ctxS : Ctx := { ctxT with job := some { tag := 1, span := 1, faulted := false, ender := none } }

/-- Tile 0 runs a program whose bundle the instruction cache holds. -/
def holds (x : Tile) (w : Nat) : Tile := { x with cached := [(0, leBytes 16 w)] }
def bundledIn (k : Ctx) (x : Tile) (w : Nat) : State :=
  { docketed (withCtx k) [(0, { runEntry hdr 1 with state := .running, dispatched := true, tiles := [0] })] with tiles := [(0, holds x w)] }
def bundled (x : Tile) (w : Nat) : State := bundledIn ctxT x w

/-- Descriptors 0 to 6: 32 columns of A16, a block of W4, two rows of bytes, rows in the context's space that is mapped and that is
not, and a row on another chip. -/
def desc0 : Word256 := BitVec.ofNat 256 (2 ^ 72 + 4 * 2 ^ 128 + 32 * 2 ^ 144 + 64 * 2 ^ 160 + 0x1000 * 2 ^ 192 + 32 * 2 ^ 224)
def desc1 : Word256 :=
  BitVec.ofNat 256 (0x2000 + 5 * 2 ^ 72 + 32 * 2 ^ 128 + 16 * 2 ^ 144 + 256 * 2 ^ 160 + 0x400 * 2 ^ 192 + 32 * 2 ^ 224)
def desc2 : Word256 := BitVec.ofNat 256 (0x8000 + 2 ^ 128)
def desc3 : Word256 := BitVec.ofNat 256 (0x9000 + 2 ^ 128)
def desc4 : Word256 := BitVec.ofNat 256 (0x1000 + 2 * 2 ^ 64 + 2 ^ 128)
def desc5 : Word256 := BitVec.ofNat 256 (0x800000 + 2 * 2 ^ 64 + 2 ^ 128)
def desc6 : Word256 := BitVec.ofNat 256 (0x1000 + 3 * 2 ^ 48 + 3 * 2 ^ 64 + 2 ^ 128)

/-- A tile that runs a program of 4 bundles. -/
def tile0 : Tile :=
  { Tile.reset with
    entry := some 0, gang := 1, len := 4, slots := [(0, [0x30#128])], last := some 0
    dregs := [desc0, desc1, desc2, desc3, desc4, desc5, desc6] ++ List.replicate 9 0, sregs := [0, 5, 3] ++ List.replicate 29 0 }

/-- Everything that Issues asks for, of tile 0. -/
def canIssue (s : State) (w : Nat) : Bool :=
  let x := tileOf s 0
  running s && x.entry.isSome && !x.halted && !x.stopped && x.waitOn.isNone && decide (x.pc < x.len) && decide (bundleAt s 0 = some w) &&
    !fenceWait x w && !queueFull x (unitOf (opOf w)) && !slotWait x w && isTileOp (opOf w) && !bundleBad w

theorem issues_of {s : State} {w : Nat} (h : canIssue s w = true) : Issues s 0 (opOf w) w := by
  simp only [canIssue, Bool.and_eq_true, Bool.not_eq_true', decide_eq_true_eq, Option.isNone_iff_eq_none] at h
  exact ⟨h.1.1.1.1.1.1.1.1.1.1.1, h.1.1.1.1.1.1.1.1.1.1.2,
    ⟨h.1.1.1.1.1.1.1.1.1.2, h.1.1.1.1.1.1.1.1.2, h.1.1.1.1.1.1.1.2⟩, h.1.1.1.1.1.1.2,
    h.1.1.1.1.1.2, ⟨h.1.1.1.1.2, h.1.1.1.2, h.1.1.2⟩, rfl, h.1.2, h.2⟩

/-- Bundles: TNOP, HALT, SETI, ALU, DADD; BR not taken, taken, and out of the program; LDS, STS and DLOAD aligned and not. -/
def seqBundles : List Nat :=
  [0x00, 0x01, 0x03 + 5 * 2 ^ 32 + 0x1234 * 2 ^ 64, 0x04 + 6 * 2 ^ 32 + 2 ^ 37 + 2 * 2 ^ 42 + 2 ^ 48, 0x08 + 2 ^ 32 + 2 * 2 ^ 37,
   0x02 + 2 * 2 ^ 47, 0x02 + 2 * 2 ^ 64, 0x02 + 100 * 2 ^ 64, 0x05 + 8 * 2 ^ 64, 0x06 + 8 * 2 ^ 64, 0x07 + 32 * 2 ^ 64,
   0x05 + 4 * 2 ^ 64, 0x06 + 2 ^ 21 * 2 ^ 64 - 2 ^ 66, 0x07 + 8 * 2 ^ 64]

theorem witness_sequencer : ∀ w ∈ seqBundles, canIssue (bundled tile0 w) w = true := by decide +kernel

theorem witness_cached : (tileOf (bundled tile0 0) 0).cached.find? (fun q => q.1 == ((tileOf (bundled tile0 0) 0).prog +
    16 * (tileOf (bundled tile0 0) 0).pc) / 4096) = some (0, leBytes 16 0) ∧ bitsOf 0 15 8 = 0 := by decide

theorem witness_branches :
    brTaken 2 (tile0.word 0) (tile0.word 0) = false ∧ brTaken 0 (tile0.word 0) (tile0.word 0) = true ∧
      signedOf 20 (bitsOf (0x02 + 2 * 2 ^ 64) 83 64) = 2 ∧ signedOf 20 (bitsOf (0x02 + 100 * 2 ^ 64) 83 64) = 100 := by decide

theorem witness_local :
    localAddress tile0 (0x05 + 8 * 2 ^ 64) 8 8 37 64 = some 8 ∧ localAddress tile0 (0x07 + 32 * 2 ^ 64) 32 32 37 64 = some 32 ∧
      localAddress tile0 (0x05 + 4 * 2 ^ 64) 8 8 37 64 = none ∧ localAddress tile0 (0x06 + 2 ^ 21 * 2 ^ 64 - 2 ^ 66) 8 8 37 64 = none ∧
      localAddress tile0 (0x07 + 8 * 2 ^ 64) 32 32 37 64 = none ∧ metBy (bundled tile0 7) 0 4 = [] ∧
      descCheck (leNat (localRead (bundled tile0 7) 0 32 32)) 4 = none ∧ descCheck (2 ^ 63) 4 = some 0x02 := by decide +kernel

/-- MMW, MMA and MEW under HOLD, an MMW with a drain, GLOAD, GRUN, COPY, FILL, SIGNAL and SREAD; COPY and FILL in the context's
space, mapped and not, and to another chip; a SIGNAL to another chip. -/
def mmw : Nat := 0x20 + 2 ^ 36 + 2 ^ 45 + 31 * 2 ^ 64
def mma : Nat := 0x21 + 2 ^ 45
def mew : Nat := 0x22 + 2 ^ 45
def drain : Nat := 0x20 + 2 ^ 36 + 31 * 2 ^ 64
def gload : Nat := 0x30 + 64 * 2 ^ 64
def grun : Nat := 0x31
def tcopy : Nat := 0x40 + 2 * 2 ^ 32 + 3 * 2 ^ 36 + 32 * 2 ^ 96
def copyIn : Nat := 0x40 + 4 * 2 ^ 32 + 3 * 2 ^ 36 + 32 * 2 ^ 96
def copyLost : Nat := 0x40 + 5 * 2 ^ 32 + 3 * 2 ^ 36 + 32 * 2 ^ 96
def copyOut : Nat := 0x40 + 2 * 2 ^ 32 + 6 * 2 ^ 36 + 4096 * 2 ^ 96
def fill : Nat := 0x41 + 3 * 2 ^ 36 + 32 * 2 ^ 80
def fillIn : Nat := 0x41 + 4 * 2 ^ 36 + 32 * 2 ^ 80
def fillLost : Nat := 0x41 + 5 * 2 ^ 36 + 32 * 2 ^ 80
def signal : Nat := 0x50 + 2 ^ 32 + 7 * 2 ^ 96
def signalOut : Nat := 0x50 + 2 ^ 32 + 2 ^ 52 + 3 * 2 ^ 53 + 7 * 2 ^ 96
def sread : Nat := 0x52 + 2 ^ 32 + 4 * 2 ^ 69

theorem witness_queuedIssue : ∀ w ∈ [mmw, mma, mew, drain, gload, grun, tcopy, copyIn, copyLost, copyOut, fill, fillIn, fillLost, signal, sread],
    canIssue (bundled tile0 w) w = true := by decide +kernel

theorem witness_matrixAndGate :
    (∀ w ∈ [mmw, mma, mew, drain], matCause tile0 w = none ∧ inStore (matFlight 0 tile0 (matOp tile0 w)).ranges = true) ∧
      (∀ op ∈ [0x20, 0x21, 0x22], (matCause tile0 (op + 2 ^ 45 + 6 * 2 ^ 32)).isSome = true) ∧
      grunCause tile0 grun = none ∧ inStore (grunFlight 0 tile0 (grunOp tile0 grun)).ranges = true ∧
      (grunCause tile0 (grun + 2 ^ 90)).isSome = true ∧ localAddress tile0 gload 256 64 85 64 = some 64 ∧
      localAddress tile0 (0x30 + 8 * 2 ^ 64) 256 64 85 64 = none := by decide +kernel

/-- Operands that pass the checks and lie past the local store's end. -/
def farTile : Tile := { tile0 with dregs := [BitVec.ofNat 256 (desc0.toNat + 0x1FFFC0)] ++ tile0.dregs.drop 1 }
theorem witness_outside :
    (∀ w ∈ [mmw, mma, mew], matCause farTile w = none ∧ inStore (matFlight 0 farTile (matOp farTile w)).ranges = false) ∧
      grunCause farTile grun = none ∧ inStore (grunFlight 0 farTile (grunOp farTile grun)).ranges = false := by decide +kernel

/-- The rows of a COPY, or of a FILL, and how they end. -/
def copyEnd (w : Nat) : EffectEnd :=
  let s := bundled tile0 w
  let o := copyOp tile0 w
  (runRows (fun v i => copyRow v 0 o.src o.dst o.nb i) (List.range o.nr) (beforeEffect s 0 (withBefore s (o.flight s 0))) []).2
def fillEnd (w : Nat) : EffectEnd :=
  let o := fillOp tile0 w
  (runRows (fun v i => sideWrite v 0 o.dst (o.dst.addr i) (List.replicate o.nb o.pat)) (List.range o.nr) (bundled tile0 w) []).2

theorem witness_copies :
    (∀ w ∈ [tcopy, copyIn, copyLost], copyCause (bundled tile0 w) 0 tile0 w = none) ∧ copyCause (bundled tile0 copyOut) 0 tile0 copyOut = some 0x0B ∧
      sideTile (bundled tile0 tcopy) 0 (copyOp tile0 tcopy).src.d = some 0 ∧ sideTile (bundled tile0 tcopy) 0 (copyOp tile0 tcopy).dst.d = some 0 ∧
      (copyEnd copyIn matches .sent _) = true ∧ (copyEnd copyLost matches .failed _) = true := by decide +kernel

theorem witness_fills :
    (∀ w ∈ [fill, fillIn, fillLost], fillCause (bundled tile0 w) 0 tile0 w = none) ∧
      (fillCause (bundled tile0 (fill + 2 ^ 80)) 0 tile0 (fill + 2 ^ 80)).isSome = true ∧
      (fillEnd fillIn matches .sent _) = true ∧ (fillEnd fillLost matches .failed _) = true := by decide +kernel

/-- The same engine as an ACTIVE chip of a Span. -/
def spanned (w : Nat) : State :=
  let s := bundledIn ctxS tile0 w
  { s with span := { s.span with active := true } }

theorem witness_signalInstructions :
    syncIndex (bundled tile0 signal) 0 (counterIndex tile0 signal) = some 1 ∧ syncIndex (bundled tile0 0) 0 (counterIndex tile0 (signal + 2 ^ 35)) = none ∧
      bitOf signal 52 = false ∧ bitOf sread 52 = false ∧ bitOf sread 68 = false ∧ syncOf (bundled tile0 signal) 1 = Sync.reset ∧
      canIssue (spanned signalOut) signalOut = true ∧ bitOf signalOut 52 = true ∧ (spanJobOf (spanned signalOut) 0).isSome = true ∧
      canIssue (bundled tile0 signalOut) signalOut = true ∧ (bundled tile0 signalOut).span.active = false := by decide +kernel

/-- A tile with two instructions in flight, the first under fence 2. -/
def flying : Tile :=
  { tile0 with
    inflight := [{ syncFlight with fence := some 2 }, { syncFlight with unit := 2 }], fences := [0, 0, 1, 0, 0, 0, 0, 0] }

theorem witness_fences :
    ready (bundled flying 0) = true ∧ (bundled flying 0).dbg.frozen ≠ some .lrs ∧
      (tileOf (bundled flying 0) 0).inflight[0]? = some { syncFlight with fence := some 2 } ∧
      mayComplete (bundled flying 0) (tileOf (bundled flying 0) 0) 0 { syncFlight with fence := some 2 } = true ∧
      InFlight.ranges { syncFlight with fence := some 2 } = [] := by decide

theorem witness_effects :
    (matOp tile0 mmw).hold = true ∧ (matOp tile0 drain).hold = false ∧ (checkSlot (0x30#128 :: List.replicate 15 0)).isSome = true ∧
      checkSlot (List.replicate 16 0) = none ∧ ((grunOp tile0 grun).prog tile0).filter isTopk = [] ∧ 0 < (grunOp tile0 grun).n ∧
      ((matOp tile0 drain).drain tile0).filter isTopk = [] ∧ 0 < (matOp tile0 drain).n ∧
      (∀ r ∈ (grunFlight 0 tile0 (grunOp tile0 grun)).writes ++ (grunFlight 0 tile0 (grunOp tile0 grun)).sideWrites,
        r.2.1 + r.2.2 ≤ 0x100000) ∧
      (∀ r ∈ (matFlight 0 tile0 (matOp tile0 drain)).writes ++ (matFlight 0 tile0 (matOp tile0 drain)).sideWrites,
        r.2.1 + r.2.2 ≤ 0x100000) := by decide +kernel

/-- WAITs for 7 at counter 1, met or not. -/
def wait1 : Nat := 0x51 + 2 ^ 32 + 7 * 2 ^ 96
def waiting (met : Bool) : Tile := { tile0 with waitOn := some { index := 1, target := 7, met := met } }

theorem witness_waits :
    (∀ v ∈ [Sync.reset, { Sync.reset with value := 7 }, { Sync.reset with poisoned := true }],
      canIssue { bundled tile0 wait1 with syncs := [(1, v)] } wait1 = true) ∧ bitOf wait1 52 = false ∧
      syncIndex (bundled tile0 wait1) 0 (counterIndex tile0 wait1) = some 1 ∧ counterValue tile0 wait1 = 7 ∧
      running (bundled (waiting true) 0) = true ∧ (waiting true).entry.isSome = true ∧ (waiting true).stopped = false ∧
      syncIndex (bundled (waiting false) 0) 0 1 = some 1 := by decide +kernel

/-- A tile that has halted. -/
def halted0 : Tile := { tile0 with halted := true }
theorem witness_programEnd :
    running (bundled halted0 0) = true ∧ halted0.entry = some 0 ∧ halted0.inflight = [] ∧ (halted0.fences.all fun n => n == 0) = true ∧
      ((entryOf (bundled halted0 0) 0).any fun y => y.parent.isNone && y.status.isNone) = true := by decide

/-- A tile past its program's end, a reserved opcode and a reserved field. -/
theorem witness_badBundles :
    ({ tile0 with pc := 4 }).len ≤ ({ tile0 with pc := 4 }).pc ∧
    (bundleAt (bundled tile0 0x09) 0 = some 0x09 ∧ isTileOp (opOf 0x09) = false) ∧
    (bundleAt (bundled tile0 (2 ^ 40)) 0 = some (2 ^ 40) ∧ isTileOp (opOf (2 ^ 40)) = true ∧ bundleBad (2 ^ 40) = true) := by
  decide +kernel

/-! ### Witnesses: frame time -/

/-- The live engine with another tracker: FREE, LOCKED one period after a pulse, and LOCKED long after it. -/
def at_ (t : Time) : State := { live with time := t }
def free : Time := { Time.reset with dtime := 20000000, en := true }
def locked : Time :=
  { free with locked := true, frameStart := 3333000, expected := 20000000, lastPulse := some 3333000 }

theorem witness_pulses :
    ticking (at_ free) = true ∧ free.en = true ∧ (3 : Nat) ≤ 3 ∧ free.locked = false ∧ Time.reset.en = false ∧
      (locked.locked = true ∧ locked.nign ≠ 4 ∧ insideWindow locked = true ∧ locked.lastPulse = some 3333000) ∧
      ({ locked with lastPulse := none }.lastPulse = none) ∧ insideWindow { locked with expected := 40000000 } = false ∧
      ({ locked with nign := 4 }).nign = 4 := by decide

theorem witness_boundaries :
    (ticking (at_ free) = true ∧ free.frameStart.toNat + free.period ≤ now (at_ free)) ∧
    (({ locked with enOff := true }).offAt.toNat ≤ now (at_ locked)) ∧
    (({ locked with expected := 0 }).expected.toNat + solstice { locked with expected := 0 } ≤ now (at_ locked) ∧
      locked.enOff = false ∧ locked.nmiss < 3 ∧ 3 ≤ ({ locked with nmiss := 3 }).nmiss) ∧
    phaseOf (at_ { locked with frameStart := 0 }) = 16777215 := by decide

theorem witness_fsyncDisabled : servesWrite (at_ locked) 0 ∧ servesWrite (at_ free) 0 ∧ locked.enOff = false := by
  unfold servesWrite
  decide

/-- An Almanac image with one window, and a list of windows of which the second is in force next. -/
def almanac1 : List Byte := 1 :: List.replicate 67 0 ++ [96, 128, 128] ++ List.replicate 9 0
def twoWindows : Almanac := { Almanac.reset with active := [Window.default, { Window.default with start := 0x800000 }] }

theorem witness_almanac :
    servesWrite live 0 ∧ live.almanac.checking = none ∧ imageError [] ≠ 0 ∧ imageError almanac1 = 0 ∧
      windowAt twoWindows.active (phaseOf { at_ { free with frameStart := 10000000 } with almanac := twoWindows }) ≠ twoWindows.cur := by
  unfold servesWrite
  decide

/-- An RT STEP that feeds presentation queue 2 runs near its deadline. -/
def hurried : State :=
  docketed live [(0, { readyEntry { rtHdr with deadline := 10000 } (.step { stepBody with pq := 2 }) with state := .running, dispatched := true })]

theorem witness_panic :
    hurried.sched.panicEn = true ∧ hurried.sched.panic = false ∧ panicCause hurried = true ∧ running hurried = true ∧
      panicCause live = false := by decide

/-! ### Witnesses: functions -/

/-- The live engine with another PF, at another time. -/
def pf (x : Fn) : State := { live with fns := [(0, x)] }
def orphan : Fn := { fn0 with state := .orphaned, graceEnd := 500 }

theorem witness_leaseWrites :
    barOpen live 0 = true ∧ strayBits 0x800503E8 0x80FFFFFF = false ∧ fn0.state = .attached ∧ barOpen (pf orphan) 0 = true ∧
      orphan.state ≠ .attached ∧
      (10 ≤ ((0x800503E8 : BitVec 32).extractLsb' 0 16).toNat ∧ ((0x800503E8 : BitVec 32).extractLsb' 0 16).toNat ≤ 60000) ∧
      ((0x80050009 : BitVec 32).extractLsb' 0 16).toNat < 10 := by decide

theorem witness_leaseAndGrace :
    live.dbg.frozen = none ∧ live.lrs.active = false ∧ ({ fn0 with leaseEnd := 0 }).leaseEnd.toNat ≤ now live ∧
      orphan.graceEnd.toNat ≤ now (pf orphan) ∧ now live < fn0.leaseEnd.toNat ∧
      now (pf { orphan with graceEnd := 5000 }) < ({ orphan with graceEnd := 5000 }).graceEnd.toNat := by decide

theorem witness_attach :
    live.lrs.active = false ∧ orphan.state ≠ .attached ∧ orphan.attachPend = false ∧ requestsOf (pf orphan) 0 = [] ∧
      requestsOf (docketed (pf orphan) [(0, waiter)]) 0 ≠ [] ∧ barOpen (docketed (pf orphan) [(0, waiter)]) 0 = true ∧
      contextAlive twoFns 1 = true := by decide

theorem witness_functionResets :
    twoFns.lrs.active = false ∧ twoFns.docket.entries = [] ∧ twoFns.dbg.frozen = none ∧ ctxOf twoFns 1 = some ctx0 ∧
      (fnOf (pf { fn0 with d3hot := true }) 0).d3hot = true ∧ (fnOf live 0).d3hot = false := by decide

/-- Context 0 with a busy host window 1, and a STEP that draws from the generation before. -/
def busyWindow : Ctx := { ctx0 with hwins := tblPut ctx0.hwins 1 { HWin.reset with busyEpoch := some 0 } }
def reseeded (d : Option Bool) : Ctx := { ctx0 with drbg := { Drbg.reset with gen := 1, deferred := d } }

theorem witness_windowsAndSeeds :
    ctxOf live 0 = some ctx0 ∧ ctx0.destroying = false ∧ strayBits 7 7 = false ∧
      (tblGetD ctx0.hwins 0 HWin.reset).busyEpoch = none ∧ (tblGetD busyWindow.hwins 1 HWin.reset).busyEpoch.isSome = true ∧
      oldGen live 0 = false ∧ oldGen (docketed (withCtx (reseeded none)) [(0, stepDone)]) 0 = true ∧
      (reseeded (some true)).drbg.deferred = some true ∧ oldGen (withCtx (reseeded (some true))) 0 = false := by decide

theorem witness_serves : servesWrite live 0 := by
  unfold servesWrite
  decide

/-! ### Witnesses: boot, resets and power -/

theorem witness_coldReset :
    live.power.railsGood = true ∧ live.power.clocksStopped = false ∧ barOpen live 0 = true ∧ live.lrs.active = false ∧
      barOpen { live with lrs := { live.lrs with active := true } } 0 = true := by decide

theorem witness_powerLoss :
    ({ live with power := { live.power with avsSince := some 0 } }.power.avsSince = some 0) ∧
      now { live with time := { live.time with dtime := 1000 } } < (0 : BitVec 64).toNat + 1000000 ∧
      (0 : BitVec 64).toNat + 1000000 ≤ now (at_ free) := by decide


/-! ### A genuine firmware image -/

/-- Seeds of 32 bytes, the public key that they make, and signatures under it; nothing evaluates them. -/
def seed1 : List Byte := List.replicate 32 1
def secret1 : List Byte := List.replicate 32 2
def key1 : List Byte := slhPublic SlhSet.small seed1 secret1
def sign1 (context : String) (m : List Byte) : List Byte := slhSign SlhSet.small secret1 [] seed1 [] context m

theorem sign1_length (c : String) (m : List Byte) : (sign1 c m).length = 29792 := slhSign_length SlhSet.small secret1 [] seed1 [] c m

theorem key1_verifies (c : String) (m : List Byte) : verifies key1 c m (sign1 c m) = true :=
  slhVerify_sign SlhSet.small (by decide) secret1 [] seed1 [] c m List.length_replicate

/-- Fuses whose root key is that key. -/
def rooted (f : Fuses) : Fuses := { f with rootKey := key1, rootDigest := shake256 key1 64 }

theorem rooted_verifies {s : State} (h : s.fuses.rootKey = key1) (h2 : s.fuses.rootDigest = shake256 key1 64) (c : String) (m : List Byte) :
    rootVerifies s c m (sign1 c m) = true := by
  rw [rootVerifies, h, h2, key1_verifies]
  simp

theorem slice_left {a b : List Byte} {o n : Nat} (h : o + n ≤ a.length) : ((a ++ b).drop o).take n = (a.drop o).take n := by
  rw [List.drop_append_of_le_length (by omega), List.take_append_of_le_length (by simp; omega)]

theorem slice_right {a b : List Byte} {o n : Nat} (h : o = a.length) : ((a ++ b).drop o).take n = b.take n := by
  rw [h, List.drop_left]

theorem fieldAt_left {a b : List Byte} {o n : Nat} (h : o + n ≤ a.length) : fieldAt (a ++ b) o n = fieldAt a o n := by
  unfold fieldAt
  rw [slice_left h]

/-- An image: its first 32 bytes, its code, and the header with the code's digest; version 7, SVN 0, formats 1 and 0. -/
def head32 : List Byte :=
  ascii "EZBFWIMG" ++ [1, 0, 0, 0, 7, 0, 0, 0, 0, 0, 0, 0, 1, 0, 0, 0, 0, 0, 1, 0, 0, 0, 0, 0]
def code1 : List Byte := List.replicate 65536 0
def header1 : List Byte := head32 ++ (shake256 code1 64 ++ List.replicate 160 0)
def signature1 : List Byte := sign1 "EZB9600 FW" header1
def fwImage : List Byte := header1 ++ (code1 ++ signature1)

theorem code1_length : code1.length = 65536 := List.length_replicate
theorem signature1_length : signature1.length = 29792 := sign1_length _ _
theorem head32_length : head32.length = 32 := by decide
theorem header1_length : header1.length = 256 := by
  simp only [header1, List.length_append, head32_length, shake256_length, List.length_replicate]
theorem fwImage_length : fwImage.length = 95584 := by
  rw [fwImage, List.length_append, List.length_append, header1_length, code1_length, signature1_length]

theorem fwImage_field {o n : Nat} (h : o + n ≤ 32) : fieldAt fwImage o n = fieldAt head32 o n := by
  rw [fwImage, fieldAt_left (by rw [header1_length]; omega), header1, fieldAt_left (by rw [head32_length]; omega)]

theorem fwImage_codeLen : codeLen fwImage = 65536 := by
  rw [codeLen, fwImage_field (by omega)]
  decide

theorem fwImage_magic : fwImage.take 8 = ascii "EZBFWIMG" := by
  have h : (fwImage.drop 0).take 8 = (head32.drop 0).take 8 := by
    rw [fwImage, slice_left (by rw [header1_length]; omega), header1, slice_left (by rw [head32_length]; omega)]
  rw [List.drop_zero] at h
  rw [h]
  decide

theorem fwImage_header : headerOk fwImage 95584 = true := by
  simp only [headerOk, fwImage_magic, fwImage_codeLen, fwImage_field (show 8 + 2 ≤ 32 by omega)]
  decide

theorem fwImage_code : (fwImage.drop 256).take 65536 = code1 := by
  rw [fwImage, slice_right header1_length.symm, List.take_append_of_le_length (by rw [code1_length]),
    List.take_of_length_le (by rw [code1_length])]

theorem fwImage_digest : (fwImage.drop 32).take 64 = shake256 code1 64 := by
  rw [fwImage, slice_left (by rw [header1_length]; omega), header1, slice_right head32_length.symm,
    List.take_append_of_le_length (by rw [shake256_length]), List.take_of_length_le (by rw [shake256_length])]

theorem fwImage_signed : fwImage.take 256 = header1 ∧ (fwImage.drop (256 + 65536)).take 29792 = signature1 := by
  refine ⟨List.take_left' header1_length, ?_⟩
  rw [fwImage, ← List.drop_drop, List.drop_left' header1_length, List.drop_left' code1_length,
    List.take_of_length_le (by rw [signature1_length])]

theorem fwImage_genuine {s : State} (h : s.fuses.rootKey = key1) (h2 : s.fuses.rootDigest = shake256 key1 64) :
    imageGenuine s fwImage = true := by
  rw [imageGenuine, fwImage_codeLen, fwImage_code, fwImage_digest, fwImage_signed.1, fwImage_signed.2, signature1, rooted_verifies h h2,
    decide_eq_true rfl]
  rfl

/-- The image lies in host memory at 0x100000. -/
def offering (m : Memory) (f : Fuses) : State := { live with hostMem := m, fuses := f }
def offered : State := offering (memWriteN [] 0x100000 fwImage) (rooted live.fuses)

theorem offered_read : memReadN (memWriteN [] 0x100000 fwImage) 0x100000 95584 = fwImage := by
  have h := memReadN_memWriteN_same (m := []) rfl 0x100000 fwImage
  rwa [fwImage_length] at h

def update1 (mode : BitVec 8) : FwUpdateBody := { src := 0x100000, len := 95584, mode := mode }

theorem offering_began (m : Memory) (f : Fuses) (mode : BitVec 8) (hm : mode = 0 ∨ mode = 1 ∨ mode = 2) :
    startsAlone (offering m f) hdr (.fwUpdate (update1 mode)) ∧
      (began (offering m f) hdr (.fwUpdate (update1 mode))).hostMem = m ∧
      (began (offering m f) hdr (.fwUpdate (update1 mode))).fuses = f ∧
      (began (offering m f) hdr (.fwUpdate (update1 mode))).env = live.env ∧
      (began (offering m f) hdr (.fwUpdate (update1 mode))).fw = live.fw ∧
      (began (offering m f) hdr (.fwUpdate (update1 mode))).retired = live.retired := by
  refine ⟨⟨⟨(by decide : mayFetch live 0 0 = true), ⟨rfl, rfl, rfl, rfl⟩, by simp [tilesIdle, offering, live, State.reset], rfl⟩, ?_, ?_⟩,
    rfl, rfl, rfl, rfl, rfl⟩ <;>
    rcases hm with rfl | rfl | rfl <;> rfl

theorem hostRead_of {s : State} {m : Memory} {a n : Nat} {b : List Byte} (h : s.env = live.env) (hm : s.hostMem = m)
    (h2 : memReadN m a n = b) : hostRead s a n = .data b := by
  rw [hostRead, h, hm, h2]
  rfl

theorem witness_fwUpdate (mode : BitVec 8) (hm : mode = 0 ∨ mode = 1 ∨ mode = 2) :
    startsAlone offered hdr (.fwUpdate (update1 mode)) ∧
      (began offered hdr (.fwUpdate (update1 mode))).fuses.lcs ≠ 4 ∧
      hostRead (began offered hdr (.fwUpdate (update1 mode))) 0x100000 95584 = .data fwImage ∧ headerOk fwImage 95584 = true ∧
      imageGenuine (began offered hdr (.fwUpdate (update1 mode))) fwImage = true ∧
      ¬ imageSvn fwImage < activeSvn (began offered hdr (.fwUpdate (update1 mode))) ∧
      slotMaskLive (began offered hdr (.fwUpdate (update1 mode))) (idleSlot live) ≠ 0 ∧
      (began offered hdr (.fwUpdate (update1 mode))).env.slotBad.contains (idleSlot live) = false ∧
      formatsMeet (began offered hdr (.fwUpdate (update1 mode))).fw.image fwImage = true := by
  obtain ⟨h1, h2, h3, h4, h5, h6⟩ := offering_began (memWriteN [] 0x100000 fwImage) (rooted live.fuses) mode hm
  refine ⟨h1, ?_, hostRead_of h4 (by rw [offered, h2]) offered_read, fwImage_header,
    fwImage_genuine (by rw [offered, h3]; rfl) (by rw [offered, h3]; rfl), ?_, ?_, ?_, ?_⟩
  · rw [offered, h3]
    decide
  · have : imageSvn fwImage = 0 := by rw [imageSvn, fwImage_field (by omega)]; decide
    rw [this]
    exact BitVec.not_lt_zero
  · rw [slotMaskLive, offered, h6]
    decide
  · rw [offered, h4]
    decide
  · have h7 : imageHomin fwImage = 0 := by rw [imageHomin, fwImage_field (by omega)]; decide
    rw [offered, h5]
    simp [formatsMeet, h7, imageHofmt, fieldAt, leNat, live, State.reset, Fw.reset]

theorem fwImage_svn : imageSvn fwImage = 0 := by rw [imageSvn, fwImage_field (by omega)]; decide

theorem fwImage_boots {s : State} (h : s.fuses.rootKey = key1) (h2 : s.fuses.rootDigest = shake256 key1 64) (h1 : s.flash.maxSvn = 0)
    (h3 : s.fw.slotA.svn = 0) (h4 : s.fw.slotB.svn = 0) : bootError s fwImage = 0 := by
  simp [bootError, fwImage_length, fwImage_header, fwImage_codeLen, fwImage_code, fwImage_digest, fwImage_genuine h h2, fwImage_svn, h1, h3, h4]

/-- The board's slot A holds the image. -/
def booting : State :=
  { State.reset with
    fuses := rooted State.reset.fuses, fw := { State.reset.fw with slotA := { State.reset.fw.slotA with image := fwImage } } }

theorem witness_bootRom :
    ticking booting = true ∧ booting.boot.stage = 0 ∧ booting.lrs.active = false ∧ bootOrder booting = [false] ∧
      slotUnread booting false = false ∧
      bootError { booting with stewardMem := [], boot := { booting.boot with err := 0 } } (slotState booting false).image = 0 :=
  ⟨by decide, by decide, by decide, rfl, by decide, fwImage_boots rfl rfl rfl rfl rfl⟩

theorem witness_bootRom_fails :
    bootOrder State.reset = [false] ∧ slotUnread State.reset false = false ∧
      bootError State.reset (slotState State.reset false).image ≠ 0 ∧
      slotUnread { State.reset with env := { State.reset.env with slotErr := [false] } } false = true ∧
      bootOrder { State.reset with fw := { State.reset.fw with slotA := FwSlot.empty } } = [] ∧
      ticking { State.reset with boot := { Boot.reset with stage := 2 } } = true := by decide +kernel

theorem memReadN_take (m : Memory) (n k a : Nat) : (memReadN m a (n + k)).take n = memReadN m a n := by
  induction n generalizing a with
  | zero => simp [memReadN]
  | succ n ih =>
    rw [show n + 1 + k = (n + k) + 1 by omega]
    simp only [memReadN, List.take_succ_cons, ih]

theorem header1_field {o n : Nat} (h : o + n ≤ 32) : fieldAt header1 o n = fieldAt head32 o n := by
  rw [header1, fieldAt_left (by rw [head32_length]; omega)]

theorem header1_codeLen : codeLen header1 = 65536 := by
  rw [codeLen, header1_field (by omega)]
  decide

theorem header1_header : headerOk header1 (256 + codeLen header1 + 29792) = true := by
  have hm : header1.take 8 = ascii "EZBFWIMG" := by
    have h : (header1.drop 0).take 8 = (head32.drop 0).take 8 := by rw [header1, slice_left (by rw [head32_length]; omega)]
    rw [List.drop_zero] at h
    rw [h]
    decide
  simp only [headerOk, hm, header1_codeLen, header1_field (show 8 + 2 ≤ 32 by omega)]
  decide

theorem offered_header : memReadN (memWriteN [] 0x100000 fwImage) 0x100000 256 = header1 := by
  rw [← memReadN_take _ 256 95328, offered_read, fwImage]
  exact List.take_left' header1_length

/-- The engine waits in recovery for that image. -/
def recovering : State := { offered with boot := { live.boot with stage := 6, recovAddr := 0x100000 } }

theorem offering_mem (m : Memory) (g : Fuses) (b : Boot) : { offering m g with boot := b }.hostMem = m := rfl

theorem image_size {n : Nat} (h : n = 65536) : 256 + n + 29792 = 95584 := by omega

theorem witness_recovery :
    barOpen recovering 0 = true ∧ recovering.boot.stage = 6 ∧ hostRead recovering 0x100000 256 = .data header1 ∧
      headerOk header1 (256 + codeLen header1 + 29792) = true ∧ hostRead recovering 0x100000 (256 + codeLen header1 + 29792) = .data fwImage ∧
      bootError recovering fwImage = 0 := by
  have h : 256 + codeLen header1 + 29792 = 95584 := image_size header1_codeLen
  refine ⟨by decide, rfl, hostRead_of rfl (offering_mem _ _ _) offered_header, header1_header, ?_, fwImage_boots rfl rfl rfl rfl rfl⟩
  rw [h]
  exact hostRead_of rfl (offering_mem _ _ _) offered_read

/-! ### Witnesses: authorised changes -/

/-- The engine in a life-cycle state with the operands of a GO, and a nonce. -/
def nonce1 : List Byte := List.replicate 32 5
def cycle (l : BitVec 3) (a : BitVec 64) (m : Memory) : State :=
  { live with
    fuses := rooted { live.fuses with lcs := l }, sec := { live.sec with authAddr := a, nonce := nonce1 }, hostMem := m }

theorem witness_transitions :
    servesWrite (cycle 1 0 []) 0 ∧ (cycle 1 0 []).sec.busy = false ∧ (cycle 1 0 []).fw.handover = none ∧
      transition (cycle 1 0 []).fuses.kepoch 1 3 = none ∧
      transition (cycle 0 0 []).fuses.kepoch 0 4 = some .root ∧ (cycle 1 0x5000 []).sec.authAddr ≠ 0 := by
  refine ⟨?_, by decide⟩
  unfold servesWrite
  decide

/-- A signed record for BLANK (0) to SCRAPPED (4), of this device. -/
def signedPart (d : List Byte) : List Byte :=
  ascii "EZBLCAUT" ++ [0, 4, 0, 0, 0, 0, 0, 0] ++ nonce1 ++ (d ++ List.replicate 80 0)
def lcSignature (d : List Byte) : List Byte := sign1 "EZB9600 LC" (signedPart d)
def record (d : List Byte) : List Byte := signedPart d ++ lcSignature d
def digest0 : List Byte := deviceDigest live

theorem digest0_of {s : State} (h : s.fuses.kepoch = live.fuses.kepoch) (h2 : s.fuses.uds = live.fuses.uds) : deviceDigest s = digest0 := by
  rw [digest0, deviceDigest, deviceDigest, identityKey, identityKey, identitySeeds, identitySeeds, h, h2]

theorem lcSignature_length (d : List Byte) : (lcSignature d).length = 29792 := sign1_length _ _

theorem digest0_length : digest0.length = 64 := shake256_length _ _

theorem signedPart_length {d : List Byte} (h : d.length = 64) : (signedPart d).length = 192 := by
  simp only [signedPart, List.length_append, h, List.length_replicate]
  decide

theorem record_length : (record digest0).length = 29984 := by
  rw [record, List.length_append, signedPart_length digest0_length, lcSignature_length]

/-- The 48 bytes before the device digest. -/
def front : List Byte := ascii "EZBLCAUT" ++ [0, 4, 0, 0, 0, 0, 0, 0] ++ nonce1
theorem front_length : front.length = 48 := by decide

theorem record_front {o n : Nat} (h : o + n ≤ 48) : ((record digest0).drop o).take n = (front.drop o).take n := by
  rw [record, slice_left (by rw [signedPart_length digest0_length]; omega), signedPart, slice_left (by rw [← front, front_length]; exact h)]
  rfl

theorem record_digest : ((record digest0).drop 48).take 64 = digest0 := by
  rw [record, slice_left (by rw [signedPart_length digest0_length]; omega), signedPart, slice_right (by rw [← front, front_length]),
    List.take_append_of_le_length (by rw [digest0_length]), List.take_of_length_le (by rw [digest0_length])]

theorem record_tail {o n : Nat} (h : 112 ≤ o) (h2 : o + n ≤ 192) : zeroAt (record digest0) o n = true := by
  rw [zeroAt, record, slice_left (by rw [signedPart_length digest0_length]; exact h2), signedPart, ← front, ← List.append_assoc,
    List.drop_append, List.drop_of_length_le (by rw [List.length_append, front_length, digest0_length]; omega), List.nil_append,
    List.drop_replicate, List.take_replicate]
  simp

theorem record_signed : (record digest0).take 192 = signedPart digest0 := by
  rw [record]
  exact List.take_left' (signedPart_length digest0_length)

theorem record_signature : ((record digest0).drop 192).take 29792 = lcSignature digest0 := by
  rw [record, List.drop_left' (signedPart_length digest0_length), List.take_of_length_le (by rw [lcSignature_length])]

theorem record_field {o n : Nat} (h : o + n ≤ 48) : fieldAt (record digest0) o n = fieldAt front o n := by
  rw [fieldAt, fieldAt, record_front h]

theorem record_good (s : State) (h1 : s.fuses.lcs = 0) (h2 : s.sec.nonce = nonce1) (h3 : deviceDigest s = digest0)
    (h4 : s.fuses.rootKey = key1) (h5 : s.fuses.rootDigest = shake256 key1 64) : recordError s (record digest0) [] 4 .root = 0 := by
  have hm : (record digest0).take 8 = ascii "EZBLCAUT" := by
    have h := record_front (o := 0) (n := 8) (by omega)
    rw [List.drop_zero] at h
    rw [h]
    decide
  have hz : zeroAt (record digest0) 11 1 = true := by
    rw [zeroAt, record_front (by omega)]
    decide
  have hn : ((record digest0).drop 16).take 32 = nonce1 := by
    rw [record_front (by omega)]
    decide
  have hv : rootVerifies s "EZB9600 LC" (signedPart digest0) (lcSignature digest0) = true := rooted_verifies h4 h5 _ _
  simp only [recordError, hm, hz, hn, h1, h2, h3, record_digest, record_signed, record_signature, hv,
    record_tail (show 112 ≤ 176 by omega) (show 176 + 16 ≤ 192 by omega), record_tail (show 112 ≤ 112 by omega) (show 112 + 64 ≤ 192 by omega),
    record_field (show 8 + 1 ≤ 48 by omega), record_field (show 9 + 1 ≤ 48 by omega), record_field (show 10 + 1 ≤ 48 by omega),
    record_field (show 12 + 4 ≤ 48 by omega)]
  rw [if_neg (by decide), if_neg (by decide), if_neg (by simp),
    if_neg (by rw [if_neg (show needsPayload 4 ≠ true by decide)]; decide), if_neg (by simp)]

theorem record_read : memReadN (memWriteN [] 0x5000 (record digest0)) 0x5000 29984 = record digest0 := by
  have h := memReadN_memWriteN_same (m := []) rfl 0x5000 (record digest0)
  rwa [record_length] at h

theorem cycle_mem (l : BitVec 3) (a : BitVec 64) (m : Memory) : (cycle l a m).hostMem = m := rfl

theorem witness_signedTransition (op : BitVec 2) :
    hostRead (cycle 0 0x5000 (memWriteN [] 0x5000 (record digest0))) 0x5000 29984 = .data (record digest0) ∧
      (let s := cycle 0 0x5000 (memWriteN [] 0x5000 (record digest0))
       recordError { s with sec := { s.sec with op := op, toLcs := 4 } } (record digest0) [] 4 .root = 0) ∧
      recordError (cycle 0 0x5000 []) (List.replicate 29984 0) [] 4 .root ≠ 0 :=
  ⟨hostRead_of rfl (cycle_mem _ _ _) record_read, record_good _ rfl rfl (digest0_of rfl rfl) rfl rfl, by decide +kernel⟩

/-- A trust list of sequence 1 without entries, for any device, signed by the owner of the records. -/
def trustPart : List Byte := ascii "EZBTRUST" ++ [1, 0, 0, 0] ++ List.replicate 1396 0
def trustSignature : List Byte := sign1 "EZB9600 TRUST" trustPart
def trustList : List Byte := trustPart ++ trustSignature
theorem trustSignature_length : trustSignature.length = 29792 := sign1_length _ _
def ownedWith (m : Memory) : State :=
  let s := cycle 2 0x5000 m
  { s with flash := { s.flash with
      records := some { ownerKey := key1, trustSeq := 0, trustRecord := [], certificate := [], rdtim := 0 } } }

def owned : State := ownedWith (memWriteN [] 0x5000 trustList)
theorem owned_mem (m : Memory) : (ownedWith m).hostMem = m := rfl

theorem trustPart_length : trustPart.length = 1408 := by
  simp only [trustPart, List.length_append, List.length_replicate]
  decide
theorem trustList_length : trustList.length = 31200 := by
  rw [trustList, List.length_append, trustPart_length, trustSignature_length]

theorem trust_left {o n : Nat} (h : o + n ≤ 1408) : (trustList.drop o).take n = (trustPart.drop o).take n :=
  slice_left (by rw [trustPart_length]; exact h)

theorem trustList_ok : trustOk trustList = true ∧ zeroAt trustList 16 64 = true ∧ fieldAt trustList 8 4 = 1 := by
  have ht : trustList.take 8 = (trustPart.drop 0).take 8 := trust_left (o := 0) (by omega)
  simp only [trustOk, fieldAt, zeroAt, ht, trust_left (show 12 + 1 ≤ 1408 by omega), trust_left (show 13 + 3 ≤ 1408 by omega),
    trust_left (show 80 + 48 ≤ 1408 by omega), trust_left (show 16 + 64 ≤ 1408 by omega), trust_left (show 8 + 4 ≤ 1408 by omega)]
  have h12 : leNat ((trustPart.drop 12).take 1) = 0 := by decide +kernel
  rw [h12, trust_left (show 128 + 80 * 0 + 80 * (16 - 0) ≤ 1408 by omega)]
  decide +kernel

theorem witness_trustUpdate (op : BitVec 2) (l : BitVec 3) :
    trustError { owned with sec := { owned.sec with op := op, toLcs := l } } trustList = 0 ∧
      hostRead owned 0x5000 31200 = .data trustList ∧ owned.sec.authAddr ≠ 0 ∧
      trustError (cycle 2 0x5000 []) (List.replicate 31200 0) ≠ 0 := by
  have hm : trustList.take 1408 = trustPart := List.take_left' trustPart_length
  have hs : (trustList.drop 1408).take 29792 = trustSignature := by
    rw [trustList, List.drop_left' trustPart_length, List.take_of_length_le (by rw [trustSignature_length])]
  refine ⟨?_, hostRead_of rfl (owned_mem _) ?_, by decide, by decide +kernel⟩
  · have hv (s : State) (h1 : s.flash.records = owned.flash.records) : ownerVerifies s "EZB9600 TRUST" trustPart trustSignature = true := by
      rw [ownerVerifies, h1, owned, ownedWith]
      exact key1_verifies _ _
    simp only [trustError, trustHere, hm, hs, trustList_ok.1, trustList_ok.2.1, trustList_ok.2.2]
    rw [if_neg (by decide), if_neg (by simp)]
    exact (if_neg (show ¬ 1 ≤ (0 : BitVec 32).toNat by decide)).trans (if_neg (by
      rw [hv { owned with sec := { owned.sec with op := op, toLcs := l } } rfl]; simp))
  · have h := memReadN_memWriteN_same (m := []) rfl 0x5000 trustList
    rwa [trustList_length] at h

/-! ### Witnesses: HBM and flash -/

/-- The live engine with another HBM block. -/
def stacked (h : Hbm) : State := { live with hbm := h }
def request1 (n : Nat) : HbmReq :=
  { write := false, bank := 5, row := 3, col := 0, bursts := n, data := [], cls := 2, issued := 0, aged := false, ctx := none, entry := none }
def queues (r w : List HbmReq) : Pc := { Pc.reset with reads := r, writes := w, banks := [(5, { Bank.reset with row := some 3 })] }

theorem witness_stacksRun : stacksRun live := by
  unfold stacksRun
  decide

theorem witness_retraining :
    strayBits 0x0A0A0258 0x7FFFFFFF = false ∧ (0x0B0A0258 : BitVec 32).getLsbD 24 = true ∧ (0x0A0A0258 : BitVec 32).getLsbD 24 = false ∧
      retrainTrigger (stacked { Hbm.reset with
        temps := [some 10, none, none, none], chans := [(15, { Chan.reset with trainedTemp := some 0 })] }) 15 = true ∧
      retrainTrigger (stacked { Hbm.reset with temps := [some 10, none, none, none] }) 15 = false ∧ retrainTrigger live 15 = false ∧
      nextRetrain (stacked { Hbm.reset with chans := [(3, { Chan.reset with due := true })] }) = some 3 ∧
      nextRetrain live ≠ some 3 ∧ (stacked { Hbm.reset with retraining := some 3 }).hbm.retraining = some 3 ∧
      (pcOf live 6).late = false ∧ (pcOf live 6).reads = [] ∧ (pcOf live 7).writes = [] ∧ 5 < 16 * nsid live := by decide +kernel

theorem witness_hbmErrors :
    live.retired.pcs.contains 6 = false ∧ ({ live.retired with pcs := [6] }).pcs.contains 6 = true ∧ quadPc 6 = 6 ∧ 6 < hbmQuads live ∧
      channelLive live 3 = true ∧ pcHeld live 6 = false ∧ pcHeld (stacked { Hbm.reset with retraining := some 3 }) 6 = true ∧
      live.retired.flash.contains 2 = false ∧ ({ live.retired with flash := [2] }).flash.contains 2 = true ∧
      live.retired.tiles.contains 9 = false ∧ ({ live.retired with tiles := [9] }).tiles.contains 9 = true ∧ (tileOf live 9).entry = none ∧
      ({ live.retired with tiles := [9], slices := [9] }).slices.contains 9 = true ∧ live.retired.slices.contains 9 = false ∧
      live.docket.entries = [] ∧ State.reset.ctxs = [] ∧ telStopped live = false ∧
      telStopped { live with dbg := { live.dbg with pendingStw := true } } = true := by decide

theorem witness_hbmTimers :
    symbolDecode (List.replicate 33 0 ++ [5]) = .corrected (List.replicate 34 0) ∧ symbolDecode (List.replicate 34 0) = .clean ∧
      5 < 16 * nsid live ∧
      (let b := bankOf (queues [] []) 5
       b.row.isSome = true ∧ b.idleFrom.toNat + 200 ≤ now live) ∧
      (queues [request1 1] []).reads[0]? = some (request1 1) ∧
      (request1 1).issued.toNat + Hbm.reset.ageLimit.toNat < now (at_ free) ∧
      burstsOf (queues [request1 1] [request1 48]).writes = 48 ∧ burstsOf (queues [request1 1] [request1 47]).writes < 48 := by
  decide +kernel

/-- A pseudo-channel whose rotation has come to bank 5, with its H, and what it owes or has had ahead. -/
def turned (owed ahead : Nat) (r : List HbmReq) : Pc :=
  { queues r [] with refNext := 5, refDue := 10, banks := [(5, { Bank.reset with row := some 3, owed := owed, ahead := ahead })] }
/-- A read of real-time class that hits the row of bank 5. -/
def urgent : HbmReq := { request1 1 with cls := 0 }

theorem witness_refresh :
    live.retired.pcs.contains 6 = false ∧ pcHeld live 6 = false ∧ (turned 0 0 []).refNext = 5 ∧ (turned 0 0 []).refDue.toNat ≤ now live ∧
      postpones live (turned 0 0 []) 5 = false ∧ postpones live (turned 0 0 [urgent]) 5 = true ∧
      (bankOf (turned 0 0 [urgent]) 5).owed < Config.refreshLimit ∧ Config.refreshLimit ≤ (bankOf (turned Config.refreshLimit 0 [urgent]) 5).owed ∧
      0 < (bankOf (turned 0 1 []) 5).ahead ∧ 0 < (bankOf (turned 1 0 []) 5).owed ∧ Pc.reset.refNext ≠ 5 ∧
      (((turned 0 0 []).reads ++ (turned 0 0 []).writes).any fun r => r.bank == 5) = false ∧
      (bankOf (turned 0 0 []) 5).ahead < Config.refreshLimit :=
  ⟨by decide, by decide, rfl, by decide, by decide, by decide, Nat.succ_pos _, Nat.le_refl _, by decide, by decide, by decide, by decide,
    Nat.succ_pos _⟩

theorem witness_flashEvents :
    ((3 : BitVec 4) ≤ live.flash.nrl ∧ (0 : BitVec 4) < 3) ∧ ({ FlashChan.reset with switching := true }).retired = false ∧
      ({ FlashChan.reset with switching := true, decodeFails := 1 }).decodeFails ≠ 0 ∧ strayBits 0x11405 0x17FF7 = false ∧
      (0x11405 : BitVec 32).extractLsb' 0 3 < (6 : BitVec 3) ∧ (0x11405 : BitVec 32).getLsbD 16 = true ∧
      (0x1405 : BitVec 32).getLsbD 16 = false := by decide

/-! ### Witnesses: stewards, faults, Frost and registers -/

theorem witness_stewards :
    stewardsRun live = true ∧ (coreOf live 1).debugHalt = false ∧ live.fw.handover = none ∧ (1 : BitVec 2) ≠ 0 ∧
      now live < live.fw.wdtEnd.toNat ∧ stewardsRun (late waiter) = true ∧ (late waiter).fw.wdtEnd.toNat ≤ now (late waiter) ∧
      (late waiter).dbg.stwEn = true ∧ (late waiter).dbg.frozen = none ∧ live.docket.entries = [] ∧
      live.fw.untold = [] := by decide

theorem witness_carried (l : List Component) : carried live l = [] := by
  simp [carried, live, State.reset, Docket.reset]

theorem witness_faultStatus :
    live.retired.tiles.contains 4 = false ∧ (8 : Nat) % 8 = 0 ∧ 8 < 96 * 2 ^ 21 ∧ (9 : Nat) % 8 ≠ 0 ∧ strayBits 3 3 = false := by decide

/-- The engine frozen, by TRIG or otherwise. -/
def frozen (f : Freeze) (pend : Bool) : State :=
  { live with dbg := { live.dbg with frozen := some f, trigger := 2, pendingStw := pend, limit := 0 } }

theorem witness_freeze :
    strayBits 0x00640001 0xFFFF0007 = false ∧ ((0x00640001 : BitVec 32).extractLsb' 16 16).toNat = 100 ∧
      (0x00640001 : BitVec 32).getLsbD 0 = true ∧ (0x00640001 : BitVec 32).getLsbD 1 = false ∧ (0x00640002 : BitVec 32).getLsbD 0 = false ∧
      (0x00640002 : BitVec 32).getLsbD 1 = true ∧ live.dbg.frozen = none ∧ (frozen .debug false).dbg.frozen = some .debug ∧
      (frozen .lrs false).dbg.frozen ≠ some .debug ∧ (frozen .debug false).dbg.frozenAt.toNat + 1000000 * 0 ≤ now live ∧
      (frozen .debug false).dbg.trigger ≠ 0 ∧ (frozen .debug false).dbg.complete = false ∧
      (frozen .stwreset true).dbg.pendingStw = true ∧ (∀ p ∈ live.fns, p.2.orphanAtThaw = false) := by decide

theorem witness_counters :
    counterMine live 0 = false ∧ counterMine (pf { fn0 with cntSel := 1 }) 0 = true ∧ strayBits 3 3 = false ∧
      strayBits 0x603 0x1F03 = false ∧ ((0x603 : BitVec 32).extractLsb' 8 5).toNat = 6 ∧ fn0.traceEn = false ∧
      (counterOf live 1).value < 2 ^ 48 ∧ ready live = true ∧ barOpen live 0 = true := by decide

theorem witness_registers :
    strayBits 250000 0xFFFFFFFF = false ∧ strayBits 99 0xFFFFFFFF = false ∧ strayBits 450 0x1FF = false ∧ strayBits 451 0x1FF = false ∧
      isCtxReg 0x240000 = true ∧ ctxOf State.reset 1 = none ∧ (0x240000 : Nat) % 4 = 0 ∧ (0x100002 : Nat) % 4 ≠ 0 ∧
      3 < vectorsOf 0 ∧ 0x120030 = 0x120000 + 16 * 3 ∧ (0x120034 : Nat) % 8 ≠ 0 ∧ 0x120000 + 16 * vectorsOf 1 ≤ 0x120400 ∧
      ticking live = true ∧ live.boot.linkUp = true ∧ fnExists live 0 = true := by decide

theorem witness_vfWrites : servesWrite twoFns 1 := by
  unfold servesWrite
  decide

/-! ### Witnesses: Span and sideband -/

/-- An ACTIVE chip 3 with an open Span job 9 in context 0, and one frame that waits for its answer. -/
def job9 : Job := { tag := 1, span := 2 ^ 63 + 9, faulted := false, ender := none }
def waits1 (resends : Nat) (acked : Bool) : Outstanding :=
  { port := false, lastPort := false, frameType := 1, ctx := 0, jobNum := 9, dst := 4, seq := 17, sentAt := 0, resends := resends
    address := 0, arg := 0, payload := [], acked := acked, filled := false, store := .va }
def spanning (l : List Outstanding) : State :=
  { withCtx { ctxT with job := some job9 } with
    span := { live.span with chip := 3, refChip := 4, active := true, locked := true, outstanding := l
                             port0 := { live.span.port0 with state := 2 }, rto := 50, retries := 3 } }

/-- A frame of chip 4 for job 9. -/
def frame1 (seq : BitVec 32) : SpanFrame :=
  { port := false, fcsGood := true, etherType := 0x88B5, flags := 0, spanId := 0, src := 4, srcPort := false, dst := 3, jobNum := 9
    seq := seq, addr := 0, arg := 1, payload := [] }
def seen17 : State := { spanning [] with span := { (spanning []).span with seen := [(589832, 17)] } }

theorem witness_spanMembership :
    servesWrite live 0 ∧ live.span.active = false ∧ (live.retired.ports.contains 0 && live.retired.ports.contains 1) = false ∧
      (([0, 1] : List Nat).contains 0 && ([0, 1] : List Nat).contains 1) = true ∧ (spanning []).span.active = true ∧
      servesWrite (spanning []) 0 := by
  unfold servesWrite
  decide

theorem witness_framesServed :
    takesFrame live (frame1 17) = false ∧ takesFrame (spanning []) (frame1 17) = true ∧
      seen17.span.seen.contains (seenKey (frame1 17)) = true ∧ (spanning []).span.seen.contains (seenKey (frame1 17)) = false ∧
      spanContext (spanning []) 9 = some 0 ∧ spanContext live 9 = none ∧ awaited (spanning []) (frame1 17) = none ∧
      (takeSignal (spanning []) 0 (frame1 17)).1 = 0 ∧ (takeSignal (spanning []) 0 { frame1 17 with addr := 4 }).1 = 2 ∧
      syncIndex (spanning []) 0 0 = some 0 ∧ syncIndex (spanning []) 0 4 = none ∧
      (takeRead (spanning []) 0 { frame1 17 with addr := 1 }).1 = 2 := by decide +kernel

/-- A block of state SRAM is not held coded, and reads well. -/
theorem witness_frameReads :
    (sealedBlock (spanning []) 0 0x1000).isNone = true ∧
      (match (readBlock (spanning []) 0 0x1000 4096 3 .remote).1 with | .ok _ => true | _ => false) = true ∧
      (match (askedBlock (spanning []) 0 0x1000).1 with | .ok _ => true | _ => false) = true := by
  decide +kernel

/-- A COPY of tile 2 waits for a block of chip 4, which comes raw under the key and the tweak of its frame. -/
def asked : Outstanding := { waits1 0 true with frameType := 2, arg := 0x7000, store := .tile 2 0x8000 }
def copying : State :=
  { spanning [asked] with tiles := [(2, { Tile.reset with inflight := [{ syncFlight with unit := 2, remote := [(false, 17)] }] })] }
def block17 : SpanFrame :=
  { frame1 17 with
    addr := 0x7000
    payload := [65, 116, 193, 22, 101, 8, 60, 182, 20, 38, 29, 175, 230, 223, 151, 117] ++ List.replicate 4096 0 }

theorem witness_awaited :
    awaited copying block17 = some asked ∧ copyWaits copying asked = true ∧ (∀ p ∈ copying.tiles, ∀ i ∈ p.2.inflight, i.spoiled = []) ∧
      awaited copying (frame1 17) = none := by decide

theorem witness_block : (openWire copying 0 block17).isSome = true := by decide +kernel

theorem witness_answers :
    answered (spanning [waits1 0 false]) (frame1 17) = some (waits1 0 false) ∧
      answered (spanning [waits1 2 false]) (frame1 17) = some (waits1 2 false) ∧
      ((spanning [waits1 3 false]).span.outstanding.find? fun x => x.port == false && x.seq == 17 && !x.acked) =
        some (waits1 3 false) ∧
      now live < (waits1 0 false).sentAt.toNat + 1000 * 50 ∧
      (waits1 0 false).sentAt.toNat + 1000 * 50 ≤ now { spanning [] with time := free } ∧
      spanJobOf (spanning []) 0 = some job9.span ∧ spanJobNum job9.span = 9 := by decide +kernel

/-- An exchange with the reference is open, after n samples. -/
def exchanging (n : Nat) : State :=
  { spanning [] with span := { (spanning []).span with eqxSent := some 500, eqxSeq := 3, eqxSamples := List.replicate n (100, 4) } }

theorem witness_equinox :
    takesFrame (exchanging 15) (frame1 3) = true ∧ (frame1 3).flags.getLsbD 0 = false ∧
      ({ frame1 3 with flags := 1 }).flags.getLsbD 0 = true ∧ (frame1 3).src = (exchanging 15).span.refChip ∧
      (frame1 3).seq = (exchanging 15).span.eqxSeq ∧ (frame1 17).seq ≠ (exchanging 15).span.eqxSeq ∧ (exchanging 15).span.eqxSent = some 500 ∧ ((exchanging 14).span.eqxSamples ++ [(100, 4)]).length < 16 ∧
      ((exchanging 15).span.eqxSamples ++ [(500, 4)]).length = 16 ∧
      bestSample ((exchanging 15).span.eqxSamples ++ [(500, 4)]) = some (100, 4) ∧ (spanning []).span.eqxSent = none := by decide

/-- Both ports up at another temperature, and port 1 after a loss of lock. -/
def hot : State :=
  { spanning [] with
    span := { (spanning []).span with port1 := { live.span.port1 with state := 2 } }, power := { live.power with tj := 60 } }
def lost : State := { spanning [] with span := { (spanning []).span with port1 := { live.span.port1 with lostAt := some 10 } } }

theorem witness_ports :
    ticking hot = true ∧ (portOf hot true).state = 2 ∧ (portOf lost true).state ≠ 2 ∧ (portOf lost true).state ≠ 3 ∧
      lost.boot.stage = 5 ∧ (portOf (spanning []) true).lostAt = none ∧ (portOf lost true).lostAt = some 10 ∧
      now lost ≤ 10 + 100000000 ∧ 10 + 100000000 < now { lost with time := { free with dtime := 20000000000 } } ∧
      recalibrationDue hot true = true ∧ recalibrationDue lost true = false := by decide

theorem witness_endpoint : endpointServes live = true ∧ ([7] : List Byte).length ≠ 0 ∧ (5 : Byte) > 4 := by decide

theorem witness_testPort :
    live.pins.perstHigh = true ∧ ({ live.pins with perstHigh := false }).perstHigh = false ∧ live.fw.cores[0]? = some Core.reset ∧
      (cycle 3 0 []).fuses.lcs = 3 ∧ (cycle 2 0 []).fuses.lcs = 2 ∧
      ({ live.pins with testEn := true }).testEn = true ∧ live.pins.testEn = false := by decide

/-! ### Commands that name nothing -/

theorem test_wf_dispatch_tile : (Instr.dispatch 0 [96]).wf = false := by decide
theorem test_wf_dispatch_twice : (Instr.dispatch 0 [3, 3]).wf = false := by decide
theorem test_wf_rank : (Instr.kvSetDeliver 0 96).wf = false := by decide
theorem test_wf_candidate_row : (Instr.candidateWrite 0 1024 0).wf = false := by decide
theorem test_wf_candidate_layer : (Instr.candidateWrite 0 0 128).wf = false := by decide
theorem test_wf_commit_row : (Instr.streamCommit 0 1024).wf = false := by decide
theorem test_wf_erase_block : (Instr.nandEraseDone (2 ^ 24)).wf = false := by decide
theorem test_wf_suspend_block : (Instr.eraseSuspend 0 (2 ^ 24)).wf = false := by decide
theorem test_wf_queue : (Instr.instructionComplete 0 32).wf = false := by decide
theorem test_wf_burst : (Instr.symbolCorrection (List.replicate 33 0)).wf = false := by decide
theorem test_wf_sram_word : (Instr.sramCorrection false 9).wf = false := by decide
theorem test_wf_sram_end : (Instr.sramCorrection false (96 * 2 ^ 21)).wf = false := by decide
theorem test_wf_data : (Instr.spanData (frame1 1)).wf = false := by decide
theorem test_wf_ack : (Instr.ack { frame1 1 with payload := [1] }).wf = false := by decide
theorem test_wf_health : (Instr.getHealth []).wf = false := by decide
theorem test_wf_good : (Instr.dispatch 0 [0, 95]).wf = true ∧ (Instr.kvSetDeliver 0 95).wf = true ∧ (Instr.getHealth [1]).wf = true := by
  decide

/-! ### Worked examples of the spec -/

/-- R33: halves round up. -/
theorem test_rounding : rhu (-5) 1 = -2 ∧ rhu 5 1 = 3 ∧ rhu (-3) 1 = -1 := by decide

/-- The group of 64 products of spec/02: Q, the accumulator, and its narrowing to 0xA381 with RS8 0xF8. -/
theorem test_group :
    (-233600 : Int) * gsMantissa 0xCAAB = -637961600 ∧ gsShift 0xCAAB = 12 ∧
      foldGroups (-25) (2000000000, false) [(-637961600, -22)] = (-3103692800, false) ∧
      requant (-25) [-3103692800] = ([-23679], -8, false) ∧ BitVec.ofInt 16 (-23679) = 0xA381#16 ∧ BitVec.ofInt 8 (-8) = 0xF8#8 := by
  decide +kernel

/-- The gated drain of spec/05: the MUL, the narrowing to 0x548E with RS8 0xF3, and the fields of micro-op 3. -/
theorem test_gate :
    rhu (29554646 * 1610612736) 30 = 44331969 ∧ requant (-24) [44331969] = ([21646], -13, false) ∧ (21646 : Nat) = 0x548E ∧
      BitVec.ofInt 8 (-13) = 0xF3#8 ∧ uCode 0x1E00D204 = 4 ∧ uRd 0x1E00D204 = 2 ∧ uRa 0x1E00D204 = 2 ∧ uRb 0x1E00D204 = 3 ∧
      uSh 0x1E00D204 = 30 ∧ uE (0xFE2 * 2 ^ 64) = -30 := by decide +kernel

/-- Scores at a commit of spec/07, DECAY 3. -/
theorem test_scores : newScore 10 3 2 = 11 ∧ newScore 6 3 0 = 5 ∧ newScore 5 3 1 = 5 ∧ newScore 60000 3 60000 = 65535 := by decide

/-- The leaf of spec/07. -/
theorem test_leaf :
    leafBits { live := 0x7FF, frame := 0x123458, tier := false, nfm1 := 2, raw := false, map := true, h1off := 0x288 } =
      0x0000028814123458 * 2 ^ 64 + 0x7FF := by decide

/-- The leaf entry of spec/10: V, HBM, not writable, PKG, quad 0x3A7C1. -/
theorem test_pte :
    pteOf 0x0000000003A7C121 = { valid := true, tier := 0, writable := false, pkg := true, target := 0x3A7C1, zmask := 0, tbl := false } := by decide

/-- Codes and the coded byte of spec/11: 0x00, 0x00, 0xFF, 0x01 give 0x34; the block header. -/
theorem test_codes :
    (let l := (List.range 256).map fun s => if s = 0 then 1 else if s = 255 then 2 else if s = 1 ∨ s = 254 then 4 else if s = 2 then 5 else 0
     let c := canonicalCodes l
     c.getD 1 0 = 12 ∧ c.getD 254 0 = 13 ∧ c.getD 2 0 = 28 ∧ codeSubstream l c [0x00, 0x00, 0xFF, 0x01] = some [0x34]) ∧
    blockHeader false 5 3 160 1 = leBytes 8 0x000100A000030014 ++ List.replicate 8 0 := by decide +kernel

/-- The quad of spec/12: pseudo-channel 12, sid 2, row 3,104. -/
def a144 : State := { live with fuses := { live.fuses with code := false } }
theorem test_quad : quadPc 298262 = 12 ∧ quadBank a144 298262 2592 / 16 = 2 ∧ quadRow a144 298262 2592 = 3104 := by decide

/-- Unit 0x4000 of spec/15: block 5, channel 0, page group 128; with channel 3 retired channel 2, group 146. -/
theorem test_unit :
    unitPlace live 0x4000 = some (5, 0, 128) ∧
      unitPlace (setLibBlock live 5 { LibBlock.reset with chmask := 0xF7 }) 0x4000 = some (5, 2, 146) := by decide +kernel

/-- P_m of spec/09. -/
theorem test_period : measured 16666667 17166670 = 16729167 := by decide

/-- SPANJOB of spec/19: JOBNUM 7 on chips 0 to 63. -/
theorem test_spanJob : spanJobNum 0x0000001F80000007 = 7 ∧ spanJobFirst 0x0000001F80000007 = 0 ∧ spanJobLast 0x0000001F80000007 = 63 := by
  decide

/-- RESULT of the live update of spec/16: outcome 2, slot B, version 0x00030300. -/
theorem test_update : updateResult 2 true 0x00030300 = 0x0000000303000102 := by decide

/-- VF7 of spec/22: HIF_ID, and HIF_STATUS before and after ATTACH. -/
def vf7 (x : Fn) : State :=
  { a144 with
    fuses := { a144.fuses with rev := 1 }, ctxs := [(7, { ctx0 with job := none })], fns := [(0, { fn0 with cfg := { fn0.cfg with numVfs := 7 } }), (7, x)]
    time := { live.time with dtime := 0 } }
theorem test_vf7 :
    readReg (vf7 { Fn.reset with state := .detached }) 7 0x100020 = 0x96001007 ∧
      readReg (vf7 { Fn.reset with state := .detached }) 7 0x100004 = 0x0000000C ∧
      readReg (vf7 { Fn.reset with state := .attached, leaseEnd := 1000000000 }) 7 0x100004 = 0x03E8000D := by decide +kernel

/-- The cold values of HIF_LEASE, HIF_EVENT_MASK and PWR_CAP (spec/13, spec/21). -/
theorem test_cold : readReg live 0 0x2C0000 = 400 ∧ Fn.reset.leasePeriod = 1000 ∧ Fn.reset.grace = 5 := by decide +kernel

/-! ### One step of some rows -/

/-- The tick of an empty queue moves Device Time by 10. -/
theorem test_tick : (match step live with | .next t => t.time.dtime == 1010 && decide (t.docket = live.docket) | _ => false) = true := by
  decide +kernel

/-- A NOP completes: its entry is gone, and the completion ring has moved on. -/
theorem test_nop : (match exec (.nop hdr) live with
    | .next t => t.docket.entries.isEmpty && (ringOf t 0 1).own == 1 && memRead t.hostMem (0x11000 + 4) == 0
    | _ => false) = true := by decide +kernel

/-- A SYNC_SIGNAL of 5 at counter 1. -/
theorem test_signal : (match exec (.syncSignal hdr { cidx := 1, value := 5 }) live with
    | .next t => decide ((syncOf t 1).value = 5) && !(syncOf t 1).poisoned
    | _ => false) = true := by decide +kernel

/-- SETI writes S5. -/
theorem test_seti : (match exec (.seti 0) (bundled tile0 (0x03 + 5 * 2 ^ 32 + 0x1234 * 2 ^ 64)) with
    | .next t => decide ((tileOf t 0).sreg 5 = 0x1234) && decide ((tileOf t 0).pc = 1)
    | _ => false) = true := by decide +kernel

/-- FILL writes its pattern into the local store. -/
theorem test_fill : (match exec (.fill 0) (bundled tile0 (fill + 0x5A * 2 ^ 104)) with
    | .next t => memRead t.localMem 0x9000 == 0x5A && memRead t.localMem 0x901F == 0x5A && memRead t.localMem 0x9020 == 0
    | _ => false) = true := by decide +kernel

/-! ### A PACKAGE_LOAD whose manifest and capsule hold -/

def contentKey : List Byte := List.replicate 64 0
def kcv : List Byte :=
  [220, 3, 183, 137, 48, 201, 255, 219, 8, 8, 203, 92, 236, 29, 163, 209, 49, 153, 36, 93, 63, 107, 94, 61, 33, 163, 1, 175, 121, 36,
   135, 125]
theorem kcv_ok : shake256 (ascii "EZB9600 KCV" ++ contentKey) 32 = kcv := by decide +kernel

/-- A manifest with one graph segment: one node, one layer, one head, no counters and no tables. -/
def manifestHead : List Byte :=
  ascii "CAROPPKG" ++ [1, 0, 1, 0, 0, 0, 1, 0] ++ List.replicate 16 0 ++
    [1, 0, 0, 0, 1, 0, 0, 0, 1, 1, 0, 1, 2, 0, 0, 0, 0, 0, 0xFF, 0xFF, 1, 0, 0, 0, 0xE0, 0x0A, 0, 0, 0, 0, 0, 0] ++ kcv
def segment1 : List Byte := [2, 0, 0xFF, 0, 1, 0, 0, 0, 0, 0, 0, 0, 1, 0, 0, 0] ++ List.replicate 80 0
def manifest1 : List Byte := manifestHead ++ (List.replicate 2592 0 ++ segment1)
def signature2 : List Byte := sign1 "EZB9600 CAROP" manifest1
def unit1 : List Byte := manifest1 ++ (List.replicate 29984 0 ++ (signature2 ++ List.replicate 2976 0))
theorem signature2_length : signature2.length = 29792 := sign1_length _ _

theorem manifestHead_length : manifestHead.length = 96 := by decide
theorem manifest1_length : manifest1.length = 2784 := by
  rw [manifest1, List.length_append, List.length_append, manifestHead_length, List.length_replicate]
  rfl
theorem unit1_length : unit1.length = 65536 := by
  rw [unit1, List.length_append, List.length_append, List.length_append, manifest1_length, signature2_length, List.length_replicate,
    List.length_replicate]

/-- Bytes 96 to 2,687 are zero. -/
theorem unit1_gap {a k : Nat} (h : 96 ≤ a) (h2 : a + k ≤ 2688) : (unit1.drop a).take k = List.replicate k 0 := by
  rw [unit1, slice_left (by rw [manifest1_length]; omega), manifest1, List.drop_append, List.drop_of_length_le (by rw [manifestHead_length]; exact h),
    List.nil_append, manifestHead_length, slice_left (by rw [List.length_replicate]; omega), List.drop_replicate, List.take_replicate]
  congr 1
  omega

theorem all_zeros (n : Nat) : ((List.replicate n (0 : Byte)).all fun b => b == 0) = true := by
  induction n with
  | zero => rfl
  | succ n ih => rw [List.replicate_succ, List.all_cons, ih]; rfl

theorem unit1_zero {a k : Nat} (h : 96 ≤ a) (h2 : a + k ≤ 2688) : zeroAt unit1 a k = true := by
  rw [zeroAt, unit1_gap h h2, all_zeros]

theorem unit1_field {a k : Nat} (h : 96 ≤ a) (h2 : a + k ≤ 2688) : fieldAt unit1 a k = 0 := by
  rw [fieldAt, unit1_gap h h2, leNat_zeros]

theorem unit1_entry {e : Nat} (h : e < 256) : entryOk unit1 e = true := by
  simp only [entryOk, unit1_field (show 96 ≤ 128 + 8 * e by omega) (show 128 + 8 * e + 1 ≤ 2688 by omega),
    unit1_zero (show 96 ≤ 128 + 8 * e + 6 by omega) (show 128 + 8 * e + 6 + 2 ≤ 2688 by omega),
    unit1_zero (show 96 ≤ 128 + 8 * e + 1 by omega) (show 128 + 8 * e + 1 + 5 ≤ 2688 by omega)]
  rw [if_neg (by decide)]
  rfl

theorem unit1_entries (kind : Nat) (h : kind ≠ 0) : entriesOf unit1 kind = [] := by
  rw [entriesOf, List.filter_eq_nil_iff]
  intro e he
  have : e < 256 := List.mem_range.mp he
  rw [unit1_field (by omega) (by omega), beq_iff_eq]
  exact fun hk => h hk.symm

theorem unit1_recur {r : Nat} (h : r < 32) : recurOk unit1 r = true := by
  have hn : nrec unit1 = 0 := by decide +kernel
  simp only [recurOk, hn, Nat.not_lt_zero, if_false]
  exact unit1_zero (by omega) (by omega)

theorem unit1_magic : unit1.take 8 = ascii "CAROPPKG" := by decide +kernel

theorem unit1_tail : zeroAt unit1 2784 29984 = true ∧ zeroAt unit1 62560 2976 = true := by
  constructor
  · rw [zeroAt, unit1, slice_right manifest1_length.symm, List.take_append_of_le_length (by rw [List.length_replicate]),
      List.take_of_length_le (by rw [List.length_replicate]), all_zeros]
  · have : unit1 = (manifest1 ++ (List.replicate 29984 0 ++ signature2)) ++ List.replicate 2976 0 := by
      rw [unit1, List.append_assoc, List.append_assoc]
    rw [zeroAt, this, slice_right (by rw [List.length_append, List.length_append, manifest1_length, signature2_length, List.length_replicate]),
      List.take_of_length_le (by rw [List.length_replicate]), all_zeros]

theorem unit1_ok : manifestOk unit1 = true := by
  have h1 : (List.range 256).all (entryOk unit1) = true := List.all_eq_true.mpr fun e he => unit1_entry (List.mem_range.mp he)
  have h2 : (List.range 32).all (recurOk unit1) = true := List.all_eq_true.mpr fun r hr => unit1_recur (List.mem_range.mp hr)
  have h3 : fieldAt unit1 56 4 = 2784 := by decide +kernel
  have h4 := unit1_tail.1
  unfold manifestOk
  simp only [unit1_magic, h1, h2, h3, h4, unit1_tail.2, unit1_entries 1 (by decide), unit1_entries 2 (by decide),
    unit1_zero (show 96 ≤ 96 by omega) (show 96 + 32 ≤ 2688 by omega), show 32768 - 2784 = 29984 by rfl,
    show 65536 - 62560 = 2976 by rfl, Bool.and_true, Bool.true_and, decide_true]
  decide +kernel

/-- The capsule of R390 for this device: a ciphertext, the secret that it decapsulates to, and the key under that secret. -/
def cipher1 : List Byte := List.replicate 1568 0
def shared1 : List Byte := decapsulate live cipher1
def pad1 : List Byte :=
  shake256 (ascii "EZB9600 CKEY" ++ shared1 ++ (manifest1.drop 16).take 16 ++ (manifest1.drop 32).take 4 ++
    shake256 (manifest1.take (fieldAt manifest1 56 4)) 64) 96
def capHead : List Byte := ascii "CAROPKEY" ++ (manifest1.drop 16).take 16 ++ (manifest1.drop 32).take 4 ++ [0, 0, 0, 0]
def capsule : List Byte := capHead ++ (digest0 ++ (cipher1 ++ (pad1.take 64 ++ pad1.drop 64)))

theorem capHead_length : capHead.length = 32 := by decide +kernel
theorem cipher1_length : cipher1.length = 1568 := List.length_replicate
theorem pad1_length : pad1.length = 96 := shake256_length _ _
theorem capsule_length : capsule.length = 1760 := by
  rw [capsule, List.length_append, List.length_append, List.length_append, capHead_length, digest0_length, cipher1_length,
    List.take_append_drop, pad1_length]

theorem capsule_front {o n : Nat} (h : o + n ≤ 32) : (capsule.drop o).take n = (capHead.drop o).take n := by
  rw [capsule, slice_left (by rw [capHead_length]; exact h)]

theorem capsule_digest : (capsule.drop 32).take 64 = digest0 := by
  rw [capsule, slice_right capHead_length.symm, List.take_append_of_le_length (by rw [digest0_length]),
    List.take_of_length_le (by rw [digest0_length])]

theorem capsule_cipher : (capsule.drop 96).take 1568 = cipher1 := by
  rw [capsule, ← List.append_assoc, slice_right (by rw [List.length_append, capHead_length, digest0_length]),
    List.take_append_of_le_length (by rw [cipher1_length]), List.take_of_length_le (by rw [cipher1_length])]

theorem capsule_pad : capsule.drop 1664 = pad1.take 64 ++ pad1.drop 64 := by
  rw [capsule, ← List.append_assoc, ← List.append_assoc, List.drop_left']
  rw [List.length_append, List.length_append, capHead_length, digest0_length, cipher1_length]

theorem pad1_half : (pad1.take 64).length = 64 := by rw [List.length_take, pad1_length]; rfl

theorem capsule_key : (capsule.drop 1664).take 64 = pad1.take 64 := by
  rw [capsule_pad, List.take_left' pad1_half]

theorem capsule_check : (capsule.drop 1728).take 32 = pad1.drop 64 := by
  rw [show 1728 = 1664 + 64 from rfl, ← List.drop_drop, capsule_pad, List.drop_left' pad1_half, List.take_of_length_le]
  rw [List.length_drop, pad1_length]

theorem xor_self (l : List Byte) : xorBytes l l = List.replicate l.length 0 := by
  induction l with
  | nil => rfl
  | cons a l ih =>
    rw [xorBytes, List.zipWith_cons_cons, ← xorBytes, ih, BitVec.xor_self]
    rfl

/-- The unit's sectors as the Library holds them: at the first sectors of the block's place on channel 0. -/
def sectorsFrom (bs : List Byte) (k : Nat) : Nat → Nat → Tbl Sector
  | 0, _ => []
  | n + 1, j => (k + j, { data := (bs.drop (4096 * j)).take 4096, parity := [] }) :: sectorsFrom bs k n (j + 1)

theorem sectorsFrom_get (bs : List Byte) (k n a j : Nat) (h : a ≤ j) (h2 : j < a + n) :
    tblGet (sectorsFrom bs k n a) (k + j) = some { data := (bs.drop (4096 * j)).take 4096, parity := [] } := by
  induction n generalizing a with
  | zero => omega
  | succ n ih =>
    rw [sectorsFrom, tblGet]
    by_cases he : j = a
    · rw [if_pos (by rw [he]), he]
    · rw [if_neg (by omega), if_neg (by omega), ih _ (by omega) (by omega)]

theorem sectors_join (bs : List Byte) (n : Nat) (h : 4096 * n ≤ bs.length) :
    ((List.range n).flatMap fun j => (bs.drop (4096 * j)).take 4096) = bs.take (4096 * n) := by
  induction n with
  | zero => rfl
  | succ n ih =>
    rw [List.range_succ, List.flatMap_append, ih (by omega), List.flatMap_singleton, Nat.mul_succ, List.take_add]

/-- The engine with that unit in the Library, the capsule in host memory and a trust list with the publisher's key. -/
def ctxL : Ctx := { ctx0 with pool0 := { ctx0.pool0 with all := [1, 2, 5, 6, 7], free := [2, 6, 7] } }
def trustHead : List Byte :=
  List.replicate 12 0 ++ 1 :: List.replicate 115 0 ++ [1, 0, 0, 0] ++ List.replicate 12 0
def records1 : Records := { ownerKey := [1], trustSeq := 0, trustRecord := trustHead ++ key1, certificate := [], rdtim := 0 }
def packState (lib : Tbl Sector) (host : Memory) : State :=
  { withCtx ctxL with
    libMem := lib, hostMem := host, flash := { live.flash with records := some records1, blocks := [(0, { LibBlock.reset with state := .full, wp := 3072 })] } }
def load1 : PackageLoadBody := { lunit := 0, cbase := 0, slotbase := 0, cap := 0x5000 }

theorem trustHead_length : trustHead.length = 144 := by decide +kernel
theorem key1_length : key1.length = 64 := slhPublic_length SlhSet.small seed1 secret1 List.length_replicate

theorem publisher_key {s : State} (h : s.flash.records = some records1) : publisherKey s 1 = some key1 := by
  have h1 : fieldAt (trustHead ++ key1) 12 1 = 1 := by rw [fieldAt_left (by rw [trustHead_length]; omega)]; decide
  have h2 : fieldAt (trustHead ++ key1) 128 4 = 1 := by rw [fieldAt_left (by rw [trustHead_length]; omega)]; decide
  have h3 : ((trustHead ++ key1).drop 144).take 64 = key1 := by
    rw [List.drop_left' trustHead_length, List.take_of_length_le (by rw [key1_length])]
  have hf : ((List.range 1).find? fun k => fieldAt (trustHead ++ key1) (128 + 80 * k) 4 == 1) = some 0 := by
    simp [List.range_succ, h2]
  simp only [publisherKey, h, records1, h1, show min 16 1 = 1 by rfl, hf, Option.map_some, show 128 + 80 * 0 + 16 = 144 by rfl, h3]

theorem decapsulate_of {s : State} (h : s.fuses = live.fuses) (c : List Byte) : decapsulate s c = decapsulate live c := by
  rw [decapsulate, decapsulate, deviceKem, deviceKem, h]

theorem unwrap_ok (s : State) (h1 : s.fuses = live.fuses) : unwrap s manifest1 capsule = some contentKey := by
  have hd : deviceDigest s = digest0 := digest0_of (by rw [h1]) (by rw [h1])
  have hk : s.fuses.kepoch = 0 := by rw [h1]; rfl
  have hs : decapsulate s cipher1 = shared1 := decapsulate_of h1 _
  have hm : capsule.take 8 = ascii "CAROPKEY" := by
    have h := capsule_front (o := 0) (n := 8) (by omega)
    rw [List.drop_zero] at h
    rw [h]
    decide +kernel
  have h16 : (capsule.drop 8).take 16 = (manifest1.drop 16).take 16 := by rw [capsule_front (by omega)]; decide +kernel
  have h4 : (capsule.drop 24).take 4 = (manifest1.drop 32).take 4 := by rw [capsule_front (by omega)]; decide +kernel
  have hf : fieldAt capsule 28 1 = 0 := by rw [fieldAt, capsule_front (by omega)]; decide +kernel
  have hz : zeroAt capsule 29 3 = true := by rw [zeroAt, capsule_front (by omega)]; decide +kernel
  have hx : xorBytes (pad1.take 64) (pad1.take 64) = contentKey := by rw [xor_self, pad1_half]; rfl
  have hkcv : (manifest1.drop 64).take 32 = kcv := by decide +kernel
  have hp : shake256 (ascii "EZB9600 CKEY" ++ shared1 ++ (manifest1.drop 16).take 16 ++ (manifest1.drop 32).take 4 ++
      shake256 (manifest1.take (fieldAt manifest1 56 4)) 64) 96 = pad1 := rfl
  unfold unwrap
  dsimp only
  rw [capsule_cipher, hs, hp, capsule_key, hx, hm, h16, h4, hf, hz, hk, hd, capsule_digest, capsule_check, kcv_ok, hkcv]
  exact if_pos ⟨rfl, rfl, rfl, rfl, rfl, rfl, rfl, rfl⟩


/-- The context when the load begins, the quads and pools that it takes, and the context with its table frames. -/
def loadBegan : State := began (packState [] []) hdr (.packageLoad load1)
def ctxK : Ctx := (ctxOf loadBegan 0).getD ctxL
def quads0 : List Nat := ((ctxK.pool0.takeWhole 1 false).map Prod.fst).getD []
def pool0L : Pool := ((ctxK.pool0.takeWhole 1 false).map fun r => r.2.1).getD ctxK.pool0
def segment1F : Segment := { kind := 2, tier := 0, cslot := 255, pages := 1, woff := 0, loff := 1, digest := List.replicate 64 0 }
def ctxK1 : Ctx := { ctxK with pool0 := pool0L, pool1 := ctxK.pool1, contentKeys := tblPut ctxK.contentKeys 0 contentKey }
def ctxK2 : Ctx := (takeTables ctxK1 (tableKeys ([segment1F].flatMap (segmentPages 0)))).getD ctxK

/-- The Docket then. -/
def docketL : Docket :=
  { entries := [(0, { newEntry live hdr (.packageLoad load1) [] with
      state := .running, readyTime := 1000, dispatched := true, inJob := true })], nextSeq := 1, nextId := 1, starts := 1, turn := 0xFF }
theorem loadBegan_docket : loadBegan.docket = docketL := by decide +kernel
theorem loadBegan_flash : loadBegan.flash = (packState [] []).flash := rfl

theorem packState_began (lib : Tbl Sector) (host : Memory) :
    startsAlone (packState lib host) hdr (.packageLoad load1) ∧
      (let u := began (packState lib host) hdr (.packageLoad load1)
       startLoadChecks u load1 = none ∧ ctxOf u 0 = some ctxK ∧ u.docket = docketL ∧
         u.libMem = lib ∧ u.hostMem = host ∧ u.env = live.env ∧ u.fuses = live.fuses ∧ u.flash = (packState [] []).flash ∧ u.retired = live.retired) := by
  refine ⟨⟨⟨(by decide : mayFetch live 0 0 = true), ⟨rfl, rfl, rfl, rfl⟩, by simp [tilesIdle, packState, withCtx, live, State.reset], rfl⟩, ?_, ?_⟩,
    (by decide +kernel : startLoadChecks (packState [] []) load1 = none), rfl, rfl, rfl, rfl, rfl, rfl, rfl, rfl⟩ <;> rfl

theorem manifest_of_unit : unit1.take (fieldAt unit1 56 4) = manifest1 := by
  have h : fieldAt unit1 56 4 = 2784 := by decide +kernel
  rw [h, unit1]
  exact List.take_left' manifest1_length

/-- The unit as the state holds it. -/
theorem unit_read {u : State} (h : unitPlace u 0 = some (0, 0, 0)) (h2 : nandBlock u 0 0 = 64) (h3 : u.libMem = sectorsFrom unit1 4194304 16 0) :
    unitBytes u 0 0 65536 = unit1 := by
  have hs : ∀ j, j < 16 → sectorData u 0 j = (unit1.drop (4096 * j)).take 4096 := by
    intro j hj
    have hp : sectorPlace u 0 j = some (4194304 + j) := by
      rw [sectorPlace, h]
      show some (((0 * 2 ^ 24 + nandBlock u 0 0) * 2 ^ 14 + 4 * 0 + j / 4) * 4 + j % 4) = _
      rw [h2]
      congr 1
      omega
    rw [sectorData, hp, Option.bind_some, h3, sectorsFrom_get _ _ _ _ _ (Nat.zero_le j) (by omega)]
    rfl
  have hj := sectors_join unit1 16 (by rw [unit1_length])
  have hf : ((List.range 16).flatMap fun j => sectorData u 0 (0 / 4096 + j)) = unit1.take 65536 := by
    rw [← hj, List.flatMap_def, List.flatMap_def]
    congr 1
    exact List.map_congr_left fun j hm => by
      rw [show 0 / 4096 + j = j by omega, hs j (List.mem_range.mp hm)]
  show ((((List.range 16).flatMap fun j => sectorData u 0 (0 / 4096 + j)).drop 0).take 65536) = unit1
  rw [hf, List.drop_zero, List.take_take, List.take_of_length_le (by rw [unit1_length]; decide)]

theorem witness_packageLoad :
    let s := packState (sectorsFrom unit1 4194304 16 0) (memWriteN [] 0x5000 capsule)
    let u := began s hdr (.packageLoad load1)
    startsAlone s hdr (.packageLoad load1) ∧ startLoadChecks u load1 = none ∧ ctxOf u 0 = some ctxK ∧
      freeWindow u 0 ctxK = some 0 ∧ unitRead u 0 0 65536 = (.good, u) ∧ unitBytes u 0 0 65536 = unit1 ∧ manifestOk unit1 = true ∧
      0 + fieldAt unit1 48 2 ≤ ctxK.syncCount ∧ 0 + fieldAt unit1 13 1 ≤ ctxK.slotCount ∧
      rangesTaken u 0 ctxK 0 0 (unit1.take (fieldAt unit1 56 4)) = false ∧
      publisherKey u (fieldAt unit1 36 4) = some key1 ∧
      verifies key1 "EZB9600 CAROP" (unit1.take (fieldAt unit1 56 4)) ((unit1.drop 32768).take 29792) = true ∧
      hostRead u 0x5000 1760 = .data capsule ∧ unwrap u (unit1.take (fieldAt unit1 56 4)) capsule = some contentKey ∧
      segmentsOf (unit1.take (fieldAt unit1 56 4)) = [segment1F] ∧ ctxK.pool0.takeWhole 1 false = some (quads0, pool0L, 0) ∧
      ctxK.pool1.takeWhole 0 false = some ([], ctxK.pool1, 0) ∧
      takeTables ctxK1 (tableKeys ([segment1F].flatMap (segmentPages 0))) = some ctxK2 ∧
      ∀ v : State, loadTables v contentKey 0 (unit1.take (fieldAt unit1 56 4)) = (.ok [], v) := by
  obtain ⟨h1, h2, h3, h4, h5, h6, h7, h8, h9, h10⟩ :=
    packState_began (sectorsFrom unit1 4194304 16 0) (memWriteN [] 0x5000 capsule)
  dsimp only
  generalize began (packState (sectorsFrom unit1 4194304 16 0) (memWriteN [] 0x5000 capsule)) hdr (.packageLoad load1) = u at *
  rw [← loadBegan_docket] at h4
  rw [← loadBegan_flash] at h9
  have hs : segmentsOf manifest1 = [segment1F] := by decide +kernel
  have h0 : unitPlace loadBegan 0 = some (0, 0, 0) ∧ nandBlock loadBegan 0 0 = 64 ∧ (flashChanOf loadBegan 0).retired = false ∧
      unitFlagged loadBegan 0 = false := by decide +kernel
  have hp : unitPlace u 0 = some (0, 0, 0) := by
    have := h0.1
    unfold unitPlace libBlockOf at this ⊢
    rw [h9]
    exact this
  have hn : nandBlock u 0 0 = 64 := by
    have := h0.2.1
    unfold nandBlock libBlockOf lunsOf at this ⊢
    rw [h9]
    exact this
  have hpk : fieldAt unit1 36 4 = 1 := by decide +kernel
  rw [manifest_of_unit, hpk]
  refine ⟨h1, h2, h3, ?_, ?_, unit_read hp hn h5, unit1_ok, by decide +kernel, by decide +kernel, ?_, publisher_key ?_, ?_,
    hostRead_of h7 h6 ?_, unwrap_ok _ h8, hs, by decide +kernel, by decide +kernel, by decide +kernel, ?_⟩
  · have : freeWindow loadBegan 0 ctxK = some 0 := by decide +kernel
    unfold freeWindow windowsInUse at this ⊢
    rw [h4]
    exact this
  · have hr : (flashChanOf u 0).retired = false := by
      rw [flashChanOf, h9]
      exact h0.2.2.1
    have hf : unitFlagged u 0 = false := by
      have := h0.2.2.2
      unfold unitFlagged at this ⊢
      rw [hp]
      rw [h0.1] at this
      unfold libBlockOf at this ⊢
      rw [h9]
      exact this
    unfold unitRead
    rw [hp]
    dsimp only
    rw [hr, hf, h7]
    rfl
  · have : rangesTaken loadBegan 0 ctxK 0 0 manifest1 = false := by decide +kernel
    unfold rangesTaken loadsOf at this ⊢
    rw [h4]
    exact this
  · rw [h9]
    rfl
  · have h : (unit1.drop 32768).take 29792 = signature2 := by
      rw [unit1, ← List.append_assoc, List.drop_left' (by rw [List.length_append, manifest1_length, List.length_replicate]),
        List.take_left' signature2_length]
    rw [h]
    exact key1_verifies _ _
  · have h := memReadN_memWriteN_same (m := []) rfl 0x5000 capsule
    rwa [capsule_length] at h
  · intro v
    have ht : tableList manifest1 = [] := by decide +kernel
    simp [loadTables, hs, ht, segment1F]

end Sys2Proof.Tests
end

/-! SUPPORT. A ring command that meets nothing else and fails a check of admission: it retires at once, and its retirement leaves
the Docket as empty as before. -/

section
namespace Sys2Proof.Machine

/-! ### A fetched entry that is rejected -/

theorem entryOf_fetched {s : State} (h : ReqHeader) (cmd : Command) (hd : s.docket.entries = []) :
    entryOf (fetched s h cmd) s.docket.nextId = some (newEntry s h cmd []) :=
  entryOf_only (fetched_entries h cmd hd)

/-- The first check that fails ends the entry; a batch table that is late would let it wait instead (R431, R277). -/
theorem admitEntry_rejected {s : State} {h : ReqHeader} {cmd : Command} {st : BitVec 8} (hd : s.docket.entries = [])
    (he : admitCheck (fetched s h cmd) h cmd false false = .error st) (hl : st ≠ stLowerLate) :
    admitEntry (fetched s h cmd) s.docket.nextId = finish (fetched s h cmd) s.docket.nextId st := by
  unfold admitEntry
  rw [entryOf_fetched h cmd hd]
  simp [newEntry, he, hl]

theorem startFree_empty {s : State} (hd : s.docket.entries = []) (e : Nat) : startFree s e = s := by
  simp [startFree, entryOf, hd]

/-- A ring command that meets nothing else and fails a check of admission retires with that check's status, and nothing follows. -/
theorem submit_rejected {s : State} {h : ReqHeader} {cmd : Command} {st : BitVec 8} (ha : alone s h)
    (he : admitCheck (fetched s h cmd) h cmd false false = .error st) (hl : st ≠ stLowerLate) :
    submit s h cmd = finish (fetched s h cmd) s.docket.nextId st := by
  have ⟨_, ⟨hd, _, hc, hf⟩, ht, _⟩ := ha
  have hent := fetched_entries h cmd hd
  have hidle : tilesIdle (fetched s h cmd) := ht
  have hgone := finish_only hidle hent rfl st
  rw [submit_alone cmd ha, admitEntry_rejected hd he hl, refreshReady_empty hgone, startFree_empty hgone,
    wrapUp_finish hidle hent rfl hc hf st]

/-! ### What the retirement of a fetched entry leaves -/

/-- The Docket that held a fetched entry alone is as empty as before once that entry is dropped. -/
theorem tblDel_fetched {s : State} (h : ReqHeader) (cmd : Command) (hd : s.docket.entries = []) :
    tblDel (fetched s h cmd).docket.entries s.docket.nextId = s.docket.entries := by
  rw [fetched_entries h cmd hd, hd]
  simp [tblDel]

/-- A fetched entry that retires changes the host's side and takes its number; no epoch and no claim waits for that number. -/
theorem finish_fetched_frame {s : State} (h : ReqHeader) (cmd : Command) (hd : s.docket.entries = []) (ht : tilesIdle s)
    (st : BitVec 8) :
    let t := finish (fetched s h cmd) s.docket.nextId st
    t = { s with
      fns := t.fns, hostMem := t.hostMem, heldWrites := t.heldWrites, dbg := { s.dbg with counters := t.dbg.counters }
      docket := { s.docket with nextId := s.docket.nextId + 1 }, ctxs := (unwait s [s.docket.nextId]).ctxs
      sched := { s.sched with claims := s.sched.claims.filter fun c => !([s.docket.nextId].contains c) } } := by
  have hidle : tilesIdle (fetched s h cmd) := ht
  obtain ⟨u, hu, hfin⟩ := finish_idle hidle (entryOf_fetched h cmd hd) st
  rw [childrenOf_only (fetched_entries h cmd hd) rfl] at hfin
  dsimp only
  rw [hfin, hu]
  simp only [dropped, List.foldl_cons, List.foldl_nil, tblDel_fetched h cmd hd]
  rfl

/-! ### PF-only opcodes (R9) -/

/-- A PF-only opcode of a VF fails the second check of R431, the first being passed. -/
theorem admitCheck_vf {h : ReqHeader} {cmd : Command} (s : State) (hf : h.fn ≠ 0) (hop : 0x80 ≤ opcodeOf cmd) (hcls : h.cls ≠ 3) :
    admitCheck s h cmd false false = .error stNotPermitted := by
  have hvf : h.fn.toNat ≠ 0 := fun h0 => hf (BitVec.eq_of_toNat_eq h0)
  unfold admitCheck
  dsimp only
  rw [if_neg (by simpa using hcls), if_pos ⟨hop, hvf⟩]

/-- Settles O11: NOT_PERMITTED comes from the second check of admission, and a rejected entry leaves only its completion. -/
theorem vfCannotSubmitPfOpcodes : Obligations.vfCannotSubmitPfOpcodes := by
  unfold Obligations.vfCannotSubmitPfOpcodes
  intro s h cmd ha hf hop hcls
  have hrej := submit_rejected ha (admitCheck_vf (fetched s h cmd) hf hop hcls) (by decide)
  obtain ⟨-, ⟨hd, -⟩, ht, -⟩ := ha
  exact ⟨_, by rw [exec_ringRow, hrej], rfl, finish_fetched_frame h cmd hd ht stNotPermitted⟩

end Sys2Proof.Machine
end

/-! SUPPORT. Integer arithmetic: shifts that round half up (R33, R35), saturation where a value fits (R34), and the shift that
narrowing takes from the bit length of a segment's largest magnitude (R42, R44). -/

section
namespace Sys2Proof.Machine

/-! ### Shifts -/

@[simp] theorem rhu_zero (v : Int) : rhu v 0 = v := by simp [rhu]

theorem rhu_succ (v : Int) (k : Nat) : rhu v (k + 1) = (v + 2 ^ k) / 2 ^ (k + 1) := by simp [rhu]

theorem le_rhu_iff {v a : Int} {k : Nat} : a ≤ rhu v (k + 1) ↔ a * 2 ^ (k + 1) ≤ v + 2 ^ k := by
  rw [rhu_succ, Int.le_ediv_iff_mul_le (by positivity)]

theorem rhu_lt_iff {v a : Int} {k : Nat} : rhu v (k + 1) < a ↔ v + 2 ^ k < a * 2 ^ (k + 1) := by
  rw [rhu_succ, Int.ediv_lt_iff_lt_mul (by positivity)]

/-- A shift to the left is exact (R45). -/
theorem shiftBy_ofNat (v : Int) (k : Nat) : shiftBy v k = v * 2 ^ k := by simp [shiftBy]

/-- A shift to the right rounds half up. -/
theorem shiftBy_neg_succ (v : Int) (k : Nat) : shiftBy v (-(k + 1 : Nat)) = rhu v (k + 1) := by
  rw [shiftBy, if_neg (by omega), neg_neg, Int.toNat_natCast]

/-- Settles O30: the quotient's bounds are those of `le_rhu_iff` and `rhu_lt_iff`, and a value below half of 2^k rounds to 0. -/
theorem rightShiftsRoundHalfUp : Obligations.rightShiftsRoundHalfUp := by
  unfold Obligations.rightShiftsRoundHalfUp
  refine ⟨rhu_zero, fun v k hk => ?_, fun v n k hn hnk hlow hhigh => ?_⟩
  · obtain ⟨k, rfl⟩ := Nat.exists_eq_add_one.mpr hk
    constructor
    · rw [mul_comm]
      exact le_rhu_iff.mp le_rfl
    · rw [mul_comm]
      exact rhu_lt_iff.mp (lt_add_one _)
  · obtain ⟨k, rfl⟩ := Nat.exists_eq_add_one.mpr (hn.trans_le hnk)
    have hhalf : (2 : Int) ^ (n - 1) ≤ 2 ^ k := pow_le_pow_right₀ (by norm_num) (by omega)
    have hnonneg : 0 ≤ rhu v (k + 1) := le_rhu_iff.mpr (by linarith)
    have hlt : rhu v (k + 1) < 1 := rhu_lt_iff.mpr (by rw [pow_succ]; linarith)
    omega

/-! ### Saturation -/

/-- Saturation leaves a value that the width holds. -/
theorem satTo_of_fits {n : Nat} {v : Int} (hlow : -(2 ^ (n - 1)) ≤ v) (hhigh : v < 2 ^ (n - 1)) : satTo n v = v := by
  rw [satTo, min_eq_right (by omega), max_eq_right hlow]

/-! ### The largest magnitude of a segment and its bit length -/

theorem le_foldl_max_natAbs (vs : List Int) (m : Nat) :
    m ≤ vs.foldl (fun m v => max m v.natAbs) m ∧ ∀ x ∈ vs, x.natAbs ≤ vs.foldl (fun m v => max m v.natAbs) m := by
  induction vs generalizing m with
  | nil => simp
  | cons v vs ih =>
    obtain ⟨hstart, hmem⟩ := ih (max m v.natAbs)
    rw [List.foldl_cons]
    refine ⟨(le_max_left _ _).trans hstart, fun x hx => ?_⟩
    rcases List.mem_cons.mp hx with rfl | hx
    · exact (le_max_right _ _).trans hstart
    · exact hmem x hx

theorem natAbs_le_maxAbs {vs : List Int} {x : Int} (hx : x ∈ vs) : x.natAbs ≤ maxAbs vs := (le_foldl_max_natAbs vs 0).2 x hx

theorem bitLength_bounds {m : Nat} (hm : m ≠ 0) :
    ∃ n, bitLength m = n + 1 ∧ 2 ^ n ≤ m ∧ m < 2 ^ (n + 1) :=
  ⟨m.log2, by rw [bitLength, if_neg hm], Nat.log2_self_le hm, Nat.lt_log2_self⟩

/-! ### Narrowing -/

/-- Without the ceiling and the floor the shift brings the bit length of the largest magnitude to 15 (R42). -/
theorem requant_of_unclamped {u : Int} {vs : List Int} (hm : maxAbs vs ≠ 0) (hc : (requant u vs).2.2 = false) :
    requant u vs = (vs.map fun x => satTo 16 (shiftBy x (-(bitLength (maxAbs vs) - 15))), u + (bitLength (maxAbs vs) - 15), false) := by
  unfold requant at hc ⊢
  simp only [hm, if_false, bne_eq_false_iff_eq] at hc ⊢
  rw [hc, bne_self_eq_false]

/-- A left shift to 15 bits: no value that n + 1 bits hold in magnitude leaves the 15 bits. -/
theorem natAbs_mul_two_pow_lt {x : Int} {n k : Nat} (hx : x.natAbs < 2 ^ (n + 1)) (hk : n + 1 + k = 15) :
    (x * 2 ^ k).natAbs < 32768 := by
  rw [Int.natAbs_mul, Int.natAbs_pow, show (32768 : Nat) = 2 ^ (n + 1) * 2 ^ k by rw [← pow_add, hk]; rfl]
  exact Nat.mul_lt_mul_of_pos_right hx (by positivity)

theorem le_natAbs_mul_two_pow {x : Int} {n k : Nat} (hx : 2 ^ n ≤ x.natAbs) (hk : n + 1 + k = 15) :
    16384 ≤ (x * 2 ^ k).natAbs := by
  rw [Int.natAbs_mul, Int.natAbs_pow, show 16384 = 2 ^ n * 2 ^ k by rw [← pow_add, show n + k = 14 by omega]; rfl]
  exact Nat.mul_le_mul_right _ hx

/-- A right shift to 15 bits: rounding half up can reach 32,768 in magnitude and no further. -/
theorem natAbs_rhu_bounds {v : Int} {k : Nat} (hlow : 2 ^ (k + 15) ≤ v.natAbs) (hhigh : v.natAbs < 2 ^ (k + 16)) :
    16384 ≤ (rhu v (k + 1)).natAbs ∧ (rhu v (k + 1)).natAbs ≤ 32768 := by
  have hhalf : (0 : Int) < 2 ^ k := by positivity
  have hle (a : Int) : a ≤ rhu v (k + 1) ↔ a * (2 ^ k * 2) ≤ v + 2 ^ k := by rw [le_rhu_iff, pow_succ]
  have hlt (a : Int) : rhu v (k + 1) < a ↔ v + 2 ^ k < a * (2 ^ k * 2) := by rw [rhu_lt_iff, pow_succ]
  zify [pow_add] at hlow hhigh
  rcases le_total 0 v with hv | hv
  · rw [abs_of_nonneg hv] at hlow hhigh
    have hbelow := (hle 16384).mpr (by linarith)
    have habove := (hlt 32769).mpr (by linarith)
    omega
  · rw [abs_of_nonpos hv] at hlow hhigh
    have hbelow := (hle (-32768)).mpr (by linarith)
    have habove := (hlt (-16383)).mpr (by linarith)
    omega

/-- The shift of R42 brings a magnitude of that bit length into 16,384 to 32,768. -/
theorem natAbs_shiftBy_bitLength {v : Int} (hv : v ≠ 0) :
    16384 ≤ (shiftBy v (-(bitLength v.natAbs - 15))).natAbs ∧ (shiftBy v (-(bitLength v.natAbs - 15))).natAbs ≤ 32768 := by
  obtain ⟨n, hn, hlow, hhigh⟩ := bitLength_bounds (Int.natAbs_ne_zero.mpr hv)
  rw [hn]
  rcases Nat.lt_or_ge n 15 with hleft | hright
  · obtain ⟨k, hk⟩ := Nat.exists_eq_add_of_le (show n + 1 ≤ 15 from hleft)
    rw [show -(((n + 1 : Nat) : Int) - 15) = k by omega, shiftBy_ofNat]
    exact ⟨le_natAbs_mul_two_pow hlow hk.symm, (natAbs_mul_two_pow_lt hhigh hk.symm).le⟩
  · obtain ⟨k, rfl⟩ := Nat.exists_eq_add_of_le' hright
    rw [show -(((k + 15 + 1 : Nat) : Int) - 15) = -(k + 1 : Nat) by omega, shiftBy_neg_succ]
    exact natAbs_rhu_bounds hlow hhigh

/-- When the shift of R42 is a left one, no value of the segment saturates. -/
theorem satTo_shiftBy_of_left {vs : List Int} {x : Int} {k : Nat} (hm : maxAbs vs ≠ 0) (hx : x ∈ vs)
    (hk : -((bitLength (maxAbs vs) : Int) - 15) = k) : satTo 16 (shiftBy x k) = x * 2 ^ k := by
  obtain ⟨n, hn, -, hhigh⟩ := bitLength_bounds hm
  have hlt := natAbs_mul_two_pow_lt ((natAbs_le_maxAbs hx).trans_lt hhigh) (show n + 1 + k = 15 by omega)
  rw [shiftBy_ofNat]
  exact satTo_of_fits (by omega) (by omega)

/-- Settles O31: the shift follows the bit length of the largest magnitude, which it brings to 15. -/
theorem narrowingFillsSixteenBits : Obligations.narrowingFillsSixteenBits := by
  unfold Obligations.narrowingFillsSixteenBits
  intro u vs v _ _ hmax hv hc
  have hm : maxAbs vs ≠ 0 := hmax ▸ Int.natAbs_ne_zero.mpr hv
  have hshift := requant_of_unclamped hm hc
  obtain ⟨hlow, hhigh⟩ := natAbs_shiftBy_bitLength hv
  rw [hmax] at hlow hhigh
  simp only [hshift, add_sub_cancel_left]
  refine ⟨hlow, hhigh, trivial, fun hy => by rw [hy]; decide, fun hy => satTo_of_fits (by omega) (by omega), fun hr x hx => ?_⟩
  obtain ⟨k, hk⟩ := Int.eq_ofNat_of_zero_le (show 0 ≤ -((bitLength (maxAbs vs) : Int) - 15) by omega)
  rw [hk, Int.toNat_natCast]
  exact satTo_shiftBy_of_left hm hx hk

end Sys2Proof.Machine
end

/-! SUPPORT. Doorbells (R344 to R346): what a write to an enabled submission ring does. -/

section
namespace Sys2Proof.Machine

/-- The row of a submission doorbell is the doorbell write itself. -/
theorem exec_doorbellSubmission (f r : BitVec 8) (d : DoorbellWrite) (s : State) :
    exec (.doorbellSubmission f r d) s = .next (doorbell s f.toNat r.toNat d.size d.value) := rfl

/-- A 32-bit write of a 16-bit value to an enabled submission ring is decided by the two conditions of R345 alone. -/
theorem doorbell_enabledSubmission {s : State} {f r : Nat} {v : BitVec 32} (hready : ready s = true) (hopen : barOpen s f = true)
    (hen : (ringOf s f r).en = true) (hkind : (ringOf s f r).kind = 0) (hv : v.toNat < 2 ^ 16) :
    let q := ringOf s f r
    let w : BitVec 16 := v.setWidth 16
    doorbell s f r .b32 v =
      if q.host - q.own ≤ w - q.own ∧ (w - q.own).toNat ≤ 2 ^ q.log2n.toNat - 1 then setRing s f r { q with host := w }
      else ignored s f := by
  have hserved : ¬((!ready s || !barOpen s f) = true) := by simp [hready, hopen]
  have hvalid : ¬(2 ^ 16 ≤ v.toNat ∨ (!(ringOf s f r).en) = true) := by simpa [hen] using hv
  unfold doorbell
  dsimp only
  rw [if_neg hserved, if_neg (by decide), if_neg hvalid, if_pos hkind, BitVec.ofNat_toNat]

/-- Settles O19: both cases are the two branches of `doorbell_enabledSubmission`. -/
theorem submissionDoorbell : Obligations.submissionDoorbell := by
  unfold Obligations.submissionDoorbell
  intro s f r v hready hopen q w d hen hkind hv
  have hrow := (exec_doorbellSubmission f r d s).trans
    (congrArg _ (doorbell_enabledSubmission hready hopen hen hkind hv))
  refine ⟨fun hforward hfits => ?_, fun hbad => ?_⟩
  · rw [hrow, if_pos ⟨hforward, hfits⟩]
  · rw [hrow, if_neg hbad]

end Sys2Proof.Machine
end

/-! SUPPORT. What every function of the model keeps, in the order of the functions: the queue, what the outside decides, Device Time,
fuses that only move forward and memories in canonical form. From it, what every command and every step keeps (O3 to O7). -/

section
namespace Sys2Proof.Machine

/-! ### What an operation keeps -/

theorem fusesFollow_refl (a : Fuses) : fusesFollow a a := ⟨rfl, rfl, rfl, rfl, BitVec.le_refl _, id, .inl rfl⟩

/-- What follows from later fuses follows from earlier ones: a part that is DESTROYED stays so, and keeps its device secret. -/
theorem fusesFollow_trans {a b c : Fuses} (h : fusesFollow a b) (k : fusesFollow b c) : fusesFollow a c := by
  obtain ⟨h1, h2, h3, h4, h5, h6, h7⟩ := h
  obtain ⟨k1, k2, k3, k4, k5, k6, k7⟩ := k
  refine ⟨k1.trans h1, k2.trans h2, k3.trans h3, k4.trans h4, BitVec.le_trans h5 k5, k6 ∘ h6, ?_⟩
  rcases k7 with hk | ⟨hl, hk⟩
  · rw [hk]
    exact h7.imp id fun ⟨hl, hu⟩ => ⟨k6 hl, hu⟩
  · exact .inr ⟨hl, hk⟩

/-- KEPOCH goes up by 1 from FIELD to RETURN only, where it is at most 2; nothing leads out of SCRAPPED. -/
theorem transition_follows {f : Fuses} {b : BitVec 3} {w : Signer} (h : transition f.kepoch f.lcs b = some w) :
    fusesFollow f { f with
      lcs := b
      kepoch := if f.lcs = 2 ∧ b = 3 then f.kepoch + 1 else f.kepoch
      uds := if b = 4 then BitVec.allOnes 256 else f.uds } := by
  have hk : f.kepoch ≤ 2 → f.kepoch ≤ f.kepoch + 1 := by
    generalize f.kepoch = k
    revert k
    decide
  have hl : (f.lcs = 4 → b = 4) ∧ (f.lcs = 2 ∧ b = 3 → f.kepoch ≤ 2) := by
    unfold transition at h
    grind
  refine ⟨rfl, rfl, rfl, rfl, ?_, hl.1, ?_⟩
  · dsimp only
    split
    · next hc => exact hk (hl.2 hc)
    · exact BitVec.le_refl _
  · dsimp only
    split
    · next hb => exact .inr ⟨hb, rfl⟩
    · exact .inl rfl

/-- From state s to state t neither the queue, what the outside decides nor Device Time has moved, the fuses stand in relation R (they
have only moved forward, or they have not moved), and memories in canonical form have stayed so. -/
structure Keeps (R : Fuses → Fuses → Prop) (s t : State) : Prop where
  pending : t.pending = s.pending
  env : t.env = s.env
  dtime : t.time.dtime = s.time.dtime
  fuses : R s.fuses t.fuses
  memories : memoriesOk s → memoriesOk t

variable {R : Fuses → Fuses → Prop}

theorem Keeps.start {s : State} (h : R s.fuses s.fuses) : Keeps R s s := ⟨rfl, rfl, rfl, h, id⟩

theorem Keeps.refl (s : State) : Keeps fusesFollow s s := .start (fusesFollow_refl _)

theorem Keeps.of_eq {α : Type} {s : State} {r q : α × State} (hq : r = q) (h : Keeps R s r.2) : Keeps R s q.2 := hq ▸ h

theorem Keeps.ite {s u v : State} {p : Prop} [Decidable p] (hu : Keeps R s u) (hv : Keeps R s v) : Keeps R s (if p then u else v) := by
  split
  · exact hu
  · exact hv

/-- An update of anything else, with memories that stay in canonical form. -/
theorem Keeps.update {s u : State} (h : Keeps R s u) {t : Time} (ht : t.dtime = u.time.dtime)
    {mHost mLocal mSram mFrost mSteward : Memory} {mHbm : Tbl Stored} {mLib : Tbl Sector}
    (hm : memoriesOk u → mHost.wf ∧ mLocal.wf ∧ mSram.wf ∧ tblWf mHbm ∧ tblWf mLib ∧ mFrost.wf ∧ mSteward.wf)
    {f01 f02 f03 f04 f05 f06 f07 f08 f09 f10 f11 f12 f13 f14 f15 f16 f17 f18 f19 f20 f21 f22 f23 f24 f25 f26 f27 f28} :
    Keeps R s (State.mk u.pending f01 f02 u.env u.fuses f03 f04 mHost mLocal mSram mHbm mLib mFrost mSteward f05 f06 f07 f08 f09 f10
      f11 f12 f13 f14 t f15 f16 f17 f18 f19 f20 f21 f22 f23 f24 f25 f26 f27 f28) :=
  ⟨h.pending, h.env, ht.trans h.dtime, h.fuses, fun hs => hm (h.memories hs)⟩

/-- An update of anything else but memories. -/
theorem Keeps.frame {s u : State} (h : Keeps R s u) {t : Time} (ht : t.dtime = u.time.dtime)
    {f01 f02 f03 f04 f05 f06 f07 f08 f09 f10 f11 f12 f13 f14 f15 f16 f17 f18 f19 f20 f21 f22 f23 f24 f25 f26 f27 f28} :
    Keeps R s (State.mk u.pending f01 f02 u.env u.fuses f03 f04 u.hostMem u.localMem u.sramMem u.hbmMem u.libMem u.frostMem u.stewardMem
      f05 f06 f07 f08 f09 f10 f11 f12 f13 f14 t f15 f16 f17 f18 f19 f20 f21 f22 f23 f24 f25 f26 f27 f28) :=
  h.update ht id

theorem Keeps.foldl {α : Type} {s : State} {f : State → α → State} (hf : ∀ t a, Keeps R s t → Keeps R s (f t a)) (l : List α)
    {u : State} (h : Keeps R s u) : Keeps R s (l.foldl f u) :=
  List.foldlRecOn l f h fun t ht a _ => hf t a ht

/-- A fold that carries an answer beside the state. -/
theorem Keeps.foldl_snd {α β : Type} {s : State} {f : β × State → α → β × State} 
    (hf : ∀ r a, Keeps R s r.2 → Keeps R s (f r a).2) (l : List α) {r : β × State} (h : Keeps R s r.2) : Keeps R s (l.foldl f r).2 :=
  List.foldlRecOn l f (motive := fun r => Keeps R s r.2) h fun r hr a _ => hf r a hr

/-- The same, of the fold's outcome. -/
theorem Keeps.of_foldl {α β : Type} {s : State} {f : β × State → α → β × State} {l : List α} {r q : β × State}
    (hq : l.foldl f r = q) (h : Keeps R s r.2) (hf : ∀ r a, Keeps R s r.2 → Keeps R s (f r a).2) : Keeps R s q.2 :=
  hq ▸ Keeps.foldl_snd hf l h

/-- A body that keeps what is kept, at issue and when it takes effect. -/
def BodyKeeps (R : Fuses → Fuses → Prop) (s : State) : TileIssue → Prop
  | .done u _ => Keeps R s u
  | .queued _ effect => ∀ v, Keeps R s v → Keeps R s (effect v).1
  | _ => True

/-! ### Memories -/

theorem Keeps.hostMem {s u : State} (h : Keeps R s u) {m : Memory} (hm : u.hostMem.wf → m.wf) : Keeps R s { u with hostMem := m } :=
  h.update rfl fun ⟨h1, h2⟩ => ⟨hm h1, h2⟩
theorem Keeps.localMem {s u : State} (h : Keeps R s u) {m : Memory} (hm : u.localMem.wf → m.wf) : Keeps R s { u with localMem := m } :=
  h.update rfl fun ⟨h1, h2, h3⟩ => ⟨h1, hm h2, h3⟩
theorem Keeps.sramMem {s u : State} (h : Keeps R s u) {m : Memory} (hm : u.sramMem.wf → m.wf) : Keeps R s { u with sramMem := m } :=
  h.update rfl fun ⟨h1, h2, h3, h4⟩ => ⟨h1, h2, hm h3, h4⟩
theorem Keeps.hbmMem {s u : State} (h : Keeps R s u) {m : Tbl Stored} (hm : tblWf u.hbmMem → tblWf m) : Keeps R s { u with hbmMem := m } :=
  h.update rfl fun ⟨h1, h2, h3, h4, h5⟩ => ⟨h1, h2, h3, hm h4, h5⟩
theorem Keeps.libMem {s u : State} (h : Keeps R s u) {m : Tbl Sector} (hm : tblWf u.libMem → tblWf m) : Keeps R s { u with libMem := m } :=
  h.update rfl fun ⟨h1, h2, h3, h4, h5, h6⟩ => ⟨h1, h2, h3, h4, hm h5, h6⟩
theorem Keeps.frostMem {s u : State} (h : Keeps R s u) {m : Memory} (hm : u.frostMem.wf → m.wf) : Keeps R s { u with frostMem := m } :=
  h.update rfl fun ⟨h1, h2, h3, h4, h5, h6, h7⟩ => ⟨h1, h2, h3, h4, h5, hm h6, h7⟩
theorem Keeps.stewardMem {s u : State} (h : Keeps R s u) {m : Memory} (hm : u.stewardMem.wf → m.wf) :
    Keeps R s { u with stewardMem := m } :=
  h.update rfl fun ⟨h1, h2, h3, h4, h5, h6, h7⟩ => ⟨h1, h2, h3, h4, h5, h6, hm h7⟩

theorem tblWf_cons {α : Type} (k : Nat) (v : α) (t : Tbl α) :
    tblWf ((k, v) :: t) = true ↔ (∀ p ∈ t, k < p.1) ∧ tblWf t = true := by
  induction t generalizing k v with
  | nil => simp [tblWf]
  | cons q t ih =>
    obtain ⟨j, w⟩ := q
    simp only [tblWf, Bool.and_eq_true, decide_eq_true_eq]
    refine ⟨fun ⟨hk, ht⟩ => ⟨fun p hp => ?_, ht⟩, fun ⟨hk, ht⟩ => ⟨hk (j, w) List.mem_cons_self, ht⟩⟩
    rcases List.mem_cons.1 hp with rfl | hp
    · exact hk
    · exact hk.trans (((ih j w).1 ht).1 p hp)

theorem mem_tblPut {α : Type} {t : Tbl α} {k : Nat} {v : α} {p : Nat × α} (h : p ∈ tblPut t k v) : p = (k, v) ∨ p ∈ t := by
  induction t with
  | nil => simpa [tblPut] using h
  | cons q t ih =>
    unfold tblPut at h
    grind

theorem tblPut_wf {α : Type} {t : Tbl α} (h : tblWf t = true) (k : Nat) (v : α) : tblWf (tblPut t k v) = true := by
  induction t with
  | nil => rfl
  | cons q t ih =>
    obtain ⟨j, w⟩ := q
    obtain ⟨hj, ht⟩ := (tblWf_cons j w t).1 h
    unfold tblPut
    split_ifs with h1 h2
    · exact (tblWf_cons k v t).2 ⟨h1 ▸ hj, ht⟩
    · refine (tblWf_cons k v _).2 ⟨fun p hp => ?_, h⟩
      rcases List.mem_cons.1 hp with rfl | hp
      · exact h2
      · exact h2.trans (hj p hp)
    · refine (tblWf_cons j w _).2 ⟨fun p hp => ?_, ih ht⟩
      rcases mem_tblPut hp with rfl | hp
      · show j < k
        omega
      · exact hj p hp

theorem tblFilter_wf {α : Type} {t : Tbl α} (h : tblWf t = true) (f : Nat × α → Bool) : tblWf (t.filter f) = true := by
  induction t with
  | nil => rfl
  | cons q t ih =>
    obtain ⟨hq, ht⟩ := (tblWf_cons q.1 q.2 t).1 h
    rw [List.filter_cons]
    split
    · exact (tblWf_cons q.1 q.2 _).2 ⟨fun p hp => hq p (List.mem_of_mem_filter hp), ih ht⟩
    · exact ih ht

theorem frostItems_wf {m : Memory} (h : m.wf = true) (base size : Nat) (l : List (Nat × List Byte)) :
    (frostItems m base size l).wf = true :=
  List.foldlRecOn l _ (motive := fun u : Memory => u.wf = true) h fun _ hu _ _ => memWriteN_wf hu _ _

theorem frostCores_wf {m : Memory} (h : m.wf = true) (s : State) : (frostCores s m).wf = true := by
  unfold frostCores
  split
  · exact frostItems_wf h ..
  · exact h

theorem frostItems_foldl_wf {α : Type} {m : Memory} (h : m.wf = true) (base size : Nat) (g : α → List (Nat × List Byte))
    (l : List α) : Memory.wf (l.foldl (fun u p => frostItems u base size (g p)) m) = true :=
  List.foldlRecOn l _ (motive := fun u : Memory => u.wf = true) h fun _ hu _ _ => frostItems_wf hu ..

/-- A snapshot is built by writes into an empty memory. -/
theorem frostImage_wf (s : State) (trigger : Nat) : (frostImage s trigger).wf = true := by
  have h2 := frostItems_foldl_wf (memWriteN_wf Memory.wf_nil 0 (frostHeader s trigger)) 0x0100000 16
    (fun p : Nat × Fn => p.2.rings.map fun r => (256 * p.1 + r.1, frostRing s p.1 r.1 r.2)) s.fns
  have h3 := frostItems_foldl_wf (frostItems_wf h2 0x0200000 64 (s.docket.entries.map fun p => (entryNumber s p.1, frostEntry s p.2)))
    0x0300000 16 (fun p : Nat × Ctx =>
      (List.range p.2.syncCount).map fun i => (p.2.syncBase + i, frostSync s p.1 (p.2.syncBase + i))) s.ctxs
  exact frostCores_wf (frostItems_wf (frostItems_wf (frostItems_wf (frostItems_wf (frostItems_wf (frostItems_wf h3 ..) ..) ..) ..) ..) ..) s

section
variable {s u : State} (h : Keeps R s u)
include h

/-! ### Ops -/

theorem keeps_drawNat : Keeps R s ((drawNat u).2) := by
  grind [drawNat, Keeps.frame]

theorem keeps_drawBytes (n) : Keeps R s (drawBytes n u).2 := by
  induction n generalizing u with
  | zero => exact h
  | succ n ih => exact ih (keeps_drawNat h)

theorem keeps_setFn (f v) : Keeps R s (setFn u f v) :=
  h.frame rfl

theorem keeps_setRing (f r v) : Keeps R s (setRing u f r v) := by
  grind [setRing, keeps_setFn, Keeps.frame]

theorem keeps_setCtx (c v) : Keeps R s (setCtx u c v) :=
  h.frame rfl

theorem keeps_modCtx (c g) : Keeps R s (modCtx u c g) := by
  grind [modCtx, keeps_setCtx, Keeps.frame]

theorem keeps_setTile (t v) : Keeps R s (setTile u t v) :=
  h.frame rfl

theorem keeps_setEntry (e v) : Keeps R s (setEntry u e v) :=
  h.frame rfl

theorem keeps_modEntry (e g) : Keeps R s (modEntry u e g) := by
  grind [modEntry, keeps_setEntry, Keeps.frame]

theorem keeps_delEntry (e) : Keeps R s (delEntry u e) :=
  h.frame rfl

theorem keeps_setStream (i v) : Keeps R s (setStream u i v) :=
  h.frame rfl

theorem keeps_setPc (p v) : Keeps R s (setPc u p v) :=
  h.frame rfl

theorem keeps_setChan (c v) : Keeps R s (setChan u c v) :=
  h.frame rfl

theorem keeps_setFlashChan (c v) : Keeps R s (setFlashChan u c v) :=
  h.frame rfl

theorem keeps_setLibBlock (g v) : Keeps R s (setLibBlock u g v) :=
  h.frame rfl

theorem keeps_setSync (g v) : Keeps R s (setSync u g v) :=
  h.frame rfl

theorem keeps_setPort (p v) : Keeps R s (setPort u p v) := by
  grind [setPort, Keeps.frame]

theorem keeps_setSlot (g v) : Keeps R s (setSlot u g v) :=
  h.frame rfl

theorem keeps_setCounter (n c) : Keeps R s (setCounter u n c) :=
  h.frame rfl

theorem keeps_hostWrite (a bs) : Keeps R s (hostWrite u a bs) := by
  unfold hostWrite
  split
  · exact h.hostMem fun hw => memWriteN_wf hw _ _
  · exact h
  · exact h.frame rfl

theorem keeps_sendMsix (f v) : Keeps R s (sendMsix u f v) := by
  grind [sendMsix, keeps_setFn, keeps_hostWrite, Keeps.frame]

theorem keeps_ringNotify (f i imm) : Keeps R s (ringNotify u f i imm) := by
  grind [ringNotify, keeps_sendMsix, keeps_setRing, Keeps.frame]

theorem keeps_ringWrite (f i bs imm) : Keeps R s (ringWrite u f i bs imm) := by
  grind [ringWrite, keeps_setRing, keeps_ringNotify, keeps_hostWrite, Keeps.frame]

theorem keeps_dropEvent (f) : Keeps R s (dropEvent u f) := by
  grind [dropEvent, keeps_setCounter, keeps_setFn, Keeps.frame]

theorem keeps_raiseEvent (f code arg16 arg) : Keeps R s (raiseEvent u f code arg16 arg) := by
  grind [raiseEvent, keeps_dropEvent, keeps_ringWrite, Keeps.frame]

theorem keeps_flushLost (f) : Keeps R s (flushLost u f) := by
  grind [flushLost, keeps_ringWrite, keeps_setFn, Keeps.frame]

theorem keeps_bump (n amount) : Keeps R s (bump u n amount) := by
  grind [bump, keeps_raiseEvent, keeps_setCounter, Keeps.frame]

theorem keeps_bumpFn (f k amount) : Keeps R s (bumpFn u f k amount) := by
  grind [bumpFn, keeps_bump, Keeps.frame]

theorem keeps_bumpTile (t k amount) : Keeps R s (bumpTile u t k amount) := by
  grind [bumpTile, keeps_bump, Keeps.frame]

theorem keeps_ignored (f) : Keeps R s (ignored u f) := by
  grind [ignored, keeps_bumpFn, Keeps.frame]

theorem keeps_countIf (b f) : Keeps R s (countIf b u f) := by
  grind [countIf, keeps_ignored, Keeps.frame]

theorem keeps_raiseAll (code arg16 arg) : Keeps R s (raiseAll u code arg16 arg) := by
  grind [raiseAll, keeps_raiseEvent, Keeps.frame, Keeps.foldl]

theorem keeps_logFaultAt (time frame kind ctx cause unit arg) : Keeps R s (logFaultAt u time frame kind ctx cause unit arg) :=
  h.frame rfl

theorem keeps_logFault (kind ctx cause unit arg) : Keeps R s (logFault u kind ctx cause unit arg) := by
  grind [logFault, keeps_logFaultAt, Keeps.frame]

theorem keeps_traceWrite (f kind status sq op cid) : Keeps R s (traceWrite u f kind status sq op cid) := by
  grind [traceWrite, keeps_setFn, keeps_hostWrite, Keeps.frame]

/-! ### Phys -/

theorem keeps_setStore (tier v) : Keeps R s (setStore u tier v) := by
  grind [setStore, Keeps.frame]

theorem keeps_storeTake (tier n) {out t} (ht : storeTake u tier n = some (out, t)) : Keeps R s t := by
  grind [storeTake, keeps_setStore, Keeps.frame]

theorem keeps_storeGive (tier qs) : Keeps R s (storeGive u tier qs) := by
  grind [storeGive, keeps_setStore, Keeps.frame]

theorem keeps_keepIssued (p l) : Keeps R s (keepIssued u p l) := by
  grind [keepIssued, keeps_setChan, Keeps.frame]

theorem keeps_issueOne (p) : Keeps R s (issueOne u p) := by
  grind [issueOne, keeps_keepIssued, keeps_setPc, Keeps.frame]

theorem keeps_admitStalled (p) : Keeps R s (admitStalled u p) := by
  grind [admitStalled, keeps_setPc, Keeps.frame]

theorem keeps_serveOne (p) : Keeps R s (serveOne u p) := by
  grind [serveOne, keeps_admitStalled, keeps_issueOne, Keeps.frame]

theorem keeps_pushReq (p r) : Keeps R s (pushReq u p r) := by
  grind [pushReq, keeps_admitStalled, keeps_setPc, Keeps.frame]

theorem keeps_hbmTouch (write q o n data v) : Keeps R s (hbmTouch u write q o n data v) := by
  grind [hbmTouch, keeps_bump, keeps_pushReq, Keeps.frame, Keeps.foldl]

theorem keeps_sramWrite (q o bs) : Keeps R s (sramWrite u q o bs) :=
  h.sramMem fun hw => memWriteN_wf hw _ _

theorem keeps_quadWipe (tier q) : Keeps R s (quadWipe u tier q) := by
  unfold quadWipe
  split
  · exact h.sramMem fun hw => memWipe_wf hw _ _
  · exact keeps_hbmTouch (h.hbmMem fun hw => tblFilter_wf hw _) ..

/-! ### Access -/

theorem keeps_condemn (p) : Keeps R s (condemn u p) := by
  grind [condemn, Keeps.frame]

theorem keeps_readStored (address m) : Keeps R s ((readStored u address m).2) := by
  unfold readStored
  dsimp only
  repeat' split
  all_goals grind [keeps_bump, keeps_condemn, Keeps.frame]

theorem keeps_putStored (q b x v) : Keeps R s (putStored u q b x v) :=
  keeps_hbmTouch (h.hbmMem fun hw => tblPut_wf hw _ _) ..

theorem keeps_engineWrite (q b d v) : Keeps R s (engineWrite u q b d v) := by
  grind [engineWrite, keeps_putStored, Keeps.frame]

theorem keeps_engineRead (q b n v) : Keeps R s ((engineRead u q b n v).2) := by
  grind [engineRead, keeps_hbmTouch, keeps_readStored, Keeps.frame]

theorem keeps_fetchTable (p g t v) : Keeps R s ((fetchTable u p g t v).2) := by
  grind [fetchTable, keeps_engineRead, keeps_setPc, Keeps.frame]

theorem keeps_fetchFor (c p header v) : Keeps R s ((fetchFor u c p header v).2) := by
  grind [fetchFor, keeps_fetchTable, Keeps.frame]

theorem keeps_installTable (c idx npc lengths cls) : Keeps R s (((installTable u c idx npc lengths cls).2).2) := by
  grind [installTable, keeps_engineWrite, keeps_setSlot, Keeps.frame]

theorem keeps_openHbm (c a d v) : Keeps R s ((openHbm u c a d v).2) := by
  grind [openHbm, keeps_fetchFor, Keeps.frame]

theorem keeps_readHbm (c q b v) : Keeps R s ((readHbm u c q b v).2) := by
  grind [readHbm, keeps_hbmTouch, keeps_readStored, keeps_openHbm, Keeps.frame]

theorem keeps_writeHbm (c q b slot raw v) : Keeps R s (writeHbm u c q b slot raw v) := by
  grind [writeHbm, keeps_putStored, keeps_bumpFn, keeps_fetchFor, Keeps.frame]

theorem keeps_walked (c va cls src) : Keeps R s (walked u c va cls src) := by
  unfold walked
  dsimp only
  repeat' split
  all_goals grind [keeps_hbmTouch, keeps_setTile, keeps_condemn, Keeps.frame, Keeps.foldl]

theorem keeps_readLeaf (c st l j) : Keeps R s ((readLeaf u c st l j).2) := by
  grind [readLeaf, keeps_bumpFn, Keeps.frame]

theorem keeps_putSector (x j d) : Keeps R s (putSector u x j d) := by
  unfold putSector
  split
  · exact h
  · exact h.libMem fun hw => tblPut_wf hw _ _

theorem keeps_unitRead (m o n) : Keeps R s ((unitRead u m o n).2) := by
  unfold unitRead
  dsimp only
  repeat' split
  all_goals grind [keeps_bump, Keeps.frame]

theorem keeps_readRun (key r b v) : Keeps R s ((readRun u key r b v).2) := by
  grind [readRun, keeps_hbmTouch, keeps_readStored, keeps_openHbm, Keeps.frame]

theorem keeps_readPage (key r v) : Keeps R s (readPage u key r v).2 := by
  unfold readPage
  split
  · exact h
  · exact Keeps.foldl_snd (fun q b hq => by grind [keeps_readRun]) _ h

theorem keeps_faultStream (i) : Keeps R s (faultStream u i) := by
  grind [faultStream, keeps_setStream, Keeps.frame]

omit h in
theorem keeps_faultOn {α : Type} {r : Except AccessErr α × State} (hr : Keeps R s r.2) (i) : Keeps R s (faultOn i r).2 := by
  unfold faultOn
  split
  · exact keeps_faultStream hr i
  · exact hr

theorem keeps_readWindow (c va n bytes v) : Keeps R s ((readWindow u c va n bytes v).2) := by
  grind [readWindow, keeps_hbmTouch, keeps_condemn, Keeps.frame]

theorem keeps_readKv (c i l j o n v) : Keeps R s ((readKv u c i l j o n v).2) := by
  grind [readKv, keeps_faultOn, keeps_readRun, keeps_readLeaf, Keeps.frame]

theorem keeps_readLibrary (c va n p) : Keeps R s ((readLibrary u c va n p).2) := by
  grind [readLibrary, keeps_unitRead, Keeps.frame]

theorem keeps_readBlock (c va n cls src) : Keeps R s ((readBlock u c va n cls src).2) := by
  grind [readBlock, keeps_faultOn, keeps_readLibrary, keeps_readHbm, keeps_readKv, keeps_readWindow, keeps_walked, Keeps.frame]

theorem keeps_readGo (c cls src fuel va n acc) : Keeps R s (readGo c cls src fuel u va n acc).2 := by
  induction fuel generalizing u va n acc with
  | zero => exact h
  | succ fuel ih =>
    cases n with
    | zero => exact h
    | succ n =>
      have hb := keeps_readBlock h c va (min (n + 1) (4096 - va % 4096)) cls src
      rw [readGo]
      · split
        · next hr => exact ih (Keeps.of_eq hr hb :) ..
        · exact hb
      · exact Nat.succ_ne_zero n

theorem keeps_readVA (c va n cls src) : Keeps R s ((readVA u c va n cls src).2) := by
  grind [readVA, keeps_readGo, Keeps.frame]

theorem keeps_writeBlock (c va bs slot cls src) : Keeps R s ((writeBlock u c va bs slot cls src).2) := by
  grind [writeBlock, keeps_sramWrite, keeps_modCtx, keeps_writeHbm, keeps_walked, keeps_hostWrite, Keeps.frame]

theorem keeps_writeGo (c slot cls src fuel va bs) : Keeps R s (writeGo c slot cls src fuel u va bs).2 := by
  induction fuel generalizing u va bs with
  | zero => exact h
  | succ fuel ih => grind [writeGo, keeps_writeBlock]

theorem keeps_spoilCode (c va bs) : Keeps R s ((spoilCode u c va bs).2) := by
  grind [spoilCode, keeps_setTile, Keeps.frame, Keeps.foldl]

theorem keeps_writeVA (c va bs slot cls src) : Keeps R s ((writeVA u c va bs slot cls src).2) := by
  grind [writeVA, keeps_writeGo, keeps_spoilCode, Keeps.frame]

/-! ### Requests -/

theorem keeps_writeCompletion (f sq cid op st result imm) : Keeps R s (writeCompletion u f sq cid op st result imm) := by
  grind [writeCompletion, keeps_ringWrite, Keeps.frame]

theorem keeps_putRange (r bs) : Keeps R s (putRange u r bs) := by
  unfold putRange
  split
  · exact h.localMem fun hw => memWriteN_wf hw _ _
  · exact keeps_writeVA h ..

theorem keeps_scrub (r) : Keeps R s (scrub u r) := by
  grind [scrub, keeps_putRange, Keeps.frame]

theorem keeps_stopAtRow (i) : Keeps R s (stopAtRow u i) := by
  grind [stopAtRow, keeps_scrub, keeps_putRange, Keeps.frame, Keeps.foldl]

theorem keeps_stopFlight (rows i) : Keeps R s (stopFlight rows u i) := by
  grind [stopFlight, keeps_stopAtRow, keeps_scrub, Keeps.frame, Keeps.foldl]

theorem keeps_releaseTile (t) : Keeps R s (releaseTile u t) := by
  grind [releaseTile, keeps_bumpFn, keeps_bumpTile, keeps_stopFlight, keeps_setTile, Keeps.frame, Keeps.foldl]

theorem keeps_unwait (es) : Keeps R s (unwait u es) :=
  h.frame rfl

theorem keeps_dropEntry (e) : Keeps R s (dropEntry u e) := by
  grind [dropEntry, keeps_unwait, keeps_releaseTile, keeps_delEntry, Keeps.frame, Keeps.foldl]

theorem keeps_finish (e st) : Keeps R s (finish u e st) := by
  grind [finish, keeps_traceWrite, keeps_bumpFn, keeps_writeCompletion, keeps_dropEntry, Keeps.frame]

theorem keeps_finishWith (e st result) : Keeps R s (finishWith u e st result) := by
  grind [finishWith, keeps_finish, keeps_modEntry, Keeps.frame]

theorem keeps_pqWrite (f q bs) : Keeps R s (pqWrite u f q bs) := by
  grind [pqWrite, keeps_bumpFn, keeps_raiseEvent, keeps_ringWrite, keeps_hostWrite, Keeps.frame]

theorem keeps_writeRecordAt (x j bs) : Keeps R s (writeRecordAt u x j bs) := by
  grind [writeRecordAt, keeps_pqWrite, keeps_hostWrite, Keeps.frame]

theorem keeps_settlePart (e j st nacc pos path tokens) : Keeps R s (settlePart u e j st nacc pos path tokens) := by
  grind [settlePart, keeps_writeRecordAt, keeps_modEntry, Keeps.frame]

theorem keeps_releaseRun (key) : Keeps R s (releaseRun u key) := by
  grind [releaseRun, keeps_modCtx, Keeps.frame]

theorem keeps_endParts (e x) : Keeps R s (endParts u e x) := by
  grind [endParts, keeps_modCtx, keeps_setStream, keeps_releaseRun, keeps_modEntry, Keeps.frame, Keeps.foldl]

theorem keeps_endLoad (e x) : Keeps R s (endLoad u e x) := by
  grind [endLoad, keeps_modCtx, keeps_modEntry, Keeps.frame, Keeps.foldl]

theorem keeps_endHandover (e) : Keeps R s (endHandover u e) := by
  grind [endHandover, Keeps.frame]

theorem keeps_abandon (e) : Keeps R s (abandon u e) := by
  grind [abandon, keeps_endParts, keeps_endHandover, keeps_endLoad, Keeps.frame]

theorem keeps_markMet (g value) : Keeps R s (markMet u g value) :=
  h.frame rfl

theorem keeps_addSyncBy (g amount clock) : Keeps R s ((addSyncBy u g amount clock).1) := by
  grind [addSyncBy, keeps_setSync, keeps_markMet, Keeps.frame]

theorem keeps_addSync (g amount) : Keeps R s ((addSync u g amount).1) := by
  grind [addSync, keeps_addSyncBy, Keeps.frame]

theorem keeps_settleAll (e st) : Keeps R s (settleAll u e st) := by
  grind [settleAll, keeps_settlePart, Keeps.frame, Keeps.foldl]

theorem keeps_stopTiles (e) : Keeps R s (stopTiles u e) := by
  grind [stopTiles, keeps_setTile, Keeps.frame, Keeps.foldl]

theorem keeps_endRequest (e st) : Keeps R s (endRequest u e st) := by
  grind [endRequest, keeps_settleAll, keeps_finish, keeps_abandon, keeps_stopTiles, keeps_modEntry, Keeps.frame]

theorem keeps_putFrame (port srcPort frameType flags dst jobNum seq address arg payload) : Keeps R s (putFrame u port srcPort
    frameType flags dst jobNum seq address arg payload) :=
  h.frame rfl

theorem keeps_sendFrame (frameType flags dst jobNum address arg payload answer) : Keeps R s (sendFrame u frameType flags dst jobNum
    address arg payload answer) := by
  grind [sendFrame, keeps_putFrame, keeps_setPort, Keeps.frame]

theorem keeps_announceFault (w) : Keeps R s (announceFault u w) := by
  grind [announceFault, keeps_sendFrame, Keeps.frame, Keeps.foldl]

theorem keeps_recordTpFault (t cause) : Keeps R s (recordTpFault u t cause) := by
  grind [recordTpFault, keeps_modCtx, Keeps.frame]

theorem keeps_faultWaits (e) : Keeps R s (faultWaits u e) := by
  grind [faultWaits, keeps_recordTpFault, Keeps.frame, Keeps.foldl]

theorem keeps_faultJob (c cause unit announce) : Keeps R s (faultJob u c cause unit announce) := by
  unfold faultJob
  dsimp only
  repeat' split
  all_goals grind [keeps_endRequest, keeps_announceFault, keeps_logFault, keeps_raiseEvent, keeps_faultWaits, keeps_setCtx,
      Keeps.frame, Keeps.foldl]

theorem keeps_faultRequest (e cause unit) : Keeps R s (faultRequest u e cause unit) := by
  grind [faultRequest, keeps_endRequest, keeps_faultJob, Keeps.frame]

theorem keeps_closeJob (c) : Keeps R s (closeJob u c) := by
  grind [closeJob, keeps_setCtx, Keeps.frame]

theorem keeps_closeEpoch (c self p) : Keeps R s ((closeEpoch u c self p).1) := by
  grind [closeEpoch, keeps_setCtx, Keeps.frame]

theorem keeps_recordTrans (c kind va write src rank) : Keeps R s (recordTrans u c kind va write src rank) := by
  grind [recordTrans, keeps_modCtx, Keeps.frame]

theorem keeps_readLate (e) : Keeps R s (readLate u e) := by
  grind [readLate, keeps_modEntry, Keeps.frame]

theorem keeps_failEngine (e err) : Keeps R s (failEngine u e err) := by
  grind [failEngine, keeps_endRequest, keeps_faultRequest, keeps_recordTrans, keeps_readLate, Keeps.frame]

/-! ### Pools -/

theorem keeps_writeRun (c heads tier slot bytes whole v) {a b t} (ht : writeRun u c heads tier slot bytes whole v = some (a, b, t)) :
    Keeps R s t := by
  unfold writeRun at ht
  dsimp only at ht
  split at ht
  · cases ht
  · split at ht
    · cases ht
    · cases ht
      have h3 {x runs} (n : Nat) : Keeps R s (if n = 0 then { setCtx u c x with runs := runs }
          else bumpFn { setCtx u c x with runs := runs } c 9 n) :=
        have h2 : Keeps R s { setCtx u c x with runs := runs } := (keeps_setCtx h c x).frame rfl
        .ite h2 (keeps_bumpFn h2 ..)
      exact .ite (h3 _) (keeps_hbmTouch (h3 _) ..)

theorem keeps_writeFrom (c heads tier slot bytes resv v) {a t} (ht : writeFrom u c heads tier slot bytes resv v = some (a, t)) :
    Keeps R s t := by
  unfold writeFrom at ht
  dsimp only at ht
  split at ht
  · cases ht
  · split at ht
    · cases ht
    · next hw =>
      cases ht
      exact keeps_modCtx (keeps_writeRun h _ _ _ _ _ _ _ hw) ..

theorem keeps_invalidateWindow (c n) : Keeps R s (invalidateWindow u c n) :=
  h.frame rfl

theorem keeps_completeWaiters (c id) : Keeps R s (completeWaiters u c id) := by
  grind [completeWaiters, keeps_finish, Keeps.frame, Keeps.foldl]

theorem keeps_unloadPackage (c h') : Keeps R s (unloadPackage u c h') := by
  grind [unloadPackage, keeps_setCtx, keeps_setSlot, Keeps.frame, Keeps.foldl]

theorem keeps_drainEpoch (c p) : Keeps R s (drainEpoch u c p) := by
  have hq (b : Bool) (l : List Nat) {v} (hv : Keeps R s v) : Keeps R s (l.foldl (fun t q => quadWipe t b q) v) :=
    Keeps.foldl (fun t q ht => keeps_quadWipe ht b q) l hv
  have h1 := Keeps.foldl (fun t k ht => keeps_releaseRun ht k) p.runs h
  have h5 {v} (hv : Keeps R s v) : Keeps R s (match p.handle with | some h => unloadPackage v c h | none => v) := by
    split
    · exact keeps_unloadPackage hv ..
    · exact hv
  have h6 {v} (hv : Keeps R s v) :
      Keeps R s (match p.streamClose with | some i => { v with streams := tblDel v.streams i } | none => v) := by
    split
    · exact hv.frame rfl
    · exact hv
  have h3 {f l} : Keeps R s { modCtx (if p.handle.isSome then p.quads1.foldl (fun u q => quadWipe u true q)
      (p.quads0.foldl (fun u q => quadWipe u false q) (p.runs.foldl releaseRun u)) else p.runs.foldl releaseRun u) c f with
        streams := l } :=
    (keeps_modCtx (.ite (hq _ _ (hq _ _ h1)) h1) c f).frame rfl
  exact keeps_completeWaiters (h6 (h5 h3)) ..

theorem keeps_epochDrain (c id) : Keeps R s (epochDrain u c id) := by
  grind [epochDrain, keeps_drainEpoch, Keeps.frame]

/-! ### Transfers -/

theorem keeps_startSyncSignal (e x b) : Keeps R s (startSyncSignal u e x b) := by
  grind [startSyncSignal, keeps_faultJob, keeps_finish, keeps_addSync, Keeps.frame]

theorem keeps_retireSyncWait (e) : Keeps R s (retireSyncWait u e) := by
  grind [retireSyncWait, keeps_finishWith, keeps_finish, Keeps.frame]

theorem keeps_copyRead (c cls src host a n) : Keeps R s ((copyRead u c cls src host a n).2) := by
  grind [copyRead, keeps_readVA, Keeps.frame]

theorem keeps_copyGo (c cls who slot dir okS okD total fuel src dst left) :
    Keeps R s (copyGo c cls who slot dir okS okD total fuel u src dst left).2.2 := by
  induction fuel generalizing u src dst left with
  | zero => exact h
  | succ fuel ih => grind [copyGo, keeps_copyRead, keeps_hostWrite, keeps_writeVA]

theorem keeps_scrubCopy (c b n slot) : Keeps R s (scrubCopy u c b n slot) := by
  grind [scrubCopy, keeps_writeVA, keeps_hostWrite, Keeps.frame]

theorem keeps_startCopy (e x b) : Keeps R s (startCopy u e x b) := by
  grind [startCopy, keeps_faultRequest, keeps_finish, keeps_copyGo, keeps_scrubCopy, keeps_failEngine, Keeps.frame]

theorem keeps_startPoolGrow (e x b) : Keeps R s (startPoolGrow u e x b) := by
  unfold startPoolGrow
  dsimp only
  split
  · exact keeps_finish h ..
  · split
    · exact keeps_finish h ..
    · split
      · exact keeps_finish h ..
      · next ht => exact keeps_finish (keeps_setCtx (keeps_storeTake h _ _ ht) ..) ..

theorem keeps_startPoolShrink (e x b) : Keeps R s (startPoolShrink u e x b) := by
  grind [startPoolShrink, keeps_finish, keeps_storeGive, keeps_quadWipe, keeps_setCtx, Keeps.frame, Keeps.foldl]

/-! ### Tables -/

theorem keeps_tableSource (c cls who b) : Keeps R s ((tableSource u c cls who b).2) := by
  grind [tableSource, keeps_readVA, Keeps.frame]

theorem keeps_startTableLoad (e x b) : Keeps R s (startTableLoad u e x b) := by
  grind [startTableLoad, keeps_finish, keeps_failEngine, keeps_tableSource, keeps_modEntry, Keeps.frame]

theorem keeps_installTableLoad (e x b) : Keeps R s (installTableLoad u e x b) := by
  grind [installTableLoad, keeps_installTable, keeps_finish, keeps_hostWrite, Keeps.frame]

theorem keeps_markTablesDue : Keeps R s (markTablesDue u) :=
  h.frame rfl

/-! ### Streams -/

theorem keeps_startStreamOpen (e x b) : Keeps R s (startStreamOpen u e x b) := by
  unfold startStreamOpen
  dsimp only
  repeat' split
  all_goals grind [keeps_finish, keeps_setStream, keeps_drawNat, keeps_quadWipe, keeps_hostWrite, keeps_setCtx, Keeps.frame,
      Keeps.foldl]

theorem keeps_cancelWaits (i) : Keeps R s (cancelWaits u i) := by
  grind [cancelWaits, keeps_modCtx, keeps_settlePart, keeps_modEntry, Keeps.frame, Keeps.foldl]

theorem keeps_closePoint (e x i) : Keeps R s (closePoint u e x i) := by
  unfold closePoint
  dsimp only
  repeat' split
  all_goals grind [keeps_finish, keeps_setStream, keeps_cancelWaits, keeps_closeEpoch, keeps_modEntry, keeps_setCtx, Keeps.frame]

theorem keeps_startStreamClose (e x i) : Keeps R s (startStreamClose u e x i) := by
  grind [startStreamClose, keeps_finish, keeps_closePoint, Keeps.frame]

theorem keeps_copyRuns (c i toHbm resv slot v l) : Keeps R s (copyRuns c i toHbm resv slot v l u).2.2 := by
  induction l generalizing u with
  | nil => exact h
  | cons key l ih =>
    unfold copyRuns
    dsimp only
    split
    · exact ih h
    · next r _ =>
      have hr := keeps_readPage h key r v
      split
      · next hp => exact (Keeps.of_eq hp hr :)
      · next hp =>
        replace hr := Keeps.of_eq hp hr
        split
        · exact hr
        · next leaf t hw =>
          generalize hq : copyRuns c i toHbm resv slot v l _ = q
          have hn : Keeps R s q.2.2 := hq ▸ ih ((keeps_writeFrom hr _ _ _ _ _ _ _ hw).frame rfl)
          split <;> exact hn

theorem keeps_copyQuad (c toHbm slot old new v) : Keeps R s (copyQuad u c toHbm slot old new v).2 :=
  Keeps.foldl_snd (fun q b hq => by grind [keeps_sramWrite, keeps_readHbm, keeps_writeHbm]) _ h

theorem keeps_copyRegion (c toHbm slot pages qs v) : Keeps R s (copyRegion u c toHbm slot pages qs v).2 :=
  Keeps.foldl_snd (fun q b hq => by grind [keeps_copyQuad]) _ h

theorem keeps_moveRegion (c i toHbm e pages qs made) : Keeps R s (moveRegion u c i toHbm e pages qs made) := by
  grind [moveRegion, keeps_modCtx, keeps_setStream, keeps_closeEpoch, Keeps.frame, Keeps.foldl]

theorem keeps_moveStream (c i toHbm resv v) : Keeps R s ((moveStream u c i toHbm resv v).2) := by
  unfold moveStream
  dsimp only
  repeat' split
  all_goals grind [keeps_copyRuns, keeps_copyRegion, keeps_faultStream, keeps_moveRegion, keeps_setCtx, Keeps.frame]

theorem keeps_startPark (e x b) : Keeps R s (startPark u e x b) := by
  grind [startPark, keeps_faultRequest, keeps_moveStream, keeps_finish, Keeps.frame]

theorem keeps_swapIn (c i v resv) : Keeps R s ((swapIn u c i v resv).2) := by
  grind [swapIn, keeps_moveStream, Keeps.frame]

theorem keeps_startUnpark (e x i) : Keeps R s (startUnpark u e x i) := by
  grind [startUnpark, keeps_faultRequest, keeps_finish, keeps_swapIn, Keeps.frame]

theorem keeps_mappedAll (c i j) : Keeps R s (mappedAll u c i j).2 :=
  Keeps.foldl_snd (f := fun acc l =>
    let r := readLeaf acc.2 c (streamOf u i) l j
    (acc.1 && r.1.isSome, r.2)) (fun _ _ hq => keeps_readLeaf hq ..) _ h

theorem keeps_sourceBad (c b) : Keeps R s (sourceBad u c b).2 := by
  unfold sourceBad
  dsimp only
  split
  · exact h
  · exact Keeps.foldl_snd (f := fun acc j =>
      let m := mappedAll acc.2 c b.sstream.toNat j
      (acc.1 && m.1, m.2)) (fun _ _ hq => keeps_mappedAll hq ..) _ h

theorem keeps_aliasIndex (i si j k) : Keeps R s (aliasIndex u i si j k) := by
  grind [aliasIndex, keeps_setStream, Keeps.frame, Keeps.foldl]

theorem keeps_backTables (c i js) {t} (ht : backTables u c i js = some t) : Keeps R s t := by
  grind [backTables, keeps_setCtx, Keeps.frame]

theorem keeps_importOne (c i slot v j l bs live a) {b t} (ht : importOne u c i slot v j l bs live a = .ok (b, t)) : Keeps R s t := by
  unfold importOne at ht
  dsimp only at ht
  split at ht
  · cases ht
  · split at ht
    · cases ht
    · next hw =>
      cases ht
      exact keeps_writeFrom h _ _ _ _ _ _ _ hw

theorem keeps_importGo (c i who v slot b l live a) : Keeps R s (importGo c i who v slot b l u live a).2.1 := by
  induction l generalizing u live a with
  | nil => exact h
  | cons p l ih =>
    obtain ⟨k, y⟩ := p
    unfold importGo
    dsimp only
    have hr := keeps_readVA h c (b.src.toNat + (k * (streamOf u i).layers + y) * 69632) 69632 v.cls who
    split
    · next hv => exact (Keeps.of_eq hv hr :)
    · next bs w hv =>
      replace hr := Keeps.of_eq hv hr
      generalize (if y = 0 then BitVec.ofNat 64 (fieldAt bs 66048 8) else live) = live1
      split
      · exact hr
      · split
        · exact hr
        · next ho => exact ih (keeps_importOne hr _ _ _ _ _ _ _ _ _ ho) ..

theorem keeps_publishMap (e c) : Keeps R s (publishMap u e c) := by
  grind [publishMap, keeps_finish, keeps_closeEpoch, Keeps.frame]

theorem keeps_importMap (e x b) {back : State → State} (hb : ∀ t, Keeps R s t → Keeps R s (back t)) :
    Keeps R s (importMap u e x b back) := by
  grind [importMap, keeps_importGo, keeps_finish, keeps_failEngine, keeps_releaseRun, keeps_publishMap, keeps_setStream, Keeps.foldl]

theorem keeps_startKvMap (e x b) : Keeps R s (startKvMap u e x b) := by
  unfold startKvMap
  dsimp only
  split
  · exact keeps_finish h ..
  split
  · exact keeps_finish h ..
  have hr : Keeps R s (if b.mode = 1 then sourceBad u x.ctx b else (false, u)).2 := by
    split
    · exact keeps_sourceBad h ..
    · exact h
  split
  · next hq => exact keeps_finish (Keeps.of_eq hq hr :) ..
  · next hq =>
    replace hr := Keeps.of_eq hq hr
    split
    · exact keeps_finish hr ..
    · next hb =>
      have h1 := keeps_backTables hr _ _ _ hb
      split
      · exact keeps_publishMap (Keeps.foldl (fun t k ht => keeps_aliasIndex ht ..) _ h1) ..
      · refine keeps_importMap h1 _ _ _ fun t ht => ?_
        split
        · exact keeps_modCtx ht ..
        · exact ht

theorem keeps_changeUnder (c i self t unmapped runs) : Keeps R s ((changeUnder u c i self t unmapped runs).1) := by
  grind [changeUnder, keeps_setStream, keeps_closeEpoch, Keeps.frame]

theorem keeps_startKvUnmap (e x b) : Keeps R s (startKvUnmap u e x b) := by
  grind [startKvUnmap, keeps_finish, keeps_changeUnder, keeps_modEntry, Keeps.frame]

/-! ### Packages -/

theorem keeps_segmentStored (key lunit i g) : Keeps R s (segmentStored u key lunit i g).2 := by
  refine Keeps.foldl_snd (fun q k hq => ?_) _ h
  split
  · exact hq
  · next bs t =>
    have hr := keeps_unitRead hq (lunit + g.loff + k) 0 65536
    dsimp only
    split
    · next hg => exact (Keeps.of_eq hg hr :)
    · next hg => exact (Keeps.of_eq hg hr :)
    · next hg =>
      replace hr := Keeps.of_eq hg hr
      split <;> exact hr

theorem keeps_failLoad (e st) : Keeps R s (failLoad u e st) := by
  grind [failLoad, keeps_finish, keeps_abandon, keeps_readLate, Keeps.frame]

theorem keeps_writePage (c slot tier q bs v) : Keeps R s (writePage u c slot tier q bs v) := by
  grind [writePage, keeps_sramWrite, keeps_writeHbm, Keeps.frame, Keeps.foldl]

theorem keeps_publishLoad (e x b graph) : Keeps R s (publishLoad u e x b graph) := by
  grind [publishLoad, keeps_finishWith, keeps_setCtx, Keeps.frame, Keeps.foldl]

theorem keeps_loadSegments (e x b) : Keeps R s (loadSegments u e x b) := by
  unfold loadSegments
  dsimp only
  generalize hq : List.foldl _ _ _ = q
  have hr : Keeps R s q.2 := Keeps.of_foldl hq h fun r i hr => by
    split
    · next t g _ =>
      split
      · dsimp only
        split
        · exact Keeps.foldl (fun v k hv => keeps_quadWipe hv ..) _ hr
        · exact hr
      · have hs := keeps_segmentStored hr (match ctxOf u x.ctx with | some k => tblGetD k.contentKeys x.window [] | none => [])
            b.lunit.toNat i g
        have hh : Keeps R s (if g.kind = 3 then ((.ok [], t) : Except (BitVec 8) (List Byte) × State)
            else segmentStored t (match ctxOf u x.ctx with | some k => tblGetD k.contentKeys x.window [] | none => [])
              b.lunit.toNat i g).2 := by
          split
          · exact hr
          · exact hs
        split
        · next hg => exact (Keeps.of_eq hg hh :)
        · next hg =>
          replace hh := Keeps.of_eq hg hh
          split
          · exact hh
          split
          · exact hh
          split
          · exact hh
          split
          · exact hh
          · exact Keeps.foldl (fun v k hv => keeps_writePage hv ..) _ hh
    · exact hr
  split
  · exact keeps_failLoad hr ..
  · exact keeps_publishLoad hr ..

theorem keeps_loadTables (key lunit m) : Keeps R s (loadTables u key lunit m).2 := by
  unfold loadTables
  dsimp only
  generalize hq : List.foldl _ _ _ = q
  have hr : Keeps R s q.2 := Keeps.of_foldl hq h fun r i hr => by
    split
    · next t g _ =>
      have hs := keeps_segmentStored hr key lunit i g
      split
      · exact hr
      · split
        · next hg => exact (Keeps.of_eq hg hs :)
        · next hg =>
          replace hs := Keeps.of_eq hg hs
          split
          · exact hs
          · split <;> exact hs
    · exact hr
  split
  · exact hr
  · split <;> exact hr

theorem keeps_installLoad (e x b) : Keeps R s (installLoad u e x b) := by
  unfold installLoad
  split
  · exact h
  · refine keeps_loadSegments (keeps_modEntry ?_ ..) ..
    refine List.foldlRecOn x.images _ (motive := fun r : State × Tbl Nat => Keeps R s r.1) h fun r hr p _ => ?_
    split
    · exact hr
    · exact keeps_installTable hr ..

theorem keeps_startPackageLoad (e x b) : Keeps R s (startPackageLoad u e x b) := by
  unfold startPackageLoad
  dsimp only
  split
  · exact keeps_finish h ..
  · exact keeps_finish h ..
  split
  · exact keeps_finish h ..
  have hu := keeps_unitRead h b.lunit.toNat 0 65536
  split
  · next hq => exact keeps_finish (Keeps.of_eq hq hu :) ..
  · next hq => exact keeps_readLate (Keeps.of_eq hq hu :) ..
  next hq =>
  replace hu := Keeps.of_eq hq hu
  split
  · exact keeps_finish hu ..
  split
  · exact keeps_finish hu ..
  split
  · exact keeps_finish hu ..
  split
  · exact keeps_finish hu ..
  · exact keeps_readLate hu ..
  split
  · exact keeps_finish hu ..
  split
  · split
    · exact keeps_finish hu ..
    · next k2 _ =>
      generalize hv : setEntry (setCtx _ x.ctx k2) e _ = v
      have hl := keeps_loadTables (hv ▸ keeps_setEntry (keeps_setCtx hu ..) .. : Keeps R s v) ‹List Byte› b.lunit.toNat
      split
      · next hg => exact keeps_failLoad (Keeps.of_eq hg (hl _) :) ..
      · next hg => exact keeps_loadSegments (Keeps.of_eq hg (hl _) :) ..
      · next hg => exact keeps_modEntry (Keeps.of_eq hg (hl _) :) ..
  · exact keeps_finish hu ..

theorem keeps_startPackageUnload (e x h') : Keeps R s (startPackageUnload u e x h') := by
  unfold startPackageUnload
  dsimp only
  repeat' split
  all_goals grind [keeps_finish, keeps_closeEpoch, keeps_invalidateWindow, keeps_modEntry, keeps_setCtx, Keeps.frame]

theorem keeps_startAttest (e x b) : Keeps R s (startAttest u e x b) := by
  grind [startAttest, keeps_finishWith, keeps_drawBytes, keeps_hostWrite, Keeps.frame]

/-! ### Contexts -/

theorem keeps_forgetSeen (jobNum) : Keeps R s (forgetSeen u jobNum) :=
  h.frame rfl

theorem keeps_openJob (c b) : Keeps R s (openJob u c b) := by
  grind [openJob, keeps_forgetSeen, keeps_setCtx, Keeps.frame]

theorem keeps_noteEnder (c e) : Keeps R s (noteEnder u c e) := by
  grind [noteEnder, keeps_modCtx, Keeps.frame]

theorem keeps_finishJobEnd (e st) : Keeps R s (finishJobEnd u e st) := by
  grind [finishJobEnd, keeps_closeJob, keeps_finish, keeps_modEntry, Keeps.frame, Keeps.foldl]

theorem keeps_tryJobEnd (e) : Keeps R s (tryJobEnd u e) := by
  grind [tryJobEnd, keeps_finishJobEnd, Keeps.frame]

theorem keeps_cancelJob (c) : Keeps R s (cancelJob u c) := by
  grind [cancelJob, keeps_endRequest, Keeps.frame, Keeps.foldl]

theorem keeps_startJobEnd (e x flags) : Keeps R s (startJobEnd u e x flags) := by
  grind [startJobEnd, keeps_cancelJob, keeps_finish, keeps_tryJobEnd, Keeps.frame]

theorem keeps_timeoutJobEnd (e x) : Keeps R s (timeoutJobEnd u e x) := by
  grind [timeoutJobEnd, keeps_cancelJob, keeps_finish, keeps_tryJobEnd, keeps_modEntry, Keeps.frame]

theorem keeps_endAllRequests (f st) : Keeps R s (endAllRequests u f st) := by
  grind [endAllRequests, keeps_endRequest, keeps_closeJob, Keeps.frame, Keeps.foldl]

theorem keeps_zeroFnCounters (c) : Keeps R s (zeroFnCounters u c) :=
  h.frame rfl

theorem keeps_emptySlots (b n) : Keeps R s (emptySlots u b n) :=
  h.frame rfl

theorem keeps_zeroSyncs (b n) : Keeps R s (zeroSyncs u b n) :=
  h.frame rfl

theorem keeps_startContextCreate (e b) : Keeps R s (startContextCreate u e b) := by
  unfold startContextCreate
  dsimp only
  repeat' split
  all_goals grind [keeps_drawBytes, keeps_finish, keeps_zeroFnCounters, keeps_emptySlots, keeps_zeroSyncs, keeps_setFn,
      keeps_setCtx, Keeps.frame]

theorem keeps_beginDestruction (c cause) : Keeps R s (beginDestruction u c cause) := by
  grind [beginDestruction, keeps_endRequest, keeps_closeJob, keeps_endAllRequests, keeps_setFn, keeps_setCtx, Keeps.frame,
      Keeps.foldl]

theorem keeps_invalidateContext (c) : Keeps R s (invalidateContext u c) :=
  h.frame rfl

theorem keeps_wipeTile (t) : Keeps R s (wipeTile u t) :=
  keeps_setTile (h.localMem fun hw => memWipe_wf hw _ _) ..

theorem keeps_contextDestruction (c) : Keeps R s (contextDestruction u c) := by
  have hq (b : Bool) (l : List Nat) {v} (hv : Keeps R s v) : Keeps R s (l.foldl (fun t q => quadWipe t b q) v) :=
    Keeps.foldl (fun t q ht => keeps_quadWipe ht b q) l hv
  unfold contextDestruction
  split
  · exact h
  split
  · exact h
  · refine keeps_setCtx (keeps_invalidateContext ?_ ..) ..
    refine (keeps_emptySlots (keeps_zeroSyncs (keeps_zeroFnCounters ?_ ..) ..) ..).frame rfl
    exact Keeps.foldl (fun t k ht => keeps_wipeTile ht k) _ (hq _ _ (hq _ _ h))

theorem keeps_contextWipeEnd (c) : Keeps R s (contextWipeEnd u c) := by
  unfold contextWipeEnd
  dsimp only
  repeat' split
  all_goals grind [keeps_logFault, keeps_finish, keeps_raiseEvent, keeps_storeGive, keeps_setFn, Keeps.frame, Keeps.foldl]

theorem keeps_startContextDestroy (e c) : Keeps R s (startContextDestroy u e c) := by
  grind [startContextDestroy, keeps_beginDestruction, keeps_finish, Keeps.frame]

/-! ### Graph -/

theorem keeps_localWrite (t a bs) : Keeps R s (localWrite u t a bs) :=
  h.localMem fun hw => memWriteN_wf hw _ _

theorem keeps_layerLeaves (c layer t) : Keeps R s ((layerLeaves u c layer t).2) := by
  refine Keeps.foldl_snd (fun r i hr => ?_) _ h
  have hl := keeps_readLeaf hr c t layer i
  split <;> next hq => exact (Keeps.of_eq hq hl :)

theorem keeps_streamSets (x d c j p) : Keeps R s ((streamSets u x d c j p).2) := by
  grind [streamSets, keeps_layerLeaves, Keeps.frame]

theorem keeps_rankWalk (x d w c r) : Keeps R s ((rankWalk u x d w c r).2) := by
  unfold rankWalk
  dsimp only
  exact Keeps.of_foldl rfl h fun q p hq => keeps_streamSets hq x d c p.1 p.2

theorem keeps_carryLocal (t) : Keeps R s (carryLocal u t) :=
  (h.localMem fun hw => filter_wf hw _).frame rfl

theorem keeps_startTile (e t r gang ctx prog len args overdue) : Keeps R s (startTile u e t r gang ctx prog len args overdue) := by
  exact keeps_setTile (.ite (keeps_carryLocal h ..) (h.localMem fun hw => memWipe_wf hw _ _)) ..

theorem keeps_noteStart (e) : Keeps R s (noteStart u e) := by
  grind [noteStart, keeps_traceWrite, keeps_setEntry, Keeps.frame]

theorem keeps_startTiles (e x prog len args tiles) : Keeps R s (startTiles u e x prog len args tiles) := by
  grind [startTiles, keeps_startTile, keeps_noteStart, keeps_modEntry, Keeps.frame, Keeps.foldl]

theorem keeps_giveRow (e q b m tiles node p) : Keeps R s ((giveRow u e q b m tiles node p).2) := by
  unfold giveRow
  dsimp only
  repeat' split
  all_goals grind [keeps_readVA, keeps_localWrite, Keeps.frame]

theorem keeps_takeRow (e q b m tiles node p) : Keeps R s ((takeRow u e q b m tiles node p).2) := by
  grind [takeRow, keeps_writeVA, Keeps.frame]

theorem keeps_eachRow {f : State → Nat → Option AccessErr × State} (hf : ∀ t a, Keeps R s t → Keeps R s (f t a).2)
    (l) : Keeps R s (eachRow f l u).2 := by
  refine Keeps.foldl_snd (fun r a hr => ?_) l h
  split
  · exact hf _ a hr
  · exact hr

theorem keeps_giveRows (e q p w i c tiles) : Keeps R s (giveRows u e q p w i c tiles) := by
  grind [giveRows, keeps_eachRow, keeps_failEngine, keeps_giveRow, Keeps.frame]

theorem keeps_takeRows (e q p w i c t tiles) : Keeps R s (takeRows u e q p w i c t tiles) := by
  grind [takeRows, keeps_takeRow, keeps_eachRow, keeps_failEngine, Keeps.frame]

theorem keeps_startGang (e x q p tiles) : Keeps R s (startGang u e x q p tiles) := by
  unfold startGang
  dsimp only
  generalize hv : List.foldl _ (startTiles ..) _ = v
  have h2 : Keeps R s v := by
    refine hv ▸ Keeps.foldl (fun t r ht => ?_) _ (keeps_startTiles h ..)
    generalize hw : List.foldl _ t _ = w
    have h1 : Keeps R s w := hw ▸ Keeps.foldl (fun y a hy => .ite (keeps_localWrite hy ..) hy) _ ht
    exact .ite (keeps_localWrite h1 ..) h1
  have h3 := keeps_giveRows h2 e q p (x.node / 65536) (x.node % 65536) x.chunk tiles
  split
  · generalize hr : List.foldl _ _ (List.range tiles.length) = r
    exact keeps_modEntry (Keeps.of_foldl hr h3 fun y r hy => keeps_rankWalk hy ..) ..
  · exact h3

/-! ### Steps -/

theorem keeps_growthEvict (e c i need) : Keeps R s ((growthEvict u e c i need).2) := by
  grind [growthEvict, keeps_changeUnder, Keeps.frame]

theorem keeps_enterWait (e j c i tier event) : Keeps R s (enterWait u e j c i tier event) := by
  grind [enterWait, keeps_modCtx, keeps_setStream, keeps_raiseEvent, keeps_modEntry, Keeps.frame]

theorem keeps_applyReserve (e j c r wave) : Keeps R s (applyReserve u e j c r wave) := by
  grind [applyReserve, keeps_bumpFn, keeps_modEntry, keeps_setCtx, Keeps.frame]

theorem keeps_reservePart (e j m wave) : Keeps R s (reservePart u e j m wave) := by
  unfold reservePart
  dsimp only
  repeat' split
  all_goals grind [keeps_growthEvict, keeps_applyReserve, keeps_enterWait, Keeps.frame]

theorem keeps_addChild (e x node chunk) : Keeps R s (addChild u e x node chunk) :=
  h.frame rfl

theorem keeps_expand (e w) : Keeps R s (expand u e w) := by
  grind [expand, keeps_addChild, keeps_modEntry, Keeps.frame, Keeps.foldl]

theorem keeps_readTokens (e x b) : Keeps R s ((readTokens u e x b).2) := by
  grind [readTokens, keeps_readVA, Keeps.frame]

theorem keeps_startInputs (e x) : Keeps R s ((startInputs u e x).2) := by
  grind [startInputs, keeps_readVA, keeps_readTokens, Keeps.frame]

theorem keeps_reserveParts (e x run m) : Keeps R s (reserveParts u e x run m) := by
  refine Keeps.foldl (fun v j hv => ?_) _ h
  split
  · exact hv
  split
  · exact hv
  split
  · exact keeps_settlePart hv ..
  · exact keeps_reservePart (keeps_setStream (keeps_setEntry hv ..) ..) ..

theorem keeps_startModel (e x) : Keeps R s (startModel u e x) := by
  grind [startModel, keeps_finish, keeps_expand, keeps_failEngine, keeps_setEntry, keeps_startInputs, keeps_reserveParts,
      keeps_noteStart, keeps_modEntry, Keeps.frame]

theorem keeps_swapInReserve (c i v) : Keeps R s ((swapInReserve u c i v).2) := by
  grind [swapInReserve, keeps_bumpFn, keeps_swapIn, Keeps.frame]

theorem keeps_endSwapWait (c e i) : Keeps R s (endSwapWait u c e i) := by
  grind [endSwapWait, keeps_modCtx, keeps_modEntry, Keeps.frame]

theorem keeps_retryStream (c i) : Keeps R s (retryStream u c i) := by
  unfold retryStream
  dsimp only
  repeat' split
  all_goals grind [keeps_faultRequest, keeps_swapInReserve, keeps_modCtx, keeps_expand, keeps_setStream, keeps_raiseEvent,
      keeps_endSwapWait, keeps_applyReserve, keeps_modEntry, Keeps.frame]

theorem keeps_growthRetry (c tier) : Keeps R s (growthRetry u c tier) := by
  grind [growthRetry, keeps_retryStream, Keeps.frame, Keeps.foldl]

/-! ### Attention -/

theorem keeps_keepReads (v : State) : Keeps R s (keepReads u v) :=
  h.frame rfl

theorem keeps_settleFaults (v : State) (i) : Keeps R s (settleFaults u v i) := by
  grind [settleFaults, keeps_faultStream]

theorem keeps_readHead (key r h' v) : Keeps R s ((readHead u key r h' v).2) := by
  unfold readHead
  split
  · exact h
  · refine Keeps.foldl_snd (fun q b hq => ?_) _ h
    split
    · have hr := keeps_readRun hq key r (8 * h' + b) v
      split <;> next hg => exact (Keeps.of_eq hg hr :)
    · exact hq

theorem keeps_readHeads (i committed h' v keys) : Keeps R s ((readHeads u i committed h' v keys).2) := by
  refine Keeps.foldl_snd (fun q key hq => ?_) _ h
  split
  · next t w =>
    split
    · exact hq
    · next r _ =>
      have hr := keeps_readHead hq key r h' v
      have hf : Keeps R s (if committed then faultOn i (readHead w key r h' v) else readHead w key r h' v).2 := by
        split
        · exact keeps_faultOn hr i
        · exact hr
      split <;> next hg => exact (Keeps.of_eq hg hf :)
  · exact hq

theorem keeps_foldScore (e tile buf a) : Keeps R s (foldScore u e tile buf a) := by
  grind [foldScore, keeps_modEntry, Keeps.frame, Keeps.foldl]

theorem keeps_foldFreed (g rank) : Keeps R s (foldFreed u g rank) := by
  grind [foldFreed, keeps_modEntry, keeps_foldScore, Keeps.frame, Keeps.foldl]

theorem keeps_foldContext (c) : Keeps R s (foldContext u c) := by
  grind [foldContext, keeps_foldFreed, Keeps.frame, Keeps.foldl]

theorem keeps_kvSetDeliver (g rank) : Keeps R s (kvSetDeliver u g rank) := by
  unfold kvSetDeliver
  dsimp only
  repeat' split
  all_goals grind [keeps_faultRequest, keeps_readHeads, keeps_localWrite, keeps_failEngine, keeps_modEntry, keeps_foldFreed,
      keeps_addSync, Keeps.frame]

theorem keeps_releaseOwn (e j key) : Keeps R s (releaseOwn u e j key) := by
  grind [releaseOwn, keeps_releaseRun, keeps_modEntry, keeps_setCtx, Keeps.frame]

theorem keeps_placePage (e j old slot bytes) {out t} (ht : placePage u e j old slot bytes = some (out, t)) : Keeps R s t := by
  obtain ⟨v, hv, h0⟩ : ∃ v, placePage u e j old slot bytes = placePage v e j none slot bytes ∧ Keeps R s v := by
    cases old with
    | none => exact ⟨u, rfl, h⟩
    | some key => exact ⟨_, rfl, keeps_releaseOwn h ..⟩
  rw [hv] at ht
  unfold placePage at ht
  dsimp only at ht
  split at ht
  · cases ht
  split at ht
  · split at ht
    · next hw =>
      cases ht
      exact keeps_modEntry (keeps_writeRun h0 _ _ _ _ _ _ _ hw) ..
    · split at ht
      · next hw =>
        cases ht
        exact keeps_modCtx (keeps_writeRun h0 _ _ _ _ _ _ _ hw) ..
      · cases ht
  · cases ht

theorem keeps_backReserved (e j c i js) : Keeps R s (backReserved u e j c i js) := by
  grind [backReserved, keeps_modEntry, keeps_setCtx, Keeps.frame]

theorem keeps_currentPage (v p l j) : Keeps R s ((currentPage u v p l j).2) := by
  grind [currentPage, keeps_faultOn, keeps_readPage, Keeps.frame]

theorem keeps_rewritePage (e j l idx f) : Keeps R s ((rewritePage u e j l idx f).2) := by
  unfold rewritePage
  split
  · exact h
  · next x _ =>
    split
    · exact h
    · next p _ =>
      have hc := keeps_currentPage h (requestService e x) p l idx
      split
      · next hq => exact (Keeps.of_eq hq hc :)
      · next hq =>
        replace hc := Keeps.of_eq hq hc
        split
        · exact hc
        · next hp => exact keeps_modEntry (keeps_placePage hc _ _ _ _ _ hp) ..

theorem keeps_eachPage {α : Type} {f : State → α → Except PageStop Unit × State} (hf : ∀ t a, Keeps R s t → Keeps R s (f t a).2)
    (l) : Keeps R s (eachPage f l u).2 := by
  refine Keeps.foldl_snd (fun r a hr => ?_) l h
  split
  · exact hf _ a hr
  · exact hr

theorem keeps_writeIndex (e j l x rows idx) : Keeps R s ((writeIndex e j l x rows u idx).2) := by
  grind [writeIndex, keeps_setStream, keeps_rewritePage, Keeps.frame, Keeps.foldl]

theorem keeps_writeCandidates (g j) : Keeps R s (writeCandidates u g j) := by
  unfold writeCandidates
  dsimp only
  repeat' split
  all_goals grind [keeps_backReserved, keeps_eachPage, keeps_failEngine, keeps_writeIndex, keeps_keepReads, keeps_modEntry,
      keeps_settleFaults, Keeps.frame]

theorem keeps_candidateWrite (e row layer) : Keeps R s (candidateWrite u e row layer) := by
  grind [candidateWrite, keeps_writeCandidates, Keeps.frame]

theorem keeps_takeDraw (c gen) : Keeps R s ((takeDraw u c gen).2) := by
  grind [takeDraw, keeps_setCtx, Keeps.frame]

theorem keeps_selectToken (c gen bs topk itemp) : Keeps R s ((selectToken u c gen bs topk itemp).2) := by
  grind [selectToken, keeps_takeDraw, Keeps.frame]

theorem keeps_verifyGo (c gen kpkg p bs fuel node path) : Keeps R s (verifyGo c gen kpkg p bs fuel u node path).2 := by
  induction fuel generalizing u node path with
  | zero => exact h
  | succ fuel ih => grind [verifyGo, keeps_selectToken]

theorem keeps_samplePart (e j kpkg) : Keeps R s (samplePart u e j kpkg) := by
  unfold samplePart
  dsimp only
  repeat' split
  all_goals grind [keeps_drawBytes, keeps_selectToken, keeps_verifyGo, keeps_modEntry, Keeps.frame]

theorem keeps_sampling (e) : Keeps R s (sampling u e) := by
  unfold sampling
  dsimp only
  repeat' split
  all_goals grind [keeps_expand, keeps_samplePart, keeps_modEntry, Keeps.frame, Keeps.foldl]

theorem keeps_rollbackLayer (e j x l) : Keeps R s ((rollbackLayer e j x u l).2) := by
  unfold rollbackLayer
  split
  · exact h
  · refine keeps_eachPage h (fun t a ht => ?_) _
    dsimp only
    generalize hq : List.foldl _ _ _ = q
    have hr : Keeps R s q.2 := Keeps.of_foldl hq ht fun r i hr => by
      split
      · have hc := keeps_currentPage hr (requestService e x)
          ((((entryOf ‹State› e).bind fun y => y.parts[j]?)).getD ‹Part›) l i
        split <;> next hg => exact (Keeps.of_eq hg hc :)
      · exact hr
    split
    · exact hr
    · next w pages v =>
      split
      · next hg => exact (Keeps.of_eq hg (keeps_rewritePage hr ..) :)
      · next hg => exact keeps_setStream (Keeps.of_eq hg (keeps_rewritePage hr ..) :) ..

theorem keeps_relocatePage (e j v t l idx src moves) : Keeps R s ((relocatePage u e j v t l idx src moves).2) := by
  have hb (i : Nat) {w} (hw : Keeps R s w) : Keeps R s (if (leafOf t l i).map then
      match tblGet w.runs (runKey (leafOf t l i)) with | some r => readPage w (runKey (leafOf t l i)) r v | none => (.ok [], w)
      else ((.ok [], w) : Except AccessErr Memory × State)).2 := by
    split
    · split
      · exact keeps_readPage hw ..
      · exact hw
    · exact hw
  unfold relocatePage
  dsimp only
  have h1 := hb src h
  split
  · next hq => exact (Keeps.of_eq hq h1 :)
  · next hq =>
    replace h1 := Keeps.of_eq hq h1
    have h2 := hb idx h1
    split
    · next hg => exact (Keeps.of_eq hg h2 :)
    · next hg =>
      replace h2 := Keeps.of_eq hg h2
      split
      · next hp => exact keeps_placePage h2 _ _ _ _ _ hp
      · exact h2

theorem keeps_relocatePages (e j v t0 src slots moves a) : Keeps R s ((relocatePages u e j v t0 src slots moves a).2) := by
  refine Keeps.foldl_snd (fun q p hq => ?_) _ h
  split
  · have hr := keeps_relocatePage hq e j v t0 p.1 p.2 src moves
    split <;> next hg => exact (Keeps.of_eq hg hr :)
  · exact hq

theorem keeps_relocate (e j c i epoch a) : Keeps R s ((relocate u e j c i epoch a).2) := by
  unfold relocate
  dsimp only
  repeat' split
  all_goals grind [keeps_relocatePages, keeps_bumpFn, keeps_keepReads, keeps_modEntry, keeps_setCtx, Keeps.frame, Keeps.foldl]

theorem keeps_harvest (e j c i epoch p kept a) : Keeps R s ((harvest u e j c i epoch p kept a).2) := by
  grind [harvest, keeps_bumpFn, keeps_relocate, Keeps.frame]

theorem keeps_publishCommit (e j x pk p h') : Keeps R s (publishCommit u e j x pk p h') := by
  unfold publishCommit
  dsimp only
  repeat' split
  all_goals grind [keeps_modCtx, keeps_setStream, keeps_settlePart, keeps_closeEpoch, keeps_modEntry, keeps_setCtx, Keeps.frame]

theorem keeps_commitPart (e j x0 pk) : Keeps R s (commitPart u e j x0 pk) := by
  unfold commitPart
  dsimp only
  repeat' split
  all_goals grind [keeps_faultStream, keeps_eachPage, keeps_failEngine, keeps_publishCommit, keeps_harvest, keeps_rollbackLayer,
      keeps_keepReads, keeps_settleFaults, Keeps.frame]

theorem keeps_streamCommit (e row) : Keeps R s (streamCommit u e row) := by
  grind [streamCommit, keeps_commitPart, Keeps.frame]

/-! ### Faults -/

theorem keeps_tellRetire (r) : Keeps R s (tellRetire u r) := by
  grind [tellRetire, keeps_raiseEvent, keeps_logFaultAt, Keeps.frame]

theorem keeps_tellRetired : Keeps R s (tellRetired u) := by
  grind [tellRetired, keeps_tellRetire, Keeps.frame, Keeps.foldl]

theorem keeps_noteRetire (kind unit) : Keeps R s (noteRetire u kind unit) := by
  grind [noteRetire, keeps_tellRetire, Keeps.frame]

theorem keeps_faultStreams (tier gone) : Keeps R s (faultStreams u tier gone) :=
  h.frame rfl

theorem keeps_replaceReserved (e tier gone unit) : Keeps R s (replaceReserved u e tier gone unit) := by
  unfold replaceReserved
  dsimp only
  repeat' split
  all_goals grind [keeps_faultRequest, keeps_modEntry, keeps_setCtx, Keeps.frame, Keeps.foldl]

theorem keeps_loseLoad (e tier gone unit) : Keeps R s (loseLoad u e tier gone unit) := by
  grind [loseLoad, keeps_faultRequest, Keeps.frame]

theorem keeps_loseQuads (tier gone unit) : Keeps R s (loseQuads u tier gone unit) := by
  grind [loseQuads, keeps_faultJob, keeps_faultStreams, keeps_replaceReserved, keeps_loseLoad, keeps_setStore, Keeps.frame,
      Keeps.foldl]

theorem keeps_loseDevice : Keeps R s (loseDevice u) := by
  grind [loseDevice, keeps_beginDestruction, keeps_logFault, keeps_endAllRequests, Keeps.frame, Keeps.foldl]

theorem keeps_failQueued (p r) : Keeps R s (failQueued u p r) := by
  grind [failQueued, keeps_faultRequest, keeps_faultJob, Keeps.frame]

theorem keeps_retirePc (p cause) : Keeps R s (retirePc u p cause) := by
  grind [retirePc, keeps_loseQuads, keeps_loseDevice, keeps_noteRetire, keeps_failQueued, keeps_setPc, Keeps.frame, Keeps.foldl]

theorem keeps_transientPc (p) : Keeps R s (transientPc u p) := by
  grind [transientPc, keeps_retirePc, keeps_setPc, Keeps.frame]

theorem keeps_retireCondemned : Keeps R s (retireCondemned u) := by
  grind [retireCondemned, keeps_retirePc, Keeps.frame, Keeps.foldl]

theorem keeps_retireFlash (ch cause) : Keeps R s (retireFlash u ch cause) := by
  grind [retireFlash, keeps_setFlashChan, keeps_noteRetire, Keeps.frame]

theorem keeps_transientFlash (ch) : Keeps R s (transientFlash u ch) := by
  grind [transientFlash, keeps_setFlashChan, keeps_retireFlash, Keeps.frame]

theorem keeps_countSuspects : Keeps R s (countSuspects u) := by
  grind [countSuspects, keeps_transientFlash, Keeps.frame, Keeps.foldl]

theorem keeps_retireTile (t withSlice) : Keeps R s (retireTile u t withSlice) := by
  grind [retireTile, keeps_loseQuads, keeps_faultRequest, keeps_noteRetire, Keeps.frame]

theorem keeps_transientTile (t) : Keeps R s (transientTile u t) := by
  grind [transientTile, keeps_bumpTile, keeps_setTile, keeps_retireTile, Keeps.frame]

theorem keeps_failTile (t withSlice) : Keeps R s (failTile u t withSlice) := by
  grind [failTile, keeps_faultRequest, keeps_retireTile, Keeps.frame]

theorem keeps_burstFault (p again) : Keeps R s (burstFault u p again) := by
  grind [burstFault, keeps_retirePc, keeps_transientPc, Keeps.frame]

/-! ### Library -/

theorem keeps_programUnit (m bs) : Keeps R s (programUnit u m bs) :=
  Keeps.foldl (fun _ _ hv => keeps_putSector hv ..) _ h

theorem keeps_writeUnits (g src n k) : Keeps R s (writeUnits g src n k u).2.2 := by
  induction n generalizing u k with
  | zero => exact h
  | succ n ih => grind [writeUnits, keeps_setLibBlock, keeps_programUnit]

theorem keeps_endLibWrite (e st done) : Keeps R s (endLibWrite u e st done) := by
  grind [endLibWrite, keeps_finishWith, keeps_modEntry, keeps_readLate, Keeps.frame]

theorem keeps_startLibWrite (e _x b) : Keeps R s (startLibWrite u e _x b) := by
  grind [startLibWrite, keeps_endLibWrite, keeps_finish, keeps_writeUnits, Keeps.frame]

theorem keeps_replaceNand (g ch) {t} (ht : replaceNand u g ch = some t) : Keeps R s t := by
  grind [replaceNand, keeps_setFlashChan, keeps_setLibBlock, Keeps.frame]

theorem keeps_replaceOn (g chs) {t} (ht : replaceOn u g chs = some t) : Keeps R s t := by
  refine List.foldlRecOn chs (fun (u : Option State) c => u.bind fun v => replaceNand v g c)
    (motive := fun o => ∀ t, o = some t → Keeps R s t) (fun t ht => ?_) (fun o ho c _ t ht => ?_) t ht
  · cases ht
    exact h
  · obtain ⟨v, hv, ht⟩ := Option.bind_eq_some_iff.1 ht
    exact keeps_replaceNand (ho v hv) _ _ ht

theorem keeps_replaceMarked (g) {t} (ht : replaceMarked u g = some t) : Keeps R s t := by
  grind [replaceMarked, keeps_replaceOn, Keeps.frame]

theorem keeps_eraseNand (g) {t} (ht : eraseNand u g = some t) : Keeps R s t := by
  unfold eraseNand at ht
  split at ht
  · cases ht
  · next hr =>
    split at ht
    · cases ht
    · cases ht
      exact (keeps_replaceOn h _ _ hr).libMem fun hw => tblFilter_wf hw _

theorem keeps_nextErase (e fuel) : Keeps R s (nextErase e fuel u) := by
  induction fuel generalizing u with
  | zero => exact h
  | succ fuel ih =>
    unfold nextErase
    split
    · exact h
    split
    · split
      · exact keeps_finishWith h ..
      · have h1 (g : Nat) := keeps_setLibBlock h g { libBlockOf u g with state := .erasePending }
        dsimp only
        split
        · exact ih (keeps_modEntry (keeps_setLibBlock (h1 _) ..) ..)
        · next hm => exact (keeps_replaceMarked (h1 _) _ hm).frame rfl
    · exact h

theorem keeps_startLibErase (e _x b) : Keeps R s (startLibErase u e _x b) := by
  grind [startLibErase, keeps_finish, keeps_nextErase, Keeps.frame]

theorem keeps_nandEraseDone (g) : Keeps R s (nandEraseDone u g) := by
  unfold nandEraseDone
  split
  · exact h
  · next r _ =>
    have h1 : Keeps R s { u with flash := { u.flash with erases := u.flash.erases.filter fun q => q.block != g } } := h.frame rfl
    have tail (done : Option State) {w} (hw : Keeps R s w) : Keeps R s (match r.entry with
        | none => w
        | some e =>
          let s3 := modEntry w e fun y =>
            if done.isNone then { y with spoiled := y.spoiled + 1 } else { y with progress := y.progress + 1 }
          if flashHeld s3 then s3
          else match entryOf s3 e with
            | none => s3
            | some x => nextErase e (match x.cmd with | .libErase b => b.nblk.toNat + 1 | _ => 0) s3) := by
      split
      · exact hw
      · refine .ite (keeps_modEntry hw ..) ?_
        split
        · exact keeps_modEntry hw ..
        · exact keeps_nextErase (keeps_modEntry hw ..) ..
    refine tail _ ?_
    split
    · exact keeps_setLibBlock h1 ..
    · next he => exact keeps_setLibBlock (keeps_eraseNand h1 _ he) ..

theorem keeps_kickErases : Keeps R s (kickErases u) := by
  grind [kickErases, keeps_nextErase, Keeps.frame, Keeps.foldl]

theorem keeps_eraseSuspend (ch g) : Keeps R s (eraseSuspend u ch g) := by
  grind [eraseSuspend, keeps_setFlashChan, Keeps.frame]

theorem keeps_resetFlash : Keeps R s (resetFlash u) :=
  h.frame rfl

theorem keeps_flashReadRetry (ch level) : Keeps R s (flashReadRetry u ch level) := by
  unfold flashReadRetry
  split
  · exact h
  cases level with
  | none => exact keeps_transientFlash (keeps_bump h ..) ..
  | some l =>
    dsimp only
    split
    · exact h
    · exact keeps_transientFlash h ..

theorem keeps_flashCommandTimeout (ch) : Keeps R s (flashCommandTimeout u ch) := by
  grind [flashCommandTimeout, keeps_retireFlash, Keeps.frame]

theorem keeps_rdtimApply : Keeps R s (rdtimApply u) := by
  grind [rdtimApply, keeps_setFlashChan, Keeps.frame, Keeps.foldl]

theorem keeps_channelRateSwitch (ch reads) : Keeps R s (channelRateSwitch u ch reads) := by
  grind [channelRateSwitch, keeps_setFlashChan, keeps_retireFlash, Keeps.frame]

/-! ### Resets -/

theorem keeps_clearAll : Keeps R s (clearAll u) :=
  h.update rfl fun ⟨h1, h2, h3, h4, h5, h6, _⟩ => ⟨h1, h2, h3, h4, h5, h6, rfl⟩

theorem keeps_warmReset : Keeps R s (warmReset u) :=
  h.update (t := { u.time with eqxOffset := 0, eqxValid := false, eqxErr := 0 }) rfl
    fun ⟨h1, h2, h3, h4, h5, h6, _⟩ => ⟨h1, h2, h3, h4, h5, h6, rfl⟩

theorem keeps_eraseUnits : Keeps R s (eraseUnits u) := by
  unfold eraseUnits
  split
  · exact h
  · refine Keeps.foldl (fun v g hv => ?_) _ (h.frame rfl)
    split
    · exact hv
    split
    · exact keeps_setLibBlock hv ..
    · next he =>
      obtain ⟨w, hw, he⟩ := Option.bind_eq_some_iff.1 he
      exact keeps_setLibBlock (keeps_eraseNand (keeps_replaceMarked hv _ hw) _ he) ..

theorem keeps_finishLcWork : Keeps R s (finishLcWork u) := by
  grind [finishLcWork, keeps_eraseUnits, Keeps.frame]

theorem keeps_noteLrs : Keeps R s (noteLrs u) := by
  grind [noteLrs, keeps_logFaultAt, Keeps.frame]

theorem keeps_retireChannel (c cause) : Keeps R s (retireChannel u c cause) := by
  grind [retireChannel, keeps_retirePc, Keeps.frame]

theorem keeps_markTrained (c) : Keeps R s (markTrained u c) := by
  grind [markTrained, keeps_setChan, Keeps.frame]

theorem keeps_trainAll (failed) : Keeps R s (trainAll u failed) := by
  grind [trainAll, keeps_markTrained, keeps_retireChannel, Keeps.frame, Keeps.foldl]

theorem keeps_wipeAll : Keeps R s (wipeAll u) :=
  h.update rfl fun ⟨h1, _, _, _, h5, _, h7⟩ => ⟨h1, rfl, rfl, rfl, h5, rfl, h7⟩

theorem keeps_loadTiming : Keeps R s (loadTiming u) := by
  grind [loadTiming, keeps_setFlashChan, Keeps.frame, Keeps.foldl]

theorem keeps_bringUp (failed) : Keeps R s (bringUp u failed) := by
  have h1 := keeps_loadTiming (keeps_wipeAll (keeps_trainAll (keeps_finishLcWork (keeps_noteLrs h)) failed))
  exact keeps_tellRetired ((keeps_drawBytes (keeps_drawBytes h1 64) 32).frame rfl)

/-! ### Auth -/

theorem keeps_storeTrust (r) : Keeps R s (storeTrust u r) := by
  grind [storeTrust, Keeps.frame]

end

section
variable {s u : State} (h : Keeps fusesFollow s u)
include h

theorem keeps_acceptTransition {b w} (hb : transition u.fuses.kepoch u.fuses.lcs b = some w) (payload) :
    Keeps fusesFollow s (acceptTransition u b payload) :=
  keeps_warmReset ⟨h.pending, h.env, h.dtime, fusesFollow_trans h.fuses (transition_follows hb), h.memories⟩

theorem keeps_setAuthErr (e) : Keeps fusesFollow s (setAuthErr u e) :=
  h.frame rfl

theorem keeps_lcTransition : Keeps fusesFollow s (lcTransition u) := by
  unfold lcTransition
  dsimp only
  split
  · exact keeps_setAuthErr h ..
  · next ht =>
    split
    · exact keeps_acceptTransition h ht _
    · exact keeps_setAuthErr h ..
  · next ht =>
    split
    · exact keeps_setAuthErr h ..
    split
    · split
      · split
        · exact keeps_acceptTransition h ht _
        · exact keeps_setAuthErr h ..
      · exact keeps_setAuthErr h ..
    · exact keeps_setAuthErr h ..

theorem keeps_trustUpdate : Keeps fusesFollow s (trustUpdate u) := by
  grind [trustUpdate, keeps_setAuthErr, keeps_storeTrust, Keeps.frame]

theorem keeps_authGo : Keeps fusesFollow s (authGo u) := by
  grind [authGo, keeps_trustUpdate, keeps_drawBytes, keeps_lcTransition, Keeps.frame]

theorem keeps_releaseAuth : Keeps fusesFollow s (releaseAuth u) := by
  grind [releaseAuth, keeps_authGo, Keeps.frame]

theorem keeps_authCtrl (v) : Keeps fusesFollow s (authCtrl u v) := by
  grind [authCtrl, keeps_countIf, keeps_authGo, Keeps.frame]

/-! ### Firmware -/

theorem keeps_clearRegion (b) : Keeps fusesFollow s (clearRegion u b) :=
  h.stewardMem fun hw => memWipe_wf hw _ _

theorem keeps_loadRegion (b img) : Keeps fusesFollow s (loadRegion u b img) :=
  h.stewardMem fun hw => memWriteN_wf (memWipe_wf hw _ _) _ _

theorem keeps_setSlotState (b v) : Keeps fusesFollow s (setSlotState u b v) := by
  grind [setSlotState, Keeps.frame]

theorem keeps_activate (b) : Keeps fusesFollow s (activate u b) :=
  h.frame rfl

theorem keeps_rollback : Keeps fusesFollow s (rollback u) := by
  grind [rollback, keeps_finishWith, keeps_clearRegion, Keeps.frame]

theorem keeps_commitHandover : Keeps fusesFollow s (commitHandover u) := by
  grind [commitHandover, keeps_finishWith, keeps_activate, keeps_clearRegion, Keeps.frame]

theorem keeps_writeSlot (e b t img) : Keeps fusesFollow s (writeSlot u e b t img) := by
  grind [writeSlot, keeps_finishWith, keeps_activate, keeps_rollback, keeps_finish, keeps_clearRegion, keeps_setSlotState,
      Keeps.frame]

theorem keeps_startFwUpdate (e _x b) : Keeps fusesFollow s (startFwUpdate u e _x b) := by
  grind [startFwUpdate, keeps_finish, keeps_writeSlot, keeps_readLate, keeps_loadRegion, Keeps.frame]

theorem keeps_endsHandover : Keeps fusesFollow s (endsHandover u) := by
  unfold endsHandover
  split
  · exact h
  · split
    · exact keeps_rollback h
    · exact keeps_commitHandover h

/-! ### Docket -/

theorem keeps_addEntry (x) : Keeps fusesFollow s ((addEntry u x).2) :=
  h.frame rfl

theorem keeps_rejectOpcode (e x op) : Keeps fusesFollow s (rejectOpcode u e x op) := by
  grind [rejectOpcode, keeps_traceWrite, keeps_bumpFn, keeps_writeCompletion, keeps_dropEntry, Keeps.frame]

theorem keeps_admitBase (x) : Keeps fusesFollow s (admitBase u x) := by
  grind [admitBase, keeps_openJob, Keeps.frame]

theorem keeps_takeSeq : Keeps fusesFollow s (takeSeq u) :=
  h.frame rfl

theorem keeps_queueEntry (e x parts) : Keeps fusesFollow s (queueEntry u e x parts) := by
  grind [queueEntry, keeps_traceWrite, keeps_admitBase, keeps_setEntry, keeps_noteEnder, keeps_takeSeq, Keeps.frame]

theorem keeps_admitEntry (e) : Keeps fusesFollow s (admitEntry u e) := by
  grind [admitEntry, keeps_finish, keeps_queueEntry, keeps_rejectOpcode, keeps_readLate, Keeps.frame]

theorem keeps_mapEntries (f) : Keeps fusesFollow s (mapEntries u f) :=
  h.frame rfl

theorem keeps_refreshReady : Keeps fusesFollow s (refreshReady u) := by
  grind [refreshReady, keeps_mapEntries, Keeps.frame]

theorem keeps_startPresent (e x b) : Keeps fusesFollow s (startPresent u e x b) := by
  grind [startPresent, keeps_finish, keeps_pqWrite, Keeps.frame]

theorem keeps_startUnit (e x) : Keeps fusesFollow s (startUnit u e x) := by
  grind [startUnit, keeps_startPackageLoad, keeps_startUnpark, keeps_startPresent, keeps_finish, keeps_startKvMap,
      keeps_startStreamOpen, keeps_startKvUnmap, keeps_startLibErase, keeps_startContextCreate, keeps_startCopy,
      keeps_startTableLoad, keeps_startPoolGrow, keeps_startJobEnd, keeps_startStreamClose, keeps_startContextDestroy,
      keeps_startPoolShrink, keeps_startLibWrite, keeps_startPackageUnload, keeps_startSyncSignal, keeps_foldContext,
      keeps_startAttest, keeps_startPark, keeps_startFwUpdate, Keeps.frame]

theorem keeps_startEntry (e) : Keeps fusesFollow s (startEntry u e) := by
  grind [startEntry, keeps_startUnit, keeps_startModel, keeps_setEntry, keeps_noteStart, Keeps.frame]

theorem keeps_startFree (e) : Keeps fusesFollow s (startFree u e) := by
  grind [startFree, keeps_startEntry, Keeps.frame]

theorem keeps_admitFetched : Keeps fusesFollow s (admitFetched u) := by
  grind [admitFetched, keeps_startFree, keeps_admitEntry, keeps_refreshReady, Keeps.frame, Keeps.foldl]

theorem keeps_noticed : Keeps fusesFollow s (noticed u) := by
  grind [noticed, keeps_retireCondemned, keeps_countSuspects, Keeps.frame]

theorem keeps_wrapUp : Keeps fusesFollow s (wrapUp u) := by
  grind [wrapUp, keeps_noticed, keeps_kickErases, keeps_refreshReady, Keeps.frame]

theorem keeps_settle : Keeps fusesFollow s (settle u) := by
  grind [settle, keeps_noticed, keeps_releaseAuth, keeps_admitFetched, keeps_wrapUp, Keeps.frame]

theorem keeps_settleLive : Keeps fusesFollow s (settleLive u) := by
  grind [settleLive, keeps_settle, keeps_noticed, Keeps.frame]

theorem keeps_submit (h' cmd) : Keeps fusesFollow s (submit u h' cmd) := by
  grind [submit, keeps_addEntry, keeps_settle, Keeps.frame]

theorem keeps_chargeShare (o) : Keeps fusesFollow s (chargeShare u o) := by
  grind [chargeShare, Keeps.frame]

theorem keeps_startChild (e x tiles) : Keeps fusesFollow s (startChild u e x tiles) := by
  grind [startChild, keeps_startGang, Keeps.frame]

theorem keeps_startFirstChild (e tiles) : Keeps fusesFollow s (startFirstChild u e tiles) := by
  grind [startFirstChild, keeps_setEntry, keeps_startChild, Keeps.frame]

theorem keeps_startTileOp (o tiles) : Keeps fusesFollow s (startTileOp u o tiles) := by
  grind [startTileOp, keeps_startFirstChild, keeps_startModel, keeps_chargeShare, keeps_startChild, keeps_startTiles, Keeps.frame]

theorem keeps_dispatch (e tiles) : Keeps fusesFollow s (dispatch u e tiles) := by
  grind [dispatch, keeps_startFree, keeps_startTileOp, keeps_startEntry, Keeps.frame]

theorem keeps_overduePromote (e) : Keeps fusesFollow s (overduePromote u e) := by
  grind [overduePromote, keeps_bump, keeps_setEntry, Keeps.frame]

theorem keeps_exhaustWaits (e) : Keeps fusesFollow s (exhaustWaits u e) := by
  unfold exhaustWaits
  dsimp only
  repeat' split
  all_goals grind [keeps_modCtx, keeps_setStream, keeps_settlePart, Keeps.frame, Keeps.foldl]

theorem keeps_deadlineMissed (e) : Keeps fusesFollow s (deadlineMissed u e) := by
  grind [deadlineMissed, keeps_exhaustWaits, keeps_settleAll, keeps_finish, keeps_abandon, Keeps.frame]

theorem keeps_requestTimeout (e) : Keeps fusesFollow s (requestTimeout u e) := by
  grind [requestTimeout, keeps_endRequest, keeps_exhaustWaits, keeps_timeoutJobEnd, keeps_finish, keeps_abandon, Keeps.frame]

theorem keeps_requestRetire (e) : Keeps fusesFollow s (requestRetire u e) := by
  grind [requestRetire, keeps_settleAll, keeps_finish, keeps_abandon, keeps_endsHandover, keeps_tryJobEnd, Keeps.frame]

theorem keeps_growSwapIn (e i x) : Keeps fusesFollow s (growSwapIn u e i x) := by
  unfold growSwapIn
  dsimp only
  repeat' split
  all_goals grind [keeps_faultRequest, keeps_swapInReserve, keeps_growthEvict, keeps_enterWait, Keeps.frame]

theorem keeps_swapInRow (e i) : Keeps fusesFollow s (swapInRow u e i) := by
  grind [swapInRow, keeps_faultRequest, keeps_growSwapIn, keeps_endSwapWait, keeps_swapIn, Keeps.frame]

theorem keeps_lowerTierError (e) : Keeps fusesFollow s (lowerTierError u e) := by
  grind [lowerTierError, keeps_endRequest, Keeps.frame]

theorem keeps_lowerTierLate (e) : Keeps fusesFollow s (lowerTierLate u e) := by
  grind [lowerTierLate, keeps_endRequest, keeps_finish, Keeps.frame]

/-! ### Rings -/

theorem keeps_emuWrite (f) {k : State → State} (hk : Keeps fusesFollow s (k u)) : Keeps fusesFollow s (emuWrite u f k) := by
  grind [emuWrite, keeps_bump]

theorem keeps_pfWrite (f) {k : State → State} (hk : Keeps fusesFollow s (k u)) : Keeps fusesFollow s (pfWrite u f k) := by
  grind [pfWrite, keeps_emuWrite, keeps_ignored]

theorem keeps_doorbell (f r size v) : Keeps fusesFollow s (doorbell u f r size v) := by
  grind [doorbell, keeps_flushLost, keeps_setRing, keeps_ignored, Keeps.frame]

theorem keeps_fetchEntry (f q) : Keeps fusesFollow s (fetchEntry u f q) := by
  grind [fetchEntry, keeps_addEntry, keeps_writeCompletion, keeps_setRing, Keeps.frame]

theorem keeps_fetchGo (f q n) : Keeps fusesFollow s (fetchGo f q n u) := by
  induction n generalizing u with
  | zero => exact h
  | succ n ih => grind [fetchGo, keeps_fetchEntry]

theorem keeps_takeTurn (f q) : Keeps fusesFollow s (takeTurn u f q) := by
  grind [takeTurn, keeps_setFn, Keeps.frame]

theorem keeps_ringFetch (f q) : Keeps fusesFollow s (ringFetch u f q) := by
  grind [ringFetch, keeps_fetchGo, keeps_settle, keeps_takeTurn, keeps_hostWrite, Keeps.frame]

theorem keeps_commitRing (f i) : Keeps fusesFollow s (commitRing u f i) := by
  grind [commitRing, keeps_flushLost, keeps_setRing, Keeps.frame]

theorem keeps_endDisable (f i) : Keeps fusesFollow s (endDisable u f i) := by
  grind [endDisable, keeps_setRing, Keeps.frame]

theorem keeps_disableRing (f i) : Keeps fusesFollow s (disableRing u f i) := by
  grind [disableRing, keeps_setRing, keeps_endDisable, Keeps.frame]

theorem keeps_ringCtrl (f v) : Keeps fusesFollow s (ringCtrl u f v) := by
  unfold ringCtrl
  dsimp only
  repeat' split
  all_goals grind [keeps_countIf, keeps_setRing, keeps_commitRing, keeps_disableRing, Keeps.frame]

theorem keeps_moderationTimer (f i) : Keeps fusesFollow s (moderationTimer u f i) := by
  grind [moderationTimer, keeps_sendMsix, keeps_setRing, Keeps.frame]

/-! ### FnRows -/

theorem keeps_ctxWrite (f) {k : State → Ctx → State} (hk : ∀ x, Keeps fusesFollow s (k u x)) : Keeps fusesFollow s (ctxWrite u f k) := by
  grind [ctxWrite, keeps_emuWrite, keeps_ignored]

theorem keeps_startLease (f) : Keeps fusesFollow s (startLease u f) := by
  grind [startLease, keeps_setFn, Keeps.frame]

theorem keeps_leaseWrite (f v) : Keeps fusesFollow s (leaseWrite u f v) := by
  grind [leaseWrite, keeps_countIf, keeps_startLease, keeps_setFn, Keeps.frame]

theorem keeps_orphanNow (f) : Keeps fusesFollow s (orphanNow u f) := by
  grind [orphanNow, keeps_raiseEvent, keeps_endAllRequests, keeps_setFn, Keeps.frame]

theorem keeps_graceEnds (f) : Keeps fusesFollow s (graceEnds u f) := by
  grind [graceEnds, keeps_beginDestruction, keeps_setFn, Keeps.frame]

theorem keeps_orphan (f) : Keeps fusesFollow s (orphan u f) := by
  grind [orphan, keeps_orphanNow, keeps_graceEnds, Keeps.frame]

theorem keeps_leaseExpiry (f) : Keeps fusesFollow s (leaseExpiry u f) := by
  grind [leaseExpiry, keeps_orphan, Keeps.frame]

theorem keeps_graceExpiry (f) : Keeps fusesFollow s (graceExpiry u f) := by
  grind [graceExpiry, keeps_graceEnds, Keeps.frame]

theorem keeps_attachEffect (f) : Keeps fusesFollow s (attachEffect u f) := by
  grind [attachEffect, keeps_graceExpiry, keeps_startLease, keeps_setFn, Keeps.frame]

theorem keeps_attachRequest (f stray) : Keeps fusesFollow s (attachRequest u f stray) := by
  grind [attachRequest, keeps_countIf, keeps_attachEffect, keeps_ignored, keeps_setFn, Keeps.frame]

theorem keeps_ctrlWrite (f v) : Keeps fusesFollow s (ctrlWrite u f v) := by
  grind [ctrlWrite, keeps_countIf, keeps_attachRequest, keeps_orphan, keeps_ignored, Keeps.frame]

theorem keeps_flrOne (f) : Keeps fusesFollow s (flrOne u f) := by
  grind [flrOne, keeps_beginDestruction, keeps_orphanNow, keeps_zeroFnCounters, keeps_endAllRequests, keeps_setFn, Keeps.frame]

theorem keeps_dropVfs : Keeps fusesFollow s (dropVfs u) := by
  grind [dropVfs, keeps_flrOne, Keeps.frame, Keeps.foldl]

theorem keeps_flr (f) : Keeps fusesFollow s (flr u f) := by
  grind [flr, keeps_dropVfs, keeps_flrOne, Keeps.frame]

theorem keeps_hwinCtrl (f n v) : Keeps fusesFollow s (hwinCtrl u f n v) := by
  grind [hwinCtrl, keeps_countIf, keeps_ctxWrite, keeps_modCtx, keeps_closeEpoch, keeps_ignored, Keeps.frame]

theorem keeps_reseed (c words) : Keeps fusesFollow s (reseed u c words) := by
  grind [reseed, keeps_drawBytes, keeps_setCtx, Keeps.frame]

theorem keeps_drbgCtrl (f v) : Keeps fusesFollow s (drbgCtrl u f v) := by
  grind [drbgCtrl, keeps_countIf, keeps_ctxWrite, keeps_modCtx, keeps_reseed, Keeps.frame]

theorem keeps_drbgApply (c) : Keeps fusesFollow s (drbgApply u c) := by
  grind [drbgApply, keeps_reseed, Keeps.frame]

/-! ### BootRows -/

theorem keeps_dropCarried (l) : Keeps fusesFollow s (dropCarried u l) := by
  grind [dropCarried, keeps_endRequest, keeps_rollback, Keeps.frame, Keeps.foldl]

theorem keeps_hwWrite (f) {k : State → State} (hk : Keeps fusesFollow s (k u)) : Keeps fusesFollow s (hwWrite u f k) := by
  grind [hwWrite, keeps_ignored]

theorem keeps_startImage (img b recovered fallback) : Keeps fusesFollow s (startImage u img b recovered fallback) :=
  h.frame rfl

theorem keeps_trySlot (b) : Keeps fusesFollow s (trySlot u b) := by
  grind [trySlot, keeps_activate, keeps_startImage, keeps_setSlotState, keeps_loadRegion, Keeps.frame]

theorem keeps_bootRom : Keeps fusesFollow s (bootRom u) := by
  have h0 : Keeps fusesFollow s { u with stewardMem := [], boot := { u.boot with err := if (bootOrder u).isEmpty then 1 else 0 } } :=
    h.update rfl fun ⟨h1, h2, h3, h4, h5, h6, _⟩ => ⟨h1, h2, h3, h4, h5, h6, rfl⟩
  have h1 := Keeps.foldl (f := fun u b => if u.boot.stage = 0 then trySlot u b else u)
    (fun v b hv => .ite (keeps_trySlot hv ..) hv) (bootOrder u) h0
  exact .ite h (.ite h1 (h1.frame rfl))

theorem keeps_recoverWith (img) : Keeps fusesFollow s (recoverWith u img) := by
  grind [recoverWith, keeps_startImage, keeps_dropCarried, keeps_tellRetired, keeps_loadRegion, Keeps.frame]

theorem keeps_recoveryGo : Keeps fusesFollow s (recoveryGo u) := by
  grind [recoveryGo, keeps_recoverWith, keeps_ignored, Keeps.frame]

theorem keeps_firmwareBringup : Keeps fusesFollow s (firmwareBringup u) := by
  grind [firmwareBringup, keeps_bringUp, Keeps.frame]

theorem keeps_warmKey (key) : Keeps fusesFollow s (warmKey u key) := by
  grind [warmKey, keeps_warmReset, keeps_ignored, Keeps.frame]

theorem keeps_askVoltage : Keeps fusesFollow s (askVoltage u) := by
  grind [askVoltage, keeps_drawNat, Keeps.frame]

theorem keeps_setPower (p) : Keeps fusesFollow s (setPower u p) := by
  grind [setPower, keeps_askVoltage, Keeps.frame]

theorem keeps_powerEstimate (watts) : Keeps fusesFollow s (powerEstimate u watts) := by
  grind [powerEstimate, keeps_setPower, Keeps.frame]

theorem keeps_sampled (junction stack) : Keeps fusesFollow s (sampled u junction stack) :=
  h.frame rfl

theorem keeps_thermalThrottle (junction stack) : Keeps fusesFollow s (thermalThrottle u junction stack) := by
  grind [thermalThrottle, keeps_setPower, keeps_sampled, Keeps.frame]

theorem keeps_throttleExit (junction stack) : Keeps fusesFollow s (throttleExit u junction stack) := by
  grind [throttleExit, keeps_setPower, keeps_sampled, Keeps.frame]

theorem keeps_thermtrip (junction stack) : Keeps fusesFollow s (thermtrip u junction stack) := by
  grind [thermtrip, keeps_sampled, Keeps.frame]

/-! ### FrameTime -/

theorem keeps_newWindow : Keeps fusesFollow s (newWindow u) :=
  h.frame rfl

theorem keeps_traceBoundary : Keeps fusesFollow s (traceBoundary u) := by
  grind [traceBoundary, keeps_traceWrite, Keeps.frame, Keeps.foldl]

theorem keeps_boundary (t) (ht : t.dtime = u.time.dtime) : Keeps fusesFollow s (boundary u t) :=
  keeps_traceBoundary (keeps_newWindow (keeps_markTablesDue (h.frame (t := { t with
    frameStart := u.time.dtime, pf := 1000 * u.time.periodReg.toNat, period := if t.locked then t.pm else 1000 * u.time.periodReg.toNat
    frameNum := u.time.frameNum + 1, hold := false }) ht)))

theorem keeps_pulse : Keeps fusesFollow s (pulse u) := by
  have hb (p) := keeps_boundary h (u.time.lockAt p) rfl
  exact .ite (keeps_raiseAll (hb _) ..) <| .ite (keeps_raiseAll (hb _) ..) <| .ite (hb _) <|
    keeps_bump (h.frame (t := { u.time with nign := u.time.nign + 1, lastIgnored := u.time.dtime }) rfl) ..

theorem keeps_fsyncEdge (high) : Keeps fusesFollow s (fsyncEdge u high) := by
  grind [fsyncEdge, keeps_pulse, keeps_settleLive, Keeps.frame]

theorem keeps_freeBoundary : Keeps fusesFollow s (freeBoundary u) :=
  .ite h <| .ite (.ite (keeps_settleLive (keeps_boundary h _ rfl)) h) <| .ite (keeps_settleLive (keeps_boundary h _ rfl)) h

theorem keeps_lateEdge : Keeps fusesFollow s (lateEdge u) := by
  have ht := (keeps_bump (Keeps.refl u) 2 1).dtime.symm
  unfold lateEdge
  dsimp only
  split
  · exact h
  · split
    · exact keeps_settleLive (keeps_boundary (keeps_bump h 2 1) _ ht)
    · exact keeps_settleLive (keeps_raiseAll (keeps_boundary h u.time.goFree rfl) ..)

theorem keeps_phaseHold : Keeps fusesFollow s (phaseHold u) := by
  grind [phaseHold, Keeps.frame]

theorem keeps_fsyncCtrl (v) : Keeps fusesFollow s (fsyncCtrl u v) := by
  have hc := keeps_countIf h (strayBits v 1) 0
  have ht := (keeps_countIf (Keeps.refl u) (strayBits v 1) 0).dtime.symm
  exact .ite (hc.frame (t := { u.time with en := true, enOff := false }) ht) <| .ite
    (hc.frame (t := { u.time with en := false, enOff := true, offAt := BitVec.ofNat 64 (max u.time.expected.toNat (now u + 1)) }) ht)
    (hc.frame (t := { u.time with en := false }) ht)

theorem keeps_almanacWindow : Keeps fusesFollow s (almanacWindow u) := by
  grind [almanacWindow, keeps_newWindow, Keeps.frame]

omit h in
theorem keeps_imageRead {r : Got × State} (hr : Keeps fusesFollow s r.2) : Keeps fusesFollow s (imageRead r).2 := by
  unfold imageRead
  split
  · exact hr
  · exact keeps_recordTrans hr ..
  · exact hr

theorem keeps_readImage : Keeps fusesFollow s ((readImage u).2) := by
  grind [readImage, keeps_readVA, keeps_imageRead, Keeps.frame]

theorem keeps_almanacCtrl (v) : Keeps fusesFollow s (almanacCtrl u v) := by
  grind [almanacCtrl, keeps_countIf, keeps_noticed, keeps_readImage, keeps_ignored, Keeps.frame]

theorem keeps_almanacCheckEnd : Keeps fusesFollow s (almanacCheckEnd u) := by
  grind [almanacCheckEnd, Keeps.frame]

theorem keeps_panicRaise : Keeps fusesFollow s (panicRaise u) := by
  grind [panicRaise, keeps_bump, Keeps.frame]

theorem keeps_panicRelease : Keeps fusesFollow s (panicRelease u) := by
  grind [panicRelease, Keeps.frame]

/-! ### HbmRows -/

theorem keeps_makeDue (c) : Keeps fusesFollow s (makeDue u c) := by
  grind [makeDue, keeps_setChan, Keeps.frame]

theorem keeps_drainPc (p n) : Keeps fusesFollow s (drainPc p n u) := by
  induction n generalizing u with
  | zero => exact h
  | succ n ih => grind [drainPc, keeps_issueOne]

theorem keeps_refreshAll (p) : Keeps fusesFollow s (refreshAll u p) := by
  grind [refreshAll, keeps_setPc, Keeps.frame, Keeps.foldl]

theorem keeps_retrainStart (c) : Keeps fusesFollow s (retrainStart u c) := by
  grind [retrainStart, keeps_refreshAll, keeps_drainPc, Keeps.frame]

theorem keeps_prechargePc (p reset) : Keeps fusesFollow s (prechargePc u p reset) := by
  grind [prechargePc, keeps_setPc, Keeps.frame]

theorem keeps_lateThreshold (p) : Keeps fusesFollow s (lateThreshold u p) := by
  grind [lateThreshold, keeps_retirePc, Keeps.frame]

theorem keeps_retrainEnd (trained) : Keeps fusesFollow s (retrainEnd u trained) := by
  unfold retrainEnd
  split
  · exact h
  · have h1 : Keeps fusesFollow s { u with hbm := { u.hbm with retraining := none, retrainCount := u.hbm.retrainCount + 1 } } := h.frame rfl
    dsimp only
    split
    · exact keeps_retireChannel h1 ..
    · exact keeps_admitStalled (keeps_admitStalled (keeps_lateThreshold (keeps_lateThreshold (keeps_markTrained
        (keeps_prechargePc (keeps_prechargePc (keeps_refreshAll (keeps_refreshAll h1 _) _) _ _) _ _) _) _) _) _) _

theorem keeps_retrainCtrl (v) : Keeps fusesFollow s (retrainCtrl u v) := by
  grind [retrainCtrl, keeps_countIf, keeps_makeDue, Keeps.frame]

theorem keeps_retryFailed (p both cause) : Keeps fusesFollow s (retryFailed u p both cause) := by
  grind [retryFailed, keeps_retrainEnd, keeps_retirePc, keeps_retireChannel, Keeps.frame]

theorem keeps_replayRows (l) : Keeps fusesFollow s (replayRows u l) := by
  grind [replayRows, keeps_setPc, Keeps.frame, Keeps.foldl]

theorem keeps_aerr (c window again) : Keeps fusesFollow s (aerr u c window again) := by
  grind [aerr, keeps_retryFailed, keeps_prechargePc, keeps_replayRows, keeps_transientPc, Keeps.frame, Keeps.foldl]

theorem keeps_parityError (p again) : Keeps fusesFollow s (parityError u p again) := by
  grind [parityError, keeps_retryFailed, keeps_transientPc, Keeps.frame]

theorem keeps_uncorrectableBurst (addr again) : Keeps fusesFollow s (uncorrectableBurst u addr again) := by
  grind [uncorrectableBurst, keeps_burstFault, Keeps.frame]

theorem keeps_symbolCorrection (burst) : Keeps fusesFollow s (symbolCorrection u burst) := by
  grind [symbolCorrection, keeps_bump, Keeps.frame]

theorem keeps_dueRefresh (p b) : Keeps fusesFollow s (dueRefresh u p b) := by
  grind [dueRefresh, keeps_setPc, Keeps.frame]

theorem keeps_earlyRefresh (p b) : Keeps fusesFollow s (earlyRefresh u p b) := by
  grind [earlyRefresh, keeps_setPc, Keeps.frame]

theorem keeps_refreshBank (p b) : Keeps fusesFollow s (refreshBank u p b) := by
  grind [refreshBank, keeps_earlyRefresh, keeps_dueRefresh, keeps_setPc, Keeps.frame]

theorem keeps_readTemp (stack celsius) : Keeps fusesFollow s (readTemp u stack celsius) := by
  grind [readTemp, keeps_setChan, Keeps.frame, Keeps.foldl]

theorem keeps_idleTimer (p b) : Keeps fusesFollow s (idleTimer u p b) := by
  grind [idleTimer, keeps_setPc, Keeps.frame]

theorem keeps_ageRequest (p i) : Keeps fusesFollow s (ageRequest u p i) := by
  grind [ageRequest, keeps_setPc, Keeps.frame]

theorem keeps_writeDrain (p) : Keeps fusesFollow s (writeDrain u p) := by
  grind [writeDrain, keeps_setPc, Keeps.frame]

theorem keeps_rdtimWrite (v) : Keeps fusesFollow s (rdtimWrite u v) := by
  grind [rdtimWrite, keeps_countIf, keeps_rdtimApply, Keeps.frame]

/-! ### Hazards -/

theorem keeps_mixPieces (l) : Keeps fusesFollow s (mixPieces u l) := by
  grind [mixPieces, keeps_putRange, Keeps.frame, Keeps.foldl]

theorem keeps_modLoose (t g) : Keeps fusesFollow s (modLoose u t g) := by
  grind [modLoose, keeps_modEntry, Keeps.frame]

theorem keeps_noteDone (t f) : Keeps fusesFollow s (noteDone u t f) := by
  grind [noteDone, keeps_modLoose, Keeps.frame]

theorem keeps_noteFences (t mask) : Keeps fusesFollow s (noteFences u t mask) := by
  grind [noteFences, keeps_modLoose, Keeps.frame]

theorem keeps_release (t mask) : Keeps fusesFollow s (release u t mask) := by
  grind [release, keeps_modLoose, keeps_setTile, Keeps.frame]

theorem keeps_acquire (t g target) : Keeps fusesFollow s (acquire u t g target) := by
  grind [acquire, keeps_setTile, Keeps.frame]

theorem keeps_scrubHeld (t h') : Keeps fusesFollow s (scrubHeld u t h') := by
  grind [scrubHeld, keeps_setTile, Keeps.frame]

theorem keeps_scrubResult (t f) : Keeps fusesFollow s (scrubResult u t f) := by
  grind [scrubResult, keeps_scrubHeld, keeps_scrub, keeps_setTile, Keeps.frame, Keeps.foldl]

theorem keeps_beforeEffect (t f) : Keeps fusesFollow s (beforeEffect u t f) := by
  grind [beforeEffect, keeps_mixPieces, keeps_scrub, Keeps.frame, Keeps.foldl]

theorem keeps_settleLines (v : State) (t f) : Keeps fusesFollow s (settleLines v t f u) := by
  grind [settleLines, keeps_putRange, Keeps.foldl]

theorem keeps_overwrite (v : State) (t f q) : Keeps fusesFollow s (overwrite v t f u q) := by
  grind [overwrite, keeps_mixPieces, keeps_scrub, keeps_scrubResult]

theorem keeps_noteSpoiled (q) : Keeps fusesFollow s (noteSpoiled u q) := by
  grind [noteSpoiled, keeps_setTile, Keeps.frame]

theorem keeps_afterEffect (v : State) (t f) : Keeps fusesFollow s (afterEffect v t f u) := by
  grind [afterEffect, keeps_mixPieces, keeps_noteSpoiled, keeps_scrub, keeps_overwrite, Keeps.foldl]

/-! ### SpanOps -/

theorem keeps_encodeFor (c slot raw) : Keeps fusesFollow s ((encodeFor u c slot raw).2) := by
  grind [encodeFor, keeps_bumpFn, Keeps.frame]

theorem keeps_emit (port o) : Keeps fusesFollow s (emit u port o) := by
  grind [emit, keeps_putFrame, Keeps.frame]

theorem keeps_sendTracked (c frameType dst jobNum address arg payload store) : Keeps fusesFollow s ((sendTracked u c frameType dst jobNum
    address arg payload store).2) := by
  grind [sendTracked, keeps_emit, keeps_setPort, Keeps.frame]

theorem keeps_sendBlock (c dst jobNum address cslot raw) : Keeps fusesFollow s ((sendBlock u c dst jobNum address cslot raw).2) := by
  grind [sendBlock, keeps_sendTracked, keeps_encodeFor, Keeps.frame]

theorem keeps_resendFrame (o) : Keeps fusesFollow s (resendFrame u o) := by
  grind [resendFrame, keeps_emit, Keeps.frame]

theorem keeps_dropFrames (c jobNum) : Keeps fusesFollow s (dropFrames u c jobNum) :=
  h.frame rfl

theorem keeps_failTransfer (o) : Keeps fusesFollow s (failTransfer u o) := by
  grind [failTransfer, keeps_dropFrames, keeps_faultJob, Keeps.frame]

theorem keeps_faultSpanJobs (unit) : Keeps fusesFollow s (faultSpanJobs u unit) := by
  grind [faultSpanJobs, keeps_dropFrames, keeps_faultJob, Keeps.frame, Keeps.foldl]

theorem keeps_retirePort (p cause) : Keeps fusesFollow s (retirePort u p cause) := by
  grind [retirePort, keeps_resendFrame, keeps_faultSpanJobs, keeps_noteRetire, keeps_setPort, Keeps.frame, Keeps.foldl]

theorem keeps_transientPort (p) : Keeps fusesFollow s (transientPort u p) := by
  grind [transientPort, keeps_retirePort, keeps_setPort, Keeps.frame]

theorem keeps_eqxRequest : Keeps fusesFollow s (eqxRequest u) := by
  grind [eqxRequest, keeps_sendFrame, Keeps.frame]

theorem keeps_eqxStart : Keeps fusesFollow s (eqxStart u) := by
  grind [eqxStart, keeps_eqxRequest, Keeps.frame]

theorem keeps_eqxDue : Keeps fusesFollow s (eqxDue u) := by
  grind [eqxDue, keeps_eqxRequest, Keeps.frame]

theorem keeps_eqxFinish : Keeps fusesFollow s (eqxFinish u) := by
  grind [eqxFinish, keeps_drawNat, Keeps.frame]

theorem keeps_eqxReply (t2 t3) : Keeps fusesFollow s (eqxReply u t2 t3) := by
  grind [eqxReply, keeps_eqxFinish, Keeps.frame]

/-! ### SpanLinks -/

theorem keeps_spanCommit : Keeps fusesFollow s (spanCommit u) := by
  grind [spanCommit, keeps_eqxStart, Keeps.frame]

theorem keeps_spanLeave : Keeps fusesFollow s (spanLeave u) := by
  grind [spanLeave, keeps_faultSpanJobs, Keeps.frame]

theorem keeps_spanRemeasure : Keeps fusesFollow s (spanRemeasure u) := by
  grind [spanRemeasure, keeps_eqxStart, Keeps.frame]

theorem keeps_spanCtrl (v) : Keeps fusesFollow s (spanCtrl u v) := by
  grind [spanCtrl, keeps_countIf, keeps_spanLeave, keeps_spanRemeasure, keeps_spanCommit, Keeps.frame]

theorem keeps_answer (f nack) : Keeps fusesFollow s (answer u f nack) := by
  grind [answer, keeps_sendFrame, Keeps.frame]

theorem keeps_serveFrame (f) {k : State → Nat → Nat × State} (hk : ∀ c, Keeps fusesFollow s (k u c).2) :
    Keeps fusesFollow s (serveFrame u f k) := by
  grind [serveFrame, keeps_answer, Keeps.frame]

theorem keeps_storeSealed (c a p b) : Keeps fusesFollow s (storeSealed u c a p b) := by
  grind [storeSealed, keeps_putStored, keeps_modCtx, Keeps.frame]

theorem keeps_spoilBundles (c a) : Keeps fusesFollow s (spoilBundles u c a) := by
  grind [spoilBundles, keeps_scrub, Keeps.frame, Keeps.foldl]

theorem keeps_storeBlock (c a f) : Keeps fusesFollow s ((storeBlock u c a f).2) := by
  unfold storeBlock
  dsimp only
  repeat' split
  all_goals grind [keeps_faultJob, keeps_spoilBundles, keeps_writeVA, keeps_walked, keeps_storeSealed, Keeps.frame]

theorem keeps_completeFrames : Keeps fusesFollow s (completeFrames u) :=
  h.frame rfl

theorem keeps_modFrame (o g) : Keeps fusesFollow s (modFrame u o g) :=
  h.frame rfl

theorem keeps_followFrame (o id) : Keeps fusesFollow s (followFrame u o id) :=
  h.frame rfl

theorem keeps_spoilLanded (o r) : Keeps fusesFollow s (spoilLanded u o r) := by
  grind [spoilLanded, keeps_scrub, Keeps.frame, Keeps.foldl]

theorem keeps_takeData (c f) : Keeps fusesFollow s ((takeData u c f).2) := by
  have hf {v} (hv : Keeps fusesFollow s v) (o : Outstanding) :
      Keeps fusesFollow s (completeFrames (modFrame v o fun x => { x with filled := true })) :=
    keeps_completeFrames (keeps_modFrame hv ..)
  unfold takeData
  dsimp only
  split
  · split
    · refine hf ?_ _
      split
      · exact keeps_spoilLanded (h.localMem fun hw => memWriteN_wf hw _ _) ..
      · exact h
    · split
      · exact hf (keeps_followFrame (keeps_sendBlock h ..) ..) _
      · exact hf h _
    · have hs := keeps_storeBlock h c f.addr.toNat f
      split
      · split
        · exact hf (keeps_spoilLanded hs ..) _
        · exact hs
      · exact hf h _
    · exact h
  · exact keeps_storeBlock h ..

theorem keeps_sealedBlock (c a) {out t} (ht : sealedBlock u c a = some (out, t)) : Keeps fusesFollow s t := by
  grind [sealedBlock, keeps_hbmTouch, keeps_walked, keeps_readStored, Keeps.frame]

theorem keeps_askedBlock (c a) : Keeps fusesFollow s ((askedBlock u c a).2) := by
  grind [askedBlock, keeps_readBlock, keeps_sealedBlock, keeps_encodeFor, Keeps.frame]

theorem keeps_takeRead (c f) : Keeps fusesFollow s ((takeRead u c f).2) := by
  grind [takeRead, keeps_askedBlock, keeps_faultJob, keeps_sendTracked, Keeps.frame]

theorem keeps_takeSignal (c f) : Keeps fusesFollow s ((takeSignal u c f).2) := by
  grind [takeSignal, keeps_faultJob, keeps_foldContext, keeps_addSync, Keeps.frame]

theorem keeps_takeAck (f) : Keeps fusesFollow s (takeAck u f) := by
  grind [takeAck, keeps_completeFrames, keeps_modFrame, keeps_transientPort, Keeps.frame]

theorem keeps_takeNack (f) : Keeps fusesFollow s (takeNack u f) := by
  grind [takeNack, keeps_failTransfer, Keeps.frame]

theorem keeps_takeJobFault (f) : Keeps fusesFollow s (takeJobFault u f) := by
  grind [takeJobFault, keeps_dropFrames, keeps_faultJob, Keeps.frame]

theorem keeps_takeEqx (f) : Keeps fusesFollow s (takeEqx u f) := by
  grind [takeEqx, keeps_eqxReply, keeps_sendFrame, Keeps.frame]

theorem keeps_spanResend (p q) : Keeps fusesFollow s (spanResend u p q) := by
  grind [spanResend, keeps_resendFrame, keeps_failTransfer, Keeps.frame]

theorem keeps_blockLockLoss (p relocked) : Keeps fusesFollow s (blockLockLoss u p relocked) := by
  grind [blockLockLoss, keeps_retirePort, keeps_setPort, Keeps.frame]

theorem keeps_spanLinkUp (p) : Keeps fusesFollow s (spanLinkUp u p) := by
  grind [spanLinkUp, keeps_transientPort, keeps_retirePort, keeps_setPort, Keeps.frame]

theorem keeps_portRecalibration (p good) : Keeps fusesFollow s (portRecalibration u p good) := by
  grind [portRecalibration, keeps_retirePort, keeps_setPort, Keeps.frame]

/-! ### Frost -/

theorem keeps_takeFrost (trigger) : Keeps fusesFollow s (takeFrost u trigger) :=
  ((keeps_bump h ..).frostMem fun _ => frostImage_wf _ trigger).frame rfl

theorem keeps_finishFrost : Keeps fusesFollow s (finishFrost u) :=
  h.update rfl fun ⟨h1, h2, h3, h4, h5, h6, h7⟩ => ⟨h1, h2, h3, h4, h5, memWriteN_wf (memWriteN_wf h6 _ _) _ _, h7⟩

theorem keeps_freeze (why trigger) : Keeps fusesFollow s (freeze u why trigger) := by
  grind [freeze, keeps_takeFrost, Keeps.frame]

theorem keeps_unfreeze : Keeps fusesFollow s (unfreeze u) := by
  grind [unfreeze, keeps_endAllRequests, keeps_setFn, keeps_hostWrite, Keeps.frame, Keeps.foldl]

/-! ### Stewards -/

theorem keeps_noteRestart (comp core cause) : Keeps fusesFollow s (noteRestart u comp core cause) := by
  grind [noteRestart, keeps_logFault, Keeps.frame]

theorem keeps_componentRestart (c cause) : Keeps fusesFollow s (componentRestart u c cause) := by
  grind [componentRestart, keeps_dropCarried, keeps_noteRestart, Keeps.frame]

theorem keeps_coreRestart (c) : Keeps fusesFollow s (coreRestart u c) := by
  grind [coreRestart, keeps_dropCarried, keeps_noteRestart, Keeps.frame]

theorem keeps_rebootStewards : Keeps fusesFollow s (rebootStewards u) := by
  grind [rebootStewards, keeps_bootRom, Keeps.frame]

theorem keeps_restoreTiming : Keeps fusesFollow s (restoreTiming u) := by
  grind [restoreTiming, keeps_setFlashChan, Keeps.frame, Keeps.foldl]

theorem keeps_stewardReset : Keeps fusesFollow s (stewardReset u) := by
  have h1 : Keeps fusesFollow s (logFault (restoreTiming (resetFlash
      { u with dbg := { u.dbg with pendingStw := false }, fw := { u.fw with handover := none } })) 7 0 0 0 0) :=
    keeps_logFault (keeps_restoreTiming (keeps_resetFlash (h.frame rfl))) ..
  unfold stewardReset
  dsimp only
  split
  · exact keeps_tellRetired (keeps_dropCarried (keeps_rebootStewards
      (h1.update rfl fun ⟨h1, h2, h3, h4, h5, h6, _⟩ => ⟨h1, h2, h3, h4, h5, h6, rfl⟩)) ..)
  · exact keeps_rebootStewards (h1.update rfl fun ⟨h1, h2, h3, h4, h5, h6, _⟩ => ⟨h1, h2, h3, h4, h5, h6, rfl⟩)

theorem keeps_watchdogExpiry : Keeps fusesFollow s (watchdogExpiry u) := by
  grind [watchdogExpiry, keeps_stewardReset, keeps_freeze, Keeps.frame]

theorem keeps_lastResort (trap) : Keeps fusesFollow s (lastResort u trap) := by
  grind [lastResort, keeps_freeze, keeps_drawNat, keeps_finishFrost, Keeps.frame]

theorem keeps_applyDue : Keeps fusesFollow s (applyDue u) := by
  grind [applyDue, keeps_deadlineMissed, keeps_requestTimeout, Keeps.frame, Keeps.foldl]

theorem keeps_thaw : Keeps fusesFollow s (thaw u) := by
  grind [thaw, keeps_unfreeze, keeps_applyDue, Keeps.frame]

theorem keeps_frostCtrl (v) : Keeps fusesFollow s (frostCtrl u v) := by
  grind [frostCtrl, keeps_thaw, keeps_countIf, keeps_freeze, Keeps.frame]

theorem keeps_frostLimit : Keeps fusesFollow s (frostLimit u) := by
  grind [frostLimit, keeps_thaw, Keeps.frame]

theorem keeps_frostComplete : Keeps fusesFollow s (frostComplete u) := by
  grind [frostComplete, keeps_stewardReset, keeps_unfreeze, keeps_finishFrost, Keeps.frame]

theorem keeps_tileTransient (t what) : Keeps fusesFollow s (tileTransient u t what) := by
  cases what
  case reread | resend => exact keeps_transientTile h ..
  case storeFailed | sliceFailed | hopFailed => exact keeps_failTile h ..

theorem keeps_clearFaultStatus (v) : Keeps fusesFollow s (clearFaultStatus u v) := by
  grind [clearFaultStatus, keeps_countIf, Keeps.frame]

/-! ### Registers -/

theorem keeps_seedWrite (f i v) : Keeps fusesFollow s (seedWrite u f i v) := by
  grind [seedWrite, keeps_modCtx, Keeps.frame]

theorem keeps_hwinField (f n j v x) : Keeps fusesFollow s (hwinField u f n j v x) := by
  grind [hwinField, keeps_countIf, keeps_modCtx, keeps_ignored, Keeps.frame]

theorem keeps_profileWrite (f o v x) : Keeps fusesFollow s (profileWrite u f o v x) := by
  grind [profileWrite, keeps_countIf, keeps_modCtx, keeps_ignored, Keeps.frame]

theorem keeps_writeCtx (f o v x) : Keeps fusesFollow s (writeCtx u f o v x) := by
  grind [writeCtx, keeps_countIf, keeps_profileWrite, keeps_seedWrite, keeps_modCtx, keeps_hwinField, keeps_ignored, keeps_setFn,
      Keeps.frame]

theorem keeps_ringWriteReg (f o v) : Keeps fusesFollow s (ringWriteReg u f o v) := by
  grind [ringWriteReg, keeps_countIf, keeps_setRing, keeps_ignored, Keeps.frame]

theorem keeps_counterCtrl (f v) : Keeps fusesFollow s (counterCtrl u f v) := by
  grind [counterCtrl, keeps_countIf, keeps_setCounter, keeps_ignored, Keeps.frame]

theorem keeps_traceCtrl (f v) : Keeps fusesFollow s (traceCtrl u f v) := by
  grind [traceCtrl, keeps_countIf, keeps_setFn, Keeps.frame]

theorem keeps_writeFn (f o v) : Keeps fusesFollow s (writeFn u f o v) := by
  grind [writeFn, keeps_countIf, keeps_traceCtrl, keeps_counterCtrl, keeps_ringWriteReg, keeps_ignored, keeps_ringCtrl,
      keeps_setFn, Keeps.frame]

theorem keeps_writePfLow (o v) : Keeps fusesFollow s (writePfLow u o v) :=
  have hi := keeps_ignored h 0
  .ite (keeps_countIf (h.frame rfl) ..) <| .ite (keeps_countIf (h.frame rfl) ..) <| .ite (keeps_almanacCtrl h ..) <|
  .ite (.ite hi (.ite (h.frame rfl) (h.frame rfl))) <| .ite (keeps_countIf (h.frame rfl) ..) <|
  .ite (keeps_countIf (h.frame rfl) ..) <| .ite (.ite hi (keeps_countIf (h.frame rfl) ..)) <|
  .ite (keeps_countIf (h.frame rfl) ..) <| .ite (.ite hi (keeps_countIf (h.frame rfl) ..)) <|
  .ite (keeps_countIf (h.frame rfl) ..) <| .ite (keeps_retrainCtrl h ..) <| .ite (keeps_countIf (keeps_setFn h ..) ..) <|
  .ite (keeps_rdtimWrite h ..) <| .ite (keeps_countIf (h.frame rfl) ..) <| .ite (keeps_countIf (keeps_setFn h ..) ..) <|
  .ite (.ite hi (keeps_countIf (keeps_setFn h ..) ..)) hi

theorem keeps_writeSpan (o v) : Keeps fusesFollow s (writeSpan u o v) := by
  grind [writeSpan, keeps_countIf, keeps_ignored, keeps_spanCtrl, Keeps.frame]

theorem keeps_writePfHigh (o v) : Keeps fusesFollow s (writePfHigh u o v) :=
  have hi := keeps_ignored h 0
  .ite (.ite hi (keeps_countIf (h.frame rfl) ..)) <| .ite (keeps_clearFaultStatus h ..) <| .ite (keeps_setFn h ..) <|
  .ite (keeps_countIf (h.frame rfl) ..) <| .ite (h.frame rfl) <| .ite (keeps_authCtrl h ..) <|
  .ite (keeps_settleLive (keeps_frostCtrl h ..)) <| .ite (.ite hi (keeps_countIf (h.frame rfl) ..)) <| .ite (keeps_warmKey h ..) <|
  .ite (.ite hi (keeps_countIf (h.frame (t := { u.time with periodReg := v.extractLsb' 0 18 }) rfl) ..)) <|
  .ite (keeps_fsyncCtrl h ..) hi

theorem keeps_writeEmu (f o v) : Keeps fusesFollow s (writeEmu u f o v) := by
  grind [writeEmu, keeps_hwinCtrl, keeps_ctxWrite, keeps_emuWrite, keeps_writeFn, keeps_settleLive, keeps_writeSpan,
      keeps_drbgCtrl, keeps_writePfHigh, keeps_ignored, keeps_writeCtx, keeps_writePfLow, Keeps.frame]

theorem keeps_releaseVector (f i) : Keeps fusesFollow s (releaseVector u f i) := by
  grind [releaseVector, keeps_setFn, keeps_hostWrite, Keeps.frame]

theorem keeps_msixWrite (f o v) : Keeps fusesFollow s (msixWrite u f o v) := by
  grind [msixWrite, keeps_releaseVector, keeps_setFn, Keeps.frame]

theorem keeps_configWrite (f r v) : Keeps fusesFollow s (configWrite u f r v) := by
  unfold configWrite
  dsimp only
  repeat' split
  all_goals grind [keeps_releaseVector, keeps_dropVfs, keeps_setFn, Keeps.frame, Keeps.foldl]

theorem keeps_writeHw (f) {o} (ho : o ≠ 0x110010) (v) : Keeps fusesFollow s (writeHw u f o v) := by
  unfold writeHw
  refine .ite (keeps_leaseWrite h ..) (.ite (keeps_settleLive (keeps_ctrlWrite h ..)) (keeps_hwWrite h f ?_))
  rw [if_neg ho]
  exact .ite (keeps_countIf (h.frame rfl) ..) <| .ite (h.frame rfl) <|
    .ite (.ite (keeps_countIf (keeps_recoveryGo h) ..) (keeps_countIf h ..)) <|
    .ite (keeps_countIf (h.frame rfl) ..) (keeps_ignored h ..)

theorem keeps_writeReg (f) {o} (ho : o ≠ 0x110010) (v) : Keeps fusesFollow s (writeReg u f o v) :=
  .ite h <| .ite (.ite (keeps_doorbell h ..) (.ite (keeps_ignored h ..) h)) <| .ite (keeps_ignored h ..) <|
    .ite (keeps_writeHw h f ho v) <| .ite (keeps_msixWrite h ..) <| .ite (keeps_writeEmu h ..) (keeps_ignored h ..)

theorem keeps_writeAccess (f) {o} {size : AccessSize} (ho : ¬(o = 0x110010 ∧ size = .b32)) (v) :
    Keeps fusesFollow s (writeAccess u f o size v) := by
  cases size
  case b32 => exact keeps_writeReg h f (fun hc => ho ⟨hc, rfl⟩) _
  case b64 => exact .ite h <| .ite (keeps_msixWrite (keeps_msixWrite h ..) ..) <| .ite h (keeps_ignored h ..)
  case b8 | b16 => exact .ite h (keeps_ignored h ..)

theorem keeps_latchRead (f lo latch) : Keeps fusesFollow s (latchRead u f lo latch) := by
  grind [latchRead, keeps_bump, keeps_setFn, Keeps.frame]

theorem keeps_dtimeRead (f) : Keeps fusesFollow s (dtimeRead u f) := by
  grind [dtimeRead, keeps_latchRead, Keeps.frame]

theorem keeps_counterRead (f) : Keeps fusesFollow s (counterRead u f) := by
  grind [counterRead, keeps_latchRead, Keeps.frame]

theorem keeps_eqxRead (f) : Keeps fusesFollow s (eqxRead u f) := by
  grind [eqxRead, keeps_latchRead, Keeps.frame]

theorem keeps_emuTimeout (f write) : Keeps fusesFollow s (emuTimeout u f write) := by
  grind [emuTimeout, keeps_bump, Keeps.frame]

/-! ### RingRows -/

theorem keeps_startKind (e kind) : Keeps fusesFollow s (startKind u e kind) := by
  grind [startKind, keeps_startEntry, Keeps.frame]

theorem keeps_tableInstall (e) : Keeps fusesFollow s (tableInstall u e) := by
  grind [tableInstall, keeps_installTableLoad, keeps_installLoad, Keeps.frame]

/-! ### Sideband -/

theorem keeps_respond (bs) : Keeps fusesFollow s (respond u bs) :=
  h.frame rfl

theorem keeps_vendorMessage (bs) : Keeps fusesFollow s (vendorMessage u bs) := by
  unfold vendorMessage
  dsimp only
  repeat' split
  all_goals grind [keeps_clearFaultStatus, keeps_respond, keeps_drawNat, Keeps.frame]

theorem keeps_serveMessage {k : State → State} (hk : Keeps fusesFollow s (k u)) : Keeps fusesFollow s (serveMessage u k) := by
  grind [serveMessage]

theorem keeps_haltCore (c halt) : Keeps fusesFollow s (haltCore u c halt) := by
  grind [haltCore, Keeps.frame]

theorem keeps_testPort (i) : Keeps fusesFollow s (testPort u i) := by
  unfold testPort
  dsimp only
  repeat' split
  all_goals grind [keeps_haltCore, Keeps.frame]

theorem keeps_sramCorrection (slice a) : Keeps fusesFollow s (sramCorrection u slice a) := by
  grind [sramCorrection, keeps_bump, Keeps.frame]

/-! ### TileOps -/

theorem keeps_countTile (t k n) : Keeps fusesFollow s (countTile u t k n) := by
  grind [countTile, keeps_bumpFn, keeps_bumpTile, Keeps.frame]

theorem keeps_stopRows (e) : Keeps fusesFollow s (stopRows u e) := by
  grind [stopRows, keeps_setTile, Keeps.frame, Keeps.foldl]

theorem keeps_tileFault (t cause) : Keeps fusesFollow s (tileFault u t cause) := by
  grind [tileFault, keeps_faultRequest, keeps_recordTpFault, keeps_stopRows, keeps_settleLive, Keeps.frame]

theorem keeps_poisonFault (t) : Keeps fusesFollow s (poisonFault u t) := by
  grind [poisonFault, keeps_tileFault, keeps_modEntry, Keeps.frame]

theorem keeps_failAccess (t err) : Keeps fusesFollow s (failAccess u t err) := by
  grind [failAccess, keeps_endRequest, keeps_tileFault, keeps_faultRequest, keeps_recordTrans, keeps_settleLive, keeps_readLate,
      Keeps.frame]

theorem keeps_fetchBundle (t) : Keeps fusesFollow s ((fetchBundle u t).2) := by
  grind [fetchBundle, keeps_readVA, keeps_setTile, Keeps.frame]

theorem keeps_advance (t) : Keeps fusesFollow s (advance u t) := by
  grind [advance, keeps_setTile, Keeps.frame]

theorem keeps_standQueued (v : State) (t w f) : Keeps fusesFollow s (standQueued v t w f u) := by
  grind [standQueued, keeps_afterEffect, keeps_settleLines, keeps_setTile]

theorem keeps_queueUp (t w f) {effect : State → State × EffectEnd} (he : ∀ v, Keeps fusesFollow s v → Keeps fusesFollow s (effect v).1) :
    Keeps fusesFollow s (queueUp u t w f effect) := by
  grind [queueUp, keeps_beforeEffect, keeps_failAccess, keeps_tileFault, keeps_standQueued]

theorem keeps_seqComplete (t w f) : Keeps fusesFollow s (seqComplete u t w f) := by
  grind [seqComplete, keeps_noteDone, Keeps.frame]

theorem keeps_issueTile (t op) {body : State → Tile → Nat → TileIssue}
    (hb : ∀ v x w, Keeps fusesFollow s v → BodyKeeps fusesFollow s (body v x w)) :
    Keeps fusesFollow s (issueTile u t op body) := by
  unfold issueTile
  dsimp only
  split
  · exact h
  split
  · exact keeps_tileFault h ..
  have h1 := keeps_fetchBundle h t
  split
  · next hq => exact keeps_failAccess (Keeps.of_eq hq h1 :) ..
  next v w hq =>
  replace h1 := Keeps.of_eq hq h1
  split
  · exact h
  split
  · exact keeps_tileFault h1 ..
  split
  · exact keeps_tileFault h1 ..
  split
  · exact h
  have h2 := keeps_noteFences h1 t (bitsOf v 15 8)
  have hv := hb _ (tileOf (noteFences w t (bitsOf v 15 8)) t) v h2
  split
  · exact h
  · exact keeps_tileFault h2 ..
  · exact keeps_poisonFault h2 ..
  · exact keeps_setTile h2 ..
  · next hd =>
    rw [hd] at hv
    exact keeps_setTile hv ..
  · next hd => 
    rw [hd] at hv
    exact keeps_queueUp h2 _ _ _ hv

/-! ### CopyEngine -/

theorem keeps_sideRead (t x a n) : Keeps fusesFollow s ((sideRead u t x a n).2) := by
  grind [sideRead, keeps_readVA, Keeps.frame]

theorem keeps_sendRow (c job d a bs) : Keeps fusesFollow s ((sendRow u c job d a bs).2) := by
  unfold sendRow
  dsimp only
  exact Keeps.of_foldl rfl h fun q i hq => keeps_sendBlock hq ..

theorem keeps_sideWrite (t x a bs) : Keeps fusesFollow s ((sideWrite u t x a bs).1) := by
  grind [sideWrite, keeps_sendRow, keeps_localWrite, keeps_writeVA, keeps_putRange, Keeps.frame]

theorem keeps_askRow (t x y r nb) : Keeps fusesFollow s ((askRow u t x y r nb).2) := by
  refine Keeps.foldl_snd (fun acc i hr => ?_) _ h
  have h2 : Keeps fusesFollow s (if y.d.tier = 2 then ((y.addr r + 4096 * i, acc.2) : Nat × State) else drawNat acc.2).2 := by
    split
    · exact hr
    · exact keeps_drawNat hr
  dsimp only
  generalize hp : (if y.d.tier = 2 then ((y.addr r + 4096 * i, acc.2) : Nat × State) else drawNat acc.2) = p at h2
  obtain ⟨free, w⟩ := p
  exact keeps_sendTracked h2 ..

theorem keeps_copyRow (t x y nb r) : Keeps fusesFollow s ((copyRow u t x y nb r).1) := by
  grind [copyRow, keeps_askRow, keeps_sideWrite, keeps_sideRead, Keeps.frame]

theorem keeps_runRows {row : State → Nat → State × EffectEnd}
    (hrow : ∀ t i, Keeps fusesFollow s t → Keeps fusesFollow s (row t i).1) (l sent) :
    Keeps fusesFollow s (runRows row l u sent).1 := by
  induction l generalizing u sent with
  | nil => exact h
  | cons i l ih => grind [runRows]

/-! ### GatePipe -/

theorem keeps_runGate (t g) : Keeps fusesFollow s (runGate u t g) := by
  grind [runGate, keeps_localWrite, keeps_countTile, Keeps.frame, Keeps.foldl]

theorem keeps_gloadEffect (t g a) : Keeps fusesFollow s (gloadEffect t g a u) := by
  grind [gloadEffect, keeps_setTile, keeps_countTile, Keeps.frame]

theorem keeps_grunEffect (t x o) : Keeps fusesFollow s (grunEffect t x o u) := by
  grind [grunEffect, keeps_runGate, keeps_setTile, Keeps.frame]

/-! ### MatrixUnit -/

theorem keeps_matEffect (t x o) : Keeps fusesFollow s (matEffect t x o u) := by
  grind [matEffect, keeps_runGate, keeps_setTile, keeps_countTile, Keeps.frame]

/-! ### SyncUnit -/

theorem keeps_waitResume (t) : Keeps fusesFollow s (waitResume u t) := by
  grind [waitResume, keeps_advance, keeps_acquire, keeps_poisonFault, keeps_setTile, Keeps.frame]

/-! ### TileRows -/

theorem keeps_instructionComplete (t i) : Keeps fusesFollow s (instructionComplete u t i) := by
  grind [instructionComplete, keeps_noteDone, keeps_setTile, Keeps.frame]

theorem keeps_rankCandidates (g rank) : Keeps fusesFollow s (rankCandidates u g rank) := by
  grind [rankCandidates, keeps_writeCandidates, Keeps.frame, Keeps.foldl]

theorem keeps_takeResults (g t rank) : Keeps fusesFollow s (takeResults u g t rank) := by
  grind [takeResults, keeps_modEntry, Keeps.frame, Keeps.foldl]

theorem keeps_rankRowsOut (g t) : Keeps fusesFollow s (rankRowsOut u g t) := by
  grind [rankRowsOut, keeps_takeRows, Keeps.frame]

theorem keeps_gangOver (e) : Keeps fusesFollow s (gangOver u e) := by
  unfold gangOver
  dsimp only
  repeat' split
  all_goals grind [keeps_expand, keeps_unwait, keeps_setEntry, keeps_delEntry, Keeps.frame]

theorem keeps_programEnd (t) : Keeps fusesFollow s (programEnd u t) := by
  unfold programEnd
  dsimp only
  split
  · exact h
  split
  · exact h
  split
  · exact keeps_settle (keeps_gangOver (keeps_releaseTile h ..) ..)
  · have h1 (e r) := keeps_rankCandidates h e r
    split
    · exact h1 ..
    · exact keeps_settle (keeps_gangOver (keeps_releaseTile (keeps_rankRowsOut (keeps_takeResults
        (keeps_foldFreed (h1 ..) ..) ..) ..) ..) ..)

/-! ### Tick -/

theorem keeps_serveAll : Keeps fusesFollow s (serveAll u) := by
  grind [serveAll, keeps_serveOne, Keeps.frame, Keeps.foldl]

theorem keeps_petWatchdog : Keeps fusesFollow s (petWatchdog u) := by
  grind [petWatchdog, Keeps.frame]

theorem keeps_latePort (p) : Keeps fusesFollow s (latePort u p) := by
  unfold latePort
  split
  · split
    · exact keeps_settleLive (keeps_retirePort h ..)
    · exact h
  · exact h

/-! ### What a command keeps -/

theorem bodyKeeps_halt (t x w) : BodyKeeps fusesFollow s (haltBody t u x w) :=
  keeps_setTile h ..

theorem bodyKeeps_br (x w) : BodyKeeps fusesFollow s (brBody u x w) := by
  unfold brBody
  split
  · dsimp only
    split
    · trivial
    · exact h
  · exact h

theorem bodyKeeps_seti (t x w) : BodyKeeps fusesFollow s (setiBody t u x w) :=
  keeps_setTile h ..

theorem bodyKeeps_alu (t x w) : BodyKeeps fusesFollow s (aluBody t u x w) :=
  keeps_setTile h ..

theorem bodyKeeps_dadd (t x w) : BodyKeeps fusesFollow s (daddBody t u x w) :=
  keeps_setTile h ..

theorem bodyKeeps_lds (t x w) : BodyKeeps fusesFollow s (ldsBody t u x w) := by
  unfold ldsBody
  split
  · trivial
  · exact keeps_setTile (keeps_seqComplete (keeps_beforeEffect h ..) ..) ..

theorem bodyKeeps_sts (t x w) : BodyKeeps fusesFollow s (stsBody t u x w) := by
  unfold stsBody
  split
  · trivial
  · exact keeps_seqComplete (keeps_afterEffect (keeps_localWrite h ..) ..) ..

theorem bodyKeeps_dload (t x w) : BodyKeeps fusesFollow s (dloadBody t u x w) := by
  unfold dloadBody
  split
  · trivial
  · dsimp only
    split
    · trivial
    · exact keeps_setTile (keeps_seqComplete (keeps_beforeEffect h ..) ..) ..

omit h

theorem bodyKeeps_matrix (t v x w) : BodyKeeps fusesFollow s (matrixBody t v x w) := by
  unfold matrixBody
  split
  · trivial
  split
  · trivial
  · exact fun _ hv => keeps_matEffect hv ..

theorem bodyKeeps_gload (t v x w) : BodyKeeps fusesFollow s (gloadBody t v x w) := by
  unfold gloadBody
  split
  · trivial
  · intro v hv
    dsimp only
    exact keeps_gloadEffect hv ..

theorem bodyKeeps_grun (t v x w) : BodyKeeps fusesFollow s (grunBody t v x w) := by
  unfold grunBody
  split
  · trivial
  split
  · trivial
  · exact fun _ hv => keeps_grunEffect hv ..

theorem bodyKeeps_copy (t v x w) : BodyKeeps fusesFollow s (copyBody t v x w) := by
  unfold copyBody
  dsimp only
  split
  · trivial
  · exact fun _ hv => Keeps.foldl (fun _ _ hy => keeps_scrub hy ..) _
      (keeps_runRows hv (row := fun v i => copyRow v t (copyOp x w).src (copyOp x w).dst (copyOp x w).nb i)
        (fun _ _ hy => keeps_copyRow hy ..) _ [])

theorem bodyKeeps_fill (t v x w) : BodyKeeps fusesFollow s (fillBody t v x w) := by
  unfold fillBody
  dsimp only
  split
  · trivial
  · exact fun _ hv => keeps_runRows hv (fun _ _ hy => keeps_sideWrite hy ..) _ []

theorem bodyKeeps_signal (t v x w) : BodyKeeps fusesFollow s (signalBody t v x w) := by
  unfold signalBody
  dsimp only
  split
  · split
    · intro v hv
      dsimp only
      exact keeps_sendTracked (keeps_release hv t (bitsOf w 15 8)) ..
    · trivial
  · split
    · trivial
    · intro v hv
      have ha (g amount c) := keeps_addSyncBy (keeps_release hv t (bitsOf w 15 8)) g amount c
      dsimp only
      split
      · exact ha ..
      · exact keeps_foldContext (ha ..) ..

theorem bodyKeeps_sread (t v x w) : BodyKeeps fusesFollow s (sreadBody t v x w) := by
  unfold sreadBody
  split
  · trivial
  split
  · trivial
  split
  · trivial
  · exact fun _ hv => keeps_setTile hv ..

include h

theorem bodyKeeps_wait (t x w) : BodyKeeps fusesFollow s (waitBody t u x w) := by
  unfold waitBody
  split
  · trivial
  split
  · trivial
  dsimp only
  split
  · trivial
  split
  · exact keeps_acquire h ..
  · trivial

/-- The commands that can begin a cold reset. -/
def BeginsReset (c : Instr) : Prop :=
  (∃ k, c = .coldReset k) ∨ c = .powerLoss ∨ c = .avsAckTimeout ∨ (∃ f k, c = .lrsReset f k) ∨
    (∃ f v, c = .registerWrite f (.bar0 0x110010 .b32) v)

theorem keeps_exec {c : Instr} (hc : ¬BeginsReset c) : ∃ t, exec c u = .next t ∧ Keeps fusesFollow s t := by
  cases c
  case nop | syncWait | syncSignal | copy | tileRun | packageLoad | packageUnload | streamOpen | streamClose | streamPark | streamUnpark |
      step | prefill | recChunk | kvMap | kvUnmap | poolGrow | poolShrink | tableLoad | jobBegin | jobEnd | present | contextCreate |
      contextDestroy | fwUpdate | libWrite | libErase | attest =>
    exact ⟨_, rfl, keeps_submit h ..⟩
  case syncWaitRetire =>
    refine ⟨_, rfl, .ite (keeps_settle ?_) h⟩
    dsimp only
    split
    · exact .ite h (keeps_retireSyncWait h ..)
    · exact h
  case streamClosePoint | park | presentStart => exact ⟨_, rfl, .ite (keeps_settle (keeps_startKind h ..)) h⟩
  case swapIn => exact ⟨_, rfl, .ite (keeps_settle (keeps_swapInRow h ..)) h⟩
  case tableInstall => exact ⟨_, rfl, .ite (keeps_settle (keeps_tableInstall h ..)) h⟩
  case contextDestruction => exact ⟨_, rfl, .ite (keeps_settleLive (keeps_contextDestruction h ..)) h⟩
  case contextWipeEnd => exact ⟨_, rfl, .ite (keeps_settleLive (keeps_contextWipeEnd h ..)) h⟩
  case handoverRollback => exact ⟨_, rfl, .ite (keeps_settle (keeps_rollback h)) h⟩
  case nandEraseDone => exact ⟨_, rfl, .ite (keeps_settle (keeps_nandEraseDone h ..)) h⟩
  case eraseSuspend => exact ⟨_, rfl, keeps_eraseSuspend h ..⟩
  case tnop => exact ⟨_, rfl, keeps_issueTile h _ _ fun _ _ _ hv => hv⟩
  case halt => exact ⟨_, rfl, keeps_issueTile h _ _ fun _ _ _ hv => bodyKeeps_halt hv ..⟩
  case programEnd => exact ⟨_, rfl, keeps_programEnd h ..⟩
  case br => exact ⟨_, rfl, keeps_issueTile h _ _ fun _ _ _ hv => bodyKeeps_br hv ..⟩
  case seti => exact ⟨_, rfl, keeps_issueTile h _ _ fun _ _ _ hv => bodyKeeps_seti hv ..⟩
  case alu => exact ⟨_, rfl, keeps_issueTile h _ _ fun _ _ _ hv => bodyKeeps_alu hv ..⟩
  case lds => exact ⟨_, rfl, keeps_issueTile h _ _ fun _ _ _ hv => bodyKeeps_lds hv ..⟩
  case sts => exact ⟨_, rfl, keeps_issueTile h _ _ fun _ _ _ hv => bodyKeeps_sts hv ..⟩
  case dload => exact ⟨_, rfl, keeps_issueTile h _ _ fun _ _ _ hv => bodyKeeps_dload hv ..⟩
  case dadd => exact ⟨_, rfl, keeps_issueTile h _ _ fun _ _ _ hv => bodyKeeps_dadd hv ..⟩
  case mmw | mma | mew => exact ⟨_, rfl, keeps_issueTile h _ _ fun _ _ _ _ => bodyKeeps_matrix ..⟩
  case gload => exact ⟨_, rfl, keeps_issueTile h _ _ fun _ _ _ _ => bodyKeeps_gload ..⟩
  case grun => exact ⟨_, rfl, keeps_issueTile h _ _ fun _ _ _ _ => bodyKeeps_grun ..⟩
  case tileCopy => exact ⟨_, rfl, keeps_issueTile h _ _ fun _ _ _ _ => bodyKeeps_copy ..⟩
  case fill => exact ⟨_, rfl, keeps_issueTile h _ _ fun _ _ _ _ => bodyKeeps_fill ..⟩
  case signal => exact ⟨_, rfl, keeps_issueTile h _ _ fun _ _ _ _ => bodyKeeps_signal ..⟩
  case wait => exact ⟨_, rfl, keeps_issueTile h _ _ fun _ _ _ hv => bodyKeeps_wait hv ..⟩
  case waitResume => exact ⟨_, rfl, keeps_waitResume h ..⟩
  case sread => exact ⟨_, rfl, keeps_issueTile h _ _ fun _ _ _ _ => bodyKeeps_sread ..⟩
  case instructionComplete => exact ⟨_, rfl, keeps_instructionComplete h ..⟩
  case doorbellSubmission | doorbellConsumed => exact ⟨_, rfl, keeps_doorbell h ..⟩
  case ringFetch => exact ⟨_, rfl, keeps_ringFetch h ..⟩
  case dispatch => exact ⟨_, rfl, .ite (keeps_settle (keeps_dispatch h ..)) h⟩
  case overduePromote => exact ⟨_, rfl, .ite (keeps_settle (keeps_overduePromote h ..)) h⟩
  case deadlineMissed => exact ⟨_, rfl, .ite (keeps_settle (keeps_deadlineMissed h ..)) h⟩
  case requestTimeout => exact ⟨_, rfl, .ite (keeps_settle (keeps_requestTimeout h ..)) h⟩
  case requestRetire => exact ⟨_, rfl, .ite (keeps_settle (keeps_requestRetire h ..)) h⟩
  case moderationTimer => exact ⟨_, rfl, keeps_moderationTimer h ..⟩
  case kvSetDeliver => exact ⟨_, rfl, .ite (keeps_settle (keeps_kvSetDeliver h ..)) h⟩
  case candidateWrite => exact ⟨_, rfl, .ite (keeps_settle (keeps_candidateWrite h ..)) h⟩
  case sampling => exact ⟨_, rfl, .ite (keeps_settle (keeps_sampling h ..)) h⟩
  case streamCommit => exact ⟨_, rfl, .ite (keeps_settle (keeps_streamCommit h ..)) h⟩
  case growthRetry => exact ⟨_, rfl, .ite (keeps_settle (keeps_growthRetry h ..)) h⟩
  case epochDrain => exact ⟨_, rfl, .ite (keeps_settleLive (keeps_epochDrain h ..)) h⟩
  case fsyncPulse => exact ⟨_, rfl, keeps_fsyncEdge h ..⟩
  case frameBoundaryFree => exact ⟨_, rfl, keeps_freeBoundary h⟩
  case lateEdge => exact ⟨_, rfl, keeps_lateEdge h⟩
  case almanacWindow => exact ⟨_, rfl, keeps_almanacWindow h⟩
  case panicRaise => exact ⟨_, rfl, keeps_panicRaise h⟩
  case panicRelease => exact ⟨_, rfl, keeps_panicRelease h⟩
  case fsyncDisable => exact ⟨_, rfl, keeps_pfWrite h _ (keeps_fsyncCtrl h ..)⟩
  case almanacCommit => exact ⟨_, rfl, keeps_pfWrite h _ (keeps_almanacCtrl h ..)⟩
  case almanacCheckEnd => exact ⟨_, rfl, keeps_almanacCheckEnd h⟩
  case ringCommit | ringDisable => exact ⟨_, rfl, keeps_emuWrite h _ (keeps_ringCtrl h ..)⟩
  case ringDisableEnd => exact ⟨_, rfl, keeps_endDisable h ..⟩
  case hwinCommit => exact ⟨_, rfl, keeps_hwinCtrl h ..⟩
  case drbgReseed => exact ⟨_, rfl, keeps_drbgCtrl h ..⟩
  case drbgReseedApply => exact ⟨_, rfl, keeps_drbgApply h ..⟩
  case leaseRenew => exact ⟨_, rfl, keeps_leaseWrite h ..⟩
  case leaseExpiry => exact ⟨_, rfl, keeps_settleLive (keeps_leaseExpiry h ..)⟩
  case graceExpiry => exact ⟨_, rfl, keeps_settleLive (keeps_graceExpiry h ..)⟩
  case attach | detach => exact ⟨_, rfl, keeps_settleLive (keeps_ctrlWrite h ..)⟩
  case attachEffect => exact ⟨_, rfl, keeps_attachEffect h ..⟩
  case flr => exact ⟨_, rfl, keeps_settleLive (keeps_flr h ..)⟩
  case hotReset => exact ⟨_, rfl, keeps_settleLive (keeps_flr (h.frame rfl) ..)⟩
  case d3hotEntry => exact ⟨_, rfl, keeps_setFn h ..⟩
  case d3hotToD0 => exact ⟨_, rfl, .ite (keeps_settleLive (keeps_flr h ..)) h⟩
  case bootRom => exact ⟨_, rfl, keeps_bootRom h⟩
  case firmwareBringup => exact ⟨_, rfl, keeps_firmwareBringup h⟩
  case recoveryGo => exact ⟨_, rfl, keeps_hwWrite h _ (keeps_recoveryGo h)⟩
  case pwrWarmReset => exact ⟨_, rfl, keeps_pfWrite h _ (keeps_warmKey h ..)⟩
  case powerEstimate => exact ⟨_, rfl, keeps_settleLive (keeps_powerEstimate h ..)⟩
  case thermalThrottle => exact ⟨_, rfl, keeps_thermalThrottle h ..⟩
  case thermalThrottleExit => exact ⟨_, rfl, keeps_throttleExit h ..⟩
  case thermtrip => exact ⟨_, rfl, keeps_thermtrip h ..⟩
  case secAuthLcTransition | secAuthTrustUpdate => exact ⟨_, rfl, keeps_pfWrite h _ (keeps_authCtrl h ..)⟩
  case hbmRetrainNow => exact ⟨_, rfl, keeps_pfWrite h _ (keeps_retrainCtrl h ..)⟩
  case retrainDue => exact ⟨_, rfl, .ite (keeps_settleLive (.ite (keeps_makeDue h ..) h)) h⟩
  case retrainStart => exact ⟨_, rfl, .ite (keeps_settleLive (keeps_retrainStart h ..)) h⟩
  case retrainEnd => exact ⟨_, rfl, .ite (keeps_settleLive (keeps_retrainEnd h ..)) h⟩
  case aerr => exact ⟨_, rfl, .ite (keeps_settleLive (keeps_aerr h ..)) h⟩
  case derr | readParityError => exact ⟨_, rfl, .ite (keeps_settleLive (keeps_parityError h ..)) h⟩
  case uncorrectableBurst => exact ⟨_, rfl, .ite (keeps_settleLive (keeps_uncorrectableBurst h ..)) h⟩
  case symbolCorrection => exact ⟨_, rfl, .ite (keeps_settleLive (keeps_symbolCorrection h ..)) h⟩
  case refresh => exact ⟨_, rfl, .ite (keeps_settleLive (keeps_refreshBank h ..)) h⟩
  case hbmTempRead => exact ⟨_, rfl, .ite (keeps_settleLive (keeps_readTemp h ..)) h⟩
  case pageIdleTimer => exact ⟨_, rfl, .ite (keeps_settleLive (keeps_idleTimer h ..)) h⟩
  case requestAged => exact ⟨_, rfl, .ite (keeps_settleLive (keeps_ageRequest h ..)) h⟩
  case writeQueueDrain => exact ⟨_, rfl, .ite (keeps_settleLive (keeps_writeDrain h ..)) h⟩
  case flashReadRetry => exact ⟨_, rfl, .ite (keeps_settleLive (keeps_flashReadRetry h ..)) h⟩
  case flashCommandTimeout => exact ⟨_, rfl, .ite (keeps_settleLive (keeps_flashCommandTimeout h ..)) h⟩
  case flsRdtimApply => exact ⟨_, rfl, keeps_pfWrite h _ (keeps_rdtimWrite h ..)⟩
  case channelRateSwitch => exact ⟨_, rfl, .ite (keeps_settleLive (keeps_channelRateSwitch h ..)) h⟩
  case lowerTierError => exact ⟨_, rfl, .ite (keeps_settle (keeps_lowerTierError h ..)) h⟩
  case lowerTierLate => exact ⟨_, rfl, .ite (keeps_settle (keeps_lowerTierLate h ..)) h⟩
  case componentRestart => exact ⟨_, rfl, keeps_settleLive (keeps_componentRestart h ..)⟩
  case coreRestart => exact ⟨_, rfl, keeps_settleLive (keeps_coreRestart h ..)⟩
  case stewardReset => exact ⟨_, rfl, keeps_settleLive (keeps_watchdogExpiry h)⟩
  case lastResortEntry => exact ⟨_, rfl, keeps_lastResort h ..⟩
  case tileTransient => exact ⟨_, rfl, .ite (keeps_settleLive (keeps_tileTransient h ..)) h⟩
  case faultStatusClear => exact ⟨_, rfl, keeps_pfWrite h _ (keeps_clearFaultStatus h ..)⟩
  case debugFrost | thaw => exact ⟨_, rfl, keeps_pfWrite h _ (keeps_settleLive (keeps_frostCtrl h ..))⟩
  case frostLimitExpiry => exact ⟨_, rfl, keeps_settleLive (keeps_frostLimit h)⟩
  case frostComplete => exact ⟨_, rfl, keeps_settleLive (keeps_frostComplete h)⟩
  case counterClear => exact ⟨_, rfl, keeps_emuWrite h _ (keeps_counterCtrl h ..)⟩
  case traceEnable => exact ⟨_, rfl, keeps_emuWrite h _ (keeps_traceCtrl h ..)⟩
  case dtimeRead => exact ⟨_, rfl, keeps_dtimeRead h ..⟩
  case counterRead => exact ⟨_, rfl, keeps_counterRead h ..⟩
  case eqxOffsetRead => exact ⟨_, rfl, keeps_eqxRead h ..⟩
  case emuTimeout => exact ⟨_, rfl, keeps_emuTimeout h ..⟩
  case spnCommit | spnRemeasure => exact ⟨_, rfl, keeps_pfWrite h _ (keeps_spanCtrl h ..)⟩
  case spnLeave => exact ⟨_, rfl, keeps_pfWrite h _ (keeps_settleLive (keeps_spanCtrl h ..))⟩
  case spanData => exact ⟨_, rfl, keeps_settleLive (keeps_serveFrame h _ fun _ => (keeps_takeData h ..))⟩
  case rdreq => exact ⟨_, rfl, keeps_settleLive (keeps_serveFrame h _ fun _ => (keeps_takeRead h ..))⟩
  case spanSignal => exact ⟨_, rfl, keeps_settleLive (keeps_serveFrame h _ fun _ => (keeps_takeSignal h ..))⟩
  case ack => exact ⟨_, rfl, keeps_settleLive (keeps_takeAck h ..)⟩
  case nack => exact ⟨_, rfl, keeps_settleLive (keeps_takeNack h ..)⟩
  case jobfault => exact ⟨_, rfl, keeps_settleLive (keeps_takeJobFault h ..)⟩
  case eqx => exact ⟨_, rfl, keeps_takeEqx h ..⟩
  case spanResend => exact ⟨_, rfl, keeps_settleLive (keeps_spanResend h ..)⟩
  case blockLockLoss => exact ⟨_, rfl, .ite (keeps_settleLive (keeps_blockLockLoss h ..)) h⟩
  case portRecalibration => exact ⟨_, rfl, .ite (keeps_settleLive (keeps_portRecalibration h ..)) h⟩
  case mctpControl => exact ⟨_, rfl, keeps_serveMessage h (keeps_respond h ..)⟩
  case getHealth | getFaultLog | clearFaultStatus | getCounter => exact ⟨_, rfl, keeps_serveMessage h (keeps_vendorMessage h ..)⟩
  case sramCorrection => exact ⟨_, rfl, .ite (keeps_sramCorrection h ..) h⟩
  case spanLinkUp => exact ⟨_, rfl, .ite (keeps_settleLive (keeps_spanLinkUp h ..)) h⟩
  case pcieLinkUp => exact ⟨_, rfl, .ite (h.frame rfl) h⟩
  case framePhaseHold => exact ⟨_, rfl, keeps_phaseHold h⟩
  case testPortInstruction => exact ⟨_, rfl, keeps_testPort h ..⟩
  case smbusArpAssign => exact ⟨_, rfl, keeps_serveMessage h (h.frame rfl)⟩
  case coldReset | powerLoss | avsAckTimeout | lrsReset => exact absurd (by simp [BeginsReset]) hc
  case registerWrite f place v =>
    refine ⟨_, rfl, ?_⟩
    cases place with
    | config r => exact keeps_settleLive (keeps_configWrite h ..)
    | bar0 offset size =>
      refine keeps_writeAccess h _ (fun ⟨ho, hs⟩ => hc ?_) _
      have hb : offset = 0x110010 := BitVec.eq_of_toNat_eq ho
      subst hb hs
      exact .inr (.inr (.inr (.inr ⟨f, v, rfl⟩)))

end

/-! ### What a cold reset keeps -/

/-- A cold reset keeps the queue, what the outside decides and the fuses; Device Time and the bring-up state are at their reset values. -/
structure Resets (s t : State) : Prop where
  pending : t.pending = s.pending
  env : t.env = s.env
  fuses : t.fuses = s.fuses
  dtime : t.time.dtime = 0
  boot : t.boot = Boot.reset
  memories : memoriesOk s → memoriesOk t

theorem resets_coldReset (s : State) : Resets s (coldReset s) :=
  ⟨rfl, rfl, rfl, rfl, rfl, fun ⟨h1, h2, h3, h4, h5, h6, _⟩ => ⟨h1, h2, h3, h4, h5, h6, rfl⟩⟩

theorem resets_losePower (s : State) : Resets s (losePower s) :=
  ⟨rfl, rfl, rfl, rfl, rfl, fun ⟨h1, _, _, _, h5, _, _⟩ => ⟨h1, rfl, rfl, rfl, h5, rfl, rfl⟩⟩

theorem resets_powerUp (s : State) : Resets s (powerUp s) :=
  ⟨rfl, rfl, rfl, rfl, rfl, fun ⟨h1, _, _, _, h5, _, _⟩ => ⟨h1, rfl, rfl, rfl, h5, rfl, rfl⟩⟩

/-- A command leaves Device Time alone or begins a cold reset. -/
def KeepsOrResets (s t : State) : Prop := Keeps fusesFollow s t ∨ Resets s t

theorem keepsOrResets_ite {s u v : State} {p : Prop} [Decidable p] (hu : KeepsOrResets s u) (hv : KeepsOrResets s v) :
    KeepsOrResets s (if p then u else v) := by
  split
  · exact hu
  · exact hv

theorem keepsOrResets_lrsKey (s : State) (key : BitVec 32) : KeepsOrResets s (lrsKey s key) :=
  keepsOrResets_ite (.inr (resets_coldReset s)) (.inl (keeps_ignored (.refl s) 0))

theorem keepsOrResets_avsTimeout (s : State) : KeepsOrResets s (avsTimeout s) := by
  unfold avsTimeout
  split
  · exact keepsOrResets_ite (.inr (resets_losePower s)) (.inl (.refl s))
  · exact .inl (.refl s)

theorem keepsOrResets_cause (s : State) (k : ColdCause) : ∃ t, exec (.coldReset k) s = .next t ∧ KeepsOrResets s t := by
  refine ⟨_, rfl, ?_⟩
  cases k with
  | powerUp => exact .inr (resets_powerUp s)
  | perst n => exact keepsOrResets_ite (.inl (.refl s)) (.inr (resets_coldReset s))
  | perstMoves high =>
    exact keepsOrResets_ite (.inl (.refl s)) (.inr ⟨rfl, rfl, rfl, rfl, rfl, (resets_coldReset s).memories⟩)
  | testEnMoves high =>
    exact keepsOrResets_ite (.inl ((Keeps.refl s).frame rfl)) (.inr ⟨rfl, rfl, rfl, rfl, rfl, (resets_coldReset s).memories⟩)

theorem keepsOrResets_hwWrite {s : State} (f : Nat) {k : State → State} (hk : KeepsOrResets s (k s)) :
    KeepsOrResets s (hwWrite s f k) := by
  unfold hwWrite
  exact keepsOrResets_ite (.inl (.refl s)) (keepsOrResets_ite hk (.inl (keeps_ignored (.refl s) ..)))

theorem keepsOrResets_writeReg_lrs (s : State) (f : Nat) (v : BitVec 32) : KeepsOrResets s (writeReg s f 0x110010 v) := by
  have hw : KeepsOrResets s (writeHw s f 0x110010 v) := by
    unfold writeHw
    exact keepsOrResets_hwWrite f (k := fun u => lrsKey u v) (keepsOrResets_lrsKey s v)
  unfold writeReg
  exact keepsOrResets_ite (.inl (.refl s)) hw

/-- Every command is executed: it keeps what `Keeps` says, or is one that can begin a cold reset and begins it. -/
theorem exec_keepsOrResets (c : Instr) (s : State) : ∃ t, exec c s = .next t ∧ (Keeps fusesFollow s t ∨ (Resets s t ∧ BeginsReset c)) := by
  by_cases hc : BeginsReset c
  · have hr : ∃ t, exec c s = .next t ∧ KeepsOrResets s t := by
      rcases hc with ⟨k, rfl⟩ | rfl | rfl | ⟨f, k, rfl⟩ | ⟨f, v, rfl⟩
      · exact keepsOrResets_cause s k
      · exact ⟨_, rfl, .inr (resets_losePower s)⟩
      · exact ⟨_, rfl, keepsOrResets_avsTimeout s⟩
      · exact ⟨_, rfl, keepsOrResets_hwWrite _ (keepsOrResets_lrsKey s k)⟩
      · exact ⟨_, rfl, keepsOrResets_writeReg_lrs s _ _⟩
    obtain ⟨t, ht, hk⟩ := hr
    exact ⟨t, ht, hk.imp_right fun h => ⟨h, hc⟩⟩
  · obtain ⟨t, ht, hk⟩ := keeps_exec (.refl s) hc
    exact ⟨t, ht, .inl hk⟩

theorem exec_next {c : Instr} {s t : State} (h : exec c s = .next t) : Keeps fusesFollow s t ∨ (Resets s t ∧ BeginsReset c) := by
  obtain ⟨u, hu, hk⟩ := exec_keepsOrResets c s
  obtain rfl : u = t := by
    rw [hu] at h
    exact Host.Outcome.next.inj h
  exact hk

/-- A tick keeps what `Keeps` says of the state whose clock has moved on. -/
theorem keeps_tick (s : State) : Keeps fusesFollow { s with time := { s.time with dtime := s.time.dtime + 10 } }
    (petWatchdog (latePort (latePort (eqxDue (serveAll { s with time := { s.time with dtime := s.time.dtime + 10 } })) false) true)) :=
  keeps_petWatchdog (keeps_latePort (keeps_latePort (keeps_eqxDue (keeps_serveAll (.refl _))) _) _)

/-- A step keeps the fuses' order and memories in canonical form. -/
theorem step_keeps {s t : State} (h : step s = .next t) : fusesFollow s.fuses t.fuses ∧ (memoriesOk s → memoriesOk t) := by
  unfold step at h
  split at h
  · cases h
    unfold idleTick
    split
    · exact ⟨fusesFollow_refl _, id⟩
    · exact ⟨(keeps_tick s).fuses, (keeps_tick s).memories⟩
  · rcases exec_next h with hk | ⟨hr, -⟩
    · exact ⟨hk.fuses, hk.memories⟩
    · exact ⟨hr.fuses ▸ fusesFollow_refl _, hr.memories⟩

/-- Settles O3, by what every command keeps. -/
theorem everyCommandAnswers : Obligations.everyCommandAnswers := by
  intro c s
  obtain ⟨t, ht, -⟩ := exec_keepsOrResets c s
  exact ⟨t, ht⟩

/-- Settles O4. -/
theorem commandsKeepQueueAndOutside : Obligations.commandsKeepQueueAndOutside := by
  intro c s t h
  rcases exec_next h with hk | ⟨hr, -⟩
  · exact ⟨hk.pending, hk.env⟩
  · exact ⟨hr.pending, hr.env⟩

/-- Settles O5: a command keeps Device Time or begins a cold reset. -/
theorem onlyTicksMoveDeviceTime : Obligations.onlyTicksMoveDeviceTime := by
  intro c s t h
  rcases exec_next h with hk | ⟨hr, hc⟩
  · exact .inl hk.dtime
  · exact .inr ⟨hr.dtime, hr.boot, hc⟩

/-- Settles O6: every state function keeps memories in canonical form. -/
theorem stepKeepsMemories : Obligations.stepKeepsMemories :=
  fun _ _ hs h => (step_keeps h).2 hs

/-- Settles O7: a life-cycle transition moves the fuses forward, everything else leaves them. -/
theorem fusesOnlyMoveForward : Obligations.fusesOnlyMoveForward :=
  fun _ _ h => (step_keeps h).1

end Sys2Proof.Machine
end

/-! SUPPORT. What a step does: the front of the queue, or one tick of the clock (log 2). -/

section
namespace Sys2Proof.Machine

/-- Settles O1. -/
theorem stepRunsFront : Obligations.stepRunsFront := fun _ _ => rfl

/-! ### One tick -/

/-- From state s to state t only the stacks differ. -/
def StacksOnly (s t : State) : Prop := t = { s with hbm := t.hbm }

theorem serveOne_stacksOnly (s : State) (p : Nat) : StacksOnly s (serveOne s p) := by
  have hi : StacksOnly s (issueOne s p) := by
    unfold issueOne
    dsimp only
    split
    · rfl
    · split <;> rfl
  have ha (u : State) : StacksOnly u (admitStalled u p) := by
    unfold admitStalled
    dsimp only
    split <;> rfl
  unfold serveOne
  split
  · rfl
  · unfold StacksOnly at *
    rw [ha, hi]

theorem serveAll_stacksOnly (s : State) : StacksOnly s (serveAll s) :=
  List.foldlRecOn (motive := StacksOnly s) _ _ rfl fun u hu p _ => by
    unfold StacksOnly at *
    rw [serveOne_stacksOnly u p, hu]

/-- A request of Equinox changes the Span side only, and no port comes up or goes down by it. -/
theorem eqxDue_spanOnly (s : State) :
    eqxDue s = { s with span := (eqxDue s).span } ∧ ∀ p, (portOf (eqxDue s) p).lostAt = (portOf s p).lostAt := by
  have hs (a b d j x w q r) : sendFrame s a b d j x w q r = { s with span := (sendFrame s a b d j x w q r).span } ∧
      ∀ p, (portOf (sendFrame s a b d j x w q r) p).lostAt = (portOf s p).lostAt := by
    unfold sendFrame
    split
    · exact ⟨rfl, fun _ => rfl⟩
    · split
      · exact ⟨rfl, fun _ => rfl⟩
      · dsimp only
        split
        · next port _ _ =>
          refine ⟨by cases port <;> rfl, fun p => ?_⟩
          cases port <;> cases p <;> rfl
        · exact ⟨rfl, fun _ => rfl⟩
  unfold eqxDue
  split
  · split
    · unfold eqxRequest
      obtain ⟨h1, h2⟩ := hs 7 0 s.span.refChip.toNat 0 (now s) 0 [] none
      refine ⟨?_, h2⟩
      dsimp only
      rw [h1]
    · exact ⟨rfl, fun _ => rfl⟩
  · exact ⟨rfl, fun _ => rfl⟩

theorem latePort_up {s : State} {p : Bool} (h : (portOf s p).lostAt = none) : latePort s p = s := by
  unfold latePort
  rw [h]

/-- Settles O2. -/
theorem emptyQueueTicks : Obligations.emptyQueueTicks := by
  intro s hs
  have hstep : step s = .next (idleTick s) := by
    unfold step
    rw [hs]
  refine ⟨_, hstep, fun ht => ?_, fun ht => ?_, fun h0 h1 => ?_⟩
  · simp [idleTick, ht]
  · unfold idleTick
    rw [if_neg (by simp [ht])]
    exact (keeps_tick s).dtime
  · unfold idleTick
    split
    · rfl
    · dsimp only
      generalize hu : ({ s with time := { s.time with dtime := s.time.dtime + 10 } } : State) = u
      have ha := serveAll_stacksOnly u
      obtain ⟨hb, hl⟩ := eqxDue_spanOnly (serveAll u)
      have hp (p : Bool) : (portOf (eqxDue (serveAll u)) p).lostAt = none := by
        rw [hl, ha, ← hu]
        cases p
        · exact h0
        · exact h1
      rw [latePort_up (hp false), latePort_up (hp true)]
      unfold petWatchdog
      split
      · rw [hb, ha, ← hu]
      · rw [hb, ha, ← hu]

end Sys2Proof.Machine
end

/-! SUPPORT. A retirement: its frame, and its completion in the completion ring. -/

section
namespace Sys2Proof.Machine

/-! ### The frame of a retirement -/

theorem wrapUp_calm {s : State} (h : calm s) : wrapUp s = s := wrapUp_empty h.1 h.2.2.1 h.2.2.2

/-- Settles O9: a retirement is a change of the host's side and the drop of an entry. -/
theorem frameOfRetirement : Obligations.frameOfRetirement := by
  refine ⟨fun s hc => ⟨settle_calm hc, settleLive_calm hc, wrapUp_calm hc⟩, fun s e x st ht hx hch => ?_⟩
  obtain ⟨u, hu, hf⟩ := finish_idle ht hx st
  rw [hf, hch]
  unfold dropped unwait
  rw [hu]
  rfl

/-! ### The completion entry -/

/-- A counter whose EVTEN is 0 raises no event. -/
theorem bump_quiet {s : State} {n : Nat} (h : (counterOf s n).evten = false) (k : Nat) :
    bump s n k = setCounter s n ((counterOf s n).add k) := by
  simp [bump, h]

/-- No counter of the function's page raises an event. -/
def QuietPage (s : State) (f : Nat) : Prop := ∀ k, (counterOf s (0x2000 + 32 * f + k)).evten = false

theorem Counter.add_evten (c : Counter) (n : Nat) : (c.add n).evten = c.evten := by
  unfold Counter.add
  split <;> rfl

theorem quietPage_bumpFn {s : State} {f : Nat} (h : QuietPage s f) (k n : Nat) : QuietPage (bumpFn s f k n) f := by
  intro i
  unfold bumpFn
  rw [bump_quiet (h k)]
  by_cases hi : i = k
  · subst hi
    rw [counterOf_setCounter, Counter.add_evten, h]
  · have : 0x2000 + 32 * f + i ≠ 0x2000 + 32 * f + k := by omega
    simp only [counterOf, setCounter, tblGetD_tblPut_other _ this]
    exact h i

theorem bumpFn_quiet {s : State} {f : Nat} (h : QuietPage s f) (k n : Nat) :
    (bumpFn s f k n).fns = s.fns ∧ (bumpFn s f k n).hostMem = s.hostMem := by
  unfold bumpFn
  rw [bump_quiet (h k)]
  exact ⟨rfl, rfl⟩

theorem setRing_setRing (s : State) (f r : Nat) (a b : Ring) : setRing (setRing s f r a) f r b = setRing s f r b := by simp [setRing]

/-- An entry in a ring whose interrupts are off: the bytes, the index and the phase. -/
theorem ringWrite_quiet {s : State} {f i : Nat} (hien : (ringOf s f i).ien = false) (hf : s.dbg.frozen = none) (bs : List Byte)
    (imm : Bool) : ∃ (r : Ring) (m : Memory), r.own = (ringOf s f i).own + 1 ∧ r.phase = nextPhase (ringOf s f i) ∧
      m = memWriteN s.hostMem (slotAddress (ringOf s f i) (ringOf s f i).own) bs ∧
      ringWrite s f i bs imm = setRing { s with hostMem := m } f i r := by
  unfold ringWrite
  dsimp only
  unfold hostWrite
  rw [hf]
  dsimp only
  unfold ringNotify
  rw [ringOf_setRing]
  dsimp only
  rw [hien]
  rw [Bool.false_and, if_neg Bool.false_ne_true, setRing_setRing]
  refine ⟨_, _, ?_, ?_, ?_, rfl⟩ <;> rfl

theorem writeCompletion_enabled {s : State} {f sq : Nat} (hd : takesDma s f = true)
    (he : (ringOf s f (ringOf s f sq).cq.toNat).en = true) (cid op : Nat) (st : BitVec 8) (result : Nat) (imm : Bool) :
    writeCompletion s f sq cid op st result imm = ringWrite s f (ringOf s f sq).cq.toNat
      (completionBytes s (ringOf s f (ringOf s f sq).cq.toNat).phase cid sq op (ringOf s f sq).own.toNat st result) imm := by
  simp [writeCompletion, hd, he]

theorem traceWrite_off {s : State} {f : Nat} (h : (fnOf s f).traceEn = false) (kind st sq op cid : Nat) :
    traceWrite s f kind st sq op cid = s := by
  simp [traceWrite, h]

/-- A retirement whose function has its counter events and its trace off writes its completion and nothing else of the host's side. -/
theorem finish_quiet {s : State} {e : Nat} {x : Entry} (hx : entryOf s e = some x) (hi : tilesIdle s) {st : BitVec 8} {v : State}
    (hv : writeCompletion s x.hdr.fn.toNat x.hdr.sq.toNat x.hdr.cid.toNat (opcodeOf x.cmd) st x.result.toNat x.hdr.imm = v)
    (ht : (fnOf v x.hdr.fn.toNat).traceEn = false) (hq : QuietPage v x.hdr.fn.toNat) :
    (finish s e st).fns = v.fns ∧ (finish s e st).hostMem = v.hostMem := by
  obtain ⟨w, hw, hfns, hmem, hfin⟩ : ∃ w, HostOnly s w ∧ w.fns = v.fns ∧ w.hostMem = v.hostMem ∧ finish s e st =
      dropEntry (traceWrite w x.hdr.fn.toNat 3 st.toNat x.hdr.sq.toNat (opcodeOf x.cmd) x.hdr.cid.toNat) e := by
    have hhost : HostOnly s v := hv ▸ hostOnly_writeCompletion (HostOnly.refl s) ..
    obtain ⟨hf1, hm1⟩ := bumpFn_quiet hq 12 1
    obtain ⟨hf2, hm2⟩ := bumpFn_quiet (quietPage_bumpFn hq 12 1) 13 1
    unfold finish
    rw [hx]
    dsimp only
    rw [hv]
    split
    · exact ⟨_, hostOnly_bumpFn (hostOnly_bumpFn hhost ..) .., hf2.trans hf1, hm2.trans hm1, rfl⟩
    · exact ⟨_, hostOnly_bumpFn hhost .., hf1, hm1, rfl⟩
  have htrace : (fnOf w x.hdr.fn.toNat).traceEn = false := by
    unfold fnOf at *
    rw [hfns]
    exact ht
  rw [hfin, traceWrite_off htrace, dropEntry_hostOnly hi hw]
  exact ⟨hfns, hmem⟩

/-- Settles O12: the completion is the one write to host memory of a quiet retirement. -/
theorem completionEntryWritten : Obligations.completionEntryWritten := by
  intro s e x st hx hi f q r hdma hen hkind hien hfroz hwf htr hev a t
  obtain ⟨r1, m, hown, hphase, hm, hw⟩ := ringWrite_quiet (s := s) (f := f) (i := q.cq.toNat) hien hfroz
    (completionBytes s r.phase x.hdr.cid.toNat x.hdr.sq.toNat (opcodeOf x.cmd) q.own.toNat st x.result.toNat) x.hdr.imm
  have hv := (writeCompletion_enabled hdma hen x.hdr.cid.toNat (opcodeOf x.cmd) st x.result.toNat x.hdr.imm).trans hw
  generalize hvv : setRing _ f q.cq.toNat r1 = v at hv
  have hquiet : QuietPage v f := by
    rw [← hvv]
    exact hev
  have htrace : (fnOf v f).traceEn = false := by
    rw [← hvv, setRing, fnOf_setFn]
    exact htr
  have hmv : v.hostMem = memWriteN s.hostMem a
      (completionBytes s r.phase x.hdr.cid.toNat x.hdr.sq.toNat (opcodeOf x.cmd) q.own.toNat st x.result.toNat) := by
    rw [← hvv, ← hm]
    rfl
  obtain ⟨hfns, hmem⟩ := finish_quiet hx hi hv htrace hquiet
  have hlen : (completionBytes s r.phase x.hdr.cid.toNat x.hdr.sq.toNat (opcodeOf x.cmd) q.own.toNat st x.result.toNat).length = 32 := by
    simp [completionBytes]
  have hring : ringOf t f q.cq.toNat = r1 := by
    have : ringOf t f q.cq.toNat = ringOf v f q.cq.toNat := by
      unfold ringOf fnOf
      rw [hfns]
    rw [this, ← hvv, ringOf_setRing]
  have hsame := memReadN_memWriteN_same hwf a
    (completionBytes s r.phase x.hdr.cid.toNat x.hdr.sq.toNat (opcodeOf x.cmd) q.own.toNat st x.result.toNat)
  rw [hlen] at hsame
  refine ⟨?_, fun b hb => ?_, ?_, ?_⟩
  · rw [hmem, hmv]
    exact hsame
  · rw [hmem, hmv]
    exact memRead_memWriteN_other hwf a _ (hlen.symm ▸ hb)
  · rw [hring, hown]
  · rw [hring, hphase]
    rfl

end Sys2Proof.Machine
end

/-! SUPPORT. FSYNC: what a pulse does, and the measured period (R234 to R237). -/

section
namespace Sys2Proof.Machine

theorem exec_fsyncPulse_seen {s : State} {high : Nat} (ht : ticking s = true) (he : s.time.en = true) (hh : 3 ≤ high) :
    exec (.fsyncPulse high) s = .next (settleLive (pulse s)) := by
  show Host.Outcome.next (fsyncEdge s high) = _
  simp [fsyncEdge, ht, he, hh]

theorem exec_fsyncPulse_unseen {s : State} {high : Nat} (h : s.time.en = false ∨ high < 3) :
    exec (.fsyncPulse high) s = .next s := by
  show Host.Outcome.next (fsyncEdge s high) = _
  unfold fsyncEdge
  rw [if_neg]
  rcases h with h | h
  · simp [h]
  · simp [Nat.not_le.2 h]

theorem pulse_free {s : State} (hl : s.time.locked = false) :
    pulse s = raiseAll (boundary s (s.time.lockAt (nextPf s))) 0x02 0 (boundary s (s.time.lockAt (nextPf s))).time.frameNum.toNat := by
  simp [pulse, hl]

theorem pulse_inside_measured {s : State} (hl : s.time.locked = true) (hn : s.time.nign ≠ 4) (hw : insideWindow s.time = true)
    {p : Word64} (hp : s.time.lastPulse = some p) :
    pulse s = boundary s (s.time.lockAt (measured s.time.pm (now s - p.toNat))) := by
  simp [pulse, hl, hn, hw, hp]

theorem pulse_inside_first {s : State} (hl : s.time.locked = true) (hn : s.time.nign ≠ 4) (hw : insideWindow s.time = true)
    (hp : s.time.lastPulse = none) : pulse s = boundary s (s.time.lockAt s.time.pm) := by
  simp [pulse, hl, hn, hw, hp]

theorem pulse_outside {s : State} (hl : s.time.locked = true) (hn : s.time.nign ≠ 4) (hw : insideWindow s.time = false) :
    pulse s = bump { s with time := { s.time with nign := s.time.nign + 1, lastIgnored := s.time.dtime } } 1 1 := by
  simp [pulse, hl, hn, hw]

theorem pulse_relock {s : State} (hl : s.time.locked = true) (hn : s.time.nign = 4) :
    pulse s =
      let i := now s - s.time.lastIgnored.toNat
      let u := boundary s (s.time.lockAt (if 1000000 ≤ i ∧ i ≤ 200000000 then i else nextPf s))
      raiseAll u 0x03 0 u.time.frameNum.toNat := by
  simp [pulse, hl, hn]

theorem measured_eq (pm i : Nat) : (measured pm i : Int) = min 200000000 (max 1000000 ((pm : Int) + rhu ((i : Int) - pm) 3)) := by
  have : rhu ((i : Int) - pm) 3 = ((i : Int) - pm + 4) / 8 := rfl
  unfold measured
  omega

/-- Settles O38, a form of the pulse after the other. -/
theorem fsyncPulses : Obligations.fsyncPulses := by
  refine ⟨fun s high ht => ⟨fun he => exec_fsyncPulse_unseen (.inl he), fun hh => exec_fsyncPulse_unseen (.inr hh), fun he hh => ?_⟩,
    fun pm i => ⟨measured_eq pm i, ?_, ?_⟩⟩
  · simp only [exec_fsyncPulse_seen ht he hh]
    exact ⟨fun hl => by rw [pulse_free hl], fun hl hn hw p hp => by rw [pulse_inside_measured hl hn hw hp],
      fun hl hn hw hp => by rw [pulse_inside_first hl hn hw hp], fun hl hn hw => by rw [pulse_outside hl hn hw],
      fun hl hn => by rw [pulse_relock hl hn]⟩
  · have := measured_eq pm i
    omega
  · have := measured_eq pm i
    omega

end Sys2Proof.Machine
end

/-! SUPPORT. What DISPATCH starts next (R245): the least key of the winning rank's operations. -/

section
namespace Sys2Proof.Machine

theorem lexLt_trans {a b c : List Nat} (h : lexLt a b = true) (k : lexLt b c = true) : lexLt a c = true := by
  induction a generalizing b c with
  | nil => simp [lexLt] at h
  | cons x as ih =>
    cases b with
    | nil => simp [lexLt] at h
    | cons y bs =>
      cases c with
      | nil => simp [lexLt] at k
      | cons z cs =>
        simp only [lexLt, Bool.or_eq_true, Bool.and_eq_true, decide_eq_true_eq, beq_iff_eq] at h k ⊢
        rcases h with h | ⟨rfl, h⟩ <;> rcases k with k | ⟨rfl, k⟩
        · exact .inl (h.trans k)
        · exact .inl h
        · exact .inl k
        · exact .inr ⟨rfl, ih h k⟩

theorem lexLt_irrefl (a : List Nat) : lexLt a a = false := by
  induction a with
  | nil => rfl
  | cons x as ih => simp [lexLt, ih]

/-- Of the best so far and the next operation, the one with the lesser key. -/
def better (key : TileOp → List Nat) (b : Option TileOp) (o : TileOp) : Option TileOp :=
  match b with
  | none => some o
  | some x => if lexLt (key o) (key x) then some o else some x

theorem bestOp_concat (key : TileOp → List Nat) (l : List TileOp) (x : TileOp) :
    bestOp key (l ++ [x]) = better key (bestOp key l) x := by
  unfold bestOp
  rw [List.foldl_append]
  rfl

theorem bestOp_eq_none {key : TileOp → List Nat} {l : List TileOp} (h : bestOp key l = none) : l = [] := by
  induction l using List.reverseRecOn with
  | nil => rfl
  | append_singleton l x _ =>
    rw [bestOp_concat] at h
    unfold better at h
    split at h
    · cases h
    · split at h <;> cases h

/-- The choice among operations is one of them, and the key of none precedes its key. -/
theorem bestOp_least {key : TileOp → List Nat} {l : List TileOp} {o : TileOp} (h : bestOp key l = some o) :
    o ∈ l ∧ ∀ v ∈ l, lexLt (key v) (key o) = false := by
  induction l using List.reverseRecOn generalizing o with
  | nil => cases h
  | append_singleton l x ih =>
    simp only [List.mem_append, List.mem_singleton]
    rw [bestOp_concat] at h
    cases hb : bestOp key l with
    | none =>
      rw [hb] at h
      obtain rfl : x = o := Option.some.inj h
      obtain rfl := bestOp_eq_none hb
      refine ⟨.inr rfl, fun v hv => ?_⟩
      rcases hv with hv | rfl
      · cases hv
      · exact lexLt_irrefl _
    | some b =>
      obtain ⟨hmem, hleast⟩ := ih hb
      rw [hb] at h
      unfold better at h
      dsimp only at h
      split at h
      · next hlt =>
        obtain rfl : x = o := Option.some.inj h
        refine ⟨.inr rfl, fun v hv => ?_⟩
        rcases hv with hv | rfl
        · by_contra hc
          have := lexLt_trans (Bool.not_eq_false _ ▸ hc) hlt
          simp [hleast v hv] at this
        · exact lexLt_irrefl _
      · next hge =>
        obtain rfl : b = o := Option.some.inj h
        refine ⟨.inl hmem, fun v hv => ?_⟩
        rcases hv with hv | rfl
        · exact hleast v hv
        · simpa using hge

theorem winningRank_rt {s : State} (h : rtOps s ≠ []) : winningRank s = (1, rtOps s, rtKey s) := by
  unfold winningRank
  rw [if_pos]
  simpa using h

/-- Settles O23: the winning rank is that of RT, and the choice in it is the least key. -/
theorem realTimeStartsFirst : Obligations.realTimeStartsFirst := by
  refine ⟨fun s o permitted hrt hstart => ?_, fun s o v hrt hstart hv hfits hclaim => ?_⟩
  · unfold nextStart at hstart
    rw [winningRank_rt hrt] at hstart
    dsimp only at hstart
    split at hstart
    · next w hw =>
      cases hstart
      have hm := (bestOp_least (key := ageKey) hw).1
      simp only [overdueOps, List.mem_filter, Bool.and_eq_true] at hm
      obtain ⟨⟨_, _, hover⟩, hfits, _⟩ := hm
      exact .inr ⟨hover, hfits, rfl⟩
    · obtain ⟨w, hw, he⟩ := Option.map_eq_some_iff.1 hstart
      cases he
      have hm := (bestOp_least hw).1
      simp only [rtOps, List.mem_filter, Bool.and_eq_true, beq_iff_eq] at hm
      obtain ⟨⟨_, hcls, _⟩, _⟩ := hm
      exact .inl ⟨hcls, rfl⟩
  · unfold nextStart at hstart
    rw [winningRank_rt hrt] at hstart
    dsimp only at hstart
    split at hstart
    · cases hstart
    · obtain ⟨w, hw, he⟩ := Option.map_eq_some_iff.1 hstart
      cases he
      exact (bestOp_least hw).2 v (List.mem_filter.2 ⟨hv, by simp [hfits, hclaim]⟩)

end Sys2Proof.Machine
end

/-! SUPPORT. Admission: what the cold reset leaves to start from, and what becomes of a ring command that meets nothing else. -/

section
namespace Sys2Proof.Machine

/-- Settles O8: the cold reset's state is a constant of the model. -/
theorem resetLeaves : Obligations.resetLeaves := by
  refine ⟨⟨rfl, rfl, rfl, rfl, rfl, rfl, rfl⟩, rfl, ⟨rfl, rfl, rfl, rfl⟩, fun p hp => absurd hp List.not_mem_nil, ?_⟩
  repeat' constructor

/-! ### What a command that is queued or begins changes -/

/-- From state s to state t only what admission and a start touch differs: the Docket, contexts, sync counters, the Span side, and
what leaves the engine. -/
def StartOnly (s t : State) : Prop :=
  t = { s with docket := t.docket, ctxs := t.ctxs, syncs := t.syncs, span := t.span, fns := t.fns, hostMem := t.hostMem
               heldWrites := t.heldWrites, dbg := { s.dbg with counters := t.dbg.counters } }

theorem StartOnly.refl (s : State) : StartOnly s s := rfl

theorem StartOnly.trans {s t u : State} (h : StartOnly s t) (k : StartOnly t u) : StartOnly s u := by
  unfold StartOnly at *
  rw [k, h]

theorem HostOnly.startOnly {s t : State} (h : HostOnly s t) : StartOnly s t := by
  unfold StartOnly
  rw [h]

theorem startOnly_admitBase (s : State) (x : Entry) : StartOnly s (admitBase s x) := by
  unfold admitBase
  split
  · unfold openJob
    split
    · rfl
    · dsimp only
      split <;> rfl
  · rfl

theorem startOnly_noteEnder (s : State) (c e : Nat) : StartOnly s (noteEnder s c e) := by
  unfold noteEnder modCtx
  split <;> rfl

theorem startOnly_queueEntry (s : State) (e : Nat) (x : Entry) (parts : List Part) : StartOnly s (queueEntry s e x parts) := by
  have h1 : StartOnly s (setEntry (takeSeq (admitBase s x)) e (queuedAs s x parts)) := (startOnly_admitBase s x).trans rfl
  unfold queueEntry
  refine StartOnly.trans ?_ (hostOnly_traceWrite (HostOnly.refl _) ..).startOnly
  split
  · exact h1.trans (startOnly_noteEnder ..)
  · exact h1

theorem startOnly_admitted (s : State) (h : ReqHeader) (cmd : Command) (parts : List Part) : StartOnly s (admitted s h cmd parts) := by
  have h1 : StartOnly s (fetched s h cmd) := rfl
  have h2 := h1.trans (startOnly_queueEntry _ s.docket.nextId (newEntry s h cmd []) parts)
  exact h2.trans (u := refreshReady _) rfl

theorem startOnly_noteStart (s : State) (e : Nat) : StartOnly s (noteStart s e) := by
  unfold noteStart
  split
  · rfl
  · next x _ =>
    have h1 : StartOnly s (setEntry { s with docket := { s.docket with starts := s.docket.starts + 1 } } e
        { x with dispatched := true, started := s.docket.starts }) := rfl
    dsimp only
    split
    · exact h1
    · exact h1.trans (hostOnly_traceWrite (HostOnly.refl _) ..).startOnly

theorem startOnly_began (s : State) (h : ReqHeader) (cmd : Command) : StartOnly s (began s h cmd) :=
  ((startOnly_admitted s h cmd []).trans (u := setEntry ..) rfl).trans (startOnly_noteStart ..)

theorem StartOnly.condemned {s t : State} (h : StartOnly s t) : t.hbm.condemned = s.hbm.condemned := by rw [h]
theorem StartOnly.suspects {s t : State} (h : StartOnly s t) : t.flash.suspects = s.flash.suspects := by rw [h]

/-! ### An entry that waits -/

theorem kickErases_waiting {s : State} {e : Nat} {x : Entry} (h : s.docket.entries = [(e, x)]) (hx : x.state ≠ .running) :
    kickErases s = s := by
  unfold kickErases
  split
  · rfl
  · rw [h]
    simp only [List.foldl_cons, List.foldl_nil, hx, false_and, if_false]
    split <;> rfl

/-- What follows an event while the only entry waits: it becomes READY if it may start. -/
theorem wrapUp_waiting {s : State} {e : Nat} {x : Entry} (h : s.docket.entries = [(e, x)]) (hx : x.state ≠ .running)
    (hc : s.hbm.condemned = []) (hf : s.flash.suspects = []) : wrapUp s = refreshReady s := by
  unfold wrapUp
  rw [kickErases_waiting h hx, noticed_none hc hf]

theorem startFree_waiting {s : State} {e : Nat} {x : Entry} (h : s.docket.entries = [(e, x)]) (hx : startsAtOnce x.cmd = false) :
    startFree s e = s := by
  unfold startFree
  rw [entryOf_only h]
  simp [hx]

/-- A ring command that waits for more than its turn is queued, and nothing else happens. -/
theorem submit_waits {s : State} {h : ReqHeader} {cmd : Command} {parts : List Part} (ha : alone s h) (hp : admits s h cmd parts)
    (hw : startsAtOnce cmd = false) : submit s h cmd = admitted s h cmd parts := by
  have hd := ha.2.1.1
  obtain ⟨y, hy, hcmd, -, -, -, hstate, -⟩ := admitted_only (h := h) (cmd := cmd) parts hd
  have hq := queueEntry_only (newEntry s h cmd []) parts (fetched_entries h cmd hd)
  have hs := startOnly_admitted s h cmd parts
  rw [submit_alone cmd ha, admitEntry_alone ha hp]
  show wrapUp (startFree (admitted s h cmd parts) s.docket.nextId) = _
  rw [startFree_waiting hy (hcmd ▸ hw), wrapUp_waiting hy (by rcases hstate with h | h <;> rw [h] <;> decide)
    (hs.condemned.trans ha.2.1.2.2.1) (hs.suspects.trans ha.2.1.2.2.2)]
  exact refreshReady_twice hq

/-- A ring command whose batch table does not come in time waits for LOWER_TIER_LATE. -/
theorem submit_late {s : State} {h : ReqHeader} {cmd : Command} (ha : alone s h)
    (he : admitCheck (fetched s h cmd) h cmd false false = .error stLowerLate) :
    submit s h cmd = readLate (fetched s h cmd) s.docket.nextId ∧
      ∃ y : Entry, (readLate (fetched s h cmd) s.docket.nextId).docket.entries = [(s.docket.nextId, y)] ∧
        y.state = .fetched ∧ y.cmd = cmd ∧ y.lateAt.isSome = true := by
  have hd := ha.2.1.1
  have hent := entryOf_fetched h cmd hd
  obtain ⟨y, hy, hstate, hcmd, hlate⟩ : ∃ y : Entry, readLate (fetched s h cmd) s.docket.nextId =
      setEntry (fetched s h cmd) s.docket.nextId y ∧ y.state = .fetched ∧ y.cmd = cmd ∧ y.lateAt.isSome = true := by
    unfold readLate rootOf
    rw [hent]
    dsimp only [newEntry, Option.getD]
    unfold modEntry
    rw [hent]
    exact ⟨_, rfl, rfl, rfl, rfl⟩
  have hone : (readLate (fetched s h cmd) s.docket.nextId).docket.entries = [(s.docket.nextId, y)] := by
    rw [hy]
    exact setEntry_only y (fetched_entries h cmd hd)
  have hadmit : admitEntry (fetched s h cmd) s.docket.nextId = readLate (fetched s h cmd) s.docket.nextId := by
    unfold admitEntry
    rw [hent]
    simp [newEntry, he]
  have hready : refreshReady (readLate (fetched s h cmd) s.docket.nextId) = readLate (fetched s h cmd) s.docket.nextId :=
    mapEntries_same _ hone (by simp [markReady, hstate])
  have hfree : startFree (readLate (fetched s h cmd) s.docket.nextId) s.docket.nextId =
      readLate (fetched s h cmd) s.docket.nextId := by
    unfold startFree
    rw [entryOf_only hone]
    simp [eligible, hstate]
  refine ⟨?_, y, hone, hstate, hcmd, hlate⟩
  rw [submit_alone cmd ha, hadmit, hready, hfree, wrapUp_waiting hone (by rw [hstate]; decide) ?_ ?_, hready]
  · rw [hy]
    exact ha.2.1.2.2.1
  · rw [hy]
    exact ha.2.1.2.2.2

/-- Settles O10: the three ends of admission. -/
theorem admissionQueuesOrCompletes : Obligations.admissionQueuesOrCompletes := by
  refine ⟨fun s h cmd parts ha hp hw => ⟨by rw [exec_ringRow, submit_waits ha hp hw], ?_⟩,
    fun s h cmd st ha he hl => by rw [exec_ringRow, submit_rejected ha he hl],
    fun s h cmd ha he => ⟨by rw [exec_ringRow, (submit_late ha he).1], (submit_late ha he).2⟩⟩
  obtain ⟨y, hy, hcmd, hhdr, -, hparts, hstate, hdisp, -, -, hseq⟩ := admitted_only (h := h) (cmd := cmd) parts ha.2.1.1
  exact ⟨y, hy, hcmd, hhdr, hparts, hseq, hstate, hdisp⟩

end Sys2Proof.Machine
end

/-! SUPPORT. NOP, the job commands and SYNC_SIGNAL (R96, R100, R310 to R313). -/

section
namespace Sys2Proof.Machine

/-- The row of a command that starts at once, through what its unit does with it. -/
theorem exec_unit {s : State} {h : ReqHeader} {cmd : Command} (hs : startsAlone s h cmd) (hc : startsAtOnce cmd = true) {t : State}
    (ht : startUnit (began s h cmd) s.docket.nextId (begunEntry s h cmd) = t) : exec (ringRow h cmd) s = .next (wrapUp t) := by
  rw [exec_starts hs hc, ht]

/-! ### The jobs of a command that begins -/

/-- A trace record, a start and a mark of readiness leave contexts and sync counters as they are. -/
theorem traceWrite_ctxs (s : State) (f k st sq op cid : Nat) : (traceWrite s f k st sq op cid).ctxs = s.ctxs := by
  rw [hostOnly_traceWrite (HostOnly.refl s)]

theorem traceWrite_syncs (s : State) (f k st sq op cid : Nat) : (traceWrite s f k st sq op cid).syncs = s.syncs := by
  rw [hostOnly_traceWrite (HostOnly.refl s)]

theorem noteStart_ctxs (s : State) (e : Nat) : (noteStart s e).ctxs = s.ctxs ∧ (noteStart s e).syncs = s.syncs := by
  unfold noteStart
  split
  · exact ⟨rfl, rfl⟩
  · dsimp only
    split
    · exact ⟨rfl, rfl⟩
    · exact ⟨traceWrite_ctxs .., traceWrite_syncs ..⟩

theorem began_ctxs (s : State) (h : ReqHeader) (cmd : Command) :
    (began s h cmd).ctxs = (admitted s h cmd []).ctxs ∧ (began s h cmd).syncs = (admitted s h cmd []).syncs :=
  noteStart_ctxs _ _

/-- A command that ends no job finds the contexts that its admission leaves. -/
theorem admitted_ctxs {s : State} {h : ReqHeader} {cmd : Command} (he : isEnd cmd = false) :
    (admitted s h cmd []).ctxs = (admitBase (fetched s h cmd) (newEntry s h cmd [])).ctxs ∧
      (admitted s h cmd []).syncs = (admitBase (fetched s h cmd) (newEntry s h cmd [])).syncs := by
  show (queueEntry (fetched s h cmd) s.docket.nextId (newEntry s h cmd []) []).ctxs = _ ∧ (queueEntry _ _ _ _).syncs = _
  unfold queueEntry
  rw [traceWrite_ctxs, traceWrite_syncs, if_neg (by simp [newEntry, he])]
  exact ⟨rfl, rfl⟩

/-- JOB_BEGIN opens its job at its admission; with ZERO = 1 the counters of its window are zeroed. -/
theorem jobBegin_opens {s : State} {h : ReqHeader} {b : JobBeginBody} {k : Ctx} (hk : ctxOf s h.fn.toNat = some k) :
    jobOf (began s h (.jobBegin b)) h.fn.toNat = some { tag := b.tag, span := b.spanjob, faulted := false, ender := none } ∧
      (began s h (.jobBegin b)).syncs = if b.flags.getLsbD 0 then
        tblMap s.syncs fun g v => if k.syncBase ≤ g ∧ g < k.syncBase + k.syncCount then Sync.reset else v else s.syncs := by
  obtain ⟨hc, hs⟩ := began_ctxs s h (.jobBegin b)
  obtain ⟨hc', hs'⟩ := admitted_ctxs (s := s) (h := h) (cmd := .jobBegin b) rfl
  have hbase : admitBase (fetched s h (.jobBegin b)) (newEntry s h (.jobBegin b) []) =
      openJob (fetched s h (.jobBegin b)) h.fn.toNat b := rfl
  have hf : ctxOf (fetched s h (.jobBegin b)) h.fn.toNat = some k := hk
  unfold jobOf ctxOf
  rw [hc, hc', hs, hs', hbase]
  unfold openJob
  rw [hf]
  dsimp only
  split
  · exact ⟨by simp [setCtx, forgetSeen], rfl⟩
  · exact ⟨by simp [setCtx, forgetSeen], rfl⟩

theorem tblGet_tblMap {α : Type} (t : Tbl α) (f : Nat → α → α) (k : Nat) : tblGet (tblMap t f) k = (tblGet t k).map (f k) := by
  induction t with
  | nil => rfl
  | cons p r ih =>
    unfold tblMap at ih ⊢
    simp only [List.map_cons, tblGet]
    split
    · next h => simp [h]
    · split
      · rfl
      · exact ih

/-- JOB_END becomes the ender of a job that has none. -/
theorem jobEnd_ender {s : State} {h : ReqHeader} {f : BitVec 8} {j : Job} (hj : jobOf s h.fn.toNat = some j) (he : j.ender = none) :
    jobOf (began s h (.jobEnd f)) h.fn.toNat = some { j with ender := some s.docket.nextId } := by
  obtain ⟨k, hk, hkj⟩ := Option.bind_eq_some_iff.1 hj
  have hc : (began s h (.jobEnd f)).ctxs = (noteEnder (setEntry (takeSeq (fetched s h (.jobEnd f))) s.docket.nextId
      (queuedAs (fetched s h (.jobEnd f)) (newEntry s h (.jobEnd f) []) [])) h.fn.toNat s.docket.nextId).ctxs := by
    rw [(began_ctxs s h (.jobEnd f)).1]
    show (queueEntry (fetched s h (.jobEnd f)) s.docket.nextId (newEntry s h (.jobEnd f) []) []).ctxs = _
    unfold queueEntry
    rw [traceWrite_ctxs]
    rfl
  have hk' : ctxOf (setEntry (takeSeq (fetched s h (.jobEnd f))) s.docket.nextId
      (queuedAs (fetched s h (.jobEnd f)) (newEntry s h (.jobEnd f) []) [])) h.fn.toNat = some k := hk
  unfold jobOf ctxOf
  rw [hc]
  unfold noteEnder modCtx
  rw [hk']
  simp [setCtx, hkj, he]

theorem jobMembers_ender {s : State} {e : Nat} {x : Entry} {f : BitVec 8} (h : s.docket.entries = [(e, x)])
    (hx : x.cmd = .jobEnd f) (c : Nat) : jobMembers s c = [] := by
  simp [jobMembers, h, hx]

theorem closeJob_job (s : State) (c : Nat) : jobOf (closeJob s c) c = none := by
  unfold closeJob
  split
  · next h => simp [jobOf, h]
  · next x h => simp [jobOf, ctxOf, setCtx]

/-- JOB_END, alone in its job, closes it. -/
theorem startJobEnd_alone {s : State} {e : Nat} {x : Entry} {f : BitVec 8} {j : Job} (h : s.docket.entries = [(e, x)])
    (hx : x.cmd = .jobEnd f) (hst : x.status = none) (hj : jobOf s x.ctx = some j) (he : j.ender = some e) :
    startJobEnd s e x f = finish (closeJob s x.ctx) e (if j.faulted then stJobFaulted else stSuccess) := by
  have hmem := jobMembers_ender h hx x.ctx
  have hcancel : cancelJob s x.ctx = s := by simp [cancelJob, hmem]
  have htry : tryJobEnd s e = finish (closeJob s x.ctx) e (if j.faulted then stJobFaulted else stSuccess) := by
    unfold tryJobEnd
    rw [entryOf_only h]
    simp only [hmem, List.isEmpty_nil, if_true, hj, hst, Option.getD_none]
    unfold finishJobEnd
    rw [entryOf_only h]
    simp [h]
  unfold startJobEnd
  rw [hst, hj]
  simp only [he, if_true, hcancel, ite_self]
  exact htry

/-! ### SYNC_SIGNAL -/

theorem addSyncBy_plus {s : State} {g n : Nat} {clock : Tbl Nat} (hp : (syncOf s g).poisoned = false)
    (hn : (syncOf s g).value.toNat + n < 2 ^ 64) :
    addSyncBy s g n clock = (markMet (setSync s g ((syncOf s g).plus n clock)) g ((syncOf s g).plus n clock).value, false) := by
  unfold addSyncBy
  simp only [hp, Bool.false_eq_true, if_false, Nat.not_le.2 hn]

theorem addSyncBy_over {s : State} {g n : Nat} {clock : Tbl Nat} (hp : (syncOf s g).poisoned = false)
    (hn : 2 ^ 64 ≤ (syncOf s g).value.toNat + n) :
    addSyncBy s g n clock = (setSync s g { syncOf s g with poisoned := true }, true) := by
  unfold addSyncBy
  simp only [hp, Bool.false_eq_true, if_false, hn, if_true]

theorem addSyncBy_poisoned {s : State} {g n : Nat} {clock : Tbl Nat} (hp : (syncOf s g).poisoned = true) :
    addSyncBy s g n clock = (s, false) := by
  unfold addSyncBy
  simp only [hp, if_true]

/-- What SYNC_SIGNAL's unit does with its counter. -/
theorem startUnit_syncSignal {s : State} {h : ReqHeader} {b : SyncBody} {g : Nat} (hs : startsAlone s h (.syncSignal b))
    (hg : syncIndex (began s h (.syncSignal b)) h.fn.toNat b.cidx.toNat = some g) {r : State × Bool}
    (hr : addSyncBy (began s h (.syncSignal b)) g b.value.toNat (allSignals (began s h (.syncSignal b))) = r) :
    startUnit (began s h (.syncSignal b)) s.docket.nextId (begunEntry s h (.syncSignal b)) = foldContext
      (if r.2 then finish (faultJob r.1 h.fn.toNat 0x0E 0 true) s.docket.nextId stJobFaulted
       else finish r.1 s.docket.nextId stSuccess) h.fn.toNat := by
  unfold startUnit
  rw [begunEntry_cmd hs, begunEntry_ctx hs]
  dsimp only
  unfold startSyncSignal addSync
  rw [begunEntry_ctx hs, hg]
  dsimp only
  rw [hr]

/-- Settles O13. -/
theorem nopJobsAndSignals : Obligations.nopJobsAndSignals := by
  refine ⟨⟨fun s h hs => ?_, fun s h b k hs hk => ?_, fun s h f j hs hj he => ?_⟩, fun s h b g hs => ?_⟩
  · exact exec_unit (cmd := .nop) hs rfl (by unfold startUnit; rw [begunEntry_cmd hs])
  · obtain ⟨hjob, hsync⟩ := jobBegin_opens (b := b) hk
    refine ⟨exec_unit (cmd := .jobBegin b) hs rfl (by unfold startUnit; rw [begunEntry_cmd hs]), hjob, fun hz i hi => ?_, fun hz => ?_⟩
    · unfold syncOf tblGetD
      rw [hsync, if_pos (by rw [hz]; decide), tblGet_tblMap]
      cases tblGet s.syncs (k.syncBase + i) with
      | none => rfl
      | some v =>
        simp only [Option.map_some, Option.getD_some]
        exact if_pos (by omega)
    · rw [hsync, if_neg (by rw [hz]; decide)]
  · have hone := (began_only (h := h) (cmd := .jobEnd f) hs.1.2.1.1)
    obtain ⟨hent, hcmd, -, -, -, hstatus, -⟩ := hone
    have hctx := begunEntry_ctx hs
    refine ⟨exec_unit (cmd := .jobEnd f) hs rfl ?_, closeJob_job ..⟩
    unfold startUnit
    rw [hcmd]
    dsimp only
    rw [startJobEnd_alone hent hcmd hstatus (hctx ▸ jobEnd_ender hj he) rfl, hctx]
  · intro u v w hg
    refine ⟨fun hp hn => ⟨exec_unit (cmd := .syncSignal b) hs rfl ?_, ?_, hp⟩, fun hp hn => exec_unit (cmd := .syncSignal b) hs rfl ?_,
      fun hp => ?_⟩
    · rw [startUnit_syncSignal hs hg (addSyncBy_plus hp hn)]
      rfl
    · show BitVec.ofNat 64 (v.value.toNat + b.value.toNat) = _
      rw [BitVec.ofNat_add, BitVec.ofNat_toNat, BitVec.ofNat_toNat]
      simp
    · rw [startUnit_syncSignal hs hg (addSyncBy_over hp hn)]
      rfl
    · refine exec_unit (cmd := .syncSignal b) hs rfl ?_
      rw [startUnit_syncSignal hs hg (addSyncBy_poisoned hp)]
      obtain ⟨hent, -, -, hparent, -⟩ := began_only (h := h) (cmd := .syncSignal b) hs.1.2.1.1
      exact foldContext_empty (finish_only (began_idle hs.1.2.2.1) hent hparent _) _

end Sys2Proof.Machine
end

/-! SUPPORT. COPY, the pools and the contexts: what the unit of a command that begins does (R92 to R94, R281, R317, R318). -/

section
namespace Sys2Proof.Machine

/-- Settles O14: what the pieces of the COPY end with decides what follows. -/
theorem copyMovesItsPieces : Obligations.copyMovesItsPieces := by
  intro s h b hs u slot ok r lost
  have hunit : startUnit u s.docket.nextId (begunEntry s h (.copy b)) = match r with
      | (.done, _, v) => finish v s.docket.nextId stSuccess
      | (.failed f, n, v) => failEngine (scrubCopy v h.fn.toNat b n slot) s.docket.nextId f
      | (.rule, n, v) => faultRequest (scrubCopy v h.fn.toNat b n slot) s.docket.nextId 0x07 0 := by
    unfold startUnit
    rw [begunEntry_cmd hs]
    dsimp only
    unfold startCopy
    rw [begunEntry_ctx hs] <;> rfl
  refine ⟨fun hr => exec_unit (cmd := .copy b) hs rfl ?_, fun f hr => exec_unit (cmd := .copy b) hs rfl ?_,
    fun hr => exec_unit (cmd := .copy b) hs rfl ?_⟩ <;>
  · refine hunit.trans ?_
    obtain ⟨e, n, v⟩ := r
    obtain rfl : e = _ := hr
    rfl

/-- Settles O15. -/
theorem poolsAndContexts : Obligations.poolsAndContexts := by
  refine ⟨⟨?_, ?_⟩, ?_, fun s h c hs => ⟨fun hc => ?_, fun hc => ?_⟩⟩
  · intro s h b k qs v hs u p hk hq ht hv
    refine exec_unit (cmd := .poolGrow b) hs rfl ?_
    unfold startUnit
    rw [begunEntry_cmd hs]
    dsimp only
    unfold startPoolGrow
    rw [begunEntry_ctx hs, hk]
    dsimp only
    rw [if_neg (not_or.2 ⟨Nat.not_lt.2 hq, ne_true_of_eq_false ht⟩), hv]
    simp only [Pool.setTarget]
    split <;> rfl
  · intro s h b k hs u p out hk hg ht hn
    refine exec_unit (cmd := .poolShrink b) hs rfl ?_
    unfold startUnit
    rw [begunEntry_cmd hs]
    dsimp only
    unfold startPoolShrink
    rw [begunEntry_ctx hs, hk]
    dsimp only
    rw [if_neg (not_or.2 ⟨ne_true_of_eq_false hg, ne_true_of_eq_false ht⟩), if_neg (Nat.not_lt.2 hn)]
  · intro s h b sb cb hs u key seed c x v h0 h4 hc hsb hcb
    refine exec_unit (cmd := .contextCreate b) hs rfl ?_
    unfold startUnit
    rw [begunEntry_cmd hs]
    dsimp only
    unfold startContextCreate
    rw [if_neg (not_or.2 ⟨h0, h4⟩), hc]
    dsimp only
    rw [hsb, hcb]
  · refine exec_unit (cmd := .contextDestroy c) hs rfl ?_
    unfold startUnit
    rw [begunEntry_cmd hs]
    dsimp only
    unfold startContextDestroy
    obtain ⟨k, hk⟩ := Option.isSome_iff_exists.1 hc
    rw [hk]
  · refine exec_unit (cmd := .contextDestroy c) hs rfl ?_
    unfold startUnit
    rw [begunEntry_cmd hs]
    dsimp only
    unfold startContextDestroy
    rw [hc]

end Sys2Proof.Machine
end

/-! SUPPORT. Streams and mappings: what the unit of a command that begins does (R183 to R190, R208, R226). -/

section
namespace Sys2Proof.Machine

/-- STREAM_OPEN with a free entry, an open package and enough quads. -/
theorem startStreamOpen_opens {s : State} {e : Nat} {x : Entry} {b : StreamOpenBody} {k : Ctx} {p : Package} {qs : List Nat}
    {pool : Pool} {n : Nat} (hk : ctxOf s x.ctx = some k) (hp : packageOf k b.pkg = some p) (hl : p.unloading = false)
    (hq : openCount s x.ctx < k.streamQuota) (hn : s.streams.length < 65536)
    (ht : k.pool1.takeWhole (regionZeroPages p.manifest (freeStream (drawNat s).2
      ((drawNat s).1 % (65536 - (drawNat s).2.streams.length)) 65536 0)).length true = some (qs, pool, n)) :
    startStreamOpen s e x b =
      let d := drawNat s
      let i := freeStream d.2 (d.1 % (65536 - d.2.streams.length)) 65536 0
      let w := setStream (qs.foldl (fun t q => quadWipe t true q)
        (setCtx d.2 x.ctx (backPages { k with pool1 := pool } true (regionZeroPages p.manifest i) qs))) i { Stream.reset with
          state := .active, ctx := x.ctx, handle := b.pkg, profile := BitVec.ofNat 2 b.profile.toNat
          layers := fieldAt p.manifest 40 1, heads := fieldAt p.manifest 41 1, kvTier := p.kvTier }
      finish (if takesDma w x.ctx then hostWrite w b.result.toNat (leBytes 8 i) else w) e stSuccess := by
  unfold startStreamOpen
  simp only [hk, hp, hl, Bool.false_eq_true, if_false, Nat.not_le.2 hq, Nat.not_le.2 hn, ht]

theorem startUnpark_elsewhere {s : State} {e : Nat} {x : Entry} {i : Nat} (ho : openIn s x.ctx i = true)
    (hf : (streamOf s i).state ≠ .faulted) (hl : (streamOf s i).state ≠ .fallow) : startUnpark s e x i = finish s e stSuccess := by
  unfold startUnpark
  simp [ho, hf, hl]

theorem startUnpark_fallow {s w : State} {e : Nat} {x : Entry} {i : Nat} (ho : openIn s x.ctx i = true)
    (hl : (streamOf s i).state = .fallow)
    (hw : swapIn s x.ctx i { cls := x.service, ctx := some x.ctx, entry := some e } true = (.done, w)) :
    startUnpark s e x i = finish w e stSuccess := by
  unfold startUnpark
  simp [ho, hl, hw]

/-- KV_MAP of MODE 1 from a source that is mapped. -/
theorem startKvMap_aliases {s v w : State} {e : Nat} {x : Entry} {b : KvMapBody} (hm : b.mode = 1) (hb : mapBad s x.ctx b = false)
    (hf : (streamOf s b.sstream.toNat).state ≠ .faulted) (hs : sourceBad s x.ctx b = (false, v))
    (hw : backTables v x.ctx b.stream.toNat (namedIndices (streamOf s b.stream.toNat) b.first.toNat b.npages.toNat) = some w) :
    startKvMap s e x b = publishMap ((List.range b.npages.toNat).foldl (fun y k =>
      aliasIndex y b.stream.toNat b.sstream.toNat (ringIndex (streamOf s b.stream.toNat) b.first.toNat k)
        (ringIndex (streamOf y b.sstream.toNat) b.sfirst.toNat k)) w) e x.ctx := by
  unfold startKvMap
  simp only [hb, Bool.false_eq_true, if_false, hm, hf, and_false, if_true, hs, hw]

/-- KV_MAP of MODE 0 whose pages are all good. -/
theorem startKvMap_imports {s v w : State} {e : Nat} {x : Entry} {b : KvMapBody} {a : Import} {keys : List Nat} (hm : b.mode = 0)
    (hb : mapBad s x.ctx b = false)
    (hv : backTables s x.ctx b.stream.toNat (namedIndices (streamOf s b.stream.toNat) b.first.toNat b.npages.toNat) = some v)
    (hg : importGo x.ctx b.stream.toNat (Source.engineOf e) { cls := x.service, ctx := some x.ctx, entry := some e }
      (streamKvSlot v x.ctx (streamOf v b.stream.toNat)) b
      ((List.range b.npages.toNat).flatMap fun k => (List.range (streamOf v b.stream.toNat).layers).map fun l => (k, l)) v 0
      { leaves := [], exps := [], slots := [] } = (.ok a, w, keys)) :
    startKvMap s e x b = publishMap (setStream w b.stream.toNat { streamOf w b.stream.toNat with
      leaves := a.leaves.foldl (fun m p => tblPut m p.1 p.2) (streamOf w b.stream.toNat).leaves
      exps := a.exps.foldl (fun m p => memWriteN m p.1 p.2) (streamOf w b.stream.toNat).exps
      slots := a.slots.foldl (fun m p => memWriteN m p.1 p.2) (streamOf w b.stream.toNat).slots }) e x.ctx := by
  have h1 : ¬b.mode = 1 := by
    rw [hm]
    decide
  unfold startKvMap importMap
  simp only [hb, Bool.false_eq_true, if_false, h1, false_and, hv, hg]

theorem startKvUnmap_unmaps {s : State} {e : Nat} {x : Entry} {b : KvUnmapBody} (ho : openIn s x.ctx b.stream.toNat = true)
    (hst : (streamOf s b.stream.toNat).state = .active ∨ (streamOf s b.stream.toNat).state = .growthWait)
    (hp : b.first.toNat < pplOf (streamOf s b.stream.toNat).layers) (hn : b.npages ≠ 0)
    (hl : b.npages.toNat ≤ pplOf (streamOf s b.stream.toNat).layers) :
    startKvUnmap s e x b =
      let t := streamOf s b.stream.toNat
      let js := (namedIndices t b.first.toNat b.npages.toNat).filter (mappedAny t)
      let r := unmapIndices t js
      let k := changeUnder s x.ctx b.stream.toNat (some e) (if js.contains t.tail then { r.1 with tailFree := 0 } else r.1) js r.2
      modEntry k.1 e fun y => { y with epoch := some k.2 } := by
  have hf : ¬(openIn s x.ctx b.stream.toNat = true ∧ (streamOf s b.stream.toNat).state = .faulted) := by
    rintro ⟨-, hc⟩
    rcases hst with h | h <;> rw [h] at hc <;> cases hc
  unfold startKvUnmap
  dsimp only
  rw [if_neg hf, if_neg]
  rintro (h | ⟨h1, h2⟩ | h | h | h)
  · simp [ho] at h
  · exact hst.elim h1 h2
  · exact absurd hp (Nat.not_lt.2 h)
  · exact hn h
  · exact absurd hl (Nat.not_le.2 h)

/-- Settles O16. -/
theorem streamsAndMappings : Obligations.streamsAndMappings := by
  refine ⟨⟨?_, fun s h i hs => ⟨fun ho hf hl => ?_, fun w ho hl hw => ?_⟩⟩, ?_, ?_, fun s h b hs => ?_⟩
  · intro s h b k p qs pool n hs c u d i pages v w hk hp hl hq hn ht
    refine exec_unit (cmd := .streamOpen b) hs rfl ?_
    have hc := begunEntry_ctx hs
    simp only [startUnit, begunEntry_cmd hs]
    rw [startStreamOpen_opens (by rw [hc]; exact hk) hp hl (by rw [hc]; exact hq) hn ht, hc]
  · refine exec_unit (cmd := .streamUnpark i) hs rfl ?_
    simp only [startUnit, begunEntry_cmd hs]
    exact startUnpark_elsewhere (by rw [begunEntry_ctx hs]; exact ho) hf hl
  · refine exec_unit (cmd := .streamUnpark i) hs rfl ?_
    simp only [startUnit, begunEntry_cmd hs]
    exact startUnpark_fallow (by rw [begunEntry_ctx hs]; exact ho) hl (by rw [begunEntry_ctx hs]; exact hw)
  · intro s h b v w hs c u i t hm hb hf hsrc hw
    have hc := begunEntry_ctx hs
    refine exec_unit (cmd := .kvMap b) hs rfl ?_
    simp only [startUnit, begunEntry_cmd hs]
    rw [startKvMap_aliases hm (by rw [hc]; exact hb) hf (by rw [hc]; exact hsrc) (by rw [hc]; exact hw), hc]
  · intro s h b v w a keys hs c u i t work e y hm hb hv hg z
    have hc := begunEntry_ctx hs
    refine exec_unit (cmd := .kvMap b) hs rfl ?_
    simp only [startUnit, begunEntry_cmd hs]
    rw [startKvMap_imports hm (by rw [hc]; exact hb) (by rw [hc]; exact hv) (by rw [hc]; exact hg), hc]
  · intro u i t js r k ho hst hp hn hl
    have hc := begunEntry_ctx hs
    refine exec_unit (cmd := .kvUnmap b) hs rfl ?_
    simp only [startUnit, begunEntry_cmd hs]
    rw [startKvUnmap_unmaps (by rw [hc]; exact ho) hst hp hn hl, hc]

end Sys2Proof.Machine
end

/-! SUPPORT. Tables and packages, the Library and firmware images: what the unit of a command that begins does, and the rows that
follow LIB_ERASE and FW_UPDATE (R298, R299, R395, R399, R410 to R417). -/

section
namespace Sys2Proof.Machine

/-! ### Tables and packages -/

theorem startTableLoad_holds {s v : State} {e : Nat} {x : Entry} {b : TableLoadBody} {img : List Byte}
    (hp : slotOfPackage s x.ctx b.slot.toNat = false) (ht : tableSource s x.ctx x.service (Source.engineOf e) b = (.ok img, v))
    (hi : (parseImage img).isSome = true) :
    startTableLoad s e x b = modEntry v e fun y => { y with image := img, due := false } := by
  have hn : (parseImage img).isNone = false := by rw [← Option.not_isSome, hi]; rfl
  unfold startTableLoad
  simp only [hp, Bool.false_eq_true, if_false, ht, hn]

/-- No STREAM_OPEN waits beside the only entry of the Docket. -/
theorem openWaits_only {s : State} {e : Nat} {x : Entry} (h : s.docket.entries = [(e, x)]) (p : BitVec 32) : openWaits s x p = false := by
  simp [openWaits, h]

/-- PACKAGE_UNLOAD of a package that no stream and no STREAM_OPEN names. -/
theorem startPackageUnload_unloads {s : State} {e : Nat} {x : Entry} {p : BitVec 32} {k : Ctx} {g : Package}
    (hk : ctxOf s x.ctx = some k) (hg : packageOf k p = some g) (hl : g.unloading = false)
    (hs : (s.streams.any fun t => decide (t.2.ctx = x.ctx) && decide (t.2.state ≠ .closed) && t.2.handle == p) = false)
    (ho : openWaits s x p = false) :
    startPackageUnload s e x p =
      let n := p.toNat % 64
      let mine := k.pages.filter fun q => q.1 / 2 ^ 24 == n
      let k1 := { k with pages := k.pages.filter fun q => q.1 / 2 ^ 24 != n
                         packages := tblPut k.packages n { g with unloading := true } }
      let gone := emptyTables s x.ctx k1 none
      let k2 := { k1 with tables := k1.tables.filter fun t => !gone.contains t }
      let of (tier : Nat) : List Nat := (mine.filter fun q => (pteOf q.2).tier == tier).map fun q => (pteOf q.2).target
      let r := closeEpoch (invalidateWindow (setCtx s x.ctx k2) x.ctx n) x.ctx (some e)
        { Epoch.none_ with quads0 := of 0, quads1 := of 1, frames := gone.map Prod.snd, handle := some p }
      modEntry r.1 e fun y => { y with epoch := some r.2 } := by
  unfold startPackageUnload
  simp only [hk, hg, hl, Bool.false_eq_true, if_false, hs, ho, or_self]

/-- The quads of a tier that the segments of a manifest take. -/
def quadsWanted (m : List Byte) (tier : Nat) : Nat := (((segmentsOf m).filter fun g => g.tier == tier).map Segment.pages).sum

/-- The steps of R395 up to the listed tables, all of which go well: what is taken, and then the segments or the wait for the tables'
install. -/
theorem startPackageLoad_loads {s v w : State} {e : Nat} {x : Entry} {b : PackageLoadBody} {k k2 : Ctx} {n : Nat}
    {unit m pk cap ck : List Byte} {q0 q1 : List Nat} {p0 p1 : Pool} {n0 n1 : Nat} {images : List (Nat × List Byte)}
    (hchk : startLoadChecks s b = none) (hk : ctxOf s x.ctx = some k) (hw : freeWindow s x.ctx k = some n)
    (hu : unitRead s b.lunit.toNat 0 65536 = (.good, v)) (hunit : unitBytes v b.lunit.toNat 0 65536 = unit)
    (hm : unit.take (fieldAt unit 56 4) = m) (hok : manifestOk unit = true)
    (hcb : b.cbase.toNat + fieldAt unit 48 2 ≤ k.syncCount) (hsb : b.slotbase.toNat + fieldAt unit 13 1 ≤ k.slotCount)
    (hr : rangesTaken s x.ctx k b.cbase.toNat b.slotbase.toNat m = false) (hpk : publisherKey v (fieldAt unit 36 4) = some pk)
    (hv : verifies pk "EZB9600 CAROP" m ((unit.drop 32768).take 29792) = true) (hcap : hostRead v b.cap.toNat 1760 = .data cap)
    (hck : unwrap v m cap = some ck) (hq0 : k.pool0.takeWhole (quadsWanted m 0) false = some (q0, p0, n0))
    (hq1 : k.pool1.takeWhole (quadsWanted m 1) false = some (q1, p1, n1))
    (htab : takeTables { k with pool0 := p0, pool1 := p1, contentKeys := tblPut k.contentKeys n ck }
      (tableKeys ((segmentsOf m).flatMap (segmentPages n))) = some k2)
    (hload : loadTables (setEntry (setCtx v x.ctx k2) e { x with image := m, quads := q0, quads1 := q1, window := n, due := false })
      ck b.lunit.toNat m = (.ok images, w)) :
    (images = [] → startPackageLoad s e x b =
      loadSegments w e { x with image := m, quads := q0, quads1 := q1, window := n, due := false } b) ∧
    (images ≠ [] → startPackageLoad s e x b =
      modEntry w e fun z => { z with images := images.foldl (fun t p => tblPut t p.1 p.2) [] }) := by
  have hfields : ¬((!manifestOk unit) = true ∨ k.syncCount < b.cbase.toNat + fieldAt unit 48 2 ∨
      k.slotCount < b.slotbase.toNat + fieldAt unit 13 1 ∨ rangesTaken s x.ctx k b.cbase.toNat b.slotbase.toNat m = true) := by
    simp [hok, hr, hcb, hsb]
  unfold quadsWanted at hq0 hq1
  unfold startPackageLoad
  simp only [hchk, hk, hw, hu, hunit, hm, if_neg hfields, hpk, hv, Bool.not_true, Bool.false_eq_true, if_false, hcap, hck, hq0, hq1,
    htab, hload]
  cases images with
  | nil => exact ⟨fun _ => rfl, fun h => absurd rfl h⟩
  | cons p l => exact ⟨fun h => (List.cons_ne_nil _ _ h).elim, fun _ => rfl⟩

/-- Settles O17. -/
theorem tablesAndPackages : Obligations.tablesAndPackages := by
  refine ⟨?_, ?_, ?_⟩
  · intro s h b img v hs c u e hp ht hi
    refine exec_unit (cmd := .tableLoad b) hs rfl ?_
    simp only [startUnit, begunEntry_cmd hs]
    exact startTableLoad_holds (by rw [begunEntry_ctx hs]; exact hp) (by rw [begunEntry_ctx hs]; exact ht) hi
  · intro s h p k g hs c u n mine k1 gone k2 of r hk hg hl hst
    have hc := begunEntry_ctx hs
    refine exec_unit (cmd := .packageUnload p) hs rfl ?_
    simp only [startUnit, begunEntry_cmd hs]
    rw [startPackageUnload_unloads (by rw [hc]; exact hk) hg hl (by rw [hc]; exact hst) (openWaits_only (began_only hs.1.2.1.1).1 p), hc]
  · intro s h b k k2 n v w pk cap ck q0 q1 p0 p1 n0 n1 images hs c u e x unit m segs want y hchk hk hw hu hm hcb hsb hr hpk hv hcap hck
      hq0 hq1 htab hload
    have hc := begunEntry_ctx hs
    obtain ⟨hnone, hsome⟩ := startPackageLoad_loads (x := x) (b := b) hchk (by rw [hc]; exact hk) (by rw [hc]; exact hw) hu rfl rfl hm
      hcb hsb (by rw [hc]; exact hr) hpk hv hcap hck hq0 hq1 htab (by rw [hc]; exact hload)
    refine ⟨fun hi => exec_unit (cmd := .packageLoad b) hs rfl ?_, fun hi => exec_unit (cmd := .packageLoad b) hs rfl ?_⟩
    · simp only [startUnit, begunEntry_cmd hs]
      exact hnone hi
    · simp only [startUnit, begunEntry_cmd hs]
      exact hsome hi

end Sys2Proof.Machine
end

/-! SUPPORT. The Library, reports and firmware images (R401 to R417). -/

section
namespace Sys2Proof.Machine

/-! ### LIB_WRITE and LIB_ERASE -/

theorem startLibWrite_writes {s : State} {e : Nat} {x : Entry} {b : LibWriteBody} (hu : s.flash.upb ≠ 0)
    (hg : blockOf s b.lunit.toNat < s.flash.nlb.toNat)
    (hst : (libBlockOf s (blockOf s b.lunit.toNat)).state = .erased ∨ (libBlockOf s (blockOf s b.lunit.toNat)).state = .opened)
    (hl : b.lunit.toNat = blockOf s b.lunit.toNat * 8 * s.flash.upb.toNat + (libBlockOf s (blockOf s b.lunit.toNat)).wp)
    (hn : (libBlockOf s (blockOf s b.lunit.toNat)).wp + b.nunits.toNat ≤
      (libBlockOf s (blockOf s b.lunit.toNat)).channels.length * s.flash.upb.toNat)
    (hf : unitsUsed s b.lunit.toNat b.nunits.toNat = false) :
    startLibWrite s e x b =
      let r := writeUnits (blockOf s b.lunit.toNat) b.src.toNat b.nunits.toNat 0 s
      endLibWrite r.2.2 e r.1 r.2.1 := by
  generalize hk : libBlockOf s (blockOf s b.lunit.toNat) = k at hst hl hn
  have hplace : ¬(s.flash.upb.toNat = 0 ∨ s.flash.nlb.toNat ≤ blockOf s b.lunit.toNat) := by
    rintro (h | h)
    · exact hu (BitVec.eq_of_toNat_eq h)
    · omega
  have hgood : ¬k.state = .bad := by
    intro h
    rcases hst with hc | hc <;> rw [hc] at h <;> cases h
  have hfit : ¬(b.lunit.toNat ≠ blockOf s b.lunit.toNat * 8 * s.flash.upb.toNat + k.wp ∨
      k.channels.length * s.flash.upb.toNat < k.wp + b.nunits.toNat ∨ (k.state ≠ .erased ∧ k.state ≠ .opened)) := by
    rintro (h | h | ⟨h1, h2⟩)
    · exact h hl
    · omega
    · exact hst.elim h1 h2
  unfold startLibWrite
  dsimp only
  rw [if_neg hplace, hk, if_neg hgood, if_neg hfit, hf]
  rfl

/-- The entry of a command that has begun has made no progress. -/
theorem begunEntry_fresh {s : State} {h : ReqHeader} {cmd : Command} (hd : s.docket.entries = []) :
    (begunEntry s h cmd).progress = 0 ∧ (begunEntry s h cmd).spoiled = 0 := by
  have ha : (admitted s h cmd []).docket.entries = _ :=
    refreshReady_only (queueEntry_only (newEntry s h cmd []) [] (fetched_entries h cmd hd))
  generalize hy : markReady (queueEntry (fetched s h cmd) s.docket.nextId (newEntry s h cmd []) []) s.docket.nextId
    (queuedAs (fetched s h cmd) (newEntry s h cmd []) []) = y at ha
  have hyfresh : y.progress = 0 ∧ y.spoiled = 0 := by
    rw [← hy]
    rcases markReady_cases (queueEntry (fetched s h cmd) s.docket.nextId (newEntry s h cmd []) []) s.docket.nextId
      (queuedAs (fetched s h cmd) (newEntry s h cmd []) []) with hk | hk | ⟨-, hk⟩ <;> rw [hk] <;> exact ⟨rfl, rfl⟩
  have hb : (began s h cmd).docket.entries = [(s.docket.nextId,
      { y with state := .running, dispatched := true, started := (admitted s h cmd []).docket.starts })] := by
    unfold began
    dsimp only
    rw [entryOf_only ha]
    exact noteStart_only (setEntry_only _ ha)
  unfold begunEntry
  rw [entryOf_only hb]
  exact hyfresh

/-- The erase of the first of a request's blocks begins. -/
theorem nextErase_first {s v : State} {e fuel : Nat} {x : Entry} {b : LibEraseBody} (hx : entryOf s e = some x)
    (hc : x.cmd = .libErase b) (hp : x.progress = 0 ∧ x.spoiled = 0) (hn : b.nblk ≠ 0)
    (hm : replaceMarked (setLibBlock s b.first.toNat { libBlockOf s b.first.toNat with state := .erasePending }) b.first.toNat = some v) :
    nextErase e (fuel + 1) s =
      { v with flash := { v.flash with erases := v.flash.erases ++ [{ block := b.first.toNat, entry := some e }] } } := by
  have hpos : ¬b.nblk.toNat ≤ 0 := fun h => hn (BitVec.eq_of_toNat_eq (Nat.le_zero.1 h))
  unfold nextErase
  simp only [hx, hc, hp, Nat.add_zero, if_neg hpos, hm]

theorem startLibErase_erases {s v : State} {e : Nat} {x : Entry} {b : LibEraseBody} (hx : entryOf s e = some x)
    (hc : x.cmd = .libErase b) (hp : x.progress = 0 ∧ x.spoiled = 0)
    (hf : ∀ k, k < b.nblk.toNat → blockUsed s (b.first.toNat + k) = false ∧ (libBlockOf s (b.first.toNat + k)).state ≠ .bad)
    (hn : b.nblk ≠ 0) (hl : liveChannels s ≠ [])
    (hm : replaceMarked (setLibBlock s b.first.toNat { libBlockOf s b.first.toNat with state := .erasePending }) b.first.toNat = some v) :
    startLibErase s e x b =
      { v with flash := { v.flash with erases := v.flash.erases ++ [{ block := b.first.toNat, entry := some e }] } } := by
  have hfree : (((List.range b.nblk.toNat).map fun k => b.first.toNat + k).any
      fun g => blockUsed s g || decide ((libBlockOf s g).state = .bad)) = false := by
    simp only [List.any_map, List.any_eq_false, List.mem_range, Function.comp_apply, Bool.or_eq_true, decide_eq_true_eq, not_or]
    intro k hk
    obtain ⟨h1, h2⟩ := hf k hk
    exact ⟨by simp [h1], h2⟩
  unfold startLibErase
  dsimp only
  rw [if_neg (by simp only [hfree, Bool.false_eq_true, false_or]; exact hl)]
  exact nextErase_first hx hc hp hn hm

/-! ### FW_UPDATE -/

/-- The idle slot takes a genuine image that is not older. -/
theorem startFwUpdate_genuine {s : State} {e : Nat} {x : Entry} {b : FwUpdateBody} {img : List Byte} (hlcs : s.fuses.lcs ≠ 4)
    (hm : slotMaskLive s (idleSlot s) ≠ 0) (hr : hostRead s b.src.toNat b.len.toNat = .data img)
    (hh : headerOk img b.len.toNat = true) (hg : imageGenuine s img = true) (hsvn : ¬imageSvn img < activeSvn s) :
    startFwUpdate s e x b = writeSlot (loadRegion s (!s.fw.region) img) e b (idleSlot s) img := by
  unfold startFwUpdate
  simp only [hlcs, hm, or_self, if_false, hr, hh, hg, Bool.not_true, Bool.false_eq_true, hsvn]

/-! ### The rows that follow -/

/-- A row of a running engine, and what follows from it. -/
theorem docketRow_running {s : State} (hr : running s = true) (k : State → State) : docketRow s k = .next (settle (k s)) :=
  congrArg Host.Outcome.next (if_pos hr)

theorem exec_nandEraseDone {s : State} (hr : running s = true) (g : Nat) :
    exec (.nandEraseDone g) s = .next (settle (nandEraseDone s g)) :=
  docketRow_running hr fun u => nandEraseDone u g

/-- The erase of a block is no longer under way. -/
def eraseEnded (s : State) (g : Nat) : State :=
  { s with flash := { s.flash with erases := s.flash.erases.filter fun q => q.block != g } }

theorem nandEraseDone_erased {s v : State} {g : Nat}
    (hf : (s.flash.erases.find? fun r => r.block == g) = some { block := g, entry := none }) (hv : eraseNand (eraseEnded s g) g = some v) :
    nandEraseDone s g = setLibBlock v g { libBlockOf v g with state := .erased, chmask := liveMask s, wp := 0 } := by
  unfold eraseEnded at hv
  unfold nandEraseDone
  simp only [hf, hv]

theorem nandEraseDone_bad {s : State} {g : Nat}
    (hf : (s.flash.erases.find? fun r => r.block == g) = some { block := g, entry := none }) (hv : eraseNand (eraseEnded s g) g = none) :
    nandEraseDone s g = setLibBlock (eraseEnded s g) g { libBlockOf s g with state := .bad } := by
  unfold eraseEnded at hv
  unfold nandEraseDone
  simp only [hf, hv]
  rfl

theorem eraseNand_good {s : State} {g : Nat} (hf : erasesFailed s g = []) (hl : liveChannels s ≠ []) :
    eraseNand s g = some { s with
      libMem := s.libMem.filter fun p => !((liveChannels s).any fun c => p.1 / 2 ^ 16 == c * 2 ^ 24 + nandBlock s g c) } := by
  have hr : replaceOn s g (erasesFailed s g) = some s := by
    rw [hf]
    rfl
  unfold eraseNand
  rw [hr]
  dsimp only
  rw [if_neg]
  simp [hf, hl]

theorem eraseNand_spoiled {s : State} {g : Nat} (hf : replaceOn s g (erasesFailed s g) = none) : eraseNand s g = none := by
  unfold eraseNand
  rw [hf]

/-- Settles O18. -/
theorem libraryAndFirmware : Obligations.libraryAndFirmware := by
  refine ⟨⟨?_, ?_⟩, ⟨?_, ?_⟩, ⟨?_, ?_, ?_, ?_⟩, ?_⟩
  · intro s h b hs u g k r hu hg hst hl hn hf
    have hrun : startUnit u s.docket.nextId (begunEntry s h (.libWrite b)) = endLibWrite r.2.2 s.docket.nextId r.1 r.2.1 := by
      simp only [startUnit, begunEntry_cmd hs]
      exact startLibWrite_writes hu hg hst hl hn hf
    refine ⟨fun hr => exec_unit (cmd := .libWrite b) hs rfl (hrun.trans ?_),
      fun hr => exec_unit (cmd := .libWrite b) hs rfl (hrun.trans ?_)⟩
    · exact if_neg hr
    · exact if_pos hr
  · intro s h b v hs u g hf hn hl hm
    refine exec_unit (cmd := .libErase b) hs rfl ?_
    simp only [startUnit, begunEntry_cmd hs]
    exact startLibErase_erases (entryOf_only (began_only hs.1.2.1.1).1) (begunEntry_cmd hs) (begunEntry_fresh hs.1.2.1.1) hf hn hl hm
  · intro s h b hs u r out
    refine exec_unit (cmd := .attest b) hs rfl ?_
    simp only [startUnit, begunEntry_cmd hs]
    unfold startAttest
    rw [begunEntry_ctx hs]
  · intro s h b img hs u t v w z hlcs hm hr hh hg hsvn hbad
    have hrun : startUnit u s.docket.nextId (begunEntry s h (.fwUpdate b)) =
        writeSlot (loadRegion u (!u.fw.region) img) s.docket.nextId b t img := by
      simp only [startUnit, begunEntry_cmd hs]
      exact startFwUpdate_genuine hlcs hm hr hh hg hsvn
    have hwrite : ¬(loadRegion u (!u.fw.region) img).env.slotBad.contains t = true := ne_true_of_eq_false hbad
    refine ⟨fun hmode => ?_, fun hmode => ?_, fun hmode hmeet => ?_⟩ <;>
    · refine exec_unit (cmd := .fwUpdate b) hs rfl (hrun.trans ?_)
      unfold writeSlot
      dsimp only
      rw [if_neg hwrite, hmode]
      first
      | rfl
      | exact if_pos hmeet
  · intro s g hrun hf u live hl he
    rw [exec_nandEraseDone hrun, nandEraseDone_erased hf (eraseNand_good (s := u) he hl)]
    rfl
  · intro s g hrun hf u hr
    rw [exec_nandEraseDone hrun, nandEraseDone_bad hf (eraseNand_spoiled (s := u) hr)]
    rfl
  · intro s c g he
    exact congrArg Host.Outcome.next (if_pos he)
  · intro s c g he
    exact congrArg Host.Outcome.next (if_neg (ne_true_of_eq_false he))
  · intro s h hr hh
    refine (docketRow_running hr rollback).trans ?_
    unfold rollback
    rw [hh]

end Sys2Proof.Machine
end

/-! SUPPORT. Rings (R341 to R349): consumed-index doorbells, RING_CTRL, fetching and interrupt moderation. -/

section
namespace Sys2Proof.Machine

/-! ### Consumed-index doorbells -/

/-- The row of a consumed-index doorbell is the doorbell write itself. -/
theorem exec_doorbellConsumed (f r : BitVec 8) (d : DoorbellWrite) (s : State) :
    exec (.doorbellConsumed f r d) s = .next (doorbell s f.toNat r.toNat d.size d.value) := rfl

/-- A 32-bit write of a 16-bit value to an enabled ring of another kind than a submission ring is decided by R346. -/
theorem doorbell_enabledConsumed {s : State} {f r : Nat} {v : BitVec 32} (hready : ready s = true) (hopen : barOpen s f = true)
    (hen : (ringOf s f r).en = true) (hkind : (ringOf s f r).kind ≠ 0) (hv : v.toNat < 2 ^ 16) :
    let q := ringOf s f r
    let w : BitVec 16 := v.setWidth 16
    doorbell s f r .b32 v =
      if w - q.host ≤ q.own - q.host then
        if q.kind = 3 then flushLost (setRing s f r { q with host := w }) f else setRing s f r { q with host := w }
      else ignored s f := by
  have hserved : ¬((!ready s || !barOpen s f) = true) := by simp [hready, hopen]
  have hvalid : ¬(2 ^ 16 ≤ v.toNat ∨ (!(ringOf s f r).en) = true) := by simpa [hen] using hv
  unfold doorbell
  dsimp only
  rw [if_neg hserved, if_neg (by decide), if_neg hvalid, if_neg hkind, BitVec.ofNat_toNat]

/-- A doorbell of another size than 32 bits, to a disabled ring or with a bit of 31:16 set is ignored (R344). -/
theorem doorbell_bad {s : State} {f r : Nat} {size : AccessSize} {v : BitVec 32} (hready : ready s = true) (hopen : barOpen s f = true)
    (hbad : size ≠ .b32 ∨ (ringOf s f r).en = false ∨ 2 ^ 16 ≤ v.toNat) : doorbell s f r size v = ignored s f := by
  have hserved : ¬((!ready s || !barOpen s f) = true) := by simp [hready, hopen]
  unfold doorbell
  rw [if_neg hserved]
  by_cases hsize : size = .b32
  · have hinvalid : 2 ^ 16 ≤ v.toNat ∨ (!(ringOf s f r).en) = true := by
      rcases hbad with h | h | h
      · exact absurd hsize h
      · exact .inr (by simp [h])
      · exact .inl h
    rw [if_neg (not_not.2 hsize)]
    exact if_pos hinvalid
  · exact if_pos hsize

/-- Settles O20. -/
theorem consumedDoorbell : Obligations.consumedDoorbell := by
  unfold Obligations.consumedDoorbell
  constructor
  · intro s f r v hready hopen q w d hen hkind hv
    have hrow := (exec_doorbellConsumed f r d s).trans
      (congrArg Host.Outcome.next (doorbell_enabledConsumed hready hopen hen hkind hv))
    refine ⟨fun hin h3 => ?_, fun hin h3 => ?_, fun hout => ?_⟩
    · rw [hrow, if_pos hin, if_neg h3]
    · rw [hrow, if_pos hin, if_pos h3]
    · rw [hrow, if_neg hout]
  · intro s f r d hready hopen hbad
    rw [exec_doorbellSubmission, exec_doorbellConsumed, doorbell_bad hready hopen hbad]
    exact ⟨rfl, rfl⟩

/-! ### RING_CTRL -/

/-- A register write that the stewards serve takes effect. -/
theorem emuWrite_serves {s : State} {f : Nat} (h : servesWrite s f) (k : State → State) : emuWrite s f k = k s := by
  obtain ⟨hready, hopen, hserve⟩ := h
  simp [emuWrite, hready, hopen, hserve]

theorem flushLost_none {s : State} {f : Nat} (h : (fnOf s f).evLost = 0) : flushLost s f = s := by
  unfold flushLost
  dsimp only
  split
  · rfl
  · simp [h]

theorem commitRing_good {s : State} {f i : Nat} (h : commitError s f i = 0) :
    commitRing s f i = flushLost (setRing s f i { ringOf s f i with
      own := 0, host := 0, phase := true, unsent := 0, firstUnsent := 0, en := true, busy := false, err := 0 }) f :=
  if_neg (not_not.2 h)

theorem commitRing_bad {s : State} {f i : Nat} (h : commitError s f i ≠ 0) :
    commitRing s f i = setRing s f i { ringOf s f i with err := commitError s f i } := if_pos h

theorem disableRing_atOnce {s : State} {f i : Nat} (hen : (ringOf s f i).en = true)
    (hkind : (ringOf s f i).kind = 0 ∨ (ringOf s f i).kind = 3) :
    disableRing s f i = setRing s f i { ringOf s f i with en := false, err := 0 } := by
  unfold disableRing
  dsimp only
  rw [if_neg (by simp [hen]), if_pos hkind]

theorem disableRing_named {s : State} {f i : Nat} (hen : (ringOf s f i).en = true) (hkind : (ringOf s f i).kind = 1)
    (hnamed : namedAsCq s f i = true) : disableRing s f i = setRing s f i { ringOf s f i with err := 7 } := by
  unfold disableRing
  dsimp only
  rw [if_neg (by simp [hen]), if_neg (by simp [hkind]), if_pos ⟨hkind, hnamed⟩]

theorem endDisable_written {s : State} {f i : Nat} (h : stillWritten s f i = true) : endDisable s f i = s := by simp [endDisable, h]

theorem endDisable_free {s : State} {f i : Nat} (hb : (ringOf s f i).busy = true) (h : stillWritten s f i = false) :
    endDisable s f i = setRing s f i { ringOf s f i with en := false, busy := false } := by simp [endDisable, hb, h]

theorem disableRing_queue {s : State} {f i : Nat} (hen : (ringOf s f i).en = true) (hkind : (ringOf s f i).kind = 2) :
    disableRing s f i = endDisable (setRing s f i { ringOf s f i with busy := true, err := 0 }) f i := by
  unfold disableRing
  dsimp only
  rw [if_neg (by simp [hen]), if_neg (by simp [hkind]), if_neg (by simp [hkind])]

/-! ### Fetching -/

theorem fnOf_takeTurn (s : State) (f q : Nat) : fnOf (takeTurn s f q) f = { fnOf s f with turn := BitVec.ofNat 8 q } := fnOf_setFn ..

/-- Passing the turn keeps the function's registers and rings. -/
@[simp] theorem ringOf_takeTurn (s : State) (f q i : Nat) : ringOf (takeTurn s f q) f i = ringOf s f i := by
  rw [ringOf, fnOf_takeTurn, ringOf]

theorem mayFetch_takeTurn (s : State) (f q : Nat) : mayFetch (takeTurn s f q) f q = mayFetch s f q := by
  have hd : takesDma (takeTurn s f q) f = takesDma s f := by rw [takesDma, fnOf_takeTurn, takesDma]
  have howed (c : Nat) : owedTo (takeTurn s f q) f c = owedTo s f c := by
    unfold owedTo
    simp only [ringOf_takeTurn]
    rfl
  unfold mayFetch
  simp only [ringOf_takeTurn, hd, howed]
  rfl

/-- A ring whose entries are all fetched fetches nothing. -/
theorem fetchGo_done {s : State} {f q : Nat} (n : Nat) (h : (ringOf s f q).own = (ringOf s f q).host) : fetchGo f q n s = s := by
  cases n with
  | zero => rfl
  | succ n => simp [fetchGo, h]

/-- A ring with one entry to fetch fetches it and stops. -/
theorem ringFetch_one {s : State} {f q : Nat} (hm : mayFetch s f q = true) (ht : fetchTurn s = some (f, q))
    (hone : (ringOf s f q).host = (ringOf s f q).own + 1)
    (hkeep : ringOf (fetchEntry (takeTurn s f q) f q) f q = { ringOf s f q with own := (ringOf s f q).own + 1 }) :
    ringFetch s f q = settle (hostWrite (fetchEntry (takeTurn s f q) f q) (ringOf s f q).idx.toNat
      (leBytes 8 ((ringOf s f q).own + 1).toNat)) := by
  have hmore : (mayFetch (takeTurn s f q) f q && (ringOf (takeTurn s f q) f q).own != (ringOf (takeTurn s f q) f q).host) = true := by
    simp [mayFetch_takeTurn, hm, hone]
  have hgo : fetchGo f q 8 (takeTurn s f q) = fetchEntry (takeTurn s f q) f q := by
    unfold fetchGo
    rw [if_pos hmore]
    exact fetchGo_done 7 (by rw [hkeep]; exact hone.symm)
  unfold ringFetch
  dsimp only
  rw [if_neg (not_not.2 ht), hgo, hkeep]

theorem fetchEntry_data {s : State} {f q : Nat} {bs : List Byte}
    (h : hostRead s (slotAddress (ringOf s f q) (ringOf s f q).own) 64 = .data bs) :
    fetchEntry s f q =
      let s1 := setRing s f q { ringOf s f q with own := (ringOf s f q).own + 1 }
      let raw := parseEntry f q bs
      (addEntry s1 (newEntry s1 raw.hdr (raw.cmd.getD .nop) bs)).2 := by
  unfold fetchEntry
  simp only [h]

theorem fetchEntry_lost {s : State} {f q : Nat} {st : BitVec 8}
    (h : (hostRead s (slotAddress (ringOf s f q) (ringOf s f q).own) 64 = .error ∧ st = stLowerError) ∨
      (hostRead s (slotAddress (ringOf s f q) (ringOf s f q).own) 64 = .late ∧ st = stLowerLate)) :
    fetchEntry s f q =
      writeCompletion (setRing s f q { ringOf s f q with own := (ringOf s f q).own + 1 }) f q 0 0 st (ringOf s f q).own.toNat false := by
  unfold fetchEntry
  rcases h with ⟨h, rfl⟩ | ⟨h, rfl⟩
  · simp only [h]
  · simp only [h]

theorem ringOf_setRing_ne {s : State} {f r i : Nat} (v : Ring) (h : i ≠ r) : ringOf (setRing s f r v) f i = ringOf s f i := by
  simp [ringOf, setRing, tblGetD_tblPut_other _ h]

theorem ringOf_hostWrite (s : State) (a : Nat) (bs : List Byte) (f i : Nat) : ringOf (hostWrite s a bs) f i = ringOf s f i := by
  unfold hostWrite
  split <;> rfl

theorem ringOf_sendMsix (s : State) (f v i : Nat) : ringOf (sendMsix s f v) f i = ringOf s f i := by
  unfold sendMsix
  dsimp only
  split
  · rfl
  · split
    · simp [ringOf]
    · exact ringOf_hostWrite ..

theorem ringOf_ringNotify {s : State} {f r i : Nat} (imm : Bool) (h : i ≠ r) : ringOf (ringNotify s f r imm) f i = ringOf s f i := by
  unfold ringNotify
  dsimp only
  split
  · rw [ringOf_sendMsix, ringOf_setRing_ne _ h]
  · exact ringOf_setRing_ne _ h

/-- A completion changes no other ring of its function than the completion ring. -/
theorem ringOf_writeCompletion {s : State} {f q : Nat} (cid op : Nat) (st : BitVec 8) (result : Nat) (imm : Bool)
    (h : q ≠ (ringOf s f q).cq.toNat) : ringOf (writeCompletion s f q cid op st result imm) f q = ringOf s f q := by
  unfold writeCompletion ringWrite
  dsimp only
  split
  · rw [ringOf_ringNotify _ h, ringOf_setRing_ne _ h, ringOf_hostWrite]
  · rfl

theorem ringFetch_data {s : State} {f q : Nat} {bs : List Byte} (hm : mayFetch s f q = true) (ht : fetchTurn s = some (f, q))
    (hone : (ringOf s f q).host = (ringOf s f q).own + 1)
    (hread : hostRead s (slotAddress (ringOf s f q) (ringOf s f q).own) 64 = .data bs) :
    ringFetch s f q =
      let s1 := setRing (takeTurn s f q) f q { ringOf s f q with own := (ringOf s f q).own + 1 }
      let raw := parseEntry f q bs
      settle (hostWrite (addEntry s1 (newEntry s1 raw.hdr (raw.cmd.getD .nop) bs)).2 (ringOf s f q).idx.toNat
        (leBytes 8 ((ringOf s f q).own + 1).toNat)) := by
  have hentry := fetchEntry_data (s := takeTurn s f q) (f := f) (q := q) (bs := bs) (by rw [ringOf_takeTurn]; exact hread)
  rw [ringOf_takeTurn] at hentry
  rw [ringFetch_one hm ht hone (by rw [hentry]; exact ringOf_setRing ..), hentry]

theorem ringFetch_lost {s : State} {f q : Nat} {st : BitVec 8} (hm : mayFetch s f q = true) (ht : fetchTurn s = some (f, q))
    (hone : (ringOf s f q).host = (ringOf s f q).own + 1)
    (hread : (hostRead s (slotAddress (ringOf s f q) (ringOf s f q).own) 64 = .error ∧ st = stLowerError) ∨
      (hostRead s (slotAddress (ringOf s f q) (ringOf s f q).own) 64 = .late ∧ st = stLowerLate))
    (hcq : (ringOf s f q).cq.toNat ≠ q) :
    ringFetch s f q =
      let s1 := setRing (takeTurn s f q) f q { ringOf s f q with own := (ringOf s f q).own + 1 }
      settle (hostWrite (writeCompletion s1 f q 0 0 st (ringOf s f q).own.toNat false) (ringOf s f q).idx.toNat
        (leBytes 8 ((ringOf s f q).own + 1).toNat)) := by
  have hentry := fetchEntry_lost (s := takeTurn s f q) (f := f) (q := q) (st := st) (by rw [ringOf_takeTurn]; exact hread)
  rw [ringOf_takeTurn] at hentry
  have hkeep := ringOf_writeCompletion (s := setRing (takeTurn s f q) f q { ringOf s f q with own := (ringOf s f q).own + 1 })
    (f := f) (q := q) 0 0 st (ringOf s f q).own.toNat false (by rw [ringOf_setRing]; exact hcq.symm)
  rw [ringFetch_one hm ht hone (by rw [hentry, hkeep]; exact ringOf_setRing ..), hentry]

/-- Settles O21. -/
theorem ringsCommitFetchAndSend : Obligations.ringsCommitFetchAndSend := by
  unfold Obligations.ringsCommitFetchAndSend
  refine ⟨?_, ?_, fun s f q hturn => congrArg Host.Outcome.next (if_pos hturn), ?_⟩
  · intro s f hserve i r on
    have hrow (v : BitVec 32) : exec (.ringCommit f v) s = .next (ringCtrl s f.toNat v) :=
      congrArg Host.Outcome.next (emuWrite_serves hserve fun u => ringCtrl u f.toNat v)
    have hdis : exec (.ringDisable f 2) s = .next (disableRing s f.toNat i) :=
      congrArg Host.Outcome.next (emuWrite_serves hserve fun u => ringCtrl u f.toNat 2)
    have hcommit : exec (.ringCommit f 1) s = .next (commitRing s f.toNat i) := hrow 1
    refine ⟨fun hgood => ⟨?_, fun hlost => flushLost_none ?_⟩, fun hbad => ?_, hrow 3, fun hen hkind => ?_, fun hen hkind hnamed => ?_,
      fun hen hkind hwrites => ?_, fun j hbusy hfree => congrArg Host.Outcome.next (endDisable_free hbusy hfree)⟩
    · rw [hcommit, commitRing_good hgood]
    · exact (congrArg Fn.evLost (fnOf_setFn ..)).trans hlost
    · rw [hcommit, commitRing_bad hbad]
    · rw [hdis, disableRing_atOnce hen hkind]
    · rw [hdis, disableRing_named hen hkind hnamed]
    · rw [hdis, disableRing_queue hen hkind, endDisable_written hwrites]
  · intro s f q hm ht r a u s1 hone
    exact ⟨fun bs hread => congrArg Host.Outcome.next (ringFetch_data hm ht hone hread), fun st hread hcq =>
      congrArg Host.Outcome.next (ringFetch_lost hm ht hone hread fun h => hcq (BitVec.eq_of_toNat_eq h))⟩
  · intro s f i r hdma hen hien htime hunsent hdue
    exact congrArg Host.Outcome.next (if_pos ⟨hdma, hen, hien, htime, hunsent, hdue⟩)

end Sys2Proof.Machine
end

/-! SUPPORT. What ends an operation or a request (R234 to R247, R276, R277): dispatch, limits and retirement. -/

section
namespace Sys2Proof.Machine

/-! ### DISPATCH -/

theorem dispatch_starts {s : State} {e : Nat} {tiles : List Nat} {x : Entry} {o : TileOp} {permitted : Bool} (hr : running s = true)
    (hx : entryOf s e = some x) (hg : (gangSize s x).isSome = true) (ht : tiles ≠ []) (hn : nextStart s = some (o, permitted))
    (ho : o.e = e) (hok : tilesOk s o permitted tiles = true) : dispatch s e tiles = startTileOp s o tiles := by
  obtain ⟨n, hn'⟩ := Option.isSome_iff_exists.1 hg
  simp [dispatch, hr, hx, hn', ht, hn, ho, hok]

theorem dispatch_claims {s : State} {e : Nat} {x : Entry} {o : TileOp} (hr : running s = true) (hx : entryOf s e = some x)
    (hg : (gangSize s x).isSome = true) (hn : nextClaim s = some o) (ho : o.e = e) :
    dispatch s e [] = { s with sched := { s.sched with claims := s.sched.claims ++ [e] } } := by
  obtain ⟨n, hn'⟩ := Option.isSome_iff_exists.1 hg
  simp [dispatch, hr, hx, hn', hn, ho]

/-- Settles O22. -/
theorem dispatchStartsTheNext : Obligations.dispatchStartsTheNext := by
  unfold Obligations.dispatchStartsTheNext
  constructor
  · intro s e tiles x o permitted hr hx hg ht hn ho hok
    exact (docketRow_running hr fun u => dispatch u e tiles).trans (by rw [dispatch_starts hr hx hg ht hn ho hok])
  · intro s e x o hr hx hg hn ho
    exact (docketRow_running hr fun u => dispatch u e []).trans (by rw [dispatch_claims hr hx hg hn ho])

/-! ### Limits -/

theorem overduePromote_due {s : State} {e : Nat} {x : Entry} (hr : running s = true) (hx : entryOf s e = some x)
    (hst : x.state = .ready) (hd : x.dispatched = false) (ho : x.overdue = false) (hc : x.hdr.cls = 1 ∨ x.hdr.cls = 2)
    (hage : (if x.hdr.cls = 1 then s.sched.ageIA.toNat else s.sched.ageBK.toNat) * 1000 < now s - x.readyTime) :
    overduePromote s e = bump (setEntry s e { x with overdue := true }) 4 1 := by
  simp only [overduePromote, hx]
  exact if_pos ⟨hr, hst, by simp [hd], by simp [ho], hc, hage⟩

section
variable {s : State} {e : Nat} {x : Entry} (hr : running s = true) (hx : entryOf s e = some x) (hp : x.parent = none)
  (hst : x.state ≠ .fetched)

include hr hx hp hst in
theorem deadlineMissed_passed (hdl : deadlinePassed s x = true) :
    deadlineMissed s e = if x.dispatched then exhaustWaits s e else finish (settleAll (abandon s e) e stDeadline) e stDeadline := by
  simp [deadlineMissed, hx, hr, hp, hst, hdl]

include hx in
/-- A request with no stream in GROWTH_WAIT has nothing to exhaust. -/
theorem exhaustWaits_none (hw : ∀ p ∈ x.parts, p.waiting = false) : exhaustWaits s e = s := by
  unfold exhaustWaits
  simp only [hx]
  refine List.foldlRecOn _ _ (motive := fun u => u = s) rfl ?_
  rintro u rfl j -
  cases hj : x.parts[j]? with
  | none => rfl
  | some p => simp [hw p (List.mem_of_getElem? hj)]

include hr hx hp hst in
theorem requestTimeout_ends (hend : isEnd x.cmd = false) (hw : ∀ p ∈ x.parts, p.waiting = false) (hparts : partsDone x = false)
    (hdue : x.admitTime + (if x.hdr.timeout = 0 then 1000000 else x.hdr.timeout.toNat) * 1000 ≤ now s) :
    requestTimeout s e = endRequest s e stCancelled := by
  have hnow : ¬(¬running s = true ∨ x.parent.isSome = true ∨ x.state = .fetched ∨
      now s < x.admitTime + (if x.hdr.timeout = 0 then 1000000 else x.hdr.timeout.toNat) * 1000) := by
    simp only [hr, hp, hst, not_lt.2 hdue]
    decide
  unfold requestTimeout
  simp only [hx, Bool.not_eq_true']
  simp only [Bool.not_eq_true] at hnow
  rw [if_neg hnow, if_neg (ne_true_of_eq_false hend), exhaustWaits_none hx hw]
  simp [hx, hparts]

end

theorem rootOf_root {s : State} {e : Nat} {x : Entry} (hx : entryOf s e = some x) (hp : x.parent = none) : rootOf s e = e := by
  simp [rootOf, hx, hp]

theorem lowerTierError_running {s : State} {e : Nat} {x : Entry} (hr : running s = true) (hx : entryOf s e = some x)
    (hp : x.parent = none) (hd : x.dispatched = true) (hst : x.state = .running) :
    lowerTierError s e = endRequest s e stLowerError := by
  simp [lowerTierError, rootOf_root hx hp, hx, hr, hd, hst]

theorem lowerTierLate_running {s : State} {e : Nat} {x : Entry} (hr : running s = true) (hx : entryOf s e = some x)
    (hp : x.parent = none) (hd : x.dispatched = true) (hst : x.state = .running) (hlate : lateDue s x = true) :
    lowerTierLate s e = endRequest s e stLowerLate := by
  simp [lowerTierLate, rootOf_root hx hp, hx, hr, hd, hst, hlate]

/-- Settles O24. -/
theorem limitsEndRequests : Obligations.limitsEndRequests := by
  unfold Obligations.limitsEndRequests
  refine ⟨?_, ⟨?_, ?_⟩, ?_⟩
  · intro s e x hr hx hst hd ho hc hage
    exact (docketRow_running hr fun u => overduePromote u e).trans (by rw [overduePromote_due hr hx hst hd ho hc hage])
  · intro s e x hr hx hp hst hdl
    have hrow : exec (.deadlineMissed e) s = _ := docketRow_running hr fun u => deadlineMissed u e
    have hmiss := deadlineMissed_passed hr hx hp hst hdl
    exact ⟨fun hd => by rw [hrow, hmiss, if_neg (ne_true_of_eq_false hd)], fun hd => by rw [hrow, hmiss, if_pos hd]⟩
  · intro s e x hr hx hp hst hend hw hparts hdue
    exact (docketRow_running hr fun u => requestTimeout u e).trans (by rw [requestTimeout_ends hr hx hp hst hend hw hparts hdue])
  · intro s e x hr hx hp hd hst
    exact ⟨(docketRow_running hr fun u => lowerTierError u e).trans (by rw [lowerTierError_running hr hx hp hd hst]), fun hlate =>
      (docketRow_running hr fun u => lowerTierLate u e).trans (by rw [lowerTierLate_running hr hx hp hd hst hlate])⟩

/-! ### Retirement -/

theorem requestRetire_tileRun {s : State} {e : Nat} {x : Entry} {b : TileRunBody} (hr : running s = true) (hx : entryOf s e = some x)
    (hp : x.parent = none) (hd : x.dispatched = true) (hst : x.status = none) (hc : x.cmd = .tileRun b)
    (hh : s.fw.handover = none) (ht : tilesOf s [e] = []) (hret : x.state = .retiring) : requestRetire s e = finish s e stSuccess := by
  simp [requestRetire, hx, hr, hp, hd, hst, hc, hh, ht, hret]

theorem requestRetire_model {s : State} {e : Nat} {x : Entry} (hr : running s = true) (hx : entryOf s e = some x)
    (hp : x.parent = none) (hd : x.dispatched = true) (hst : x.status = none) (hm : isModel x.cmd = true)
    (hh : s.fw.handover = none) (hparts : (x.parts.all fun p => p.outcome.isSome) = true)
    (ht : tilesOf s (e :: childrenOf s e) = []) : requestRetire s e = finish (abandon s e) e (partsStatus x) := by
  have hkeep : ¬(¬running s = true ∨ x.parent.isSome = true ∨ ¬x.dispatched = true) := by simp [hr, hp, hd]
  have hcond : isModel x.cmd = true ∧ (x.parts.all fun p => p.outcome.isSome) = true ∧ (tilesOf s (e :: childrenOf s e)).isEmpty = true :=
    ⟨hm, hparts, by rw [ht]; rfl⟩
  have hrun : ¬(s.fw.handover.map (fun h => h.entry) = some e) := by simp [hh]
  have hbranch : (if isModel x.cmd ∧ x.parts.all (fun p => p.outcome.isSome) ∧ (tilesOf s (e :: childrenOf s e)).isEmpty then
      finish (abandon s e) e (partsStatus x) else s) = finish (abandon s e) e (partsStatus x) := if_pos hcond
  unfold requestRetire
  simp only [hx, Bool.not_eq_true', hst]
  simp only [Bool.not_eq_true] at hkeep
  rw [if_neg hkeep, if_neg hrun]
  cases hcmd : x.cmd with
  | step b => rw [hcmd] at hbranch; exact hbranch
  | prefill b => rw [hcmd] at hbranch; exact hbranch
  | recChunk b => rw [hcmd] at hbranch; exact hbranch
  | _ => rw [hcmd] at hm; cases hm

theorem retireSyncWait_cases {s : State} {e : Nat} {x : Entry} {b : SyncBody} {g : Nat} (hx : entryOf s e = some x)
    (hc : x.cmd = .syncWait b) (hst : x.state ≠ .fetched) (hg : syncIndex s x.ctx b.cidx.toNat = some g) :
    retireSyncWait s e =
      if (syncOf s g).poisoned then finish s e stPoisoned
      else if b.value.toNat ≤ (syncOf s g).value.toNat then finishWith s e stSuccess (syncOf s g).value.toNat
      else s := by
  simp [retireSyncWait, hx, hc, hst, hg]

theorem exec_syncWaitRetire {s : State} {e : Nat} {x : Entry} (hr : running s = true) (hx : entryOf s e = some x)
    (hf : fenceBlocked s x = false) : exec (.syncWaitRetire e) s = .next (settle (retireSyncWait s e)) := by
  refine (docketRow_running hr fun u => match entryOf u e with
    | some x => if fenceBlocked u x then u else retireSyncWait u e
    | none => u).trans ?_
  simp [hx, hf]

/-- Settles O25. -/
theorem requestsRetire : Obligations.requestsRetire := by
  unfold Obligations.requestsRetire
  refine ⟨⟨?_, ?_⟩, ?_⟩
  · intro s e x b hr hx hp hd hst hc hh ht hret
    exact (docketRow_running hr fun u => requestRetire u e).trans (by rw [requestRetire_tileRun hr hx hp hd hst hc hh ht hret])
  · intro s e x hr hx hp hd hst hm hh hparts ht
    exact (docketRow_running hr fun u => requestRetire u e).trans (by rw [requestRetire_model hr hx hp hd hst hm hh hparts ht])
  · intro s e x b g hr hx hf hc hst hg
    rw [exec_syncWaitRetire hr hx hf, retireSyncWait_cases hx hc hst hg]
    refine ⟨fun hpois hval => ?_, fun hpois => ?_⟩
    · rw [if_neg (ne_true_of_eq_false hpois), if_pos hval]
    · rw [if_pos hpois]

end Sys2Proof.Machine
end

/-! SUPPORT. The later parts of a request (R180 to R227, R254, R298, R396) and the destruction of a context (R281). -/

section
namespace Sys2Proof.Machine

/-! ### STREAM_CLOSE_POINT, PARK and PRESENT_START -/

/-- A trace record changes no entry of the Docket. -/
theorem entryOf_traceWrite (s : State) (f k st sq op cid e : Nat) : entryOf (traceWrite s f k st sq op cid) e = entryOf s e := by
  unfold entryOf
  rw [(hostOnly_traceWrite (HostOnly.refl s) f k st sq op cid).docket]

/-- The entry of a request that has just started. -/
theorem entryOf_noteStart (s : State) (e : Nat) (x : Entry) :
    entryOf (noteStart (setEntry s e { x with state := .running }) e) e =
      some { x with state := .running, dispatched := true, started := s.docket.starts } := by
  unfold noteStart
  rw [entryOf_setEntry]
  dsimp only
  split
  · exact entryOf_setEntry ..
  · exact (entryOf_traceWrite ..).trans (entryOf_setEntry ..)

/-- A request of a kind that waits for its turn starts when nothing that needs no tile goes before it. -/
theorem startKind_starts {s : State} {e : Nat} {x : Entry} {kind : Command → Bool} (hx : entryOf s e = some x)
    (hd : x.dispatched = false) (hel : eligible s x = true) (hor : outranked s e x = false) (hk : kind x.cmd = true)
    (hm : isModel x.cmd = false) (hn : neverStarts x.cmd = false) :
    startKind s e kind = startUnit (noteStart (setEntry s e { x with state := .running }) e) e
      { x with state := .running, dispatched := true, started := s.docket.starts } := by
  have hcond : kind x.cmd = true ∧ (!x.dispatched) = true ∧ eligible s x = true ∧ (!outranked s e x) = true :=
    ⟨hk, by simp [hd], hel, by simp [hor]⟩
  unfold startKind
  simp only [hx]
  rw [if_pos hcond]
  unfold startEntry
  simp only [hx]
  rw [if_neg (ne_true_of_eq_false hm), if_neg (ne_true_of_eq_false hn), entryOf_noteStart]
  rfl

theorem startUnit_close {s : State} {e : Nat} {x : Entry} {i : BitVec 16} (hc : x.cmd = .streamClose i)
    (ho : openIn s x.ctx i.toNat = true) : startUnit s e x = closePoint s e x i.toNat := by
  simp only [startUnit, hc, startStreamClose, if_pos ho]

theorem startUnit_park {s v : State} {e : Nat} {x : Entry} {b : ParkBody} (hc : x.cmd = .streamPark b)
    (ho : openIn s x.ctx b.stream.toNat = true) (hf : (streamOf s b.stream.toNat).state ≠ .faulted)
    (hw : (streamOf s b.stream.toNat).state ≠ .fallow)
    (hm : moveStream s x.ctx b.stream.toNat true false { cls := x.service, ctx := some x.ctx, entry := some e } = (.done, v)) :
    startUnit s e x = finish v e stSuccess := by
  simp [startUnit, hc, startPark, ho, hf, hw, hm]

theorem startUnit_present {s : State} {e : Nat} {x : Entry} {b : PresentBody} (hc : x.cmd = .present b)
    (h : b.flags.getLsbD 0 = false) :
    startUnit s e x = finish (pqWrite s x.ctx b.pq.toNat
      (recordBytes s 0 stSuccess 0xFF 0 0 ((List.range 4).map fun k => BitVec.ofNat 16 (b.tag.toNat / 65536 ^ k)))) e stSuccess := by
  simp only [startUnit, hc, startPresent, h, Bool.false_and, Bool.false_eq_true, if_false]

/-! ### SWAP_IN and moves -/

theorem swapInRow_done {s v : State} {e i : Nat} {x : Entry} (hr : running s = true) (hx : entryOf s e = some x)
    (hp : x.parent = none) (hd : x.dispatched = false) (hm : isModel x.cmd = true) (hst : x.state = .queued ∨ x.state = .ready)
    (hdl : deadlinePassed s x = false) (ho : ordered s x = true) (hf : (fallowStreams s x).contains i = true)
    (hs : swapIn s x.ctx i (requestService e x) false = (.done, v)) : swapInRow s e i = endSwapWait v x.ctx e i := by
  have hgo : ¬(¬running s = true ∨ x.parent.isSome = true ∨ x.dispatched = true ∨ ¬isModel x.cmd = true ∨
      (x.state ≠ .queued ∧ x.state ≠ .ready) ∨ deadlinePassed s x = true ∨ ¬ordered s x = true ∨
      ¬(fallowStreams s x).contains i = true) := by
    rcases hst with hst | hst <;> simp [hr, hp, hd, hm, hst, hdl, ho, List.contains_iff_mem.1 hf]
  unfold swapInRow
  simp only [hx, Bool.not_eq_true']
  simp only [Bool.not_eq_true] at hgo
  rw [if_neg hgo]
  simp only [hs]

theorem moveStream_done {s : State} {c i : Nat} {toHbm resv : Bool} {a : Service} {k : Ctx} {qs : List Nat} {pool : Pool} {n : Nat}
    {made : Tbl KvLeaf} {u v : State} (hk : ctxOf s c = some k)
    (ht : (k.pool (!toHbm)).takeWhole (pagesIn k i toHbm).length resv = some (qs, pool, n))
    (hc : copyRegion (setCtx s c (k.setPool (!toHbm) pool)) c toHbm (if toHbm = true then streamStateSlot k (streamOf s i) else none)
       (pagesIn k i toHbm) qs a = (.done, u))
    (hr : copyRuns c i toHbm resv (streamKvSlot s c (streamOf s i)) a (movedRuns (streamOf s i) toHbm) u = (.done, made, v)) :
    moveStream s c i toHbm resv a = (.done, moveRegion v c i toHbm a.entry (pagesIn k i toHbm) qs made) := by
  unfold moveStream
  simp only [hk, ht, hc, hr]

/-! ### TABLE_INSTALL and EPOCH_DRAIN -/

theorem tableInstall_due {s : State} {e : Nat} {x : Entry} {b : TableLoadBody} {npc : BitVec 2} {lengths : List (List Nat)}
    {sl : CodecSlot} (hx : entryOf s e = some x) (hd : x.dispatched = true) (hst : x.state = .running) (hstat : x.status = none)
    (hc : x.cmd = .tableLoad b) (hi : parseImage x.image = some (npc, lengths)) (hs : ctxSlot s x.ctx b.slot.toNat = some sl)
    (hdue : x.due = true)
    (hfirst : (s.docket.entries.any fun p =>
      decide (p.2.ctx = x.ctx) && decide (p.2.seq < x.seq) && waitingSlot p.2 == some b.slot.toNat) = false)
    (hcan : canInstall s sl = true) :
    tableInstall s e =
      let r := installTable s x.ctx b.slot.toNat npc lengths x.service
      finish (if b.result ≠ 0 ∧ takesDma r.2.2 x.ctx = true then hostWrite r.2.2 b.result.toNat (leBytes 8 r.1) else r.2.2) e
        stSuccess := by
  have hgo : ¬(¬x.dispatched = true ∨ x.state ≠ .running ∨ x.status.isSome = true) := by simp [hd, hst, hstat]
  unfold tableInstall
  simp only [hx, Bool.not_eq_true']
  simp only [Bool.not_eq_true] at hgo
  rw [if_neg hgo]
  simp only [hc, installTableLoad, hi, hs, hfirst, hdue, hcan]
  rfl

theorem destroys_live {s : State} (hf : s.dbg.frozen = none) (hl : s.lrs.active = false) : destroys s = true := by
  simp [destroys, hf, hl]

theorem exec_epochDrain {s : State} (hf : s.dbg.frozen = none) (hl : s.lrs.active = false) (c : BitVec 8) (id : Nat) :
    exec (.epochDrain c id) s = .next (settleLive (epochDrain s c.toNat id)) :=
  congrArg Host.Outcome.next (if_pos (destroys_live hf hl))

theorem epochDrain_found {s : State} {c id : Nat} {k : Ctx} {p : Epoch} (hk : ctxOf s c = some k)
    (hp : (k.closed.find? fun q => q.id == id) = some p) :
    epochDrain s c id = if p.waits.any (holdsEpoch s) || slotsHeld s c p then s else drainEpoch s c p := by
  unfold epochDrain
  simp only [hk, Option.bind_some, hp]

/-- Settles O26. -/
theorem laterPartsRun : Obligations.laterPartsRun := by
  unfold Obligations.laterPartsRun
  refine ⟨?_, ?_, ?_, ?_, ?_⟩
  · intro s e x hr hx hd hel hor u y
    refine ⟨fun i hc ho => ?_, fun b v hc ho hnf hnw hmv => ?_, fun b hc hb => ?_⟩
    · have hstart : startKind s e (fun c => match c with | .streamClose _ => true | _ => false) = startUnit u e y :=
        startKind_starts hx hd hel hor (by rw [hc]) (by rw [hc]; rfl) (by rw [hc]; rfl)
      refine (docketRow_running hr fun u => startKind u e fun c => match c with | .streamClose _ => true | _ => false).trans ?_
      rw [hstart, startUnit_close (x := y) hc ho]
    · have hstart : startKind s e (fun c => match c with | .streamPark _ => true | _ => false) = startUnit u e y :=
        startKind_starts hx hd hel hor (by rw [hc]) (by rw [hc]; rfl) (by rw [hc]; rfl)
      refine (docketRow_running hr fun u => startKind u e fun c => match c with | .streamPark _ => true | _ => false).trans ?_
      rw [hstart, startUnit_park (x := y) hc ho hnf hnw hmv]
    · have hstart : startKind s e (fun c => match c with | .present _ => true | _ => false) = startUnit u e y :=
        startKind_starts hx hd hel hor (by rw [hc]) (by rw [hc]; rfl) (by rw [hc]; rfl)
      refine (docketRow_running hr fun u => startKind u e fun c => match c with | .present _ => true | _ => false).trans ?_
      exact congrArg (fun t => Host.Outcome.next (settle t)) (hstart.trans (startUnit_present (x := y) hc hb))
  · intro s v e i x hr hx hp hd hm hst hdl ho hf hs
    exact (docketRow_running hr fun u => swapInRow u e i.toNat).trans (by rw [swapInRow_done hr hx hp hd hm hst hdl ho hf hs])
  · intro s c i toHbm resv a k qs pool n made u v hk ht hc hr
    exact moveStream_done hk ht hc hr
  · intro s e x b npc lengths sl hr hx hd hst hstat hc hi hs hdue hfirst hcan
    exact (docketRow_running hr fun u => tableInstall u e).trans
      (by rw [tableInstall_due hx hd hst hstat hc hi hs hdue hfirst hcan])
  · intro s c id k p hf hl hk hp
    have hrow := exec_epochDrain hf hl c id
    rw [epochDrain_found hk hp] at hrow
    refine ⟨fun hw hsl => ?_, fun hheld => ?_⟩
    · rw [hrow, if_neg (by simp [hw, hsl])]
    · rw [hrow, if_pos (Bool.or_eq_true_iff.2 hheld)]

/-! ### The destruction of a context -/

/-- Nothing but the memories of the tiers and of the tiles, the state that names them, and the host's side differ. -/
def WipeOnly (s t : State) : Prop :=
  t = { s with
    hbmMem := t.hbmMem, hbm := t.hbm, sramMem := t.sramMem, localMem := t.localMem, tiles := t.tiles, syncs := t.syncs
    codecSlots := t.codecSlots, runs := t.runs, streams := t.streams, ctxs := t.ctxs, fns := t.fns, hostMem := t.hostMem
    heldWrites := t.heldWrites, dbg := { s.dbg with counters := t.dbg.counters } }

theorem WipeOnly.refl (s : State) : WipeOnly s s := rfl

theorem WipeOnly.trans {s t u : State} (h : WipeOnly s t) (k : WipeOnly t u) : WipeOnly s u := by
  unfold WipeOnly at *
  rw [h] at k
  exact k

theorem WipeOnly.of_hostOnly {s t : State} (h : HostOnly s t) : WipeOnly s t := by
  unfold HostOnly at h
  rw [h]
  rfl

theorem WipeOnly.foldl {α : Type} {f : State → α → State} (hf : ∀ u a, WipeOnly u (f u a)) (l : List α) (s : State) :
    WipeOnly s (l.foldl f s) :=
  List.foldlRecOn l f (motive := WipeOnly s) (WipeOnly.refl s) fun u h a _ => h.trans (hf u a)

theorem wipeOnly_pushReq (s : State) (p : Nat) (r : HbmReq) : WipeOnly s (pushReq s p r) := by
  unfold pushReq admitStalled
  dsimp only
  split <;> rfl

theorem wipeOnly_hbmTouch (s : State) (write : Bool) (q o n : Nat) (data : List Byte) (v : Service) :
    WipeOnly s (hbmTouch s write q o n data v) := by
  unfold hbmTouch
  dsimp only
  split
  · exact WipeOnly.refl s
  · exact (WipeOnly.foldl (fun u k => wipeOnly_pushReq u _ _) _ s).trans (.of_hostOnly (hostOnly_bump (HostOnly.refl _) _ _))

theorem wipeOnly_quadWipe (s : State) (tier : Bool) (q : Nat) : WipeOnly s (quadWipe s tier q) := by
  unfold quadWipe
  split
  · rfl
  · generalize List.replicate 65536 (0 : Byte) = zeros
    have hmem : WipeOnly s { s with hbmMem := s.hbmMem.filter fun p => decide (p.1 / 16 ≠ q) } := rfl
    exact hmem.trans (wipeOnly_hbmTouch ..)

/-- The runs and the streams of a context are forgotten (R281). -/
def forgetStreams (s : State) (c : Nat) : State :=
  { s with
    runs := s.runs.filter fun p => decide (p.2.ctx ≠ c)
    streams := tblMap s.streams fun _ t =>
      if t.ctx = c then { t with leaves := [], exps := [], slots := [], pending := none, tree := none } else t }

/-- A context's counters, syncs, slots, runs and keys are gone (R281 step 2). -/
def forgetContext (s : State) (c : Nat) (k : Ctx) : State :=
  let s3 := emptySlots (zeroSyncs (zeroFnCounters s c) k.syncBase k.syncCount) k.slotBase k.slotCount
  setCtx (invalidateContext (forgetStreams s3 c) c) c { k with
    wiping := true, pages := [], root := none, tables := [], winPages := [], hwins := [], packages := [], contentKeys := []
    dataKey := [], drbg := Drbg.reset, growth := [] }

/-- What the destruction of a context leaves: its quads and tiles are wiped, and it is forgotten. -/
def wipedContext (s : State) (c : Nat) (k : Ctx) : State :=
  let s1 := k.pool1.all.foldl (fun u q => quadWipe u true q) (k.pool0.all.foldl (fun u q => quadWipe u false q) s)
  forgetContext (((s1.tiles.filter fun p => p.2.lastCtx == some c).map Prod.fst).foldl wipeTile s1) c k

theorem contextDestruction_due {s : State} {c : Nat} {k : Ctx} (hk : ctxOf s c = some k) (hd : k.destroying = true)
    (hw : k.wiping = false) (hc : k.closed = []) (hb : contextBusy s c = false) : contextDestruction s c = wipedContext s c k := by
  have hgo : (!k.destroying || k.wiping || !k.closed.isEmpty || contextBusy s c) = false := by simp [hd, hw, hc, hb]
  unfold contextDestruction
  simp only [hk]
  exact if_neg (ne_true_of_eq_false hgo)

theorem wipeOnly_wipeTile (s : State) (t : Nat) : WipeOnly s (wipeTile s t) := rfl
theorem wipeOnly_zeroFnCounters (s : State) (c : Nat) : WipeOnly s (zeroFnCounters s c) := rfl
theorem wipeOnly_zeroSyncs (s : State) (b n : Nat) : WipeOnly s (zeroSyncs s b n) := rfl
theorem wipeOnly_emptySlots (s : State) (b n : Nat) : WipeOnly s (emptySlots s b n) := rfl
theorem wipeOnly_forgetStreams (s : State) (c : Nat) : WipeOnly s (forgetStreams s c) := rfl
theorem wipeOnly_invalidateContext (s : State) (c : Nat) : WipeOnly s (invalidateContext s c) := rfl
theorem wipeOnly_setCtx (s : State) (c : Nat) (k : Ctx) : WipeOnly s (setCtx s c k) := rfl

theorem wipeOnly_forgetContext (s : State) (c : Nat) (k : Ctx) : WipeOnly s (forgetContext s c k) :=
  (wipeOnly_zeroFnCounters s c).trans <| (wipeOnly_zeroSyncs ..).trans <| (wipeOnly_emptySlots ..).trans <|
    (wipeOnly_forgetStreams ..).trans <| (wipeOnly_invalidateContext ..).trans (wipeOnly_setCtx ..)

theorem wipeOnly_wipedContext (s : State) (c : Nat) (k : Ctx) : WipeOnly s (wipedContext s c k) :=
  (WipeOnly.foldl (fun u q => wipeOnly_quadWipe u false q) k.pool0.all s).trans <|
    (WipeOnly.foldl (fun u q => wipeOnly_quadWipe u true q) k.pool1.all _).trans <|
      (WipeOnly.foldl wipeOnly_wipeTile _ _).trans (wipeOnly_forgetContext ..)

/-- An entry of a table that no element of the filtered table names is absent. -/
theorem tblGet_filter_none {α : Type} {p : Nat × α → Bool} {n : Nat} (hp : ∀ v, p (n, v) = false) (t : Tbl α) :
    tblGet (t.filter p) n = none := by
  induction t with
  | nil => rfl
  | cons a t ih =>
    obtain ⟨m, v⟩ := a
    rw [List.filter_cons]
    split
    · have hne : n ≠ m := by
        rintro rfl
        simp_all
      unfold tblGet
      rw [if_neg hne, ih]
      exact ite_self _
    · exact ih

/-- A slice of a table that has been emptied reads as its default. -/
theorem tblGetD_filter_slice {α : Type} (t : Tbl α) (b n i : Nat) (d : α) (h : b ≤ i ∧ i < b + n) :
    tblGetD (t.filter fun p => !(decide (b ≤ p.1) && decide (p.1 < b + n))) i d = d := by
  unfold tblGetD
  rw [tblGet_filter_none (by simp [h])]
  rfl

theorem forgetContext_ctx (s : State) (c : Nat) (k : Ctx) :
    ctxOf (forgetContext s c k) c = some { k with
      wiping := true, pages := [], root := none, tables := [], winPages := [], hwins := [], packages := [], contentKeys := []
      dataKey := [], drbg := Drbg.reset, growth := [] } := tblGet_tblPut_same ..

theorem forgetContext_counters (s : State) (c : Nat) (k : Ctx) {n : Nat} (h : 0x2000 + 32 * c ≤ n ∧ n < 0x2000 + 32 * c + 32) :
    counterOf (forgetContext s c k) n = Counter.reset := tblGetD_filter_slice _ _ _ _ _ h

theorem forgetContext_syncs (s : State) (c : Nat) (k : Ctx) {i : Nat} (h : i < k.syncCount) :
    syncOf (forgetContext s c k) (k.syncBase + i) = Sync.reset := tblGetD_filter_slice _ _ _ _ _ (by omega)

theorem forgetContext_slots (s : State) (c : Nat) (k : Ctx) {i : Nat} (h : i < k.slotCount) :
    slotOf (forgetContext s c k) (k.slotBase + i) = CodecSlot.reset := tblGetD_filter_slice _ _ _ _ _ (by omega)

theorem docket_storeGive (s : State) (tier : Bool) (qs : List Nat) : (storeGive s tier qs).docket = s.docket := by
  cases tier <;> rfl

theorem docket_raiseEvent (s : State) (f code arg16 arg : Nat) : (raiseEvent s f code arg16 arg).docket = s.docket :=
  (hostOnly_raiseEvent (HostOnly.refl s) f code arg16 arg).docket

theorem contextWipeEnd_alone {s : State} {c : Nat} {k : Ctx} (hk : ctxOf s c = some k) (hw : k.wiping = true)
    (hd : s.docket.entries = []) :
    contextWipeEnd s c =
      let s1 := storeGive (storeGive s false k.pool0.all) true k.pool1.all
      let s2 := { s1 with streams := s1.streams.filter (fun p => decide (p.2.ctx ≠ c)), ctxs := tblDel s1.ctxs c }
      let s3 := if c = 0 then s2 else
        setFn s2 c { fnOf s2 c with rings := tblMap (fnOf s2 c).rings fun _ r => { r with en := false, busy := false } }
      raiseEvent (logFault s3 2 c k.destroyCause 0 0) 0 0x09 c 0 := by
  unfold contextWipeEnd
  simp only [hk, hw]
  rw [if_neg (by decide)]
  generalize hv : logFault _ 2 c k.destroyCause 0 0 = v
  have hempty : (raiseEvent v 0 9 c 0).docket.entries = [] := by
    rw [docket_raiseEvent, ← hv]
    show (ite (c = 0) _ _ : State).docket.entries = []
    split
    · exact (congrArg Docket.entries (docket_storeGive ..)).trans ((congrArg Docket.entries (docket_storeGive ..)).trans hd)
    · exact (congrArg Docket.entries (docket_storeGive ..)).trans ((congrArg Docket.entries (docket_storeGive ..)).trans hd)
  rw [hempty]
  rfl

/-- Settles O27. -/
theorem contextDestructionRuns : Obligations.contextDestructionRuns := by
  unfold Obligations.contextDestructionRuns
  intro s c k hf hl hk
  have hlive := destroys_live hf hl
  have hdes : exec (.contextDestruction c) s = .next (settleLive (contextDestruction s c.toNat)) :=
    congrArg Host.Outcome.next (if_pos hlive)
  have hend : exec (.contextWipeEnd c) s = .next (settleLive (contextWipeEnd s c.toNat)) :=
    congrArg Host.Outcome.next (if_pos hlive)
  refine ⟨fun hd hw hc hb => ⟨wipedContext s c.toNat k, ?_, forgetContext_ctx .., fun n hn => forgetContext_counters _ _ k hn,
    fun i hi => forgetContext_syncs _ _ k hi, fun i hi => forgetContext_slots _ _ k hi, wipeOnly_wipedContext ..⟩,
    fun hw hd => ?_, fun hd hw => ⟨?_, ?_⟩⟩
  · rw [hdes, contextDestruction_due hk hd hw hc hb]
  · rw [hend, contextWipeEnd_alone hk hw hd]
  · rw [hdes]
    simp [contextDestruction, hk, hd]
  · rw [hend]
    simp [contextWipeEnd, hk, hw]

end Sys2Proof.Machine
end

/-! SUPPORT. Walks of attention gangs (R140 to R147) and the passes of a model request (R147 to R155, R200, R213). -/

section
namespace Sys2Proof.Machine

/-! ### KV_SET_DELIVER -/

/-- The walk `k` after its next set `a` has been delivered. -/
def Walk.deliver (k : Walk) (a : WalkSet) (rest : List WalkSet) : Walk :=
  { k with todo := rest, delivered := k.delivered + 1, open_ := k.open_ ++ [(k.delivered, a)] }

theorem kvSetDeliver_delivers {s v : State} {g rank fill free : Nat} {y x : Entry} {e : Nat} {p : Package} {d : GraphNode} {k : Walk}
    {a : WalkSet} {rest : List WalkSet} {pages : List (Nat × Memory)} (hg : gangOf (foldFreed s g rank) g = some (y, e, x, p, d))
    (hc : walkCounters (foldFreed s g rank) x.ctx p d = some (fill, free)) (hk : tblGet y.walks rank = some k)
    (ha : k.todo = a :: rest) (hfill : (syncOf (foldFreed s g rank) fill).poisoned = false)
    (hfree : (syncOf (foldFreed s g rank) free).poisoned = false)
    (hroom : (syncOf (foldFreed s g rank) fill).value.toNat - (syncOf (foldFreed s g rank) free).value.toNat < d.b)
    (hread : readHeads (foldFreed s g rank) ((x.parts[a.part]?).elim 0 Part.stream) (a.kind == 0) a.head (requestService e x)
      (setRuns x d (chunkBase x y.chunk) a) = (.ok pages, v)) :
    kvSetDeliver s g rank =
      let tile := y.tiles.getD rank 0
      let w := localWrite v tile (d.lsoff + k.delivered % d.b * 35136)
        (setBytes a.part a.head a.kind d.layer a.rbase
          (setRows (foldFreed s g rank) x p d (y.node / 65536) y.chunk rank tile pages a) (setMask x a))
      let z := modEntry w g fun q => { q with walks := tblPut q.walks rank (k.deliver a rest) }
      let r := addSync z fill 1
      if r.2 then faultRequest r.1 e 0x0E 0 else r.1 := by
  unfold kvSetDeliver
  simp only [hg, hc, hk, ha, hfill, hfree, decide_eq_false (Nat.not_le.2 hroom), hread, Bool.or_self, Bool.false_eq_true, if_false]
  rfl

/-- Settles O28. -/
theorem walkSetDelivered : Obligations.walkSetDelivered := by
  unfold Obligations.walkSetDelivered
  intro s v g rank fill free y x e p d k a rest pages hr u hg hc hk ha hfill hfree hroom hread tile w k1 z hz hlt n
  have hadd : addSync z fill 1 = (markMet (setSync z fill n) fill n.value, false) := addSyncBy_plus hz hlt
  have hdel : kvSetDeliver s g rank = markMet (setSync z fill n) fill n.value := by
    refine (kvSetDeliver_delivers hg hc hk ha hfill hfree hroom hread).trans ?_
    exact (congrArg (fun r : State × Bool => if r.2 then faultRequest r.1 e 0x0E 0 else r.1) hadd)
  exact ⟨(docketRow_running hr fun u => kvSetDeliver u g rank).trans (by rw [hdel]), rfl⟩

/-! ### Passes -/

theorem candidateWrite_writes {s : State} {e row layer g : Nat} (h : (childrenOf s e).find? (writesRow s row layer) = some g) :
    candidateWrite s e row layer = writeCandidates s g row := by
  simp only [candidateWrite, h]

theorem sampling_samples {s : State} {e w : Nat} {x : Entry} {p : Package} (hx : entryOf s e = some x)
    (hp : requestPackage s x = some p) (hs : samples x.cmd = true) (hroot : x.parent = none) (hl : samplesLater s x = false)
    (hw : ((openWaves x).find? fun w => !x.sampled.contains w && passDone x p.manifest (requestNodes s x) w) = some w) :
    sampling s e =
      let s1 := ((waveParts x w).map Prod.fst).foldl (fun u j => samplePart u e j (fieldAt p.manifest 43 1)) s
      expand (modEntry s1 e fun y => { y with sampled := w :: y.sampled }) e w := by
  unfold sampling
  simp only [hx, hp, hw, hs, hroot, hl]
  rfl

theorem streamCommit_commits {s : State} {e row : Nat} {x : Entry} {p : Part} {pk : Package} (hx : entryOf s e = some x)
    (hrow : x.parts[row]? = some p) (hp : requestPackage s x = some pk) (ho : p.outcome = none) (hw : p.wave ≠ 0)
    (hst : x.status = none) (hd : waveDone x pk.manifest (requestNodes s x) p.wave = true) :
    streamCommit s e row = commitPart s e row x pk := by
  unfold streamCommit
  simp [hx, hrow, hp, ho, hw, hst, hd]

/-- A score stays within 16 bits. -/
theorem newScore_le (s d a : Nat) : newScore s d a ≤ 65535 := Nat.min_le_left ..

/-- Without a delivery a score never grows. -/
theorem newScore_idle (s d : Nat) : newScore s d 0 ≤ s := (Nat.min_le_right ..).trans (by omega)

/-- A saturated score whose deliveries make up for its decay stays saturated. -/
theorem newScore_saturated {d a : Nat} (h : (rhu 65535 d).toNat ≤ a) : newScore 65535 d a = 65535 :=
  Nat.min_eq_left (show 65535 ≤ 65535 - (rhu 65535 d).toNat + a by omega)

/-- Settles O29. -/
theorem passesWriteSampleAndCommit : Obligations.passesWriteSampleAndCommit := by
  unfold Obligations.passesWriteSampleAndCommit
  refine ⟨⟨?_, ?_, ?_⟩, ?_, fun s d a _ => ⟨newScore_le s d a, newScore_idle s d, newScore_saturated⟩⟩
  · intro s e row layer g hr hg
    exact (docketRow_running hr fun u => candidateWrite u e row layer).trans (by rw [candidateWrite_writes hg])
  · intro s e w x p hr hx hp hs hroot hl hw
    exact (docketRow_running hr fun u => sampling u e).trans (by rw [sampling_samples hx hp hs hroot hl hw])
  · intro s e row x p pk hr hx hrow hp ho hw hst hd
    exact (docketRow_running hr fun u => streamCommit u e row).trans (by rw [streamCommit_commits hx hrow hp ho hw hst hd])
  · intro s c tier k hr hk
    exact (docketRow_running hr fun u => growthRetry u c.toNat tier).trans (by simp only [growthRetry, hk])

end Sys2Proof.Machine
end

/-! SUPPORT. The sequencer of a tile (R100 to R103): its ALU, its instructions, waits and the end of a program. -/

section
namespace Sys2Proof.Machine

/-! ### The ALU -/

theorem toInt_ite_min (a b : Word64) : (if b.slt a then b else a).toInt = min a.toInt b.toInt := by
  rw [BitVec.slt_eq_decide]
  by_cases h : b.toInt < a.toInt
  · rw [if_pos (by simpa using h), min_eq_right h.le]
  · rw [if_neg (by simpa using h), min_eq_left (not_lt.1 h)]

theorem toInt_ite_max (a b : Word64) : (if b.slt a then a else b).toInt = max a.toInt b.toInt := by
  rw [BitVec.slt_eq_decide]
  by_cases h : b.toInt < a.toInt
  · rw [if_pos (by simpa using h), max_eq_left h.le]
  · rw [if_neg (by simpa using h), max_eq_right (not_lt.1 h)]

theorem toNat_ite_min (a b : Word64) : (if b < a then b else a).toNat = min a.toNat b.toNat := by
  by_cases h : b < a
  · rw [if_pos h, min_eq_right (BitVec.lt_def.1 h).le]
  · rw [if_neg h, min_eq_left (not_lt.1 fun k => h (BitVec.lt_def.2 k))]

theorem toNat_ite_max (a b : Word64) : (if b < a then a else b).toNat = max a.toNat b.toNat := by
  by_cases h : b < a
  · rw [if_pos h, max_eq_left (BitVec.lt_def.1 h).le]
  · rw [if_neg h, max_eq_right (not_lt.1 fun k => h (BitVec.lt_def.2 k))]

/-- Settles O32. -/
theorem aluFunctions : Obligations.aluFunctions := by
  unfold Obligations.aluFunctions
  intro a b
  refine ⟨BitVec.toNat_add a b, ?_, BitVec.toNat_mul a b, BitVec.toNat_and a b, BitVec.toNat_or a b, BitVec.toNat_xor a b, ?_, ?_, ?_,
    toInt_ite_min a b, toInt_ite_max a b, toNat_ite_min a b, toNat_ite_max a b⟩
  · refine (BitVec.toNat_sub a b).trans (congrArg (· % 2 ^ 64) ?_)
    have := b.isLt
    omega
  · exact (BitVec.toNat_shiftLeft ..).trans (by rw [Nat.shiftLeft_eq])
  · exact (BitVec.toNat_ushiftRight ..).trans (Nat.shiftRight_eq_div_pow ..)
  · exact (BitVec.toInt_sshiftRight ..).trans (Int.shiftRight_eq_div_pow ..)

/-! ### How an instruction that issues ends -/

section
variable {s : State} {t op w : Nat} {body : State → Tile → Nat → TileIssue} (h : Issues s t op w)
include h

theorem issueTile_done {v : State} {n : Nat} (hb : body (issueState s t w) (tileOf (issueState s t w) t) w = .done v n) :
    issueTile s t op body = setTile v t { tileOf v t with pc := n } := by rw [issueTile_issues h, hb]

theorem issueTile_fault {cause : Nat} (hb : body (issueState s t w) (tileOf (issueState s t w) t) w = .fault cause) :
    issueTile s t op body = tileFault (issueState s t w) t cause := by rw [issueTile_issues h, hb]

theorem issueTile_poisoned (hb : body (issueState s t w) (tileOf (issueState s t w) t) w = .poisoned) :
    issueTile s t op body = poisonFault (issueState s t w) t := by rw [issueTile_issues h, hb]

theorem issueTile_wait {v : WaitOn} (hb : body (issueState s t w) (tileOf (issueState s t w) t) w = .wait v) :
    issueTile s t op body = setTile (issueState s t w) t { tileOf (issueState s t w) t with waitOn := some v } := by
  rw [issueTile_issues h, hb]

theorem issueTile_queued {f : InFlight} {effect : State → State × EffectEnd}
    (hb : body (issueState s t w) (tileOf (issueState s t w) t) w = .queued f effect) :
    issueTile s t op body = queueUp (issueState s t w) t w f effect := by rw [issueTile_issues h, hb]

/-- An instruction of the sequencer leaves its tile as it says, at the next bundle. -/
theorem issueTile_seqDone {v : State} {x : Tile} (hb : body (issueState s t w) (tileOf (issueState s t w) t) w = seqDone v t x) :
    issueTile s t op body = setTile v t { x with pc := x.pc + 1 } := by
  rw [issueTile_done h hb, tileOf_setTile, setTile_setTile]

end

/-! ### LDS, STS and DLOAD -/

theorem localMem_seqComplete (u : State) (t w : Nat) (f : InFlight) : (seqComplete u t w f).localMem = u.localMem := by
  obtain ⟨l, h⟩ := noteDone_eq u t { f with fence := armed w }
  rw [seqComplete, h]

theorem tileOf_seqComplete (u : State) (t w : Nat) (f : InFlight) (i : Nat) : tileOf (seqComplete u t w f) i = tileOf u i := by
  obtain ⟨l, h⟩ := noteDone_eq u t { f with fence := armed w }
  rw [seqComplete, h]
  rfl

theorem ctxOf_seqComplete (u : State) (t w : Nat) (f : InFlight) (c : Nat) : ctxOf (seqComplete u t w f) c = ctxOf u c := by
  obtain ⟨l, h⟩ := noteDone_eq u t { f with fence := armed w }
  rw [seqComplete, h]
  rfl

theorem localRead_seqComplete (u : State) (t w : Nat) (f : InFlight) (i a n : Nat) :
    localRead (seqComplete u t w f) i a n = localRead u i a n := by simp only [localRead, localMem_seqComplete]

section
variable {u : State} {t w a : Nat} (hm : meetsNothing u t 4)
include hm

theorem ldsBody_inside {x : Tile} (ha : localAddress x w 8 8 37 64 = some a) :
    ldsBody t u x w = seqDone (seqComplete u t w (seqFlight [(t, a, 8)] [])) t
      (x.setSreg (bitsOf w 36 32) (leNat (localRead u t a 8))) := by
  simp only [ldsBody, ha, beforeEffect_quiet (f := seqFlight [(t, a, 8)] []) hm, localRead_seqComplete]

theorem stsBody_inside {x : Tile} (ha : localAddress x w 8 8 37 64 = some a) :
    stsBody t u x w = .done (seqComplete (localWrite u t a (leBytes 8 (x.sreg (bitsOf w 36 32)))) t w (seqFlight [] [(t, a, 8)]))
      (x.pc + 1) := by
  simp only [stsBody, ha, afterEffect_quiet (f := seqFlight [] [(t, a, 8)]) hm]

theorem dloadBody_good {x : Tile} (ha : localAddress x w 32 32 37 64 = some a)
    (hd : descCheck (leNat (localRead u t a 32)) (((ctxOf u x.ctx).map Ctx.slotCount).getD 0) = none) :
    dloadBody t u x w = seqDone (seqComplete u t w (seqFlight [(t, a, 32)] [])) t
      { x with dregs := x.dregs.set (bitsOf w 35 32) (BitVec.ofNat 256 (leNat (localRead u t a 32))) } := by
  simp only [dloadBody, ha, beforeEffect_quiet (f := seqFlight [(t, a, 32)] []) hm, localRead_seqComplete, ctxOf_seqComplete, hd]

theorem dloadBody_bad {x : Tile} {cause : Nat} (ha : localAddress x w 32 32 37 64 = some a)
    (hd : descCheck (leNat (localRead u t a 32)) (((ctxOf u x.ctx).map Ctx.slotCount).getD 0) = some cause) :
    dloadBody t u x w = .fault cause := by
  simp only [dloadBody, ha, beforeEffect_quiet (f := seqFlight [(t, a, 32)] []) hm, localRead_seqComplete, ctxOf_seqComplete, hd]

end

theorem ldsBody_outside {u : State} {t w : Nat} {x : Tile} (ha : localAddress x w 8 8 37 64 = none) :
    ldsBody t u x w = .fault 0x06 := by simp only [ldsBody, ha]

theorem stsBody_outside {u : State} {t w : Nat} {x : Tile} (ha : localAddress x w 8 8 37 64 = none) :
    stsBody t u x w = .fault 0x06 := by simp only [stsBody, ha]

theorem dloadBody_outside {u : State} {t w : Nat} {x : Tile} (ha : localAddress x w 32 32 37 64 = none) :
    dloadBody t u x w = .fault 0x06 := by simp only [dloadBody, ha]

/-! ### BR and the fetch -/

theorem brBody_falls {u : State} {x : Tile} {w : Nat}
    (h : brTaken (bitsOf w 49 47) (x.word (bitsOf w 41 37)) (x.word (bitsOf w 46 42)) = false) : brBody u x w = .done u (x.pc + 1) :=
  if_neg (ne_true_of_eq_false h)

theorem brBody_taken {u : State} {x : Tile} {w : Nat}
    (h : brTaken (bitsOf w 49 47) (x.word (bitsOf w 41 37)) (x.word (bitsOf w 46 42)) = true) :
    brBody u x w =
      let target : Int := (x.pc : Int) + signedOf 20 (bitsOf w 83 64)
      if target < 0 ∨ (x.len : Int) ≤ target then .fault 0x0F else .done u target.toNat := if_pos h

/-- A bundle of a block that the instruction cache holds is fetched without any change. -/
theorem fetchBundle_cached {s : State} {t : Nat} {k : Nat × List Byte}
    (h : (tileOf s t).cached.find? (fun q => q.1 == ((tileOf s t).prog + 16 * (tileOf s t).pc) / 4096) = some k) :
    fetchBundle s t = (.ok (leNat ((k.2.drop (((tileOf s t).prog + 16 * (tileOf s t).pc) % 4096)).take 16)), s) := by
  simp only [fetchBundle, h]

theorem noteFences_none (s : State) (t : Nat) : noteFences s t 0 = s := rfl

/-- Settles O33. -/
theorem sequencerInstructions : Obligations.sequencerInstructions := by
  unfold Obligations.sequencerInstructions
  refine ⟨?_, ?_, ?_⟩
  · intro s t w u x
    refine ⟨fun h => congrArg Host.Outcome.next (issueTile_done h rfl), fun h => ?_, fun h => ?_, fun h => ?_, fun h => ?_,
      fun k hk => ?_⟩
    · refine congrArg Host.Outcome.next ((issueTile_seqDone (body := setiBody t) h rfl).trans ?_)
      rw [setSreg_pc]
    · refine congrArg Host.Outcome.next ((issueTile_seqDone (body := aluBody t) h rfl).trans ?_)
      rw [setSreg_pc]
    · exact congrArg Host.Outcome.next (issueTile_seqDone (body := daddBody t) h rfl)
    · refine congrArg Host.Outcome.next ((issueTile_done (body := haltBody t) h rfl).trans ?_)
      rw [tileOf_setTile, setTile_setTile]
    · have hf := fetchBundle_cached hk
      exact ⟨by rw [bundleAt, hf], fun hmask => by rw [issueState, hf, hmask, noteFences_none]⟩
  · intro s t w h u x taken target
    refine ⟨fun htaken => congrArg Host.Outcome.next (issueTile_done (body := brBody) h (brBody_falls htaken)),
      fun htaken h0 hlen => congrArg Host.Outcome.next (issueTile_done (body := brBody) h ((brBody_taken htaken).trans (if_neg ?_))),
      fun htaken hout => congrArg Host.Outcome.next (issueTile_fault (body := brBody) h ((brBody_taken htaken).trans (if_pos hout)))⟩
    exact not_or.2 ⟨not_lt.2 h0, not_le.2 hlen⟩
  · intro s t w a u x moved hm
    refine ⟨fun h ha => ?_, fun h ha => ?_, fun h ha => ?_, fun h ha => ?_, fun h ha => ?_,
      fun h ha => ?_⟩
    · refine congrArg Host.Outcome.next ((issueTile_seqDone (body := ldsBody t) h (ldsBody_inside hm ha)).trans ?_)
      rw [setSreg_pc]
    · refine congrArg Host.Outcome.next ((issueTile_done (body := stsBody t) h (stsBody_inside hm ha)).trans ?_)
      rw [tileOf_seqComplete]
      rfl
    · exact ⟨fun hd => congrArg Host.Outcome.next (issueTile_seqDone (body := dloadBody t) h (dloadBody_good hm ha hd)),
        fun cause hd => congrArg Host.Outcome.next (issueTile_fault (body := dloadBody t) h (dloadBody_bad hm ha hd))⟩
    · exact congrArg Host.Outcome.next (issueTile_fault (body := ldsBody t) h (ldsBody_outside ha))
    · exact congrArg Host.Outcome.next (issueTile_fault (body := stsBody t) h (stsBody_outside ha))
    · exact congrArg Host.Outcome.next (issueTile_fault (body := dloadBody t) h (dloadBody_outside ha))

end Sys2Proof.Machine
end

/-! SUPPORT. WAIT, WAIT_RESUME and PROGRAM_END of a TILE_RUN (R98 to R103, R110). -/

section
namespace Sys2Proof.Machine

/-! ### WAIT -/

section
variable {u : State} {t w g : Nat} {x : Tile} (hl : bitOf w 52 = false) (hg : syncIndex u x.ctx (counterIndex x w) = some g)
include hl hg

theorem waitBody_local :
    waitBody t u x w =
      if (syncOf u g).poisoned then .poisoned
      else if counterValue x w ≤ (syncOf u g).value.toNat then .done (acquire u t g (BitVec.ofNat 64 (counterValue x w))) (x.pc + 1)
      else .wait { index := counterIndex x w, target := BitVec.ofNat 64 (counterValue x w), met := false } := by
  simp only [waitBody, hl, hg, Bool.false_eq_true, if_false]

end

theorem waitResume_waiting {s : State} {t g : Nat} {v : WaitOn} (hr : running s = true) (he : (tileOf s t).entry.isSome = true)
    (hs : (tileOf s t).stopped = false) (hw : (tileOf s t).waitOn = some v) (hg : syncIndex s (tileOf s t).ctx v.index = some g) :
    waitResume s t =
      if v.met then advance (acquire (setTile s t { tileOf s t with waitOn := none }) t g v.target) t
      else if (syncOf s g).poisoned then poisonFault s t
      else s := by
  obtain ⟨e, he⟩ := Option.isSome_iff_exists.1 he
  simp only [waitResume, hw, hr, he, hs, hg]
  rfl

/-! ### PROGRAM_END -/

theorem gangOf_root {s : State} {e : Nat} {y : Entry} (hy : entryOf s e = some y) (hp : y.parent = none) : gangOf s e = none := by
  simp only [gangOf, hy, hp]

theorem tileOf_releaseTile {s : State} {t e : Nat} (he : (tileOf s t).entry = some e) :
    tileOf (releaseTile s t) t = { tileOf s t with
      entry := none, held := none, cached := [], inflight := [], halted := false, stopped := false, rowStop := false, waitOn := none } := by
  simp only [releaseTile, he, tileOf_setTile]

/-- A tile with nothing in flight leaves the Docket alone when it is released. -/
theorem entryOf_releaseTile {s : State} {t : Nat} (hf : (tileOf s t).inflight = []) (e : Nat) :
    entryOf (releaseTile s t) e = entryOf s e := by
  unfold releaseTile
  dsimp only
  split
  · rfl
  · rw [hf]
    show tblGet (bumpFn (bumpTile s t 4 _) _ 14 _).docket.entries e = _
    rw [(hostOnly_bumpFn (hostOnly_bumpTile (HostOnly.refl s) ..) ..).docket]
    rfl

theorem programEnd_over {s : State} {t e : Nat} {y : Entry} (hr : running s = true) (he : (tileOf s t).entry = some e)
    (hs : (tileOf s t).stopped = false) (hh : (tileOf s t).halted = true) (hf : (tileOf s t).inflight = [])
    (hfence : ((tileOf s t).fences.all fun n => n == 0) = true) (hy : entryOf s e = some y) (hp : y.parent = none) :
    programEnd s t = settle (gangOver (releaseTile s t) e) := by
  have hg := gangOf_root hy hp
  have hover : programOver (tileOf s t) = true := by 
    simp only [programOver, he, hh, hf, hfence, List.isEmpty_nil, Option.isSome_some, Bool.and_self, Bool.or_true]
  have hcand : rankCandidates s e (tileOf s t).rank = s := by simp only [rankCandidates, hg]
  have hleft : candidatesLeft s e (tileOf s t).rank = false := by simp only [candidatesLeft, hg]
  have hres : rankRowsOut (takeResults (foldFreed s e (tileOf s t).rank) e t (tileOf s t).rank) e t = s := by
    simp only [foldFreed, hg, takeResults, rankRowsOut]
  unfold programEnd
  simp only [hr, hover, he, hs, hcand, hleft, hres]
  rfl

theorem gangOver_root {s : State} {e : Nat} {y : Entry} (hy : entryOf s e = some y) (hp : y.parent = none) (hst : y.status = none) :
    gangOver s e = if (tilesOf s [e]).isEmpty then setEntry s e { y with state := .retiring } else s := by
  simp only [gangOver, hy, hp, hst]
  cases (tilesOf s [e]).isEmpty <;> rfl

/-- Settles O36. -/
theorem waitsAndProgramEnd : Obligations.waitsAndProgramEnd := by
  unfold Obligations.waitsAndProgramEnd
  refine ⟨⟨?_, ?_⟩, ?_⟩
  · intro s t w g h hl u x hg
    have hbody := waitBody_local (t := t) hl hg
    refine ⟨fun hp hv => ?_, fun hp hv => ?_, fun hp => ?_⟩
    · rw [if_neg (ne_true_of_eq_false hp), if_pos hv] at hbody
      refine congrArg Host.Outcome.next ((issueTile_done (body := waitBody t) h hbody).trans ?_)
      rw [acquire, tileOf_setTile, setTile_setTile]
    · rw [if_neg (ne_true_of_eq_false hp), if_neg (Nat.not_le.2 hv)] at hbody
      exact congrArg Host.Outcome.next (issueTile_wait (body := waitBody t) h hbody)
    · rw [if_pos hp] at hbody
      exact congrArg Host.Outcome.next (issueTile_poisoned (body := waitBody t) h hbody)
  · intro s t v g hr he hs hw hg
    have hresume := waitResume_waiting hr he hs hw hg
    refine ⟨fun hmet => congrArg Host.Outcome.next (hresume.trans ?_), fun hmet hp => congrArg Host.Outcome.next (hresume.trans ?_),
      fun hmet hp => congrArg Host.Outcome.next (hresume.trans ?_)⟩
    · rw [if_pos hmet, advance, acquire]
      simp only [tileOf_setTile, setTile_setTile]
      rfl
    · rw [if_neg (ne_true_of_eq_false hmet), if_pos hp]
    · rw [if_neg (ne_true_of_eq_false hmet), if_neg (ne_true_of_eq_false hp)]
  · intro s t e y hr he hs hh hf hfence hy hp hst u
    refine ⟨congrArg Host.Outcome.next ((programEnd_over hr he hs hh hf hfence hy hp).trans ?_), tileOf_releaseTile he⟩
    rw [gangOver_root ((entryOf_releaseTile hf e).trans hy) hp hst]

end Sys2Proof.Machine
end

/-! SUPPORT. The instructions that go to a unit of their tile (R77 to R106): what their issue leaves. -/

section
namespace Sys2Proof.Machine

/-! ### An instruction goes to its unit -/

section
variable {u v : State} {t w : Nat} {f : InFlight} {effect : State → State × EffectEnd}

theorem queueUp_fine (h : effect (beforeEffect u t (withBefore u f)) = (v, .fine)) :
    queueUp u t w f effect = standQueued u t w (withBefore u f) v := by
  simp only [queueUp, h]

theorem queueUp_sent {l : List (Bool × BitVec 32)} (h : effect (beforeEffect u t (withBefore u f)) = (v, .sent l)) :
    queueUp u t w f effect = standQueued u t w { withBefore u f with remote := l } v := by
  simp only [queueUp, h]

theorem queueUp_failed {err : AccessErr} (h : effect (beforeEffect u t (withBefore u f)) = (v, .failed err)) :
    queueUp u t w f effect = failAccess v t err := by
  simp only [queueUp, h]

theorem queueUp_fault {cause : Nat} (h : effect (beforeEffect u t (withBefore u f)) = (v, .fault cause)) :
    queueUp u t w f effect = tileFault v t cause := by
  simp only [queueUp, h]

end

/-- Only a copy keeps what its destination held before it. -/
theorem withBefore_of_ne {u : State} {f : InFlight} (h : f.unit ≠ 2) : withBefore u f = f := if_neg h

/-- An instruction of another unit than the copy engine whose effect is fine stands in its queue. -/
theorem queueUp_stands {u v : State} {t w : Nat} {f : InFlight} {effect : State → State × EffectEnd} (hf : f.unit ≠ 2)
    (h : effect (beforeEffect u t f) = (v, .fine)) : queueUp u t w f effect = standQueued u t w f v := by
  have hw := withBefore_of_ne (u := u) hf
  rw [queueUp_fine (by rw [hw]; exact h), hw]

/-! ### Matrix and gate instructions -/

section
variable {u : State} {t w : Nat} {x : Tile}

theorem matrixBody_fault {cause : Nat} (h : matCause x w = some cause) : matrixBody t u x w = .fault cause := by
  simp only [matrixBody, h]

theorem matrixBody_outside (h : matCause x w = none) (hin : inStore (matFlight t x (matOp x w)).ranges = false) :
    matrixBody t u x w = .fault 0x06 := by
  simp only [matrixBody, h, hin, Bool.not_false, if_true]

theorem matrixBody_queued (h : matCause x w = none) (hin : inStore (matFlight t x (matOp x w)).ranges = true) :
    matrixBody t u x w = .queued (matFlight t x (matOp x w)) fun v => (matEffect t x (matOp x w) v, .fine) := by
  simp only [matrixBody, h, hin, Bool.not_true, Bool.false_eq_true, if_false]

theorem grunBody_fault {cause : Nat} (h : grunCause x w = some cause) : grunBody t u x w = .fault cause := by
  simp only [grunBody, h]

theorem grunBody_outside (h : grunCause x w = none) (hin : inStore (grunFlight t x (grunOp x w)).ranges = false) :
    grunBody t u x w = .fault 0x06 := by
  simp only [grunBody, h, hin, Bool.not_false, if_true]

theorem grunBody_queued (h : grunCause x w = none) (hin : inStore (grunFlight t x (grunOp x w)).ranges = true) :
    grunBody t u x w = .queued (grunFlight t x (grunOp x w)) fun v => (grunEffect t x (grunOp x w) v, .fine) := by
  simp only [grunBody, h, hin, Bool.not_true, Bool.false_eq_true, if_false]

theorem gloadBody_fault (h : localAddress x w 256 64 85 64 = none) : gloadBody t u x w = .fault 0x06 := by
  simp only [gloadBody, h]

theorem gloadBody_queued {a : Nat} (h : localAddress x w 256 64 85 64 = some a) :
    gloadBody t u x w = .queued (gloadFlight t (bitsOf w 95 90) a) fun v => (gloadEffect t (bitsOf w 95 90) a v, .fine) := by
  simp only [gloadBody, h]

/-- What the issue of a matrix instruction comes to, whichever of the three it is. -/
theorem issueTile_matrix {s : State} {op : Nat} (h : Issues s t op w) :
    let u := issueState s t w
    let x := tileOf u t
    let f := matFlight t x (matOp x w)
    (matCause x w = none → inStore f.ranges = true →
      issueTile s t op (matrixBody t) = standQueued u t w f (matEffect t x (matOp x w) (beforeEffect u t f))) ∧
    (matCause x w = none → inStore f.ranges = false → issueTile s t op (matrixBody t) = tileFault u t 0x06) ∧
    (∀ cause, matCause x w = some cause → issueTile s t op (matrixBody t) = tileFault u t cause) := by
  intro u x f
  exact ⟨fun hc hin => (issueTile_queued h (matrixBody_queued hc hin)).trans (queueUp_stands (show (0 : Nat) ≠ 2 by decide) rfl),
    fun hc hin => issueTile_fault h (matrixBody_outside hc hin), fun cause hc => issueTile_fault h (matrixBody_fault hc)⟩

end

/-! ### COPY and FILL -/

section
variable {u : State} {t w : Nat} {x : Tile}

theorem copyBody_fault {cause : Nat} (h : copyCause u t x w = some cause) : copyBody t u x w = .fault cause := by
  simp only [copyBody, h]

theorem copyBody_queued (h : copyCause u t x w = none) :
    copyBody t u x w = .queued ((copyOp x w).flight u t) fun v =>
      let r := runRows (fun v i => copyRow v t (copyOp x w).src (copyOp x w).dst (copyOp x w).nb i) (List.range (copyOp x w).nr) v []
      ((clashes ((copyOp x w).flight u t).reads ((copyOp x w).flight u t).writes).foldl scrub r.1, r.2) := by
  simp only [copyBody, h]

theorem fillBody_fault {cause : Nat} (h : fillCause u t x w = some cause) : fillBody t u x w = .fault cause := by
  simp only [fillBody, h]

theorem fillBody_queued (h : fillCause u t x w = none) :
    fillBody t u x w = .queued ((fillOp x w).flight u t) fun v =>
      runRows (fun v i => sideWrite v t (fillOp x w).dst ((fillOp x w).dst.addr i) (List.replicate (fillOp x w).nb (fillOp x w).pat))
        (List.range (fillOp x w).nr) v [] := by
  simp only [fillBody, h]

/-- A FILL reads nothing. -/
theorem beforeEffect_fill (u : State) (t : Nat) (o : FillOp) : beforeEffect u t (withBefore u (o.flight u t)) = u :=
  beforeEffect_reads rfl rfl

end

/-! ### SIGNAL and SREAD -/

theorem syncOf_release (u : State) (t mask g : Nat) : syncOf (release u t mask) g = syncOf u g := by
  unfold release modLoose modEntry
  split
  · split <;> rfl
  · rfl

section
variable {u : State} {t w : Nat} {x : Tile}

theorem signalBody_local {g : Nat} (hl : bitOf w 52 = false) (hg : syncIndex u x.ctx (counterIndex x w) = some g) :
    signalBody t u x w = .queued syncFlight fun v =>
      let z := release v t (bitsOf w 15 8)
      let r := addSyncBy z g (counterValue x w) (signalClock z t)
      if r.2 then (r.1, .fault 0x0E) else (foldContext r.1 (tileOf r.1 t).ctx, .fine) := by
  simp only [signalBody, hl, hg, Bool.false_eq_true, if_false]

theorem signalBody_outside (hl : bitOf w 52 = false) (hg : syncIndex u x.ctx (counterIndex x w) = none) :
    signalBody t u x w = .fault 0x09 := by
  simp only [signalBody, hl, hg, Bool.false_eq_true, if_false]

theorem signalBody_remote {j : Word64} (hl : bitOf w 52 = true) (ha : u.span.active = true) (hj : spanJobOf u x.ctx = some j) :
    signalBody t u x w = .queued syncFlight fun v =>
      let z := release v t (bitsOf w 15 8)
      let r := sendTracked z x.ctx 3 (bitsOf w 67 53) (((spanJobOf z x.ctx).map spanJobNum).getD 0) (counterIndex x w)
        (BitVec.ofNat 64 (counterValue x w)) (fun _ _ => []) .va
      (r.2, .sent [r.1]) := by
  simp only [signalBody, hl, ha, hj, if_true]

theorem signalBody_inactive (hl : bitOf w 52 = true) (ha : u.span.active = false) : signalBody t u x w = .fault 0x0B := by
  simp only [signalBody, hl, ha, if_true]

theorem sreadBody_good {g : Nat} (hl : bitOf w 52 = false) (hi : bitOf w 68 = false)
    (hg : syncIndex u x.ctx (counterIndex x w) = some g) (hp : (syncOf u g).poisoned = false) :
    sreadBody t u x w = .queued syncFlight fun v =>
      (setTile v t ((tileOf v t).setSreg (bitsOf w 73 69) (syncOf v g).value.toNat), .fine) := by
  simp only [sreadBody, hl, hi, hg, hp, Bool.or_self, Bool.false_eq_true, if_false]

theorem sreadBody_poisoned {g : Nat} (hl : bitOf w 52 = false) (hi : bitOf w 68 = false)
    (hg : syncIndex u x.ctx (counterIndex x w) = some g) (hp : (syncOf u g).poisoned = true) : sreadBody t u x w = .poisoned := by
  simp only [sreadBody, hl, hi, hg, hp, Bool.or_self, Bool.false_eq_true, if_false, if_true]

end

/-- An instruction of the sync unit finds nothing changed before it. -/
theorem beforeEffect_sync (u : State) (t : Nat) : beforeEffect u t (withBefore u syncFlight) = u := beforeEffect_reads rfl rfl

/-! ### Bundles that fault -/

section
variable {s : State} {t op : Nat} {body : State → Tile → Nat → TileIssue} (hr : running s = true)
  (he : (tileOf s t).entry.isSome = true) (hh : (tileOf s t).halted = false) (hs : (tileOf s t).stopped = false)
  (hw : (tileOf s t).waitOn = none)
include hr he hh hs hw

/-- A tile whose sequencer runs. -/
theorem sequencer_runs :
    (!running s || (tileOf s t).entry.isNone || (tileOf s t).halted || (tileOf s t).stopped || (tileOf s t).waitOn.isSome) = false := by
  obtain ⟨e, he⟩ := Option.isSome_iff_exists.1 he
  simp only [hr, he, hh, hs, hw]
  rfl

theorem issueTile_past (hlen : (tileOf s t).len ≤ (tileOf s t).pc) : issueTile s t op body = tileFault s t 0x0F := by
  unfold issueTile
  dsimp only
  rw [if_neg (ne_true_of_eq_false (sequencer_runs hr he hh hs hw)), if_pos hlen]

theorem issueTile_reserved {w : Nat} (hin : (tileOf s t).pc < (tileOf s t).len) (hf : bundleAt s t = some w)
    (hfence : fenceWait (tileOf s t) w = false) (hq : queueFull (tileOf s t) (unitOf (opOf w)) = false)
    (hslot : slotWait (tileOf s t) w = false) :
    (isTileOp (opOf w) = false → issueTile s t op body = tileFault (fetchBundle s t).2 t 0x01) ∧
    (isTileOp (opOf w) = true → bundleBad w = true → issueTile s t op body = tileFault (fetchBundle s t).2 t 0x02) := by
  have hfetch : fetchBundle s t = (.ok w, (fetchBundle s t).2) := by
    unfold bundleAt at hf
    cases hb : fetchBundle s t with
    | mk a v =>
      rw [hb] at hf
      cases a with
      | ok k => cases hf; rfl
      | error f => cases hf
  generalize (fetchBundle s t).2 = s1 at hfetch
  have hgo : (fenceWait (tileOf s t) w || queueFull (tileOf s t) (unitOf (opOf w)) || slotWait (tileOf s t) w) = false := by
    rw [hfence, hq, hslot]; rfl
  unfold issueTile
  dsimp only
  rw [if_neg (ne_true_of_eq_false (sequencer_runs hr he hh hs hw)), if_neg (Nat.not_le.2 hin), hfetch]
  dsimp only
  rw [if_neg (ne_true_of_eq_false hgo)]
  refine ⟨fun hop => if_pos (by rw [hop]; rfl), fun hop hbad => ?_⟩
  rw [if_neg (by rw [hop]; decide), if_pos hbad]

end

/-! ### What COPY, FILL, SIGNAL and SREAD come to -/

/-- The rows of a COPY end its issue as they end: it stands in its queue, or its tile fails. -/
theorem issueTile_copy {s : State} {t w : Nat} (h : Issues s t 0x40 w) :
    let u := issueState s t w
    let o := copyOp (tileOf u t) w
    let f := withBefore u (o.flight u t)
    let lost (v : State) : State := (clashes f.reads f.writes).foldl scrub v
    copyCause u t (tileOf u t) w = none →
      (∀ v l, runRows (fun v i => copyRow v t o.src o.dst o.nb i) (List.range o.nr) (beforeEffect u t f) [] = (v, .sent l) →
        issueTile s t 0x40 (copyBody t) = standQueued u t w { f with remote := l } (lost v)) ∧
      (∀ v err, runRows (fun v i => copyRow v t o.src o.dst o.nb i) (List.range o.nr) (beforeEffect u t f) [] = (v, .failed err) →
        issueTile s t 0x40 (copyBody t) = failAccess (lost v) t err) := by
  intro u o f lost hc
  have hqueue := issueTile_queued h (copyBody_queued hc)
  refine ⟨fun v l hrun => hqueue.trans (queueUp_sent ?_), fun v err hrun => hqueue.trans (queueUp_failed ?_)⟩
  · exact congrArg (fun r : State × EffectEnd => (lost r.1, r.2)) hrun
  · exact congrArg (fun r : State × EffectEnd => (lost r.1, r.2)) hrun

theorem issueTile_fill {s : State} {t w : Nat} (h : Issues s t 0x41 w) :
    let u := issueState s t w
    let o := fillOp (tileOf u t) w
    let f := withBefore u (o.flight u t)
    fillCause u t (tileOf u t) w = none →
      (∀ v l, runRows (fun v i => sideWrite v t o.dst (o.dst.addr i) (List.replicate o.nb o.pat)) (List.range o.nr) u [] = (v, .sent l) →
        issueTile s t 0x41 (fillBody t) = standQueued u t w { f with remote := l } v) ∧
      (∀ v err, runRows (fun v i => sideWrite v t o.dst (o.dst.addr i) (List.replicate o.nb o.pat)) (List.range o.nr) u [] =
          (v, .failed err) → issueTile s t 0x41 (fillBody t) = failAccess v t err) := by
  intro u o f hc
  have hqueue := issueTile_queued h (fillBody_queued hc)
  refine ⟨fun v l hrun => hqueue.trans (queueUp_sent ?_), fun v err hrun => hqueue.trans (queueUp_failed ?_)⟩
  · rw [beforeEffect_fill]
    exact hrun
  · rw [beforeEffect_fill]
    exact hrun

section
variable {s : State} {t w g : Nat} (h : Issues s t 0x50 w) (hl : bitOf w 52 = false)
  (hg : syncIndex (issueState s t w) (tileOf (issueState s t w) t).ctx (counterIndex (tileOf (issueState s t w) t) w) = some g)
include h hl hg

/-- A local SIGNAL stands in its queue, or its counter's sum is past the end. -/
theorem issueTile_signal {r : State × Bool}
    (hadd : addSyncBy (release (issueState s t w) t (bitsOf w 15 8)) g (counterValue (tileOf (issueState s t w) t) w)
      (signalClock (release (issueState s t w) t (bitsOf w 15 8)) t) = r) :
    issueTile s t 0x50 (signalBody t) =
      if r.2 then tileFault r.1 t 0x0E
      else standQueued (issueState s t w) t w syncFlight (foldContext r.1 (tileOf r.1 t).ctx) := by
  refine (issueTile_queued h (signalBody_local hl hg)).trans ?_
  obtain ⟨v, b⟩ := r
  cases b with
  | true =>
    refine (queueUp_fault (cause := 0x0E) (v := v) ?_).trans rfl
    dsimp only
    rw [beforeEffect_sync, hadd]
    rfl
  | false =>
    refine (queueUp_fine (v := foldContext v (tileOf v t).ctx) ?_).trans rfl
    dsimp only
    rw [beforeEffect_sync, hadd]
    rfl

end

/-- Settles O34. -/
theorem queuedInstructions : Obligations.queuedInstructions := by
  unfold Obligations.queuedInstructions
  refine ⟨⟨?_, ?_, ?_⟩, ⟨?_, ?_⟩, ⟨?_, ?_⟩, ?_⟩
  · intro s t w op row hrow h
    obtain ⟨hgood, hout, hbad⟩ := issueTile_matrix h
    have hexec : exec row s = .next (issueTile s t op (matrixBody t)) := by
      simp only [List.mem_cons, Prod.mk.injEq, List.not_mem_nil, or_false] at hrow
      rcases hrow with ⟨rfl, rfl⟩ | ⟨rfl, rfl⟩ | ⟨rfl, rfl⟩ <;> rfl
    rw [hexec]
    exact ⟨fun hc hin => congrArg Host.Outcome.next (hgood hc hin), fun hc hin => congrArg Host.Outcome.next (hout hc hin),
      fun cause hc => congrArg Host.Outcome.next (hbad cause hc)⟩
  · intro s t w h u g
    exact ⟨fun a ha => congrArg Host.Outcome.next ((issueTile_queued h (gloadBody_queued ha)).trans
      (queueUp_stands (show (1 : Nat) ≠ 2 by decide) rfl)),
      fun ha => congrArg Host.Outcome.next (issueTile_fault h (gloadBody_fault ha))⟩
  · intro s t w h u x f
    exact ⟨fun hc hin => congrArg Host.Outcome.next ((issueTile_queued h (grunBody_queued hc hin)).trans
      (queueUp_stands (show (1 : Nat) ≠ 2 by decide) rfl)),
      fun hc hin => congrArg Host.Outcome.next (issueTile_fault h (grunBody_outside hc hin)),
      fun cause hc => congrArg Host.Outcome.next (issueTile_fault h (grunBody_fault hc))⟩
  · intro s t w h u x o f lost
    refine ⟨fun a b hc hx hy _ _ ha hb => congrArg Host.Outcome.next ?_, fun v l hc hrun => congrArg Host.Outcome.next ?_,
      fun v err hc hrun => congrArg Host.Outcome.next ?_,
      fun cause hc => congrArg Host.Outcome.next (issueTile_fault h (copyBody_fault hc))⟩
    · exact (issueTile_copy h hc).1 _ _ (runCopy t a b o.nb o.src o.dst hx hy (List.range o.nr) _ ha hb)
    · exact (issueTile_copy h hc).1 v l hrun
    · exact (issueTile_copy h hc).2 v err hrun
  · intro s t w h u x o f
    refine ⟨fun b hc hy hb => congrArg Host.Outcome.next ?_, fun v l hc hrun => congrArg Host.Outcome.next ?_,
      fun v err hc hrun => congrArg Host.Outcome.next ?_,
      fun cause hc => congrArg Host.Outcome.next (issueTile_fault h (fillBody_fault hc))⟩
    · exact (issueTile_fill h hc).1 _ _ (runFill t b o.dst _ hy (List.range o.nr) _ hb)
    · exact (issueTile_fill h hc).1 v l hrun
    · exact (issueTile_fill h hc).2 v err hrun
  · intro s t w h u x i v
    have hkeep (g : Nat) : syncOf v g = syncOf u g := syncOf_release u t (bitsOf w 15 8) g
    refine ⟨fun g hl hg => ⟨fun hp hn => congrArg Host.Outcome.next ?_, fun hp => congrArg Host.Outcome.next ?_,
      fun hp hn => congrArg Host.Outcome.next ?_⟩, fun hl hg => congrArg Host.Outcome.next (issueTile_fault h (signalBody_outside hl hg)),
      fun j hl ha hj => congrArg Host.Outcome.next ?_,
      fun hl ha => congrArg Host.Outcome.next (issueTile_fault h (signalBody_inactive hl ha))⟩
    · refine (issueTile_signal h hl hg (addSyncBy_plus (by rw [hkeep]; exact hp) (by rw [hkeep]; exact hn))).trans ?_
      rw [hkeep]
      rfl
    · exact (issueTile_signal h hl hg (addSyncBy_poisoned (by rw [hkeep]; exact hp))).trans rfl
    · refine (issueTile_signal h hl hg (addSyncBy_over (by rw [hkeep]; exact hp) (by rw [hkeep]; exact hn))).trans ?_
      rw [hkeep]
      rfl
    · refine (issueTile_queued h (signalBody_remote hl ha hj)).trans ((queueUp_sent ?_).trans rfl)
      rw [beforeEffect_sync]
  · intro s t w g h hl hi u x hg
    refine ⟨fun hp => congrArg Host.Outcome.next ((issueTile_queued h (sreadBody_good hl hi hg hp)).trans ((queueUp_fine ?_).trans rfl)),
      fun hp => congrArg Host.Outcome.next (issueTile_poisoned h (sreadBody_poisoned hl hi hg hp))⟩
    rw [beforeEffect_sync]
  · intro s t op body hr he hh hs hw
    exact ⟨issueTile_past hr he hh hs hw, fun w hin hf hfence hq hslot => issueTile_reserved hr he hh hs hw hin hf hfence hq hslot⟩

end Sys2Proof.Machine
end

/-! SUPPORT. Fences, completion, and what the queued instructions do to their tile (R77, R78, R87 to R92, R104). -/

section
namespace Sys2Proof.Machine

/-! ### Standing in a queue -/

/-- An instruction that touches no byte races with nothing. -/
theorem races_noRanges (u : State) (t : Nat) {f : InFlight} (h : f.ranges = []) :
    readRaces u t f = [] ∧ writeRaces u t f = [] ∧ overRaces u t f = [] := by
  simp only [InFlight.ranges, List.append_eq_nil_iff] at h
  obtain ⟨⟨⟨hr, hw⟩, hsr⟩, hsw⟩ := h
  simp [readRaces, writeRaces, overRaces, hr, hw, hsr, hsw, clashes]

theorem standQueued_quiet {s u : State} {t w : Nat} {f : InFlight} (h : meetsNothing s t f.unit ∨ f.ranges = []) :
    standQueued s t w f u = setTile u t { ((tileOf u t).moveFence (armed w) fun n => n + 1) with
      inflight := (tileOf u t).inflight ++ [{ f with fence := armed w, spoiled := [] }], pc := (tileOf u t).pc + 1 } := by
  have hraces : readRaces s t f = [] ∧ writeRaces s t f = [] ∧ overRaces s t f = [] :=
    h.elim (fun hm => ⟨readRaces_quiet hm, writeRaces_quiet hm, overRaces_quiet hm⟩) (races_noRanges s t)
  obtain ⟨hr, hw, ho⟩ := hraces
  have hlines : settleLines s t f u = u := by simp [settleLines, hr]
  have hafter : afterEffect s t f u = u := by simp [afterEffect, hw, ho]
  have hspoil : spoiledBy s t f = [] := by simp [spoiledBy, hw]
  simp only [standQueued, hlines, hafter, hspoil]

/-! ### INSTRUCTION_COMPLETE -/

theorem instructionComplete_done {s : State} {t i : Nat} {f : InFlight} (hr : ready s = true) (hl : s.dbg.frozen ≠ some .lrs)
    (hf : (tileOf s t).inflight[i]? = some f) (hc : mayComplete s (tileOf s t) i f = true) :
    instructionComplete s t i = noteDone (setTile s t { ((tileOf s t).moveFence f.fence fun n => n - 1) with
      inflight := (tileOf s t).inflight.eraseIdx i }) t f := by
  simp [instructionComplete, hf, hr, hl, hc]

theorem noteDone_noRanges (u : State) (t : Nat) {f : InFlight} (h : f.ranges = []) : noteDone u t f = u := by
  simp only [InFlight.ranges, List.append_eq_nil_iff] at h
  obtain ⟨⟨⟨hr, hw⟩, hsr⟩, hsw⟩ := h
  simp [noteDone, hr, hw, hsr, hsw]

/-! ### Effects -/

theorem tileOf_runGate (s : State) (t i : Nat) (g : GateJob) : tileOf (runGate s t g) i = tileOf s i := by
  rw [tileOf, runGate_tiles]
  rfl

theorem tileOf_countTile (s : State) (a k n i : Nat) : tileOf (countTile s a k n) i = tileOf s i := by
  rw [tileOf, (hostOnly_countTile (HostOnly.refl s) a k n).tiles]
  rfl

theorem localMem_countTile (s : State) (a k n : Nat) : (countTile s a k n).localMem = s.localMem := by
  rw [hostOnly_countTile (HostOnly.refl s) a k n]

/-- Under HOLD a matrix instruction keeps its result. -/
theorem matEffect_hold {s : State} {t : Nat} {x : Tile} {o : MatOp} (h : o.hold = true) :
    matEffect t x o s = setTile (countTile s t 0 ((matResult s t o x).saturated o.hold)) t
      { foldOnto s t (tileOf s t) o (matResult s t o x) with
        held := some { m := o.m, n := o.n, ways := o.ways, bank := passBank x o 0 } } := by
  simp only [matEffect, h, tileOf_countTile, if_true]

/-- What a matrix instruction drains through the gate pipe. -/
def drainJob (s : State) (t : Nat) (x : Tile) (o : MatOp) : GateJob :=
  { prog := o.drain x, garg := o.garg, row0 := o.so, m := o.m, n := o.n
    a := fun i c => ((matResult s t o x).value o.n i c).1, ea := fun i _ => (matResult s t o x).exps.getD i 0
    b := fun i c => if o.dbe then tensorElem s t o.db (o.so + i) c else 0
    eb := fun i c => if o.dbe then tensorExp s t o.db (o.so + i) c else 0, dout := o.dout }

theorem matEffect_drain {s : State} {t : Nat} {x : Tile} {o : MatOp} (h : o.hold = false) :
    matEffect t x o s = runGate (setTile (countTile s t 0 ((matResult s t o x).saturated o.hold)) t
      { foldOnto s t (tileOf s t) o (matResult s t o x) with held := none }) t (drainJob s t x o) := by
  simp only [matEffect, h, tileOf_countTile, Bool.false_eq_true, if_false, drainJob]

/-- What a GRUN runs through the gate pipe. -/
def grunJob (s : State) (t : Nat) (x : Tile) (o : GrunOp) : GateJob :=
  { prog := o.prog x, garg := o.garg, row0 := o.so, m := o.m, n := o.n
    a := fun i c => tensorElem s t o.da (o.si + i) c, ea := fun i c => tensorExp s t o.da (o.si + i) c
    b := fun i c => if o.dbe then tensorElem s t o.db (o.si + i) c else 0
    eb := fun i c => if o.dbe then tensorExp s t o.db (o.si + i) c else 0, dout := o.dout }

theorem grunEffect_eq (s : State) (t : Nat) (x : Tile) (o : GrunOp) :
    grunEffect t x o s = setTile (runGate s t (grunJob s t x o)) t { tileOf s t with held := none } := by
  rw [← tileOf_runGate s t t (grunJob s t x o)]
  rfl

theorem gloadEffect_good {s : State} {t g a : Nat} {l : List Word128} (h : checkSlot (slotImage s t a) = some l) :
    gloadEffect t g a s = setTile s t { tileOf s t with slots := tblPut (tileOf s t).slots g l } := by
  simp only [gloadEffect, h]

theorem gloadEffect_bad {s : State} {t g a : Nat} (h : checkSlot (slotImage s t a) = none) :
    gloadEffect t g a s = countTile (setTile s t { tileOf s t with slots := tblDel (tileOf s t).slots g }) t 3 1 := by
  simp only [gloadEffect, h]

theorem tblGet_tblDel {α : Type} (t : Tbl α) (k : Nat) : tblGet (tblDel t k) k = none :=
  tblGet_filter_none (by simp) t

/-! ### What a drain and a GRUN leave alone -/

theorem grunEffect_frame {s : State} {t k : Nat} {x : Tile} {o : GrunOp} (hw : s.localMem.wf = true)
    (ht : ((o.prog x).filter isTopk).length ≤ 1) (hn : 0 < o.n)
    (hout : outsideAll t k ((grunFlight t x o).writes ++ (grunFlight t x o).sideWrites)) :
    memRead (grunEffect t x o s).localMem k = memRead s.localMem k := by
  rw [grunEffect_eq]
  exact runGate_frame s t k (grunJob s t x o) hn ht hw hout

theorem matEffect_frame {s : State} {t k : Nat} {x : Tile} {o : MatOp} (hw : s.localMem.wf = true)
    (ht : ((o.drain x).filter isTopk).length ≤ 1) (hn : 0 < o.n) (hh : o.hold = false)
    (hout : outsideAll t k ((matFlight t x o).writes ++ (matFlight t x o).sideWrites)) :
    memRead (matEffect t x o s).localMem k = memRead s.localMem k := by
  have hwrites : (matFlight t x o).writes = outRanges t (o.drain x) o.dout o.so o.m o.n := if_neg (ne_true_of_eq_false hh)
  rw [hwrites] at hout
  rw [matEffect_drain hh]
  have hmem := localMem_countTile s t 0 ((matResult s t o x).saturated o.hold)
  refine (runGate_frame _ t k (drainJob s t x o) hn ht (by rw [setTile_localMem, hmem]; exact hw) hout).trans ?_
  rw [setTile_localMem, hmem]

/-- Settles O35. -/
theorem fencesAndEffects : Obligations.fencesAndEffects := by
  unfold Obligations.fencesAndEffects
  refine ⟨⟨fun s u t w f h => standQueued_quiet h, ?_⟩, ⟨?_, ?_, ?_⟩, ?_⟩
  · intro s t i f hr hl hf hc u
    exact ⟨congrArg Host.Outcome.next (instructionComplete_done hr hl hf hc), noteDone_noRanges u t, noteDone_eq u t f⟩
  · intro s t x o y
    refine ⟨fun h => ?_, fun h => ?_⟩
    · rw [matEffect_hold h]
      exact ⟨tileOf_setTile .., localMem_countTile ..⟩
    · rw [matEffect_drain h, tileOf_runGate]
      exact tileOf_setTile ..
  · intro s t x o
    rw [grunEffect_eq]
    exact tileOf_setTile ..
  · intro s t g a
    refine ⟨fun l h => gloadEffect_good h, fun h => ?_⟩
    rw [gloadEffect_bad h, tileOf_countTile, tileOf_setTile, localMem_countTile]
    exact ⟨tblGet_tblDel .., rfl⟩
  · intro s t k x hw
    exact ⟨fun o ht hn hout => grunEffect_frame hw ht hn hout, fun o ht hn hh hout => matEffect_frame hw ht hn hh hout⟩

end Sys2Proof.Machine
end

/-! SUPPORT. Frame time: boundaries without a pulse, the Almanac and panic (R231 to R240, R255). -/

section
namespace Sys2Proof.Machine

/-- A tracker whose Device Time is a tick past the state's own. -/
def aheadTracker : Time := { Time.reset with locked := true, pm := 1, dtime := 1 }

/-- Refutes O37: the statement takes any tracker, and one whose Device Time is past the boundary's tick leaves a phase that is not 0. -/
theorem not_frameBoundary : ¬ Obligations.frameBoundary := by
  unfold Obligations.frameBoundary
  intro h
  have hphase : phaseOf (boundary State.reset aheadTracker) = 0 := (h State.reset aheadTracker).1
  exact absurd hphase (by decide)

/-! ### Boundaries without a pulse -/

section
variable {s : State} (ht : ticking s = true)
include ht

theorem freeBoundary_free (hl : s.time.locked = false) (hdue : s.time.frameStart.toNat + s.time.period ≤ now s) :
    freeBoundary s = settleLive (boundary s { s.time with lastPulse := none }) := by
  simp [freeBoundary, ht, hl, hdue]

theorem freeBoundary_off (hl : s.time.locked = true) (hoff : s.time.enOff = true) (hdue : s.time.offAt.toNat ≤ now s) :
    freeBoundary s = settleLive (boundary s s.time.goFree) := by
  simp [freeBoundary, ht, hl, hoff, hdue]

theorem lateEdge_due (hl : s.time.locked = true) (hoff : s.time.enOff = false)
    (hdue : s.time.expected.toNat + solstice s.time ≤ now s) :
    lateEdge s =
      if s.time.nmiss < 3 then
        settleLive (boundary (bump s 2 1)
          { s.time with nmiss := s.time.nmiss + 1, lastPulse := none, expected := s.time.expected + BitVec.ofNat 64 s.time.pm })
      else
        settleLive (raiseAll (boundary s s.time.goFree) 0x04 0 (boundary s s.time.goFree).time.frameNum.toNat) := by
  have hgo : (!ticking s || !s.time.locked || s.time.enOff || decide (now s < s.time.expected.toNat + solstice s.time)) = false := by
    simp [ht, hl, hoff, hdue]
  unfold lateEdge
  dsimp only
  rw [if_neg (ne_true_of_eq_false hgo)]

theorem phaseHold_greatest (hl : s.time.locked = true) (hp : phaseOf s = 16777215) :
    phaseHold s = { s with time := { s.time with hold := true } } := by
  simp [phaseHold, ht, hl, hp]

end

/-- A write of the PF that the stewards serve takes effect. -/
theorem pfWrite_serves {s : State} (h : servesWrite s 0) (k : State → State) : pfWrite s 0 k = k s := emuWrite_serves h _

theorem fsyncCtrl_off_free {s : State} (hl : s.time.locked = false) :
    fsyncCtrl s 0 = { s with time := { s.time with en := false } } := by
  have hfree : ¬(s.time.locked = true ∧ (!s.time.enOff) = true) := by simp [hl]
  exact if_neg hfree

theorem fsyncCtrl_off_locked {s : State} (hl : s.time.locked = true) (ho : s.time.enOff = false) :
    fsyncCtrl s 0 = { s with time := { s.time with
      en := false, enOff := true, offAt := BitVec.ofNat 64 (max s.time.expected.toNat (now s + 1)) } } := by
  have hlocked : s.time.locked = true ∧ (!s.time.enOff) = true := ⟨hl, by simp [ho]⟩
  exact if_pos hlocked

/-! ### The Almanac -/

theorem almanacCtrl_reads {s : State} (h : s.almanac.checking = none) :
    almanacCtrl s 1 = noticed { (readImage s).2 with
      almanac := { (readImage s).2.almanac with checking := some (readImage s).1 } } := by
  have hcommit : (1 : BitVec 32).getLsbD 0 = true := by decide
  have hstray : countIf (strayBits 1 1) s 0 = s := rfl
  simp only [almanacCtrl, hcommit, if_true, h, hstray]

theorem almanacCtrl_busy {s : State} {img : List Byte} (h : s.almanac.checking = some img) : almanacCtrl s 1 = ignored s 0 := by
  have hcommit : (1 : BitVec 32).getLsbD 0 = true := by decide
  simp only [almanacCtrl, hcommit, if_true, h]

theorem almanacCheckEnd_good {s : State} {img : List Byte} (h : s.almanac.checking = some img) (he : imageError img = 0) :
    almanacCheckEnd s = { s with almanac := { s.almanac with checking := none, err := 0, queued := some (imageWindows img) } } := by
  simp only [almanacCheckEnd, h, he, if_true]

theorem almanacCheckEnd_bad {s : State} {img : List Byte} (h : s.almanac.checking = some img) (he : imageError img ≠ 0) :
    almanacCheckEnd s = { s with almanac := { s.almanac with checking := none, err := imageError img } } := by
  simp only [almanacCheckEnd, h, if_neg he]

/-! ### Panic -/

theorem panicRaise_cause {s : State} (he : s.sched.panicEn = true) (hp : s.sched.panic = false) (hc : panicCause s = true) :
    panicRaise s = bump { s with sched := { s.sched with panic := true } } 3 1 := by
  simp [panicRaise, he, hp, hc]

theorem panicRelease_over {s : State} (h : s.sched.panicEn = false ∨ panicCause s = false) :
    panicRelease s = { s with sched := { s.sched with panic := false } } := by
  have hover : (s.sched.panicEn && panicCause s) = false := by rcases h with h | h <;> simp [h]
  exact if_neg (ne_true_of_eq_false hover)

theorem panicRelease_held {s : State} (he : s.sched.panicEn = true) (hc : panicCause s = true) : panicRelease s = s :=
  if_pos (by rw [he, hc]; rfl)

/-- Settles O39. -/
theorem almanacPanicAndFreeFrames : Obligations.almanacPanicAndFreeFrames := by
  unfold Obligations.almanacPanicAndFreeFrames
  refine ⟨?_, ?_, ⟨?_, ?_, ?_, ?_⟩, ?_⟩
  · intro s ht t
    refine ⟨fun hl hdue => congrArg Host.Outcome.next (freeBoundary_free ht hl hdue),
      fun hl hoff hdue => congrArg Host.Outcome.next (freeBoundary_off ht hl hoff hdue),
      fun hl hoff hdue hn => congrArg Host.Outcome.next ((lateEdge_due ht hl hoff hdue).trans (if_pos hn)),
      fun hl hoff hdue hn => congrArg Host.Outcome.next ((lateEdge_due ht hl hoff hdue).trans (if_neg (Nat.not_lt.2 hn))),
      fun hl hp => congrArg Host.Outcome.next (phaseHold_greatest ht hl hp)⟩
  · intro s hserve
    have hrow : exec (.fsyncDisable 0) s = .next (fsyncCtrl s 0) :=
      congrArg Host.Outcome.next (pfWrite_serves hserve fun u => fsyncCtrl u 0)
    exact ⟨fun hl => by rw [hrow, fsyncCtrl_off_free hl], fun hl ho => by rw [hrow, fsyncCtrl_off_locked hl ho]⟩
  · intro s hserve hc r
    exact congrArg Host.Outcome.next ((pfWrite_serves hserve fun u => almanacCtrl u 1).trans (almanacCtrl_reads hc))
  · intro s img hserve hc
    exact congrArg Host.Outcome.next ((pfWrite_serves hserve fun u => almanacCtrl u 1).trans (almanacCtrl_busy hc))
  · intro s img hc
    exact ⟨fun he => congrArg Host.Outcome.next (almanacCheckEnd_good hc he),
      fun he => congrArg Host.Outcome.next (almanacCheckEnd_bad hc he)⟩
  · intro s hw
    exact congrArg Host.Outcome.next (if_neg hw)
  · intro s
    exact ⟨fun he hp hc => congrArg Host.Outcome.next (panicRaise_cause he hp hc),
      fun h => congrArg Host.Outcome.next (panicRelease_over h), fun he hc => congrArg Host.Outcome.next (panicRelease_held he hc)⟩

end Sys2Proof.Machine
end

/-! SUPPORT. Leases, grace periods, attachment and function resets (R373 to R381, R496 to R503). -/

section
namespace Sys2Proof.Machine

/-! ### HIF_LEASE -/

theorem leaseWrite_open {s : State} {f : Nat} {v : BitVec 32} (ho : barOpen s f = true) :
    leaseWrite s f v =
      let x := fnOf s f
      let p := v.extractLsb' 0 16
      let inRange := decide (10 ≤ p.toNat) && decide (p.toNat ≤ 60000)
      let s1 := setFn s f { x with leasePeriod := if inRange then p else x.leasePeriod, grace := v.extractLsb' 16 8 }
      let s2 := if v.getLsbD 31 && decide (x.state = .attached) then startLease s1 f else s1
      countIf (!inRange || strayBits v 0x80FFFFFF || (v.getLsbD 31 && !decide (x.state = .attached))) s2 f := by
  unfold leaseWrite
  rw [if_neg (by simp [ho])]

/-- The lease that a function's new values start. -/
theorem startLease_setFn (s : State) (f : Nat) (x : Fn) :
    startLease (setFn s f x) f = setFn s f { x with leaseEnd := BitVec.ofNat 64 (timerNow s + 1000000 * x.leasePeriod.toNat) } := by
  unfold startLease
  rw [fnOf_setFn, setFn_setFn]
  rfl

section
variable {s : State} {f : Nat} {v : BitVec 32} (ho : barOpen s f = true) (hs : strayBits v 0x80FFFFFF = false)
include ho hs

theorem leaseWrite_inRange (hp : 10 ≤ (v.extractLsb' 0 16).toNat ∧ (v.extractLsb' 0 16).toNat ≤ 60000) :
    let kept : Fn := { fnOf s f with leasePeriod := v.extractLsb' 0 16, grace := v.extractLsb' 16 8 }
    leaseWrite s f v =
      if v.getLsbD 31 = true then
        if (fnOf s f).state = .attached then
          setFn s f { kept with leaseEnd := BitVec.ofNat 64 (timerNow s + 1000000 * (v.extractLsb' 0 16).toNat) }
        else ignored (setFn s f kept) f
      else setFn s f kept := by
  rw [leaseWrite_open ho]
  have hin : (decide (10 ≤ (v.extractLsb' 0 16).toNat) && decide ((v.extractLsb' 0 16).toNat ≤ 60000)) = true :=
    Bool.and_eq_true_iff.2 ⟨decide_eq_true hp.1, decide_eq_true hp.2⟩
  cases hv : v.getLsbD 31 <;> by_cases hx : (fnOf s f).state = .attached <;>
    simp only [hin, hx, hs, countIf, startLease_setFn] <;> rfl

theorem leaseWrite_outOfRange (hp : (v.extractLsb' 0 16).toNat < 10 ∨ 60000 < (v.extractLsb' 0 16).toNat) :
    let kept : Fn := { fnOf s f with leasePeriod := (fnOf s f).leasePeriod, grace := v.extractLsb' 16 8 }
    leaseWrite s f v =
      if v.getLsbD 31 = true ∧ (fnOf s f).state = .attached then
        ignored (setFn s f { kept with
          leaseEnd := BitVec.ofNat 64 (timerNow s + 1000000 * (fnOf s f).leasePeriod.toNat) }) f
      else ignored (setFn s f kept) f := by
  rw [leaseWrite_open ho]
  have hin : (decide (10 ≤ (v.extractLsb' 0 16).toNat) && decide ((v.extractLsb' 0 16).toNat ≤ 60000)) = false := by
    rcases hp with hp | hp
    · simp only [decide_eq_false (Nat.not_le.2 hp), Bool.false_and]
    · simp only [decide_eq_false (Nat.not_le.2 hp), Bool.and_false]
  cases hv : v.getLsbD 31 <;> by_cases hx : (fnOf s f).state = .attached <;>
    simp only [hin, hx, hs, countIf, startLease_setFn] <;> rfl

end

/-! ### Orphans -/

theorem orphanNow_live {s : State} {f : Nat} (hf : s.dbg.frozen = none) :
    orphanNow s f = raiseEvent (endAllRequests (setFn s f { fnOf s f with
      state := .orphaned, graceEnd := BitVec.ofNat 64 (now s + 1000000000 * (fnOf s f).grace.toNat), attachPend := false
      orphanAtThaw := false }) f stCancelled) 0 0x08 f 0 := by
  simp [orphanNow, hf]

theorem orphan_live {s : State} {f : Nat} (hf : s.dbg.frozen = none) :
    orphan s f = if (fnOf s f).grace = 0 then graceEnds (orphanNow s f) f else orphanNow s f := by
  simp [orphan, hf]

theorem leaseExpiry_due {s : State} {f : Nat} (hs : (fnOf s f).state = .attached) (hd : (fnOf s f).leaseEnd.toNat ≤ now s)
    (hl : s.lrs.active = false) : leaseExpiry s f = orphan s f := by
  simp [leaseExpiry, hs, hd, hl]

theorem leaseExpiry_early {s : State} {f : Nat} (hd : now s < (fnOf s f).leaseEnd.toNat) : leaseExpiry s f = s := by
  simp [leaseExpiry, Nat.not_le.2 hd]

theorem graceExpiry_due {s : State} {f : Nat} (hs : (fnOf s f).state = .orphaned) (hd : (fnOf s f).graceEnd.toNat ≤ now s)
    (hl : s.lrs.active = false) (hf : s.dbg.frozen = none) : graceExpiry s f = graceEnds s f := by
  simp [graceExpiry, hs, hd, hl, hf]

theorem graceExpiry_early {s : State} {f : Nat} (hd : now s < (fnOf s f).graceEnd.toNat) : graceExpiry s f = s := by
  simp [graceExpiry, Nat.not_le.2 hd]

theorem ctrlWrite_detach {s : State} {f : Nat} (ho : barOpen s f = true) (hs : (fnOf s f).state = .attached)
    (hl : s.lrs.active = false) : ctrlWrite s f 2 = orphan s f := by
  have h0 : (2 : BitVec 32).getLsbD 0 = false := by decide
  have h1 : (2 : BitVec 32).getLsbD 1 = true := by decide
  have hstray : countIf (strayBits 2 3) s f = s := rfl
  simp only [ctrlWrite, ho, h0, h1, hs, hl, hstray]
  rfl

/-- Settles O40. -/
theorem leasesAndGrace : Obligations.leasesAndGrace := by
  unfold Obligations.leasesAndGrace
  refine ⟨?_, ?_⟩
  · intro s f v ho hs c x p kept renewed
    refine ⟨fun hp => ?_, fun hp => ?_⟩
    · have hw := leaseWrite_inRange ho hs hp
      refine ⟨fun hv => congrArg Host.Outcome.next (hw.trans ?_), fun hv hx => congrArg Host.Outcome.next (hw.trans ?_),
        fun hv hx => congrArg Host.Outcome.next (hw.trans ?_)⟩
      · exact if_neg (ne_true_of_eq_false hv)
      · exact (if_pos hv).trans (if_pos hx)
      · exact (if_pos hv).trans (if_neg hx)
    · have hw := leaseWrite_outOfRange ho hs hp
      refine ⟨fun hv hx => congrArg Host.Outcome.next (hw.trans (if_pos ⟨hv, hx⟩)), fun h => congrArg Host.Outcome.next (hw.trans ?_)⟩
      exact if_neg fun ⟨hv, hx⟩ => h.elim (fun hv' => ne_true_of_eq_false hv' hv) fun hx' => hx' hx
  · intro s f hf hl c x o gone r
    have ho : orphan s c = r := by
      rw [orphan_live hf, orphanNow_live hf]
      rfl
    refine ⟨fun hs hd => congrArg (fun t => Host.Outcome.next (settleLive t)) ((leaseExpiry_due hs hd hl).trans ho),
      fun hs hb => congrArg (fun t => Host.Outcome.next (settleLive t)) ((ctrlWrite_detach hb hs hl).trans ho),
      fun hs hd => congrArg (fun t => Host.Outcome.next (settleLive t)) (graceExpiry_due hs hd hl hf),
      fun hd => congrArg (fun t => Host.Outcome.next (settleLive t)) (leaseExpiry_early hd),
      fun hd => congrArg (fun t => Host.Outcome.next (settleLive t)) (graceExpiry_early hd)⟩

end Sys2Proof.Machine
end

/-! SUPPORT. ATTACH, function-level resets and D3hot (R375, R376, R496, R503). -/

section
namespace Sys2Proof.Machine

/-! ### ATTACH -/

/-- A grace period that has not ended by the timers does not expire. -/
theorem graceExpiry_notOver {s : State} {f : Nat} (h : graceOver s f = false) : graceExpiry s f = s := by
  unfold graceExpiry
  refine if_neg fun ⟨hs, hd, hl, _⟩ => ?_
  have hlrs : s.lrs.active = false := by simpa using hl
  have htime : timerNow s = now s := by simp [timerNow, hlrs]
  simp [graceOver, hs, htime, hd] at h

section
variable {s : State} {f : Nat} (ha : f = 0 ∨ contextAlive s f = true) (hg : graceOver s f = false)
  (hp : (fnOf s f).attachPend = true)
include hg hp

theorem attachEffect_waits (hr : requestsOf s f ≠ []) : attachEffect s f = s := by
  simp [attachEffect, graceExpiry_notOver hg, hp, hr]

include ha in
theorem attachEffect_attaches (hr : requestsOf s f = []) :
    attachEffect s f = setFn s f { fnOf s f with
      rings := [], state := .attached, attachPend := false, orphanAtThaw := false
      leaseEnd := BitVec.ofNat 64 (timerNow s + 1000000 * (fnOf s f).leasePeriod.toNat) } := by
  have hdead : ¬(f ≠ 0 ∧ (!contextAlive s f) = true) := by
    rintro ⟨h0, hc⟩
    rcases ha with h | h
    · exact h0 h
    · simp [h] at hc
  have hgo : ¬((!(fnOf s f).attachPend || !(requestsOf s f).isEmpty || graceOver s f) = true) := by simp [hp, hr, hg]
  unfold attachEffect
  simp only [graceExpiry_notOver hg]
  rw [if_neg hgo, if_neg hdead]
  exact startLease_setFn ..

end

theorem ctrlWrite_attach {s : State} {f : Nat} (ho : barOpen s f = true) (hs : (fnOf s f).state ≠ .attached)
    (hp : (fnOf s f).attachPend = false) (ha : f = 0 ∨ contextAlive s f = true) :
    ctrlWrite s f 1 = attachEffect (setFn s f { fnOf s f with attachPend := true }) f := by
  have h0 : (1 : BitVec 32).getLsbD 0 = true := by decide
  have h1 : (1 : BitVec 32).getLsbD 1 = false := by decide
  have hstray : strayBits 1 3 = false := by decide
  have hdead : ¬((fnOf s f).state = .attached ∨ (fnOf s f).attachPend = true ∨ (f ≠ 0 ∧ (!contextAlive s f) = true)) := by
    rintro (h | h | ⟨h, hc⟩)
    · exact hs h
    · simp [hp] at h
    · rcases ha with h' | h'
      · exact h h'
      · simp [h'] at hc
  simp only [ctrlWrite, ho, h0, h1, hstray, attachRequest]
  exact if_neg hdead

theorem ctrlWrite_both {s : State} {f : Nat} (ho : barOpen s f = true) : ctrlWrite s f 3 = ignored s f := by
  have h0 : (3 : BitVec 32).getLsbD 0 = true := by decide
  have h1 : (3 : BitVec 32).getLsbD 1 = true := by decide
  simp only [ctrlWrite, ho, h0, h1]
  rfl

/-! ### What a reset of one function leaves alone -/

/-- Nothing but the context of function f, the functions, the syncs and the host's side differs, and no VF but f. -/
structure ResetOnly (f : Nat) (s t : State) : Prop where
  frame : t = { s with
    fns := t.fns, ctxs := t.ctxs, syncs := t.syncs, hostMem := t.hostMem, heldWrites := t.heldWrites
    dbg := { s.dbg with counters := t.dbg.counters } }
  ctxs : ∀ c, c ≠ f → ctxOf t c = ctxOf s c
  fns : ∀ c, c ≠ f → c ≠ 0 → fnOf t c = fnOf s c

theorem ResetOnly.refl (f : Nat) (s : State) : ResetOnly f s s := ⟨rfl, fun _ _ => rfl, fun _ _ _ => rfl⟩

theorem ResetOnly.trans {f : Nat} {s t u : State} (h : ResetOnly f s t) (k : ResetOnly f t u) : ResetOnly f s u := by
  refine ⟨?_, fun c hc => (k.ctxs c hc).trans (h.ctxs c hc), fun c hc h0 => (k.fns c hc h0).trans (h.fns c hc h0)⟩
  have hk := k.frame
  rw [h.frame] at hk
  exact hk

theorem ResetOnly.docket {f : Nat} {s t : State} (h : ResetOnly f s t) : t.docket = s.docket := by rw [h.frame]
theorem ResetOnly.frozen {f : Nat} {s t : State} (h : ResetOnly f s t) : t.dbg.frozen = s.dbg.frozen := by rw [h.frame]
theorem ResetOnly.lrs {f : Nat} {s t : State} (h : ResetOnly f s t) : t.lrs = s.lrs := by rw [h.frame]

theorem fnOf_setFn_ne {s : State} {f c : Nat} (v : Fn) (h : c ≠ f) : fnOf (setFn s f v) c = fnOf s c := tblGetD_tblPut_other _ h ..
theorem ctxOf_setCtx_ne {s : State} {f c : Nat} (v : Ctx) (h : c ≠ f) : ctxOf (setCtx s f v) c = ctxOf s c := tblGet_tblPut_other _ h _

theorem resetOnly_setFn (f : Nat) (s : State) (v : Fn) : ResetOnly f s (setFn s f v) :=
  ⟨rfl, fun _ _ => rfl, fun _ h _ => fnOf_setFn_ne v h⟩

theorem resetOnly_setCtx (f : Nat) (s : State) (v : Ctx) : ResetOnly f s (setCtx s f v) :=
  ⟨rfl, fun _ h => ctxOf_setCtx_ne v h, fun _ _ _ => rfl⟩

theorem resetOnly_closeJob (f : Nat) (s : State) : ResetOnly f s (closeJob s f) := by
  unfold closeJob
  split
  · exact .refl f s
  · next x _ => exact ⟨rfl, fun _ h => ctxOf_setCtx_ne _ h, fun _ _ _ => rfl⟩

theorem resetOnly_zeroFnCounters (f c : Nat) (s : State) : ResetOnly f s (zeroFnCounters s c) :=
  ⟨rfl, fun _ _ => rfl, fun _ _ _ => rfl⟩

/-! ### An event of one function changes no other -/

theorem fnOf_hostWrite (s : State) (a : Nat) (bs : List Byte) (c : Nat) : fnOf (hostWrite s a bs) c = fnOf s c := by
  unfold hostWrite
  split <;> rfl

theorem fnOf_sendMsix_ne {s : State} {f c : Nat} (v : Nat) (h : c ≠ f) : fnOf (sendMsix s f v) c = fnOf s c := by
  unfold sendMsix
  dsimp only
  split
  · rfl
  · split
    · exact fnOf_setFn_ne _ h
    · exact fnOf_hostWrite ..

theorem fnOf_ringWrite_ne {s : State} {f c : Nat} (i : Nat) (bs : List Byte) (imm : Bool) (h : c ≠ f) :
    fnOf (ringWrite s f i bs imm) c = fnOf s c := by
  unfold ringWrite ringNotify setRing
  dsimp only
  split
  · rw [fnOf_sendMsix_ne _ h, fnOf_setFn_ne _ h, fnOf_setFn_ne _ h, fnOf_hostWrite]
  · rw [fnOf_setFn_ne _ h, fnOf_setFn_ne _ h, fnOf_hostWrite]

theorem fnOf_raiseEvent_ne {s : State} {f c : Nat} (code arg16 arg : Nat) (h : c ≠ f) :
    fnOf (raiseEvent s f code arg16 arg) c = fnOf s c := by
  unfold raiseEvent
  dsimp only
  split
  · rfl
  · split
    · rfl
    · split
      · exact fnOf_setFn_ne _ h
      · split
        · exact fnOf_ringWrite_ne _ _ _ h
        · exact fnOf_setFn_ne _ h

theorem ctxOf_hostOnly {s t : State} (h : HostOnly s t) (c : Nat) : ctxOf t c = ctxOf s c := by
  unfold HostOnly at h
  rw [h]
  rfl

/-- An event of the PF. -/
theorem resetOnly_raiseEvent (f : Nat) (s : State) (code arg16 arg : Nat) : ResetOnly f s (raiseEvent s 0 code arg16 arg) := by
  have hh := hostOnly_raiseEvent (HostOnly.refl s) 0 code arg16 arg
  refine ⟨?_, fun c _ => ctxOf_hostOnly hh c, fun c _ h => fnOf_raiseEvent_ne _ _ _ h⟩
  unfold HostOnly at hh
  rw [hh]

/-! ### FLR of one function, with an empty Docket -/

theorem requestsOf_empty {s : State} (hd : s.docket.entries = []) (f : Nat) : requestsOf s f = [] := by simp [requestsOf, hd]

theorem endAllRequests_empty {s : State} (hd : s.docket.entries = []) (f : Nat) (st : BitVec 8) : endAllRequests s f st = closeJob s f := by
  rw [endAllRequests, requestsOf_empty hd]
  rfl

theorem resetOnly_orphanNow {f : Nat} {s : State} (hd : s.docket.entries = []) (hf : s.dbg.frozen = none) :
    ResetOnly f s (orphanNow s f) := by
  rw [orphanNow_live hf, endAllRequests_empty (by exact hd)]
  exact (resetOnly_setFn ..).trans ((resetOnly_closeJob ..).trans (resetOnly_raiseEvent ..))

theorem beginDestruction_pf {s : State} {cause : Nat} {k : Ctx} (hd : s.docket.entries = []) (hk : ctxOf s 0 = some k)
    (hk' : k.destroying = false) :
    beginDestruction s 0 cause = closeJob (setCtx s 0 { k with destroying := true, destroyCause := cause }) 0 := by
  have hreq : requestsOf (setCtx s 0 { k with destroying := true, destroyCause := cause }) 0 = [] :=
    requestsOf_empty (s := setCtx s 0 { k with destroying := true, destroyCause := cause }) hd 0
  simp only [beginDestruction, hk, hk', Bool.false_eq_true, if_false, if_true, hreq, List.filter_nil, List.foldl_nil]

theorem beginDestruction_vf {s : State} {f cause : Nat} {k : Ctx} (hd : s.docket.entries = []) (h0 : f ≠ 0) (hk : ctxOf s f = some k)
    (hk' : k.destroying = false) :
    beginDestruction s f cause =
      closeJob (setFn (setCtx s f { k with destroying := true, destroyCause := cause }) f
        { fnOf s f with state := .detached, attachPend := false }) f := by
  simp only [beginDestruction, hk, hk', Bool.false_eq_true, if_false, if_neg h0]
  exact endAllRequests_empty (by exact hd) ..

theorem beginDestruction_idle {s : State} {f cause : Nat} (h : contextAlive s f = false) : beginDestruction s f cause = s := by
  unfold contextAlive at h
  unfold beginDestruction
  split
  · rfl
  · next k hk =>
    rw [hk] at h
    exact if_pos (by simpa using h)

theorem contextAlive_some {s : State} {c : Nat} {k : Ctx} (hk : ctxOf s c = some k) : contextAlive s c = !k.destroying := by
  rw [contextAlive, hk]

theorem contextAlive_setCtx (s : State) (c : Nat) (v : Ctx) : contextAlive (setCtx s c v) c = !v.destroying :=
  contextAlive_some (ctxOf_setCtx ..)

theorem contextAlive_congr {s t : State} (h : t.ctxs = s.ctxs) (c : Nat) : contextAlive t c = contextAlive s c := by
  unfold contextAlive ctxOf
  rw [h]

theorem contextAlive_closeJob (s : State) (c : Nat) : contextAlive (closeJob s c) c = contextAlive s c := by
  unfold closeJob
  split
  · rfl
  · next x hx =>
    rw [contextAlive_some hx]
    exact (contextAlive_congr rfl c).trans (contextAlive_setCtx s c { x with job := none })

theorem exists_of_contextAlive {s : State} {c : Nat} (h : contextAlive s c = true) : ∃ k, ctxOf s c = some k ∧ k.destroying = false := by
  cases hk : ctxOf s c with
  | none => simp [contextAlive, hk] at h
  | some k => exact ⟨k, rfl, by simpa [contextAlive, hk] using h⟩

/-- The destruction that begins leaves no context alive. -/
theorem contextAlive_beginDestruction {s : State} (hd : s.docket.entries = []) (f cause : Nat) :
    contextAlive (beginDestruction s f cause) f = false := by
  cases ha : contextAlive s f with
  | false => rw [beginDestruction_idle ha, ha]
  | true =>
    obtain ⟨k, hk, hk'⟩ := exists_of_contextAlive ha
    by_cases h0 : f = 0
    · subst h0
      rw [beginDestruction_pf hd hk hk', contextAlive_closeJob]
      exact contextAlive_setCtx ..
    · rw [beginDestruction_vf hd h0 hk hk', contextAlive_closeJob]
      exact (contextAlive_congr rfl f).trans (contextAlive_setCtx s f { k with destroying := true, destroyCause := cause })

theorem resetOnly_beginDestruction {s : State} (hd : s.docket.entries = []) (f cause : Nat) :
    ResetOnly f s (beginDestruction s f cause) := by
  cases ha : contextAlive s f with
  | false => rw [beginDestruction_idle ha]; exact .refl f s
  | true =>
    obtain ⟨k, hk, hk'⟩ := exists_of_contextAlive ha
    by_cases h0 : f = 0
    · subst h0
      rw [beginDestruction_pf hd hk hk']
      exact (resetOnly_setCtx ..).trans (resetOnly_closeJob ..)
    · rw [beginDestruction_vf hd h0 hk hk']
      exact (resetOnly_setCtx ..).trans ((resetOnly_setFn ..).trans (resetOnly_closeJob ..))

theorem contextAlive_reset (s : State) (f c : Nat) : contextAlive (zeroFnCounters (setFn s f Fn.reset) f) c = contextAlive s c := rfl
theorem fnOf_zeroFnCounters (s : State) (f c : Nat) : fnOf (zeroFnCounters s f) c = fnOf s c := rfl

/-- The state of a function that an FLR first orphans. -/
def beforeFlr (s : State) (f : Nat) : State := if (fnOf s f).state = .attached then orphanNow s f else s

theorem flrOne_live {s : State} {f : Nat} (hl : s.lrs.active = false) :
    flrOne s f = zeroFnCounters (setFn (endAllRequests (beginDestruction (beforeFlr s f) f 0) f stCancelled) f Fn.reset) f := by
  simp only [flrOne, hl, Bool.false_eq_true, if_false, beforeFlr]

section
variable {s : State} (hd : s.docket.entries = []) (hf : s.dbg.frozen = none) (f : Nat)
include hd hf

theorem resetOnly_beforeFlr : ResetOnly f s (beforeFlr s f) := by
  unfold beforeFlr
  split
  · exact resetOnly_orphanNow hd hf
  · exact .refl f s

theorem beforeFlr_empty : (beforeFlr s f).docket.entries = [] := by rw [(resetOnly_beforeFlr hd hf f).docket, hd]

theorem beginFlr_empty : (beginDestruction (beforeFlr s f) f 0).docket.entries = [] := by
  rw [(resetOnly_beginDestruction (beforeFlr_empty hd hf f) f 0).docket, beforeFlr_empty hd hf]

theorem flrOne_empty (hl : s.lrs.active = false) :
    flrOne s f = zeroFnCounters (setFn (closeJob (beginDestruction (beforeFlr s f) f 0) f) f Fn.reset) f := by
  rw [flrOne_live hl, endAllRequests_empty (beginFlr_empty hd hf f)]

theorem resetOnly_flrOne (hl : s.lrs.active = false) : ResetOnly f s (flrOne s f) := by
  rw [flrOne_empty hd hf f hl]
  exact (resetOnly_beforeFlr hd hf f).trans <| (resetOnly_beginDestruction (beforeFlr_empty hd hf f) ..).trans <|
    (resetOnly_closeJob ..).trans <| (resetOnly_setFn ..).trans (resetOnly_zeroFnCounters ..)

theorem contextAlive_flrOne (hl : s.lrs.active = false) : contextAlive (flrOne s f) f = false := by
  rw [flrOne_empty hd hf f hl]
  rw [contextAlive_reset, contextAlive_closeJob]
  exact contextAlive_beginDestruction (beforeFlr_empty hd hf f) f 0

end

theorem fnOf_flrOne {s : State} {f : Nat} (hl : s.lrs.active = false) : fnOf (flrOne s f) f = Fn.reset := by
  rw [flrOne_live hl, fnOf_zeroFnCounters, fnOf_setFn]

theorem counterOf_flrOne {s : State} {f n : Nat} (hl : s.lrs.active = false) (h : 0x2000 + 32 * f ≤ n ∧ n < 0x2000 + 32 * f + 32) :
    counterOf (flrOne s f) n = Counter.reset := by
  rw [flrOne_live hl]
  exact tblGetD_filter_slice _ _ _ _ _ h

/-! ### FLR of the PF -/

/-- A PF that is not attached takes no event. -/
theorem raiseEvent_detached {s : State} {f : Nat} (h : (fnOf s f).state ≠ .attached) (code arg16 arg : Nat) :
    raiseEvent s f code arg16 arg = s := if_pos (.inl h)

theorem fns_closeJob (s : State) (c : Nat) : (closeJob s c).fns = s.fns := by
  unfold closeJob
  split <;> rfl

theorem fnOf_closeJob (s : State) (c g : Nat) : fnOf (closeJob s c) g = fnOf s g := by rw [fnOf, fns_closeJob]; rfl

/-- The Docket is empty, the engine runs, and the PF is as after a reset. -/
structure PfReset (s : State) : Prop where
  empty : s.docket.entries = []
  live : s.dbg.frozen = none
  runs : s.lrs.active = false
  pf : fnOf s 0 = Fn.reset

/-- The FLR of a VF leaves a PF that has been reset as it is. -/
theorem PfReset.flrOne {s : State} (h : PfReset s) {f : Nat} (hf : f ≠ 0) : PfReset (flrOne s f) := by
  obtain ⟨hd, hfz, hl, hpf⟩ := h
  have hreset := resetOnly_flrOne hd hfz f hl
  have hbefore : fnOf (beforeFlr s f) 0 = Fn.reset := by
    unfold beforeFlr
    split
    · rw [orphanNow_live hfz, endAllRequests_empty (by exact hd)]
      have hkeep : ∀ v : Fn, fnOf (closeJob (setFn s f v) f) 0 = Fn.reset := fun v => by
        rw [fnOf_closeJob, fnOf_setFn_ne v hf.symm, hpf]
      rw [raiseEvent_detached (by rw [hkeep]; decide), hkeep]
    · exact hpf
  have hbegin : fnOf (beginDestruction (beforeFlr s f) f 0) 0 = Fn.reset := by
    cases ha : contextAlive (beforeFlr s f) f with
    | false => rw [beginDestruction_idle ha, hbefore]
    | true =>
      obtain ⟨k, hk, hk'⟩ := exists_of_contextAlive ha
      rw [beginDestruction_vf (beforeFlr_empty hd hfz f) hf hk hk', fnOf_closeJob, fnOf_setFn_ne _ hf.symm]
      exact hbefore
  refine ⟨by rw [hreset.docket, hd], by rw [hreset.frozen, hfz], by rw [hreset.lrs, hl], ?_⟩
  rw [flrOne_empty hd hfz f hl, fnOf_zeroFnCounters, fnOf_setFn_ne _ hf.symm, fnOf_closeJob, hbegin]

theorem PfReset.dropVfs {s : State} (h : PfReset s) : PfReset (dropVfs s) := by
  unfold Machine.dropVfs
  refine List.foldlRecOn _ _ (motive := PfReset) h fun u hu f hf => hu.flrOne ?_
  simpa using (List.mem_filter.1 hf).2

theorem flr_vf {s : State} {f : Nat} (h0 : f ≠ 0) (he : fnExists s f = true) : flr s f = flrOne s f := by
  simp [flr, h0, he]

theorem flr_absent {s : State} {f : Nat} (h0 : f ≠ 0) (he : fnExists s f = false) : flr s f = s := by
  simp [flr, h0, he]

/-! ### ATTACH at the end of a grace period -/

/-- What the grace period's end leaves of a VF with an empty Docket. -/
theorem graceEnds_detached (s : State) (f : Nat) :
    (fnOf (graceEnds s f) f).state = .detached := congrArg Fn.state (fnOf_setFn ..)

theorem contextAlive_graceEnds {s : State} (hd : s.docket.entries = []) (f : Nat) : contextAlive (graceEnds s f) f = false :=
  contextAlive_beginDestruction hd f 1

/-- The grace period's end takes back a pending ATTACH of a VF. -/
theorem graceEnds_pend {s : State} {f : Nat} {k : Ctx} (hd : s.docket.entries = []) (h0 : f ≠ 0) (hk : ctxOf s f = some k)
    (hk' : k.destroying = false) : (fnOf (graceEnds s f) f).attachPend = false := by
  refine (congrArg Fn.attachPend (fnOf_setFn ..)).trans ?_
  show (fnOf (beginDestruction s f 1) f).attachPend = false
  rw [beginDestruction_vf hd h0 hk hk', fnOf_closeJob]
  exact congrArg Fn.attachPend (fnOf_setFn ..)

theorem attachEffect_graceOver {s : State} {f : Nat} {k : Ctx} (hd : s.docket.entries = []) (h0 : f ≠ 0) (hk : ctxOf s f = some k)
    (hk' : k.destroying = false) (hs : (fnOf s f).state = .orphaned) (hg : (fnOf s f).graceEnd.toNat ≤ now s)
    (hl : s.lrs.active = false) (hf : s.dbg.frozen = none) : attachEffect s f = graceEnds s f := by
  simp [attachEffect, graceExpiry_due hs hg hl hf, graceEnds_pend hd h0 hk hk']

theorem toNat_ne_zero {f : BitVec 8} (h : f ≠ 0) : f.toNat ≠ 0 := fun h' => h (BitVec.eq_of_toNat_eq h')

/-- Settles O41. -/
theorem attachAndFunctionResets : Obligations.attachAndFunctionResets := by
  unfold Obligations.attachAndFunctionResets
  refine ⟨?_, ?_, ?_⟩
  · intro s f ha hg c x done
    have ha' : c = 0 ∨ contextAlive s c = true := ha.imp_left fun h => congrArg BitVec.toNat h
    have hpend : fnOf (setFn s c { x with attachPend := true }) c = { x with attachPend := true } := fnOf_setFn ..
    have hover : graceOver (setFn s c { x with attachPend := true }) c = false := by
      rw [graceOver, hpend]
      exact hg
    have hrow := fun ho hs hp => ctrlWrite_attach (s := s) (f := c) ho hs hp ha'
    refine ⟨fun ho hs hp => ⟨fun hr => congrArg (fun t => Host.Outcome.next (settleLive t)) ((hrow ho hs hp).trans ?_),
      fun hr => congrArg (fun t => Host.Outcome.next (settleLive t)) ((hrow ho hs hp).trans ?_)⟩,
      fun hp hr => congrArg Host.Outcome.next (attachEffect_attaches ha' hg hp hr),
      fun hp hr => congrArg Host.Outcome.next (attachEffect_waits hg hp hr),
      fun ho => congrArg (fun t => Host.Outcome.next (settleLive t)) (ctrlWrite_both ho)⟩
    · rw [attachEffect_attaches (s := setFn s c { x with attachPend := true }) ha' hover (by rw [hpend]) hr, hpend, setFn_setFn]
      rfl
    · exact attachEffect_waits (s := setFn s c { x with attachPend := true }) hover (by rw [hpend]) hr
  · intro s f k h0 ho hk hk' hs hg hp hd hl hf
    have hn := toNat_ne_zero h0
    have halive : contextAlive s f.toNat = true := by rw [contextAlive_some hk, hk']; rfl
    have hfn : fnOf (setFn s f.toNat { fnOf s f.toNat with attachPend := true }) f.toNat = _ := fnOf_setFn ..
    refine ⟨_, congrArg (fun t => Host.Outcome.next (settleLive t)) ((ctrlWrite_attach ho (by rw [hs]; decide) hp (.inr halive)).trans
      (attachEffect_graceOver (k := k) (by exact hd) hn (by exact hk) hk' (by rw [hfn]; exact hs) (by rw [hfn]; exact hg) hl hf)),
      graceEnds_detached .., contextAlive_graceEnds (by exact hd) _⟩
  · intro s hl
    refine ⟨fun f k h0 he hd hf _ => ⟨flrOne s f.toNat, ?_, fnOf_flrOne hl, contextAlive_flrOne hd hf _ hl,
      fun n h1 h2 => counterOf_flrOne hl ⟨h1, h2⟩, fun c hc => ?_, ?_⟩, fun f h0 he => ?_, ⟨rfl, rfl, fun hd hf => ?_⟩,
      fun _ => rfl, fun f hd3 => congrArg Host.Outcome.next (if_pos hd3),
      fun f hd3 => congrArg Host.Outcome.next (if_neg (ne_true_of_eq_false hd3))⟩
    · exact congrArg (fun t => Host.Outcome.next (settleLive t)) (flr_vf (toNat_ne_zero h0) he)
    · exact ⟨(resetOnly_flrOne hd hf f.toNat hl).ctxs c hc, (resetOnly_flrOne hd hf f.toNat hl).fns c hc⟩
    · exact (resetOnly_flrOne hd hf f.toNat hl).frame
    · exact congrArg (fun t => Host.Outcome.next (settleLive t)) (flr_absent (toNat_ne_zero h0) he)
    · have hpf := resetOnly_flrOne hd hf 0 hl
      have hreset : PfReset (flrOne s 0) :=
        ⟨by rw [hpf.docket, hd], by rw [hpf.frozen, hf], by rw [hpf.lrs, hl], fnOf_flrOne hl⟩
      exact hreset.dropVfs.pf

end Sys2Proof.Machine
end

/-! SUPPORT. Host windows and the DRBG seed of a context (R151 to R153, R283 to R286). -/

section
namespace Sys2Proof.Machine

section
variable {s : State} {c : Nat} {k : Ctx} (hk : ctxOf s c = some k)
include hk

theorem modCtx_of_ctxOf (g : Ctx → Ctx) : modCtx s c g = setCtx s c (g k) := by
  simp only [modCtx, hk]

theorem closeEpoch_of_ctxOf (self : Option Nat) (p : Epoch) :
    closeEpoch s c self p =
      (setCtx s c { k with open_ := k.open_ + 1, closed := k.closed ++ [{ p with id := k.open_, waits := startedOps s c self }] },
        k.open_) := by
  simp only [closeEpoch, hk]

/-- A per-context register of a context that is not being destroyed takes a write that the stewards serve. -/
theorem ctxWrite_alive (hd : k.destroying = false) (hs : servesWrite s c) (g : State → Ctx → State) : ctxWrite s c g = g s k := by
  rw [ctxWrite, emuWrite_serves hs]
  simp only [hk, hd, Bool.false_eq_true, if_false]

theorem hwinCtrl_busy (hd : k.destroying = false) (hs : servesWrite s c) {n : Nat} {v : BitVec 32}
    (hb : (tblGetD k.hwins n HWin.reset).busyEpoch.isSome = true) : hwinCtrl s c n v = ignored s c := by
  rw [hwinCtrl, ctxWrite_alive hk hd hs]
  exact if_pos hb

theorem hwinCtrl_commits (hd : k.destroying = false) (hs : servesWrite s c) {n : Nat} {v : BitVec 32} (hv : strayBits v 7 = false)
    (hc : v.getLsbD 2 = true) (hb : (tblGetD k.hwins n HWin.reset).busyEpoch = none) :
    hwinCtrl s c n v = setCtx s c { k with
      open_ := k.open_ + 1
      closed := k.closed ++ [{ Epoch.none_ with id := k.open_, waits := startedOps s c none }]
      hwins := tblPut k.hwins n { tblGetD k.hwins n HWin.reset with
        en := v.getLsbD 0, w := v.getLsbD 1, busyEpoch := some k.open_
        mapped := if v.getLsbD 0 = true then
          some ((tblGetD k.hwins n HWin.reset).base, (tblGetD k.hwins n HWin.reset).pages.toNat, v.getLsbD 1) else none } } := by
  have hstray : countIf (strayBits v 7) s c = s := by rw [hv]; rfl
  rw [hwinCtrl, ctxWrite_alive hk hd hs]
  simp only [hb, Option.isSome_none, Bool.false_eq_true, if_false, hstray, hc, if_true, closeEpoch_of_ctxOf hk]
  rw [modCtx_of_ctxOf (ctxOf_setCtx ..), setCtx_setCtx]

theorem reseed_words :
    reseed s c true = setCtx s c { k with drbg := {
      seed := k.drbg.words.flatMap fun w => leBytes 4 w.toNat, gen := k.drbg.gen + 1, pos := 0
      prev := some (k.drbg.seed, k.drbg.gen, k.drbg.pos), words := List.replicate 16 0, deferred := none } } := by
  simp only [reseed, hk, if_true]

theorem reseed_drawn {n : Nat} (hn : n = 64) :
    reseed s c false = setCtx (drawBytes n s).2 c { k with drbg := {
      seed := (drawBytes n s).1, gen := k.drbg.gen + 1, pos := 0
      prev := some (k.drbg.seed, k.drbg.gen, k.drbg.pos), words := List.replicate 16 0, deferred := none } } := by
  subst hn
  simp only [reseed, hk, Bool.false_eq_true, if_false]

/-- A RESEED takes the words when WORDS = 1, and is deferred while a request draws from the generation before. -/
theorem drbgCtrl_reseed (hd : k.destroying = false) (hs : servesWrite s c) {v : BitVec 32} (hv : strayBits v 3 = false)
    (hr : v.getLsbD 0 = true) :
    drbgCtrl s c v =
      if oldGen s c then setCtx s c { k with drbg := { k.drbg with deferred := some (v.getLsbD 1) } } else reseed s c (v.getLsbD 1) := by
  have hstray : countIf (strayBits v 3) s c = s := by rw [hv]; rfl
  rw [drbgCtrl, ctxWrite_alive hk hd hs]
  simp only [hstray, hr, Bool.not_true, Bool.false_eq_true, if_false, modCtx_of_ctxOf hk]

theorem drbgApply_deferred (hd : k.destroying = false) (ho : oldGen s c = false) {b : Bool} (hb : k.drbg.deferred = some b) :
    drbgApply s c = reseed s c b := by
  simp only [drbgApply, hk, Option.bind_some, hb, ho, contextAlive_some hk, hd]
  rfl

theorem drbgApply_waits (ho : oldGen s c = true) : drbgApply s c = s := by
  simp only [drbgApply, hk, Option.bind_some, ho]
  split <;> rfl

end

/-- Settles O42. -/
theorem windowsAndSeedsReplace : Obligations.windowsAndSeedsReplace := by
  unfold Obligations.windowsAndSeedsReplace
  intro s f k hk hd c d fresh words r
  refine ⟨fun hs => ⟨fun n v hv hc => ⟨fun hb => congrArg Host.Outcome.next (hwinCtrl_commits hk hd hs hv hc hb),
    fun hb => congrArg Host.Outcome.next (hwinCtrl_busy hk hd hs hb)⟩, fun ho => ?_, fun ho => ?_⟩,
    fun ho hb => congrArg Host.Outcome.next ((drbgApply_deferred hk hd ho hb).trans (reseed_words hk)),
    fun ho hb => congrArg Host.Outcome.next ((drbgApply_deferred hk hd ho hb).trans (reseed_drawn hk rfl)),
    fun ho => congrArg Host.Outcome.next (drbgApply_waits hk ho)⟩
  · have hboth := drbgCtrl_reseed hk hd hs (v := 3) (by decide) (by decide)
    have hdraw := drbgCtrl_reseed hk hd hs (v := 1) (by decide) (by decide)
    rw [if_neg (ne_true_of_eq_false ho)] at hboth hdraw
    exact ⟨congrArg Host.Outcome.next (hboth.trans (reseed_words hk)), congrArg Host.Outcome.next (hdraw.trans (reseed_drawn hk rfl))⟩
  · have hboth := drbgCtrl_reseed hk hd hs (v := 3) (by decide) (by decide)
    have hdraw := drbgCtrl_reseed hk hd hs (v := 1) (by decide) (by decide)
    rw [if_pos ho] at hboth hdraw
    exact ⟨congrArg Host.Outcome.next hboth, congrArg Host.Outcome.next hdraw⟩

end Sys2Proof.Machine
end

/-! SUPPORT. Cold resets, warm resets and the loss of power (R422, R493, R494, R502, R510, R512). -/

section
namespace Sys2Proof.Machine

/-! ### Cold resets -/

theorem perstLow_long {s : State} {n : Nat} (hr : s.power.railsGood = true) (hc : s.power.clocksStopped = false)
    (hp : s.pins.perstHigh = true) (hn : 100 ≤ n) : perstLow s n = coldReset s := by
  simp [perstLow, hr, hc, hp, Nat.not_lt.2 hn]

theorem perstLow_short {s : State} {n : Nat} (hn : n < 100) : perstLow s n = s := by simp [perstLow, hn]

theorem perstMoves_moves {s : State} {high : Bool} (hr : s.power.railsGood = true) (hc : s.power.clocksStopped = false)
    (hp : s.pins.perstHigh ≠ high) :
    perstMoves s high = { coldReset s with pins := { (coldReset s).pins with perstHigh := high } } := by
  simp [perstMoves, hr, hc, hp]

theorem testEnMoves_moves {s : State} {high : Bool} (hr : s.power.railsGood = true) (hc : s.power.clocksStopped = false)
    (hp : s.pins.testEn ≠ high) :
    testEnMoves s high = { coldReset s with
      pins := { (coldReset s).pins with perstHigh := s.pins.perstHigh, testEn := high } } := by
  simp [testEnMoves, hr, hc, hp]

/-- TEST_EN high, or PERST_N low, holds the engine in the reset. -/
theorem ticking_held {s : State} (h : s.pins.testEn = true ∨ s.pins.perstHigh = false) : ticking s = false := by
  rcases h with h | h <;> simp [ticking, perstInside, h]

theorem ready_unreleased {s : State} (h : s.boot.released = false) : ready s = false := by simp [ready, h]

/-- A write of the PF to a hardware register takes effect. -/
theorem hwWrite_open {s : State} (h : barOpen s 0 = true) (k : State → State) : hwWrite s 0 k = k s := by simp [hwWrite, h]

theorem lrsKey_good {s : State} (h : s.lrs.active = true) : lrsKey s 0xC01DB007 = coldReset s := if_pos ⟨h, rfl⟩

theorem lrsKey_bad {s : State} {key : BitVec 32} (h : s.lrs.active = false ∨ key ≠ 0xC01DB007) : lrsKey s key = ignored s 0 := by
  refine if_neg fun ⟨ha, hk⟩ => ?_
  rcases h with h | h
  · exact ne_true_of_eq_false h ha
  · exact h hk

/-- Settles O43. -/
theorem coldResetKeepsTheLibrary : Obligations.coldResetKeepsTheLibrary := by
  unfold Obligations.coldResetKeepsTheLibrary
  intro s
  refine ⟨⟨rfl, rfl, rfl, rfl, rfl, rfl, rfl, rfl, rfl, rfl, rfl, rfl, rfl, rfl, rfl, rfl, rfl, rfl, rfl, rfl, ready_unreleased rfl⟩,
    fun n hr hc hp hn => congrArg Host.Outcome.next (perstLow_long hr hc hp hn), fun n hn => congrArg Host.Outcome.next (perstLow_short hn),
    fun hr hc => ⟨fun high hp => congrArg Host.Outcome.next (perstMoves_moves hr hc hp),
      fun high hp => congrArg Host.Outcome.next (testEnMoves_moves hr hc hp)⟩,
    ticking_held, ⟨powerUp s, rfl, rfl, rfl, rfl, rfl, rfl, rfl, rfl, rfl, rfl⟩,
    fun ho ha => congrArg Host.Outcome.next ((hwWrite_open ho _).trans (lrsKey_good ha)),
    fun key ho h => congrArg Host.Outcome.next ((hwWrite_open ho fun u => lrsKey u key).trans (lrsKey_bad h))⟩

/-! ### Power loss and warm resets -/

theorem avsTimeout_due {s : State} {a : Word64} (ha : s.power.avsSince = some a) (hd : a.toNat + 1000000 ≤ now s) :
    avsTimeout s = losePower s := by
  simp only [avsTimeout, ha, if_pos hd]

theorem avsTimeout_early {s : State} {a : Word64} (ha : s.power.avsSince = some a) (hd : now s < a.toNat + 1000000) :
    avsTimeout s = s := by
  simp only [avsTimeout, ha, if_neg (Nat.not_le.2 hd)]

theorem ticking_powerless {s : State} (h : s.power.railsGood = false) : ticking s = false := by simp [ticking, h]

/-- A warm reset takes every ring. -/
theorem rings_warmReset (s : State) (f : Nat) : (fnOf (warmReset s) f).rings = [] := by
  show (tblGetD (tblMap s.fns fun _ x => x.warm) f Fn.reset).rings = []
  rw [tblGetD, tblGet_tblMap]
  cases tblGet s.fns f <;> rfl

/-- Settles O44. -/
theorem powerLossAndWarmReset : Obligations.powerLossAndWarmReset := by
  unfold Obligations.powerLossAndWarmReset
  intro s
  refine ⟨⟨rfl, fun a ha hd => congrArg Host.Outcome.next (avsTimeout_due ha hd),
    fun a ha hd => congrArg Host.Outcome.next (avsTimeout_early ha hd),
    rfl, ticking_powerless rfl, rfl, rfl, rfl, rfl, rfl, rfl, rfl, rfl, rfl⟩,
    fun hs => ⟨congrArg Host.Outcome.next ((pfWrite_serves hs _).trans (if_pos rfl)),
      fun key hk => congrArg Host.Outcome.next ((pfWrite_serves hs fun u => warmKey u key).trans (if_neg hk))⟩,
    ⟨rfl, ready_unreleased rfl, rfl, rfl, rfl, rfl, rfl, rings_warmReset s, rfl, rfl, rfl, rfl, rfl⟩⟩

end Sys2Proof.Machine
end

/-! SUPPORT. The boot ROM, recovery and the start of firmware (R495 to R497). -/

section
namespace Sys2Proof.Machine

/-! ### BOOT_ROM -/

/-- The state in which the boot ROM tries its slots. -/
def bootTrial (s : State) (e : BitVec 4) : State := { s with stewardMem := [], boot := { s.boot with err := e } }

/-- The boot ROM waits in recovery, with no slot active. -/
def bootIdle (u : State) : State := { u with
  fw := { u.fw with slotA := { u.fw.slotA with active := false }, slotB := { u.fw.slotB with active := false } }
  boot := { u.boot with stage := 6, slot := false } }

/-- The slots of an order are tried until an image starts. -/
def tryOrder (l : List Bool) (u : State) : State := l.foldl (fun u b => if u.boot.stage = 0 then trySlot u b else u) u

theorem tryOrder_cons {u : State} (h : u.boot.stage = 0) (b : Bool) (l : List Bool) :
    tryOrder (b :: l) u = tryOrder l (trySlot u b) := by
  rw [tryOrder, List.foldl_cons, if_pos h, tryOrder]

/-- Once an image has started, no other slot is tried. -/
theorem tryOrder_started {u : State} (h : u.boot.stage ≠ 0) (l : List Bool) : tryOrder l u = u :=
  List.foldlRecOn l _ (motive := fun v => v = u) rfl fun v hv c _ => by rw [hv, if_neg h]

section
variable {s : State} (ht : ticking s = true) (hst : s.boot.stage = 0) (hl : s.lrs.active = false)
include ht hst hl

theorem bootRom_runs :
    bootRom s =
      let u := tryOrder (bootOrder s) (bootTrial s (if (bootOrder s).isEmpty then 1 else 0))
      if u.boot.stage ≠ 0 then u else bootIdle u := by
  have hgo : (!ticking s || s.boot.stage != 0 || s.lrs.active) = false := by simp [ht, hst, hl]
  exact if_neg (ne_true_of_eq_false hgo)

theorem bootRom_empty (ho : bootOrder s = []) : bootRom s = bootIdle (bootTrial s 1) := by
  rw [bootRom_runs ht hst hl, ho]
  exact if_neg (not_not.2 hst)

theorem bootRom_starts {b : Bool} {rest : List Bool} (ho : bootOrder s = b :: rest)
    (hb : (trySlot (bootTrial s 0) b).boot.stage ≠ 0) : bootRom s = trySlot (bootTrial s 0) b := by
  have htries : tryOrder (b :: rest) (bootTrial s 0) = trySlot (bootTrial s 0) b := by
    rw [tryOrder_cons (u := bootTrial s 0) hst, tryOrder_started hb]
  rw [bootRom_runs ht hst hl, ho]
  exact (congrArg (fun u : State => if u.boot.stage ≠ 0 then u else bootIdle u) htries).trans (if_pos hb)

theorem bootRom_fails {b : Bool} (ho : bootOrder s = [b]) (hb : (trySlot (bootTrial s 0) b).boot.stage = 0) :
    bootRom s = bootIdle (trySlot (bootTrial s 0) b) := by
  have htries : tryOrder [b] (bootTrial s 0) = trySlot (bootTrial s 0) b :=
    tryOrder_cons (u := bootTrial s 0) hst b []
  rw [bootRom_runs ht hst hl, ho]
  exact (congrArg (fun u : State => if u.boot.stage ≠ 0 then u else bootIdle u) htries).trans (if_neg (not_not.2 hb))

end

theorem trySlot_good {s : State} {b : Bool} (hr : slotUnread s b = false) (he : bootError s (slotState s b).image = 0) :
    trySlot s b = activate (startImage (loadRegion s false (slotState s b).image) (slotState s b).image b false
      (!(slotState s b).active)) b := by
  simp only [trySlot, hr, he, Bool.false_eq_true, if_false, if_true]

theorem trySlot_bad {s : State} {b : Bool} (hr : slotUnread s b = false) (he : bootError s (slotState s b).image ≠ 0) :
    trySlot s b =
      let v := setSlotState (loadRegion s false (slotState s b).image) b { slotState s b with state := .invalid }
      { v with boot := { v.boot with err := bootError s (slotState s b).image } } := by
  simp only [trySlot, hr, Bool.false_eq_true, if_false, if_neg he]

theorem trySlot_unread {s : State} {b : Bool} (hr : slotUnread s b = true) :
    trySlot s b =
      let v := setSlotState s b { slotState s b with state := .invalid }
      { v with boot := { v.boot with err := 6 } } := by
  have he : ¬(6 : BitVec 4) = 0 := by decide
  simp only [trySlot, hr, if_true, if_neg he]

theorem boot_setSlotState (s : State) (b : Bool) (v : FwSlot) : (setSlotState s b v).boot = s.boot := by
  cases b <;> rfl

/-- An image that starts leaves the boot ROM. -/
theorem stage_activate (s : State) (img : List Byte) (b recovered fallback : Bool) :
    (activate (startImage s img b recovered fallback) b).boot.stage ≠ 0 := by
  intro h
  have hstage : (if s.boot.released then 5 else 2 : BitVec 4) = 0 := h
  split at hstage <;> cases hstage

/-! ### RECOVERY_GO -/

theorem recoveryGo_elsewhere {s : State} (h : s.boot.stage ≠ 6) : recoveryGo s = ignored s 0 := if_pos h

theorem recoveryGo_reads {s : State} {h img : List Byte} (hst : s.boot.stage = 6)
    (hh : hostRead s s.boot.recovAddr.toNat 256 = .data h) (hok : headerOk h (256 + codeLen h + 29792) = true)
    (hi : hostRead s s.boot.recovAddr.toNat (256 + codeLen h + 29792) = .data img) :
    recoveryGo s =
      if bootError s img = 0 then recoverWith s img else { s with boot := { s.boot with err := bootError s img } } := by
  have hstay : ¬s.boot.stage ≠ 6 := not_not.2 hst
  simp only [recoveryGo, if_neg hstay, hh, hok, hi, Bool.not_true, Bool.false_eq_true, if_false]

/-! ### FIRMWARE_BRINGUP -/

theorem firmwareBringup_starts {s : State} (ht : ticking s = true) (hst : s.boot.stage = 2) (hl : s.lrs.active = false) :
    firmwareBringup s = bringUp s s.env.trainBad := by
  simp [firmwareBringup, ht, hst, hl]

/-- Nothing but the fault log, what is left to tell and the host's side differs. -/
def TellOnly (s t : State) : Prop :=
  t = { s with
    fns := t.fns, hostMem := t.hostMem, heldWrites := t.heldWrites, dbg := { s.dbg with counters := t.dbg.counters }, fw := t.fw }

theorem TellOnly.trans {s t u : State} (h : TellOnly s t) (k : TellOnly t u) : TellOnly s u := by
  unfold TellOnly at *
  rw [h] at k
  exact k

theorem TellOnly.of_hostOnly {s t : State} (h : HostOnly s t) : TellOnly s t := by
  unfold HostOnly at h
  rw [h]
  rfl

theorem tellOnly_tellRetire (s : State) (r : Untold) : TellOnly s (tellRetire s r) :=
  TellOnly.trans (t := logFaultAt s r.time r.frame.toNat 3 0 r.kind r.unit 0) rfl
    (.of_hostOnly (hostOnly_raiseEvent (HostOnly.refl _) ..))

theorem tellOnly_tellRetired (s : State) : TellOnly s (tellRetired s) :=
  List.foldlRecOn s.fw.untold tellRetire (motive := TellOnly s) rfl fun _ h r _ => h.trans (tellOnly_tellRetire _ r)

/-- Nothing but the supply of outside data differs. -/
def DrawOnly (s t : State) : Prop := t = { s with supply := t.supply, drawn := t.drawn }

theorem drawOnly_drawNat (s : State) : DrawOnly s (drawNat s).2 := by
  unfold drawNat
  split <;> rfl

theorem drawOnly_drawBytes (n : Nat) (s : State) : DrawOnly s (drawBytes n s).2 := by
  induction n generalizing s with
  | zero => rfl
  | succ n ih =>
    have h : DrawOnly (drawNat s).2 (drawBytes (n + 1) s).2 := ih (drawNat s).2
    have h0 := drawOnly_drawNat s
    unfold DrawOnly at *
    rw [h0] at h
    exact h

theorem length_drawBytes (n : Nat) (s : State) : (drawBytes n s).1.length = n := by
  induction n generalizing s with
  | zero => rfl
  | succ n ih => exact congrArg (· + 1) (ih (drawNat s).2)

/-- The channels take their timing; nothing outside the flash differs. -/
theorem loadTiming_flash (s : State) : loadTiming s = { s with flash := (loadTiming s).flash } := by
  unfold loadTiming
  split
  · rfl
  · refine List.foldlRecOn _ _ (motive := fun u : State => u = { s with flash := u.flash }) rfl fun u hu c _ => ?_
    rw [hu]
    rfl

/-- The memories that a bring-up wipes (R497 step 4). -/
structure Wiped (s : State) : Prop where
  hbm : s.hbmMem = []
  sram : s.sramMem = []
  locals : s.localMem = []
  frost : s.frostMem = []
  tiles : s.tiles = []

theorem wiped_loadTiming {s : State} (h : Wiped s) : Wiped (loadTiming s) := by
  rw [loadTiming_flash]
  exact ⟨h.hbm, h.sram, h.locals, h.frost, h.tiles⟩

theorem wiped_drawBytes {s : State} (n : Nat) (h : Wiped s) : Wiped (drawBytes n s).2 := by
  rw [drawOnly_drawBytes n s]
  exact ⟨h.hbm, h.sram, h.locals, h.frost, h.tiles⟩

/-- What stands at the end of a bring-up, before the retirements are told. -/
def broughtUp (s : State) (r n : List Byte × State) : State :=
  { n.2 with
    sec := { n.2.sec with engineKey := r.1, nonce := n.1 }, almanac := Almanac.reset
    fw := { n.2.fw with wdtEnd := BitVec.ofNat 64 (now s + 1000000 * n.2.fw.wdt.toNat) }
    boot := { n.2.boot with stage := 5, released := true } }

theorem bringUp_eq (s : State) (bad : BitVec 64) {k m : Nat} (hk : k = 64) (hm : m = 32) :
    bringUp s bad =
      let s1 := loadTiming (wipeAll (trainAll (finishLcWork (noteLrs s)) bad))
      tellRetired (broughtUp s (drawBytes k s1) (drawBytes m (drawBytes k s1).2)) := by
  subst hk hm
  rfl

/-- A bring-up leaves the fuses alone. -/
theorem fuses_bringUp (s : State) (bad : BitVec 64) : (bringUp s bad).fuses = s.fuses :=
  (keeps_bringUp (R := Eq) (.start rfl) bad).fuses.symm

theorem bringUp_leaves (s : State) (bad : BitVec 64) :
    Wiped (bringUp s bad) ∧ (bringUp s bad).boot.stage = 5 ∧ (bringUp s bad).boot.released = true ∧
      (bringUp s bad).almanac = Almanac.reset ∧ (bringUp s bad).sec.engineKey.length = 64 ∧ (bringUp s bad).sec.nonce.length = 32 := by
  obtain ⟨k, hk⟩ : ∃ k, k = 64 := ⟨_, rfl⟩
  obtain ⟨m, hm⟩ : ∃ m, m = 32 := ⟨_, rfl⟩
  rw [bringUp_eq s bad hk hm]
  generalize trainAll (finishLcWork (noteLrs s)) bad = u
  have hw := wiped_drawBytes m (wiped_drawBytes k (wiped_loadTiming (s := wipeAll u) ⟨rfl, rfl, rfl, rfl, rfl⟩))
  have hkey := length_drawBytes k (loadTiming (wipeAll u))
  have hnonce := length_drawBytes m (drawBytes k (loadTiming (wipeAll u))).2
  dsimp only
  generalize drawBytes k (loadTiming (wipeAll u)) = r at hw hkey hnonce ⊢
  generalize drawBytes m r.2 = n at hw hnonce ⊢
  rw [tellOnly_tellRetired (broughtUp s r n)]
  exact ⟨⟨hw.hbm, hw.sram, hw.locals, hw.frost, hw.tiles⟩, rfl, rfl, rfl, hkey.trans hk, hnonce.trans hm⟩

/-- Settles O45. -/
theorem bootStages : Obligations.bootStages := by
  unfold Obligations.bootStages
  intro s
  refine ⟨fun ht hst hl => ?_, fun ht hst hl => congrArg Host.Outcome.next (firmwareBringup_starts ht hst hl), fun bad => ?_,
    fun ho hst h img hh hok hi => ?_, fun ho hst => congrArg Host.Outcome.next ((hwWrite_open ho _).trans (recoveryGo_elsewhere hst)),
    fun ht => congrArg Host.Outcome.next (if_pos ht)⟩
  · refine ⟨fun ho => congrArg Host.Outcome.next (bootRom_empty ht hst hl ho), fun b rest ho hr he => congrArg Host.Outcome.next ?_,
      fun b ho hr he => congrArg Host.Outcome.next ?_, fun b ho hr => congrArg Host.Outcome.next ?_⟩
    · have htry := trySlot_good (s := bootTrial s 0) (b := b) hr he
      exact (bootRom_starts ht hst hl ho (by rw [htry]; exact stage_activate _ _ _ _ _)).trans htry
    · have htry := trySlot_bad (s := bootTrial s 0) (b := b) hr he
      rw [bootRom_fails ht hst hl ho (by rw [htry]; exact (congrArg Boot.stage (boot_setSlotState ..)).trans hst), htry]
      rfl
    · have htry := trySlot_unread (s := bootTrial s 0) (b := b) hr
      rw [bootRom_fails ht hst hl ho (by rw [htry]; exact (congrArg Boot.stage (boot_setSlotState ..)).trans hst), htry]
      rfl
  · obtain ⟨⟨hh, hs, hloc, hfr, ht⟩, hst, hrel, hal, hkey, hnonce⟩ := bringUp_leaves s bad
    exact ⟨hst, hrel, hh, hs, hloc, hfr, ht, hal, hkey, hnonce, fuses_bringUp s bad⟩
  · have hgo := (hwWrite_open ho recoveryGo).trans (recoveryGo_reads hst hh hok hi)
    exact ⟨fun he => congrArg Host.Outcome.next (hgo.trans (if_pos he)), fun he => congrArg Host.Outcome.next (hgo.trans (if_neg he))⟩

end Sys2Proof.Machine
end

/-! SUPPORT. Power capping and the thermal limits (R505, R506, R512, R523). -/

section
namespace Sys2Proof.Machine

/-! ### The steps of the cap -/

section
variable {p : Power} {w : Nat}

theorem capStep_down_clock (h : p.cap.toNat < w) (hf : 800 < p.capFreq.toNat) :
    p.capStep w = { p with capFreq := p.capFreq - 25, floor := false } := by
  rw [Power.capStep, if_pos h, if_pos hf]

theorem capStep_down_tiles (h : p.cap.toNat < w) (hf : ¬800 < p.capFreq.toNat) (ht : 24 < p.capTiles.toNat) :
    p.capStep w = { p with capTiles := p.capTiles - 8, floor := false } := by
  rw [Power.capStep, if_pos h, if_neg hf, if_pos ht]

theorem capStep_floor (h : p.cap.toNat < w) (hf : ¬800 < p.capFreq.toNat) (ht : ¬24 < p.capTiles.toNat) :
    p.capStep w = { p with floor := true } := by
  rw [Power.capStep, if_pos h, if_neg hf, if_neg ht]

theorem capStep_up_tiles (h : w ≤ p.cap.toNat) (hlow : 100 * w ≤ 95 * p.cap.toNat) (ht : p.capTiles.toNat < 96) :
    p.capStep w = { p with capTiles := p.capTiles + 8, floor := false } := by
  rw [Power.capStep, if_neg (Nat.not_lt.2 h), if_pos hlow, if_pos ht]

theorem capStep_up_clock (h : w ≤ p.cap.toNat) (hlow : 100 * w ≤ 95 * p.cap.toNat) (ht : ¬p.capTiles.toNat < 96)
    (hf : p.capFreq.toNat < 1600) : p.capStep w = { p with capFreq := p.capFreq + 25, floor := false } := by
  rw [Power.capStep, if_neg (Nat.not_lt.2 h), if_pos hlow, if_neg ht, if_pos hf]

theorem capStep_top (h : w ≤ p.cap.toNat) (hlow : 100 * w ≤ 95 * p.cap.toNat) (ht : ¬p.capTiles.toNat < 96)
    (hf : ¬p.capFreq.toNat < 1600) : p.capStep w = { p with floor := false } := by
  rw [Power.capStep, if_neg (Nat.not_lt.2 h), if_pos hlow, if_neg ht, if_neg hf]

theorem capStep_between (h : w ≤ p.cap.toNat) (hmid : ¬100 * w ≤ 95 * p.cap.toNat) : p.capStep w = { p with floor := false } := by
  rw [Power.capStep, if_neg (Nat.not_lt.2 h), if_neg hmid]

end

/-- The clock is between 800 and 1,600 MHz in steps of 25 MHz, the tiles between 24 and 96 in steps of 8. -/
structure CapInRange (p : Power) : Prop where
  slow : 800 ≤ p.capFreq.toNat
  fast : p.capFreq.toNat ≤ 1600
  step : p.capFreq.toNat % 25 = 0
  few : 24 ≤ p.capTiles.toNat
  many : p.capTiles.toNat ≤ 96
  eight : p.capTiles.toNat % 8 = 0

theorem toNat_sub25 {x : BitVec 11} (h : 25 ≤ x.toNat) : (x - 25).toNat = x.toNat - 25 := by bv_omega
theorem toNat_add25 {x : BitVec 11} (h : x.toNat ≤ 1600) : (x + 25).toNat = x.toNat + 25 := by bv_omega
theorem toNat_sub8 {x : BitVec 7} (h : 8 ≤ x.toNat) : (x - 8).toNat = x.toNat - 8 := by bv_omega
theorem toNat_add8 {x : BitVec 7} (h : x.toNat ≤ 96) : (x + 8).toNat = x.toNat + 8 := by bv_omega

section
variable {p : Power} {w : Nat} (hp : CapInRange p)
include hp

/-- Above CAP the clock goes down first, then the tiles. -/
theorem capStep_above (h : p.cap.toNat < w) :
    (p.capStep w).capFreq.toNat = max 800 (p.capFreq.toNat - 25) ∧
      (p.capStep w).capTiles.toNat = (if 800 < p.capFreq.toNat then p.capTiles.toNat else max 24 (p.capTiles.toNat - 8)) := by
  obtain ⟨hslow, hfast, hstep, hfew, hmany, height⟩ := hp
  by_cases hf : 800 < p.capFreq.toNat
  · rw [capStep_down_clock h hf, if_pos hf]
    refine ⟨(toNat_sub25 (by omega)).trans ?_, rfl⟩
    omega
  · rw [if_neg hf]
    by_cases ht : 24 < p.capTiles.toNat
    · rw [capStep_down_tiles h hf ht]
      have htiles := toNat_sub8 (x := p.capTiles) (by omega)
      refine ⟨?_, htiles.trans ?_⟩
      · show p.capFreq.toNat = _
        omega
      · omega
    · rw [capStep_floor h hf ht]
      constructor
      · show p.capFreq.toNat = _
        omega
      · show p.capTiles.toNat = _
        omega

/-- At 5 % or more below CAP the tiles go up first, then the clock. -/
theorem capStep_below (h : w ≤ p.cap.toNat) (hlow : 100 * w ≤ 95 * p.cap.toNat) :
    (p.capStep w).capTiles.toNat = min 96 (p.capTiles.toNat + 8) ∧
      (p.capStep w).capFreq.toNat = (if p.capTiles.toNat < 96 then p.capFreq.toNat else min 1600 (p.capFreq.toNat + 25)) := by
  obtain ⟨hslow, hfast, hstep, hfew, hmany, height⟩ := hp
  by_cases ht : p.capTiles.toNat < 96
  · rw [capStep_up_tiles h hlow ht, if_pos ht]
    refine ⟨(toNat_add8 hmany).trans ?_, rfl⟩
    omega
  · rw [if_neg ht]
    by_cases hf : p.capFreq.toNat < 1600
    · rw [capStep_up_clock h hlow ht hf]
      have hclock := toNat_add25 (x := p.capFreq) hfast
      refine ⟨?_, hclock.trans ?_⟩
      · show p.capTiles.toNat = _
        omega
      · omega
    · rw [capStep_top h hlow ht hf]
      constructor
      · show p.capTiles.toNat = _
        omega
      · show p.capFreq.toNat = _
        omega

/-- A step of the cap stays in range. -/
theorem capStep_inRange : CapInRange (p.capStep w) := by
  rcases Nat.lt_or_ge p.cap.toNat w with h | h
  · obtain ⟨hc, ht⟩ := capStep_above hp h
    obtain ⟨hslow, hfast, hstep, hfew, hmany, height⟩ := hp
    split at ht
    · constructor <;> omega
    · constructor <;> omega
  · by_cases hlow : 100 * w ≤ 95 * p.cap.toNat
    · obtain ⟨ht, hc⟩ := capStep_below hp h hlow
      obtain ⟨hslow, hfast, hstep, hfew, hmany, height⟩ := hp
      split at hc
      · constructor <;> omega
      · constructor <;> omega
    · rw [capStep_between h hlow]
      exact ⟨hp.slow, hp.fast, hp.step, hp.few, hp.many, hp.eight⟩

end

/-! ### Estimates and temperatures -/

section
variable {s : State} (ht : ticking s = true)
include ht

theorem powerEstimate_ticking (w : BitVec 10) :
    powerEstimate s w = setPower s ({ s.power with watts := w }.capStep w.toNat).apply := if_neg (by simp [ht])

theorem thermalThrottle_hot {j h : BitVec 8} (hot : 105 ≤ j.toNat ∨ 95 ≤ h.toNat) :
    thermalThrottle s j h = setPower (sampled s j h) { (sampled s j h).power with throttle := true }.apply := by
  simp only [thermalThrottle, ht, if_pos hot, Bool.not_true, Bool.false_eq_true, if_false]

theorem thermalThrottle_cool {j h : BitVec 8} (hj : j.toNat < 105) (hh : h.toNat < 95) : thermalThrottle s j h = sampled s j h := by
  have hcool : ¬(105 ≤ j.toNat ∨ 95 ≤ h.toNat) := by omega
  simp only [thermalThrottle, ht, if_neg hcool, Bool.not_true, Bool.false_eq_true, if_false]

theorem throttleExit_cool {j h : BitVec 8} (hj : j.toNat < 100) (hh : h.toNat < 90) :
    throttleExit s j h = setPower (sampled s j h) { (sampled s j h).power with throttle := false }.apply := by
  have hcool : j.toNat < 100 ∧ h.toNat < 90 := ⟨hj, hh⟩
  simp only [throttleExit, ht, if_pos hcool, Bool.not_true, Bool.false_eq_true, if_false]

theorem throttleExit_hot {j h : BitVec 8} (hot : 100 ≤ j.toNat ∨ 90 ≤ h.toNat) : throttleExit s j h = sampled s j h := by
  have hwarm : ¬(j.toNat < 100 ∧ h.toNat < 90) := by omega
  simp only [throttleExit, ht, if_neg hwarm, Bool.not_true, Bool.false_eq_true, if_false]

theorem thermtrip_hot {j h : BitVec 8} (hot : 115 ≤ j.toNat ∨ 105 ≤ h.toNat) :
    thermtrip s j h = { sampled s j h with
      power := { (sampled s j h).power with clocksStopped := true }, pins := { (sampled s j h).pins with thermtrip := true } } :=
  if_pos ⟨ht, hot⟩

end

/-- Settles O46. -/
theorem powerAndThermalLimits : Obligations.powerAndThermalLimits := by
  unfold Obligations.powerAndThermalLimits
  refine ⟨?_, ?_⟩
  · intro p w hslow hfast hstep hfew hmany height q
    have hp : CapInRange p := ⟨hslow, hfast, hstep, hfew, hmany, height⟩
    obtain ⟨h1, h2, h3, h4, h5, h6⟩ := capStep_inRange (w := w) hp
    exact ⟨h1, h2, h3, h4, h5, h6, capStep_above hp, capStep_below hp⟩
  · intro s ht set
    refine ⟨fun w => congrArg (fun t => Host.Outcome.next (settleLive t)) (powerEstimate_ticking ht w), fun j h => ?_⟩
    exact ⟨fun hot => congrArg Host.Outcome.next (thermalThrottle_hot ht hot),
      fun hj hh => congrArg Host.Outcome.next (thermalThrottle_cool ht hj hh),
      fun hj hh => congrArg Host.Outcome.next (throttleExit_cool ht hj hh),
      fun hot => congrArg Host.Outcome.next (throttleExit_hot ht hot),
      fun hot => congrArg Host.Outcome.next (thermtrip_hot ht hot)⟩

end Sys2Proof.Machine
end

/-! SUPPORT. SEC_AUTH_CTRL: life-cycle transitions and trust-list updates (R380, R404 to R407). -/

section
namespace Sys2Proof.Machine

/-- How every GO ends: the nonce is redrawn and BUSY falls. -/
def authEnd (u : State) : State :=
  let n := drawBytes 32 u
  { n.2 with sec := { n.2.sec with nonce := n.1, busy := false } }

theorem authGo_eq (s : State) : authGo s = authEnd (if s.sec.op = 0 then lcTransition s else trustUpdate s) := rfl

/-- A GO that no handover holds runs at once, with the OP and the TO of its write. -/
theorem authCtrl_go {s : State} (hb : s.sec.busy = false) (hh : s.fw.handover = none) {v : BitVec 32} (hop : v.extractLsb' 0 2 < 2)
    (hgo : v.getLsbD 5 = true) (hs : strayBits v 0x3F = false) :
    authCtrl s v = authGo { s with sec := { s.sec with op := v.extractLsb' 0 2, toLcs := v.extractLsb' 2 3 } } := by
  have hop' : decide (2 ≤ v.extractLsb' 0 2) = false := decide_eq_false (BitVec.not_le.2 hop)
  have hrun : ¬((!v.getLsbD 5 || s.sec.busy) = true) := by simp [hgo, hb]
  have hheld : ¬(s.fw.handover.isSome = true) := by simp [hh]
  have hquiet : (decide (2 ≤ v.extractLsb' 0 2) || strayBits v 0x3F || (v.getLsbD 5 && s.sec.busy)) = false := by
    rw [hop', hs, hb]
    simp
  unfold authCtrl
  dsimp only
  rw [if_neg hrun, if_neg hheld, hquiet, if_pos hop]
  rfl

/-- The fields of a write that asks for a transition to `tl`. -/
theorem transitionWrite_fields (tl : BitVec 3) :
    let v : BitVec 32 := BitVec.ofNat 32 (0x20 + 4 * tl.toNat)
    v.extractLsb' 0 2 = 0 ∧ v.extractLsb' 2 3 = tl ∧ v.getLsbD 5 = true ∧ strayBits v 0x3F = false := by
  revert tl
  decide

/-! ### Transitions -/

section
variable {s : State}

theorem lcTransition_unlisted (h : transition s.fuses.kepoch s.fuses.lcs s.sec.toLcs = none) : lcTransition s = setAuthErr s 5 := by
  simp only [lcTransition, h]

theorem lcTransition_pf (h : transition s.fuses.kepoch s.fuses.lcs s.sec.toLcs = some .pf) :
    lcTransition s = if s.sec.authAddr.toNat = 0 then acceptTransition s s.sec.toLcs [] else setAuthErr s 5 := by
  simp only [lcTransition, h]

theorem lcTransition_unread {w : Signer} (h : transition s.fuses.kepoch s.fuses.lcs s.sec.toLcs = some w) (hw : w ≠ .pf)
    (ha : s.sec.authAddr.toNat = 0) : lcTransition s = setAuthErr s 1 := by
  cases w with
  | pf => exact absurd rfl hw
  | root => simp only [lcTransition, h, if_pos ha]
  | owner => simp only [lcTransition, h, if_pos ha]

/-- A signed transition goes by the first check that its record fails. -/
theorem lcTransition_signed {w : Signer} {r p : List Byte} (h : transition s.fuses.kepoch s.fuses.lcs s.sec.toLcs = some w)
    (hw : w ≠ .pf) (ha : s.sec.authAddr.toNat ≠ 0) (hr : hostRead s s.sec.authAddr.toNat 29984 = .data r)
    (hp : (if needsPayload s.sec.toLcs then hostRead s (s.sec.authAddr.toNat + 30016) (payLen r) else .data []) = .data p) :
    lcTransition s =
      if recordError s r p s.sec.toLcs w = 0 then acceptTransition s s.sec.toLcs p
      else setAuthErr s (recordError s r p s.sec.toLcs w) := by
  cases w with
  | pf => exact absurd rfl hw
  | root => simp only [lcTransition, h, if_neg ha, hr, hp]
  | owner => simp only [lcTransition, h, if_neg ha, hr, hp]

theorem trustUpdate_read {r : List Byte} (ha : s.sec.authAddr.toNat ≠ 0) (hr : hostRead s s.sec.authAddr.toNat 31200 = .data r) :
    trustUpdate s = if trustError s r = 0 then storeTrust (setAuthErr s 0) r else setAuthErr s (trustError s r) := by
  simp only [trustUpdate, if_neg ha, hr]

end

/-- Only a payload is read for a transition to PROVISIONED. -/
theorem payload_read {s : State} {a : Nat} {tl : BitVec 3} {r p : List Byte} (h : tl ≠ 1 → p = [])
    (h1 : tl = 1 → hostRead s (a + 30016) (payLen r) = .data p) :
    (if needsPayload tl then hostRead s (a + 30016) (payLen r) else .data []) = .data p := by
  by_cases ht : tl = 1
  · subst ht
    exact h1 rfl
  · have hn : ¬needsPayload tl = true := by simpa [needsPayload] using ht
    rw [if_neg hn, h ht]

theorem transition_listed (k : BitVec 2) (a b : BitVec 3) (h : transition k a b ≠ none) :
    (a = 0 ∧ b = 1) ∨ (a = 1 ∧ b = 2) ∨ (a = 2 ∧ b = 3 ∧ k ≤ 2) ∨ (a = 3 ∧ b = 1) ∨ (a ≤ 3 ∧ b = 4) := by
  revert k a b
  decide

/-- Settles O47. -/
theorem authorisedChanges : Obligations.authorisedChanges := by
  unfold Obligations.authorisedChanges
  intro s hs hb hh ended
  refine ⟨?_, ?_, transition_listed, fun tl p => ⟨rfl, rfl, rfl, fun h => if_pos h⟩⟩
  · intro tl v u go
    obtain ⟨hop, hto, hgo, hstray⟩ := transitionWrite_fields tl
    have hrow : go = .next (authEnd (lcTransition u)) := by
      refine congrArg Host.Outcome.next ((pfWrite_serves hs fun u => authCtrl u v).trans ?_)
      rw [authCtrl_go hb hh (by rw [hop]; decide) hgo hstray, hop, hto, authGo_eq]
      rfl
    have hpf : s.fuses.lcs = 1 → tl = 2 → transition s.fuses.kepoch s.fuses.lcs tl = some .pf := by
      intro h1 h2
      rw [h1, h2]
      generalize s.fuses.kepoch = k
      revert k
      decide
    have hends {x : State} (h : lcTransition u = x) : go = .next (ended x) :=
      hrow.trans (congrArg (fun x => Host.Outcome.next (authEnd x)) h)
    refine ⟨fun ht => hends (lcTransition_unlisted ht), fun h1 h2 ha => hends ((lcTransition_pf (hpf h1 h2)).trans (if_pos ?_)),
      fun h1 h2 ha => hends ((lcTransition_pf (hpf h1 h2)).trans (if_neg fun h => ha (BitVec.eq_of_toNat_eq h))),
      fun w ht hw ha => hends (lcTransition_unread ht hw (congrArg BitVec.toNat ha)), fun w r p ht hw ha hr hp hp1 => ?_⟩
    · exact congrArg BitVec.toNat ha
    · have hsigned := lcTransition_signed (s := u) ht hw (fun h => ha (BitVec.eq_of_toNat_eq h)) hr (payload_read hp hp1)
      exact ⟨fun he => hends (hsigned.trans (if_pos he)), fun he => hends (hsigned.trans (if_neg he))⟩
  · intro r ha hr u
    have hrow : exec (.secAuthTrustUpdate 0 0x21) s = .next (authEnd (trustUpdate u)) := by
      refine congrArg Host.Outcome.next ((pfWrite_serves hs fun u => authCtrl u 0x21).trans ?_)
      rw [authCtrl_go hb hh (by decide) (by decide) (by decide), authGo_eq]
      rfl
    have hends {x : State} (h : trustUpdate u = x) : exec (.secAuthTrustUpdate 0 0x21) s = .next (ended x) :=
      hrow.trans (congrArg (fun x => Host.Outcome.next (authEnd x)) h)
    have hread := trustUpdate_read (s := u) (fun h => ha (BitVec.eq_of_toNat_eq h)) hr
    exact ⟨fun he => hends (hread.trans (if_pos he)), fun he => hends (hread.trans (if_neg he))⟩

end Sys2Proof.Machine
end

/-! SUPPORT. Retraining of an HBM channel (R325, R328 to R330, R334). -/

section
namespace Sys2Proof.Machine

/-- A row of the HBM controller, while the stacks are trained. -/
theorem hbmRow_runs {s : State} (h : stacksRun s) (k : State → State) : hbmRow s k = .next (settleLive (k s)) := by
  obtain ⟨ht, hr, hl⟩ := h
  simp only [hbmRow, ht, hr, hl]
  rfl

/-! ### Pseudo-channels -/

theorem pcOf_setPc_ne {s : State} {p q : Nat} (v : Pc) (h : q ≠ p) : pcOf (setPc s p v) q = pcOf s q := tblGetD_tblPut_other _ h ..

@[simp] theorem bankOf_setBank (x : Pc) (b : Nat) (k : Bank) : bankOf (x.setBank b k) b = k := tblGetD_tblPut_same ..

theorem bankOf_setBank_ne {x : Pc} {b c : Nat} (k : Bank) (h : c ≠ b) : bankOf (x.setBank b k) c = bankOf x c :=
  tblGetD_tblPut_other _ h ..

/-- What REFab leaves of one bank. -/
theorem bankOf_refreshed_range (x : Pc) (n b : Nat) :
    bankOf ((List.range n).foldl Pc.refreshed x) b =
      if b < n then { bankOf x b with row := none, left := false, refreshes := (bankOf x b).refreshes + 1 } else bankOf x b := by
  induction n with
  | zero => rfl
  | succ n ih =>
    rw [List.range_succ, List.foldl_append]
    show bankOf (Pc.refreshed _ n) b = _
    by_cases hb : b = n
    · subst hb
      rw [if_neg (Nat.lt_irrefl b)] at ih
      rw [Pc.refreshed, bankOf_setBank, ih, if_pos (Nat.lt_succ_self b)]
    · rw [Pc.refreshed, bankOf_setBank_ne _ hb, ih]
      have hlt : b < n ↔ b < n + 1 := by omega
      simp only [hlt]

theorem late_refreshed_range (x : Pc) (l : List Nat) : (l.foldl Pc.refreshed x).late = x.late :=
  List.foldlRecOn l Pc.refreshed (motive := fun y => y.late = x.late) rfl fun y h b _ => (rfl : (y.refreshed b).late = y.late).trans h

/-- An operation that keeps whether a threshold was reached late. -/
theorem late_refreshAll (s : State) (p q : Nat) : (pcOf (refreshAll s p) q).late = (pcOf s q).late := by
  unfold refreshAll
  split
  · rfl
  · by_cases h : q = p
    · subst h
      rw [pcOf_setPc, late_refreshed_range]
    · rw [pcOf_setPc_ne _ h]

theorem late_prechargePc (s : State) (p q : Nat) (reset : Bool) : (pcOf (prechargePc s p reset) q).late = (pcOf s q).late := by
  unfold prechargePc
  by_cases h : q = p
  · subst h
    rw [pcOf_setPc]
  · rw [pcOf_setPc_ne _ h]

theorem pcOf_markTrained (s : State) (c q : Nat) : pcOf (markTrained s c) q = pcOf s q := rfl

/-- A pseudo-channel with empty queues has nothing to drain. -/
theorem drainPc_empty {s : State} {p : Nat} (h : (pcOf s p).reads = [] ∧ (pcOf s p).writes = []) (n : Nat) : drainPc p n s = s := by
  cases n with
  | zero => rfl
  | succ n => simp [drainPc, h]

theorem pushReq_held {s : State} {p : Nat} (h : pcHeld s p = true) (r : HbmReq) :
    pushReq s p r = setPc s p { pcOf s p with stalled := (pcOf s p).stalled ++ [r] } := by
  have hheld : pcHeld (setPc s p { pcOf s p with stalled := (pcOf s p).stalled ++ [r] }) p = true := h
  unfold pushReq admitStalled
  exact if_pos (by rw [hheld, Bool.or_true])

/-! ### The rows -/

theorem retrainCtrl_plain {s : State} {v : BitVec 32} (hs : strayBits v 0x7FFFFFFF = false) :
    retrainCtrl s v =
      let u : State := { s with hbm := { s.hbm with retrainPeriod := v.extractLsb' 0 16, retrainDelta := v.extractLsb' 16 8 } }
      if v.getLsbD 24 then makeDue u (v.extractLsb' 25 6).toNat else u := by
  unfold retrainCtrl
  rw [hs]
  rfl

theorem retrainStart_next {s : State} {c : BitVec 6} (h : nextRetrain s = some c.toNat) :
    retrainStart s c.toNat =
      let u : State := { s with hbm := { s.hbm with retraining := some c, retrainChan := c } }
      let a := drainPc (2 * c.toNat) (queuedBursts u (2 * c.toNat)) u
      let b := drainPc (2 * c.toNat + 1) (queuedBursts a (2 * c.toNat + 1)) a
      refreshAll (refreshAll b (2 * c.toNat)) (2 * c.toNat + 1) := by
  unfold retrainStart
  rw [if_pos h, BitVec.ofNat_toNat, BitVec.setWidth_eq]

/-- The channel of a training that ended well, before a threshold that was reached late takes effect. -/
def retrained (s : State) (n : Nat) : State :=
  let u : State := { s with hbm := { s.hbm with retraining := none, retrainCount := s.hbm.retrainCount + 1 } }
  let r := refreshAll (refreshAll u (2 * n)) (2 * n + 1)
  markTrained (prechargePc (prechargePc r (2 * n) true) (2 * n + 1) true) n

theorem late_retrained (s : State) (n q : Nat) : (pcOf (retrained s n) q).late = (pcOf s q).late := by
  unfold retrained
  rw [pcOf_markTrained, late_prechargePc, late_prechargePc, late_refreshAll, late_refreshAll]
  rfl

theorem lateThreshold_none {s : State} {p : Nat} (h : (pcOf s p).late = false) : lateThreshold s p = s :=
  if_neg (ne_true_of_eq_false h)

theorem retrainEnd_good {s : State} {c : BitVec 6} (h : s.hbm.retraining = some c) :
    retrainEnd s true =
      let w := lateThreshold (lateThreshold (retrained s c.toNat) (2 * c.toNat)) (2 * c.toNat + 1)
      admitStalled (admitStalled w (2 * c.toNat)) (2 * c.toNat + 1) := by
  simp only [retrainEnd, h]
  rfl

theorem retrainEnd_bad {s : State} {c : BitVec 6} (h : s.hbm.retraining = some c) :
    retrainEnd s false =
      let u : State := { s with hbm := { s.hbm with retraining := none, retrainCount := s.hbm.retrainCount + 1 } }
      retirePc (retirePc u (2 * c.toNat) 5) (2 * c.toNat + 1) 5 := by
  simp only [retrainEnd, h]
  rfl

theorem retrainEnd_none {s : State} (h : s.hbm.retraining = none) (good : Bool) : retrainEnd s good = s := by
  simp only [retrainEnd, h]

/-- Settles O48. -/
theorem channelsRetrain : Obligations.channelsRetrain := by
  unfold Obligations.channelsRetrain
  refine ⟨?_, ?_, ?_⟩
  · intro s v hs hv u c
    have hrow := (pfWrite_serves hs fun u => retrainCtrl u v).trans (retrainCtrl_plain hv)
    exact ⟨fun h => congrArg Host.Outcome.next (hrow.trans (if_pos h)),
      fun h => congrArg Host.Outcome.next (hrow.trans (if_neg (ne_true_of_eq_false h)))⟩
  · intro s c hs n
    have hdue : exec (.retrainDue c) s = _ := hbmRow_runs hs fun u => if retrainTrigger u c.toNat then makeDue u c.toNat else u
    have hstart : exec (.retrainStart c) s = _ := hbmRow_runs hs fun u => retrainStart u c.toNat
    have hend (good : Bool) : exec (.retrainEnd good) s = _ := hbmRow_runs hs fun u => retrainEnd u good
    refine ⟨fun h => hdue.trans ?_, fun h => hdue.trans ?_, fun h => ?_, fun h => hstart.trans ?_, fun h => ?_,
      fun h good => (hend good).trans ?_⟩
    · rw [if_pos h]
      rfl
    · rw [if_neg (ne_true_of_eq_false h)]
    · intro u a b
      refine ⟨hstart.trans (congrArg (fun t => Host.Outcome.next (settleLive t)) (retrainStart_next h)), fun hempty => ?_⟩
      have ha : a = u := drainPc_empty (s := u) (hempty _ (.inl rfl)) _
      have hb : b = drainPc (2 * n + 1) (queuedBursts u (2 * n + 1)) u :=
        congrArg (fun v => drainPc (2 * n + 1) (queuedBursts v (2 * n + 1)) v) ha
      exact hb.trans (drainPc_empty (s := u) (hempty _ (.inr rfl)) _)
    · rw [retrainStart, if_neg h]
    · intro u r t w
      refine ⟨(hend true).trans (congrArg (fun t => Host.Outcome.next (settleLive t)) (retrainEnd_good h)), fun h0 h1 => ?_,
        (hend false).trans (congrArg (fun t => Host.Outcome.next (settleLive t)) (retrainEnd_bad h))⟩
      have hfirst : lateThreshold t (2 * n) = t := lateThreshold_none ((late_retrained s n _).trans h0)
      have hw : w = lateThreshold t (2 * n + 1) := congrArg (fun v => lateThreshold v (2 * n + 1)) hfirst
      exact hw.trans (lateThreshold_none ((late_retrained s n _).trans h1))
    · rw [retrainEnd_none h]
  · intro s p
    refine ⟨fun hp b hb => ?_, fun c => chanOf_setChan .., fun r h => pushReq_held h r⟩
    rw [refreshAll, if_neg (ne_true_of_eq_false hp), pcOf_setPc, bankOf_refreshed_range, if_pos hb]

end Sys2Proof.Machine
end

/-! SUPPORT. Errors of the HBM, their recovery, and what a retirement leaves (R306, R326, R327, R332, R334, R458, R485, R488). -/

section
namespace Sys2Proof.Machine

/-! ### Transient events -/

/-- A transient event of a pseudo-channel in service. -/
theorem transientPc_live {s : State} {p : Nat} (h : s.retired.pcs.contains p = false) :
    transientPc s p =
      let times := (pcOf s p).transient.filter (fun a => decide (now s ≤ a + s.hbm.transWindow.toNat * 1000000)) ++ [now s]
      let full := decide (s.hbm.transLimit.toNat ≤ times.length)
      let u := setPc s p { pcOf s p with transient := times, late := (pcOf s p).late || (full && pcHeld s p) }
      if full = true ∧ pcHeld s p = false then retirePc u p 1 else u := by
  unfold transientPc
  rw [if_neg (ne_true_of_eq_false h)]
  simp only [Bool.and_eq_true, Bool.not_eq_true']
  rfl

theorem parityError_retired {s : State} {p : Nat} (h : s.retired.pcs.contains p = true) (again : Bool) : parityError s p again = s :=
  if_pos h

theorem parityError_once {s : State} {p : Nat} (h : s.retired.pcs.contains p = false) : parityError s p false = transientPc s p :=
  if_neg (ne_true_of_eq_false h)

/-- A repeat that fails as well fails the training, or retires the pseudo-channel. -/
theorem parityError_again {s : State} {p : Nat} (h : s.retired.pcs.contains p = false) :
    parityError s p true = if pcHeld s p = true then retrainEnd s false else retirePc s p 4 := if_neg (ne_true_of_eq_false h)

theorem uncorrectableBurst_live {s : State} {a : BitVec 38} (hq : a.toNat / 65536 < hbmQuads s)
    (h : s.retired.pcs.contains (quadPc (a.toNat / 65536)) = false) (again : Bool) :
    uncorrectableBurst s a again = burstFault s (quadPc (a.toNat / 65536)) again := if_pos ⟨hq, by rw [h]; rfl⟩

/-! ### AERR -/

section
variable {s : State} {c : Nat}

theorem aerr_none (h : [2 * c, 2 * c + 1].filter (fun p => !s.retired.pcs.contains p) = []) (w : Nat) (again : Bool) :
    aerr s c w again = s := by
  unfold aerr
  rw [h]
  rfl

theorem aerr_live (h : [2 * c, 2 * c + 1].filter (fun p => !s.retired.pcs.contains p) ≠ []) (w : Nat) (again : Bool) :
    aerr s c w again =
      if (again || pcHeld s (2 * c)) = true then retryFailed s (2 * c) true 3
      else
        let live := [2 * c, 2 * c + 1].filter fun p => !s.retired.pcs.contains p
        let buf := (chanOf s c).retry.filter fun q => live.contains q.pc
        let l := buf.drop (buf.length - w)
        let t := replayRows (live.foldl (fun u p => prechargePc u p false) s) l
        live.foldl (fun u p => if l.any (fun q => q.pc == p) = true then transientPc u p else u) t :=
  if_neg fun hl => h (List.isEmpty_iff.1 hl)

theorem retryFailed_held (h : pcHeld s (2 * c) = true) : retryFailed s (2 * c) true 3 = retrainEnd s false := if_pos h

theorem retryFailed_both (h : pcHeld s (2 * c) = false) :
    retryFailed s (2 * c) true 3 = retirePc (retirePc s (2 * c) 3) (2 * c + 1) 3 := by
  unfold retryFailed
  rw [if_neg (ne_true_of_eq_false h), if_pos rfl, Nat.mul_div_cancel_left _ (by decide : 0 < 2)]
  rfl

end

/-! ### Retirements -/

/-- What is told or left to tell of a retirement, in the firmware's part. -/
theorem fw_tellRetire (s : State) (r : Untold) :
    (tellRetire s r).fw = (logFaultAt s r.time r.frame.toNat 3 0 r.kind r.unit 0).fw :=
  (hostOnly_raiseEvent (HostOnly.refl _) ..).fw

theorem retired_tellRetire (s : State) (r : Untold) : (tellRetire s r).retired = s.retired := by rw [tellOnly_tellRetire s r]

theorem retired_noteRetire (s : State) (k u : Nat) : (noteRetire s k u).retired = { s.retired with total := s.retired.total + 1 } := by
  unfold noteRetire
  dsimp only
  split
  · rfl
  · rw [retired_tellRetire]

theorem faultRetire_noteRetire (s : State) (k u : Nat) : (noteRetire s k u).fw.faultRetire = true := by
  unfold noteRetire
  dsimp only
  split
  · rfl
  · rw [fw_tellRetire]
    rfl

theorem flash_noteRetire (s : State) (k u : Nat) : (noteRetire s k u).flash = s.flash := by
  unfold noteRetire
  dsimp only
  split
  · rfl
  · rw [tellOnly_tellRetire]

theorem tiles_noteRetire (s : State) (k u : Nat) : (noteRetire s k u).tiles = s.tiles := by
  unfold noteRetire
  dsimp only
  split
  · rfl
  · rw [tellOnly_tellRetire]

/-- While the telemetry worker runs, a retirement is logged. -/
theorem logSeq_noteRetire {s : State} (h : telStopped s = false) (k u : Nat) : (noteRetire s k u).fw.logSeq = s.fw.logSeq + 1 := by
  unfold noteRetire
  dsimp only
  rw [if_neg (ne_true_of_eq_false h), fw_tellRetire]
  rfl

/-- While it is stopped, a retirement is told later. -/
theorem untold_noteRetire {s : State} (h : telStopped s = true) (k u : Nat) :
    (noteRetire s k u).fw.logSeq = s.fw.logSeq ∧ (noteRetire s k u).fw.untold.length = s.fw.untold.length + 1 := by
  unfold noteRetire
  dsimp only
  rw [if_pos h]
  exact ⟨rfl, List.length_append⟩

/-- A flash channel that stops to serve, before the retirement is noted. -/
def flashLost (s : State) (ch : Nat) (cause : BitVec 4) : State :=
  let u := setFlashChan s ch { flashChanOf s ch with retired := true, cause := cause, switching := false }
  { u with
    retired := { u.retired with flash := ch :: u.retired.flash }
    fw := if ch < 4 then { u.fw with slotA := u.fw.slotA.loseChannel ch }
          else { u.fw with slotB := u.fw.slotB.loseChannel (ch - 4) } }

theorem retireFlash_retired {s : State} {ch : Nat} (h : s.retired.flash.contains ch = true) (cause : BitVec 4) :
    retireFlash s ch cause = s := if_pos h

theorem retireFlash_live {s : State} {ch : Nat} (h : s.retired.flash.contains ch = false) (cause : BitVec 4) :
    retireFlash s ch cause = noteRetire (flashLost s ch cause) 1 ch := if_neg (ne_true_of_eq_false h)

theorem fw_flashLost (s : State) (ch : Nat) (cause : BitVec 4) :
    (flashLost s ch cause).fw.logSeq = s.fw.logSeq ∧ (flashLost s ch cause).fw.untold = s.fw.untold := by
  unfold flashLost
  dsimp only
  split <;> exact ⟨rfl, rfl⟩

theorem retired_flashLost (s : State) (ch : Nat) (cause : BitVec 4) : (flashChanOf (flashLost s ch cause) ch).retired = true :=
  congrArg FlashChan.retired (flashChanOf_setFlashChan s ch { flashChanOf s ch with retired := true, cause := cause, switching := false })

theorem retireTile_retired {s : State} {t : Nat} {slice : Bool} (h : s.retired.tiles.contains t = true)
    (hs : slice = false ∨ s.retired.slices.contains t = true) : retireTile s t slice = s := by
  have hslice : (slice && !s.retired.slices.contains t) = false := by
    rcases hs with h | h
    · rw [h, Bool.false_and]
    · rw [h, Bool.not_true, Bool.and_false]
  unfold retireTile
  dsimp only
  rw [h, hslice]
  rfl

theorem retireTile_tile {s : State} {t : Nat} (h : s.retired.tiles.contains t = false) (he : (tileOf s t).entry = none) :
    retireTile s t false = noteRetire { s with retired := { s.retired with tiles := t :: s.retired.tiles } } 3 t := by
  have he' : (tileOf (noteRetire { s with retired := { s.retired with tiles := t :: s.retired.tiles } } 3 t) t).entry = none := by
    rw [tileOf, tiles_noteRetire]
    exact he
  unfold retireTile
  dsimp only
  rw [h]
  simp only [Bool.not_false, Bool.not_true, Bool.false_and, Bool.false_eq_true, if_false, if_true, he']

theorem retireTile_slice {s : State} {t : Nat} (h : s.retired.tiles.contains t = true) (hs : s.retired.slices.contains t = false)
    (he : (tileOf s t).entry = none) :
    retireTile s t true =
      loseQuads (noteRetire { s with retired := { s.retired with slices := t :: s.retired.slices } } 4 t) true
        (fun q => q / 256 == t) t := by
  have he' : (tileOf (noteRetire { s with retired := { s.retired with slices := t :: s.retired.slices } } 4 t) t).entry = none := by
    rw [tileOf, tiles_noteRetire]
    exact he
  unfold retireTile
  dsimp only
  rw [h, hs]
  simp only [Bool.not_false, Bool.not_true, Bool.true_and, Bool.false_eq_true, Bool.and_false, if_false, if_true, he']

/-- Without contexts and requests, quads that are lost retire nothing else. -/
theorem retired_loseQuads {s : State} (hc : s.ctxs = []) (hd : s.docket.entries = []) (gone : Nat → Bool) (unit : Nat) :
    (loseQuads s true gone unit).retired = s.retired := by
  simp only [loseQuads, faultStreams, setStore, hc, hd, List.filter_nil, List.map_nil, List.foldl_nil, if_true]

theorem ctxs_noteRetire (s : State) (k u : Nat) :
    (noteRetire s k u).ctxs = s.ctxs ∧ (noteRetire s k u).docket = s.docket := by
  unfold noteRetire
  dsimp only
  split
  · exact ⟨rfl, rfl⟩
  · rw [tellOnly_tellRetire]
    exact ⟨rfl, rfl⟩

/-- Settles O49. -/
theorem errorsCountAndRetire : Obligations.errorsCountAndRetire := by
  unfold Obligations.errorsCountAndRetire
  refine ⟨?_, ?_, ?_⟩
  · intro s pc hs p times full u counted failed
    have hderr (again : Bool) : exec (.derr pc again) s = _ := hbmRow_runs hs fun u => parityError u pc.toNat again
    have hpar (again : Bool) : exec (.readParityError pc again) s = _ := hbmRow_runs hs fun u => parityError u pc.toNat again
    have hburst (a : BitVec 38) (again : Bool) : exec (.uncorrectableBurst a again) s = _ :=
      hbmRow_runs hs fun u => uncorrectableBurst u a again
    refine ⟨fun h => ?_, fun h again => ⟨(hderr again).trans ?_, (hpar again).trans ?_⟩⟩
    · have hc := congrArg (fun t => (Host.Outcome.next (settleLive t) : Host.Outcome State Fault Refusal))
        ((parityError_once h).trans (transientPc_live h))
      have hf := congrArg (fun t => (Host.Outcome.next (settleLive t) : Host.Outcome State Fault Refusal)) (parityError_again h)
      refine ⟨(hderr _).trans hc, (hpar _).trans hc, (hderr _).trans hf, (hpar _).trans hf, fun a hq hp => ?_⟩
      have hlive : s.retired.pcs.contains (quadPc (a.toNat / 65536)) = false := by rw [hp]; exact h
      have hb (again : Bool) : uncorrectableBurst s a again = burstFault s p again := by rw [uncorrectableBurst_live hq hlive, hp]
      exact ⟨(hburst a _).trans (congrArg (fun t => Host.Outcome.next (settleLive t)) ((hb false).trans (transientPc_live h))),
        (hburst a _).trans (congrArg (fun t => Host.Outcome.next (settleLive t)) (hb true))⟩
    · rw [parityError_retired h]
    · rw [parityError_retired h]
  · intro s c w hs n live buf l t
    have hrow (again : Bool) : exec (.aerr c w again) s = _ := hbmRow_runs hs fun u => aerr u c.toNat w again
    refine ⟨fun hl hp => ⟨?_, ?_⟩, fun hl hp again => ?_, fun hl again => ?_⟩
    · refine (hrow false).trans (congrArg (fun t => Host.Outcome.next (settleLive t)) ?_)
      exact (aerr_live hl w false).trans (if_neg (ne_true_of_eq_false (show (false || pcHeld s (2 * n)) = false from hp)))
    · refine (hrow true).trans (congrArg (fun t => Host.Outcome.next (settleLive t)) ?_)
      exact ((aerr_live hl w true).trans (if_pos rfl)).trans (retryFailed_both hp)
    · refine (hrow again).trans (congrArg (fun t => Host.Outcome.next (settleLive t)) ?_)
      exact ((aerr_live hl w again).trans (if_pos (by rw [hp, Bool.or_true]))).trans (retryFailed_held hp)
    · exact (hrow again).trans (congrArg (fun t => Host.Outcome.next (settleLive t)) (aerr_none hl w again))
  · intro s p ch t cause slice
    refine ⟨fun h => if_pos h, fun h => retireFlash_retired h cause, retireTile_retired, ?_, fun h he => ?_,
      fun h hsl he hc hd => ?_⟩
    · intro h u
      have hu : u = noteRetire (flashLost s ch cause) 1 ch := retireFlash_live h cause
      obtain ⟨hseq, hunt⟩ := fw_flashLost s ch cause
      rw [hu]
      refine ⟨retired_noteRetire _ _ _, faultRetire_noteRetire _ _ _, ?_, fun ht => ?_, fun ht => ?_⟩
      · rw [flashChanOf, flash_noteRetire]
        exact retired_flashLost s ch cause
      · rw [logSeq_noteRetire (s := flashLost s ch cause) ht, hseq]
      · have hlater := untold_noteRetire (s := flashLost s ch cause) ht 1 ch
        rw [hseq, hunt] at hlater
        exact hlater
    · rw [retireTile_tile h he]
      exact ⟨retired_noteRetire _ _ _, faultRetire_noteRetire _ _ _⟩
    · obtain ⟨hctx, hdoc⟩ := ctxs_noteRetire { s with retired := { s.retired with slices := t :: s.retired.slices } } 4 t
      rw [retireTile_slice h hsl he, retired_loseQuads (hctx.trans hc) ((congrArg Docket.entries hdoc).trans hd), retired_noteRetire]

end Sys2Proof.Machine
end

/-! SUPPORT. Symbol corrections, refresh, temperatures and the timers of the HBM controller (R305, R311, R318, R319, R321, R324). -/

section
namespace Sys2Proof.Machine

/-! ### Symbols -/

theorem symbolCorrection_corrected {s : State} {b w : List Byte} (hb : b.length = 34) (h : symbolDecode b = .corrected w) :
    symbolCorrection s b = bump s 5 1 := by
  simp only [symbolCorrection, h, hb, if_true]

theorem symbolCorrection_clean {s : State} {b : List Byte} (h : symbolDecode b = .clean) : symbolCorrection s b = s := by
  simp only [symbolCorrection, h]

/-! ### Refresh -/

section
variable {s : State} {p b : Nat} (hp : s.retired.pcs.contains p = false) (hh : pcHeld s p = false) (hb : b < 16 * nsid s)
include hp hh hb

/-- The turn of the bank falls due. -/
theorem refreshBank_due (hn : b = (pcOf s p).refNext) (hd : (pcOf s p).refDue.toNat ≤ now s) : refreshBank s p b = dueRefresh s p b := by
  have hin : ¬(s.retired.pcs.contains p || decide (16 * nsid s ≤ b)) = true := by rw [hp, decide_eq_false (Nat.not_le.2 hb)]; decide
  exact (if_neg hin).trans ((if_pos ⟨hn, hd⟩).trans (if_neg (ne_true_of_eq_false hh)))

/-- A refresh out of its turn. -/
theorem refreshBank_early (h : ¬(b = (pcOf s p).refNext ∧ (pcOf s p).refDue.toNat ≤ now s)) : refreshBank s p b = earlyRefresh s p b := by
  have hin : ¬(s.retired.pcs.contains p || decide (16 * nsid s ≤ b)) = true := by rw [hp, decide_eq_false (Nat.not_le.2 hb)]; decide
  exact (if_neg hin).trans ((if_neg h).trans (if_neg (ne_true_of_eq_false hh)))

end

theorem bankOf_nextTurn (s : State) (p b : Nat) (x : Pc) : bankOf (nextTurn s p x) b = bankOf x b := rfl

section
variable {s : State} {p b : Nat}

theorem dueRefresh_ahead (h : 0 < (bankOf (pcOf s p) b).ahead) :
    dueRefresh s p b = setPc s p ((nextTurn s p (pcOf s p)).setBank b
      { bankOf (pcOf s p) b with ahead := (bankOf (pcOf s p) b).ahead - 1 }) := congrArg (setPc s p) (if_pos h)

theorem dueRefresh_owed (h : (bankOf (pcOf s p) b).ahead = 0) (hp : postpones s (nextTurn s p (pcOf s p)) b = true)
    (ho : (bankOf (pcOf s p) b).owed < Config.refreshLimit) :
    dueRefresh s p b = setPc s p ((nextTurn s p (pcOf s p)).setBank b
      { bankOf (pcOf s p) b with owed := (bankOf (pcOf s p) b).owed + 1 }) :=
  congrArg (setPc s p) ((if_neg (Nat.not_lt.2 h.le)).trans (if_pos (Bool.and_eq_true_iff.2 ⟨hp, decide_eq_true ho⟩)))

theorem dueRefresh_issued (h : (bankOf (pcOf s p) b).ahead = 0)
    (hp : postpones s (nextTurn s p (pcOf s p)) b = false ∨ Config.refreshLimit ≤ (bankOf (pcOf s p) b).owed) :
    dueRefresh s p b = setPc s p ((nextTurn s p (pcOf s p)).refreshed b) := by
  have hno : (postpones s (nextTurn s p (pcOf s p)) b && decide ((bankOf (pcOf s p) b).owed < Config.refreshLimit)) = false := by
    rcases hp with hp | hp
    · rw [hp, Bool.false_and]
    · rw [decide_eq_false (Nat.not_lt.2 hp), Bool.and_false]
  exact congrArg (setPc s p) ((if_neg (Nat.not_lt.2 h.le)).trans (if_neg (ne_true_of_eq_false hno)))

/-- A bank that is set and then refreshed. -/
theorem refreshed_setBank (x : Pc) (b : Nat) (k : Bank) :
    (x.setBank b k).refreshed b =
      (x.setBank b k).setBank b { k with row := none, left := false, refreshes := k.refreshes + 1 } := by
  unfold Pc.refreshed
  rw [bankOf_setBank]

theorem earlyRefresh_paid (h : 0 < (bankOf (pcOf s p) b).owed) (hp : postpones s (pcOf s p) b = false) :
    earlyRefresh s p b = setPc s p (((pcOf s p).setBank b
      { bankOf (pcOf s p) b with owed := (bankOf (pcOf s p) b).owed - 1 }).refreshed b) := by
  unfold earlyRefresh
  simp only [if_pos h, hp, Bool.false_eq_true, if_false]

theorem earlyRefresh_postponed (h : 0 < (bankOf (pcOf s p) b).owed) (hp : postpones s (pcOf s p) b = true) : earlyRefresh s p b = s := by
  unfold earlyRefresh
  simp only [if_pos h, hp, if_true]

theorem earlyRefresh_pulledIn (h : (bankOf (pcOf s p) b).owed = 0)
    (hq : (((pcOf s p).reads ++ (pcOf s p).writes).any fun r => r.bank == b) = false)
    (ha : (bankOf (pcOf s p) b).ahead < Config.refreshLimit) :
    earlyRefresh s p b = setPc s p (((pcOf s p).setBank b
      { bankOf (pcOf s p) b with ahead := (bankOf (pcOf s p) b).ahead + 1 }).refreshed b) := by
  unfold earlyRefresh
  simp only [h, hq, decide_eq_false (Nat.not_le.2 ha), Nat.lt_irrefl, if_false, Bool.false_or, Bool.false_eq_true]

end

/-! ### Temperatures -/

/-- The higher of a temperature and one that was read. -/
def hotter (a : BitVec 8) (b : Option (BitVec 8)) : BitVec 8 := match b with | some t => if a < t then t else a | none => a

theorem le_hotter (a : BitVec 8) (b : Option (BitVec 8)) : a ≤ hotter a b := by
  cases b with
  | none => exact BitVec.le_refl a
  | some t =>
    unfold hotter
    dsimp only
    split
    · exact BitVec.le_of_lt ‹_›
    · exact BitVec.le_refl a

theorem some_le_hotter (a t : BitVec 8) : t ≤ hotter a (some t) := by
  unfold hotter
  dsimp only
  split
  · exact BitVec.le_refl t
  · exact BitVec.not_lt.1 ‹_›

theorem le_foldl_hotter (l : List (Option (BitVec 8))) (a : BitVec 8) : a ≤ l.foldl hotter a := by
  induction l generalizing a with
  | nil => exact BitVec.le_refl a
  | cons b l ih => exact BitVec.le_trans (le_hotter a b) (ih _)

theorem mem_le_foldl_hotter {l : List (Option (BitVec 8))} {t : BitVec 8} (h : some t ∈ l) (a : BitVec 8) : t ≤ l.foldl hotter a := by
  induction l generalizing a with
  | nil => cases h
  | cons b l ih =>
    rcases List.mem_cons.1 h with rfl | h
    · exact BitVec.le_trans (some_le_hotter a t) (le_foldl_hotter l _)
    · exact ih h _

theorem foldl_hotter_mem (l : List (Option (BitVec 8))) (a : BitVec 8) : l.foldl hotter a ∈ a :: l.filterMap id := by
  induction l generalizing a with
  | nil => exact List.mem_singleton.2 rfl
  | cons b l ih =>
    have h := ih (hotter a b)
    cases b with
    | none => exact h
    | some t =>
      rw [List.foldl_cons]
      by_cases hlt : a < t
      · rw [show hotter a (some t) = t from if_pos hlt] at h ⊢
        exact List.mem_cons_of_mem a h
      · rw [show hotter a (some t) = a from if_neg hlt] at h ⊢
        rcases List.mem_cons.1 h with h | h
        · exact List.mem_cons.2 (.inl h)
        · exact List.mem_cons_of_mem a (List.mem_cons_of_mem t h)

/-- A channel that was trained before any readout takes the first one as its reference. -/
def takeReference (celsius : BitVec 8) (u : State) (c : Nat) : State :=
  match (chanOf u c).trainedTemp with
  | none => setChan u c { chanOf u c with trainedTemp := some celsius }
  | some _ => u

/-- Only channels without a reference differ. -/
structure ReferenceOnly (s t : State) : Prop where
  rest : t = { s with hbm := { s.hbm with chans := t.hbm.chans } }
  set : ∀ n a, (chanOf s n).trainedTemp = some a → chanOf t n = chanOf s n

theorem ReferenceOnly.trans {s t u : State} (h : ReferenceOnly s t) (k : ReferenceOnly t u) : ReferenceOnly s u := by
  refine ⟨?_, fun n a ha => ?_⟩
  · have hk := k.rest
    rw [h.rest] at hk
    exact hk
  · rw [← h.set n a ha]
    exact k.set n a (by rw [h.set n a ha]; exact ha)

theorem chanOf_setChan_ne {s : State} {c n : Nat} (v : Chan) (h : n ≠ c) : chanOf (setChan s c v) n = chanOf s n :=
  tblGetD_tblPut_other _ h ..

theorem referenceOnly_takeReference (celsius : BitVec 8) (s : State) (c : Nat) : ReferenceOnly s (takeReference celsius s c) := by
  unfold takeReference
  split
  case h_1 hnone =>
    refine ⟨rfl, fun n a ha => chanOf_setChan_ne _ ?_⟩
    rintro rfl
    rw [hnone] at ha
    cases ha
  case h_2 => exact ⟨rfl, fun _ _ _ => rfl⟩

/-- The readout itself, before the references. -/
def tempRead (s : State) (stack : Nat) (celsius : BitVec 8) : State :=
  { s with
    hbm := { s.hbm with temps := s.hbm.temps.set stack (some celsius) }
    power := { s.power with thbm := (s.hbm.temps.set stack (some celsius)).foldl hotter 0 } }

theorem readTemp_eq (s : State) (stack : Nat) (celsius : BitVec 8) :
    readTemp s stack celsius =
      (List.range 16).foldl (fun u i => takeReference celsius u (16 * stack + i)) (tempRead s stack celsius) := rfl

theorem referenceOnly_readTemp (s : State) (stack : Nat) (celsius : BitVec 8) :
    ReferenceOnly (tempRead s stack celsius) (readTemp s stack celsius) := by
  rw [readTemp_eq]
  exact List.foldlRecOn _ _ (motive := ReferenceOnly (tempRead s stack celsius)) ⟨rfl, fun _ _ _ => rfl⟩
    fun u hu i _ => hu.trans (referenceOnly_takeReference _ _ _)

/-! ### Timers -/

theorem ageRequest_read {s : State} {p i : Nat} {r : HbmReq} (hr : (pcOf s p).reads[i]? = some r)
    (ho : r.issued.toNat + s.hbm.ageLimit.toNat < now s) :
    ageRequest s p i = setPc s p { pcOf s p with reads := (pcOf s p).reads.set i { r with aged := true } } := by
  obtain ⟨hi, hri⟩ := List.getElem?_eq_some_iff.1 hr
  have hreads : (pcOf s p).reads.mapIdx (fun k r => if k = i then
      (if r.issued.toNat + s.hbm.ageLimit.toNat < now s then { r with aged := true } else r) else r) =
      (pcOf s p).reads.set i { r with aged := true } := by
    refine List.ext_getElem (by simp) fun k hk hk' => ?_
    rw [List.getElem_mapIdx, List.getElem_set]
    by_cases hki : i = k
    · subst hki
      rw [if_pos rfl, if_pos rfl, hri, if_pos ho]
    · rw [if_neg (Ne.symm hki), if_neg hki]
  have hwrites : (pcOf s p).writes.mapIdx (fun k r => if k + (pcOf s p).reads.length = i then
      (if r.issued.toNat + s.hbm.ageLimit.toNat < now s then { r with aged := true } else r) else r) = (pcOf s p).writes := by
    refine List.ext_getElem (by simp) fun k hk hk' => ?_
    rw [List.getElem_mapIdx, if_neg (by omega)]
  unfold ageRequest
  dsimp only
  rw [hreads, hwrites]

theorem drains_full {x : Pc} (hw : x.writes ≠ []) (h : x.reads = [] ∨ 48 ≤ burstsOf x.writes) : drains x = true := by
  unfold drains
  rcases h with h | h <;> simp [hw, h]

theorem drains_part {x : Pc} (hw : x.writes ≠ []) (hr : x.reads ≠ []) (h : burstsOf x.writes < 48) :
    drains x = (x.draining && decide (16 < burstsOf x.writes)) := by
  have hwe : x.writes.isEmpty = false := by simpa using hw
  have hre : x.reads.isEmpty = false := by simpa using hr
  unfold drains
  dsimp only
  rw [hwe, hre, decide_eq_false (Nat.not_le.2 h)]
  rfl

theorem writeDrain_waits {s : State} {p : Nat} (h : (pcOf s p).writes ≠ []) :
    writeDrain s p = setPc s p { pcOf s p with draining := drains (pcOf s p) } := by
  unfold writeDrain
  rw [if_neg (by simpa using h)]
  rfl

/-- Settles O50. -/
theorem hbmTimersAndRefresh : Obligations.hbmTimersAndRefresh := by
  unfold Obligations.hbmTimersAndRefresh
  intro s hs
  refine ⟨?_, ?_, ?_, ?_, ?_, ?_, ?_⟩
  · intro b w hb h
    refine (hbmRow_runs hs fun u => symbolCorrection u b).trans ?_
    rw [symbolCorrection_corrected hb h]
  · intro b h
    refine (hbmRow_runs hs fun u => symbolCorrection u b).trans ?_
    rw [symbolCorrection_clean h]
  · intro pc bank hp hh hb p x b done
    have hrow : exec (.refresh pc bank) s = _ := hbmRow_runs hs fun u => refreshBank u pc.toNat bank.toNat
    refine ⟨?_, fun hno => ?_⟩
    · intro hn hd y
      rw [refreshBank_due hp hh hb hn hd] at hrow
      refine ⟨fun ha ho => hrow.trans ?_, fun ha hpp ho => hrow.trans ?_, fun ha => hrow.trans ?_⟩
      · rw [dueRefresh_issued ha ho]
        rfl
      · rw [dueRefresh_owed ha hpp ho]
        rfl
      · rw [dueRefresh_ahead ha]
        rfl
    · rw [refreshBank_early hp hh hb hno] at hrow
      refine ⟨?_, fun ho hpp => hrow.trans ?_, ?_⟩
      · intro ho hpp c
        refine hrow.trans ?_
        rw [earlyRefresh_paid ho hpp, refreshed_setBank]
      · rw [earlyRefresh_postponed ho hpp]
      · intro ho hq ha c
        refine hrow.trans ?_
        rw [earlyRefresh_pulledIn ho hq ha, refreshed_setBank]
  · intro k c
    have hrow : exec (.hbmTempRead k c) s = .next (settleLive (readTemp s k.toNat c)) := hbmRow_runs hs fun u => readTemp u k.toNat c
    obtain ⟨hrest, hset⟩ := referenceOnly_readTemp s k.toNat c
    generalize readTemp s k.toNat c = t at hrow hrest hset
    have htemps : t.hbm.temps = s.hbm.temps.set k.toNat (some c) := congrArg (fun v : State => v.hbm.temps) hrest
    have htop : t.power.thbm = (s.hbm.temps.set k.toNat (some c)).foldl hotter 0 := congrArg (fun v : State => v.power.thbm) hrest
    refine ⟨t, hrow, htemps, fun hk => ?_, ?_, hset, ?_⟩
    · rw [htop]
      exact mem_le_foldl_hotter (List.mem_iff_getElem.2 ⟨k.toNat, by simpa using hk, List.getElem_set_self ..⟩) _
    · rw [htop, htemps]
      exact foldl_hotter_mem _ _
    · rw [hrest]
      rfl
  · intro pc bank x b due
    have hrow : exec (.pageIdleTimer pc bank) s = _ := hbmRow_runs hs fun u => idleTimer u pc.toNat bank.toNat
    refine ⟨fun h => hrow.trans ?_, fun h => hrow.trans ?_⟩
    · rw [show idleTimer s pc.toNat bank.toNat = _ from if_pos h]
    · rw [show idleTimer s pc.toNat bank.toNat = _ from if_neg (ne_true_of_eq_false h)]
  · intro pc i r hr ho
    refine (hbmRow_runs hs fun u => ageRequest u pc.toNat i).trans ?_
    rw [ageRequest_read hr ho]
  · intro pc x
    have hrow : exec (.writeQueueDrain pc) s = _ := hbmRow_runs hs fun u => writeDrain u pc.toNat
    refine ⟨fun hw h => hrow.trans ?_, fun hw hr h => hrow.trans ?_, fun hw => hrow.trans ?_⟩
    · rw [writeDrain_waits hw, drains_full hw h]
    · rw [writeDrain_waits hw, drains_part hw hr h]
    · rw [show writeDrain s pc.toNat = s from if_pos (by simpa using hw)]

end Sys2Proof.Machine
end

/-! SUPPORT. Events of a flash channel, and the switch of its rate (R411, R423, R424). -/

section
namespace Sys2Proof.Machine

/-- A transient event of a flash channel in service. -/
theorem transientFlash_live {s : State} {ch : Nat} (h : s.retired.flash.contains ch = false) :
    transientFlash s ch =
      let times := (flashChanOf s ch).transient.filter (fun a => decide (now s ≤ a + s.flash.transWindow.toNat * 1000000)) ++ [now s]
      let v := setFlashChan s ch { flashChanOf s ch with transient := times }
      if s.flash.transLimit.toNat ≤ times.length then retireFlash v ch 1 else v := by
  unfold transientFlash
  rw [if_neg (ne_true_of_eq_false h)]
  simp only [addTransient, decide_eq_true_eq]
  rfl

section
variable {s : State} {ch : Nat} (h : s.retired.flash.contains ch = false)
include h

theorem flashReadRetry_level {l : BitVec 4} (h0 : 0 < l) (hl : l ≤ s.flash.nrl) :
    flashReadRetry s ch (some l) = transientFlash s ch := by
  have hin : ¬(l = 0 ∨ s.flash.nrl < l) := by
    rintro (rfl | hlt)
    · exact BitVec.lt_irrefl _ h0
    · exact BitVec.not_lt.2 hl hlt
  exact (if_neg (ne_true_of_eq_false h)).trans (if_neg hin)

theorem flashReadRetry_none : flashReadRetry s ch none = transientFlash (bump s 8 1) ch := if_neg (ne_true_of_eq_false h)

end

section
variable {s : State} {ch : Nat} (hsw : (flashChanOf s ch).switching = true) (hr : (flashChanOf s ch).retired = false)
include hsw hr

theorem channelRateSwitch_busy (reads : Bool) :
    channelRateSwitch s ch reads =
      let x := flashChanOf s ch
      if reads then setFlashChan s ch { x with switching := false, rate := s.flash.rate, timing := rdtimTiming s, decodeFails := 0 }
      else if x.decodeFails = 0 then setFlashChan s ch { x with decodeFails := 1 }
      else retireFlash s ch 3 := by
  have hgo : ¬(!(flashChanOf s ch).switching || (flashChanOf s ch).retired) = true := by simp [hsw, hr]
  exact if_neg hgo

end

theorem rdtimWrite_plain {s : State} {v : BitVec 32} (hs : strayBits v 0x17FF7 = false) (hv : v.extractLsb' 0 3 < (6 : BitVec 3)) :
    rdtimWrite s v =
      let u : State := { s with flash := { s.flash with
        rate := v.extractLsb' 0 3, rlat := v.extractLsb' 4 6, rpre := v.extractLsb' 10 2, odt := v.extractLsb' 12 3 } }
      if v.getLsbD 16 then rdtimApply u else u := by
  have hin : decide ((6 : BitVec 3) ≤ v.extractLsb' 0 3) = false := decide_eq_false fun hle => BitVec.not_lt.2 hle hv
  unfold rdtimWrite
  dsimp only
  rw [hs, hin, if_pos hv]
  rfl

/-- Settles O51. -/
theorem flashChannelEvents : Obligations.flashChannelEvents := by
  unfold Obligations.flashChannelEvents
  refine ⟨?_, ?_⟩
  · intro s ch hs h c counted
    have hread (l : Option (BitVec 4)) : exec (.flashReadRetry ch l) s = _ := hbmRow_runs hs fun u => flashReadRetry u ch.toNat l
    refine ⟨fun l h0 hl => (hread (some l)).trans ?_, (hread none).trans ?_, hbmRow_runs hs fun u => flashCommandTimeout u ch.toNat, ?_⟩
    · rw [flashReadRetry_level h h0 hl, transientFlash_live h]
    · have hbump : (bump s 8 1).retired.flash.contains ch.toNat = false := by
        rw [hostOnly_bump (HostOnly.refl s) 8 1]
        exact h
      rw [flashReadRetry_none h, transientFlash_live hbump]
    · intro x hsw hr
      have hrow (reads : Bool) : exec (.channelRateSwitch ch reads) s = _ :=
        (hbmRow_runs hs fun u => channelRateSwitch u ch.toNat reads).trans
          (congrArg (fun t => Host.Outcome.next (settleLive t)) (channelRateSwitch_busy hsw hr reads))
      refine ⟨hrow true, fun hf => (hrow false).trans ?_, fun hf => (hrow false).trans ?_⟩
      · exact congrArg (fun t => Host.Outcome.next (settleLive t)) (if_pos hf)
      · exact congrArg (fun t => Host.Outcome.next (settleLive t)) (if_neg hf)
  · intro s v hs hstray hv u
    have hrow := (pfWrite_serves hs fun u => rdtimWrite u v).trans (rdtimWrite_plain hstray hv)
    exact ⟨fun h => congrArg Host.Outcome.next (hrow.trans (if_neg (ne_true_of_eq_false h))),
      fun h => congrArg Host.Outcome.next (hrow.trans (if_pos h))⟩

end Sys2Proof.Machine
end

/-! SUPPORT. Restarts of the stewards, the device watchdog and the last-resort state (R434 to R441). -/

section
namespace Sys2Proof.Machine

/-! ### Requests of a component that restarts -/

theorem dropCarried_none {s : State} (hh : s.fw.handover = none) {l : List Component} (hc : carried s l = []) :
    dropCarried s l = s := by
  unfold dropCarried
  rw [hh, hc]
  rfl

theorem carried_empty {s : State} (h : s.docket.entries = []) (l : List Component) : carried s l = [] := by
  rw [carried, h]
  rfl

section
variable {s : State} (h : stewardsRun s = true)
include h

theorem componentRestart_runs {c : Component} (hd : (coreOf s (compCore c)).debugHalt = false) (k : RestartCause) :
    componentRestart s c k =
      let u := noteRestart (dropCarried s [c]) (compCode c) (compCore c) (causeCode k)
      { u with fw := { u.fw with
        comp := u.fw.comp + 1
        compTimes := tblPut u.fw.compTimes (compCode c) (tblGetD u.fw.compTimes (compCode c) [] ++ [now s]) } } := by
  have hgo : ¬(!stewardsRun s || (coreOf s (compCore c)).debugHalt) = true := by simp [h, hd]
  exact if_neg hgo

theorem coreRestart_runs {c : Nat} (h0 : c ≠ 0) (hd : (coreOf s c).debugHalt = false) :
    coreRestart s c =
      let u := noteRestart (dropCarried s (coreComps c)) 7 c 3
      { u with fw := { u.fw with
        coreRestarts := u.fw.coreRestarts + 1
        cores := u.fw.cores.set c { coreOf s c with stopped := false, restarts := (coreOf s c).restarts ++ [now s] } } } := by
  have hgo : ¬(!stewardsRun s || c == 0 || (coreOf s c).debugHalt) = true := by simp [h, hd, h0]
  exact if_neg hgo

end

theorem coreRestart_zero (s : State) : coreRestart s 0 = s := if_pos (by simp)

/-! ### The device watchdog -/

theorem watchdogExpiry_early {s : State} (ht : now s < s.fw.wdtEnd.toNat) : watchdogExpiry s = s := if_pos (by simp [ht])

theorem watchdogExpiry_due {s : State} (h : stewardsRun s = true) (ht : s.fw.wdtEnd.toNat ≤ now s) :
    watchdogExpiry s =
      if s.dbg.stwEn && s.dbg.frozen.isNone then
        let u := freeze s .stwreset 3
        { u with dbg := { u.dbg with pendingStw := true } }
      else stewardReset s := by
  have hgo : ¬(!stewardsRun s || decide (now s < s.fw.wdtEnd.toNat)) = true := by simp [h, ht]
  exact if_neg hgo

/-! ### The steward reset -/

/-- Only the firmware's part, the boot and the stewards' memory differ; what the reset counts and what is left to tell stay. -/
structure RebootOnly (s t : State) : Prop where
  rest : t = { s with fw := t.fw, boot := t.boot, stewardMem := t.stewardMem }
  faultStw : t.fw.faultStw = s.fw.faultStw
  steward : t.fw.steward = s.fw.steward
  handover : t.fw.handover = s.fw.handover
  untold : t.fw.untold = s.fw.untold

theorem RebootOnly.trans {s t u : State} (h : RebootOnly s t) (k : RebootOnly t u) : RebootOnly s u := by
  refine ⟨?_, k.faultStw.trans h.faultStw, k.steward.trans h.steward, k.handover.trans h.handover, k.untold.trans h.untold⟩
  have hk := k.rest
  rw [h.rest] at hk
  exact hk

theorem rebootOnly_loadRegion (s : State) (b : Bool) (img : List Byte) : RebootOnly s (loadRegion s b img) := ⟨rfl, rfl, rfl, rfl, rfl⟩

theorem rebootOnly_setSlotState (s : State) (b : Bool) (x : FwSlot) : RebootOnly s (setSlotState s b x) := by
  cases b <;> exact ⟨rfl, rfl, rfl, rfl, rfl⟩

theorem rebootOnly_started (s : State) (img : List Byte) (b recovered fallback : Bool) :
    RebootOnly s (activate (startImage s img b recovered fallback) b) := ⟨rfl, rfl, rfl, rfl, rfl⟩

theorem rebootOnly_bootErr (s : State) (e : BitVec 4) : RebootOnly s { s with boot := { s.boot with err := e } } :=
  ⟨rfl, rfl, rfl, rfl, rfl⟩

theorem rebootOnly_trySlot (s : State) (b : Bool) : RebootOnly s (trySlot s b) := by
  by_cases hr : slotUnread s b = true
  · rw [trySlot_unread hr]
    exact (rebootOnly_setSlotState _ _ _).trans (rebootOnly_bootErr _ _)
  · have hr : slotUnread s b = false := eq_false_of_ne_true hr
    by_cases he : bootError s (slotState s b).image = 0
    · rw [trySlot_good hr he]
      exact (rebootOnly_loadRegion _ _ _).trans (rebootOnly_started _ _ _ _ _)
    · rw [trySlot_bad hr he]
      exact ((rebootOnly_loadRegion _ _ _).trans (rebootOnly_setSlotState _ _ _)).trans (rebootOnly_bootErr _ _)

theorem rebootOnly_tryOrder (s : State) (l : List Bool) : RebootOnly s (tryOrder l s) := by
  refine List.foldlRecOn l _ (motive := RebootOnly s) ⟨rfl, rfl, rfl, rfl, rfl⟩ fun u hu b _ => ?_
  split
  · exact hu.trans (rebootOnly_trySlot u b)
  · exact hu

theorem bootRom_eq (s : State) :
    bootRom s =
      if !ticking s || s.boot.stage != 0 || s.lrs.active then s
      else
        let u := tryOrder (bootOrder s) (bootTrial s (if (bootOrder s).isEmpty then 1 else 0))
        if u.boot.stage ≠ 0 then u else bootIdle u := rfl

theorem rebootOnly_bootRom (s : State) : RebootOnly s (bootRom s) := by
  have htry (e : BitVec 4) : RebootOnly s (tryOrder (bootOrder s) (bootTrial s e)) :=
    RebootOnly.trans (t := bootTrial s e) ⟨rfl, rfl, rfl, rfl, rfl⟩ (rebootOnly_tryOrder _ _)
  have hidle (u : State) : RebootOnly u (bootIdle u) := ⟨rfl, rfl, rfl, rfl, rfl⟩
  rw [bootRom_eq]
  generalize (if (bootOrder s).isEmpty then 1 else 0 : BitVec 4) = e
  split
  · exact ⟨rfl, rfl, rfl, rfl, rfl⟩
  · dsimp only
    split
    · exact htry _
    · exact (htry _).trans (hidle _)

/-- What a steward reset may change. -/
def StewardOnly (s t : State) : Prop :=
  t = { s with
    fw := t.fw, boot := t.boot, flash := t.flash, stewardMem := t.stewardMem, fns := t.fns, hostMem := t.hostMem
    heldWrites := t.heldWrites, sec := { s.sec with busy := t.sec.busy }
    dbg := { s.dbg with pendingStw := t.dbg.pendingStw, counters := t.dbg.counters } }

theorem StewardOnly.trans {s t u : State} (h : StewardOnly s t) (k : StewardOnly t u) : StewardOnly s u := by
  unfold StewardOnly at *
  rw [h] at k
  exact k

theorem RebootOnly.stewardOnly {s t : State} (h : RebootOnly s t) : StewardOnly s t := by
  unfold StewardOnly
  rw [h.rest]

theorem TellOnly.stewardOnly {s t : State} (h : TellOnly s t) : StewardOnly s t := by
  unfold TellOnly at h
  unfold StewardOnly
  rw [h]

theorem restoreTiming_flash (s : State) : restoreTiming s = { s with flash := (restoreTiming s).flash } := by
  refine List.foldlRecOn (liveChannels s) _ (motive := fun u : State => u = { s with flash := u.flash }) rfl fun u hu c _ => ?_
  rw [hu]
  rfl

/-- The flash of a steward reset: suspended erases are held again and the timing is restored. -/
def flashAtReset (s : State) : State :=
  restoreTiming (resetFlash { s with dbg := { s.dbg with pendingStw := false }, fw := { s.fw with handover := none } })

theorem flashAtReset_eq (s : State) :
    flashAtReset s = { s with
      dbg := { s.dbg with pendingStw := false }, fw := { s.fw with handover := none }, flash := (flashAtReset s).flash } :=
  restoreTiming_flash _

/-- The state in which the stewards start again: the reset is logged and counted, and their memory is wiped. -/
def stewardsDown (s : State) : State :=
  let u := logFault (flashAtReset s) 7 0 0 0 0
  { u with
    stewardMem := [], sec := { u.sec with busy := false }, boot := { u.boot with stage := 0 }
    fw := { u.fw with
      faultStw := true, steward := u.fw.steward + 1, compTimes := []
      cores := List.replicate 4 Core.reset, wdtEnd := BitVec.ofNat 64 (now u + 1000000 * u.fw.wdt.toNat) } }

theorem stewardReset_eq (s : State) :
    stewardReset s =
      let u := bootRom (stewardsDown s)
      if stewardsServe u then tellRetired (dropCarried u allComponents) else u := rfl

theorem stewardOnly_stewardsDown (s : State) : StewardOnly s (stewardsDown s) := by
  unfold stewardsDown
  rw [flashAtReset_eq]
  exact rfl

theorem fw_stewardsDown (s : State) :
    (stewardsDown s).fw.faultStw = true ∧ (stewardsDown s).fw.steward = s.fw.steward + 1 ∧ (stewardsDown s).fw.handover = none ∧
      (stewardsDown s).fw.untold = s.fw.untold := by
  unfold stewardsDown
  rw [flashAtReset_eq]
  exact ⟨rfl, rfl, rfl, rfl⟩

theorem sec_stewardsDown (s : State) : (stewardsDown s).sec.busy = false ∧ (stewardsDown s).dbg.pendingStw = false := by
  unfold stewardsDown
  rw [flashAtReset_eq]
  exact ⟨rfl, rfl⟩

theorem host_stewardsDown (s : State) :
    (stewardsDown s).fns = s.fns ∧ (stewardsDown s).hostMem = s.hostMem ∧ (stewardsDown s).heldWrites = s.heldWrites ∧
      (stewardsDown s).dbg.counters = s.dbg.counters := by
  unfold stewardsDown
  rw [flashAtReset_eq]
  exact ⟨rfl, rfl, rfl, rfl⟩

theorem docket_stewardsDown (s : State) : (stewardsDown s).docket = s.docket := by
  unfold stewardsDown
  rw [flashAtReset_eq]
  rfl

/-- Telling a retirement leaves what a steward reset counts. -/
theorem fw_tellRetired (s : State) :
    (tellRetired s).fw.faultStw = s.fw.faultStw ∧ (tellRetired s).fw.steward = s.fw.steward ∧
      (tellRetired s).fw.handover = s.fw.handover := by
  refine List.foldlRecOn s.fw.untold tellRetire (motive := fun u : State =>
    u.fw.faultStw = s.fw.faultStw ∧ u.fw.steward = s.fw.steward ∧ u.fw.handover = s.fw.handover) ⟨rfl, rfl, rfl⟩ fun u hu r _ => ?_
  have hfw : (tellRetire u r).fw = (logFaultAt u r.time r.frame.toNat 3 0 r.kind r.unit 0).fw :=
    (hostOnly_raiseEvent (HostOnly.refl _) ..).fw
  rw [hfw]
  exact hu

theorem tellRetired_none {s : State} (h : s.fw.untold = []) : tellRetired s = s := by
  unfold tellRetired
  have hfw : { s.fw with untold := [] } = s.fw := by rw [← h]
  rw [h, hfw]
  rfl

/-- With an empty Docket a steward reset leaves what the last stage of it leaves: the reboot, or the retirements told. -/
theorem stewardReset_cases {s : State} (hd : s.docket.entries = []) :
    stewardReset s = bootRom (stewardsDown s) ∨ stewardReset s = tellRetired (bootRom (stewardsDown s)) := by
  have hreb := rebootOnly_bootRom (stewardsDown s)
  have hdoc : (bootRom (stewardsDown s)).docket.entries = [] := by
    rw [hreb.rest]
    exact (congrArg Docket.entries (docket_stewardsDown s)).trans hd
  rw [stewardReset_eq]
  dsimp only
  split
  · rw [dropCarried_none (hreb.handover.trans (fw_stewardsDown s).2.2.1) (carried_empty hdoc _)]
    exact .inr rfl
  · exact .inl rfl

/-- What a steward reset with an empty Docket leaves alone, and what it counts. -/
theorem stewardReset_leaves {s : State} (hd : s.docket.entries = []) :
    StewardOnly s (stewardReset s) ∧ ((stewardReset s).sec.busy = false ∧ (stewardReset s).dbg.pendingStw = false) ∧
      (stewardReset s).fw.faultStw = true ∧ (stewardReset s).fw.steward = s.fw.steward + 1 ∧ (stewardReset s).fw.handover = none := by
  have hreb := rebootOnly_bootRom (stewardsDown s)
  obtain ⟨hstw, hcount, hhand, -⟩ := fw_stewardsDown s
  have hsec : (bootRom (stewardsDown s)).sec.busy = false ∧ (bootRom (stewardsDown s)).dbg.pendingStw = false := by
    rw [hreb.rest]
    exact sec_stewardsDown s
  have honly := (stewardOnly_stewardsDown s).trans hreb.stewardOnly
  have hstw' := hreb.faultStw.trans hstw
  have hcount' := hreb.steward.trans hcount
  have hhand' := hreb.handover.trans hhand
  rcases stewardReset_cases hd with h | h <;> rw [h]
  · exact ⟨honly, hsec, hstw', hcount', hhand'⟩
  · have htell := tellOnly_tellRetired (bootRom (stewardsDown s))
    obtain ⟨f1, f2, f3⟩ := fw_tellRetired (bootRom (stewardsDown s))
    refine ⟨honly.trans htell.stewardOnly, ?_, f1.trans hstw', f2.trans hcount', f3.trans hhand'⟩
    rw [htell]
    exact hsec

/-- With nothing left to tell, a steward reset leaves the host's side alone. -/
theorem stewardReset_host {s : State} (hd : s.docket.entries = []) (hu : s.fw.untold = []) :
    (stewardReset s).fns = s.fns ∧ (stewardReset s).hostMem = s.hostMem ∧ (stewardReset s).heldWrites = s.heldWrites ∧
      (stewardReset s).dbg.counters = s.dbg.counters := by
  have hreb := rebootOnly_bootRom (stewardsDown s)
  have hsame : stewardReset s = bootRom (stewardsDown s) := by
    rcases stewardReset_cases hd with h | h
    · exact h
    · rw [h, tellRetired_none (hreb.untold.trans ((fw_stewardsDown s).2.2.2.trans hu))]
  rw [hsame, hreb.rest]
  exact host_stewardsDown s

/-! ### The last-resort state -/

/-- Everything of a state v of s stops, for a cause and with a mask of stopped cores. -/
def stopAll (s v : State) (mask : Nat) (cause : BitVec 3) : State := { v with
  lrs := { s.lrs with
    active := true, cause := cause, stopped := BitVec.ofNat 4 mask, dtime := s.time.dtime, frostOk := true, frostErr := false
    frostLen := 67108864 }
  heldWrites := []
  fw := { s.fw with cores := s.fw.cores.mapIdx fun i c => { c with stopped := bitOf mask i } } }

/-- The state in which the last-resort sequencer takes its snapshot. -/
def lastStop (s : State) (trap : Bool) : State :=
  let shown := ((List.range 4).filter fun c => (coreOf s c).stopped).map fun c => 2 ^ c
  let mask := if trap then shown.sum else lastResortMask ((drawNat s).1 % 16)
  stopAll s (if trap then s else (drawNat s).2) mask (if trap then 3 else if 2 ≤ (setBits mask 4).length then 1 else 2)

/-- The snapshot of the last-resort state. -/
def lastFrost (u : State) : State :=
  let v := finishFrost (freeze u .lrs 1)
  { v with dbg := { v.dbg with pendingStw := false } }

theorem lastResort_runs {s : State} (h : stewardsRun s = true) (trap : Bool) : lastResort s trap = lastFrost (lastStop s trap) := by
  have hgo : ¬(!stewardsRun s && !(ticking s && s.boot.stage == 2 && !s.lrs.active) && !s.dbg.pendingStw) = true := by simp [h]
  exact if_neg hgo

theorem lastFrost_leaves (u : State) :
    lastFrost u = { u with
      fns := (lastFrost u).fns, hostMem := (lastFrost u).hostMem, frostMem := (lastFrost u).frostMem, dbg := (lastFrost u).dbg
      heldWrites := (lastFrost u).heldWrites } := by
  unfold lastFrost freeze takeFrost finishFrost
  rw [hostOnly_bump (HostOnly.refl u) 0xC 1]

theorem stopAll_leaves {s v : State} (h : DrawOnly s v) (mask : Nat) (cause : BitVec 3) :
    stopAll s v mask cause = { s with
      supply := (stopAll s v mask cause).supply, drawn := (stopAll s v mask cause).drawn, lrs := (stopAll s v mask cause).lrs
      heldWrites := [], fw := { s.fw with cores := (stopAll s v mask cause).fw.cores } } := by
  rw [h]
  rfl

theorem lastStop_leaves (s : State) (trap : Bool) :
    lastStop s trap = { s with
      supply := (lastStop s trap).supply, drawn := (lastStop s trap).drawn, lrs := (lastStop s trap).lrs, heldWrites := []
      fw := { s.fw with cores := (lastStop s trap).fw.cores } } := by
  cases trap with
  | true => exact stopAll_leaves (show DrawOnly s s from rfl) _ _
  | false => exact stopAll_leaves (drawOnly_drawNat s) _ _

/-- What the last-resort registers show of the cause. -/
theorem lastStop_cause (s : State) (trap : Bool) :
    if trap = true then (lastStop s trap).lrs.cause = 3 else (lastStop s trap).lrs.cause = 1 ∨ (lastStop s trap).lrs.cause = 2 := by
  cases trap with
  | true => exact rfl
  | false =>
    by_cases h : 2 ≤ (setBits (lastResortMask ((drawNat s).1 % 16)) 4).length
    · exact .inl (if_pos h)
    · exact .inr (if_neg h)

theorem ready_lastResort {s : State} (h : s.lrs.active = true) : ready s = false := by simp [ready, h]

/-- Settles O52. -/
theorem restartsWatchdogAndLastResort : Obligations.restartsWatchdogAndLastResort := by
  unfold Obligations.restartsWatchdogAndLastResort
  refine ⟨?_, ?_⟩
  · intro s h noted
    refine ⟨fun c k hd => congrArg (fun t => Host.Outcome.next (settleLive t)) (componentRestart_runs h hd k), fun c hc hd => ?_,
      congrArg (fun t => Host.Outcome.next (settleLive t)) (coreRestart_zero s), fun hh hc l => dropCarried_none hh (hc l)⟩
    have h0 : c.toNat ≠ 0 := fun h => hc (BitVec.eq_of_toNat_eq h)
    exact congrArg (fun t => Host.Outcome.next (settleLive t)) (coreRestart_runs h h0 hd)
  · intro s h
    refine ⟨fun ht => congrArg (fun t => Host.Outcome.next (settleLive t)) (watchdogExpiry_early ht), fun ht he hf => ?_,
      fun ht he => ?_, fun hd => ?_, fun trap => ?_⟩
    · refine congrArg (fun t => Host.Outcome.next (settleLive t)) ((watchdogExpiry_due h ht).trans (if_pos ?_))
      rw [he, hf]
      rfl
    · refine congrArg (fun t => Host.Outcome.next (settleLive t)) ((watchdogExpiry_due h ht).trans (if_neg ?_))
      rintro hgo
      obtain ⟨hen, hnone⟩ := Bool.and_eq_true_iff.1 hgo
      rcases he with he | he
      · rw [he] at hen
        cases hen
      · exact he (Option.isNone_iff_eq_none.1 hnone)
    · intro t
      obtain ⟨honly, ⟨hbusy, hpend⟩, hstw, hcount, hhand⟩ := stewardReset_leaves hd
      refine ⟨?_, fun hu => stewardReset_host hd hu, hstw, hcount, hhand⟩
      unfold StewardOnly at honly
      rw [hbusy, hpend] at honly
      exact honly
    · have hrow : exec (.lastResortEntry trap) s = .next (lastFrost (lastStop s trap)) :=
        congrArg Host.Outcome.next (lastResort_runs h trap)
      have hcause := lastStop_cause s trap
      have hstop := lastStop_leaves s trap
      have hfrost := lastFrost_leaves (lastStop s trap)
      have hactive : (lastStop s trap).lrs.active = true := rfl
      have hdtime : (lastStop s trap).lrs.dtime = s.time.dtime := rfl
      have hlen : (lastStop s trap).lrs.frostLen = 67108864 := rfl
      have hdbg : (lastFrost (lastStop s trap)).dbg.frozen = some .lrs ∧ (lastFrost (lastStop s trap)).dbg.complete = true := ⟨rfl, rfl⟩
      generalize lastStop s trap = u at hrow hcause hstop hfrost hactive hdtime hlen hdbg
      have hlrs : (lastFrost u).lrs = u.lrs := by rw [hfrost]
      generalize lastFrost u = t at hrow hfrost hdbg hlrs
      rw [← hlrs] at hcause hactive hdtime hlen
      refine ⟨t, hrow, hactive, ready_lastResort hactive, hdtime, hdbg.1, hdbg.2, hlen, ?_, hcause⟩
      rw [hfrost, hstop]

end Sys2Proof.Machine
end

/-! SUPPORT. Transient errors of the tiles, corrected words and FW_FAULT_STATUS (R451, R452, R457). -/

section
namespace Sys2Proof.Machine

/-- A transient event of a tile in service. -/
theorem transientTile_live {s : State} {t : Nat} (h : s.retired.tiles.contains t = false) :
    transientTile s t =
      let times := (tileOf s t).transient.filter (fun a => decide (now s ≤ a + s.sched.tileWindow.toNat * 1000000)) ++ [now s]
      let u := bumpTile (setTile s t { tileOf s t with transient := times }) t 6 1
      if s.sched.tileLimit.toNat ≤ times.length then retireTile u t false else u := by
  unfold transientTile
  rw [if_neg (ne_true_of_eq_false h)]
  simp only [addTransient, decide_eq_true_eq]
  rfl

theorem sramCorrection_word {s : State} {slice : Bool} {a : Nat} (h : a % 8 = 0)
    (ha : a < 96 * (if slice = true then 2 ^ 24 else 2 ^ 21)) : sramCorrection s slice a = bump s 6 1 := if_pos ⟨h, ha⟩

theorem sramCorrection_unaligned {s : State} {a : Nat} (h : a % 8 ≠ 0) (slice : Bool) : sramCorrection s slice a = s :=
  if_neg fun hw => h hw.1

theorem clearFaultStatus_plain {s : State} {v : BitVec 32} (h : strayBits v 3 = false) :
    clearFaultStatus s v = { s with fw := { s.fw with
      faultRetire := s.fw.faultRetire && !v.getLsbD 0, faultStw := s.fw.faultStw && !v.getLsbD 1 } } := by
  unfold clearFaultStatus
  rw [h]
  rfl

/-- Settles O53. -/
theorem tileEventsAndFaultStatus : Obligations.tileEventsAndFaultStatus := by
  unfold Obligations.tileEventsAndFaultStatus
  refine ⟨?_, ?_, ?_⟩
  · intro s t hs ht times u counted ended
    have hrow (what : TileEvent) : exec (.tileTransient t what) s = .next (settleLive (tileTransient s t.val what)) :=
      hbmRow_runs hs fun u => tileTransient u t.val what
    have hcount := congrArg (fun t => (Host.Outcome.next (settleLive t) : Host.Outcome State Fault Refusal)) (transientTile_live ht)
    exact ⟨(hrow .reread).trans hcount, (hrow .resend).trans hcount, hrow .storeFailed, hrow .sliceFailed, hrow .hopFailed⟩
  · intro s slice a ht
    have hrow : exec (.sramCorrection slice a) s = .next (sramCorrection s slice a) := congrArg Host.Outcome.next (if_pos ht)
    exact ⟨fun h ha => hrow.trans (congrArg Host.Outcome.next (sramCorrection_word h ha)),
      fun h => hrow.trans (congrArg Host.Outcome.next (sramCorrection_unaligned h slice))⟩
  · intro s v hs h
    exact congrArg Host.Outcome.next ((pfWrite_serves hs fun u => clearFaultStatus u v).trans (clearFaultStatus_plain h))

end Sys2Proof.Machine
end

/-! SUPPORT. Freezes of the engine while the units have noticed something (R469, R473). -/

section
namespace Sys2Proof.Machine

theorem suspects_retireFlash (s : State) (ch : Nat) (cause : BitVec 4) :
    (retireFlash s ch cause).flash.suspects = s.flash.suspects := by
  by_cases h : s.retired.flash.contains ch = true
  · rw [retireFlash_retired h]
  · rw [retireFlash_live (eq_false_of_ne_true h), flash_noteRetire]
    rfl

theorem suspects_transientFlash (s : State) (ch : Nat) : (transientFlash s ch).flash.suspects = s.flash.suspects := by
  by_cases h : s.retired.flash.contains ch = true
  · exact congrArg (fun u : State => u.flash.suspects) (if_pos h)
  · rw [transientFlash_live (eq_false_of_ne_true h)]
    dsimp only
    split
    · rw [suspects_retireFlash]
      rfl
    · rfl

/-- What the units noticed is forgotten once it has taken effect. -/
theorem suspects_noticed (s : State) : (noticed s).flash.suspects = [] :=
  List.foldlRecOn _ transientFlash (motive := fun u : State => u.flash.suspects = []) rfl
    fun u hu c _ => (suspects_transientFlash u c).trans hu

theorem flash_freeze (s : State) (why : Freeze) (trigger : Nat) : (freeze s why trigger).flash = s.flash :=
  (hostOnly_bump (HostOnly.refl s) 0xC 1).flash

/-- An engine that runs, with Library reads of flash channel 0 that stayed uncorrectable and are not counted yet. -/
def withSuspect : State :=
  { State.reset with
    boot := { Boot.reset with stage := 5, linkUp := true, released := true }, flash := { Flash.reset with suspects := [0] } }

theorem servesWrite_withSuspect : servesWrite withSuspect 0 := by
  unfold servesWrite
  decide

/-- A write of TRIG with LIMIT = 1 to an engine that is not frozen. -/
theorem debugFrost_withSuspect :
    exec (.debugFrost 0 0x10001) withSuspect =
      .next (noticed (freeze { withSuspect with dbg := { withSuspect.dbg with stwEn := false, limit := 1 } } .debug 2)) :=
  congrArg Host.Outcome.next (pfWrite_serves servesWrite_withSuspect fun u => settleLive (frostCtrl u 0x10001))

/-- Refutes O54: a freeze is followed by what the units noticed, here an uncorrectable Library read of flash channel 0 that counts at
once, and the statement leaves that out. -/
theorem not_freezeAndThaw : ¬ Obligations.freezeAndThaw := by
  unfold Obligations.freezeAndThaw
  rintro ⟨hctrl, -⟩
  have h := hctrl withSuspect 0x10001 servesWrite_withSuspect (by decide) (by decide) (by decide)
  obtain ⟨htrig, -⟩ := h
  have hfreeze := (htrig (by decide) (by decide) rfl).1
  have heq := Host.Outcome.next.inj (debugFrost_withSuspect.symm.trans hfreeze)
  have hsus := congrArg (fun u : State => u.flash.suspects) heq
  have hkept := congrArg Flash.suspects
    (flash_freeze { withSuspect with dbg := { withSuspect.dbg with stwEn := false, limit := 1 } } .debug 2)
  exact absurd ((suspects_noticed _).symm.trans (hsus.trans hkept)) (by decide)

end Sys2Proof.Machine
end

/-! SUPPORT. Latched reads, the time limit of emulated accesses, DBG_CNT_CTRL and DBG_TRACE_CTRL (R230, R430, R464 to R468). -/

section
namespace Sys2Proof.Machine

theorem latchRead_serves {s : State} {f : Nat} (h : servesWrite s f) (lo : Nat) (latch : Fn → Fn) :
    latchRead s f lo latch = { setFn s f (latch (fnOf s f)) with busRead := reg lo } := by
  obtain ⟨hready, hopen, hserve⟩ := h
  simp only [latchRead, hopen, hready, hserve, Bool.not_true, Bool.false_eq_true, if_false]

/-- What DBG_CNT_HI shows of a counter below 2^48. -/
theorem counterHigh {n : Nat} (h : n < 2 ^ 48) (sat : Bool) :
    reg (n / 2 ^ 32 % 2 ^ 16 + 2 ^ 31 * bit sat) = BitVec.ofNat 32 ((n + (if sat = true then 2 ^ 63 else 0)) / 2 ^ 32) := by
  unfold reg
  congr 1
  cases sat <;> simp only [bit, if_true, Bool.false_eq_true, if_false] <;> omega

theorem counterRead_mine {s : State} {f : Nat} (h : counterMine s f = true) :
    counterRead s f =
      let c := counterOf s (fnOf s f).cntSel.toNat
      latchRead s f (c.value % 2 ^ 32) fun x => { x with cntHi := reg (c.value / 2 ^ 32 % 2 ^ 16 + 2 ^ 31 * bit c.sat) } := if_pos h

theorem counterRead_other {s : State} {f : Nat} (h : counterMine s f = false) :
    counterRead s f = latchRead s f 0 fun x => { x with cntHi := 0 } := if_neg (ne_true_of_eq_false h)

theorem emuTimeout_open {s : State} {f : Nat} (ho : barOpen s f = true) (hr : ready s = true) (write : Bool) :
    emuTimeout s f write = if write then bump s 9 1 else { bump s 9 1 with busRead := 0 } := by
  have hgo : ¬(!barOpen s f || !ready s) = true := by simp [ho, hr]
  exact if_neg hgo

theorem counterCtrl_other {s : State} {f : Nat} (h : counterMine s f = false) (v : BitVec 32) : counterCtrl s f v = ignored s f :=
  if_pos (by rw [h]; rfl)

theorem counterCtrl_mine {s : State} {f : Nat} (h : counterMine s f = true) {v : BitVec 32} (hs : strayBits v 3 = false) :
    counterCtrl s f v =
      let c := counterOf s (fnOf s f).cntSel.toNat
      let c1 := if v.getLsbD 0 then { c with value := 0, sat := false } else c
      setCounter s (fnOf s f).cntSel.toNat { c1 with evten := v.getLsbD 1 } := by
  unfold counterCtrl
  dsimp only
  rw [h, hs]
  rfl

/-- TRACE_CTRL of a trace that does not run takes a length in range. -/
theorem traceCtrl_starts {s : State} {f : Nat} {v : BitVec 32} (hs : strayBits v 0x1F03 = false) (he : (fnOf s f).traceEn = false)
    (hlo : 6 ≤ (v.extractLsb' 8 5).toNat) (hhi : (v.extractLsb' 8 5).toNat ≤ 20) :
    traceCtrl s f v = setFn s f { fnOf s f with
      traceEn := v.getLsbD 0, traceFrames := v.getLsbD 1, traceLog2n := v.extractLsb' 8 5
      traceCount := if v.getLsbD 0 = true then 0 else (fnOf s f).traceCount } := by
  unfold traceCtrl
  dsimp only
  rw [hs, he, decide_eq_true hlo, decide_eq_true hhi]
  simp only [Bool.not_false, Bool.and_true]
  rfl

/-- While a trace runs, its length and its count stay. -/
theorem traceCtrl_running {s : State} {f : Nat} {v : BitVec 32} (hs : strayBits v 0x1F03 = false) (he : (fnOf s f).traceEn = true) :
    traceCtrl s f v = ignored (setFn s f { fnOf s f with traceEn := v.getLsbD 0, traceFrames := v.getLsbD 1 }) f := by
  unfold traceCtrl
  dsimp only
  rw [hs, he]
  simp only [Bool.not_true, Bool.false_and, Bool.and_false]
  rfl

/-- Settles O55. -/
theorem countersAndLatches : Obligations.countersAndLatches := by
  unfold Obligations.countersAndLatches
  refine ⟨?_, ?_, ?_⟩
  · intro s f hs c k lo hi
    refine ⟨congrArg Host.Outcome.next (latchRead_serves hs _ _), congrArg Host.Outcome.next (latchRead_serves hs _ _),
      fun hm hk => ?_, fun hm => ?_⟩
    · refine congrArg Host.Outcome.next ((counterRead_mine hm).trans ((latchRead_serves hs _ _).trans ?_))
      dsimp only
      rw [counterHigh hk]
      rfl
    · exact congrArg Host.Outcome.next ((counterRead_other hm).trans (latchRead_serves hs _ _))
  · intro s f ho hr
    exact ⟨congrArg Host.Outcome.next (emuTimeout_open ho hr true), congrArg Host.Outcome.next (emuTimeout_open ho hr false)⟩
  · intro s f v hs x n l
    have hclear : exec (.counterClear f v) s = .next (counterCtrl s f.toNat v) :=
      congrArg Host.Outcome.next (emuWrite_serves hs fun u => counterCtrl u f.toNat v)
    have htrace : exec (.traceEnable f v) s = .next (traceCtrl s f.toNat v) :=
      congrArg Host.Outcome.next (emuWrite_serves hs fun u => traceCtrl u f.toNat v)
    refine ⟨fun hm => hclear.trans (congrArg Host.Outcome.next (counterCtrl_other hm v)), fun hm hstray => ⟨fun h0 => ?_, fun h0 => ?_⟩,
      fun hstray he hlo hhi => htrace.trans (congrArg Host.Outcome.next (traceCtrl_starts hstray he hlo hhi)),
      fun hstray he => htrace.trans (congrArg Host.Outcome.next (traceCtrl_running hstray he))⟩
    · rw [hclear, counterCtrl_mine hm hstray]
      simp only [h0, if_true]
      rfl
    · rw [hclear, counterCtrl_mine hm hstray]
      simp only [h0, Bool.false_eq_true, if_false]
      rfl

end Sys2Proof.Machine
end

/-! SUPPORT. Writes of the registers of BAR0 and of the configuration space (R8, R335, R338, R339, R526, R529). -/

section
namespace Sys2Proof.Machine

/-! ### Where a write goes -/

theorem vectorsOf_le (f : Nat) : vectorsOf f ≤ 2048 := by
  unfold vectorsOf
  split <;> omega

section
variable {s : State} {f o : Nat} (hopen : barOpen s f = true) (v : BitVec 32)
include hopen

theorem writeReg_unaligned (ho : 0x100000 ≤ o) (h4 : o % 4 ≠ 0) : writeReg s f o v = ignored s f := by
  rw [writeReg, hopen, if_neg (by decide), if_neg (Nat.not_lt.2 ho), if_pos h4]

theorem writeReg_emulated (h4 : o % 4 = 0) (hlo : 0x200000 ≤ o) (hhi : o < 0x400000) : writeReg s f o v = writeEmu s f o v := by
  have hv := vectorsOf_le f
  rw [writeReg, hopen, if_neg (by decide), if_neg (by omega), if_neg (by omega), if_neg (by omega), if_neg (by omega),
    if_pos ⟨hlo, hhi⟩]

end

/-- A function without a context has no per-context register. -/
theorem ctxWrite_none {s : State} {f : Nat} (hs : servesWrite s f) (hc : ctxOf s f = none) (k : State → Ctx → State) :
    ctxWrite s f k = ignored s f := by
  rw [ctxWrite, emuWrite_serves hs]
  simp only [hc]

theorem writeEmu_noContext {s : State} {f o : Nat} (hs : servesWrite s f) (hr : isCtxReg o = true) (hc : ctxOf s f = none)
    (v : BitVec 32) : writeEmu s f o v = ignored s f := by
  unfold writeEmu
  split
  · exact ctxWrite_none hs hc _
  · split
    · exact ctxWrite_none hs hc _
    · exact ctxWrite_none hs hc _

/-- The offsets of the controls of the host windows and of DRBG_CTRL are per-context ones. -/
theorem isCtxReg_control {o : Nat} (h : (0x22020C ≤ o ∧ o < 0x220300 ∧ o % 16 = 12) ∨ o = 0x230040) : isCtxReg o = true := by
  rcases h with ⟨hlo, hhi, hm⟩ | rfl
  · have h4 : o % 4 = 0 := by omega
    have hin : 0x220200 ≤ o := by omega
    simp [isCtxReg, h4, hin, hhi]
  · rfl

/-- A write of an emulated register that is not a per-context one. -/
theorem writeEmu_plain {s : State} {f o : Nat} (hs : servesWrite s f) (hr : isCtxReg o = false) (v : BitVec 32) :
    writeEmu s f o v =
      if o < 0x200024 ∨ (0x2A0000 ≤ o ∧ o < 0x2A0020) ∨ (0x2A0040 ≤ o ∧ o < 0x2A0050) then writeFn s f o v
      else if f ≠ 0 then ignored s f
      else if o < 0x280000 then writePfLow s o v
      else if 0x2B0000 ≤ o ∧ o < 0x2C0000 then settleLive (writeSpan s o v)
      else writePfHigh s o v := by
  have hwin : ¬(0x22020C ≤ o ∧ o < 0x220300 ∧ o % 16 = 12) := fun h => by
    rw [isCtxReg_control (.inl h)] at hr
    cases hr
  have hdrbg : o ≠ 0x230040 := fun h => by
    rw [isCtxReg_control (.inr h)] at hr
    cases hr
  rw [writeEmu, if_neg hwin, if_neg hdrbg, hr, if_neg (by decide), emuWrite_serves hs]

/-- Offsets from 0x2E_0000 on hold no per-context register. -/
theorem isCtxReg_above {o : Nat} (h : 0x2E0000 ≤ o) : isCtxReg o = false := by
  have hlist : ([0x210020, 0x210200, 0x210204, 0x210208, 0x220000, 0x220004, 0x220008, 0x220010, 0x230040, 0x240000, 0x240004, 0x240008,
      0x250000, 0x250004, 0x250008, 0x25000C] : List Nat).contains o = false := by
    simp only [List.contains_eq_mem, decide_eq_false_iff_not, List.mem_cons, List.not_mem_nil, or_false]
    omega
  have h1 : ¬o < 0x220120 := by omega
  have h2 : ¬o < 0x220300 := by omega
  have h3 : ¬o < 0x230040 := by omega
  have h4 : ¬o < 0x230120 := by omega
  rw [isCtxReg, hlist]
  simp [h1, h2, h3, h4]

theorem writePfHigh_above {s : State} {o : Nat} (h : 0x2E0000 ≤ o) (v : BitVec 32) : writePfHigh s o v = ignored s 0 := by
  unfold writePfHigh
  dsimp only
  rw [if_neg (by omega), if_neg (by omega), if_neg (by omega), if_neg (by omega), if_neg (by omega), if_neg (by omega),
    if_neg (by omega), if_neg (by omega), if_neg (by omega), if_neg (by omega), if_neg (by omega)]

theorem writeReg_above {s : State} {f o : Nat} (hs : servesWrite s f) (hlo : 0x2E0000 ≤ o) (hhi : o < 0x400000) (v : BitVec 32) :
    writeReg s f o v = ignored s f := by
  by_cases h4 : o % 4 = 0
  · rw [writeReg_emulated hs.2.1 v h4 (by omega) hhi, writeEmu_plain hs (isCtxReg_above hlo), if_neg (by omega)]
    by_cases hf : f = 0
    · subst hf
      rw [if_neg (not_not.2 rfl), if_neg (by omega), if_neg (by omega), writePfHigh_above hlo]
    · rw [if_pos hf]
  · exact writeReg_unaligned hs.2.1 v (by omega) h4

theorem isCtxReg_range {o : Nat} (h : isCtxReg o = true) : 0x200000 ≤ o ∧ o < 0x400000 := by
  simp only [isCtxReg, List.contains_eq_mem, List.mem_cons, List.not_mem_nil, or_false, Bool.or_eq_true, Bool.and_eq_true,
    decide_eq_true_eq, beq_iff_eq] at h
  omega

/-! ### Registers with a range -/

/-- A PF-only register with a range: what a write of it leaves, and what it reads then. -/
structure RangeReg (s : State) (o lo hi : Nat) (v : BitVec 32) (t : State) : Prop where
  aligned : o % 4 = 0
  inside : 0x200024 ≤ o ∧ o < 0x400000
  plain : isCtxReg o = false
  write : writeEmu s 0 o v = if v.toNat < lo ∨ hi < v.toNat then ignored s 0 else t
  read : readEmu t 0 o = v.toNat
  frame : t = { s with sched := t.sched, hbm := t.hbm, power := t.power, time := t.time, fw := t.fw }
  clocks : t.power.clocksStopped = s.power.clocksStopped ∧ t.power.railsGood = s.power.railsGood
  firmware : t.fw.devLoss = s.fw.devLoss

theorem servesWrite_rangeReg {s t : State} {o lo hi : Nat} {v : BitVec 32} (hs : servesWrite s 0) (h : RangeReg s o lo hi v t) :
    servesWrite t 0 := by
  obtain ⟨hready, hopen, hserve⟩ := hs
  obtain ⟨-, -, -, -, -, hframe, ⟨hclk, hrails⟩, hfw⟩ := h
  have hboot : t.boot = s.boot := by rw [hframe]
  have hpins : t.pins = s.pins := by rw [hframe]
  have hlrs : t.lrs = s.lrs := by rw [hframe]
  have hdbg : t.dbg = s.dbg := by rw [hframe]
  have hfns : t.fns = s.fns := by rw [hframe]
  refine ⟨?_, ?_, ?_⟩
  · rw [← hready]
    simp only [ready, perstInside, hboot, hpins, hlrs, hfw, hclk]
  · have hpf : fnExists t 0 = fnExists s 0 := rfl
    rw [← hopen]
    simp only [barOpen, ticking, perstInside, hpf, fnOf, hboot, hpins, hclk, hrails, hfns]
  · rw [← hserve]
    simp only [stewardsServe, hboot, hdbg]

/-- What an emulated register reads while the stewards serve. -/
theorem readReg_emulated {s : State} {o : Nat} (hs : servesWrite s 0) (h4 : o % 4 = 0) (hlo : 0x200000 ≤ o) (hhi : o < 0x400000) :
    readReg s 0 o = reg (readEmu s 0 o) := by
  obtain ⟨hready, hopen, hserve⟩ := hs
  have hbar : ¬(o % 4 ≠ 0 ∨ (!barOpen s 0) = true) := by simp [h4, hopen]
  have hv : vectorsOf 0 = 2048 := rfl
  unfold readReg
  dsimp only
  rw [if_neg hbar, if_neg (by omega), if_neg (by omega), if_neg (by omega), if_neg (by omega), if_pos ⟨hlo, hhi⟩, hready, hserve]
  rfl

theorem RangeReg.inRange {s t : State} {o lo hi : Nat} {v : BitVec 32} (hs : servesWrite s 0) (h : RangeReg s o lo hi v t)
    (hlo : lo ≤ v.toNat) (hhi : v.toNat ≤ hi) : writeReg s 0 o v = t ∧ readReg t 0 o = v := by
  have hin : ¬(v.toNat < lo ∨ hi < v.toNat) := by omega
  obtain ⟨hlow, hhigh⟩ := h.inside
  refine ⟨?_, ?_⟩
  · rw [writeReg_emulated hs.2.1 v h.aligned (by omega) hhigh, h.write, if_neg hin]
  · rw [readReg_emulated (servesWrite_rangeReg hs h) h.aligned (by omega) hhigh, h.read]
    exact BitVec.ofNat_toNat ..

theorem RangeReg.outOfRange {s t : State} {o lo hi : Nat} {v : BitVec 32} (hs : servesWrite s 0) (h : RangeReg s o lo hi v t)
    (hout : v.toNat < lo ∨ hi < v.toNat) : writeReg s 0 o v = ignored s 0 := by
  obtain ⟨hlow, hhigh⟩ := h.inside
  rw [writeReg_emulated hs.2.1 v h.aligned (by omega) hhigh, h.write, if_pos hout]

/-- A value without stray bits fits into its field. -/
theorem toNat_extract_of_plain {v : BitVec 32} {k : Nat} (h : strayBits v (2 ^ k - 1) = false) :
    (v.extractLsb' 0 k).toNat = v.toNat := by
  have hand : v.toNat &&& (2 ^ k - 1) = v.toNat := by simpa [strayBits] using h
  rw [Nat.and_two_pow_sub_one_eq_mod] at hand
  simpa using hand

section
variable {s : State} {v : BitVec 32} (hs : servesWrite s 0)
include hs

theorem rangeReg_ageIA : RangeReg s 0x210010 100 4000000 v { s with sched := { s.sched with ageIA := v } } where
  aligned := rfl
  inside := by decide
  plain := rfl
  write := writeEmu_plain hs rfl v
  read := Nat.zero_add _
  frame := rfl
  clocks := ⟨rfl, rfl⟩
  firmware := rfl

theorem rangeReg_ageBK : RangeReg s 0x210014 100 4000000 v { s with sched := { s.sched with ageBK := v } } where
  aligned := rfl
  inside := by decide
  plain := rfl
  write := writeEmu_plain hs rfl v
  read := Nat.zero_add _
  frame := rfl
  clocks := ⟨rfl, rfl⟩
  firmware := rfl

theorem rangeReg_hbmAge (h : strayBits v 0x1FFFF = false) :
    RangeReg s 0x260008 500 100000 v { s with hbm := { s.hbm with ageLimit := v.extractLsb' 0 17 } } where
  aligned := rfl
  inside := by decide
  plain := rfl
  write := by
    have hw : writeEmu s 0 0x260008 v =
        if (v.extractLsb' 0 17).toNat < 500 ∨ 100000 < (v.extractLsb' 0 17).toNat then ignored s 0
        else countIf (strayBits v 0x1FFFF) { s with hbm := { s.hbm with ageLimit := v.extractLsb' 0 17 } } 0 :=
      writeEmu_plain hs rfl v
    rw [hw, h, toNat_extract_of_plain h]
    rfl
  read := (Nat.zero_add _).trans (toNat_extract_of_plain h)
  frame := rfl
  clocks := ⟨rfl, rfl⟩
  firmware := rfl

theorem rangeReg_cap (h : strayBits v 0x1FF = false) :
    RangeReg s 0x2C0000 250 450 v { s with power := { s.power with cap := v.extractLsb' 0 9 } } where
  aligned := rfl
  inside := by decide
  plain := rfl
  write := by
    have hw : writeEmu s 0 0x2C0000 v =
        if (v.extractLsb' 0 9).toNat < 250 ∨ 450 < (v.extractLsb' 0 9).toNat then ignored s 0
        else countIf (strayBits v 0x1FF) { s with power := { s.power with cap := v.extractLsb' 0 9 } } 0 :=
      writeEmu_plain hs rfl v
    rw [hw, h, toNat_extract_of_plain h]
    rfl
  read := (Nat.zero_add _).trans (toNat_extract_of_plain h)
  frame := rfl
  clocks := ⟨rfl, rfl⟩
  firmware := rfl

theorem rangeReg_period (h : strayBits v 0x3FFFF = false) :
    RangeReg s 0x2D0010 1000 200000 v { s with time := { s.time with periodReg := v.extractLsb' 0 18 } } where
  aligned := rfl
  inside := by decide
  plain := rfl
  write := by
    have hw : writeEmu s 0 0x2D0010 v =
        if (v.extractLsb' 0 18).toNat < 1000 ∨ 200000 < (v.extractLsb' 0 18).toNat then ignored s 0
        else countIf (strayBits v 0x3FFFF) { s with time := { s.time with periodReg := v.extractLsb' 0 18 } } 0 :=
      writeEmu_plain hs rfl v
    rw [hw, h, toNat_extract_of_plain h]
    rfl
  read := (Nat.zero_add _).trans (toNat_extract_of_plain h)
  frame := rfl
  clocks := ⟨rfl, rfl⟩
  firmware := rfl

theorem rangeReg_watchdog (h : strayBits v 0x3FFF = false) :
    RangeReg s 0x280020 100 10000 v { s with fw := { s.fw with wdt := v.extractLsb' 0 14 } } where
  aligned := rfl
  inside := by decide
  plain := rfl
  write := by
    have hw : writeEmu s 0 0x280020 v =
        if (v.extractLsb' 0 14).toNat < 100 ∨ 10000 < (v.extractLsb' 0 14).toNat then ignored s 0
        else countIf (strayBits v 0x3FFF) { s with fw := { s.fw with wdt := v.extractLsb' 0 14 } } 0 :=
      writeEmu_plain hs rfl v
    rw [hw, h, toNat_extract_of_plain h]
    rfl
  read := (Nat.zero_add _).trans (toNat_extract_of_plain h)
  frame := rfl
  clocks := ⟨rfl, rfl⟩
  firmware := rfl

end

/-- Every register of the list is one with a range. -/
theorem exists_rangeReg {s : State} (hs : servesWrite s 0) {o lo hi : Nat} {mask v : BitVec 32}
    (h : (o, lo, hi, mask) ∈ ([(0x210010, 100, 4000000, 0xFFFFFFFF), (0x210014, 100, 4000000, 0xFFFFFFFF), (0x260008, 500, 100000, 0x1FFFF),
       (0x2C0000, 250, 450, 0x1FF), (0x2D0010, 1000, 200000, 0x3FFFF), (0x280020, 100, 10000, 0x3FFF)] :
         List (Nat × Nat × Nat × BitVec 32))) (hv : strayBits v mask.toNat = false) : ∃ t, RangeReg s o lo hi v t := by
  simp only [List.mem_cons, Prod.mk.injEq, List.not_mem_nil, or_false] at h
  obtain ⟨rfl, rfl, rfl, rfl⟩ | ⟨rfl, rfl, rfl, rfl⟩ | ⟨rfl, rfl, rfl, rfl⟩ | ⟨rfl, rfl, rfl, rfl⟩ | ⟨rfl, rfl, rfl, rfl⟩ |
    ⟨rfl, rfl, rfl, rfl⟩ := h
  · exact ⟨_, rangeReg_ageIA hs⟩
  · exact ⟨_, rangeReg_ageBK hs⟩
  · exact ⟨_, rangeReg_hbmAge hs hv⟩
  · exact ⟨_, rangeReg_cap hs hv⟩
  · exact ⟨_, rangeReg_period hs hv⟩
  · exact ⟨_, rangeReg_watchdog hs hv⟩

/-! ### Accesses of other sizes -/

section
variable {s : State} {f o : Nat} (hs : servesWrite s f) (w : Word64)
include hs

theorem writeAccess_small {size : AccessSize} (h : size = .b8 ∨ size = .b16) : writeAccess s f o size w = ignored s f := by
  obtain ⟨hready, hopen, -⟩ := hs
  have hgo : ¬((!barOpen s f) = true ∨ (o < 0x100000 ∧ (!ready s) = true)) := by simp [hready, hopen]
  rcases h with rfl | rfl <;> exact if_neg hgo

theorem writeAccess_b64 :
    writeAccess s f o .b64 w =
      if o % 8 = 0 ∧ 0x120000 ≤ o ∧ o < 0x120000 + 16 * vectorsOf f then
        msixWrite (msixWrite s f o (w.setWidth 32)) f (o + 4) (w.extractLsb' 32 32)
      else ignored s f := by
  obtain ⟨hready, hopen, -⟩ := hs
  simp only [writeAccess, hready, hopen, Bool.not_true, Bool.false_eq_true, and_false, if_false]

end

/-- A mask that leaves out the low two bits. -/
theorem and_dropLow (n k : Nat) : n &&& (2 ^ (k + 2) - 4) = 4 * (n / 4 % 2 ^ k) := by
  have hmask : 2 ^ (k + 2) - 4 = 2 ^ 2 * (2 ^ k - 1) := by rw [pow_add]; omega
  have hmod : n / 4 % 2 ^ k = n / 2 ^ 2 &&& (2 ^ k - 1) := (Nat.and_two_pow_sub_one_eq_mod ..).symm
  rw [hmask, hmod, show 4 = 2 ^ 2 from rfl]
  refine Nat.eq_of_testBit_eq fun i => ?_
  rw [Nat.testBit_and, Nat.testBit_two_pow_mul, Nat.testBit_two_pow_mul, Nat.testBit_and, Nat.testBit_div_two_pow]
  by_cases hi : 2 ≤ i
  · rw [show i - 2 + 2 = i by omega]
    simp [hi]
  · simp [hi]

/-- The two words of a 64-bit write make its address, aligned to 4 bytes. -/
theorem setHi_setLo (a w : Word64) :
    setHi (setLo a (w.setWidth 32) 0xFFFFFFFC) (w.extractLsb' 32 32) 0xFFFFFFFF = w &&& 0xFFFFFFFFFFFFFFFC := by
  have hlo : (w.setWidth 32).toNat &&& 0xFFFFFFFC = 4 * (w.toNat % 2 ^ 32 / 4 % 2 ^ 30) := by
    rw [BitVec.toNat_setWidth]
    exact and_dropLow _ 30
  have hhi : (w.extractLsb' 32 32).toNat &&& 0xFFFFFFFF = w.toNat / 2 ^ 32 % 2 ^ 32 := by
    rw [show 0xFFFFFFFF = 2 ^ 32 - 1 from rfl, Nat.and_two_pow_sub_one_eq_mod]
    simp [Nat.shiftRight_eq_div_pow]
  have hall : w.toNat &&& 0xFFFFFFFFFFFFFFFC = 4 * (w.toNat / 4 % 2 ^ 62) := and_dropLow _ 62
  have hw := w.isLt
  refine BitVec.eq_of_toNat_eq ?_
  rw [setHi, setLo, hlo, hhi, BitVec.toNat_and]
  refine Eq.trans ?_ hall.symm
  rw [BitVec.toNat_ofNat, BitVec.toNat_ofNat]
  omega

theorem writeAccess_msix {s : State} {f o i : Nat} (hs : servesWrite s f) (hi : i < vectorsOf f) (ho : o = 0x120000 + 16 * i)
    (w : Word64) :
    writeAccess s f o .b64 w = setFn s f { fnOf s f with
      msix := tblPut (fnOf s f).msix i { tblGetD (fnOf s f).msix i Msix.reset with address := w &&& 0xFFFFFFFFFFFFFFFC } } := by
  have hent : (o - 0x120000) / 16 = i := by omega
  have hent' : (o + 4 - 0x120000) / 16 = i := by
    rw [ho, Nat.add_assoc, Nat.add_sub_cancel_left]
    omega
  have hlo : o % 16 = 0 := by omega
  have hhi : (o + 4) % 16 = 4 := by omega
  have hfirst : msixWrite s f o (w.setWidth 32) = setFn s f { fnOf s f with
      msix := tblPut (fnOf s f).msix i { tblGetD (fnOf s f).msix i Msix.reset with
        address := setLo (tblGetD (fnOf s f).msix i Msix.reset).address (w.setWidth 32) 0xFFFFFFFC } } := by
    unfold msixWrite
    dsimp only
    rw [hent, if_pos hlo]
  have hne : ¬(4 : Nat) = 0 := by decide
  rw [writeAccess_b64 hs, if_pos ⟨by omega, by omega, by omega⟩, hfirst]
  unfold msixWrite
  dsimp only
  rw [hent', hhi, if_neg hne, if_pos rfl, fnOf_setFn, setFn_setFn]
  simp only [tblGetD_tblPut_same, tblPut_tblPut, setHi_setLo]

/-! ### The configuration space, and actions of the PF -/

theorem extract_setWidth (w : Word64) {a n : Nat} (h : a + n ≤ 32) : (w.setWidth 32).extractLsb' a n = w.extractLsb' a n := by
  refine BitVec.eq_of_getLsbD_eq fun i hi => ?_
  have hlt : a + i < 32 := by omega
  simp [hi, hlt]

theorem configWrite_deviceControl {s : State} {f : Nat} (ht : ticking s = true) (hl : s.boot.linkUp = true)
    (hf : fnExists s f = true) (v : BitVec 32) :
    configWrite s f .deviceControl v = setFn s f { fnOf s f with
      cfg := { (fnOf s f).cfg with maxPayload := v.extractLsb' 5 3, maxReadReq := v.extractLsb' 12 3 } } := by
  have hgo : ¬(!(ticking s && s.boot.linkUp && fnExists s f)) = true := by simp [ht, hl, hf]
  exact if_neg hgo

theorem pfWrite_vf {s : State} {f : Nat} (hs : servesWrite s f) (hf : f ≠ 0) (k : State → State) : pfWrite s f k = ignored s f :=
  (emuWrite_serves hs _).trans (if_neg hf)

theorem hwWrite_vf {s : State} {f : Nat} (ho : barOpen s f = true) (hf : f ≠ 0) (k : State → State) : hwWrite s f k = ignored s f := by
  rw [hwWrite, ho, if_neg (by decide), if_neg hf]

/-- Settles O56. -/
theorem registersKeepValuesInRange : Obligations.registersKeepValuesInRange := by
  unfold Obligations.registersKeepValuesInRange
  have hword (v : BitVec 32) : (v.setWidth 64).setWidth 32 = v := by simp
  have hwrite (s : State) (f : BitVec 8) (o : BitVec 24) (v : BitVec 32) :
      exec (.registerWrite f (.bar0 o .b32) (v.setWidth 64)) s = .next (writeReg s f.toNat o.toNat v) :=
    congrArg (fun u => Host.Outcome.next (writeReg s f.toNat o.toNat u)) (hword v)
  refine ⟨fun s o lo hi mask v hs hm hv => ?_, fun s f o v hs => ?_, fun s f w ht hl hf => ?_, fun s f v hs hf row hrow => ?_⟩
  · obtain ⟨t, ht⟩ := exists_rangeReg hs hm hv
    have ho : (BitVec.ofNat 24 o).toNat = o := by
      rw [BitVec.toNat_ofNat]
      exact Nat.mod_eq_of_lt (by have := ht.inside; omega)
    have hrow := hwrite s 0 (BitVec.ofNat 24 o) v
    rw [ho] at hrow
    refine ⟨fun hlo hhi => ?_, fun hout => hrow.trans (congrArg Host.Outcome.next (ht.outOfRange hs hout))⟩
    obtain ⟨hwr, hrd⟩ := ht.inRange hs hlo hhi
    exact ⟨t, hrow.trans (congrArg Host.Outcome.next hwr), hrd, ht.frame⟩
  · refine ⟨fun ho h4 => (hwrite s f o v).trans (congrArg Host.Outcome.next (writeReg_unaligned hs.2.1 v ho h4)),
      fun hlo hhi => (hwrite s f o v).trans (congrArg Host.Outcome.next (writeReg_above hs hlo hhi v)), fun hr h4 hc => ?_,
      fun w size => ⟨fun h => congrArg Host.Outcome.next (writeAccess_small hs w h), fun h => ?_⟩,
      fun w i hi ho => congrArg Host.Outcome.next (writeAccess_msix hs hi ho w)⟩
    · obtain ⟨hlo, hhi⟩ := isCtxReg_range hr
      rw [hwrite, writeReg_emulated hs.2.1 v h4 hlo hhi, writeEmu_noContext hs hr hc]
    · exact congrArg Host.Outcome.next ((writeAccess_b64 hs w).trans (if_neg (by omega)))
  · refine congrArg (fun t => Host.Outcome.next (settleLive t)) ((configWrite_deviceControl ht hl hf _).trans ?_)
    rw [extract_setWidth w (by decide), extract_setWidth w (by decide)]
  · have hf0 : f.toNat ≠ 0 := fun h => hf (BitVec.eq_of_toNat_eq h)
    have hpf (k : State → State) : (Host.Outcome.next (pfWrite s f.toNat k) : Host.Outcome State Fault Refusal) =
        .next (ignored s f.toNat) :=
      congrArg Host.Outcome.next (pfWrite_vf hs hf0 k)
    have hhw (k : State → State) : (Host.Outcome.next (hwWrite s f.toNat k) : Host.Outcome State Fault Refusal) =
        .next (ignored s f.toNat) :=
      congrArg Host.Outcome.next (hwWrite_vf hs.2.1 hf0 k)
    simp only [List.mem_cons, List.not_mem_nil, or_false] at hrow
    rcases hrow with rfl | rfl | rfl | rfl | rfl | rfl | rfl | rfl | rfl | rfl | rfl | rfl | rfl | rfl | rfl
    · exact hpf _
    · exact hpf _
    · exact hpf _
    · exact hpf _
    · exact hpf _
    · exact hpf _
    · exact hpf _
    · exact hpf _
    · exact hpf _
    · exact hpf _
    · exact hpf _
    · exact hhw _
    · exact hhw _
    · exact hpf _
    · exact hpf _

end Sys2Proof.Machine
end

/-! SUPPORT. The MCTP endpoint and the test port (R439, R459, R519, R521). -/

section
namespace Sys2Proof.Machine

/-! ### Little-endian fields -/

theorem leNat_leBytes (n v : Nat) : leNat (leBytes n v) = v % 256 ^ n := by
  induction n generalizing v with
  | zero => exact (Nat.mod_one v).symm
  | succ n ih =>
    have hmod := Nat.mod_mul (a := 256) (b := 256 ^ n) (x := v)
    rw [pow_succ', hmod, leBytes, leNat, ih, BitVec.toNat_ofNat]

theorem leNat_leBytes_toNat {w : Nat} {n : Nat} (v : BitVec w) (h : 2 ^ w ≤ 256 ^ n) : leNat (leBytes n v.toNat) = v.toNat := by
  rw [leNat_leBytes]
  exact Nat.mod_eq_of_lt (Nat.lt_of_lt_of_le v.isLt h)

/-- A field that fills the front of a message. -/
theorem fieldAt_front (a b : List Byte) : fieldAt (a ++ b) 0 a.length = leNat a := by
  unfold fieldAt
  rw [List.drop_zero, List.take_left']
  rfl

/-- A field that fills the rest of a message. -/
theorem fieldAt_rest (a b : List Byte) : fieldAt (a ++ b) a.length b.length = leNat b := by
  unfold fieldAt
  rw [List.drop_left', List.take_length]
  rfl

/-! ### Vendor-defined messages -/

theorem length_healthBytes (s : State) : (healthBytes s).length = 42 := by
  simp only [healthBytes, List.length_append, List.length_flatMap, leBytes_length]
  rfl

theorem serveMessage_serves {s : State} (h : endpointServes s = true) (k : State → State) : serveMessage s k = k s := if_pos h

section
variable (s : State) {d : List Byte}

theorem vendorMessage_health : vendorMessage s [1] = respond s ([1, 0] ++ healthBytes s) := rfl

theorem vendorMessage_health_bad (h : d.length ≠ 0) : vendorMessage s (1 :: d) = respond s [1, 2] := if_neg h

theorem vendorMessage_log_bad (h : d.length ≠ 5) : vendorMessage s (2 :: d) = respond s [2, 2] := if_pos h

theorem vendorMessage_clear_bad (h : d.length ≠ 4) : vendorMessage s (3 :: d) = respond s [3, 2] := if_pos h

theorem vendorMessage_counter_bad (h : d.length ≠ 2) : vendorMessage s (4 :: d) = respond s [4, 2] := if_pos h

theorem vendorMessage_unknown {cmd : Byte} (h : cmd = 0 ∨ 4 < cmd) (d : List Byte) : vendorMessage s (cmd :: d) = respond s [cmd, 1] := by
  have hne (n : Byte) (h0 : n ≠ 0) (h4 : n ≤ 4) : cmd ≠ n := by
    rintro rfl
    rcases h with rfl | h
    · exact h0 rfl
    · exact BitVec.not_lt.2 h4 h
  simp only [vendorMessage, if_neg (hne 1 (by decide) (by decide)), if_neg (hne 2 (by decide) (by decide)),
    if_neg (hne 3 (by decide) (by decide)), if_neg (hne 4 (by decide) (by decide))]

theorem vendorMessage_log_of (h : d.length = 5) (hn : ¬(fieldAt d 4 1 = 0 ∨ 4 < fieldAt d 4 1)) :
    vendorMessage s (2 :: d) =
      respond s (2 :: 0 :: (List.range (fieldAt d 4 1)).flatMap
        fun i => logRecord s (BitVec.ofNat 32 (fieldAt d 0 4) + BitVec.ofNat 32 i).toNat) :=
  (if_neg (not_not.2 h)).trans (if_neg hn)

theorem vendorMessage_clear_of (h : d.length = 4) :
    vendorMessage s (3 :: d) = respond (clearFaultStatus s (BitVec.ofNat 32 (fieldAt d 0 4))) [3, 0] := if_neg (not_not.2 h)

theorem vendorMessage_counter_of (h : d.length = 2) :
    vendorMessage s (4 :: d) = respond s (4 :: 0 :: counterBytes s (fieldAt d 0 2)) := if_neg (not_not.2 h)

theorem vendorMessage_log (q : BitVec 32) {n : Nat} (h1 : 1 ≤ n) (h4 : n ≤ 4) :
    vendorMessage s (2 :: leBytes 4 q.toNat ++ leBytes 1 n) =
      respond s ([2, 0] ++ (List.range n).flatMap fun i => logRecord s (q + BitVec.ofNat 32 i).toNat) := by
  have hlen : (leBytes 4 q.toNat ++ leBytes 1 n).length = 5 := rfl
  have hq : fieldAt (leBytes 4 q.toNat ++ leBytes 1 n) 0 4 = q.toNat := (fieldAt_front _ _).trans (leNat_leBytes_toNat q (by decide))
  have hn : fieldAt (leBytes 4 q.toNat ++ leBytes 1 n) 4 1 = n := by
    refine (fieldAt_rest (leBytes 4 q.toNat) (leBytes 1 n)).trans ?_
    rw [leNat_leBytes]
    omega
  have hin : ¬(n = 0 ∨ 4 < n) := by omega
  have hrow := vendorMessage_log_of s hlen (by rw [hn]; exact hin)
  rw [hq, hn, BitVec.ofNat_toNat, BitVec.setWidth_eq] at hrow
  exact hrow

theorem vendorMessage_clear (v : BitVec 32) :
    vendorMessage s (3 :: leBytes 4 v.toNat) = respond (clearFaultStatus s v) [3, 0] := by
  have hv : fieldAt (leBytes 4 v.toNat) 0 4 = v.toNat := leNat_leBytes_toNat (n := 4) v (by decide)
  rw [vendorMessage_clear_of s (leBytes_length 4 _), hv, BitVec.ofNat_toNat, BitVec.setWidth_eq]

theorem vendorMessage_counter (n : BitVec 16) :
    vendorMessage s (4 :: leBytes 2 n.toNat) = respond s ([4, 0] ++ counterBytes s n.toNat) := by
  have hn : fieldAt (leBytes 2 n.toNat) 0 2 = n.toNat := leNat_leBytes_toNat (n := 2) n (by decide)
  rw [vendorMessage_counter_of s (leBytes_length 2 _), hn]
  rfl

theorem counterBytes_eq (n : Nat) :
    counterBytes s n = leBytes 8 (if isCounter n = true then
      (counterOf s n).value + (if (counterOf s n).sat = true then 2 ^ 63 else 0) else 0) := by
  have hsat : 2 ^ 63 * bit (counterOf s n).sat = if (counterOf s n).sat = true then 2 ^ 63 else 0 := by
    cases (counterOf s n).sat <;> rfl
  rw [← hsat]
  rfl

end

/-- Settles O59. -/
theorem endpointAnswers : Obligations.endpointAnswers := by
  unfold Obligations.endpointAnswers
  intro s h answer
  have hrow (k : State → State) : (Host.Outcome.next (serveMessage s k) : Host.Outcome State Fault Refusal) = .next (k s) :=
    congrArg Host.Outcome.next (serveMessage_serves h k)
  refine ⟨hrow _, length_healthBytes s, fun q n h1 h4 => ?_, fun v => ?_, fun n => ?_, fun d => ⟨fun hd => ?_, fun hd => ?_, fun hd => ?_,
    fun hd => ?_, fun cmd hc => ?_, hrow _⟩, fun a => hrow _⟩
  · exact (hrow fun u => vendorMessage u _).trans (congrArg Host.Outcome.next (vendorMessage_log s q h1 h4))
  · exact (hrow fun u => vendorMessage u _).trans (congrArg Host.Outcome.next (vendorMessage_clear s v))
  · refine (hrow fun u => vendorMessage u _).trans (congrArg Host.Outcome.next ((vendorMessage_counter s n).trans ?_))
    rw [counterBytes_eq]
    rfl
  · exact (hrow fun u => vendorMessage u _).trans (congrArg Host.Outcome.next (vendorMessage_health_bad s hd))
  · exact (hrow fun u => vendorMessage u _).trans (congrArg Host.Outcome.next (vendorMessage_log_bad s hd))
  · exact (hrow fun u => vendorMessage u _).trans (congrArg Host.Outcome.next (vendorMessage_clear_bad s hd))
  · exact (hrow fun u => vendorMessage u _).trans (congrArg Host.Outcome.next (vendorMessage_counter_bad s hd))
  · exact (hrow fun u => vendorMessage u _).trans (congrArg Host.Outcome.next (vendorMessage_unknown s hc d))

/-! ### The test port -/

/-- The engine's inside sees PERST_N low: the ball is low or TEST_EN holds it. -/
theorem perstInside_low {s : State} (h : s.pins.perstHigh = false ∨ s.pins.testEn = true) : perstInside s = false := by
  rcases h with h | h <;> simp [perstInside, h]

theorem perstInside_high {s : State} (hp : s.pins.perstHigh = true) (ht : s.pins.testEn = false) : perstInside s = true := by
  simp [perstInside, hp, ht]

theorem debugOpen_true {s : State} (h : s.fuses.lcs = 0 ∨ s.fuses.lcs = 3 ∨ s.fuses.lcs = 4) : debugOpen s = true := by
  rcases h with h | h | h <;> simp [debugOpen, h]

theorem debugOpen_false {s : State} (h0 : s.fuses.lcs ≠ 0) (h3 : s.fuses.lcs ≠ 3) (h4 : s.fuses.lcs ≠ 4) : debugOpen s = false := by
  rw [debugOpen, beq_false_of_ne h0, beq_false_of_ne h3, beq_false_of_ne h4]
  rfl

theorem haltCore_present {s : State} {c : Nat} {k : Core} (h : s.fw.cores[c]? = some k) (halt : Bool) :
    haltCore s c halt = { s with fw := { s.fw with cores := s.fw.cores.set c { k with debugHalt := halt } } } := by
  rw [haltCore, h]

/-- An instruction that takes balls away acts, or acts as BYPASS. -/
theorem testPort_balls {i : TestInstr} (h : i = .extest ∨ i = .takesBalls) (s : State) :
    testPort s i = { s with pins := { s.pins with testInstr := if perstInside s then .bypass else i } } := by
  rcases h with rfl | rfl <;> rfl

/-- The places of the fields of IDCODE. -/
theorem idcode_places {r x : Nat} (hr : r < 16) (hx : x < 4096) :
    (268435456 * r + 4096 * 38400 + x) % 4294967296 / 268435456 % 16 = r ∧
      (268435456 * r + 4096 * 38400 + x) % 4294967296 / 4096 % 65536 = 38400 := by
  constructor <;> omega

theorem idcode_fields (s : State) : (idcode s).extractLsb' 28 4 = s.fuses.rev ∧ (idcode s).extractLsb' 12 16 = 0x9600 := by
  obtain ⟨hrev, hpart⟩ := idcode_places s.fuses.rev.isLt (Nat.mod_lt (Config.freeNat 0) (by decide : 2 ^ 12 > 0))
  refine ⟨BitVec.eq_of_toNat_eq ?_, BitVec.eq_of_toNat_eq ?_⟩
  · rw [BitVec.extractLsb'_toNat, idcode, BitVec.toNat_ofNat, Nat.shiftRight_eq_div_pow]
    exact hrev
  · rw [BitVec.extractLsb'_toNat, idcode, BitVec.toNat_ofNat, Nat.shiftRight_eq_div_pow]
    exact hpart

/-- Settles O60. -/
theorem testPortActsAsBypass : Obligations.testPortActsAsBypass := by
  unfold Obligations.testPortActsAsBypass
  intro s put
  obtain ⟨hrev, hpart⟩ := idcode_fields s
  refine ⟨fun i hi => ⟨fun hp => ?_, fun hp ht => ?_⟩, fun c k hk hl => ?_, fun c h0 h3 h4 => ?_, rfl, rfl, hrev, hpart⟩
  · refine congrArg Host.Outcome.next ((testPort_balls hi s).trans ?_)
    rw [perstInside_low hp]
    rfl
  · refine congrArg Host.Outcome.next ((testPort_balls hi s).trans ?_)
    rw [perstInside_high hp ht]
    rfl
  · intro held
    have hopen := debugOpen_true hl
    refine ⟨congrArg Host.Outcome.next ((if_pos hopen).trans ?_), congrArg Host.Outcome.next ((if_pos hopen).trans ?_)⟩
    · rw [haltCore_present hk]
    · rw [haltCore_present hk]
  · have hshut := ne_true_of_eq_false (debugOpen_false h0 h3 h4)
    exact ⟨congrArg Host.Outcome.next (if_neg hshut), congrArg Host.Outcome.next (if_neg hshut)⟩

end Sys2Proof.Machine
end

/-! SUPPORT. SPN_CTRL, the Span ports and Equinox (R477, R488 to R490, R518). -/

section
namespace Sys2Proof.Machine

/-! ### SPN_CTRL -/

theorem spanCtrl_commit (s : State) : spanCtrl s 1 = spanCommit s := rfl

theorem spanCtrl_leave (s : State) : spanCtrl s 2 = spanLeave s := rfl

theorem spanCtrl_remeasure (s : State) : spanCtrl s 4 = spanRemeasure s := rfl

theorem spanCommit_joins {s : State} (ha : s.span.active = false)
    (hp : (s.retired.ports.contains 0 && s.retired.ports.contains 1) = false) :
    spanCommit s = eqxStart { s with
      span := { s.span with locked := true, active := true }, time := { s.time with eqxValid := false } } :=
  (if_neg (ne_true_of_eq_false ha)).trans (if_neg (ne_true_of_eq_false hp))

theorem spanCommit_retired {s : State} (ha : s.span.active = false)
    (hp : (s.retired.ports.contains 0 && s.retired.ports.contains 1) = true) :
    spanCommit s = { s with span := { s.span with locked := true } } := (if_neg (ne_true_of_eq_false ha)).trans (if_pos hp)

/-! ### Ports -/

section
variable {s : State} {p : Bool}

theorem blockLockLoss_up (h : (portOf s p).state = 2) (again : Bool) :
    blockLockLoss s p again =
      if again then setPort s p { portOf s p with state := 0, lostAt := some s.time.dtime } else retirePort s p 2 :=
  if_neg (not_not.2 h)

theorem blockLockLoss_down (h : (portOf s p).state ≠ 2) (again : Bool) : blockLockLoss s p again = s := if_pos h

section
variable (h2 : (portOf s p).state ≠ 2) (h3 : (portOf s p).state ≠ 3) (hr : s.boot.released = true)
include h2 h3 hr

theorem spanLinkUp_trains (hl : (portOf s p).lostAt = none) :
    spanLinkUp s p = setPort s p { portOf s p with state := 2, calAt := s.time.dtime, calTemp := s.power.tj } := by
  simp only [spanLinkUp, h2, h3, hr, hl, Bool.not_true, Bool.false_eq_true, or_self, if_false]

theorem spanLinkUp_regains {t : Word64} (hl : (portOf s p).lostAt = some t) :
    spanLinkUp s p =
      if now s ≤ t.toNat + 100000000 then transientPort (setPort s p { portOf s p with state := 2, lostAt := none }) p
      else retirePort s p 2 := by
  simp only [spanLinkUp, h2, h3, hr, hl, Bool.not_true, Bool.false_eq_true, or_self, if_false]

end

theorem portRecalibration_due (h : recalibrationDue s p = true) (good : Bool) :
    portRecalibration s p good =
      if good then setPort s p { portOf s p with calAt := s.time.dtime, calTemp := s.power.tj } else retirePort s p 2 :=
  if_neg (by rw [h]; decide)

theorem portRecalibration_early (h : recalibrationDue s p = false) (good : Bool) : portRecalibration s p good = s :=
  if_pos (by rw [h]; rfl)

end

/-! ### Equinox -/

section
variable {s : State} {f : SpanFrame} (ht : takesFrame s f = true)
include ht

theorem takeEqx_request (hf : f.flags.getLsbD 0 = false) :
    takeEqx s f = sendFrame s 7 1 f.src.toNat 0 (now s) s.time.dtime [] (some f.seq) := by
  simp only [takeEqx, ht, hf, Bool.not_true, Bool.false_eq_true, if_false]

theorem takeEqx_reply (hf : f.flags.getLsbD 0 = true) (hs : f.src = s.span.refChip ∧ f.seq = s.span.eqxSeq) :
    takeEqx s f = eqxReply s f.arg.toNat f.addr.toNat := by
  simp only [takeEqx, ht, hf, Bool.not_true, Bool.false_eq_true, if_false, if_true, if_pos hs]

theorem takeEqx_stray (hf : f.flags.getLsbD 0 = true) (hs : ¬(f.src = s.span.refChip ∧ f.seq = s.span.eqxSeq)) : takeEqx s f = s := by
  simp only [takeEqx, ht, hf, Bool.not_true, Bool.false_eq_true, if_false, if_true, if_neg hs]

end

theorem eqxReply_closed {s : State} (h : s.span.eqxSent = none) (t2 t3 : Nat) : eqxReply s t2 t3 = s := by
  simp only [eqxReply, h]

/-- A reply to the open request adds a sample; the sixteenth ends the measurement. -/
theorem eqxReply_open {s : State} {t1 : Word64} (h : s.span.eqxSent = some t1) (t2 t3 : Nat) :
    eqxReply s t2 t3 =
      let l := s.span.eqxSamples ++ [((now s : Int) - t1.toNat - ((t3 : Int) - t2), (t2 : Int) - t1.toNat + ((t3 : Int) - now s))]
      let u : State := { s with span := { s.span with eqxSamples := l, eqxSent := none } }
      if 16 ≤ l.length then eqxFinish u else { u with span := { u.span with eqxNext := some (t1 + 100000) } } := by
  simp only [eqxReply, h]

/-- OFFSET and ERR of a measurement whose ERR fits into 16 bits. -/
theorem eqxFinish_fits {s : State} {y : Int × Int} (hb : bestSample s.span.eqxSamples = some y) (h0 : 0 ≤ y.1) (h1 : y.1 < 131071) :
    eqxFinish s = { s with
      time := { s.time with
        eqxOffset := BitVec.ofInt 64 ((y.2 + 1) / 2), eqxValid := true, eqxErr := BitVec.ofNat 16 ((y.1 + 1) / 2).toNat }
      span := { s.span with eqxSamples := [] } } := by
  have herr : 0 ≤ (y.1 + 1) / 2 ∧ (y.1 + 1) / 2 < 65536 := by omega
  simp only [eqxFinish, hb, if_pos herr]

/-- Settles O57. -/
theorem spanMembersPortsAndEquinox : Obligations.spanMembersPortsAndEquinox := by
  unfold Obligations.spanMembersPortsAndEquinox
  refine ⟨?_, ?_, ?_⟩
  · intro s hs measured
    have hpf (k : State → State) : (Host.Outcome.next (pfWrite s 0 k) : Host.Outcome State Fault Refusal) = .next (k s) :=
      congrArg Host.Outcome.next (pfWrite_serves hs k)
    refine ⟨fun ha hp => ?_, fun ha hp => ?_, fun ha => ?_, fun ha => ?_, fun ha => ⟨?_, ?_⟩⟩
    · exact (hpf fun u => spanCtrl u 1).trans (congrArg Host.Outcome.next (spanCommit_joins ha hp))
    · exact (hpf fun u => spanCtrl u 1).trans (congrArg Host.Outcome.next (spanCommit_retired ha hp))
    · exact (hpf fun u => spanCtrl u 4).trans (congrArg Host.Outcome.next (if_pos ha))
    · exact (hpf fun u => settleLive (spanCtrl u 2)).trans (congrArg (fun t => Host.Outcome.next (settleLive t)) (if_pos ha))
    · exact (hpf fun u => spanCtrl u 4).trans (congrArg Host.Outcome.next (if_neg (ne_true_of_eq_false ha)))
    · exact (hpf fun u => settleLive (spanCtrl u 2)).trans
        (congrArg (fun t => Host.Outcome.next (settleLive t)) (if_neg (ne_true_of_eq_false ha)))
  · intro s p ht x
    have hrow (t : State) : (Host.Outcome.next (if ticking s = true then settleLive t else s) : Host.Outcome State Fault Refusal) =
      .next (settleLive t) := congrArg Host.Outcome.next (if_pos ht)
    have hto {t u : State} (h : t = u) : (Host.Outcome.next (settleLive t) : Host.Outcome State Fault Refusal) = .next (settleLive u) := by
      rw [h]
    refine ⟨fun h => ⟨(hrow _).trans (hto (blockLockLoss_up h true)), (hrow _).trans (hto (blockLockLoss_up h false))⟩,
      fun h again => (hrow _).trans (hto (blockLockLoss_down h again)),
      fun h2 h3 hr => ⟨fun hl => (hrow _).trans (hto (spanLinkUp_trains h2 h3 hr hl)), fun t hl => ⟨fun hin => ?_, fun hout => ?_⟩⟩,
      fun h => ⟨(hrow _).trans (hto (portRecalibration_due h true)), (hrow _).trans (hto (portRecalibration_due h false))⟩,
      fun h good => (hrow _).trans (hto (portRecalibration_early h good))⟩
    · exact (hrow _).trans (hto ((spanLinkUp_regains h2 h3 hr hl).trans (if_pos hin)))
    · exact (hrow _).trans (hto ((spanLinkUp_regains h2 h3 hr hl).trans (if_neg (Nat.not_le.2 hout))))
  · intro s f ht
    refine ⟨fun hf => congrArg Host.Outcome.next (takeEqx_request ht hf), ?_, fun hf hno => congrArg Host.Outcome.next ?_⟩
    · intro t1 hf hsrc hseq hsent x l u
      have hreply := (takeEqx_reply ht hf ⟨hsrc, hseq⟩).trans (eqxReply_open hsent f.arg.toNat f.addr.toNat)
      refine ⟨fun hl => congrArg Host.Outcome.next (hreply.trans (if_neg (Nat.not_le.2 hl))), fun hl y hy h0 h1 => ?_⟩
      exact congrArg Host.Outcome.next ((hreply.trans (if_pos hl.ge)).trans (eqxFinish_fits (s := u) hy h0 h1))
    · by_cases hs : f.src = s.span.refChip ∧ f.seq = s.span.eqxSeq
      · have hnone : s.span.eqxSent = none := by
          rcases hno with h | h | h
          · exact absurd hs.1 h
          · exact absurd hs.2 h
          · exact h
        rw [takeEqx_reply ht hf hs, eqxReply_closed hnone]
      · exact takeEqx_stray ht hf hs

end Sys2Proof.Machine
end

/-! SUPPORT. Span frames: how they are served and answered, and what waits for an answer (R481 to R486). -/

section
namespace Sys2Proof.Machine

/-! ### Served once -/

section
variable {s : State} {f : SpanFrame} {serve : State → Nat → Nat × State}

theorem serveFrame_ignored (h : takesFrame s f = false) : serveFrame s f serve = s := if_pos (by rw [h]; rfl)

theorem serveFrame_repeated (h : takesFrame s f = true) (hs : s.span.seen.contains (seenKey f) = true) :
    serveFrame s f serve = answer s f 0 := (if_neg (by rw [h]; decide)).trans (if_pos hs)

section
variable (h : takesFrame s f = true) (hs : s.span.seen.contains (seenKey f) = false)
include h hs

theorem serveFrame_noJob (hc : spanContext s f.jobNum.toNat = none) : serveFrame s f serve = answer s f 1 := by
  simp only [serveFrame, h, hs, hc, Bool.not_true, Bool.false_eq_true, if_false]

theorem serveFrame_acked {c : Nat} {u : State} (hc : spanContext s f.jobNum.toNat = some c) (hu : serve s c = (0, u)) :
    serveFrame s f serve = answer { u with span := { u.span with seen := seenKey f :: u.span.seen } } f 0 := by
  simp only [serveFrame, h, hs, hc, hu, Bool.not_true, Bool.false_eq_true, if_false, if_true]

theorem serveFrame_refused {c n : Nat} {u : State} (hc : spanContext s f.jobNum.toNat = some c) (hn : n ≠ 0)
    (hu : serve s c = (n, u)) : serveFrame s f serve = answer u f n := by
  simp only [serveFrame, h, hs, hc, hu, hn, Bool.not_true, Bool.false_eq_true, if_false]

end

end

theorem answer_ack (s : State) (f : SpanFrame) :
    answer s f 0 = sendFrame s 4 0 f.src.toNat f.jobNum.toNat 0 0 [] (some f.seq) := if_pos rfl

theorem answer_nack (s : State) (f : SpanFrame) {n : Nat} (h : n ≠ 0) :
    answer s f n = sendFrame s 5 0 f.src.toNat f.jobNum.toNat 0 (BitVec.ofNat 64 n) [] (some f.seq) := if_neg h

/-! ### Effects -/

section
variable {s : State} {c : Nat} {f : SpanFrame}

theorem takeData_stores (h : awaited s f = none) : takeData s c f = storeBlock s c f.addr.toNat f := by
  simp only [takeData, h]

/-- No other copy in flight has written the bytes that came. -/
theorem spoilLanded_clean (h : ∀ p ∈ s.tiles, ∀ i ∈ p.2.inflight, i.spoiled = []) (o : Outstanding) (r : Range) :
    spoilLanded s o r = s := by
  have hnone : (s.tiles.flatMap fun p => (p.2.inflight.filter fun i => i.remote.contains (o.port, o.seq)).flatMap InFlight.spoiled) = [] :=
    List.flatMap_eq_nil_iff.2 fun p hp => List.flatMap_eq_nil_iff.2 fun i hi => h p hp i (List.mem_filter.1 hi).1
  rw [spoilLanded, hnone]
  rfl

theorem takeData_fills {o : Outstanding} {t a : Nat} {raw : List Byte} (h : awaited s f = some o) (hst : o.store = .tile t a)
    (hr : openWire s c f = some raw) (hw : copyWaits s o = true) (hsp : ∀ p ∈ s.tiles, ∀ i ∈ p.2.inflight, i.spoiled = []) :
    takeData s c f = (0, completeFrames (modFrame { s with localMem := memWriteN s.localMem (2 ^ 21 * t + a) raw } o
      fun x => { x with filled := true })) := by
  simp only [takeData, h, hst, hr, hw, if_true]
  rw [spoilLanded_clean (s := { s with localMem := memWriteN s.localMem (2 ^ 21 * t + a) raw }) hsp]

theorem takeRead_sends {b : List Byte × List Byte} {u : State} (ha : f.addr.toNat % 4096 = 0)
    (hb : askedBlock s c f.addr.toNat = (.ok b, u)) :
    takeRead s c f = (0, (sendTracked u c 1 f.src.toNat f.jobNum.toNat f.arg.toNat 0 (wireBlock u b) .va).2) := by
  simp only [takeRead, ha, hb, ne_eq, not_true_eq_false, if_false]

theorem takeRead_unaligned (ha : f.addr.toNat % 4096 ≠ 0) : takeRead s c f = (2, s) := if_pos ha

theorem askedBlock_raw {a : Nat} {raw : List Byte} {u : State} (hs : sealedBlock s c a = none)
    (hr : readBlock s c a 4096 3 .remote = (.ok raw, u)) :
    askedBlock s c a = (.ok (encodeFor u c none raw).1, (encodeFor u c none raw).2) := by
  simp only [askedBlock, hs, hr]

/-! ### Counters -/

/-- Scores that are folded leave every counter alone. -/
theorem syncs_foldScore (s : State) (e tile buf : Nat) (a : WalkSet) : (foldScore s e tile buf a).syncs = s.syncs := by
  unfold foldScore
  split
  · rfl
  · exact modEntry_syncs ..

theorem syncs_foldFreed (s : State) (g rank : Nat) : (foldFreed s g rank).syncs = s.syncs := by
  unfold foldFreed
  split
  · rfl
  · split
    · exact (modEntry_syncs ..).trans (List.foldlRecOn _ _ (motive := fun u : State => u.syncs = s.syncs) rfl
        fun u hu q _ => (syncs_foldScore ..).trans hu)
    · rfl

theorem syncs_foldContext (s : State) (c : Nat) : (foldContext s c).syncs = s.syncs :=
  List.foldlRecOn _ _ (motive := fun u : State => u.syncs = s.syncs) rfl fun _ hu _ _ =>
    List.foldlRecOn _ _ (motive := fun u : State => u.syncs = s.syncs) hu fun _ hv _ _ => (syncs_foldFreed ..).trans hv

theorem takeSignal_adds {g : Nat} (hg : syncIndex s c f.addr.toNat = some g) (hp : (syncOf s g).poisoned = false)
    (hn : (syncOf s g).value.toNat + f.arg.toNat < 2 ^ 64) :
    ∃ u : State, takeSignal s c f = (0, u) ∧ (syncOf u g).value = (syncOf s g).value + f.arg := by
  have hadd : addSync s g f.arg.toNat = _ := addSyncBy_plus hp hn
  have htake : takeSignal s c f = (0, foldContext (addSync s g f.arg.toNat).1 c) := by
    simp only [takeSignal, hg, hadd, Bool.false_eq_true, if_false]
  refine ⟨_, htake, ?_⟩
  have hsync (u : State) : syncOf (foldContext u c) g = syncOf u g := by rw [syncOf, syncs_foldContext, syncOf]
  rw [hsync, hadd]
  refine (congrArg Sync.value (syncOf_setSync s g ((syncOf s g).plus f.arg.toNat (allSignals s)))).trans ?_
  refine BitVec.eq_of_toNat_eq ?_
  rw [BitVec.toNat_add]
  exact BitVec.toNat_ofNat ..

theorem takeSignal_outside (hg : syncIndex s c f.addr.toNat = none) : takeSignal s c f = (2, s) := by
  simp only [takeSignal, hg]

end

/-! ### Answers -/

theorem takeNack_other {f : SpanFrame} (h3 : 3 < f.arg.toNat) (s : State) : takeNack s f = s := if_pos (.inr (.inr h3))

section
variable {s : State} {f : SpanFrame} {o : Outstanding} (h : takesFrame s f = true)
include h

theorem takeAck_answers (ho : answered s f = some o) :
    takeAck s f =
      let u := completeFrames (modFrame s o fun x => { x with acked := true })
      if 0 < o.resends ∧ !o.acked then transientPort u o.port else u := by
  simp only [takeAck, h, ho, Bool.not_true, Bool.false_eq_true, if_false]

theorem takeNack_fails (ho : answered s f = some o) (h1 : 1 ≤ f.arg.toNat) (h3 : f.arg.toNat ≤ 3) : takeNack s f = failTransfer s o := by
  have hin : ¬((!takesFrame s f) = true ∨ f.arg.toNat = 0 ∨ 3 < f.arg.toNat) := by
    rw [h]
    rintro (h | h | h)
    · cases h
    · omega
    · omega
  simp only [takeNack, if_neg hin, ho]

theorem takeJobFault_open {c : Nat} (hc : spanContext s f.jobNum.toNat = some c) :
    takeJobFault s f = faultJob (dropFrames s c f.jobNum.toNat) c 0x25 (if f.port = true then 1 else 0) false := by
  simp only [takeJobFault, h, hc, Bool.not_true, Bool.false_eq_true, if_false]

theorem takeJobFault_none (hc : spanContext s f.jobNum.toNat = none) : takeJobFault s f = s := by
  simp only [takeJobFault, h, hc, Bool.not_true, Bool.false_eq_true, if_false]

end

/-- What an ACK leaves of the frames that wait. -/
theorem completeFrames_acked (s : State) (o : Outstanding) :
    completeFrames (modFrame s o fun x => { x with acked := true }) =
      let same (x : Outstanding) : Bool := x.port == o.port && x.seq == o.seq
      let l := s.span.outstanding.map fun x => if same x = true then { x with acked := true } else x
      { s with span := { s.span with outstanding := l.filter fun x => !(x.acked && (x.filled || x.frameType != 2)) } } := by
  simp only [completeFrames, modFrame, Bool.and_eq_true, beq_iff_eq]

section
variable {s : State} {p : Bool} {q : BitVec 32} {o : Outstanding} (ha : s.span.active = true) (hz : s.dbg.frozen = none)
  (ho : (s.span.outstanding.find? fun x => x.port == p && x.seq == q && !x.acked) = some o)
include ho

theorem spanResend_early (h : now s < o.sentAt.toNat + 1000 * s.span.rto.toNat) : spanResend s p q = s := by
  simp only [spanResend, ho, h, or_true, if_true]

include ha hz in
theorem spanResend_late (h : o.sentAt.toNat + 1000 * s.span.rto.toNat ≤ now s) :
    spanResend s p q = if s.span.retries.toNat ≤ o.resends then failTransfer s o else resendFrame s o := by
  have hgo : ¬((!s.span.active) = true ∨ s.dbg.frozen.isSome = true ∨ now s < o.sentAt.toNat + 1000 * s.span.rto.toNat) := by
    rw [ha, hz]
    rintro (h' | h' | h')
    · cases h'
    · cases h'
    · omega
  simp only [spanResend, ho, if_neg hgo]

end

theorem failTransfer_faults {s : State} {o : Outstanding} {w : Word64} (hw : spanJobOf s o.ctx = some w) (hn : spanJobNum w = o.jobNum) :
    failTransfer s o = faultJob (dropFrames s o.ctx o.jobNum) o.ctx 0x25 (if o.lastPort = true then 1 else 0) true := by
  have hjob : spanJobOf (dropFrames s o.ctx o.jobNum) o.ctx = some w := hw
  simp only [failTransfer, hjob, if_pos hn]

/-- Settles O58. -/
theorem spanFramesAndAnswers : Obligations.spanFramesAndAnswers := by
  unfold Obligations.spanFramesAndAnswers
  have hto {t u : State} (h : t = u) : (Host.Outcome.next (settleLive t) : Host.Outcome State Fault Refusal) = .next (settleLive u) := by
    rw [h]
  refine ⟨?_, ?_, ?_, ?_, ?_, ?_⟩
  · intro s f row serve hrow
    have hexec : exec row s = .next (settleLive (serveFrame s f serve)) := by
      simp only [List.mem_cons, Prod.mk.injEq, List.not_mem_nil, or_false] at hrow
      obtain ⟨rfl, rfl⟩ | ⟨rfl, rfl⟩ | ⟨rfl, rfl⟩ := hrow <;> rfl
    rw [hexec]
    refine ⟨fun h => hto (serveFrame_ignored h), ?_⟩
    intro h ack nack
    refine ⟨fun hs => hto ((serveFrame_repeated h hs).trans (answer_ack ..)), fun hs => ⟨fun hc => ?_, fun c u hc => ⟨fun hu => ?_,
      fun n hn hu => ?_⟩⟩⟩
    · exact hto ((serveFrame_noJob h hs hc).trans (answer_nack _ _ one_ne_zero))
    · exact hto ((serveFrame_acked h hs hc hu).trans (answer_ack ..))
    · exact hto ((serveFrame_refused h hs hc hn hu).trans (answer_nack _ _ hn))
  · intro s c f
    exact ⟨takeData_stores, fun o t a raw => takeData_fills, fun b u => takeRead_sends, fun a raw u => askedBlock_raw, takeRead_unaligned,
      fun g => takeSignal_adds, takeSignal_outside⟩
  · intro s f o h ho same l u
    have hack := takeAck_answers h ho
    rw [completeFrames_acked] at hack
    refine ⟨fun hno => hto (hack.trans (if_neg ?_)), fun hr hna => hto (hack.trans (if_pos ⟨hr, by rw [hna]; rfl⟩)),
      fun h1 h3 => hto (takeNack_fails h ho h1 h3), fun h3 => hto (takeNack_other h3 s)⟩
    rintro ⟨hr, hna⟩
    rcases hno with h0 | h0
    · omega
    · rw [h0] at hna
      cases hna
  · exact fun s f h => ⟨fun c hc => hto (takeJobFault_open h hc), fun hc => hto (takeJobFault_none h hc)⟩
  · intro s p q o ha hz ho
    refine ⟨fun h => hto (spanResend_early ho h), fun h => ⟨fun hr => ?_, fun hr => ?_⟩⟩
    · exact hto ((spanResend_late ha hz ho h).trans (if_neg (Nat.not_le.2 hr)))
    · exact hto ((spanResend_late ha hz ho h).trans (if_pos hr))
  · exact fun s o w => failTransfer_faults

end Sys2Proof.Machine
end
